-- ==== Sys2Proof/Word.lean ====
section
/-! DEFINITION. The words of the machine: bytes, 16-, 32- and 64-bit words, and the 128-byte line of R245. -/
namespace Sys2Proof

/-- A byte. -/
abbrev W8 := BitVec 8
/-- A 16-bit word. -/
abbrev W16 := BitVec 16
/-- A 32-bit word: one lane word of a register. -/
abbrev W32 := BitVec 32
/-- A 64-bit word: a block word, an address value, a wide lane value. -/
abbrev W64 := BitVec 64
/-- The bytes of one 128-byte line (R245), byte j in bits [8j+7:8j]. -/
abbrev Line := BitVec 1024
/-- One bit for each byte of a line, or for each lane of four warps. -/
abbrev LineMask := BitVec 128
/-- One bit for each lane of a warp (R12). -/
abbrev Lanes := BitVec 32

end Sys2Proof
end

