-- ==== Sys2Proof/Syntax.lean ====
section
/-! DEFINITION. The instructions: one constructor for each row of spec/opcode_table.json. The first 108 are the
body words of a block (R55), with their fields decoded; the other 82 are the whole and indivisible steps of the
device, its firmware, its engines and its host (95_what_each_step_holds.md), with the things they name. -/
namespace Sys2Proof

/-! ### Fields of a body word -/

/-- The TY field (R47). -/
inductive Ty where | i32 | n32 | i64 | n64 | f32 | f16 | bf16 | x16
  deriving DecidableEq, Repr, Inhabited

/-- The PR field (R47): unpredicated, valid where nonzero, valid where zero. -/
inductive Pr where | always | ifNonzero | ifZero
  deriving DecidableEq, Repr, Inhabited

/-- The three operand slots of an instruction (R43). -/
inductive Slot where | left | right | third
  deriving DecidableEq, Repr, Inhabited

/-- A target byte (R43): none, a slot of an instruction, or a write slot. -/
inductive Tgt where
  | none
  | to (slot : Slot) (idx : BitVec 6)
  | wr (n : BitVec 4)
  deriving DecidableEq, Repr, Inhabited

/-- The rounding mode RM (R49, R138). -/
inductive Rm where | rne | rz | rdn | rup
  deriving DecidableEq, Repr, Inhabited

/-- The scope SC (R53, R268). -/
inductive Scope where | warp | team | die | device | system
  deriving DecidableEq, Repr, Inhabited

/-- The order OR (R53). -/
inductive Ord where | relaxed | acquire | release | acqRel
  deriving DecidableEq, Repr, Inhabited

/-- The addressing mode AM (R53, R117). -/
inductive Am where | base | postInc | modulo | indexed
  deriving DecidableEq, Repr, Inhabited

/-- The access width of a load or store (R53). -/
inductive Width where | b1 | b2 | b4 | b8 | b16
  deriving DecidableEq, Repr, Inhabited

/-- The conditions of CMP (R110). -/
inductive Cond where | eq | ne | lt | le | gt | ge
  deriving DecidableEq, Repr, Inhabited

/-- The operations of HOP (R113). -/
inductive HopOp where | add | sub | min | max | absd
  deriving DecidableEq, Repr, Inhabited

/-- The source subformat SUB of the float group (R50). -/
inductive Sub where | asTy | bf16 | f16 | e4m3
  deriving DecidableEq, Repr, Inhabited

/-- The sign functions of FFMA (R153). -/
inductive FmaOp where | pos | sub | neg | negsub
  deriving DecidableEq, Repr, Inhabited

/-- The functions of FSGN (R155). -/
inductive SgnOp where | copy | ncopy | xor | abs | neg
  deriving DecidableEq, Repr, Inhabited

/-- The conditions of FCMP (R156). -/
inductive FCond where | eq | ne | lt | le | gt | ge | uo | ord
  deriving DecidableEq, Repr, Inhabited

/-- The functions of FTRN (R158). -/
inductive Trn where | exp2 | log2 | sin2pi | cos2pi | tanh | sigm
  deriving DecidableEq, Repr, Inhabited

/-- The operations of FOP2 (R162). -/
inductive Fop2Op where | add | sub | mul | fma | min | max
  deriving DecidableEq, Repr, Inhabited

/-- The format codes of CVT (R161); FCLS uses the first five (R160). -/
inductive FmtCode where | f32 | f16 | bf16 | e4m3 | e5m2 | i8 | int
  deriving DecidableEq, Repr, Inhabited

/-- The target formats of the quantisation group (R163). -/
inductive QFmt where | e4m3 | e5m2 | int8 | int4 | int3
  deriving DecidableEq, Repr, Inhabited

/-- The functions of SHFL (R168). -/
inductive ShflOp where | lane | swz | rot | slide
  deriving DecidableEq, Repr, Inhabited

/-- The functions of VOTE (R169). -/
inductive VoteOp where | mask | hit | full | same | cnt | first | pmask
  deriving DecidableEq, Repr, Inhabited

/-- The combining operations of SCAN and WRED (R222). -/
inductive Cmb where | add | min | max | mul | lrec
  deriving DecidableEq, Repr, Inhabited

/-- The operations of ATOM (R288). -/
inductive Aop where | add | min | max | and | or | xor | exch | cas
  deriving DecidableEq, Repr, Inhabited

/-- The level of PREF (R294). -/
inductive PrefLvl where | l1 | l2 | mer
  deriving DecidableEq, Repr, Inhabited

/-- The operation of CCTL (R295). -/
inductive CctlOp where | wb | inv | push | evict
  deriving DecidableEq, Repr, Inhabited

/-- The functions of REGQRY (R180). -/
inductive RegQ where | limit | bound | spilled | credit | pend | free
  deriving DecidableEq, Repr, Inhabited

/-- The classes a TTAKE may ask for (R320). -/
inductive TakeCls where | own | neg | shr
  deriving DecidableEq, Repr, Inhabited

/-- The modes of ADRN (R211). -/
inductive DrainMode where | raw | diff | ratio | gate | img
  deriving DecidableEq, Repr, Inhabited

/-- The messages of SEND (R296). -/
inductive MsgOp where | copy | copym | fillb | scatr | gathr | coll
  deriving DecidableEq, Repr, Inhabited

/-- The fields of an integer instruction, and of SEL (R101, R100). -/
structure IntF where
  ty : Ty
  pr : Pr
  u : Bool
  imm : Option (BitVec 24)
  sat : Bool
  t0 : Tgt
  t1 : Tgt
  deriving DecidableEq, Repr, Inhabited

/-- The fields of a float-group instruction (R149). -/
structure FloatF where
  sub : Sub
  ty : Ty
  pr : Pr
  u : Bool
  imm : Option (BitVec 24)
  sat : Bool
  rm : Rm
  t0 : Tgt
  t1 : Tgt
  deriving DecidableEq, Repr, Inhabited

/-- The fields of MOV (R97); the third and fourth targets stand when FN is 1. -/
structure MovF where
  ty : Ty
  pr : Pr
  u : Bool
  t0 : Tgt
  t1 : Tgt
  more : Option (Tgt × Tgt)
  deriving DecidableEq, Repr, Inhabited

/-- The fields of a quantisation instruction (R163). -/
structure QuantF where
  ue5m3 : Bool
  tgt : QFmt
  ty : Ty
  pr : Pr
  u : Bool
  sat : Bool
  rm : Rm
  t0 : Tgt
  t1 : Tgt
  deriving DecidableEq, Repr, Inhabited

/-- The fields of SCAN and WRED (R221). -/
structure ScanF where
  cmb : Cmb
  ty : Ty
  pr : Pr
  sat : Bool
  rm : Rm
  t0 : Tgt
  t1 : Tgt
  deriving DecidableEq, Repr, Inhabited

/-- The fields of LD, ST, LDS, STS and LDK (R53, R116). -/
structure MemF where
  ty : Ty
  pr : Pr
  am : Am
  width : Width
  sx : Bool
  hint : BitVec 2
  sc : Scope
  ord : Ord
  ss : BitVec 5
  imm : BitVec 14
  t0 : Tgt
  t1 : Tgt
  deriving DecidableEq, Repr, Inhabited

/-- The fields of ATOM (R287). -/
structure AtomF where
  aop : Aop
  ty : Ty
  pr : Pr
  indexed : Bool
  sc : Scope
  ord : Ord
  ss : BitVec 5
  imm : BitVec 14
  t0 : Tgt
  t1 : Tgt
  deriving DecidableEq, Repr, Inhabited

/-- The fields of TTAKE (R320). -/
structure TakeF where
  pr : Pr
  sv : Bool
  spl : Bool
  cls : TakeCls
  tid : BitVec 6
  bnd : BitVec 6
  roff : BitVec 12
  t0 : Tgt
  t1 : Tgt
  deriving DecidableEq, Repr, Inhabited

/-- The fields of MMA (R207). -/
structure MmaF where
  pr : Pr
  spl : Bool
  gng : Bool
  ks : Bool
  tid : BitVec 6
  tda : BitVec 6
  tdb : BitVec 6
  deriving DecidableEq, Repr, Inhabited

/-- The fields of ADRN (R211); PR is 00. -/
structure DrainF where
  pr : Pr
  mode : DrainMode
  tid : BitVec 6
  tdo : BitVec 6
  ag : BitVec 2
  t0 : Tgt
  t1 : Tgt
  deriving DecidableEq, Repr, Inhabited

/-- The causes of a block-format fault, in the order of their codes 0x01 to 0x11 (R61). -/
inductive FmtCause where
  | ver | count | sr | read | write | tileDecl | copyDecl | padding | opcode | field | pred | target
  | producer | storeSlot | cycle | uniform | tile
  deriving DecidableEq, Repr, Inhabited

/-- What an instruction's result is (R45, R71): none, lane-valued, uniform, or an atomic's deferred token. -/
inductive Res where | none | lane | uni | deferred
  deriving DecidableEq, Repr, Inhabited

/-! ### The things a step of the device names -/

/-- A launch: its context and its `%launch` (R29), and the model's own `era`, the CTXSETs of the context before it was accepted, since
each begins the count anew. -/
structure LaunchId where
  ctx : Nat
  num : Nat
  era : Nat := 0
  deriving DecidableEq, Repr, Inhabited

/-- A team of a launch (R12). -/
structure TeamId where
  launch : LaunchId
  team : Nat
  deriving DecidableEq, Repr, Inhabited

/-- A warp of a team (R12). -/
structure WarpId where
  team : TeamId
  warp : Nat
  deriving DecidableEq, Repr, Inhabited

/-- A packet of a command queue: context, queue, and the packets popped before it (R359). -/
structure PktId where
  ctx : Nat
  queue : Nat
  pos : Nat
  deriving DecidableEq, Repr, Inhabited

/-- A master of the fabric other than the PCIe function, and a unit a halt stops (R365, R357). -/
inductive Master where
  | core (c : Nat)
  | copy (die : Nat)
  | fill (core : Nat)
  | sparse (slice : Nat)
  | coll
  deriving DecidableEq, Repr, Inhabited

/-- Where a copy of memory's bytes stands: a core's L1, a die's L2, Meridian, HBM (R244). -/
inductive Place where
  | l1 (core : Nat)
  | l2 (die : Nat)
  | mer
  | hbm
  deriving DecidableEq, Repr, Inhabited

/-- The structures of R360 that hold data a soft error can reach, with the granule: a lane word of a
register row, a scratchpad word, an accumulator word, a count word, an Overlay run, 16 bytes of a cache's copy or 32 of HBM,
a code or Legend region. -/
inductive Granule where
  | pool (w : WarpId) (reg lane : Nat)
  | spad (t : TeamId) (off : Nat)
  | acc (t : TeamId) (tid word : Nat)
  | counts (t : TeamId) (tid word : Nat)
  | ovl (core off : Nat)
  | mem (p : Place) (pa : Nat)
  | code (core ctx : Nat) (va : W64)
  | legend (core ctx : Nat)
  deriving DecidableEq, Repr, Inhabited

/-- The attributes of a posted write's TLP: Relaxed Ordering (R369), and EP, poisoned data (R360). -/
structure TlpAttr where
  ro : Bool
  ep : Bool
  deriving DecidableEq, Repr, Inhabited

/-- The AtomicOps of the host (R369). -/
inductive HostAop where | fetchAdd | swap | cas
  deriving DecidableEq, Repr, Inhabited

/-! ### The instructions -/

/-- One constructor for each row of spec/opcode_table.json. -/
inductive Instr where
  -- control, format C (R88)
  | br (pr : Pr) (off : BitVec 24)
  | brc (pr : Pr) (nz : BitVec 24) (z : BitVec 16)
  | brx (pr : Pr)
  | call (pr : Pr) (callee : BitVec 24) (back : BitVec 16)
  | ret (pr : Pr)
  | exit (pr : Pr)
  | yield (pr : Pr) (off : BitVec 24)
  | trap (pr : Pr) (code : BitVec 16)
  | bkpt (pr : Pr) (code : BitVec 16)
  -- plain values (R96 to R100)
  | null (u : Bool) (t0 t1 : Tgt)
  | nullSlot (u : Bool) (ss : BitVec 5)
  | mov (f : MovF)
  | movi (ty : Ty) (pr : Pr) (u : Bool) (t0 : Tgt) (imm : BitVec 32)
  | getsr (ty : Ty) (pr : Pr) (u : Bool) (id : BitVec 8) (t0 t1 : Tgt)
  | sel (f : IntF)
  -- integer (R101 to R114)
  | add (f : IntF)
  | sub (f : IntF)
  | mul (f : IntF)
  | mulh (f : IntF)
  | mad (f : IntF)
  | div (f : IntF)
  | rem (f : IntF)
  | min (f : IntF)
  | max (f : IntF)
  | abs (f : IntF)
  | neg (f : IntF)
  | and (f : IntF)
  | or (f : IntF)
  | xor (f : IntF)
  | andn (f : IntF)
  | not (f : IntF)
  | shl (f : IntF)
  | shr (f : IntF)
  | sar (f : IntF)
  | rol (f : IntF)
  | clz (f : IntF)
  | popc (f : IntF)
  | brev (f : IntF)
  | bfx (f : IntF)
  | bfi (f : IntF)
  | cmp (c : Cond) (f : IntF)
  | lea (shift : BitVec 3) (f : IntF)
  | pk2 (f : IntF)
  | exh (half : Bool) (f : IntF)
  | hop (signed : Bool) (op : HopOp) (f : IntF)
  | dp4 (ls rs : Bool) (f : IntF)
  -- memory (R115 to R125)
  | ld (f : MemF)
  | st (f : MemF)
  | lds (f : MemF)
  | sts (f : MemF)
  | ldk (f : MemF)
  | modset (pr : Pr) (m : BitVec 3) (imm : Option (BitVec 24))
  -- float (R149 to R162)
  | fadd (f : FloatF)
  | fsub (f : FloatF)
  | fmul (f : FloatF)
  | ffma (op : FmaOp) (f : FloatF)
  | fmin (nan : Bool) (f : FloatF)
  | fmax (nan : Bool) (f : FloatF)
  | fsgn (op : SgnOp) (f : FloatF)
  | fcmp (c : FCond) (f : FloatF)
  | frcp (f : FloatF)
  | frsq (f : FloatF)
  | ftrn (fn : Trn) (f : FloatF)
  | fscl (f : FloatF)
  | fcls (src : FmtCode) (pr : Pr) (u : Bool) (mask : Option (BitVec 24)) (t0 t1 : Tgt)
  | cvt (src dst : FmtCode) (f : FloatF)
  | fdiv (f : FloatF)
  | fop2 (bf : Bool) (op : Fop2Op) (f : FloatF)
  -- quantisation and cross-lane (R163 to R170), scans (R221)
  | qmax (f : QuantF)
  | qcvt (f : QuantF)
  | dqcv (f : QuantF)
  | shfl (op : ShflOp) (f : IntF)
  | vote (op : VoteOp) (f : IntF)
  | bcst (f : IntF)
  | scan (ex : Bool) (f : ScanF)
  | wred (f : ScanF)
  -- neighbours (R227)
  | fsend (pv : Bool) (pr : Pr) (rel : Bool)
  | frecv (pv : Bool) (pr : Pr) (acq : Bool) (t0 t1 : Tgt)
  | fpeek (pv : Bool) (pr : Pr) (t0 t1 : Tgt)
  -- atomics, fences, caches (R287 to R295)
  | atom (f : AtomF)
  | fence (pr : Pr) (sc : Scope) (ord : Ord)
  | fencex (pr : Pr) (from' to' : BitVec 5)
  | pref (pr : Pr) (lvl : PrefLvl) (sc : Scope) (imm : BitVec 14)
  | cctl (pr : Pr) (op : CctlOp) (imm : BitVec 14)
  -- register pool (R177), barriers (R234)
  | regrel (pr : Pr) (first cntm : BitVec 8)
  | regclm (pr : Pr) (t0 t1 : Tgt)
  | regqry (pr : Pr) (q : RegQ) (t0 t1 : Tgt)
  | bararv (pr : Pr) (bar cntm : BitVec 5)
  | barwt (pr : Pr) (bar : BitVec 5)
  | barsyn (pr : Pr) (bar cntm : BitVec 5)
  -- tiles (R185, R320, R327)
  | ttake (f : TakeF)
  | tgive (pr : Pr) (tid : BitVec 6)
  | sdone (pr : Pr) (sum : Bool) (tid : BitVec 6)
  | srefu (pr : Pr) (tid : BitVec 6)
  | tarm (pr : Pr) (tid : BitVec 6) (count : BitVec 16)
  | tstat (pr : Pr) (tid : BitVec 6) (t0 t1 : Tgt)
  | tclr (pr : Pr) (tid : BitVec 6)
  -- matrix (R207 to R216), Legend (R191)
  | mma (f : MmaF)
  | azero (pr : Pr) (spl : Bool) (tid : BitVec 6)
  | adrn (f : DrainF)
  | aload (pr : Pr) (img : Bool) (tid tds : BitVec 6)
  | agset (pr : Pr) (nb : Bool) (ag : BitVec 2)
  | gang (pr : Pr) (base : BitVec 5) (mask : BitVec 24)
  | tdset (pr : Pr) (idx : BitVec 6)
  | tdget (pr : Pr) (idx : BitVec 6) (t0 t1 : Tgt)
  -- engines (R296, R308)
  | send (pr : Pr) (msg : MsgOp) (lp : Bool)
  | waitr (pr : Pr) (spad : Bool) (t0 t1 : Tgt)
  | pollr (pr : Pr) (spad : Bool) (t0 t1 : Tgt)
  -- steps of a core
  | blockStart (w : WarpId)
  | prefetchBlock (w : WarpId) (va : W64)
  | blockCommit (w : WarpId)
  | rowReturn (w : WarpId) (reg : Nat)
  | stopRequest (core : Nat) (l : LaunchId)
  | copyBegin (id : Nat)
  | copyComplete (id : Nat)
  | overlayFillBegin (id : Nat)
  | overlayFillComplete (id : Nat)
  | mmaComplete (id : Nat)
  | mmaStart (id : Nat)
  | powerRateSet (core quarters depth : Nat)
  | neighbourEntryArrive (id : Nat)
  | atomicReply (id : Nat)
  | issueClock (core : Nat)
  | urgencyEvaluation (t : TeamId)
  | poolScrub (w : WarpId) (reg : Nat)
  | codeRegionReload (g : Granule)
  | flitReplay (port fails pa : Nat)
  | frozenMaster (m : Master)
  | lineEviction (die : Nat) (core : Option Nat) (line : Nat)
  | pushApply (die line : Nat)
  -- engines
  | sparseTokenArrive (id pick : Nat)
  | copyMessage (id : Nat)
  | copym (id team : Nat)
  | copymShareAbandon (id team : Nat)
  | fillb (id : Nat)
  | scatr (id : Nat)
  | gathr (id : Nat)
  | coll (id : Nat)
  | collTimeout (id : Nat)
  | messageComplete (id : Nat)
  | replyMatch (w : WarpId) (idx : Nat)
  -- teams and launches
  | teamPlace (l : LaunchId) (core : Nat)
  | teamRetire (t : TeamId)
  | launchComplete (l : LaunchId)
  | recallQueued (core : Nat)
  | surrenderRoutineStart (w : WarpId)
  | routineForcedEnd (w : WarpId)
  -- firmware
  | launchPacket (p : PktId)
  | yieldDeadlineExpiry (l : LaunchId)
  | checkpointSave (l : LaunchId)
  | launchResume (l : LaunchId) (core : Nat)
  | copyPacket (p : PktId)
  | writemem (p : PktId)
  | waitmem (p : PktId)
  | waitmemReread (p : PktId)
  | tokenPacket (p : PktId)
  | fencePacket (p : PktId)
  | packetPop (ctx queue : Nat)
  | packetComplete (p : PktId)
  | firmwareEventTake (fw : Nat)
  -- host
  | doorbell (ctx queue : Nat) (off : W64)
  | hostPostedWrite (off : Nat) (bytes : List W8) (attr : TlpAttr)
  | routeAcknowledge (id die : Nat)
  | hostRead (off len : Nat)
  | hostAtomicop (op : HostAop) (wide : Bool) (off : Nat) (a b : W64)
  | functionLevelReset
  | counterRead (off : Nat)
  | registerWrite (off : Nat) (val : W64)
  | ctxset
  | qset
  | qreset
  | qresume
  | tlbinv
  | fresume
  | fdeny
  | codeinv
  | haltrel
  | partset
  | partreset
  | activate
  | service
  | deviceReset
  -- faults and errors
  | haltRaise
  | unitStop (part : Nat) (m : Master)
  | haltFlush (part : Nat)
  | softError (g : Granule) (double : Bool)
  | memoryTrainingComplete
  | linkEqualisationComplete
  | collectiveMemberJoin (ctx grp k rank : Nat) (op : W32) (count : Nat) (data : List W32)
  | nativeCodeCacheEviction (core ctx : Nat) (va : W64)
  deriving DecidableEq, Repr, Inhabited

end Sys2Proof
end

