-- ==== Sys2Proof/Machine/Shape.lean ====
section
/-! DEFINITION. What the description of each body instruction says of its form: the fields it accepts (R48, R61 causes
0x0A and 0x0B), the slots it uses (R44), its target places and its result (R45), its store slot (R46), and the tiles it
names with the use each needs (R39). -/
namespace Sys2Proof

/-- The code of a block-format cause (R61). -/
def FmtCause.code (c : FmtCause) : Nat := c.ctorIdx + 1

/-- Whether TY is one of the four integer types (R47). -/
def Ty.isInt : Ty → Bool
  | .i32 | .n32 | .i64 | .n64 => true
  | _ => false

/-- Whether TY is one of f32, f16, bf16. -/
def Ty.isFloat : Ty → Bool
  | .f32 | .f16 | .bf16 => true
  | _ => false

/-- Whether TY gives 64-bit values (R86). -/
def Ty.wide : Ty → Bool
  | .i64 | .n64 => true
  | _ => false

/-- Whether TY is signed. -/
def Ty.signed : Ty → Bool
  | .i32 | .i64 => true
  | _ => false

/-- The first 108 rows of the table are body words; the rest are steps of the device. -/
def Instr.isBody (i : Instr) : Bool := i.ctorIdx < 108

/-- The field limits of an integer instruction's row in R101. -/
def IntF.accept (f : IntF) (ty : Ty → Bool) (imm sat : Bool) : Bool :=
  ty f.ty && (imm || f.imm.isNone) && (sat || !f.sat)

/-- The pairings of source subformat and TY that R50 accepts. -/
def Sub.accept : Sub → Ty → Bool
  | .asTy, _ => true
  | .e4m3, t => t.isFloat
  | _, t => t == .f32

/-- The field limits of a float-group row of R152. -/
def FloatF.accept (f : FloatF) (imm sat rm : Bool) : Bool :=
  f.ty.isFloat && f.sub.accept f.ty && (imm || f.imm.isNone) && (sat || !f.sat) && (rm || f.rm == .rne)

/-- An IMM24 read in a 16-bit TY has bits [23:16] zero (R150). -/
def FloatF.immFits (f : FloatF) : Bool :=
  match f.imm with
  | some v => f.ty == .f32 || v.toNat < 65536
  | none => true

/-- The pairings of TY, width and sign-extend bit that R116 accepts; `load` where a sign-extended load is meant. -/
def MemF.widthOk (f : MemF) (load w16 : Bool) : Bool :=
  let w := match f.ty, f.width with
    | .i32, .b1 | .i32, .b2 | .i32, .b4 | .n32, .b1 | .n32, .b2 | .n32, .b4 => true
    | .i64, .b16 | .n64, .b16 => w16
    | .i64, _ | .n64, _ => true
    | .f32, .b4 | .x16, .b4 | .f16, .b2 | .bf16, .b2 => true
    | _, _ => false
  let sx := match f.ty, f.width with
    | .i32, .b1 | .i32, .b2 | .n32, .b1 | .n32, .b2 => true
    | .i64, .b1 | .i64, .b2 | .i64, .b4 | .n64, .b1 | .n64, .b2 | .n64, .b4 => true
    | _, _ => false
  w && (!f.sx || (load && sx))

/-- The addressing modes of R117 and the zero IMM14 of AM 11. -/
def MemF.amOk (f : MemF) (load postInc modulo : Bool) : Bool :=
  (match f.am with
    | .base => true
    | .postInc => postInc
    | .modulo => modulo
    | .indexed => f.imm == 0) &&
  (f.width != .b16 || f.am == .base || (load && f.am == .indexed))

/-- The scopes and orders of R120. -/
def MemF.scopeOk (f : MemF) (load spad : Bool) : Bool :=
  (!spad || f.sc == .warp || f.sc == .team) &&
  (f.ord == .relaxed || f.ord == (if load then .acquire else .release))

/-- A load names no store slot (R46). -/
def MemF.accept (f : MemF) (load spad uni : Bool) : Bool :=
  f.widthOk load (!uni) && f.amOk load spad (!uni) && f.scopeOk load spad && (!load || f.ss == 0) &&
  (f.hint == 0 || (!spad && !uni))

/-- The types an ATOM operation accepts (R288), and its modes (R287, R289). -/
def AtomF.accept (f : AtomF) : Bool :=
  (f.ty.isInt || (f.ty == .f32 && (match f.aop with | .and | .or | .xor => false | _ => true))) &&
  (!f.indexed || (f.imm == 0 && f.aop != .cas))

/-- The types, SAT and RM of R222. -/
def ScanF.accept (f : ScanF) : Bool :=
  match f.cmb with
  | .lrec => f.ty == .n64 && !f.sat
  | .add | .mul => (f.ty.isInt && f.rm == .rne) || (f.ty.isFloat && !f.sat)
  | .min | .max => (f.ty.isInt || f.ty.isFloat) && !f.sat && f.rm == .rne

/-- A tile id of an accumulator tile (R38). -/
def isAcc (tid : BitVec 6) : Bool := 32 ≤ tid.toNat && tid.toNat < 40

/-- An accumulator tile id fit for a split use: even (R207). -/
def isAccPair (tid : BitVec 6) : Bool := isAcc tid && tid.toNat % 2 == 0

/-- The bits set in a mask of 24 (R216). -/
def popcount24 (m : BitVec 24) : Nat := ((List.range 24).filter fun i => m.getLsbD i).length

/-- The highest set bit of a mask of 24, 0 for none. -/
def topBit24 (m : BitVec 24) : Nat := (List.range 24).foldl (fun a i => if m.getLsbD i then i else a) 0

/-- The field values and combinations each description accepts; anything else is cause 0x0A (R48, R61).
TARM, TSTAT, TCLR, TGIVE, SDONE, SREFU and a TTAKE without .s accept any TID here: one from 40 to 63, which no header can declare, is
cause 0x11 (R39) and not 0x0A (DEDUCED, log 31).
A step of the device is no body word. -/
def Instr.accept : Instr → Bool
  | .br .. | .brc .. | .brx .. | .call .. | .ret .. | .exit .. | .yield .. | .trap .. | .bkpt .. => true
  | .null .. | .nullSlot .. | .mov .. => true
  | .movi ty _ _ _ imm => (ty != .f16 && ty != .bf16) || imm.toNat < 65536
  | .getsr ty _ u id _ _ => ty.isInt && id.toNat ≤ 16 && !(u && id == 0)
  | .sel f => f.accept (fun _ => true) true false
  | .add f | .sub f | .mul f | .mad f | .div f | .shl f => f.accept Ty.isInt true true
  | .mulh f | .rem f | .min f | .max f | .shr f | .sar f | .rol f | .bfx f | .bfi f => f.accept Ty.isInt true false
  | .abs f => f.accept Ty.signed false true
  | .neg f => f.accept Ty.isInt false true
  | .and f | .or f | .xor f | .andn f => f.accept (fun t => t.isInt || t == .x16) true false
  | .not f => f.accept (fun t => t.isInt || t == .x16) false false
  | .clz f | .popc f | .brev f => f.accept Ty.isInt false false
  | .cmp _ f => f.accept Ty.isInt true false
  | .lea s f => s.toNat ≤ 4 && f.accept Ty.isInt true false
  | .pk2 f => f.accept (fun t => t.wide || t == .x16) true false
  | .exh _ f => f.accept (fun t => t == .i32 || t == .n32) false false
  | .hop _ op f => f.accept (· == .x16) false (op == .add || op == .sub)
  | .dp4 _ _ f => f.accept (· == .i32) false true
  | .ld f => f.accept true false false
  | .st f => f.accept false false false
  | .lds f => f.accept true true false
  | .sts f => f.accept false true false
  | .ldk f => f.accept true false true && f.am != .postInc
  | .modset .. => true
  | .fadd f | .fsub f | .fmul f | .ffma _ f | .fdiv f => f.accept true true true && f.immFits
  | .fmin _ f | .fmax _ f | .fcmp _ f => f.accept true false false && f.immFits
  | .fsgn op f => f.accept (op == .copy || op == .ncopy || op == .xor) false false && f.immFits
  | .frcp f => f.accept false true true
  | .frsq f => f.accept false false true
  | .ftrn _ f => f.accept false false false
  | .fscl f => f.accept true true true
  | .fcls src _ _ mask _ _ =>
    (src != .i8 && src != .int) && (match mask with | some m => m.toNat < 512 | none => true)
  | .cvt src dst f =>
    f.sub == .asTy && f.imm.isNone && !(src == .int && dst == .int) &&
    (src != dst || src == .f32 || src == .f16 || src == .bf16) &&
    (if src == .int || dst == .int then f.ty.isInt else f.ty == .i32) && (!f.sat || (dst != .i8 && dst != .int))
  | .fop2 _ op f =>
    f.ty == .x16 && (f.sub == .asTy || f.sub == .e4m3) && f.immFits &&
    ((op != .min && op != .max) || (!f.sat && f.rm == .rne))
  | .qmax f => f.ty.isFloat && !f.u && !f.sat && f.rm == .rne
  | .qcvt f => f.ty.isFloat && !f.sat
  | .dqcv f => f.ty.isFloat
  | .shfl _ f => !f.u && !f.sat
  | .vote _ f => !f.u && !f.sat && f.imm.isNone
  | .bcst f => !f.u && !f.sat && f.pr == .always
  | .scan _ f | .wred f => f.accept
  | .fsend .. | .frecv .. | .fpeek .. => true
  | .atom f => f.accept
  | .fence _ _ ord => ord != .relaxed
  | .fencex _ a b => a != 0 && b != 0 && a &&& b == 0
  | .pref .. | .cctl .. => true
  | .regrel _ first cntm => first.toNat + cntm.toNat + 1 ≤ 256
  | .regclm .. | .regqry .. | .bararv .. | .barwt .. | .barsyn .. => true
  | .ttake f => (f.cls == .neg || (!f.sv && f.bnd == 0 && f.roff == 0)) && (!f.spl || isAccPair f.tid)
  | .tgive .. | .sdone .. | .srefu .. | .tarm .. | .tstat .. | .tclr .. => true
  | .mma f => isAcc f.tid && (!f.spl || isAccPair f.tid) && !(f.pr != .always && f.gng && !f.ks)
  | .azero _ spl tid => isAcc tid && (!spl || isAccPair tid)
  | .adrn f => isAcc f.tid && (f.mode == .raw || isAccPair f.tid) && (f.mode == .gate || f.ag == 0)
  | .aload _ img tid _ => isAcc tid && (!img || isAccPair tid)
  | .agset .. => true
  | .gang _ base m =>
    m == 0 || (2 ≤ popcount24 m && popcount24 m ≤ 6 && base.toNat + topBit24 m ≤ 31)
  | .tdset .. | .tdget .. => true
  | .send _ msg lp => !lp || msg == .scatr || msg == .gathr
  | .waitr .. | .pollr .. => true
  | _ => false

/-- Whether the third slot is an operand in this encoding (R44, R61 cause 0x0B). -/
def Instr.thirdOperand : Instr → Bool
  | .sel _ | .mad _ | .bfi _ | .dp4 .. | .ffma .. | .adrn _ | .aload .. => true
  | .fop2 _ op _ => op == .fma
  | .st f | .sts f => f.am == .indexed || f.width == .b16
  | .atom f => f.indexed || f.aop == .cas
  | .mma f => f.ks
  | _ => false

/-- The predicate field of a body word; NULL has none (R96). -/
def Instr.pr : Instr → Pr
  | .br p _ | .brc p _ _ | .brx p | .call p _ _ | .ret p | .exit p | .yield p _ | .trap p _ | .bkpt p _ => p
  | .mov f => f.pr
  | .movi _ p _ _ _ | .getsr _ p _ _ _ _ => p
  | .sel f | .add f | .sub f | .mul f | .mulh f | .mad f | .div f | .rem f | .min f | .max f | .abs f | .neg f
  | .and f | .or f | .xor f | .andn f | .not f | .shl f | .shr f | .sar f | .rol f | .clz f | .popc f | .brev f
  | .bfx f | .bfi f | .cmp _ f | .lea _ f | .pk2 f | .exh _ f | .hop _ _ f | .dp4 _ _ f
  | .shfl _ f | .vote _ f | .bcst f => f.pr
  | .ld f | .st f | .lds f | .sts f | .ldk f => f.pr
  | .modset p _ _ => p
  | .fadd f | .fsub f | .fmul f | .ffma _ f | .fmin _ f | .fmax _ f | .fsgn _ f | .fcmp _ f | .frcp f | .frsq f
  | .ftrn _ f | .fscl f | .cvt _ _ f | .fdiv f | .fop2 _ _ f => f.pr
  | .fcls _ p _ _ _ _ => p
  | .qmax f | .qcvt f | .dqcv f => f.pr
  | .scan _ f | .wred f => f.pr
  | .fsend _ p _ | .frecv _ p _ _ _ | .fpeek _ p _ _ => p
  | .atom f => f.pr
  | .fence p _ _ | .fencex p _ _ | .pref p _ _ _ | .cctl p _ _ => p
  | .regrel p _ _ | .regclm p _ _ | .regqry p _ _ _ | .bararv p _ _ | .barwt p _ | .barsyn p _ _ => p
  | .ttake f => f.pr
  | .tgive p _ | .sdone p _ _ | .srefu p _ | .tarm p _ _ | .tstat p _ _ _ | .tclr p _ => p
  | .mma f => f.pr
  | .azero p _ _ => p
  | .adrn f => f.pr
  | .aload p _ _ _ | .agset p _ _ | .gang p _ _ | .tdset p _ | .tdget p _ _ _ => p
  | .send p _ _ | .waitr p _ _ _ | .pollr p _ _ _ => p
  | _ => .always

/-- PR is 00 wherever the third slot is an operand (R44). -/
def Instr.prOk (i : Instr) : Bool := !i.thirdOperand || i.pr == .always

/-- The target bytes of an instruction, in order, as many as it has target places (R45). -/
def Instr.targets : Instr → List Tgt
  | .null _ a b => [a, b]
  | .mov f => match f.more with
    | some (c, d) => [f.t0, f.t1, c, d]
    | none => [f.t0, f.t1]
  | .movi _ _ _ a _ => [a]
  | .getsr _ _ _ _ a b => [a, b]
  | .sel f | .add f | .sub f | .mul f | .mulh f | .mad f | .div f | .rem f | .min f | .max f | .abs f | .neg f
  | .and f | .or f | .xor f | .andn f | .not f | .shl f | .shr f | .sar f | .rol f | .clz f | .popc f | .brev f
  | .bfx f | .bfi f | .cmp _ f | .lea _ f | .pk2 f | .exh _ f | .hop _ _ f | .dp4 _ _ f
  | .shfl _ f | .vote _ f | .bcst f => [f.t0, f.t1]
  | .ld f | .lds f | .ldk f => [f.t0, f.t1]
  | .st f | .sts f => if f.am == .postInc || f.am == .modulo then [f.t0, f.t1] else []
  | .fadd f | .fsub f | .fmul f | .ffma _ f | .fmin _ f | .fmax _ f | .fsgn _ f | .fcmp _ f | .frcp f | .frsq f
  | .ftrn _ f | .fscl f | .cvt _ _ f | .fdiv f | .fop2 _ _ f => [f.t0, f.t1]
  | .fcls _ _ _ _ a b => [a, b]
  | .qmax f | .qcvt f | .dqcv f => [f.t0, f.t1]
  | .scan _ f | .wred f => [f.t0, f.t1]
  | .frecv _ _ _ a b | .fpeek _ _ a b => [a, b]
  | .atom f => [f.t0, f.t1]
  | .regclm _ a b | .regqry _ _ a b => [a, b]
  | .ttake f => [f.t0, f.t1]
  | .tstat _ _ a b => [a, b]
  | .adrn f => [f.t0, f.t1]
  | .tdget _ _ a b => [a, b]
  | .waitr _ _ a b | .pollr _ _ a b => [a, b]
  | _ => []

/-- The data slots of an instruction, the predicate left out (R44, R88, R101, R117, R152, R289 and each description). -/
def Instr.dataSlots : Instr → List Slot
  | .brc .. | .brx .. | .mov _ => [.left]
  | .sel f | .mad f | .bfi f => if f.imm.isSome then [.left, .third] else [.left, .right, .third]
  | .dp4 .. => [.left, .right, .third]
  | .add f | .sub f | .mul f | .mulh f | .div f | .rem f | .min f | .max f | .and f | .or f | .xor f | .andn f
  | .shl f | .shr f | .sar f | .rol f | .bfx f | .cmp _ f | .lea _ f | .pk2 f | .shfl _ f | .bcst f =>
    if f.imm.isSome then [.left] else [.left, .right]
  | .hop .. => [.left, .right]
  | .abs _ | .neg _ | .not _ | .clz _ | .popc _ | .brev _ | .exh .. | .vote .. => [.left]
  | .ld f | .lds f | .ldk f => if f.am == .indexed then [.left, .right] else [.left]
  | .st f | .sts f =>
    if f.am == .indexed || f.width == .b16 then [.left, .right, .third] else [.left, .right]
  | .modset _ _ imm => if imm.isSome then [.left] else [.left, .right]
  | .fadd f | .fsub f | .fmul f | .fmin _ f | .fmax _ f | .fcmp _ f | .fscl f | .fdiv f =>
    if f.imm.isSome then [.left] else [.left, .right]
  | .ffma _ f => if f.imm.isSome then [.left, .third] else [.left, .right, .third]
  | .fsgn op f => if f.imm.isSome || op == .abs || op == .neg then [.left] else [.left, .right]
  | .frcp _ | .frsq _ | .ftrn .. | .fcls .. | .cvt .. => [.left]
  | .fop2 _ op f =>
    let lr := if f.imm.isSome then [Slot.left] else [.left, .right]
    if op == .fma then lr ++ [.third] else lr
  | .qmax _ => [.left]
  | .qcvt _ | .dqcv _ => [.left, .right]
  | .scan .. | .wred _ => [.left]
  | .fsend .. => [.left]
  | .atom f => if f.indexed || f.aop == .cas then [.left, .right, .third] else [.left, .right]
  | .pref .. | .cctl .. => [.left]
  | .regclm .. => [.left]
  | .ttake f => if f.sv then [.left] else []
  | .mma f => if f.ks then [.left, .right, .third] else [.left, .right]
  | .adrn _ | .aload .. => [.left, .right, .third]
  | .agset .. | .tdset .. => [.left]
  | .send _ _ lp => if lp then [.left, .right] else [.left]
  | .waitr .. | .pollr .. => [.left, .right]
  | _ => []

/-- Every slot the instruction uses: its data slots, and the third for a predicate (R44). -/
def Instr.slots (i : Instr) : List Slot :=
  if i.pr != .always && !i.thirdOperand then i.dataSlots ++ [.third] else i.dataSlots

/-- The U bit of a body word: acts once for the warp (R47, R67). -/
def Instr.uniform : Instr → Bool
  | .null u _ _ | .nullSlot u _ => u
  | .mov f => f.u
  | .movi _ _ u _ _ | .getsr _ _ u _ _ _ => u
  | .sel f | .add f | .sub f | .mul f | .mulh f | .mad f | .div f | .rem f | .min f | .max f | .abs f | .neg f
  | .and f | .or f | .xor f | .andn f | .not f | .shl f | .shr f | .sar f | .rol f | .clz f | .popc f | .brev f
  | .bfx f | .bfi f | .cmp _ f | .lea _ f | .pk2 f | .exh _ f | .hop _ _ f | .dp4 _ _ f => f.u
  | .ldk _ | .modset .. => true
  | .fadd f | .fsub f | .fmul f | .ffma _ f | .fmin _ f | .fmax _ f | .fsgn _ f | .fcmp _ f | .frcp f | .frsq f
  | .ftrn _ f | .fscl f | .cvt _ _ f | .fdiv f | .fop2 _ _ f => f.u
  | .fcls _ _ u _ _ _ => u
  | .qcvt f | .dqcv f => f.u
  | .fpeek .. | .fence .. | .fencex .. => true
  | .regrel .. | .regclm .. | .regqry .. | .bararv .. | .barwt .. | .barsyn .. => true
  | .ttake _ | .tgive .. | .sdone .. | .srefu .. | .tarm .. | .tstat .. | .tclr .. => true
  | .mma _ | .azero .. | .adrn _ | .aload .. | .agset .. | .gang .. => true
  | .waitr .. | .pollr .. => true
  | _ => false

/-- The result of an instruction (R45, R71): QMAX, VOTE, BCST and WRED give uniform tokens from lane values. -/
def Instr.res (i : Instr) : Res :=
  if i.targets.isEmpty then .none else
  match i with
  | .atom _ => .deferred
  | .qmax _ | .vote .. | .bcst _ | .wred _ => .uni
  | i => if i.uniform then .uni else .lane

/-- Whether a slot takes only uniform tokens (R45; BCST's right slot, R170). -/
def Instr.uniSlot (i : Instr) (s : Slot) : Bool :=
  i.uniform || (match i with | .bcst _ => s == .right | _ => false)

/-- The store slot an instruction names (R46). -/
def Instr.storeSlot : Instr → Option Nat
  | .st f | .sts f => some f.ss.toNat
  | .atom f => some f.ss.toNat
  | .nullSlot _ ss => some ss.toNat
  | _ => none

/-- A branch instruction: one that can give a lane a successor (R73, R328). -/
def Instr.isBranch : Instr → Bool
  | .br .. | .brc .. | .brx .. | .call .. | .ret .. | .exit .. | .yield .. | .trap .. | .bkpt .. => true
  | .sdone .. | .srefu .. => true
  | _ => false

/-- A memory instruction, held by an earlier acquire of its block that waits (R120, R231). -/
def Instr.isMemory : Instr → Bool
  | .ld _ | .st _ | .lds _ | .sts _ | .ldk _ | .atom _ | .pref .. | .cctl .. | .aload .. | .adrn _ | .waitr .. | .pollr .. => true
  | _ => false

/-- An acquire that can wait after it issues: an LDS waiting for a tile, an FRECV waiting for an entry. -/
def Instr.isAcquire : Instr → Bool
  | .ld f | .lds f | .ldk f => f.ord == .acquire
  | .frecv _ _ acq _ _ => acq
  | _ => false

/-- The tiles a body word names, with the read and write use each must be declared with (R39, R185, R207, R210,
R211, R214, R320, R327). -/
def Instr.tileNeeds : Instr → List (Nat × Bool × Bool)
  | .tarm _ t _ | .tclr _ t | .tgive _ t | .sdone _ _ t | .srefu _ t => [(t.toNat, false, true)]
  | .tstat _ t _ _ => [(t.toNat, true, false)]
  | .ttake f => if f.spl then [(f.tid.toNat, false, true), (f.tid.toNat + 1, false, true)] else [(f.tid.toNat, false, true)]
  | .mma f => if f.spl then [(f.tid.toNat, true, true), (f.tid.toNat + 1, true, true)] else [(f.tid.toNat, true, true)]
  | .azero _ spl t => if spl then [(t.toNat, false, true), (t.toNat + 1, false, true)] else [(t.toNat, false, true)]
  | .adrn f =>
    if f.mode == .raw then [(f.tid.toNat, true, false)] else [(f.tid.toNat, true, false), (f.tid.toNat + 1, true, false)]
  | .aload _ img t _ => if img then [(t.toNat, false, true), (t.toNat + 1, false, true)] else [(t.toNat, false, true)]
  | _ => []

/-- Whether an instruction names a value of one of the formats the bring-up service refuses (R378). -/
def Instr.bringUpRefused : Instr → Bool
  | .mov f => f.ty == .f16
  | .movi ty _ _ _ _ => ty == .f16
  | .sel f | .shfl _ f | .vote _ f | .bcst f => f.ty == .f16
  | .ld f | .st f | .lds f | .sts f | .ldk f => f.ty == .f16
  | .fadd f | .fsub f | .fmul f | .ffma _ f | .fmin _ f | .fmax _ f | .fsgn _ f | .fcmp _ f | .frcp f | .frsq f
  | .ftrn _ f | .fscl f | .fdiv f => f.ty == .f16 || f.sub == .f16 || f.sub == .e4m3
  | .fop2 bf _ f => !bf || f.sub == .e4m3
  | .cvt a b _ => (a != .f32 && a != .bf16 && a != .int) || (b != .f32 && b != .bf16 && b != .int)
  | .fcls src _ _ _ _ _ => src == .f16 || src == .e4m3 || src == .e5m2
  | .qmax _ | .qcvt _ | .dqcv _ => true
  | .scan _ f | .wred f => f.ty == .f16
  | _ => false

end Sys2Proof
end

