-- ==== Sys2Proof/WellFormed.lean ====
section
/-! DEFINITION. A well-formed instruction: a body word whose fields its description accepts (R48), whose predicate
stands only where the third slot is free (R44), and whose targets are filled in order (R45). -/
namespace Sys2Proof

/-- No target stands after an empty place (R45). -/
def tgtsInOrder : List Tgt → Bool
  | a :: b :: l => (a != .none || b == .none) && tgtsInOrder (b :: l)
  | _ => true

/-- The targets are filled in order, an atomic's are write slots (R71), and a form with no target place has none (R45). -/
def Instr.tgtOk (i : Instr) : Bool :=
  tgtsInOrder i.targets &&
  (match i with
    | .st f | .sts f => !i.targets.isEmpty || (f.t0 == .none && f.t1 == .none)
    | .atom f => [f.t0, f.t1].all fun t => match t with | .to .. => false | _ => true
    | _ => true)

/-- Well-formed: the checks of causes 0x0A, 0x0B and 0x0C of R61 pass, so far as one instruction decides them. -/
def Instr.wellFormed (i : Instr) : Bool := i.isBody && i.accept && i.prOk && i.tgtOk

end Sys2Proof
end

