-- ==== Sys2Proof/Decode.lean ====
section
/-! DEFINITION. Decoding a body word (R43 to R56 and each instruction's own encoding table), total on any 64 bits and
refusing by the lowest cause of R61; then the encoder, written from the same tables. -/
namespace Sys2Proof

/-! ### The common fields (R47) -/

/-- The fields every body word has (R47). -/
structure Raw where
  op : BitVec 8
  fn : BitVec 6
  ty : BitVec 3
  pr : BitVec 2
  u : BitVec 1
  q : BitVec 4
  t0 : BitVec 8
  t1 : BitVec 8
  low : BitVec 24
  deriving DecidableEq, Repr, Inhabited

/-- The fields of a word. -/
def Raw.ofWord (w : W64) : Raw :=
  { op := w.extractLsb' 56 8, fn := w.extractLsb' 50 6, ty := w.extractLsb' 47 3, pr := w.extractLsb' 45 2
    u := w.extractLsb' 44 1, q := w.extractLsb' 40 4, t0 := w.extractLsb' 32 8, t1 := w.extractLsb' 24 8
    low := w.extractLsb' 0 24 }

/-- The word of the fields. -/
def Raw.toWord (r : Raw) : W64 := r.op ++ r.fn ++ r.ty ++ r.pr ++ r.u ++ r.q ++ r.t0 ++ r.t1 ++ r.low

/-- OFF16 of format C (R52). -/
def Raw.off16 (r : Raw) : BitVec 16 := r.t0 ++ r.t1
/-- IMM32 of format I (R51). -/
def Raw.imm32 (r : Raw) : BitVec 32 := r.t1 ++ r.low
/-- The operand bit U. -/
def Raw.isU (r : Raw) : Bool := r.u == 1
/-- IM, bit 43 (R49). -/
def Raw.im (r : Raw) : Bool := r.q.getLsbD 3
/-- SAT, bit 42 (R49). -/
def Raw.sat (r : Raw) : Bool := r.q.getLsbD 2
/-- RM, bits [41:40] (R49). -/
def Raw.rmBits (r : Raw) : BitVec 2 := r.q.extractLsb' 0 2

/-! ### Field codes -/

/-- TY (R47). -/
def Ty.ofBits (b : BitVec 3) : Ty :=
  match b.toNat with
  | 0 => .i32 | 1 => .n32 | 2 => .i64 | 3 => .n64 | 4 => .f32 | 5 => .f16 | 6 => .bf16 | _ => .x16

/-- PR (R47); 11 is refused by `decodeRaw`. -/
def Pr.ofBits (b : BitVec 2) : Pr :=
  match b.toNat with
  | 1 => .ifNonzero | 2 => .ifZero | _ => .always

/-- RM (R49). -/
def Rm.ofBits (b : BitVec 2) : Rm :=
  match b.toNat with
  | 0 => .rne | 1 => .rz | 2 => .rdn | _ => .rup

/-- SC (R53). -/
def Scope.ofBits (b : BitVec 3) : Option Scope :=
  match b.toNat with
  | 0 => some .warp | 1 => some .team | 2 => some .die | 3 => some .device | 4 => some .system | _ => none

/-- OR (R53). -/
def Ord.ofBits (b : BitVec 2) : Ord :=
  match b.toNat with
  | 0 => .relaxed | 1 => .acquire | 2 => .release | _ => .acqRel

/-- AM (R53). -/
def Am.ofBits (b : BitVec 2) : Am :=
  match b.toNat with
  | 0 => .base | 1 => .postInc | 2 => .modulo | _ => .indexed

/-- The access width (R53). -/
def Width.ofBits (b : BitVec 3) : Option Width :=
  match b.toNat with
  | 0 => some .b1 | 1 => some .b2 | 2 => some .b4 | 3 => some .b8 | 4 => some .b16 | _ => none

/-- The condition of CMP (R110). -/
def Cond.ofBits (b : BitVec 3) : Option Cond :=
  match b.toNat with
  | 0 => some .eq | 1 => some .ne | 2 => some .lt | 3 => some .le | 4 => some .gt | 5 => some .ge | _ => none

/-- The operation of HOP (R113). -/
def HopOp.ofBits (b : BitVec 3) : Option HopOp :=
  match b.toNat with
  | 0 => some .add | 1 => some .sub | 2 => some .min | 3 => some .max | 4 => some .absd | _ => none

/-- SUB (R50). -/
def Sub.ofBits (b : BitVec 2) : Sub :=
  match b.toNat with
  | 0 => .asTy | 1 => .bf16 | 2 => .f16 | _ => .e4m3

/-- FUNC of FFMA (R153). -/
def FmaOp.ofBits (b : BitVec 4) : Option FmaOp :=
  match b.toNat with
  | 0 => some .pos | 1 => some .sub | 2 => some .neg | 3 => some .negsub | _ => none

/-- FUNC of FSGN (R155). -/
def SgnOp.ofBits (b : BitVec 4) : Option SgnOp :=
  match b.toNat with
  | 0 => some .copy | 1 => some .ncopy | 2 => some .xor | 3 => some .abs | 4 => some .neg | _ => none

/-- FUNC of FCMP (R156). -/
def FCond.ofBits (b : BitVec 4) : Option FCond :=
  match b.toNat with
  | 0 => some .eq | 1 => some .ne | 2 => some .lt | 3 => some .le | 4 => some .gt | 5 => some .ge | 6 => some .uo
  | 7 => some .ord | _ => none

/-- FUNC of FTRN (R158). -/
def Trn.ofBits (b : BitVec 4) : Option Trn :=
  match b.toNat with
  | 0 => some .exp2 | 1 => some .log2 | 2 => some .sin2pi | 3 => some .cos2pi | 4 => some .tanh | 5 => some .sigm
  | _ => none

/-- The operation of FOP2 (R162). -/
def Fop2Op.ofBits (b : BitVec 3) : Option Fop2Op :=
  match b.toNat with
  | 0 => some .add | 1 => some .sub | 2 => some .mul | 3 => some .fma | 4 => some .min | 5 => some .max | _ => none

/-- The format codes of CVT (R161). -/
def FmtCode.ofBits (b : BitVec 3) : Option FmtCode :=
  match b.toNat with
  | 0 => some .f32 | 1 => some .f16 | 2 => some .bf16 | 3 => some .e4m3 | 4 => some .e5m2 | 5 => some .i8
  | 6 => some .int | _ => none

/-- TGT of the quantisation group (R163). -/
def QFmt.ofBits (b : BitVec 3) : Option QFmt :=
  match b.toNat with
  | 0 => some .e4m3 | 1 => some .e5m2 | 2 => some .int8 | 3 => some .int4 | 4 => some .int3 | _ => none

/-- FUNC of SHFL (R168). -/
def ShflOp.ofBits (b : BitVec 4) : Option ShflOp :=
  match b.toNat with
  | 0 => some .lane | 1 => some .swz | 2 => some .rot | 3 => some .slide | _ => none

/-- FUNC of VOTE (R169). -/
def VoteOp.ofBits (b : BitVec 4) : Option VoteOp :=
  match b.toNat with
  | 0 => some .mask | 1 => some .hit | 2 => some .full | 3 => some .same | 4 => some .cnt | 5 => some .first
  | 6 => some .pmask | _ => none

/-- CMB of SCAN and WRED (R221). -/
def Cmb.ofBits (b : BitVec 3) : Option Cmb :=
  match b.toNat with
  | 0 => some .add | 1 => some .min | 2 => some .max | 3 => some .mul | 4 => some .lrec | _ => none

/-- AOP of ATOM (R288). -/
def Aop.ofBits (b : BitVec 3) : Aop :=
  match b.toNat with
  | 0 => .add | 1 => .min | 2 => .max | 3 => .and | 4 => .or | 5 => .xor | 6 => .exch | _ => .cas

/-- LVL of PREF (R294). -/
def PrefLvl.ofBits (b : BitVec 2) : Option PrefLvl :=
  match b.toNat with
  | 0 => some .l1 | 1 => some .l2 | 2 => some .mer | _ => none

/-- The operation of CCTL (R295). -/
def CctlOp.ofBits (b : BitVec 2) : CctlOp :=
  match b.toNat with
  | 0 => .wb | 1 => .inv | 2 => .push | _ => .evict

/-- The function of REGQRY (R180). -/
def RegQ.ofBits (b : BitVec 6) : Option RegQ :=
  match b.toNat with
  | 0 => some .limit | 1 => some .bound | 2 => some .spilled | 3 => some .credit | 4 => some .pend | 5 => some .free
  | _ => none

/-- CLS of TTAKE (R320). -/
def TakeCls.ofBits (b : BitVec 2) : Option TakeCls :=
  match b.toNat with
  | 1 => some .own | 2 => some .neg | 3 => some .shr | _ => none

/-- MODE of ADRN (R211). -/
def DrainMode.ofBits (b : BitVec 3) : Option DrainMode :=
  match b.toNat with
  | 0 => some .raw | 1 => some .diff | 2 => some .ratio | 3 => some .gate | 4 => some .img | _ => none

/-- FN of SEND (R296). -/
def MsgOp.ofBits (b : BitVec 6) : Option MsgOp :=
  match b.toNat with
  | 1 => some .copy | 2 => some .copym | 3 => some .fillb | 4 => some .scatr | 5 => some .gathr | 6 => some .coll
  | _ => none

/-- The packet words of a message (R299). -/
def MsgOp.words : MsgOp → Bool → Nat
  | .copy, _ => 9
  | .copym, _ => 10
  | .fillb, _ => 7
  | .scatr, true => 8
  | .scatr, false => 12
  | .gathr, true => 9
  | .gathr, false => 12
  | .coll, _ => 10

/-! ### Target bytes (R43) -/

/-- The place a target byte names; an IDX of 16 to 62 with kind 11 names none and is refused by `tgtByteOk`. -/
def Tgt.ofByte (b : BitVec 8) : Tgt :=
  match (b.extractLsb' 6 2).toNat with
  | 0 => .to .left (b.extractLsb' 0 6)
  | 1 => .to .right (b.extractLsb' 0 6)
  | 2 => .to .third (b.extractLsb' 0 6)
  | _ => if (b.extractLsb' 0 6).toNat < 16 then .wr (b.extractLsb' 0 4) else .none

/-- A byte that R43 accepts: not kind 11 with an IDX of 16 to 62. -/
def tgtByteOk (b : BitVec 8) : Bool := b == 0xFF || b.toNat < 0xD0

/-! ### Decoding -/

/-- A word whose fields are as the description says, or cause 0x0A. -/
def Raw.ck (c : Bool) (i : Instr) : Except FmtCause Instr := if c then .ok i else .error .field

/-- Cause 0x0A where a field's code is none of those listed. -/
def Raw.code {α : Type} (o : Option α) (f : α → Except FmtCause Instr) : Except FmtCause Instr :=
  match o with
  | some a => f a
  | none => .error .field

/-- The immediate of format G (R49). -/
def Raw.imm (r : Raw) : Option (BitVec 24) := if r.im then some r.low else none

/-- Bits [23:0] are zero where IM is 0. -/
def Raw.immOk (r : Raw) : Bool := r.im || r.low == 0

/-- A control word with its unused halves zero (R52). -/
def Raw.ctl (r : Raw) (off16 : Bool) (low : BitVec 24 → Bool) (i : Instr) : Except FmtCause Instr :=
  Raw.ck (r.fn == 0 && r.ty == 0 && r.u == 0 && r.q == 0 && (off16 || r.off16 == 0) && low r.low) i

/-- The fields of an integer word (R101). -/
def Raw.intF (r : Raw) : IntF :=
  { ty := Ty.ofBits r.ty, pr := Pr.ofBits r.pr, u := r.isU, imm := r.imm, sat := r.sat
    t0 := Tgt.ofByte r.t0, t1 := Tgt.ofByte r.t1 }

/-- An integer word with FN of its own. -/
def Raw.int (r : Raw) (fn : Bool) (i : IntF → Instr) : Except FmtCause Instr :=
  Raw.ck (fn && r.rmBits == 0 && r.immOk) (i r.intF)

/-- The low three bits of FN. -/
def Raw.fn3 (r : Raw) : BitVec 3 := r.fn.extractLsb' 0 3
/-- FUNC of the float group, bits [53:50]. -/
def Raw.func (r : Raw) : BitVec 4 := r.fn.extractLsb' 0 4
/-- FN bits [55:53] are zero. -/
def Raw.hi3 (r : Raw) : Bool := r.fn.extractLsb' 3 3 == 0
/-- FN bits [55:54] are zero. -/
def Raw.hi2 (r : Raw) : Bool := r.fn.extractLsb' 4 2 == 0

/-- The fields of a float-group word (R149). -/
def Raw.floatF (r : Raw) : FloatF :=
  { sub := Sub.ofBits (r.fn.extractLsb' 4 2), ty := Ty.ofBits r.ty, pr := Pr.ofBits r.pr, u := r.isU, imm := r.imm
    sat := r.sat, rm := Rm.ofBits r.rmBits, t0 := Tgt.ofByte r.t0, t1 := Tgt.ofByte r.t1 }

/-- A float-group word. -/
def Raw.flt (r : Raw) (fn : Bool) (i : FloatF → Instr) : Except FmtCause Instr := Raw.ck (fn && r.immOk) (i r.floatF)

/-- A quantisation word (R163). -/
def Raw.quant (r : Raw) (i : QuantF → Instr) : Except FmtCause Instr :=
  Raw.code (QFmt.ofBits r.fn3) fun t =>
    Raw.ck (r.hi2 && !r.im && r.low == 0)
      (i { ue5m3 := r.fn.getLsbD 3, tgt := t, ty := Ty.ofBits r.ty, pr := Pr.ofBits r.pr, u := r.isU, sat := r.sat
           rm := Rm.ofBits r.rmBits, t0 := Tgt.ofByte r.t0, t1 := Tgt.ofByte r.t1 })

/-- A SCAN or WRED word (R221). -/
def Raw.scan (r : Raw) (i : ScanF → Instr) : Except FmtCause Instr :=
  Raw.code (Cmb.ofBits r.fn3) fun c =>
    Raw.ck (r.hi2 && r.u == 0 && !r.im && r.low == 0)
      (i { cmb := c, ty := Ty.ofBits r.ty, pr := Pr.ofBits r.pr, sat := r.sat, rm := Rm.ofBits r.rmBits
           t0 := Tgt.ofByte r.t0, t1 := Tgt.ofByte r.t1 })

/-- SC of format M (R53). -/
def Raw.sc (r : Raw) : Option Scope := Scope.ofBits (r.low.extractLsb' 21 3)
/-- OR of format M (R53). -/
def Raw.ord (r : Raw) : Ord := Ord.ofBits (r.low.extractLsb' 19 2)
/-- SS of format M (R53). -/
def Raw.ss (r : Raw) : BitVec 5 := r.low.extractLsb' 14 5
/-- IMM14 of format M (R53). -/
def Raw.imm14 (r : Raw) : BitVec 14 := r.low.extractLsb' 0 14
/-- AM of format M (R53). -/
def Raw.am (r : Raw) : Am := Am.ofBits (r.q.extractLsb' 2 2)

/-- A load or store word (R53, R116). -/
def Raw.mem (r : Raw) (u : BitVec 1) (i : MemF → Instr) : Except FmtCause Instr :=
  Raw.code (Width.ofBits (r.fn.extractLsb' 3 3)) fun w =>
    Raw.code r.sc fun sc =>
      Raw.ck (r.u == u && r.rmBits == 0)
        (i { ty := Ty.ofBits r.ty, pr := Pr.ofBits r.pr, am := r.am, width := w, sx := r.fn.getLsbD 2
             hint := r.fn.extractLsb' 0 2, sc := sc, ord := r.ord, ss := r.ss, imm := r.imm14
             t0 := Tgt.ofByte r.t0, t1 := Tgt.ofByte r.t1 })

/-- A word with FN, TY, U and Q as given. -/
def Raw.fix (r : Raw) (fn : Bool) (ty : BitVec 3) (u : BitVec 1) (q : Bool) (low : Bool) (i : Instr) :
    Except FmtCause Instr :=
  Raw.ck (fn && r.ty == ty && r.u == u && q && low) i

/-- Bits [23:18] of format X. -/
def Raw.tid (r : Raw) : BitVec 6 := r.low.extractLsb' 18 6
/-- Bits [17:12] of format X. -/
def Raw.td1 (r : Raw) : BitVec 6 := r.low.extractLsb' 12 6
/-- Bits [17:0] are zero. -/
def Raw.low18z (r : Raw) : Bool := r.low.extractLsb' 0 18 == 0
/-- Bits [17:14] and [23:19] of a word that uses only [18:14] are zero. -/
def Raw.onlySs (r : Raw) : Bool := r.low.extractLsb' 19 5 == 0 && r.low.extractLsb' 0 14 == 0

/-- The instruction a word's fields name, its PR and target bytes not yet judged (causes 0x09 and 0x0A of R61). A PR of 11 on
NULL, BCST or a joint MMA without a K origin is 0x0A, as any other that is not 00 (DEDUCED, log 119). -/
def Raw.fields (r : Raw) : Except FmtCause Instr :=
  let pr := Pr.ofBits r.pr
  let a := Tgt.ofByte r.t0
  let b := Tgt.ofByte r.t1
  match r.op.toNat with
  | 0x01 => r.ctl false (fun _ => true) (.br pr r.low)
  | 0x02 => r.ctl true (fun _ => true) (.brc pr r.low r.off16)
  | 0x03 => r.ctl false (· == 0) (.brx pr)
  | 0x04 => r.ctl true (fun _ => true) (.call pr r.low r.off16)
  | 0x05 => r.ctl false (· == 0) (.ret pr)
  | 0x06 => r.ctl false (· == 0) (.exit pr)
  | 0x07 => r.ctl false (fun _ => true) (.yield pr r.low)
  | 0x08 => r.ctl false (fun l => l.extractLsb' 16 8 == 0) (.trap pr (r.low.extractLsb' 0 16))
  | 0x09 => r.ctl false (fun l => l.extractLsb' 16 8 == 0) (.bkpt pr (r.low.extractLsb' 0 16))
  | 0x0A =>
    if r.fn == 0 then Raw.ck (r.ty == 0 && r.pr == 0 && r.q == 0 && r.low == 0) (.null r.isU a b)
    else Raw.ck (r.fn == 1 && r.ty == 0 && r.pr == 0 && r.q == 0 && r.onlySs) (.nullSlot r.isU r.ss)
  | 0x0B =>
    if r.fn == 0 then
      Raw.ck (r.q == 0 && r.low == 0) (.mov { ty := Ty.ofBits r.ty, pr := pr, u := r.isU, t0 := a, t1 := b, more := none })
    else
      Raw.ck (r.fn == 1 && r.q == 0 && r.low.extractLsb' 0 8 == 0)
        (.mov { ty := Ty.ofBits r.ty, pr := pr, u := r.isU, t0 := a, t1 := b
                more := some (Tgt.ofByte (r.low.extractLsb' 16 8), Tgt.ofByte (r.low.extractLsb' 8 8)) })
  | 0x0C => Raw.ck (r.fn == 0 && r.q == 0) (.movi (Ty.ofBits r.ty) pr r.isU a r.imm32)
  | 0x0D => Raw.ck (r.fn == 0 && r.q == 0 && r.low.extractLsb' 8 16 == 0)
      (.getsr (Ty.ofBits r.ty) pr r.isU (r.low.extractLsb' 0 8) a b)
  | 0x0E => r.int (r.fn == 0) .sel
  | 0x10 => r.int (r.fn == 0) .add
  | 0x11 => r.int (r.fn == 0) .sub
  | 0x12 => r.int (r.fn == 0) .mul
  | 0x13 => r.int (r.fn == 0) .mulh
  | 0x14 => r.int (r.fn == 0) .mad
  | 0x15 => r.int (r.fn == 0) .div
  | 0x16 => r.int (r.fn == 0) .rem
  | 0x17 => r.int (r.fn == 0) .min
  | 0x18 => r.int (r.fn == 0) .max
  | 0x19 => r.int (r.fn == 0) .abs
  | 0x1A => r.int (r.fn == 0) .neg
  | 0x1B => r.int (r.fn == 0) .and
  | 0x1C => r.int (r.fn == 0) .or
  | 0x1D => r.int (r.fn == 0) .xor
  | 0x1E => r.int (r.fn == 0) .andn
  | 0x1F => r.int (r.fn == 0) .not
  | 0x20 => r.int (r.fn == 0) .shl
  | 0x21 => r.int (r.fn == 0) .shr
  | 0x22 => r.int (r.fn == 0) .sar
  | 0x23 => r.int (r.fn == 0) .rol
  | 0x24 => r.int (r.fn == 0) .clz
  | 0x25 => r.int (r.fn == 0) .popc
  | 0x26 => r.int (r.fn == 0) .brev
  | 0x27 => r.int (r.fn == 0) .bfx
  | 0x28 => r.int (r.fn == 0) .bfi
  | 0x29 => Raw.code (Cond.ofBits r.fn3) fun c => r.int r.hi3 (.cmp c)
  | 0x2A => r.int r.hi3 (.lea r.fn3)
  | 0x2B => r.int (r.fn == 0) .pk2
  | 0x2C => r.int (r.fn == 0 || r.fn == 1) (.exh (r.fn == 1))
  | 0x2D => Raw.code (HopOp.ofBits r.fn3) fun o => r.int r.hi2 (.hop (r.fn.getLsbD 3) o)
  | 0x2E => r.int (r.fn.extractLsb' 2 4 == 0) (.dp4 (r.fn.getLsbD 1) (r.fn.getLsbD 0))
  | 0x30 => r.flt (r.func == 0) .fadd
  | 0x31 => r.flt (r.func == 0) .fsub
  | 0x32 => r.flt (r.func == 0) .fmul
  | 0x33 => Raw.code (FmaOp.ofBits r.func) fun o => r.flt true (.ffma o)
  | 0x34 => r.flt (r.func == 0 || r.func == 1) (.fmin (r.func == 1))
  | 0x35 => r.flt (r.func == 0 || r.func == 1) (.fmax (r.func == 1))
  | 0x36 => Raw.code (SgnOp.ofBits r.func) fun o => r.flt true (.fsgn o)
  | 0x37 => Raw.code (FCond.ofBits r.func) fun c => r.flt true (.fcmp c)
  | 0x38 => r.flt (r.func == 0) .frcp
  | 0x39 => r.flt (r.func == 0) .frsq
  | 0x3A => Raw.code (Trn.ofBits r.func) fun f => r.flt true (.ftrn f)
  | 0x3B => r.flt (r.func == 0) .fscl
  | 0x3C => Raw.code (FmtCode.ofBits r.fn3) fun c =>
      Raw.ck (r.hi3 && r.ty == 1 && !r.sat && r.rmBits == 0 && r.immOk) (.fcls c pr r.isU r.imm a b)
  | 0x3D => Raw.code (FmtCode.ofBits (r.fn.extractLsb' 3 3)) fun s => Raw.code (FmtCode.ofBits r.fn3) fun d =>
      Raw.ck r.immOk (.cvt s d { r.floatF with sub := .asTy })
  | 0x3E => r.flt (r.func == 0) .fdiv
  | 0x3F => Raw.code (Fop2Op.ofBits r.fn3) fun o => r.flt true (.fop2 (r.fn.getLsbD 3) o)
  | 0x40 => r.quant .qmax
  | 0x41 => r.quant .qcvt
  | 0x42 => r.quant .dqcv
  | 0x44 => Raw.code (ShflOp.ofBits r.func) fun o => r.int r.hi2 (.shfl o)
  | 0x45 => Raw.code (VoteOp.ofBits r.func) fun o => r.int r.hi2 (.vote o)
  | 0x46 => r.scan (.scan (r.fn.getLsbD 3))
  | 0x47 => if r.fn.getLsbD 3 then .error .field else r.scan .wred
  | 0x48 => r.int (r.fn == 0 && r.pr == 0) .bcst
  | 0x4C => r.fix (r.fn == 0 || r.fn == 1) 1 0 (r.q == 0) (r.low == 0 || r.low == 0x500000)
      (.fsend (r.fn == 1) pr (r.low == 0x500000))
  | 0x4D => r.fix (r.fn == 0 || r.fn == 1) 1 0 (r.q == 0) (r.low == 0 || r.low == 0x480000)
      (.frecv (r.fn == 1) pr (r.low == 0x480000) a b)
  | 0x4E => r.fix (r.fn == 0 || r.fn == 1) 1 1 (r.q == 0) (r.low == 0) (.fpeek (r.fn == 1) pr a b)
  | 0x50 => r.mem 0 .ld
  | 0x51 => r.mem 0 .st
  | 0x52 => r.mem 0 .lds
  | 0x53 => r.mem 0 .sts
  | 0x54 => r.mem 1 .ldk
  | 0x55 => Raw.code r.sc fun sc =>
      Raw.ck (r.fn3 == 0 && r.u == 0 && r.rmBits == 0 && (r.am == .base || r.am == .indexed))
        (.atom { aop := Aop.ofBits (r.fn.extractLsb' 3 3), ty := Ty.ofBits r.ty, pr := pr, indexed := r.am == .indexed
                 sc := sc, ord := r.ord, ss := r.ss, imm := r.imm14, t0 := a, t1 := b })
  | 0x56 => Raw.code r.sc fun sc =>
      r.fix (r.fn == 0) 0 1 (r.q == 0) (r.low.extractLsb' 0 19 == 0) (.fence pr sc r.ord)
  | 0x57 => r.fix (r.fn == 0) 0 1 (r.q == 0) (r.low.extractLsb' 10 14 == 0)
      (.fencex pr (r.low.extractLsb' 5 5) (r.low.extractLsb' 0 5))
  | 0x58 => Raw.code r.sc fun sc => Raw.code (PrefLvl.ofBits (r.fn.extractLsb' 0 2)) fun l =>
      r.fix (r.fn.extractLsb' 2 4 == 0) 1 0 (r.q == 0) (r.low.extractLsb' 14 7 == 0) (.pref pr l sc r.imm14)
  | 0x59 => r.fix (r.fn.extractLsb' 2 4 == 0) 1 0 (r.q == 0) (r.low.extractLsb' 14 10 == 0)
      (.cctl pr (CctlOp.ofBits (r.fn.extractLsb' 0 2)) r.imm14)
  | 0x5A => r.fix r.hi3 1 1 (!r.sat && r.rmBits == 0) r.immOk (.modset pr r.fn3 r.imm)
  | 0x60 => r.fix (r.fn == 0) 1 1 (r.q == 0) (r.low.extractLsb' 16 8 == 0)
      (.regrel pr (r.low.extractLsb' 8 8) (r.low.extractLsb' 0 8))
  | 0x61 => r.fix (r.fn == 0) 1 1 (r.q == 0) (r.low == 0) (.regclm pr a b)
  | 0x62 => Raw.code (RegQ.ofBits r.fn) fun f => r.fix true 1 1 (r.q == 0) (r.low == 0) (.regqry pr f a b)
  | 0x63 => r.fix (r.fn == 0) 1 1 (r.q == 0) (r.low.extractLsb' 13 11 == 0 && r.low.extractLsb' 5 3 == 0)
      (.bararv pr (r.low.extractLsb' 8 5) (r.low.extractLsb' 0 5))
  | 0x64 => r.fix (r.fn == 0) 1 1 (r.q == 0) (r.low.extractLsb' 13 11 == 0 && r.low.extractLsb' 0 8 == 0)
      (.barwt pr (r.low.extractLsb' 8 5))
  | 0x65 => r.fix (r.fn == 0) 1 1 (r.q == 0) (r.low.extractLsb' 13 11 == 0 && r.low.extractLsb' 5 3 == 0)
      (.barsyn pr (r.low.extractLsb' 8 5) (r.low.extractLsb' 0 5))
  | 0x68 => Raw.code (TakeCls.ofBits (r.fn.extractLsb' 0 2)) fun c =>
      r.fix r.hi2 0 1 (r.q == 0) true
        (.ttake { pr := pr, sv := r.fn.getLsbD 3, spl := r.fn.getLsbD 2, cls := c, tid := r.tid, bnd := r.td1
                  roff := r.low.extractLsb' 0 12, t0 := a, t1 := b })
  | 0x69 => r.fix (r.fn == 0) 0 1 (r.q == 0) r.low18z (.tgive pr r.tid)
  | 0x6A => r.fix (r.fn == 0) 0 1 (r.q == 0) (r.low.extractLsb' 16 2 == 0) (.tarm pr r.tid (r.low.extractLsb' 0 16))
  | 0x6B => r.fix (r.fn == 0) 1 1 (r.q == 0) r.low18z (.tstat pr r.tid a b)
  | 0x6C => r.fix (r.fn == 0 || r.fn == 1) 0 1 (r.q == 0) r.low18z (.sdone pr (r.fn == 1) r.tid)
  | 0x6D => r.fix (r.fn == 0) 0 1 (r.q == 0) r.low18z (.srefu pr r.tid)
  | 0x6E => r.fix (r.fn == 0) 0 1 (r.q == 0) r.low18z (.tclr pr r.tid)
  | 0x70 => r.fix (r.fn == 0) 0 1 (!r.q.getLsbD 0)
      (r.low.extractLsb' 0 6 == 0 && (r.pr == 0 || !r.q.getLsbD 2 || r.q.getLsbD 1))
      (.mma { pr := pr, spl := r.q.getLsbD 3, gng := r.q.getLsbD 2, ks := r.q.getLsbD 1, tid := r.tid, tda := r.td1
              tdb := r.low.extractLsb' 6 6 })
  | 0x71 => r.fix (r.fn == 0) 0 1 (r.q.extractLsb' 0 3 == 0) r.low18z (.azero pr (r.q.getLsbD 3) r.tid)
  | 0x72 => Raw.code (DrainMode.ofBits r.fn3) fun m =>
      r.fix r.hi3 1 1 (r.q == 0) (r.low.extractLsb' 0 10 == 0)
        (.adrn { pr := pr, mode := m, tid := r.tid, tdo := r.td1, ag := r.low.extractLsb' 10 2, t0 := a, t1 := b })
  | 0x73 => r.fix (r.fn == 0 || r.fn == 4) 0 1 (r.q == 0) (r.low.extractLsb' 0 12 == 0)
      (.aload pr (r.fn == 4) r.tid r.td1)
  | 0x74 => r.fix (r.fn == 0 || r.fn == 1) 1 1 (r.q == 0) (r.low.extractLsb' 12 12 == 0 && r.low.extractLsb' 0 10 == 0)
      (.agset pr (r.fn == 1) (r.low.extractLsb' 10 2))
  | 0x75 => r.fix (!r.fn.getLsbD 5) 1 1 (r.q == 8) true (.gang pr (r.fn.extractLsb' 0 5) r.low)
  | 0x76 => r.fix (r.fn == 0) 1 0 (r.q == 0) r.low18z (.tdset pr r.tid)
  | 0x77 => r.fix (r.fn == 0) 1 0 (r.q == 0) r.low18z (.tdget pr r.tid a b)
  | 0x80 => Raw.code (MsgOp.ofBits r.fn) fun m =>
      r.fix true 1 0 (r.q == 0)
        (r.low.extractLsb' 0 19 == 0 && (r.low.extractLsb' 20 4).toNat + 1 == m.words (r.low.getLsbD 19))
        (.send pr m (r.low.getLsbD 19))
  | 0x81 => r.fix (r.fn == 0) 1 1 (r.q == 0) (r.low == 0 || r.low == 0x080000) (.waitr pr (r.low == 0x080000) a b)
  | 0x82 => r.fix (r.fn == 0) 1 1 (r.q == 0) (r.low == 0 || r.low == 0x080000) (.pollr pr (r.low == 0x080000) a b)
  | _ => .error .opcode

/-- The opcodes 0x01 to 0x09 and 0x0C, whose bits [31:24] or [39:24] are no target bytes (R51, R52). -/
def Raw.isC (r : Raw) : Bool := 1 ≤ r.op.toNat && r.op.toNat ≤ 9
/-- Format I (R51). -/
def Raw.isI (r : Raw) : Bool := r.op.toNat == 0x0C

/-- Two places filled in order: no second target without a first (R45). -/
def inOrder : List (BitVec 8) → Bool
  | a :: b :: l => (a != 0xFF || b == 0xFF) && inOrder (b :: l)
  | _ => true

/-- The target bytes are as R43 and R45 accept (cause 0x0C), so far as the word alone decides it. -/
def Raw.targetsOk (r : Raw) (i : Instr) : Bool :=
  if r.isC then true
  else if r.isI then tgtByteOk r.t0
  else match i with
    | .mov f =>
      let l := if f.more.isSome then [r.t0, r.t1, r.low.extractLsb' 16 8, r.low.extractLsb' 8 8] else [r.t0, r.t1]
      l.all tgtByteOk && inOrder l
    | .atom _ => [r.t0, r.t1].all (fun b => b == 0xFF || (0xC0 ≤ b.toNat && b.toNat < 0xD0)) && inOrder [r.t0, r.t1]
    | i =>
      if i.targets.isEmpty then r.t0 == 0xFF && r.t1 == 0xFF
      else [r.t0, r.t1].all tgtByteOk && inOrder [r.t0, r.t1]

/-- The instruction of the fields, or the lowest cause they raise (R61). -/
def decodeRaw (r : Raw) : Except FmtCause Instr :=
  match r.fields with
  | .error c => .error c
  | .ok i =>
    if !i.accept then .error .field
    else if r.pr == 3 || !i.prOk then .error .pred
    else if !r.targetsOk i then .error .target
    else .ok i

/-- Decoding one body word. An all-zero word has the unassigned opcode 0x00 (R56). -/
def decode (w : W64) : Except FmtCause Instr := decodeRaw (Raw.ofWord w)

/-- The instruction this decoder reads from a row's word: `w` is the word of R4, its first byte least significant,
so bits beyond 64 are dropped and bits above `nbits` are zero in `w`. -/
def decodeTableWord (_nbits w : Nat) : Option Instr := (decode (BitVec.ofNat 64 w)).toOption

/-! ### Encoding -/

/-- TY (R47). -/
def Ty.bits : Ty → BitVec 3
  | .i32 => 0 | .n32 => 1 | .i64 => 2 | .n64 => 3 | .f32 => 4 | .f16 => 5 | .bf16 => 6 | .x16 => 7
/-- PR (R47). -/
def Pr.bits : Pr → BitVec 2
  | .always => 0 | .ifNonzero => 1 | .ifZero => 2
/-- RM (R49). -/
def Rm.bits : Rm → BitVec 2
  | .rne => 0 | .rz => 1 | .rdn => 2 | .rup => 3
/-- SC (R53). -/
def Scope.bits : Scope → BitVec 3
  | .warp => 0 | .team => 1 | .die => 2 | .device => 3 | .system => 4
/-- OR (R53). -/
def Ord.bits : Ord → BitVec 2
  | .relaxed => 0 | .acquire => 1 | .release => 2 | .acqRel => 3
/-- AM (R53). -/
def Am.bits : Am → BitVec 2
  | .base => 0 | .postInc => 1 | .modulo => 2 | .indexed => 3
/-- The access width (R53). -/
def Width.bits : Width → BitVec 3
  | .b1 => 0 | .b2 => 1 | .b4 => 2 | .b8 => 3 | .b16 => 4
/-- The condition of CMP (R110). -/
def Cond.bits : Cond → BitVec 3
  | .eq => 0 | .ne => 1 | .lt => 2 | .le => 3 | .gt => 4 | .ge => 5
/-- The operation of HOP (R113). -/
def HopOp.bits : HopOp → BitVec 3
  | .add => 0 | .sub => 1 | .min => 2 | .max => 3 | .absd => 4
/-- SUB (R50). -/
def Sub.bits : Sub → BitVec 2
  | .asTy => 0 | .bf16 => 1 | .f16 => 2 | .e4m3 => 3
/-- FUNC of FFMA (R153). -/
def FmaOp.bits : FmaOp → BitVec 4
  | .pos => 0 | .sub => 1 | .neg => 2 | .negsub => 3
/-- FUNC of FSGN (R155). -/
def SgnOp.bits : SgnOp → BitVec 4
  | .copy => 0 | .ncopy => 1 | .xor => 2 | .abs => 3 | .neg => 4
/-- FUNC of FCMP (R156). -/
def FCond.bits : FCond → BitVec 4
  | .eq => 0 | .ne => 1 | .lt => 2 | .le => 3 | .gt => 4 | .ge => 5 | .uo => 6 | .ord => 7
/-- FUNC of FTRN (R158). -/
def Trn.bits : Trn → BitVec 4
  | .exp2 => 0 | .log2 => 1 | .sin2pi => 2 | .cos2pi => 3 | .tanh => 4 | .sigm => 5
/-- The operation of FOP2 (R162). -/
def Fop2Op.bits : Fop2Op → BitVec 3
  | .add => 0 | .sub => 1 | .mul => 2 | .fma => 3 | .min => 4 | .max => 5
/-- The format codes of CVT (R161). -/
def FmtCode.bits : FmtCode → BitVec 3
  | .f32 => 0 | .f16 => 1 | .bf16 => 2 | .e4m3 => 3 | .e5m2 => 4 | .i8 => 5 | .int => 6
/-- TGT of the quantisation group (R163). -/
def QFmt.bits : QFmt → BitVec 3
  | .e4m3 => 0 | .e5m2 => 1 | .int8 => 2 | .int4 => 3 | .int3 => 4
/-- FUNC of SHFL (R168). -/
def ShflOp.bits : ShflOp → BitVec 4
  | .lane => 0 | .swz => 1 | .rot => 2 | .slide => 3
/-- FUNC of VOTE (R169). -/
def VoteOp.bits : VoteOp → BitVec 4
  | .mask => 0 | .hit => 1 | .full => 2 | .same => 3 | .cnt => 4 | .first => 5 | .pmask => 6
/-- CMB (R221). -/
def Cmb.bits : Cmb → BitVec 3
  | .add => 0 | .min => 1 | .max => 2 | .mul => 3 | .lrec => 4
/-- AOP (R288). -/
def Aop.bits : Aop → BitVec 3
  | .add => 0 | .min => 1 | .max => 2 | .and => 3 | .or => 4 | .xor => 5 | .exch => 6 | .cas => 7
/-- LVL (R294). -/
def PrefLvl.bits : PrefLvl → BitVec 2
  | .l1 => 0 | .l2 => 1 | .mer => 2
/-- The operation of CCTL (R295). -/
def CctlOp.bits : CctlOp → BitVec 2
  | .wb => 0 | .inv => 1 | .push => 2 | .evict => 3
/-- The function of REGQRY (R180). -/
def RegQ.bits : RegQ → BitVec 6
  | .limit => 0 | .bound => 1 | .spilled => 2 | .credit => 3 | .pend => 4 | .free => 5
/-- CLS (R320). -/
def TakeCls.bits : TakeCls → BitVec 2
  | .own => 1 | .neg => 2 | .shr => 3
/-- MODE (R211). -/
def DrainMode.bits : DrainMode → BitVec 3
  | .raw => 0 | .diff => 1 | .ratio => 2 | .gate => 3 | .img => 4
/-- FN of SEND (R296). -/
def MsgOp.bits : MsgOp → BitVec 6
  | .copy => 1 | .copym => 2 | .fillb => 3 | .scatr => 4 | .gathr => 5 | .coll => 6

/-- A bit. -/
def bit (b : Bool) : BitVec 1 := if b then 1 else 0

/-- The target byte of a place (R43). -/
def Tgt.byte : Tgt → BitVec 8
  | .none => 0xFF
  | .to .left i => (0 : BitVec 2) ++ i
  | .to .right i => (1 : BitVec 2) ++ i
  | .to .third i => (2 : BitVec 2) ++ i
  | .wr n => (12 : BitVec 4) ++ n

/-- The target bytes and low bits of a control word (R52). -/
def ctlRaw (op : BitVec 8) (pr : Pr) (off16 : BitVec 16) (low : BitVec 24) : Raw :=
  { op := op, fn := 0, ty := 0, pr := pr.bits, u := 0, q := 0, t0 := off16.extractLsb' 8 8, t1 := off16.extractLsb' 0 8
    low := low }

/-- IMM24 and IM of format G (R49). -/
def immLow (imm : Option (BitVec 24)) : BitVec 24 := imm.getD 0

/-- An integer word (R101). -/
def IntF.raw (f : IntF) (op : BitVec 8) (fn : BitVec 6) : Raw :=
  { op := op, fn := fn, ty := f.ty.bits, pr := f.pr.bits, u := bit f.u, q := bit f.imm.isSome ++ bit f.sat ++ (0 : BitVec 2)
    t0 := f.t0.byte, t1 := f.t1.byte, low := immLow f.imm }

/-- A float-group word (R149). -/
def FloatF.raw (f : FloatF) (op : BitVec 8) (fn : BitVec 6) : Raw :=
  { op := op, fn := fn, ty := f.ty.bits, pr := f.pr.bits, u := bit f.u, q := bit f.imm.isSome ++ bit f.sat ++ f.rm.bits
    t0 := f.t0.byte, t1 := f.t1.byte, low := immLow f.imm }

/-- A quantisation word (R163). -/
def QuantF.raw (f : QuantF) (op : BitVec 8) : Raw :=
  { op := op, fn := (0 : BitVec 2) ++ bit f.ue5m3 ++ f.tgt.bits, ty := f.ty.bits, pr := f.pr.bits, u := bit f.u
    q := bit false ++ bit f.sat ++ f.rm.bits, t0 := f.t0.byte, t1 := f.t1.byte, low := 0 }

/-- A SCAN or WRED word (R221). -/
def ScanF.raw (f : ScanF) (op : BitVec 8) (ex : Bool) : Raw :=
  { op := op, fn := (0 : BitVec 2) ++ bit ex ++ f.cmb.bits, ty := f.ty.bits, pr := f.pr.bits, u := 0
    q := bit false ++ bit f.sat ++ f.rm.bits, t0 := f.t0.byte, t1 := f.t1.byte, low := 0 }

/-- A load or store word (R53). -/
def MemF.raw (f : MemF) (op : BitVec 8) (u : BitVec 1) : Raw :=
  { op := op, fn := f.width.bits ++ bit f.sx ++ f.hint, ty := f.ty.bits, pr := f.pr.bits, u := u
    q := f.am.bits ++ (0 : BitVec 2), t0 := f.t0.byte, t1 := f.t1.byte
    low := f.sc.bits ++ f.ord.bits ++ f.ss ++ f.imm }

/-- A word with its fields given. -/
def mkRaw (op : BitVec 8) (fn : BitVec 6) (ty : BitVec 3) (pr : Pr) (u : BitVec 1) (q : BitVec 4) (a b : Tgt)
    (low : BitVec 24) : Raw :=
  { op := op, fn := fn, ty := ty, pr := pr.bits, u := u, q := q, t0 := a.byte, t1 := b.byte, low := low }

/-- FN with FUNC and SUB (R149). -/
def FloatF.fn (f : FloatF) (func : BitVec 4) : BitVec 6 := f.sub.bits ++ func

/-- The fields of an instruction's word, from each encoding table; a step of the device has no word. -/
def encodeRaw : Instr → Raw
  | .br pr off => ctlRaw 0x01 pr 0 off
  | .brc pr nz z => ctlRaw 0x02 pr z nz
  | .brx pr => ctlRaw 0x03 pr 0 0
  | .call pr callee back => ctlRaw 0x04 pr back callee
  | .ret pr => ctlRaw 0x05 pr 0 0
  | .exit pr => ctlRaw 0x06 pr 0 0
  | .yield pr off => ctlRaw 0x07 pr 0 off
  | .trap pr c => ctlRaw 0x08 pr 0 ((0 : BitVec 8) ++ c)
  | .bkpt pr c => ctlRaw 0x09 pr 0 ((0 : BitVec 8) ++ c)
  | .null u a b => mkRaw 0x0A 0 0 .always (bit u) 0 a b 0
  | .nullSlot u ss => mkRaw 0x0A 1 0 .always (bit u) 0 .none .none ((0 : BitVec 5) ++ ss ++ (0 : BitVec 14))
  | .mov f =>
    match f.more with
    | none => mkRaw 0x0B 0 f.ty.bits f.pr (bit f.u) 0 f.t0 f.t1 0
    | some (c, d) => mkRaw 0x0B 1 f.ty.bits f.pr (bit f.u) 0 f.t0 f.t1 (c.byte ++ d.byte ++ (0 : BitVec 8))
  | .movi ty pr u a imm =>
    { op := 0x0C, fn := 0, ty := ty.bits, pr := pr.bits, u := bit u, q := 0, t0 := a.byte, t1 := imm.extractLsb' 24 8
      low := imm.extractLsb' 0 24 }
  | .getsr ty pr u id a b => mkRaw 0x0D 0 ty.bits pr (bit u) 0 a b ((0 : BitVec 16) ++ id)
  | .sel f => f.raw 0x0E 0
  | .add f => f.raw 0x10 0
  | .sub f => f.raw 0x11 0
  | .mul f => f.raw 0x12 0
  | .mulh f => f.raw 0x13 0
  | .mad f => f.raw 0x14 0
  | .div f => f.raw 0x15 0
  | .rem f => f.raw 0x16 0
  | .min f => f.raw 0x17 0
  | .max f => f.raw 0x18 0
  | .abs f => f.raw 0x19 0
  | .neg f => f.raw 0x1A 0
  | .and f => f.raw 0x1B 0
  | .or f => f.raw 0x1C 0
  | .xor f => f.raw 0x1D 0
  | .andn f => f.raw 0x1E 0
  | .not f => f.raw 0x1F 0
  | .shl f => f.raw 0x20 0
  | .shr f => f.raw 0x21 0
  | .sar f => f.raw 0x22 0
  | .rol f => f.raw 0x23 0
  | .clz f => f.raw 0x24 0
  | .popc f => f.raw 0x25 0
  | .brev f => f.raw 0x26 0
  | .bfx f => f.raw 0x27 0
  | .bfi f => f.raw 0x28 0
  | .cmp c f => f.raw 0x29 ((0 : BitVec 3) ++ c.bits)
  | .lea s f => f.raw 0x2A ((0 : BitVec 3) ++ s)
  | .pk2 f => f.raw 0x2B 0
  | .exh h f => f.raw 0x2C ((0 : BitVec 5) ++ bit h)
  | .hop s o f => f.raw 0x2D ((0 : BitVec 2) ++ bit s ++ o.bits)
  | .dp4 l r f => f.raw 0x2E ((0 : BitVec 4) ++ bit l ++ bit r)
  | .ld f => f.raw 0x50 0
  | .st f => f.raw 0x51 0
  | .lds f => f.raw 0x52 0
  | .sts f => f.raw 0x53 0
  | .ldk f => f.raw 0x54 1
  | .modset pr m imm =>
    mkRaw 0x5A ((0 : BitVec 3) ++ m) 1 pr 1 (bit imm.isSome ++ (0 : BitVec 3)) .none .none (immLow imm)
  | .fadd f => f.raw 0x30 (f.fn 0)
  | .fsub f => f.raw 0x31 (f.fn 0)
  | .fmul f => f.raw 0x32 (f.fn 0)
  | .ffma o f => f.raw 0x33 (f.fn o.bits)
  | .fmin n f => f.raw 0x34 (f.fn ((0 : BitVec 3) ++ bit n))
  | .fmax n f => f.raw 0x35 (f.fn ((0 : BitVec 3) ++ bit n))
  | .fsgn o f => f.raw 0x36 (f.fn o.bits)
  | .fcmp c f => f.raw 0x37 (f.fn c.bits)
  | .frcp f => f.raw 0x38 (f.fn 0)
  | .frsq f => f.raw 0x39 (f.fn 0)
  | .ftrn t f => f.raw 0x3A (f.fn t.bits)
  | .fscl f => f.raw 0x3B (f.fn 0)
  | .fcls src pr u mask a b =>
    mkRaw 0x3C ((0 : BitVec 3) ++ src.bits) 1 pr (bit u) (bit mask.isSome ++ (0 : BitVec 3)) a b (immLow mask)
  | .cvt src dst f => f.raw 0x3D (src.bits ++ dst.bits)
  | .fdiv f => f.raw 0x3E (f.fn 0)
  | .fop2 bf o f => f.raw 0x3F (f.fn (bit bf ++ o.bits))
  | .qmax f => f.raw 0x40
  | .qcvt f => f.raw 0x41
  | .dqcv f => f.raw 0x42
  | .shfl o f => f.raw 0x44 ((0 : BitVec 2) ++ o.bits)
  | .vote o f => f.raw 0x45 ((0 : BitVec 2) ++ o.bits)
  | .bcst f => f.raw 0x48 0
  | .scan ex f => f.raw 0x46 ex
  | .wred f => f.raw 0x47 false
  | .fsend pv pr rel =>
    mkRaw 0x4C ((0 : BitVec 5) ++ bit pv) 1 pr 0 0 .none .none (if rel then 0x500000 else 0)
  | .frecv pv pr acq a b => mkRaw 0x4D ((0 : BitVec 5) ++ bit pv) 1 pr 0 0 a b (if acq then 0x480000 else 0)
  | .fpeek pv pr a b => mkRaw 0x4E ((0 : BitVec 5) ++ bit pv) 1 pr 1 0 a b 0
  | .atom f =>
    mkRaw 0x55 (f.aop.bits ++ (0 : BitVec 3)) f.ty.bits f.pr 0 (if f.indexed then 12 else 0) f.t0 f.t1
      (f.sc.bits ++ f.ord.bits ++ f.ss ++ f.imm)
  | .fence pr sc o => mkRaw 0x56 0 0 pr 1 0 .none .none (sc.bits ++ o.bits ++ (0 : BitVec 19))
  | .fencex pr x y => mkRaw 0x57 0 0 pr 1 0 .none .none ((0 : BitVec 14) ++ x ++ y)
  | .pref pr l sc imm =>
    mkRaw 0x58 ((0 : BitVec 4) ++ l.bits) 1 pr 0 0 .none .none (sc.bits ++ (0 : BitVec 7) ++ imm)
  | .cctl pr o imm => mkRaw 0x59 ((0 : BitVec 4) ++ o.bits) 1 pr 0 0 .none .none ((0 : BitVec 10) ++ imm)
  | .regrel pr first cntm => mkRaw 0x60 0 1 pr 1 0 .none .none ((0 : BitVec 8) ++ first ++ cntm)
  | .regclm pr a b => mkRaw 0x61 0 1 pr 1 0 a b 0
  | .regqry pr f a b => mkRaw 0x62 f.bits 1 pr 1 0 a b 0
  | .bararv pr n c => mkRaw 0x63 0 1 pr 1 0 .none .none ((0 : BitVec 11) ++ n ++ (0 : BitVec 3) ++ c)
  | .barwt pr n => mkRaw 0x64 0 1 pr 1 0 .none .none ((0 : BitVec 11) ++ n ++ (0 : BitVec 8))
  | .barsyn pr n c => mkRaw 0x65 0 1 pr 1 0 .none .none ((0 : BitVec 11) ++ n ++ (0 : BitVec 3) ++ c)
  | .ttake f =>
    mkRaw 0x68 ((0 : BitVec 2) ++ bit f.sv ++ bit f.spl ++ f.cls.bits) 0 f.pr 1 0 f.t0 f.t1 (f.tid ++ f.bnd ++ f.roff)
  | .tgive pr t => mkRaw 0x69 0 0 pr 1 0 .none .none (t ++ (0 : BitVec 18))
  | .tarm pr t c => mkRaw 0x6A 0 0 pr 1 0 .none .none (t ++ (0 : BitVec 2) ++ c)
  | .tstat pr t a b => mkRaw 0x6B 0 1 pr 1 0 a b (t ++ (0 : BitVec 18))
  | .sdone pr s t => mkRaw 0x6C ((0 : BitVec 5) ++ bit s) 0 pr 1 0 .none .none (t ++ (0 : BitVec 18))
  | .srefu pr t => mkRaw 0x6D 0 0 pr 1 0 .none .none (t ++ (0 : BitVec 18))
  | .tclr pr t => mkRaw 0x6E 0 0 pr 1 0 .none .none (t ++ (0 : BitVec 18))
  | .mma f =>
    mkRaw 0x70 0 0 f.pr 1 (bit f.spl ++ bit f.gng ++ bit f.ks ++ bit false) .none .none
      (f.tid ++ f.tda ++ f.tdb ++ (0 : BitVec 6))
  | .azero pr s t => mkRaw 0x71 0 0 pr 1 (bit s ++ (0 : BitVec 3)) .none .none (t ++ (0 : BitVec 18))
  | .adrn f =>
    mkRaw 0x72 ((0 : BitVec 3) ++ f.mode.bits) 1 f.pr 1 0 f.t0 f.t1 (f.tid ++ f.tdo ++ f.ag ++ (0 : BitVec 10))
  | .aload pr img t s =>
    mkRaw 0x73 (if img then 4 else 0) 0 pr 1 0 .none .none (t ++ s ++ (0 : BitVec 12))
  | .agset pr nb ag =>
    mkRaw 0x74 ((0 : BitVec 5) ++ bit nb) 1 pr 1 0 .none .none ((0 : BitVec 12) ++ ag ++ (0 : BitVec 10))
  | .gang pr base m => mkRaw 0x75 (bit false ++ base) 1 pr 1 8 .none .none m
  | .tdset pr i => mkRaw 0x76 0 1 pr 0 0 .none .none (i ++ (0 : BitVec 18))
  | .tdget pr i a b => mkRaw 0x77 0 1 pr 0 0 a b (i ++ (0 : BitVec 18))
  | .send pr m lp =>
    mkRaw 0x80 m.bits 1 pr 0 0 .none .none (BitVec.ofNat 4 (m.words lp - 1) ++ bit lp ++ (0 : BitVec 19))
  | .waitr pr s a b => mkRaw 0x81 0 1 pr 1 0 a b (if s then 0x080000 else 0)
  | .pollr pr s a b => mkRaw 0x82 0 1 pr 1 0 a b (if s then 0x080000 else 0)
  | _ => mkRaw 0 0 0 .always 0 0 .none .none 0

/-- The word of a well-formed body instruction. -/
def encode (i : Instr) : W64 := (encodeRaw i).toWord

end Sys2Proof
end

