-- ==== Sys2Proof/Config.lean ====
section
/-! DEFINITION. What the manual leaves open: free values, constants without a body that nothing can evaluate. -/
namespace Sys2Proof

/-- The result an FP32 FTRN offers for an operand; it counts where it meets the bound of R158 (log 4). -/
opaque Config.ftrn : Trn → W32 → W32

/-- Which agent's step comes next when none is placed in the agenda: no rule orders them (log 1). -/
opaque Config.schedule : Nat → Instr

/-- Which of the values R282 allows an engine's read of a word returns, by the words read so far (log 5). -/
opaque Config.pick : Nat → Nat

/-- The STATUS of a message whose copy into a tile a TCLR cancelled: the manual names none (log 23). -/
opaque Config.cutStatus : Nat → W8

/-- An agreement register's word in a team record, whose layout the manual does not give (R351, log 25). -/
opaque Config.agWord : W16 → W16 → Bool → W64

/-- A barrier's word in a team record: phase, arrivals, phase count and pending bits, whose layout the manual does not give
(R233, R351, log 25). -/
opaque Config.barWord : Bool → Nat → Option Nat → W32 → W64

/-- A neighbour entry in a team record, whose layout the manual does not give (R232, R351, log 25). -/
opaque Config.entryBytes : Bool → List W32 → W32 → List W8

/-- What a host's read of a register that R368 makes write-only returns, by its offset: the manual names no value (log 26). -/
opaque Config.blindRead : Nat → W64

/-- The status of a command given where the manual states none, by its OP (log 28). -/
opaque Config.openStatus : Nat → W8

/-- The ECDSA public key fused at manufacture, which the manual does not give (R376, log 6). -/
opaque Config.ecdsaKey : Nat × Nat

/-- The LMS public key fused at manufacture, its identifier and its root (R376, log 6). -/
opaque Config.lmsKey : List W8 × List W8

/-- The EKIND and EINST of the fault of a poisoned line that Meridian evicts: the manual names no unit for it (R355, R363, log 81). -/
opaque Config.evictUnit : BitVec 4 × BitVec 11

/-- What a sensor reads, by its offset in BAR 0 and the choices made so far
(R379, log 89). -/
opaque Config.sensor : Nat → Nat → W16

end Sys2Proof
end

