-- ==== Sys2Proof/Machine/Flags.lean ====
section
/-! DEFINITION. The sticky float flags (R144) and how they enter %fstat (R145). -/
namespace Sys2Proof

/-- The sticky flags of R144, as bits [7:0] of %fstat. -/
abbrev Flags := BitVec 8
/-- Invalid, bit 0. -/
def Flags.nv : Flags := 0x01
/-- Division by zero, bit 1. -/
def Flags.dz : Flags := 0x02
/-- Overflow, bit 2. -/
def Flags.of : Flags := 0x04
/-- Underflow, bit 3. -/
def Flags.uf : Flags := 0x08
/-- Inexact, bit 4. -/
def Flags.nx : Flags := 0x10
/-- Saturation, bit 5. -/
def Flags.sf : Flags := 0x20
/-- Count saturation, bit 6. -/
def Flags.cs : Flags := 0x40
/-- Ratio overflow, bit 7. -/
def Flags.ro : Flags := 0x80

/-- A flag where a condition holds. -/
def Flags.when (c : Bool) (f : Flags) : Flags := if c then f else 0

/-- Flags ORed into %fstat (R145). -/
def Flags.into (f : Flags) (fstat : W32) : W32 := fstat ||| f.setWidth 32

end Sys2Proof
end

