-- ==== Sys2Proof/Machine/Num.lean ====
section
/-! DEFINITION. Numbers, bit by bit (07): the float layouts, exact values, the one rounding of R138 with overflow,
saturation and underflow (R140 to R142), and the conversions to integers (R139). -/
namespace Sys2Proof

/-- A float layout (R131). -/
structure Fmt where
  ebits : Nat
  fbits : Nat
  bias : Nat
  /-- The all-ones exponent holds the infinities and NaNs; otherwise only the all-ones pattern is a NaN. -/
  ieee : Bool
  signed : Bool
  deriving DecidableEq, Repr, Inhabited

def Fmt.f32 : Fmt := ⟨8, 23, 127, true, true⟩
def Fmt.f16 : Fmt := ⟨5, 10, 15, true, true⟩
def Fmt.bf16 : Fmt := ⟨8, 7, 127, true, true⟩
def Fmt.e4m3 : Fmt := ⟨4, 3, 7, false, true⟩
def Fmt.e5m2 : Fmt := ⟨5, 2, 15, true, true⟩
def Fmt.ue5m3 : Fmt := ⟨5, 3, 15, false, false⟩

/-- The bits of a format below its sign. -/
def Fmt.magBits (f : Fmt) : Nat := f.ebits + f.fbits
/-- The canonical NaN (R131). -/
def Fmt.canonNaN (f : Fmt) : Nat :=
  if f.ieee then (2 ^ f.ebits - 1) * 2 ^ f.fbits + 2 ^ (f.fbits - 1) else 2 ^ f.magBits - 1
/-- The largest finite magnitude (R133). -/
def Fmt.maxFin (f : Fmt) : Nat :=
  if f.ieee then (2 ^ f.ebits - 1) * 2 ^ f.fbits - 1 else 2 ^ f.magBits - 2
/-- The infinity's magnitude, for a format that has one. -/
def Fmt.infBits (f : Fmt) : Nat := (2 ^ f.ebits - 1) * 2 ^ f.fbits
/-- The sign bit's weight. -/
def Fmt.signBit (f : Fmt) (neg : Bool) : Nat := if neg && f.signed then 2 ^ f.magBits else 0
/-- The exponent of the smallest normal. -/
def Fmt.emin (f : Fmt) : Int := 1 - (f.bias : Int)

/-- A number: NaN, an infinity, or (-1)^neg · m · 2^e with a signed zero when m = 0. -/
inductive Fp where
  | nan
  | inf (neg : Bool)
  | fin (neg : Bool) (m : Nat) (e : Int)
  deriving DecidableEq, Repr, Inhabited

/-- The value of a pattern (R131, R132). -/
def Fmt.decode (f : Fmt) (bits : Nat) : Fp :=
  let mag := bits % 2 ^ f.magBits
  let neg := f.signed && (bits / 2 ^ f.magBits) % 2 == 1
  let ex := mag / 2 ^ f.fbits
  let fr := mag % 2 ^ f.fbits
  if f.ieee && ex == 2 ^ f.ebits - 1 then (if fr == 0 then .inf neg else .nan)
  else if !f.ieee && mag == 2 ^ f.magBits - 1 then .nan
  else if ex == 0 then .fin neg fr (f.emin - f.fbits)
  else .fin neg (2 ^ f.fbits + fr) ((ex : Int) - f.bias - f.fbits)

/-- The value of an E8M0 scale (R132). -/
def decodeE8M0 (b : Nat) : Fp := if b % 256 == 255 then .nan else .fin false 1 ((b % 256 : Nat) - 127 : Int)

/-- The pattern of a value m · 2^q on the format's grid, m at most 2^(fbits+1). -/
def Fmt.encodeMag (f : Fmt) (m : Nat) (q : Int) : Nat :=
  let (m, q) := if m == 2 ^ (f.fbits + 1) then (2 ^ f.fbits, q + 1) else (m, q)
  if m < 2 ^ f.fbits then m
  else (q + f.fbits + f.bias).toNat * 2 ^ f.fbits + (m - 2 ^ f.fbits)

/-- floor(log2 (n / d)) of positive n and d. -/
def floorLog2 (n d : Nat) : Int :=
  let k : Int := (Nat.log2 n : Int) - Nat.log2 d
  let ge := if 0 ≤ k then d * 2 ^ k.toNat ≤ n else d ≤ n * 2 ^ (-k).toNat
  if ge then k else k - 1

/-- n / d · 2^s as a whole number and a remainder over a common divisor. -/
def scaleDiv (n d : Nat) (s : Int) : Nat × Nat × Nat :=
  let (n, d) := if 0 ≤ s then (n * 2 ^ s.toNat, d) else (n, d * 2 ^ (-s).toNat)
  (n / d, n % d, d)

/-- Whether a magnitude of whole part n and remainder r / d is rounded away from zero (R138). -/
def roundsUp (rm : Rm) (neg : Bool) (n r d : Nat) : Bool :=
  match rm with
  | .rne => d < 2 * r || (2 * r == d && n % 2 == 1)
  | .rz => false
  | .rdn => neg && r != 0
  | .rup => !neg && r != 0

/-- n / d · 2^e rounded to a multiple of 2^q: the multiple, and whether it differs. -/
def roundAt (rm : Rm) (neg : Bool) (n d : Nat) (e q : Int) : Nat × Bool :=
  let (w, r, dd) := scaleDiv n d (e - q)
  (if roundsUp rm neg w r dd then w + 1 else w, r != 0)

/-- The largest finite value as m · 2^q (R133). -/
def Fmt.maxParts (f : Fmt) : Nat × Int :=
  let ex := f.maxFin / 2 ^ f.fbits
  (2 ^ f.fbits + f.maxFin % 2 ^ f.fbits, (ex : Int) - f.bias - f.fbits)

/-- m · 2^q above the largest finite value. -/
def Fmt.beyond (f : Fmt) (m : Nat) (q : Int) : Bool :=
  let (mm, mq) := f.maxParts
  if q ≤ mq then mm * 2 ^ (mq - q).toNat < m else mm < m * 2 ^ (q - mq).toNat

/-- A nonzero exact magnitude rounded once on the grid of R138: the multiple, its exponent, whether it is inexact,
and whether the result is tiny (R142). -/
def Fmt.roundMag (f : Fmt) (rm : Rm) (neg : Bool) (n d : Nat) (e : Int) : Nat × Int × Bool × Bool :=
  let ex := floorLog2 n d + e
  let q := (if ex < f.emin then f.emin else ex) - f.fbits
  let (m, nx) := roundAt rm neg n d e q
  let tiny := ex < f.emin &&
    !(ex == f.emin - 1 && (roundAt rm neg n d e (ex - f.fbits)).1 == 2 ^ (f.fbits + 1))
  (m, q, nx, tiny)

/-- An exact result before its one rounding: NaN, an infinity, or (-1)^neg · n / d · 2^e (a signed zero for n = 0). -/
inductive Ex where
  | nan
  | inf (neg : Bool)
  | rat (neg : Bool) (n d : Nat) (e : Int)
  deriving DecidableEq, Repr, Inhabited

/-- An infinite result in the format, which R140 and R141 decide: overflow or an infinite operand. -/
def Fmt.infinite (f : Fmt) (sat neg overflow : Bool) : Nat × Flags :=
  if sat then (f.signBit neg + f.maxFin, .sf)
  else if f.ieee then (f.signBit neg + f.infBits, 0)
  else (f.canonNaN, .when (!overflow) .nv)

/-- The result and flags of R138 and R140 to R142 for an exact value. -/
def Fmt.round (f : Fmt) (rm : Rm) (sat : Bool) (x : Ex) : Nat × Flags :=
  match x with
  | .nan => (f.canonNaN, 0)
  | .inf neg =>
    if neg && !f.signed then (if sat then (0, .sf) else (f.canonNaN, .nv)) else f.infinite sat neg false
  | .rat neg 0 _ _ => (f.signBit neg, 0)
  | .rat neg n d e =>
    if neg && !f.signed then (if sat then (0, .sf) else (f.canonNaN, .nv)) else
    let (m, q, nx, tiny) := f.roundMag rm neg n d e
    if f.beyond m q then
      let toInf := match rm with
        | .rne => true
        | .rz => false
        | .rdn => neg
        | .rup => !neg
      let (r, fl) := if toInf then f.infinite sat neg true else (f.signBit neg + f.maxFin, 0)
      (r, fl ||| .of ||| .nx)
    else (f.signBit neg + f.encodeMag m q, .when nx .nx ||| .when (nx && tiny) .uf)

/-- An exact value as a result. -/
def Fp.ex : Fp → Ex
  | .nan => .nan
  | .inf neg => .inf neg
  | .fin neg m e => .rat neg m 1 e

/-- The sign an exact zero sum of operands of opposite sign takes (R134). -/
def zeroSumNeg (rm : Rm) : Bool := rm == .rdn

/-- The exact sum of two finite dyadic values. -/
def addFin (rm : Rm) (n1 : Bool) (m1 : Nat) (e1 : Int) (n2 : Bool) (m2 : Nat) (e2 : Int) : Ex :=
  let e := if e1 ≤ e2 then e1 else e2
  let a : Int := (m1 * 2 ^ (e1 - e).toNat : Nat)
  let b : Int := (m2 * 2 ^ (e2 - e).toNat : Nat)
  let s := (if n1 then -a else a) + (if n2 then -b else b)
  if s == 0 then .rat (if n1 == n2 then n1 else zeroSumNeg rm) 0 1 0
  else .rat (s < 0) s.natAbs 1 e

/-- a + b (R153). -/
def fpAdd (rm : Rm) : Fp → Fp → Ex × Flags
  | .nan, _ | _, .nan => (.nan, 0)
  | .inf a, .inf b => if a == b then (.inf a, 0) else (.nan, .nv)
  | .inf a, _ => (.inf a, 0)
  | _, .inf b => (.inf b, 0)
  | .fin n1 m1 e1, .fin n2 m2 e2 => (addFin rm n1 m1 e1 n2 m2 e2, 0)

/-- The value with its sign inverted. -/
def Fp.neg : Fp → Fp
  | .nan => .nan
  | .inf n => .inf (!n)
  | .fin n m e => .fin (!n) m e

/-- The sign of a value. -/
def Fp.isNeg : Fp → Bool
  | .nan => false
  | .inf n => n
  | .fin n _ _ => n

/-- A zero of either sign. -/
def Fp.isZero : Fp → Bool
  | .fin _ 0 _ => true
  | _ => false

/-- The exact product a · b as a value (R153). -/
def fpMulV : Fp → Fp → Fp × Flags
  | .nan, _ | _, .nan => (.nan, 0)
  | .inf a, b => if b.isZero then (.nan, .nv) else (.inf (a != b.isNeg), 0)
  | a, .inf b => if a.isZero then (.nan, .nv) else (.inf (a.isNeg != b), 0)
  | .fin n1 m1 e1, .fin n2 m2 e2 => (.fin (n1 != n2) (m1 * m2) (e1 + e2), 0)

/-- a · b (R153). -/
def fpMul (a b : Fp) : Ex × Flags := let (p, f) := fpMulV a b; (p.ex, f)

/-- a · b + c with one rounding; 0 · ∞ is invalid even beside a NaN c (R153). -/
def fpFma (rm : Rm) (negP : Bool) (a b c : Fp) : Ex × Flags :=
  let (p, f) := fpMulV a b
  let (r, g) := fpAdd rm (if negP then p.neg else p) c
  (r, f ||| g)

/-- a / b (R153). -/
def fpDiv : Fp → Fp → Ex × Flags
  | .nan, _ | _, .nan => (.nan, 0)
  | .inf _, .inf _ => (.nan, .nv)
  | .inf a, b => (.inf (a != b.isNeg), 0)
  | .fin n _ _, .inf b => (.rat (n != b) 0 1 0, 0)
  | .fin n1 m1 e1, .fin n2 m2 e2 =>
    if m2 == 0 then (if m1 == 0 then (.nan, .nv) else (.inf (n1 != n2), .dz))
    else (.rat (n1 != n2) m1 m2 (e1 - e2), 0)

/-- 1 / a (R157). -/
def fpRcp : Fp → Ex × Flags
  | .nan => (.nan, 0)
  | .inf n => (.rat n 0 1 0, 0)
  | .fin n m e => if m == 0 then (.inf n, .dz) else (.rat n 1 m (-e), 0)

/-- The integer square root, `k` bits of result. -/
def isqrt (x : Nat) : Nat → Nat
  | 0 => 0
  | k + 1 => let r := 2 * isqrt (x / 4) k
    if (r + 1) * (r + 1) ≤ x then r + 1 else r

/-- 1 / √a (R157), exact to well below a last place with a sticky bit under it. -/
def fpRsq : Fp → Ex × Flags
  | .nan => (.nan, 0)
  | .inf false => (.rat false 0 1 0, 0)
  | .inf true => (.nan, .nv)
  | .fin n m e =>
    if m == 0 then (.inf n, .dz)
    else if n then (.nan, .nv)
    else
      -- a = m' · 2^(2h), 1/√a = √(2^128 / m') · 2^(-64-h)
      let (m', h) := if e % 2 == 0 then (m, e / 2) else (2 * m, (e - 1) / 2)
      let x := 2 ^ 128 / m'
      let r := isqrt x 65
      let exact := r * r == x && x * m' == 2 ^ 128
      (.rat false (2 * r + (if exact then 0 else 1)) 1 (-65 - h), 0)

/-- a < b of non-NaN values, with −0 equal to +0. -/
def fpLt : Fp → Fp → Bool
  | .nan, _ | _, .nan => false
  | .inf a, .inf b => a && !b
  | .inf a, _ => a
  | _, .inf b => !b
  | .fin n1 m1 e1, .fin n2 m2 e2 =>
    let e := if e1 ≤ e2 then e1 else e2
    let a : Int := (m1 * 2 ^ (e1 - e).toNat : Nat)
    let b : Int := (m2 * 2 ^ (e2 - e).toNat : Nat)
    (if n1 then -a else a) < (if n2 then -b else b)

/-- a = b of non-NaN values. -/
def fpEq (a b : Fp) : Bool := a != .nan && b != .nan && !fpLt a b && !fpLt b a

/-- a below b where −0 lies below +0 (R154). -/
def fpBelow (a b : Fp) : Bool := fpLt a b || (fpEq a b && a.isNeg && !b.isNeg)

/-- A value rounded to an integer under RM: the integer, and whether it differs (R139). -/
def roundToInt (rm : Rm) (neg : Bool) (n d : Nat) (e : Int) : Int × Bool :=
  let (w, nx) := roundAt rm neg n d e 0
  (if neg then -(w : Int) else w, nx)

/-- A shift amount that keeps a 2^s scaling far outside every format's range without a large number. -/
def clampExp (n : Int) : Int := if n < -1000 then -1000 else if 1000 < n then 1000 else n

/-- Clamp to a range. -/
def clampInt (lo hi x : Int) : Int := if x < lo then lo else if hi < x then hi else x

/-- R139: a float value to an integer of a range; NaN gives 0, clamping raises NV. -/
def fpToInt (rm : Rm) (lo hi : Int) : Fp → Int × Flags
  | .nan => (0, .nv)
  | .inf n => (if n then lo else hi, .nv)
  | .fin n m e =>
    let (i, nx) := roundToInt rm n m 1 e
    let c := clampInt lo hi i
    (c, .when nx .nx ||| .when (c != i) .nv)

/-- An integer as a value. -/
def intFp (i : Int) : Fp := .fin (i < 0) i.natAbs 0

/-- The bits of an integer in a field of w bits. -/
def intBits (w : Nat) (i : Int) : Nat := (i % (2 ^ w : Nat)).toNat

end Sys2Proof
end

