-- ==== Sys2Proof/Machine/Operands.lean ====
section
/-! DEFINITION. Tokens (R64, R66, R86), the operands an instruction finds in its slots, and the validity of its result
(R67). -/
namespace Sys2Proof

/-- A token: 32 lane values and their validity, or one uniform value whose validity is bit 0 (R64). A value is 64 bits
wide, or 32 with the high half zero (R86). -/
structure Token where
  uni : Bool
  wide : Bool
  mask : Lanes
  vals : List W64
  deriving DecidableEq, Repr, Inhabited

/-- A mask from a test of each lane. -/
def lanesOf (p : Nat → Bool) : Lanes :=
  BitVec.ofNat 32 ((List.range 32).foldl (fun a l => if p l then a + 2 ^ l else a) 0)

/-- The 32 lanes. -/
def allLanes : List Nat := List.range 32

/-- The number of lanes in a mask. -/
def laneCount (m : Lanes) : Nat := (allLanes.filter fun l => m.getLsbD l).length

/-- The lowest lane of a mask, or 32. -/
def lowLane (m : Lanes) : Nat := (allLanes.find? fun l => m.getLsbD l).getD 32

namespace Token

/-- A token that is valid nowhere. -/
def empty : Token := { uni := false, wide := false, mask := 0, vals := List.replicate 32 0 }

/-- A uniform token. -/
def uniform (wide ok : Bool) (v : W64) : Token := { uni := true, wide := wide, mask := if ok then 1 else 0, vals := [v] }

/-- A 32-bit uniform token. -/
def uni32 (v : W32) : Token := uniform false true (v.setWidth 64)

/-- A lane token with the values of `f` where `m` is set. -/
def lanes (wide : Bool) (m : Lanes) (f : Nat → W64) : Token :=
  { uni := false, wide := wide, mask := m, vals := allLanes.map fun l => if m.getLsbD l then f l else 0 }

/-- The value on a lane; a uniform value is spread (R66). -/
def val (t : Token) (l : Nat) : W64 := if t.uni then t.vals.headD 0 else t.vals.getD l 0

/-- The low 32 bits on a lane (R86). -/
def val32 (t : Token) (l : Nat) : W32 := (t.val l).setWidth 32

/-- The value at its own full width: a 32-bit value with zeros above. -/
def full (t : Token) (l : Nat) : W64 := if t.wide then t.val l else (t.val32 l).setWidth 64

/-- Valid on a lane, a uniform token spread over the active mask (R66). -/
def ok (t : Token) (am : Lanes) (l : Nat) : Bool :=
  if t.uni then t.mask.getLsbD 0 && am.getLsbD l else t.mask.getLsbD l

/-- The value as an operand of width 64, widened with or without sign (R86). -/
def to64 (t : Token) (signed : Bool) (l : Nat) : W64 :=
  if t.wide then t.val l else if signed then (t.val32 l).signExtend 64 else (t.val32 l).setWidth 64

/-- The value as an operand of TY's width (R86). -/
def atTy (t : Token) (ty : Ty) (l : Nat) : W64 :=
  if ty.wide then t.to64 ty.signed l else (t.val32 l).setWidth 64

end Token

/-- What an instruction finds in its slots when it issues, with the block's active mask. -/
structure Opnds where
  am : Lanes
  left : Token
  right : Token
  third : Token
  deriving DecidableEq, Repr, Inhabited

/-- The token of a slot. -/
def Opnds.slot (o : Opnds) : Slot → Token
  | .left => o.left
  | .right => o.right
  | .third => o.third

/-- The predicate passes on a lane: valid there and nonzero, or zero (R67). -/
def predLane (i : Instr) (o : Opnds) (l : Nat) : Bool :=
  i.thirdOperand ||
  match i.pr with
  | .always => true
  | .ifNonzero => o.third.ok o.am l && o.third.full l != 0
  | .ifZero => o.third.ok o.am l && o.third.full l == 0

/-- The uniform predicate passes (R67). -/
def predUni (i : Instr) (o : Opnds) : Bool :=
  i.thirdOperand ||
  match i.pr with
  | .always => true
  | .ifNonzero => o.third.mask.getLsbD 0 && o.third.full 0 != 0
  | .ifZero => o.third.mask.getLsbD 0 && o.third.full 0 == 0

/-- The result of a lane instruction is valid on a lane (R67). -/
def laneOk (i : Instr) (o : Opnds) (l : Nat) : Bool :=
  o.am.getLsbD l && (i.dataSlots.all fun s => (o.slot s).ok o.am l) && predLane i o l

/-- The result of a uniform instruction is valid (R67). -/
def uniOk (i : Instr) (o : Opnds) : Bool := (i.dataSlots.all fun s => (o.slot s).mask.getLsbD 0) && predUni i o

/-- The lanes on which a lane instruction's result is valid (R67). -/
def okLanes (i : Instr) (o : Opnds) : Lanes := lanesOf (laneOk i o)

/-- The valid lanes of a lane instruction, or lane 0 alone for a valid uniform one: flags, saturation and faults come from
these (R67). -/
def okList (i : Instr) (o : Opnds) : List Nat :=
  if i.uniform then (if uniOk i o then [0] else []) else allLanes.filter (laneOk i o)

/-- The result token of an instruction with value `f` on each valid lane, or once for the warp under U = 1 (R67). -/
def resultTok (i : Instr) (o : Opnds) (wide : Bool) (f : Nat → W64) : Token :=
  if i.uniform then Token.uniform wide (uniOk i o) (if uniOk i o then f 0 else 0) else Token.lanes wide (okLanes i o) f

/-- IMM24 sign-extended to the operand width (R49). -/
def immTy (ty : Ty) (imm : BitVec 24) : W64 :=
  if ty.wide then imm.signExtend 64 else (imm.signExtend 32).setWidth 64

/-- The right operand of an integer instruction on a lane: its slot or IMM24 (R101). -/
def IntF.b (f : IntF) (o : Opnds) (l : Nat) : W64 :=
  match f.imm with
  | some v => immTy f.ty v
  | none => o.right.atTy f.ty l

end Sys2Proof
end

