-- ==== Sys2Proof/Machine/State.lean ====
section
/-! DEFINITION. The state of the device, as plain data: everything the manual gives the machine (INVENTORY.md, State),
the reasons a step can stop, and the state after reset. -/
namespace Sys2Proof.Machine

/-- Why the machine itself can stop. Every fault of the manual is state of the machine (a stop record, a halt line, an
owner record), so no step of this model ends in one of these. -/
inductive Fault where
  /-- Raised by no instruction and no step: the manual describes no stop of the whole device. Safe: a machine that stopped
  here would stop where the device goes on. -/
  | noInstruction
  deriving DecidableEq, Repr, Inhabited

/-- Why a step has no meaning. -/
inductive Refusal where
  /-- An arm of the dispatch not written yet, by its mnemonic. Safe: it stops where the device goes on. -/
  | notModelled (mnemonic : String)
  deriving DecidableEq, Repr

/-- Bytes by address in canonical form: addresses strictly rising, no byte equal to what an unlisted address reads as. -/
abbrev Mem := List Host.Cell

/-- 32-bit words by index in the same canonical form: an accumulator tile or a count plane (R192, R201). -/
abbrev Plane := List (Nat × W32)

/-! ### Registers and warps -/

/-- Where a bound lane register's row is (R172, R173): in the pool, in the L1 reserve or in the save area, with the
spill format's tag and width bit. -/
inductive Row where
  | pool
  | reserve (tag : Nat) (w : Bool)
  | saved (tag : Nat) (w : Bool)
  deriving DecidableEq, Repr, Inhabited

/-- A bound lane register: its 32 lane words, its row, and when it was last used (R171, R172). -/
structure VReg where
  num : Nat
  lanes : List W32
  row : Row
  used : Nat
  deriving DecidableEq, Repr, Inhabited

/-- An entry of the divergence stack (R79). -/
structure StackEnt where
  join : Bool
  addr : W64
  cp : Bool
  mask : Lanes
  /-- The model's own name of a join entry, by which copies are pending for it (R84). -/
  key : Nat
  deriving DecidableEq, Repr, Inhabited

/-- What an instruction that has fired waits for (R24, R128). -/
inductive Wait where
  | claim (size : Nat)
  | barsyn (bar : Nat)
  | barwt (bar : Nat)
  | tiles
  | region
  | entry (pv : Bool)
  | place (pv : Bool)
  | latch
  | array
  | msgPlace
  | reply
  | take
  | acquire
  deriving DecidableEq, Repr, Inhabited

/-- An instruction's state in its block: not fired, fired and waiting, finished. -/
inductive NodeSt where
  | idle
  | waiting (w : Wait)
  | done
  deriving DecidableEq, Repr, Inhabited

/-- An instruction of the block in flight: its slots, its state, and its place in the order in which waits began. -/
structure Node where
  left : Option Token
  right : Option Token
  third : Option Token
  st : NodeSt
  since : Nat
  deriving DecidableEq, Repr, Inhabited

/-- What a lane received as its successor (R73). -/
inductive SuccKind where
  | block (addr : W64)
  | call (callee back : W64)
  | yield (addr : W64)
  | exit
  | trap (code : W16)
  | bkpt (code : W16)
  | routineEnd
  deriving DecidableEq, Repr, Inhabited

/-- A successor given to a lane by instruction `idx`. -/
structure Succ where
  idx : Nat
  lane : Nat
  kind : SuccKind
  deriving DecidableEq, Repr, Inhabited

/-- Where a store or an access goes: memory at a physical address, cached or not (R255), or the team's scratchpad at an
offset. -/
inductive Space where
  | mem
  | uncached
  | spad
  deriving DecidableEq, Repr, Inhabited

/-- One lane's store, translated and checked at issue (R70, R124), with the address it was translated from (R262) and its cache hint
(R116). -/
structure LaneStore where
  space : Space
  hint : BitVec 2
  va : W64
  addr : Nat
  bytes : List W8
  deriving DecidableEq, Repr, Inhabited

/-- One lane's atomic, translated and checked at issue (R290). -/
structure LaneAtom where
  lane : Nat
  nc : Bool
  va : W64
  addr : Nat
  b : W64
  c : W64
  deriving DecidableEq, Repr, Inhabited

/-- What a store slot holds (R70, R96). -/
inductive SlotSt where
  | unfired
  | nothing
  | stores (sc : Scope) (ord : Ord) (ws : List LaneStore)
  | atoms (f : AtomF) (ws : List LaneAtom)
  deriving DecidableEq, Repr, Inhabited

/-- A write slot (R69): the register, and the token once it has come; `deferred` for an atomic's token (R71). -/
structure WSlot where
  k : Bool
  reg : Nat
  tok : Option Token
  deferred : Bool
  deriving DecidableEq, Repr, Inhabited

/-- Where a drained value goes (R213). -/
structure DrainWrite where
  space : Space
  va : W64
  addr : Nat
  bytes : List W8
  deriving DecidableEq, Repr, Inhabited

/-- An effect an instruction leaves at commit (R72), in the order of the instructions' indices. -/
inductive Eff where
  | modset (m : Nat) (base len : W32)
  | regrel (first n : Nat)
  | claimed (size : Nat)
  | gang (mask : Lanes)
  | agset (ag : Nat) (theta kappa : W16) (nb : Bool)
  | tdset (idx : Nat) (mask : Lanes) (words : List W32)
  | tarm (tid count : Nat)
  | tclr (tid : Nat)
  | ttake (f : TakeF) (save : Option W64)
  | tgive (tid : Nat)
  | surrender (tid : Nat) (kind : Nat)
  | azero (tid : Nat) (spl : Bool)
  | aload (tid row : Nat) (img : Bool) (rows : List (List W32))
  | mma (id : Nat)
  | drain (tid : Nat) (flags : Flags) (ws : List DrainWrite)
  | send (pv : Bool) (words : List W32) (mask : Lanes) (rel : Bool)
  | recv (pv : Bool) (entry : Nat)
  | message (msg : MsgOp) (lp : Bool) (packet : List W32) (payload : List W32)
  | cctl (op : CctlOp) (vas : List W64)
  | fence (sc : Scope) (ord : Ord)
  | fencex (from' to' : BitVec 5)
  | arrive (bar count : Nat)
  deriving DecidableEq, Repr, Inhabited

/-- The block a warp has in flight (R65 to R73): its words, where its body begins, the slots and states of its
instructions, and everything it holds back to its commit. -/
structure Run where
  va : W64
  words : List W64
  bodyAt : Nat
  ni : Nat
  rj : Int
  np : Bool
  tiles : List (Nat × Bool × Bool)
  am : Lanes
  order : Nat
  nodes : List Node
  wslots : List WSlot
  sslots : List SlotSt
  succs : List Succ
  effs : List (Nat × Eff)
  flags : Flags
  counted : Bool
  /-- The join entry whose pending copies this run took over (R85). -/
  took : Option Nat
  deriving DecidableEq, Repr, Inhabited

/-- Step 6 of a commit, while it has still to be made (R60, R75): the rejoin block and its join entry where the commit
diverged, and the uniform registers the commit wrote; `before` holds those that the blocks of a routine wrote that has ended
since, whose reissue comes first and waits for no fetch (R84). -/
structure Step6 where
  join : Option (W64 × Nat)
  wrote : List Nat
  before : List Nat
  deriving DecidableEq, Repr, Inhabited

/-- What a warp is doing: between blocks, running one, parked on a page fault's record (its SEQ, the lane and the address that
faulted), stopped, faulted, retired. -/
inductive WPhase where
  | ready
  | running
  | parked (seq : Nat) (lanes : Lanes) (va : W64)
  | stopped
  | faulted
  | retired
  deriving DecidableEq, Repr, Inhabited

/-- A surrender routine in progress (R325, R326): the unit, its bound and blocks committed, what it interrupted with
its mask, the stack at its entry, and of the interrupted block whether its copies are out, its rejoin fetch
still to be made, and the record it was parked on (R392). -/
structure Routine where
  tid : Nat
  bound : Nat
  done : Nat
  pc : W64
  am : Lanes
  stack : List StackEnt
  popped : Option (Nat × Bool)
  rejoin : Option Step6
  parked : Option (Nat × Lanes × W64)
  /-- The lines of a forced end's record that have been written (R332). -/
  lines : List Nat
  deriving DecidableEq, Repr, Inhabited

/-- A warp (R28): its registers, its place in the program, its block in flight, and what the scheduler keeps of it.
`entering` marks a next block that a surrender routine enters (R35), `popped` a next block that is a popped join, by its
key, and whether its copies are out already (R6, R80); `rejoin` is a step 6 still to be made (R60); `since` counts blocks since a completed barrier phase
(R345), `order` is when it began to wait for an active place (R343); `credit` is the team credit that its last commit left (R180);
`ovf` tells of each line its stack overflows into whether it lies in the L1 reserve (R82, R173). -/
structure Warp where
  id : WarpId
  core : Nat
  v : List VReg
  k : List W32
  m : List (W32 × W32)
  gang : Lanes
  fstat : W32
  limit : Nat
  am : Lanes
  pc : W64
  stack : List StackEnt
  exited : Lanes
  phase : WPhase
  run : Option Run
  routine : Option Routine
  entering : Bool
  popped : Option (Nat × Bool)
  rejoin : Option Step6
  age : Nat
  urgent : Bool
  since : Nat
  order : Nat
  credit : Nat
  ovf : List Bool
  deriving DecidableEq, Repr, Inhabited

/-! ### Teams -/

/-- A tile's state (R182). -/
inductive TileSt where
  | empty
  | filling
  | ready
  | draining
  deriving DecidableEq, Repr, Inhabited

/-- An entry of a team's tile table (R182, R188, R202): `off` and `size` are a scratchpad tile's bytes; for an accumulator `off` is
the core's tile that the name is bound to (R20, R318). -/
structure Tile where
  tid : Nat
  st : TileSt
  cnt : Nat
  off : Nat
  size : Nat
  lost : Bool
  status : Flags
  deriving DecidableEq, Repr, Inhabited

/-- A unit a team has taken (R317, R322): its first tile, its class, its holder or sharers, its routine's address,
bound and save address, its refusals, and the order of taking. -/
structure Taken where
  tid : Nat
  spl : Bool
  cls : TakeCls
  holder : Nat
  sharers : Lanes
  routine : W64
  bound : Nat
  save : Option W64
  refusals : Nat
  order : Nat
  deriving DecidableEq, Repr, Inhabited

/-- A barrier (R233). -/
structure Bar where
  phase : Bool
  arrived : Nat
  count : Option Nat
  pending : Lanes
  deriving DecidableEq, Repr, Inhabited

/-- A claim waiting or met (R175, R179). -/
structure Claim where
  warp : Nat
  idx : Nat
  size : Nat
  met : Bool
  deriving DecidableEq, Repr, Inhabited

/-- An agreement register (R215). -/
structure Agree where
  theta : W16
  kappa : W16
  nb : Bool
  deriving DecidableEq, Repr, Inhabited

/-- The name of a tile taken before and no longer held: its LOST bit (R319, R333), and the core tile it was bound to, while that waits
for references to end, with what a take that waits for it delivers (R322, R323). -/
structure Gone where
  tid : Nat
  core : Option Nat
  lost : Bool
  code : Nat
  deriving DecidableEq, Repr, Inhabited

/-- A team on its core (R14). -/
structure Team where
  id : TeamId
  core : Nat
  spadAt : Nat
  spad : Mem
  tiles : List Tile
  taken : List Taken
  acc : List (Nat × Plane)
  counts : List (Nat × Plane)
  bars : List Bar
  ag : List Agree
  credit : Nat
  claims : List Claim
  /-- When it was placed, and the cycles it had run before that, by a save (R346). -/
  placedAt : Nat
  ran : Nat
  gone : List Gone
  /-- The barriers whose fault of cause 4 is raised, the model's own: a condition raises when it becomes true (R239, log 102). -/
  owed : List Nat
  deriving DecidableEq, Repr, Inhabited

/-! ### References, copies, matrix operations -/

/-- Who holds a reference (R183, R196, R206): a warp's block, a gang's joint MMA, or an engine message. -/
inductive RefOwner where
  | block (w : WarpId)
  | gang (id : Nat)
  | msg (id : Nat)
  deriving DecidableEq, Repr, Inhabited

/-- What is referenced: a tile of a team, or bytes of a core's Overlay. -/
inductive RefTo where
  | tile (t : TeamId) (tid : Nat)
  | region (core lo hi : Nat)
  deriving DecidableEq, Repr, Inhabited

/-- A reference; `consumer` when it was taken while the tile was draining (R184). -/
structure Ref where
  owner : RefOwner
  obj : RefTo
  write : Bool
  consumer : Bool
  deriving DecidableEq, Repr, Inhabited

/-- A copy's phase: issued and waiting to begin, writing, or finished. -/
inductive CopyPh where
  | waiting
  | writing
  | done
  deriving DecidableEq, Repr, Inhabited

/-- A header copy (R6, R7, R40, R84): who issued it, what it copies and where to, its value of SRC, the join entry it
is pending for, the block run that issued it, and the lines performed, by offset, held until the last (R77). Copies
begin in the order of their ids. -/
structure Copy where
  id : Nat
  warp : WarpId
  core : Nat
  ovl : Bool
  dst : Nat
  src : Nat
  va : W64
  len : Nat
  pol : Nat
  lo : Nat
  phase : CopyPh
  pend : Option Nat
  run : Nat
  got : List (Nat × List W8)
  deriving DecidableEq, Repr, Inhabited

/-- A matrix operation from its latch to its commit (R204 to R209). -/
structure Mma where
  id : Nat
  team : TeamId
  core : Nat
  f : MmaF
  gang : Lanes
  /-- The members in ascending warp index: warp, instruction index, first A row, rows. -/
  members : List (Nat × Nat × Nat × Nat)
  kb : Nat
  ka : Nat
  a : List W64
  b : List W64
  meta' : List W64
  cost : Nat
  /-- 0 at the latch, 1 waiting for references, 2 holding them and waiting for the bucket, 3 running, 4 computed. -/
  phase : Nat
  outP : Plane
  outN : Plane
  outCp : Plane
  outCm : Plane
  flags : Flags
  deriving DecidableEq, Repr, Inhabited

/-! ### Takes, recalls, neighbour queues -/

/-- A TTAKE in the take queue of its core (R321, R322): met when `res` is set, with the value it will deliver and the core tiles its
new names are bound to (R318); `waited` when it was not met as it issued. -/
structure Take where
  warp : WarpId
  idx : Nat
  f : TakeF
  core : Nat
  res : Option Nat
  bind : List (Nat × Nat)
  waited : Bool
  deriving DecidableEq, Repr, Inhabited

/-- A recall of a negotiated holding (R324): from the scheduler or a take; `queued` once it has an entry of the core's
recall queue; `again` from a refusal to the commit of the interrupted block (R329). -/
structure Recall where
  team : TeamId
  tid : Nat
  core : Nat
  sched : Bool
  queued : Bool
  again : Bool
  deriving DecidableEq, Repr, Inhabited

/-- An entry of a neighbour queue (R226), with the FRECV that has reserved it (R229). -/
structure NEntry where
  id : Nat
  words : List W32
  mask : Lanes
  by' : Option (WarpId × Nat)
  deriving DecidableEq, Repr, Inhabited

/-- A neighbour entry that has left its sender and not arrived (R228): the team it goes to and the queue it enters. -/
structure Flight where
  id : Nat
  dest : TeamId
  prev : Bool
  entry : NEntry
  deriving DecidableEq, Repr, Inhabited

/-- An atomic's reply on its way (R71): the registers it writes on its lanes, and its flags. -/
structure Reply where
  id : Nat
  warp : WarpId
  regs : List (Bool × Nat)
  mask : Lanes
  vals : List W64
  flags : Flags
  deriving DecidableEq, Repr, Inhabited

/-! ### Caches and translation -/

/-- MOESI, the invalid state being absence (R248, R249). -/
inductive Moes where
  | m
  | o
  | e
  | s
  deriving DecidableEq, Repr, Inhabited

/-- A line of a core's L1, with its dirty bytes (R248), the warp whose access last used it (R345) and the cache hint under which it was
allocated (R116). -/
structure L1Line where
  core : Nat
  line : Nat
  st : Moes
  data : Line
  dirty : LineMask
  user : WarpId
  hint : BitVec 2
  deriving DecidableEq, Repr, Inhabited

/-- A line of a die's L2, with its scoped-dirty mask (R249, R251); `first` marks one that a streaming copy brought (R41). -/
structure L2Line where
  die : Nat
  line : Nat
  st : Moes
  data : Line
  marked : LineMask
  first : Bool
  deriving DecidableEq, Repr, Inhabited

/-- A line of Meridian (R244, R249): the way and the partition it was allocated in (R258), whether HBM's copy is older; its
bytes are those of `State.mem`. -/
structure MerLine where
  line : Nat
  way : Nat
  part : Option Nat
  dirty : Bool
  first : Bool
  deriving DecidableEq, Repr, Inhabited

/-- Poison on a granule of 16 bytes of one copy, with the STRUCT it came from (R360, R362). -/
structure Mark where
  place : Place
  gran : Nat
  code : Nat
  deriving DecidableEq, Repr, Inhabited

/-- The access classes (R279). -/
inductive AccClass where
  | core
  | copy
  | fill
  | sparse
  | coll
  deriving DecidableEq, Repr, Inhabited

/-- A far atomic whose old bytes engines may still read (R243, R282): its reply, warp, address and place, and the classes of
engine work that have read a later value (R268, R270). -/
structure Lag where
  id : Nat
  reply : Nat
  warp : WarpId
  va : W64
  pa : Nat
  old : List W8
  seen : List AccClass
  deriving DecidableEq, Repr, Inhabited

/-- The engine work of a class, one party, has read the value a die's L2 holds of a word, which is still to reach its home (R268,
R270). -/
structure Seen where
  cls : AccClass
  pa : Nat
  die : Nat
  deriving DecidableEq, Repr, Inhabited

/-- A cached leaf translation (R262): context, first page address, size in bits, physical page, permissions. -/
structure TlbEnt where
  ctx : Nat
  va : Nat
  bits : Nat
  pa : Nat
  w : Bool
  x : Bool
  nc : Bool
  deriving DecidableEq, Repr, Inhabited

/-- A native block in a core's code cache (R57): its words, or the lowest word and cause it fails with. -/
structure CodeEnt where
  ctx : Nat
  va : W64
  words : List W64
  bad : Option (Nat × Nat)
  deriving DecidableEq, Repr, Inhabited

/-- A cached Legend entry (R190). -/
structure LegendEnt where
  ctx : Nat
  idx : Nat
  words : List W64
  deriving DecidableEq, Repr, Inhabited

/-- A core (00_scope, R29, R193 to R197, R217, R226). -/
structure Core where
  cycles : W64
  /-- The power bucket's level, in quarter tokens, and its rate in quarters a clock and depth in tokens (R217). -/
  level : Int
  rate : Nat
  depth : Nat
  ovl : Mem
  ovlCtx : Option Nat
  prev : List NEntry
  next : List NEntry
  code : List CodeEnt
  legend : List LegendEnt
  tlb : List TlbEnt
  deriving DecidableEq, Repr, Inhabited

/-- What a line parked in the home fault queue belongs to (R265, R391). -/
inductive LineOf where
  | copy (id : Nat)
  | msg (id : Nat)
  | token (id : Nat)
  | packet (p : PktId)
  | save (w : WarpId)
  deriving DecidableEq, Repr, Inhabited

/-- A parked line (R265), by the record that parked it; `released` once the driver has resumed it (R267). -/
structure PLine where
  seq : Nat
  ctx : Nat
  of' : LineOf
  va : W64
  released : Bool
  deriving DecidableEq, Repr, Inhabited

/-! ### Engine messages -/

/-- A share of a COPYM (R285): destination team, when it began to wait; 0 waiting, 1 writing, 2 failed, 3 complete. -/
structure Share where
  team : Nat
  since : Nat
  st : Nat
  deriving DecidableEq, Repr, Inhabited

/-- An engine message that has left its core (R297 to R307): the Overlay bytes a FILLB writes, and the lines performed,
by offset, with the bytes held for a tile or the Overlay. -/
structure Msg where
  id : Nat
  warp : WarpId
  core : Nat
  op : MsgOp
  lp : Bool
  packet : List W32
  payload : List W32
  /-- Its place among messages of its warp's blocks, and when it left (R307). -/
  order : Nat
  since : Nat
  /-- 0 checked and waiting, 1 performing, 2 performed and its reply due, 3 faulted (R358). -/
  phase : Nat
  lo : Nat
  len : Nat
  got : List (Nat × List W8)
  done : Nat
  status : Nat
  flags : Flags
  shares : List Share
  deriving DecidableEq, Repr, Inhabited

/-- An update of a SCATR (R257), and those merged into it, each with its message and its address; once it is in a unit's window, its
physical address; tokens stand in the order of arrival. -/
structure SparseTok where
  id : Nat
  updates : List (Nat × W64)
  pa : Option Nat
  aop : Aop
  ty : Ty
  val : W64
  ord : Bool
  deriving DecidableEq, Repr, Inhabited

/-- The messages a token counts for, once for each update merged into it. -/
def SparseTok.msgs (t : SparseTok) : List Nat := t.updates.map (·.1)

/-- The address of a token's first update. -/
def SparseTok.va (t : SparseTok) : W64 := (t.updates.head?.map (·.2)).getD 0

/-- A member's part in a collective (R307): its rank, operation word, count and send data, and this device's message. -/
structure Member where
  rank : Nat
  op : W32
  count : Nat
  data : List W32
  msg : Option Nat
  deriving DecidableEq, Repr, Inhabited

/-- The k-th collective of a group, while it waits for members (R307). -/
structure Collect where
  ctx : Nat
  grp : Nat
  k : Nat
  since : Nat
  /-- A member joined after the timeout (R307). -/
  late : Bool
  members : List Member
  deriving DecidableEq, Repr, Inhabited

/-! ### Contexts, queues, launches -/

/-- A ring the driver set up (R373): base and log2 of its record count. -/
structure Ring where
  base : Nat
  log : Nat
  deriving DecidableEq, Repr, Inhabited

/-- How far a packet in the window has come: `ready` is a LAUNCH that has become ready while the dispatcher was held (R377). -/
inductive PktPh where
  | waiting
  | ready
  | started
  | done
  deriving DecidableEq, Repr, Inhabited

/-- A packet in its queue's window (R337, R339). -/
structure Pkt where
  pos : Nat
  q : List W64
  body : List W64
  ph : PktPh
  /-- The lines of a COPY that have performed, by offset; for a WAITMEM the event of its queue, by its number, in which it read last
  (R340). -/
  got : List Nat
  /-- When its WAIT tokens were last found all set, and the evaluation of its queue in which they were (R339, R342). -/
  since : Nat
  eval : Nat
  deriving DecidableEq, Repr, Inhabited

/-- A command queue (R337 to R339, R370, R371); `evals` counts the events of it that firmware has taken, and `eval` is the last
evaluation of its window: an event taken, or a change of its tokens (R338, R339, R341). -/
structure Queue where
  num : Nat
  base : Nat
  size : Nat
  status : Nat
  wr : Nat
  rd : Nat
  pops : Nat
  frozen : Bool
  tokens : W64
  window : List Pkt
  evals : Nat
  eval : Nat
  deriving DecidableEq, Repr, Inhabited

/-- A configured context (R15, R373), with its counters: fault SEQ, stop SEQ, launches accepted, collectives issued; `told` holds
the places whose poison has been raised against it in the halt under way (log 109). -/
structure Ctx where
  num : Nat
  part : Nat
  legend : Nat
  root : Nat
  save : Nat
  saveSize : Nat
  saveUsed : Nat
  fring : Ring
  sring : Ring
  oring : Ring
  surr : Ring
  groups : Nat
  rlim : Nat
  dthr : Nat
  ydl : Nat
  fseq : Nat
  sseq : Nat
  launches : Nat
  era : Nat
  told : List Nat
  colls : List (Nat × Nat)
  queues : List Queue
  deriving DecidableEq, Repr, Inhabited

/-- A saved team (R351): the team and its warps as the record restores them, its neighbour entries, where its record
is, its length, and where in it the warp records begin. -/
structure SavedTeam where
  team : Team
  warps : List Warp
  prev : List NEntry
  next : List NEntry
  at' : Nat
  len : Nat
  warpsAt : Nat
  deriving DecidableEq, Repr, Inhabited

/-- What is being done to a launch (R346 to R350). -/
inductive LPhase where
  | running
  | draining
  | yielding (deadline : Nat)
  | stopping
  | saved
  | killing
  deriving DecidableEq, Repr, Inhabited

/-- A launch from its packet's start to its completion (R17, R27, R337, R346); `since` is when its packet
became ready, and `eval` the evaluation of its queue in which it did (R342). -/
structure Launch where
  id : LaunchId
  queue : Nat
  pos : Nat
  since : Nat
  eval : Nat
  desc : List W64
  placed : Nat
  retired : Nat
  phase : LPhase
  /-- The launches whose pre-emption this one waits for (R346). -/
  waits : List LaunchId
  /-- What its most recently placed resident team had run at a save (R351). -/
  elapsed : Nat
  /-- The cores its teams have been placed on, whose L1s it used (R27, R349). -/
  used : List Nat
  saved : List SavedTeam
  /-- Where its save record is, and its layout version (R351). -/
  saveAt : Nat
  ver : Nat
  yielded : List WarpId
  ends : List (TeamId × Nat × Nat)
  started : List W64
  deriving DecidableEq, Repr, Inhabited

/-! ### Faults, partitions, firmware, host -/

/-- A context-fatal fault that a unit has raised (R354, R355). -/
structure Stop where
  cls : Nat
  cause : Nat
  ctx : Nat
  core : Option Nat
  ekind : Nat
  einst : Nat
  launch : Nat
  team : Nat
  warp : Nat
  lanes : Lanes
  va : W64
  payload : List W64
  /-- The packet that supplied the faulting work (R359). -/
  pkt : Option PktId
  deriving DecidableEq, Repr, Inhabited

/-- A partition (R16, R258) and its halt (R356 to R358). -/
structure Part where
  dies : List Nat
  ways : W16
  up : Bool
  /-- The contexts that raised a fault in this halt, the SEQ of their record, and the packet that supplied the work. -/
  guilty : List (Nat × Nat × Option PktId)
  /-- How many of them a flush has dealt with (R358, R359). -/
  dealt : Nat
  org : Nat
  stopped : List Master
  flushed : Bool
  deriving DecidableEq, Repr, Inhabited

/-- An event of the firmware's queue (R341), with what tells the command queue it belongs to. -/
inductive Evt where
  | doorbell (ctx queue : Nat)
  | packet (p : PktId)
  | tokens (ctx queue : Nat)
  | retired (t : TeamId)
  | command
  | fault (ctx : Nat) (p : Option PktId)
  | reread (p : PktId)
  deriving DecidableEq, Repr, Inhabited

/-- The firmware (R341, R376 to R378): its image, its event queue, the events whose sources a full queue holds back, and the event
each core handles. -/
structure Fw where
  bringUp : Bool
  trained : Bool
  equalised : Bool
  iver : W32
  readable : W16
  writes : W16
  events : List Evt
  back : List Evt
  held : List (Option Evt)
  deriving DecidableEq, Repr, Inhabited

/-- What a posted access of the host does (R368 to R370): a write to BAR 2, poisoned where its TLP was (R360), a write of a mailbox
register, a doorbell, an AtomicOp. -/
inductive HostOp where
  | write (off : Nat) (bytes : List W8) (ep : Bool)
  | mail (off : Nat) (val : W64)
  | bell (ctx queue : Nat) (off : W64)
  | atomic (op : HostAop) (wide : Bool) (off : Nat) (a b : W64)
  deriving DecidableEq, Repr, Inhabited

/-- A posted access of the host: its routes not yet acknowledged, and whether it has been let in (R369). -/
structure Posted where
  id : Nat
  op : HostOp
  ro : Bool
  entered : Bool
  routes : List Nat
  deriving DecidableEq, Repr, Inhabited

/-- What the host port delivered: a completion with data, or with an error (R365, R369). -/
inductive Completion where
  | data (bytes : List W8) (poisoned : Bool)
  | error
  deriving DecidableEq, Repr, Inhabited

/-- The host port (R365, R368 to R372); `cmd` is the command in progress, as the mailbox held it when it was rung. -/
structure HostPort where
  frozen : Bool
  posted : List Posted
  mail : List W64
  cmd : List W64
  ring : W64
  status : W8
  completions : List Completion
  deriving DecidableEq, Repr, Inhabited

/-- Sensors and the counters of R366, by their offset in BAR 0 (R368, R379). -/
structure Regs where
  counters : List (Nat × Nat)
  power : W16
  temps : List W16
  throttle : W64
  deriving DecidableEq, Repr, Inhabited

/-! ### The machine -/

/-- The whole device. The first five fields and the last three are the model's own (log 1), and so are `past`
(log 106), `lags` and `seen` (log 5). -/
structure State where
  /-- Steps placed from outside, taken before the free schedule. -/
  agenda : List Instr
  /-- The instructions the last clock issued, in order: warp and index in its block (R344). -/
  issue : List (WarpId × Nat)
  /-- The instruction issuing now. -/
  cur : Option (WarpId × Nat)
  tick : Nat
  fresh : Nat
  cores : List Core
  l1 : List L1Line
  l2 : List L2Line
  mer : List MerLine
  mem : Mem
  /-- The shared TLBs: die and entry (R262). -/
  tlb2 : List (Nat × TlbEnt)
  /-- Entries that a full TLB gave up, by which an access may still be held translated (R262). -/
  past : List TlbEnt
  /-- Soft errors not yet found, with whether they are uncorrectable (R360). -/
  errs : List (Granule × Bool)
  /-- Regions of code and Legends whose error was found, frozen until they are reloaded (R364). -/
  reloads : List Granule
  /-- Poisoned granules of memory's copies (R362). -/
  poison : List Mark
  /-- Poisoned lines Meridian evicted with no owner known, by partition, address and STRUCT: their faults are still to be raised
  (R363). -/
  lost : List (Nat × Nat × Nat)
  lags : List Lag
  seen : List Seen
  teams : List Team
  warps : List Warp
  refs : List Ref
  copies : List Copy
  mmas : List Mma
  takes : List Take
  recalls : List Recall
  flights : List Flight
  replies : List Reply
  faultQ : List PLine
  msgs : List Msg
  toks : List SparseTok
  colls : List Collect
  ctxs : List Ctx
  launches : List Launch
  parts : List Part
  raised : List Stop
  /-- The masters frozen under R365, but the PCIe function. -/
  frozen : List Master
  fw : Fw
  host : HostPort
  regs : Regs
  nextId : Nat
  order : Nat
  now : Nat
  deriving DecidableEq, Repr

/-! ### Reset -/

/-- A core at reset: the bucket at the settings of R217 and full (log 3), the Overlay zero and filled for no context (R197). -/
def Core.reset : Core :=
  { cycles := 0, level := 4 * 4096, rate := 16, depth := 4096, ovl := [], ovlCtx := none, prev := [], next := []
    code := [], legend := [], tlb := [] }

/-- A partition with the way mask of R258 and its halt line down. -/
def Part.reset (dies : List Nat) : Part :=
  { dies := dies, ways := 0xFFFF, up := false, guilty := [], dealt := 0, org := 0, stopped := [], flushed := false }

/-- The machine right after reset: the bring-up division of R16, no context, queue, team or launch, mailbox idle (R368),
empty memory (log 2), and the values of log 3 where the manual gives none. -/
def State.reset : State :=
  { agenda := [], issue := [], cur := none, tick := 0, fresh := 0
    cores := List.replicate 256 Core.reset
    l1 := [], l2 := [], mer := [], mem := [], tlb2 := [], past := [], errs := [], reloads := [], poison := [], lost := [], lags := [], seen := []
    teams := [], warps := [], refs := [], copies := [], mmas := [], takes := [], recalls := [], flights := []
    replies := [], faultQ := [], msgs := [], toks := [], colls := [], ctxs := [], launches := []
    parts := Part.reset [0] :: List.replicate 3 (Part.reset [])
    raised := [], frozen := []
    fw := { bringUp := true, trained := false, equalised := false, iver := 0, readable := 2, writes := 1, events := [], back := []
            held := List.replicate 12 none }
    host := { frozen := false, posted := [], mail := [0, 0, 0, 0], cmd := [0, 0, 0, 0], ring := 0, status := 0, completions := [] }
    regs := { counters := [], power := 0, temps := List.replicate 10 0, throttle := 0 }
    nextId := 0, order := 0, now := 0 }

end Sys2Proof.Machine
end

