-- ==== Sys2Proof/Machine/Fetch.lean ====
section
/-! DEFINITION. Where a step finds its instruction: the words of the block a warp has in flight (R65, R68). -/
namespace Sys2Proof.Machine

/-- The warp of an id. -/
def State.warp? (s : State) (w : WarpId) : Option Warp := s.warps.find? fun x => x.id == w

/-- The word of instruction `k` of the block a warp has in flight. -/
def Run.word (r : Run) (k : Nat) : W64 := r.words.getD (r.bodyAt + k) 0

/-- The instruction of body word `k`, where it decodes. -/
def Run.instr (r : Run) (k : Nat) : Option Instr := (decode (r.word k)).toOption

/-! ### What an acquire holds back (R120, R231, R274) -/

/-- The instructions a set of them feeds. -/
def feeds (es : List (Nat × Nat)) (from' : List Nat) : List Nat := ((es.filter fun e => from'.contains e.1).map (·.2)).eraseDups

/-- The instructions reached in at most `n` steps more. -/
def reached (es : List (Nat × Nat)) : Nat → List Nat → List Nat
  | 0, r => r
  | n + 1, r => reached es n (r ++ feeds es r).eraseDups

/-- Where an instruction's targets lead. -/
def instrFeeds (i : Instr) : List Nat := i.targets.filterMap fun t => match t with
  | .to _ n => some n.toNat
  | .none | .wr _ => none

/-- The tokens that go from instruction to instruction of a block. -/
def Run.links (r : Run) : List (Nat × Nat) :=
  (List.range (r.ni + 1)).flatMap fun k => ((r.instr k).map fun i => (instrFeeds i).map fun n => (k, n)).getD []

/-- The node of an instruction. -/
def Run.node (r : Run) (k : Nat) : Node := r.nodes.getD k { left := none, right := none, third := none, st := .done, since := 0 }

/-- The acquires of a block that have not performed. -/
def Run.acquires (r : Run) : List Nat :=
  (List.range (r.ni + 1)).filter fun k => (r.node k).st != .done && ((r.instr k).map fun i => i.isAcquire).getD false

/-- A memory instruction that has not issued is held back: by an acquire of its block that has issued and not performed, and by one
still to issue unless it is an acquire itself or an acquire needs what it loads (R120, R231, R274; log 86). -/
def Run.held (r : Run) (k : Nat) : Bool :=
  (r.node k).st == .idle &&
  match r.instr k with
  | none => false
  | some i =>
    i.isMemory &&
    match r.acquires.filter fun a => a != k with
    | [] => false
    | as =>
      (as.any fun a => (r.node a).st != .idle) ||
      (!i.isAcquire && !(reached r.links r.ni (feeds r.links [k])).any fun a => as.contains a)

/-- The instruction an issue slot names, if its block is still in flight. -/
def State.fetch (s : State) (w : WarpId) (k : Nat) : Option Instr :=
  match s.warp? w with
  | some x =>
    match x.run with
    | some r => if k ≤ r.ni then r.instr k else none
    | none => none
  | none => none

/-- A node with a valid zero in every slot the instruction uses, ready to fire. -/
def Node.zeros (i : Instr) : Node :=
  let z (sl : Slot) : Option Token := if i.slots.contains sl then some (Token.uniform true true 0) else none
  { left := z .left, right := z .right, third := z .third, st := .idle, since := 0 }

/-- A block in flight that holds one body word, every slot of its instruction filled with zero. -/
def Run.ofWord (w : W64) : Run :=
  { va := 0, words := [w], bodyAt := 0, ni := 0, rj := 0, np := false, tiles := [], am := BitVec.allOnes 32, order := 0
    nodes := [match decode w with
      | .ok i => Node.zeros i
      | .error _ => { left := none, right := none, third := none, st := .idle, since := 0 }]
    wslots := [], sslots := [], succs := [], effs := [], flags := 0, counted := false, took := none }

/-- The warp such a block runs in: a warp as R19 begins one, on core 0. -/
def Warp.begin (id : WarpId) (core limit : Nat) (k : List W32) (entry : W64) : Warp :=
  { id := id, core := core, v := [], k := k, m := List.replicate 8 (0, 0), gang := 0, fstat := 0, limit := limit
    am := BitVec.allOnes 32, pc := entry, stack := [], exited := 0, phase := .ready, run := none, routine := none
    entering := false, popped := none, rejoin := none, age := 0, urgent := false, since := 0, order := 0, credit := 0, ovf := [] }

/-- The warp that `withFetchWord` runs. -/
def fetchWarp : WarpId := { team := { launch := { ctx := 0, num := 0 }, team := 0 }, warp := 0 }

/-- The state with one word issuing next: its block in flight in a warp of its own, its issue slot first. -/
def State.placeWord (s : State) (w : W64) : State :=
  let x : Warp := { Warp.begin fetchWarp 0 1 (List.replicate 64 0) 0 with phase := .running, run := some (Run.ofWord w) }
  { s with warps := x :: s.warps, issue := (fetchWarp, 0) :: s.issue }

end Sys2Proof.Machine
end

