-- ==== Sys2Proof/Machine/Mem.lean ====
section
/-! DEFINITION. Sparse contents in canonical form: bytes of memory, scratchpad and Overlay, words of accumulator tiles and
count planes; an unlisted place reads as zero (R19, R193, R197; log 2 for memory). -/
namespace Sys2Proof.Machine

/-- The value at a place. -/
def cget {n : Nat} : List (Nat × BitVec n) → Nat → BitVec n
  | [], _ => 0
  | (a, v) :: r, k => if k = a then v else if k < a then 0 else cget r k

/-- The contents with one place written; zero removes the entry. -/
def cset {n : Nat} : List (Nat × BitVec n) → Nat → BitVec n → List (Nat × BitVec n)
  | [], k, v => if v = 0 then [] else [(k, v)]
  | (a, w) :: r, k, v =>
    if k < a then (if v = 0 then (a, w) :: r else (k, v) :: (a, w) :: r)
    else if k = a then (if v = 0 then r else (a, v) :: r)
    else (a, w) :: cset r k v

/-- Places strictly rising from `lo` on, and no zero listed. -/
def cwfFrom {n : Nat} : Nat → List (Nat × BitVec n) → Bool
  | _, [] => true
  | lo, (a, v) :: r => decide (lo ≤ a) && v != 0 && cwfFrom (a + 1) r

/-- The canonical form. -/
def cwf {n : Nat} (l : List (Nat × BitVec n)) : Bool := cwfFrom 0 l

/-- The canonical form of memory. -/
def Mem.wf (m : Mem) : Bool := cwf m

/-- `n` bytes from an address. -/
def rdBytes (m : Mem) (a n : Nat) : List W8 := (List.range n).map fun j => cget m (a + j)

/-- Bytes written from an address on. -/
def wrBytes (m : Mem) (a : Nat) : List W8 → Mem
  | [] => m
  | b :: bs => wrBytes (cset m a b) (a + 1) bs

/-- Bytes as a little-endian number (R4). -/
def leNat : List W8 → Nat
  | [] => 0
  | b :: bs => b.toNat + 256 * leNat bs

/-- A number as `n` little-endian bytes (R4). -/
def leBytes : Nat → Nat → List W8
  | 0, _ => []
  | n + 1, v => BitVec.ofNat 8 v :: leBytes n (v / 256)

/-- A 64-bit little-endian word. -/
def rdW64 (m : Mem) (a : Nat) : W64 := BitVec.ofNat 64 (leNat (rdBytes m a 8))

end Sys2Proof.Machine

namespace Sys2Proof

/-! ### Lines (R245) -/

/-- Byte `j` of a line. -/
def Line.byte (l : Line) (j : Nat) : W8 := l.extractLsb' (8 * j) 8

/-- A line from a function of its bytes. -/
def Line.ofFn (f : Nat → W8) : Line :=
  BitVec.ofNat 1024 ((List.range 128).foldr (fun j a => a * 256 + (f j).toNat) 0)

/-- A mask from a function of the byte's place. -/
def LineMask.ofFn (f : Nat → Bool) : LineMask :=
  BitVec.ofNat 128 ((List.range 128).foldr (fun j a => 2 * a + (if f j then 1 else 0)) 0)

/-- The bytes of `src` where the mask is set, of `dst` elsewhere. -/
def Line.merge (dst src : Line) (m : LineMask) : Line := Line.ofFn fun j => if m.getLsbD j then src.byte j else dst.byte j

/-- A line with bytes written from an offset on. -/
def Line.write (l : Line) (off : Nat) (bs : List W8) : Line :=
  Line.ofFn fun j => if off ≤ j && j < off + bs.length then bs.getD (j - off) 0 else l.byte j

/-- The mask of `n` bytes from an offset. -/
def spanMask (off n : Nat) : LineMask := LineMask.ofFn fun j => off ≤ j && j < off + n

/-- `n` bytes of a line from an offset. -/
def Line.bytes (l : Line) (off n : Nat) : List W8 := (List.range n).map fun j => l.byte (off + j)

end Sys2Proof
end

