-- ==== Sys2Proof/Machine/Errors.lean ====
section
/-! DEFINITION. Error protection on a read (R360 to R362): a correctable error is corrected and counted (R366), an
uncorrectable one is reported to the reader. -/
namespace Sys2Proof

/-- The die a copy's errors are counted on (R368): an L1's or L2's, 4 for Meridian, for HBM the die its stack stands beside
(R247). -/
def Place.die (pa : Nat) : Place → Nat
  | .l1 c => c / 64
  | .l2 d => d
  | .mer => 4
  | .hbm => pa / 2048 % 4

/-- The STRUCT of a copy (R360). -/
def Place.code : Place → Nat
  | .hbm => 6
  | _ => 5

/-- The size of a copy's granule (R360). -/
def Place.granule : Place → Nat
  | .hbm => 32
  | _ => 16

end Sys2Proof

namespace Sys2Proof.Machine

/-- The die of a core (R20). -/
def dieOf (core : Nat) : Nat := core / 64

/-- A counter of R366 raised by one, held at its maximum. -/
def State.bump (s : State) (off bits : Nat) : State :=
  let cs := s.regs.counters
  let v := ((cs.find? fun p => p.1 == off).map (·.2)).getD 0
  { s with regs := { s.regs with
      counters := (off, min (v + 1) (2 ^ bits - 1)) :: cs.filter fun p => p.1 != off } }

/-- The core a warp is on. -/
def State.coreOf (s : State) (w : WarpId) : Nat := ((s.warps.find? fun x => x.id == w).map (·.core)).getD 0

/-- The core a team is on. -/
def State.teamCore (s : State) (t : TeamId) : Nat := ((s.teams.find? fun x => x.id == t).map (·.core)).getD 0

/-- The STRUCT of a granule (R360). -/
def structCode : Granule → Nat
  | .pool .. => 1
  | .spad .. => 2
  | .acc .. | .counts .. => 3
  | .ovl .. => 4
  | .mem p _ => p.code
  | .code .. | .legend .. => 7

/-- The die a granule's errors are counted on (R368). -/
def State.dieOfGranule (s : State) : Granule → Nat
  | .pool w _ _ => dieOf (s.coreOf w)
  | .spad t _ | .acc t _ _ | .counts t _ _ => dieOf (s.teamCore t)
  | .ovl c _ | .code c _ _ | .legend c _ => dieOf c
  | .mem p pa => p.die pa

/-- The granules a reader reads: the correctable errors among them are corrected and counted. -/
def State.correct (s : State) (gs : List Granule) : State :=
  if s.errs.isEmpty then s else
  gs.foldl (fun s g =>
    if s.errs.contains (g, false) then
      ({ s with errs := s.errs.filter fun e => e != (g, false) }).bump
        (0x10000 + 0x20 * s.dieOfGranule g + 4 * (structCode g - 1)) 32
    else s) s

/-- A region of a core's cached code or Legend is read: an uncorrectable error in it is found, and freezes it for its reload (R364). -/
def State.findRegion (s : State) (g : Granule) : State :=
  if s.reloads.contains g then s
  else if s.errs.contains (g, true) then { s with errs := s.errs.filter fun e => e.1 != g, reloads := g :: s.reloads }
  else s.correct [g]

/-- Granules with an uncorrectable error among those read. -/
def State.badOf (s : State) (gs : List Granule) : List Granule := gs.filter fun g => s.errs.contains (g, true)

/-- A write replaces whole granules, whose errors are gone (R362). -/
def State.clearErrs (s : State) (gs : List Granule) : State :=
  if s.errs.isEmpty then s else { s with errs := s.errs.filter fun e => !gs.contains e.1 }

/-- The granules of a copy that `n` bytes touch. -/
def memGranules (p : Place) (pa n : Nat) : List Granule :=
  let z := p.granule
  (List.range (n / z + 2)).filterMap fun j =>
    let g := pa / z * z + z * j
    if g < pa + n then some (.mem p g) else none

/-- The correctable errors in `n` bytes of a copy that a reader reads are corrected. -/
def State.fix (s : State) (p : Place) (pa n : Nat) : State := if s.errs.isEmpty then s else s.correct (memGranules p pa n)

/-- The scratchpad words that `n` bytes touch. -/
def spadGranules (t : TeamId) (off n : Nat) : List Granule :=
  (List.range (n / 4 + 2)).filterMap fun j =>
    let g := off / 4 * 4 + 4 * j
    if g < off + n then some (Granule.spad t g) else none

/-- The scratchpad words that `n` bytes replace whole. -/
def spadWhole (t : TeamId) (off n : Nat) : List Granule :=
  (spadGranules t off n).filter fun g => match g with
    | .spad _ o => off ≤ o && o + 4 ≤ off + n
    | _ => false

/-! ### Poison (R362) -/

/-- The marks on `n` bytes of a copy. -/
def State.marksAt (s : State) (p : Place) (pa n : Nat) : List Mark :=
  if s.poison.isEmpty then [] else
  s.poison.filter fun k => k.place == p && 16 * k.gran < pa + n && pa < 16 * k.gran + 16

/-- A granule of a copy is marked, and counted on its die unless it bore the mark (R362, R366). -/
def State.mark (s : State) (p : Place) (pa code : Nat) : State :=
  if s.poison.any fun k => k.place == p && k.gran == pa / 16 then s
  else { s.bump (0x10200 + 4 * p.die pa) 32 with poison := { place := p, gran := pa / 16, code := code } :: s.poison }

/-- A granule of HBM is marked: its 32 bytes, counted once (R360, R366). -/
def State.markHbm (s : State) (pa : Nat) : State :=
  let g := pa / 32 * 2
  let half (s : State) (k : Nat) : State :=
    if s.poison.any fun m => m.place == .hbm && m.gran == k then s
    else { s with poison := { place := .hbm, gran := k, code := 6 } :: s.poison }
  let s := if s.poison.any fun m => m.place == .hbm && (m.gran == g || m.gran == g + 1) then s
    else s.bump (0x10200 + 4 * Place.die pa .hbm) 32
  half (half s g) (g + 1)

/-- A write of `n` bytes into a copy clears the marks and errors of the granules it replaces whole. -/
def State.replaced (s : State) (p : Place) (pa n : Nat) : State :=
  if s.poison.isEmpty && s.errs.isEmpty then s else
  { s with
    poison := s.poison.filter fun k => !(k.place == p && pa ≤ 16 * k.gran && 16 * k.gran + 16 ≤ pa + n)
    errs := s.errs.filter fun e => match e.1 with
      | .mem q g => !(q == p && pa ≤ g && g + p.granule ≤ pa + n)
      | _ => true }

/-- A mask covers a granule of `z` bytes at an address. -/
def covers (m : LineMask) (pa z : Nat) : Bool := (List.range z).all fun j => m.getLsbD (pa % 128 + j)

/-- Bytes of a line go from one copy to another: the source's marks go with them, and a granule replaced whole loses what it
bore (R362). -/
def State.carry (s : State) (src dst : Place) (ln : Nat) (m : LineMask) : State :=
  if s.poison.isEmpty && s.errs.isEmpty then s else
  let mine (k : Mark) (p : Place) : Bool := k.place == p && k.gran / 8 == ln
  let keep := s.poison.filter fun k => !(mine k dst && covers m (16 * k.gran) 16)
  let new : List Mark := (s.poison.filter fun k => mine k src && (List.range 16).any fun j => m.getLsbD (16 * k.gran % 128 + j)).map
    fun k => { k with place := dst }
  { s with
    poison := keep ++ new.filter fun k => !(keep.any fun j => j.place == k.place && j.gran == k.gran)
    errs := s.errs.filter fun e => match e.1 with
      | .mem q g => !(q == dst && g / 128 == ln && covers m g dst.granule)
      | _ => true }

/-- A copy of a line is no more: its marks and errors go with it. -/
def State.forget (s : State) (p : Place) (ln : Nat) : State := s.replaced p (128 * ln) 128

end Sys2Proof.Machine
end

