-- ==== Sys2Proof/Machine/Cache.lean ====
section
/-! DEFINITION. Coherence (R244 to R256): the L1s, the L2s and Meridian with what they hold, pushes, grants and recalls, and the
access of every party to one line of memory. A line is named by its number, PA / 128. -/
namespace Sys2Proof

/-- A scope of device or wider. -/
def Scope.devUp : Scope → Bool
  | .device | .system => true
  | _ => false

/-- A scope of die or wider. -/
def Scope.dieUp : Scope → Bool
  | .warp | .team => false
  | _ => true

/-- The access class of a unit's work: all of it is one party (R268, R279). -/
def Master.cls : Master → Machine.AccClass
  | .core _ => .core
  | .copy _ => .copy
  | .fill _ => .fill
  | .sparse _ => .sparse
  | .coll => .coll

end Sys2Proof

namespace Sys2Proof.Machine

/-- The compute dies. -/
def dies : List Nat := [0, 1, 2, 3]

/-- A physical address in the package's HBM (R246). -/
def isHbm (pa : Nat) : Bool := pa < 0x8000000000
/-- A peer window. -/
def isPeer (pa : Nat) : Bool := 0x4000000000000 ≤ pa && pa < 0x8000000000000
/-- Host space. -/
def isHost (pa : Nat) : Bool := 0x8000000000000 ≤ pa && pa < 0x10000000000000

/-- The Meridian slice that is home to an address (R247). -/
def sliceOf (pa : Nat) : Nat := (pa / 128 % 128) ^^^ (pa / 16384 % 128)

/-- Every byte of a line. -/
def wholeLine : LineMask := BitVec.allOnes 128

/-! ### Copies of a line -/

/-- The home's copy of a line, in Meridian or HBM. -/
def State.homeLine (s : State) (ln : Nat) : Line := Line.ofFn fun j => cget s.mem (128 * ln + j)

/-- Meridian holds a line. -/
def State.inMer (s : State) (ln : Nat) : Bool := s.mer.any fun e => e.line == ln

/-- The home's copy: Meridian's where it holds the line, else HBM's. -/
def State.homeAt (s : State) (ln : Nat) : Place := if s.inMer ln then .mer else .hbm

/-- Meridian's copy of a line is newer than HBM's. -/
def State.dirtyHome (s : State) (ln : Nat) : State :=
  { s with mer := s.mer.map fun e => if e.line == ln then { e with dirty := true } else e }

/-- The old values of far atomics on `n` bytes can be read no more: a later write has been placed there, or its value was read
from the home (R270). -/
def State.dropLags (s : State) (pa n : Nat) : State :=
  if s.lags.isEmpty then s else { s with lags := s.lags.filter fun g => !(g.pa < pa + n && pa < g.pa + g.old.length) }

/-- What a die held of a line has reached its home, or is gone (R270). -/
def State.unsee (s : State) (die ln : Nat) : State :=
  if s.seen.isEmpty then s else { s with seen := s.seen.filter fun e => !(e.die == die && e.pa / 128 == ln) }

/-- What a die held of a line is in the owner's copy from now on, where its readers find it (R252, R270). -/
def State.seeAt (s : State) (die owner ln : Nat) : State :=
  if s.seen.isEmpty then s
  else { s with seen := s.seen.map fun e => if e.die == die && e.pa / 128 == ln then { e with die := owner } else e }

/-- Bytes written at a line's home. -/
def State.homeWrite (s : State) (ln : Nat) (d : Line) (m : LineMask) : State :=
  { s.dirtyHome ln with
    mem := (List.range 128).foldl (fun a j => if m.getLsbD j then cset a (128 * ln + j) (d.byte j) else a) s.mem
    lags := s.lags.filter fun g => !((List.range g.old.length).any fun j => (g.pa + j) / 128 == ln && m.getLsbD ((g.pa + j) % 128)) }

/-- A core's L1 copy of a line. -/
def State.l1? (s : State) (core ln : Nat) : Option L1Line := s.l1.find? fun x => x.core == core && x.line == ln
/-- A die's L2 copy of a line. -/
def State.l2? (s : State) (die ln : Nat) : Option L2Line := s.l2.find? fun x => x.die == die && x.line == ln

/-- The L1 copy replaced or added. -/
def State.putL1 (s : State) (x : L1Line) : State :=
  { s with l1 := x :: s.l1.filter fun y => !(y.core == x.core && y.line == x.line) }
/-- The L2 copy replaced or added. -/
def State.putL2 (s : State) (x : L2Line) : State :=
  { s with l2 := x :: s.l2.filter fun y => !(y.die == x.die && y.line == x.line) }
/-- The L1 copy dropped. -/
def State.dropL1 (s : State) (core ln : Nat) : State :=
  { s.forget (.l1 core) ln with l1 := s.l1.filter fun y => !(y.core == core && y.line == ln) }
/-- The L2 copy dropped. -/
def State.dropL2 (s : State) (die ln : Nat) : State :=
  { (s.forget (.l2 die) ln).unsee die ln with l2 := s.l2.filter fun y => !(y.die == die && y.line == ln) }

/-- A die's marked or owned bytes written at the home (R249, R252). -/
def State.sendHome (s : State) (x : L2Line) (m : LineMask) : State :=
  (((s.fix (.l2 x.die) (128 * x.line) 128).homeWrite x.line x.data m).carry (.l2 x.die) (s.homeAt x.line) x.line m).unsee x.die x.line

/-- An L1's dirty bytes of a line written back to its die's L2, where they are marked (R248, R251). -/
def State.writeBackL1 (s : State) (core ln : Nat) : State :=
  match s.l1? core ln with
  | none => s
  | some x =>
    if x.dirty == 0 then s else
    let die := dieOf core
    let y := (s.l2? die ln).getD { die := die, line := ln, st := .s, data := s.homeLine ln, marked := 0, first := false }
    let s := (s.fix (.l1 core) (128 * ln) 128).carry (.l1 core) (.l2 die) ln x.dirty
    (s.putL1 { x with dirty := 0 }).putL2
      { y with data := y.data.merge x.data x.dirty, marked := y.marked ||| x.dirty }

/-- The cores of a die whose L1 holds a line. -/
def State.l1Cores (s : State) (die ln : Nat) : List Nat :=
  (s.l1.filter fun x => dieOf x.core == die && x.line == ln).map (·.core)

/-- The directory recalls every L1 copy of a line on a die, with its dirty bytes; the copies are dropped or left clean. -/
def State.recallL1s (s : State) (die ln : Nat) (drop : Bool) : State :=
  (s.l1Cores die ln).foldl (fun s c =>
    let s := s.writeBackL1 c ln
    if drop then s.dropL1 c ln else s) s

/-- The die that owns a line: M or O (R249). -/
def State.owner? (s : State) (ln : Nat) : Option Nat :=
  (s.l2.find? fun x => x.line == ln && (x.st == .m || x.st == .o)).map (·.die)

/-- The dies that hold a line, ascending. -/
def State.holders (s : State) (ln : Nat) : List Nat := dies.filter fun d => (s.l2? d ln).isSome

/-! ### Pushes and recalls (R249, R252) -/

/-- Step 1 of R252: a die's marked bytes merged into the owner's copy, or into the home's, and its mask cleared. -/
def State.mergeMarks (s : State) (die ln : Nat) : State :=
  match s.l2? die ln with
  | none => s
  | some x =>
    if x.marked == 0 then s else
    let s := s.putL2 { x with marked := 0 }
    match s.owner? ln with
    | some o =>
      if o == die then s
      else
        let s := s.recallL1s o ln true
        match s.l2? o ln with
        | some y =>
          (((s.fix (.l2 die) (128 * ln) 128).carry (.l2 die) (.l2 o) ln x.marked).seeAt die o ln).putL2
            { y with data := y.data.merge x.data x.marked }
        | none => s
    | none => s.sendHome x x.marked

/-- The coherent data of a line: the owner's copy, else the home's. -/
def State.lineData (s : State) (ln : Nat) : Line :=
  match (s.owner? ln).bind fun o => s.l2? o ln with
  | some y => y.data
  | none => s.homeLine ln

/-- The copy that holds the coherent data of a line. -/
def State.bestAt (s : State) (ln : Nat) : Place :=
  match s.owner? ln with
  | some o => .l2 o
  | none => s.homeAt ln

/-- A die loses its copy: its L1s are recalled, its marked bytes merged, and as owner it writes the line back (R249, R252). -/
def State.loseLine (s : State) (die ln : Nat) : State :=
  let s := s.recallL1s die ln true
  match s.l2? die ln with
  | none => s
  | some x =>
    if x.st == .m || x.st == .o then (s.sendHome x wholeLine).dropL2 die ln
    else (s.mergeMarks die ln).dropL2 die ln

/-- A push (R252): merged, then every die but the pusher and the owner loses the line, in ascending order; the pusher's
copy then holds the bytes those dies pushed (log 9). An owner's own push only clears its mask. -/
def State.push (s : State) (die ln : Nat) : State :=
  match s.l2? die ln with
  | none => s
  | some x =>
    if x.marked == 0 then s else
    let s := s.mergeMarks die ln
    let o := s.owner? ln
    if o == some die then s else
    let others := (s.holders ln).filter fun d => d != die && some d != o
    let s := others.foldl (fun s d => s.loseLine d ln) s
    if others.isEmpty then s else
    let s := s.recallL1s die ln true
    match s.l2? die ln with
    | some y =>
      (s.carry (s.bestAt ln) (.l2 die) ln (~~~y.marked)).putL2 { y with data := (s.lineData ln).merge y.data y.marked }
    | none => s

/-- An L2 evicts a line: the L1s' bytes come back, its marked bytes are pushed, and it gives the line up (R249, R252). -/
def State.evictLine (s : State) (die ln : Nat) : State := (((s.recallL1s die ln true).push die ln)).loseLine die ln

/-- Every die loses the line, the owner last, so that its copy carries the others' bytes home (R256). -/
def State.recallAll (s : State) (ln : Nat) : State :=
  let o := s.owner? ln
  let s := ((s.holders ln).filter fun d => some d != o).foldl (fun s d => s.loseLine d ln) s
  match o with
  | some d => s.loseLine d ln
  | none => s

/-! ### Room (R244, R245, R258) -/

/-- One of some lines, by a free choice (log 80). -/
def choose {α : Type} (fresh : Nat) (l : List α) : Option α :=
  match l with
  | [x] => some x
  | _ => l[Config.pick fresh % l.length]?

/-- The number of the partition that holds a die. -/
def State.partNo (s : State) (die : Nat) : Option Nat := s.parts.findIdx? fun p => p.dies.contains die

/-- The partitions that hold a line: the one Meridian took it in for, and those of the dies that hold it. -/
def State.partsWith (s : State) (ln : Nat) : List Nat :=
  (((s.mer.find? fun e => e.line == ln).bind (·.part)).toList ++ (s.holders ln).filterMap s.partNo).eraseDups

/-- Meridian evicts a line: every die loses it first (R249), a dirty line goes to HBM with its marks, and a poisoned one whose
owner is unknown is a fault of the partitions that hold it: the one it was allocated for, and those of the dies that held it (R363,
log 81). -/
def State.merEvict (s : State) (ln : Nat) : State :=
  let owned := (s.owner? ln).isSome
  let held := s.partsWith ln
  let s := s.recallAll ln
  match s.mer.find? fun e => e.line == ln with
  | none => s
  | some e =>
    let bad := if owned then [] else (s.marksAt .mer (128 * ln) 128).take 1
    let gone := held.flatMap fun p => bad.map fun k => (p, 16 * k.gran, k.code)
    let s := { s with lost := s.lost ++ gone }
    let s := if e.dirty then (s.fix .mer (128 * ln) 128).carry .mer .hbm ln wholeLine else s
    { s.forget .mer ln with mer := s.mer.filter fun e => e.line != ln }

/-- A partition's Meridian ways (R258); firmware and the host have all (log 80). -/
def State.waysOf (s : State) (part : Option Nat) : List Nat :=
  let m := match part.bind fun p => s.parts[p]? with
    | some p => p.ways
    | none => 0xFFFF
  let l := (List.range 16).filter fun w => m.getLsbD w
  if l.isEmpty then List.range 16 else l

/-- Meridian takes a line into a way. -/
def State.addMer (s : State) (part : Option Nat) (ln way : Nat) (first : Bool) : State :=
  let s := (s.fix .hbm (128 * ln) 128).forget .mer ln
  { s with mer := { line := ln, way := way, part := part, dirty := false, first := first } :: s.mer }.carry .hbm .mer ln wholeLine

/-- A line is used at its home: Meridian holds it afterwards, in a way of the partition, having evicted another line of its set
where none was free (R244, R249, R258). -/
def State.homeUse (s : State) (part : Option Nat) (ln : Nat) (first : Bool) : State :=
  if s.inMer ln || !isHbm (128 * ln) then s else
  let set := s.mer.filter fun e => e.line % 131072 == ln % 131072
  let ways := s.waysOf part
  match ways.find? fun w => !(set.any fun e => e.way == w) with
  | some w => s.addMer part ln w first
  | none =>
    let mine := set.filter fun e => ways.contains e.way
    let soon := mine.filter fun e => e.first
    match choose s.fresh (if soon.isEmpty then mine else soon) with
    | some v => (({ s with fresh := s.fresh + 1 } : State).merEvict v.line).addMer part ln v.way first
    | none => s

/-- A die's L2 has room for a line: of the 16 lines of its set one is evicted where all ways are taken (R244). -/
def State.roomL2 (s : State) (die ln : Nat) : State :=
  let set := s.l2.filter fun x => x.die == die && x.line % 8192 == ln % 8192
  if (s.l2? die ln).isSome || set.length < 16 then s else
  let soon := set.filter fun x => x.first
  match choose s.fresh (if soon.isEmpty then set else soon) with
  | some v => ({ s with fresh := s.fresh + 1 } : State).evictLine die v.line
  | none => s

/-- The lines a core's L1 holds besides the reserves of its resident teams (R20, R245). -/
def State.l1Cap (s : State) (core : Nat) : Nat :=
  1536 - 32 * ((s.teams.filter fun t => t.core == core).map fun t =>
    ((s.launches.find? fun l => l.id == t.id.launch).map fun l => (l.desc.getD 3 0).toNat / 1024 % 32).getD 0).foldl (· + ·) 0

/-- A line of an L1 was last used by an urgent warp. -/
def State.urgentLine (s : State) (x : L1Line) : Bool := s.warps.any fun w => w.id == x.user && w.urgent

/-- The order in which an L1 gives lines up: those that `.strm` brought first, those of `.keep` after the others (R116), and one of an urgent
warp only where there is no other (R345). -/
def State.spareRank (s : State) (x : L1Line) : Nat :=
  if s.urgentLine x then 3 else if x.hint == 1 then 0 else if x.hint == 3 then 2 else 1

/-- An L1 may choose a line for replacement: no line of its set goes before it. -/
def State.mayChoose (s : State) (core ln : Nat) : Bool :=
  ((s.l1? core ln).map fun x => (s.l1.filter fun y => y.core == core && y.line % 128 == ln % 128).all fun y =>
    s.spareRank x ≤ s.spareRank y).getD true

/-- An L1 gives one of some lines up, of those that go first. -/
def State.spareL1 (s : State) (core : Nat) (ls : List L1Line) : State :=
  match choose s.fresh (ls.filter fun x => ls.all fun y => s.spareRank x ≤ s.spareRank y) with
  | some v => (({ s with fresh := s.fresh + 1 } : State).writeBackL1 core v.line).dropL1 core v.line
  | none => s

/-- A core's L1 has room for a line: 12 ways to a set, and what the reserves leave (R244, R245). -/
def State.roomL1 (s : State) (core ln : Nat) : State :=
  if (s.l1? core ln).isSome then s else
  let mine := s.l1.filter fun x => x.core == core
  let set := mine.filter fun x => x.line % 128 == ln % 128
  if 12 ≤ set.length then s.spareL1 core set
  else if s.l1Cap core ≤ mine.length then s.spareL1 core (if set.isEmpty then mine else set)
  else s

/-- Room in a core's L1 for a line under a cache hint: `.nol1` keeps none (R116). -/
def State.roomHint (s : State) (core ln : Nat) (hint : BitVec 2) : State := if hint == 2 then s else s.roomL1 core ln

/-- An access under `.nol1` to a line that a core's L1 does not hold: it leaves no copy there (R116). -/
def State.passesL1 (s : State) (core ln : Nat) (hint : BitVec 2) : Bool := hint == 2 && (s.l1? core ln).isNone

/-- A core's L1 gives lines up until it holds no more than its capacity, after a reserve was taken out of it (R245). -/
def State.trimL1 (s : State) (core : Nat) : State :=
  let mine := s.l1.filter fun x => x.core == core
  (List.range (mine.length - s.l1Cap core)).foldl (fun s _ => s.spareL1 core (s.l1.filter fun x => x.core == core)) s

/-! ### Grants (R250) -/

/-- What a die asks for a line it does not hold in the state it needs (R250). -/
inductive Want where
  | shared
  | loadDev
  | storeDev
  deriving DecidableEq, Repr, Inhabited

/-- The other dies that hold a line give the reader its data: an M owner pushes and becomes O, an E holder S (R249, R252). -/
def State.supply (s : State) (die ln : Nat) : State :=
  (s.holders ln).foldl (fun s d =>
    if d == die then s else
    match s.l2? d ln with
    | some x =>
      if x.st == .m then
        let s := (s.recallL1s d ln false).push d ln
        match s.l2? d ln with
        | some y => s.putL2 { y with st := .o }
        | none => s
      else if x.st == .o then s.recallL1s d ln false
      else if x.st == .e then
        let s := (s.recallL1s d ln false).mergeMarks d ln
        match s.l2? d ln with
        | some y => s.putL2 { y with st := .s }
        | none => s
      else s
    | none => s) s

/-- A die takes a line into its L2 in a state, with the coherent data and its marks. -/
def State.takeLine (s : State) (die ln : Nat) (st : Moes) : State :=
  let from' := s.bestAt ln
  let s := if from' == .l2 die then s else ((s.fix from' (128 * ln) 128).forget (.l2 die) ln).carry from' (.l2 die) ln wholeLine
  (s.dropLags (128 * ln) 128).putL2 { die := die, line := ln, st := st, data := s.lineData ln, marked := 0, first := false }

/-- A die's L2 and its home have room for a line. -/
def State.makeRoom (s : State) (die ln : Nat) : State := (s.roomL2 die ln).homeUse (s.partNo die) ln false

/-- The die holds the line in the state an access needs (R250); before any change of state it pushes (R252). -/
def State.grant (s : State) (die ln : Nat) (w : Want) : State :=
  match w, s.l2? die ln with
  | .storeDev, held =>
    match held with
    | some x =>
      if x.st == .m then s
      else if x.st == .e then
        let s := s.push die ln
        match s.l2? die ln with
        | some y => s.putL2 { y with st := .m }
        | none => s
      else
        let s := (s.recallL1s die ln true).push die ln
        let s := ((s.holders ln).filter (· != die)).foldl (fun s d => s.loseLine d ln) s
        s.takeLine die ln .m
    | none => (((s.makeRoom die ln).recallAll ln)).takeLine die ln .m
  | _, some _ => s
  | w, none =>
    let s := s.makeRoom die ln
    let alone := (s.holders ln).isEmpty
    (s.supply die ln).takeLine die ln (if alone && w == .loadDev then .e else .s)

/-! ### Loads and stores of a core (R248, R255) -/

/-- The L1 of a core holds a line for a load of a warp at a scope; a miss takes the data of the L1 that owns it, else the L2's
(R248), and the line keeps the hint (R116). -/
def State.loadLine (s : State) (who : WarpId) (core ln : Nat) (sc : Scope) (hint : BitVec 2) : State × Line :=
  match s.l1? core ln with
  | some x => (s.putL1 { x with user := who }, x.data)
  | none =>
    let die := dieOf core
    let s := (s.grant die ln (if sc.devUp then .loadDev else .shared)).roomHint core ln hint
    let s := ((s.fix (.l2 die) (128 * ln) 128).forget (.l1 core) ln).carry (.l2 die) (.l1 core) ln wholeLine
    let base := ((s.l2? die ln).map (·.data)).getD (s.homeLine ln)
    match s.l1.find? fun x => dieOf x.core == die && x.line == ln && (x.st == .m || x.st == .o) with
    | some x =>
      let s := (s.fix (.l1 x.core) (128 * ln) 128).carry (.l1 x.core) (.l1 core) ln x.dirty
      let d := base.merge x.data x.dirty
      ((s.putL1 { x with st := .o }).putL1 { core := core, line := ln, st := .s, data := d, dirty := 0, user := who, hint := hint }, d)
    | none => (s.putL1 { core := core, line := ln, st := .s, data := base, dirty := 0, user := who, hint := hint }, base)

/-- Bytes a warp stores into its core's L1, which holds the line M; at device or system scope the die owns the line first (R248). -/
def State.storeLine (s : State) (who : WarpId) (core ln : Nat) (sc : Scope) (hint : BitVec 2) (off : Nat) (bs : List W8) : State :=
  let die := dieOf core
  let s := (s.grant die ln (if sc.devUp then .storeDev else .shared)).roomHint core ln hint
  let s := ((s.l1Cores die ln).filter (· != core)).foldl (fun s c => (s.writeBackL1 c ln).dropL1 c ln) s
  let base := ((s.l2? die ln).map (·.data)).getD (s.homeLine ln)
  let x := (s.l1? core ln).getD { core := core, line := ln, st := .m, data := base, dirty := 0, user := who, hint := hint }
  let s := ((s.fix (.l2 die) (128 * ln) 128).carry (.l2 die) (.l1 core) ln (~~~x.dirty)).replaced (.l1 core) (128 * ln + off) bs.length
  let d := base.merge x.data x.dirty
  s.putL1 { x with st := .m, data := d.write off bs, dirty := x.dirty ||| spanMask off bs.length, user := who }

/-- The lines that `n` bytes touch. -/
def linesOf (pa n : Nat) : List Nat :=
  (List.range (n / 128 + 2)).filterMap fun j => if (pa / 128 + j) * 128 < pa + n then some (pa / 128 + j) else none

/-- `n` bytes about to be accessed at their home: Meridian holds their lines, and no die does (R255, R256, R257, R369; log 93). -/
def State.atHome (s : State) (part : Option Nat) (pa n : Nat) : State :=
  if isHbm pa then (linesOf pa n).foldl (fun s ln => ((s.homeUse part ln false).recallAll ln).fix (s.homeAt ln) pa n) s else s

/-- Bytes written at a home where no die holds them. -/
def State.setHome (s : State) (pa : Nat) (bs : List W8) : State :=
  let s := (linesOf pa bs.length).foldl (fun s ln => (s.replaced (s.homeAt ln) pa bs.length).dirtyHome ln) s
  { s with mem := wrBytes s.mem pa bs }

/-- The STRUCT of the first mark on some bytes at a place (R362). -/
def State.markCode (s : State) (p : Place) (pa n : Nat) : Option Nat := ((s.marksAt p pa n).head?).map (·.code)

/-- A load of `n` bytes at a physical address by a warp on a core, in a page that is cached or not (R255), under a cache hint (R116), with the
STRUCT of the mark it meets (R362). A 16-byte access is two accesses of 8 bytes (R272); the model performs them in one step, with no other
access between (DESIGN CHOICE, log 107). -/
def State.coreRead (s : State) (who : WarpId) (core : Nat) (nc : Bool) (sc : Scope) (hint : BitVec 2) (pa n : Nat) :
    State × List W8 × Option Nat :=
  let ln := pa / 128
  if nc then
    let s := (s.atHome (s.partNo (dieOf core)) pa n).dropLags pa n
    (s, rdBytes s.mem pa n, s.markCode (s.homeAt ln) pa n)
  else
    let (t, d) := (s.fix (.l1 core) pa n).loadLine who core ln sc hint
    (if s.passesL1 core ln hint then t.dropL1 core ln else t, d.bytes (pa % 128) n, t.markCode (.l1 core) pa n)

/-- The mark that a load by a core would meet. -/
def State.coreMark (s : State) (who : WarpId) (core : Nat) (nc : Bool) (sc : Scope) (pa n : Nat) : Option Nat :=
  if s.poison.isEmpty then none else (s.coreRead who core nc sc 0 pa n).2.2

/-- A store by a warp on a core (R248, R255). One under `.nol1` that misses the L1 is written back to the L2 at once, where it is marked, and
leaves no copy (R116; DESIGN CHOICE, log 128). -/
def State.coreStore (s : State) (who : WarpId) (core : Nat) (nc : Bool) (sc : Scope) (hint : BitVec 2) (pa : Nat) (bs : List W8) : State :=
  if nc then ((s.atHome (s.partNo (dieOf core)) pa bs.length).dropLags pa bs.length).setHome pa bs
  else
    let ln := pa / 128
    let t := s.storeLine who core ln sc hint (pa % 128) bs
    if s.passesL1 core ln hint then (t.writeBackL1 core ln).dropL1 core ln else t

/-! ### Everyone else -/

/-- A write at the home for a partition, or by the host or firmware: every die's copy is recalled first (R256, R257, R369,
log 9). -/
def State.homeStore (s : State) (part : Option Nat) (pa : Nat) (bs : List W8) : State :=
  ((s.atHome part pa bs.length).dropLags pa bs.length).setHome pa bs

/-- A write at the home by the host or firmware. -/
def State.sysWrite (s : State) (pa : Nat) (bs : List W8) : State := s.homeStore none pa bs

/-- The byte a device-scope reader finds: the owner's, with the owner's dirty L1 bytes, else the home's (R249). -/
def State.sysByte (s : State) (pa : Nat) : W8 :=
  match (s.owner? (pa / 128)).bind fun o => s.l2? o (pa / 128) with
  | some y =>
    match s.l1.find? fun x => dieOf x.core == y.die && x.line == pa / 128 && x.dirty.getLsbD (pa % 128) with
    | some x => x.data.byte (pa % 128)
    | none => y.data.byte (pa % 128)
  | none => cget s.mem pa

/-- Bytes read coherently at device or system scope, by a page walk, firmware or the host. -/
def State.sysRead (s : State) (pa n : Nat) : List W8 := (List.range n).map fun j => s.sysByte (pa + j)

/-- What such a read corrects (R360). -/
def State.sysFix (s : State) (pa n : Nat) : State :=
  if s.errs.isEmpty then s else
  (linesOf pa n).foldl (fun s ln =>
    match s.owner? ln with
    | some o => (s.recallL1s o ln false).fix (.l2 o) pa n
    | none => s.fix (s.homeAt ln) pa n) s

/-- The mark such a read meets (R362). -/
def State.sysMark (s : State) (pa n : Nat) : Option Nat :=
  if s.poison.isEmpty then none else
  (linesOf pa n).findSome? fun ln =>
    let t := match s.owner? ln with
      | some o => s.recallL1s o ln false
      | none => s
    ((t.marksAt (t.bestAt ln) pa n).head?).map (·.code)

/-- The first poisoned granule of some bytes, with its STRUCT. -/
def State.markIn (s : State) (pa n : Nat) : Option (Nat × Nat) :=
  if s.poison.isEmpty then none
  else (List.range (n / 16 + 2)).findSome? fun j =>
    let a := pa / 16 * 16 + 16 * j
    if a < pa + n then (s.sysMark a 16).map fun k => (a, k) else none

/-- Such a read meets poison. -/
def State.poisoned (s : State) (pa n : Nat) : Bool := (s.sysMark pa n).isSome

/-! ### Engines (R41, R243, R270, R282) -/

/-- The die whose L2 a unit reads from: Meridian's and the I/O die's copy units have none (R355). -/
def unitDie : Master → Option Nat
  | .copy d => if d < 4 then some d else none
  | .fill c => some (dieOf c)
  | _ => none

/-- A value an engine's read of an aligned 4-byte word may return: the places its bytes come from, the far atomic it stands before, the
die that holds it. -/
structure Source where
  places : List Place
  lag : Option Nat
  die : Option Nat
  bytes : List W8
  deriving DecidableEq, Repr, Inhabited

/-- The bytes of an aligned 4-byte word with those that an L2 copy has marked (R251, R254). -/
def L2Line.over (x : L2Line) (pa : Nat) (bs : List W8) : List W8 :=
  bs.zipIdx.map fun b => if x.marked.getLsbD ((pa + b.2) % 128) then x.data.byte ((pa + b.2) % 128) else b.1

/-- An access class has read a word in a die's copy, which may be newer than the home's (R268, R270). -/
def State.knows (s : State) (c : AccClass) (pa die : Nat) : Bool := s.seen.contains { cls := c, pa := pa, die := die }

/-- What a class finds of a word in an L2 copy (R282): the bytes the copy has marked, over those marked in copies the class has read already,
over the owner's if the copy is it or the class has read it, and else the home's; never a byte that a push has left behind (R252, R270). -/
def State.l2Source (s : State) (c : AccClass) (pa : Nat) (x : L2Line) : Source :=
  let owns (y : L2Line) : Bool := y.line == pa / 128 && (y.st == .m || y.st == .o) && (y.die == x.die || s.knows c pa y.die)
  let base := match s.l2.find? owns with
    | some y => (Place.l2 y.die, y.data.bytes (pa % 128) 4)
    | none => (s.homeAt (pa / 128), rdBytes s.mem pa 4)
  let others := s.l2.filter fun y => y.line == pa / 128 && y.die != x.die && s.knows c pa y.die
  let whole := x.marked &&& spanMask (pa % 128) 4 == spanMask (pa % 128) 4
  { places := Place.l2 x.die :: if whole then [] else [base.1], lag := none, die := some x.die
    bytes := x.over pa (others.foldl (fun b y => y.over pa b) base.2) }

/-- The values a unit's read of an aligned 4-byte word may return (R282): what a far atomic on its way will replace, the home's,
the owner's, one marked in the L2 it reads from; never one earlier than its class has read, which may be one of another unit's L2
(R268, R270). -/
def State.engineWords (s : State) (u : Master) (pa : Nat) : List Source :=
  let ln := pa / 128
  let held (x : L2Line) : Bool := x.line == ln && (x.st == .m || x.st == .o || s.knows u.cls pa x.die ||
    (some x.die == unitDie u && (x.marked &&& spanMask (pa % 128) 4) != 0))
  let l2s := (s.l2.filter held).map (s.l2Source u.cls pa)
  match l2s.filter fun x => (x.die.map (s.knows u.cls pa)).getD false with
  | [] =>
    let old : List Source := (s.lags.filter fun g => g.pa ≤ pa && pa < g.pa + g.old.length && !g.seen.contains u.cls).map fun g =>
      { places := [s.homeAt ln], lag := some g.id, die := none, bytes := (g.old.drop (pa - g.pa)).take 4 }
    old ++ { places := [s.homeAt ln], lag := none, die := none, bytes := rdBytes s.mem pa 4 } :: l2s
  | known => known

/-- What a unit has read of a word bars its class from what is earlier (R268, R270). -/
def State.noteRead (s : State) (u : Master) (pa : Nat) (x : Source) : State :=
  let on (g : Lag) : Bool := g.pa ≤ pa && pa < g.pa + g.old.length
  let early (g : Lag) : Bool := match x.lag with
    | some i => on g && g.id < i
    | none => on g
  let s := if s.lags.isEmpty then s
    else { s with lags := s.lags.map fun g => if early g && !g.seen.contains u.cls then { g with seen := u.cls :: g.seen } else g }
  match x.die with
  | some d => if s.seen.contains { cls := u.cls, pa := pa, die := d } then s
    else { s with seen := { cls := u.cls, pa := pa, die := d } :: s.seen }
  | none => s

/-- An engine's read, word by word (R282), and the first mark it met, by address and STRUCT; `fresh` counts the choices made. -/
def State.engineRead (s : State) (u : Master) (pa : Nat) : Nat → State × List W8 × Option (Nat × Nat)
  | 0 => (s, [], none)
  | k + 1 =>
    match choose s.fresh (s.engineWords u pa) with
    | none => (s, [], none)
    | some x =>
      let s := (x.places.foldl (fun (s : State) p => s.fix p pa 4) { s with fresh := s.fresh + 1 }).noteRead u pa x
      let bad := ((x.places.flatMap fun p => s.marksAt p pa 4).head?).map fun k => (pa, k.code)
      let (s', bs, bad') := State.engineRead s u (pa + 4) k
      (s', x.bytes ++ bs, bad.or bad')

/-- How a copy's read of a line allocates under POL (R41): in the unit's L2 and Meridian, marked first for eviction under 1,
in Meridian only under 2, in neither under 3; a line of an uncached page in no L2 (R255). -/
def State.allocRead (s : State) (u : Master) (part : Option Nat) (pol : Nat) (nc : Bool) (pa : Nat) : State :=
  let ln := pa / 128
  if !isHbm pa || 3 ≤ pol then s else
  match pol, if nc then none else unitDie u with
  | 2, _ => s.homeUse part ln false
  | p, none => s.homeUse part ln (p == 1)
  | p, some d =>
    if (s.l2? d ln).isSome then s else
    let s := (s.homeUse part ln (p == 1)).grant d ln .shared
    match s.l2? d ln with
    | some x => if p == 1 then s.putL2 { x with first := true } else s
    | none => s

/-! ### Releases (R253) and atomics (R256) -/

/-- Every dirty byte of a core's L1 written back to its die's L2 (R253). -/
def State.flushL1 (s : State) (core : Nat) : State :=
  ((s.l1.filter fun x => x.core == core && x.dirty != 0).map (·.line)).foldl (fun s ln => s.writeBackL1 core ln) s

/-- A die's copy of a line lacks bytes of the coherent one, besides those it has marked itself. -/
def State.stale (s : State) (x : L2Line) : Bool :=
  s.owner? x.line != some x.die &&
    let d := s.lineData x.line
    (List.range 128).any fun j => !x.marked.getLsbD j && x.data.byte j != d.byte j

/-- The other dies give up every copy that an owner's newer bytes have left behind: an owner's push tells them nothing (R252), and
a release must show them what it covers (R273, R275, log 79). -/
def State.dropStale (s : State) (die : Nat) : State :=
  (s.l2.filter fun x => x.die != die && s.stale x).foldl (fun s x => s.evictLine x.die x.line) s

/-- Every marked line of a die's L2 pushed (R253). -/
def State.flushL2 (s : State) (die : Nat) : State :=
  (((s.l2.filter fun x => x.die == die && x.marked != 0).map (·.line)).foldl (fun s ln => s.push die ln) s).dropStale die

/-- Every byte that the cores of some dies have written, or have read of one another's there, is visible at device scope (R253, R270). -/
def State.pushDies (s : State) (ds : List Nat) : State :=
  let s := ((List.range 256).filter fun c => ds.contains (dieOf c)).foldl (fun s c => s.flushL1 c) s
  ds.foldl (fun s d => s.flushL2 d) s

/-- A release by a core at a scope (R253). -/
def State.release (s : State) (core : Nat) (sc : Scope) : State :=
  let s := if sc.dieUp then s.flushL1 core else s
  if sc.devUp then s.flushL2 (dieOf core) else s

/-- Every owned line of every die also written to its home and kept clean, and every far atomic performed for the engines, so
that engine work ordered after core work reads it there (R281, R282, log 9). -/
def State.homeOwned (s : State) : State :=
  { (s.l2.filter fun x => x.st == .m || x.st == .o).foldl (fun s x => s.sendHome x wholeLine) s with lags := [] }

/-- Where an atomic executes (R256), and its read and write there: `f` gives the new bytes, or none to leave them; the answer
holds whether it was far. -/
def State.atomicAt (s : State) (core : Nat) (nc : Bool) (sc : Scope) (pa n : Nat) (f : List W8 → Option (List W8)) :
    State × List W8 × Bool :=
  let ln := pa / 128
  let off := pa % 128
  let die := dieOf core
  let near (s : State) (mark : Bool) : State × List W8 × Bool :=
    let s := (s.recallL1s die ln true).fix (.l2 die) pa n
    let s := if mark then s else s.push die ln
    match s.l2? die ln with
    | some x =>
      let old := x.data.bytes off n
      let d := match f old with | some b => x.data.write off b | none => x.data
      (s.putL2 { x with data := d, st := if mark then x.st else .m
                        marked := if mark then x.marked ||| spanMask off n else x.marked }, old, false)
    | none => (s, [], false)
  let far (s : State) : State × List W8 × Bool :=
    let s := s.atHome (s.partNo die) pa n
    let old := rdBytes s.mem pa n
    (match f old with | some b => s.setHome pa b | none => s, old, true)
  if nc || !isHbm pa then far s
  else if !sc.devUp then near (s.grant die ln .shared) true
  else match s.l2? die ln with
    | some x => if x.st == .e || x.st == .m then near s false else far s
    | none => far s

end Sys2Proof.Machine
end

