-- ==== Sys2Proof/Machine/Translate.lean ====
section
/-! DEFINITION. Translation (R259 to R263): the page walk, the TLBs, and the checks of an access. -/
namespace Sys2Proof.Machine

/-- A context by its number. -/
def State.ctx? (s : State) (c : Nat) : Option Ctx := s.ctxs.find? fun x => x.num == c

/-- What a translation gives: a page, a recoverable page fault (R264), a protection cause (R263), or a poisoned entry that its
walk read, with the mark's STRUCT (R362). -/
inductive Xl where
  | page (pa : Nat) (w x nc : Bool)
  | absent
  | bad (cause : Nat)
  | poisoned (pa code : Nat)
  deriving DecidableEq, Repr, Inhabited

/-- The index bits of a level: its lowest VA bit and its width (R260). -/
def levelBits : Nat → Nat × Nat
  | 0 => (39, 15)
  | 1 => (30, 9)
  | 2 => (21, 9)
  | _ => (16, 5)

/-- Whether an entry is malformed at its level (R261). -/
def pteBad (lvl : Nat) (e : Nat) : Bool :=
  let leaf := e.testBit 1
  let addr := e / 256 % 2 ^ 44 * 256
  let mt := e / 16 % 4
  let reserved := e / 2 ^ 52 != 0 || e / 64 % 4 != 0
  let lBad := (lvl == 0 && leaf) || (lvl == 3 && !leaf)
  let align := if leaf then 2 ^ (levelBits lvl).1 else match lvl with | 2 => 256 | _ => 4096
  let place :=
    if leaf then (0x8000000000 ≤ addr && addr < 0x4000000000000) || (!isHbm addr && mt == 0) else !isHbm addr
  reserved || 2 ≤ mt || lBad || addr % align != 0 || place

/-- The walk from a table's base at a level (R260, R261); `fuel` is the levels left. Under the bring-up service a leaf that
maps a peer window is malformed (R378). -/
def State.walkFrom (s : State) (va : Nat) : Nat → Nat → Nat → Xl × Nat
  | 0, _, _ => (.bad 2, 0)
  | fuel + 1, lvl, base =>
    let (lo, w) := levelBits lvl
    let at' := base + 8 * (va / 2 ^ lo % 2 ^ w)
    let e := leNat (s.sysRead at' 8)
    match s.sysMark at' 8 with
    | some k => (.poisoned at' k, 0)
    | none =>
    if !e.testBit 0 then (.absent, 0)
    else if pteBad lvl e || (s.fw.bringUp && e.testBit 1 && isPeer (e / 256 % 2 ^ 44 * 256)) then (.bad 2, 0)
    else
      let addr := e / 256 % 2 ^ 44 * 256
      if e.testBit 1 then (.page (addr + va % 2 ^ lo) (e.testBit 2) (e.testBit 3) (e / 16 % 4 == 1), lo)
      else s.walkFrom va fuel (lvl + 1) addr

/-- The entries a walk reads, by address. -/
def State.walkReads (s : State) (va : Nat) : Nat → Nat → Nat → List Nat
  | 0, _, _ => []
  | fuel + 1, lvl, base =>
    let (lo, w) := levelBits lvl
    let at' := base + 8 * (va / 2 ^ lo % 2 ^ w)
    let e := leNat (s.sysRead at' 8)
    at' :: if e.testBit 0 && !e.testBit 1 && !pteBad lvl e then s.walkReads va fuel (lvl + 1) (e / 256 % 2 ^ 44 * 256) else []

/-- The walk of a context's tables (R260); a context that is not configured has none. -/
def State.walk (s : State) (ctx va : Nat) : Xl × Nat :=
  match s.ctx? ctx with
  | some c => s.walkFrom va 4 0 c.root
  | none => (.absent, 0)

/-- What a walk reads is corrected (R360). -/
def State.walkFix (s : State) (ctx va : Nat) : State :=
  if s.errs.isEmpty then s else
  match s.ctx? ctx with
  | some c => (s.walkReads va 4 0 c.root).foldl (fun s a => s.sysFix a 8) s
  | none => s

/-- A TLB entry that covers an address. -/
def TlbEnt.covers (e : TlbEnt) (ctx va : Nat) : Bool := e.ctx == ctx && e.va ≤ va && va < e.va + 2 ^ e.bits

/-- What an entry gives. -/
def TlbEnt.xl (e : TlbEnt) (va : Nat) : Xl := .page (e.pa + (va - e.va)) e.w e.x e.nc

/-- A core with its cores changed at one place. -/
def State.setCore (s : State) (c : Nat) (f : Core → Core) : State := { s with cores := s.cores.modify c f }

/-- The core of a number. -/
def State.core (s : State) (c : Nat) : Core := s.cores.getD c Core.reset

/-- Entries that a full TLB gives up, which TLBINV may still have to wait for (R262). -/
def State.tlbOut (s : State) (es : List TlbEnt) : State :=
  if es.isEmpty then s else { s with past := es.filter (fun e => !s.past.contains e) ++ s.past }

/-- A translation by a core, or at the memory side for `none`, through its TLBs; a walk's leaf is cached (R262). Which entry a full TLB
gives up is the model's choice, the oldest walk's, and a hit in the die's TLB fills no L1 TLB (DESIGN CHOICE, log 106). -/
def State.translate (s : State) (core : Option Nat) (ctx : Nat) (va64 : W64) : State × Xl :=
  let va := va64.toNat
  if 2 ^ 54 ≤ va then (s, .bad 1) else
  let l1 := match core with
    | some c => (s.core c).tlb.find? fun (e : TlbEnt) => e.covers ctx va
    | none => none
  match l1 with
  | some e => (s, e.xl va)
  | none =>
    let die := (core.map dieOf).getD 4
    match s.tlb2.find? fun (p : Nat × TlbEnt) => p.1 == die && p.2.covers ctx va with
    | some p => (s, p.2.xl va)
    | none =>
      let r := s.walk ctx va
      let s := s.walkFix ctx va
      match r with
      | (.page pa w x nc, bits) =>
        let e : TlbEnt := { ctx := ctx, va := va / 2 ^ bits * 2 ^ bits, bits := bits, pa := pa / 2 ^ bits * 2 ^ bits
                            w := w, x := x, nc := nc }
        let s := match core with
          | some c => (s.setCore c fun k => { k with tlb := (e :: k.tlb).take 128 }).tlbOut ((s.core c).tlb.drop 127)
          | none => s
        let (mine, others) := s.tlb2.partition fun (p : Nat × TlbEnt) => p.1 == die
        (({ s with tlb2 := ((die, e) :: mine).take 16384 ++ others } : State).tlbOut ((mine.drop 16383).map fun p => p.2), .page pa w x nc)
      | (r, _) => (s, r)

end Sys2Proof.Machine
end

