-- ==== Sys2Proof/Machine/Ops.lean ====
section
/-! DEFINITION. The shared operations: finding and changing warps and teams, tokens and targets, references, claims and
barriers, discarding a block (R77), raising a fault (R354, R355) and parking on a page fault (R264) with its return. -/
namespace Sys2Proof.Machine

/-! ### Finding and changing -/

/-- One warp changed. -/
def State.setWarp (s : State) (w : WarpId) (f : Warp → Warp) : State :=
  { s with warps := s.warps.map fun x => if x.id == w then f x else x }

/-- A team by its id. -/
def State.team? (s : State) (t : TeamId) : Option Team := s.teams.find? fun x => x.id == t

/-- One team changed. -/
def State.setTeam (s : State) (t : TeamId) (f : Team → Team) : State :=
  { s with teams := s.teams.map fun x => if x.id == t then f x else x }

/-- A launch by its id. -/
def State.launch? (s : State) (l : LaunchId) : Option Launch := s.launches.find? fun x => x.id == l

/-- One launch changed. -/
def State.setLaunch (s : State) (l : LaunchId) (f : Launch → Launch) : State :=
  { s with launches := s.launches.map fun x => if x.id == l then f x else x }

/-- One context changed. -/
def State.setCtx (s : State) (c : Nat) (f : Ctx → Ctx) : State :=
  { s with ctxs := s.ctxs.map fun x => if x.num == c then f x else x }

/-- A fresh identity. -/
def State.newId (s : State) : State × Nat := ({ s with nextId := s.nextId + 1 }, s.nextId)

/-- The next place in the order of issue. -/
def State.newOrder (s : State) : State × Nat := ({ s with order := s.order + 1 }, s.order)

/-- The warps of a team that have not retired. -/
def State.live (s : State) (t : TeamId) : List Warp := s.warps.filter fun x => x.id.team == t && x.phase != .retired

/-- The block in flight of a warp changed. -/
def State.setRun (s : State) (w : WarpId) (f : Run → Run) : State :=
  s.setWarp w fun x => { x with run := x.run.map f }

/-- An instruction's node changed. -/
def Run.setNode (r : Run) (k : Nat) (f : Node → Node) : Run := { r with nodes := r.nodes.modify k f }

/-- A token put where a target names it (R43). -/
def Run.put (r : Run) (t : Tgt) (tok : Token) : Run :=
  match t with
  | .none => r
  | .to .left i => r.setNode i.toNat fun n => { n with left := some tok }
  | .to .right i => r.setNode i.toNat fun n => { n with right := some tok }
  | .to .third i => r.setNode i.toNat fun n => { n with third := some tok }
  | .wr n => { r with wslots := r.wslots.modify n.toNat fun w => { w with tok := some tok } }

/-- A token put at each of an instruction's targets. -/
def Run.putAll (r : Run) (ts : List Tgt) (tok : Token) : Run := ts.foldl (fun r t => r.put t tok) r

/-- The token of a slot. -/
def Node.tok (n : Node) : Slot → Option Token
  | .left => n.left
  | .right => n.right
  | .third => n.third

/-- Every slot the instruction uses holds a token (R68). -/
def Node.full (n : Node) (i : Instr) : Bool := i.slots.all fun sl => (n.tok sl).isSome

/-- What the instruction finds in its slots. -/
def Run.opnds (r : Run) (k : Nat) : Opnds :=
  let n := r.node k
  { am := r.am, left := n.left.getD .empty, right := n.right.getD .empty, third := n.third.getD .empty }

/-- An instruction has fired and finished. -/
def Run.finish (r : Run) (k : Nat) : Run := r.setNode k fun n => { n with st := .done }

/-- The instruction issuing now: its warp, its index, the block it is in, where it may fire (R68). -/
structure Issue where
  warp : Warp
  k : Nat
  run : Run
  deriving DecidableEq, Repr, Inhabited

/-- The warp of an issue. -/
def Issue.w (i : Issue) : WarpId := i.warp.id
/-- The operands of an issue. -/
def Issue.o (i : Issue) : Opnds := i.run.opnds i.k

/-- The instruction issuing now, when its block is in flight, its slots are full, it has not finished and no acquire of its block
holds it back. -/
def State.issuing (s : State) (i : Instr) : Option Issue :=
  match s.cur with
  | some (w, k) =>
    match s.warp? w with
    | some x =>
      match x.run with
      | some r => if (r.node k).full i && (r.node k).st != .done && !r.held k then some { warp := x, k := k, run := r } else none
      | none => none
    | none => none
  | none => none

/-- A meaning that acts only where its instruction may fire. -/
def State.firing (s : State) (i : Instr) (f : Issue → State) : Host.Outcome State Fault Refusal :=
  match s.issuing i with
  | some x => .next (f x)
  | none => .next s

/-- The issuing instruction finishes with a result token and flags (R67, R145). -/
def State.result (s : State) (x : Issue) (ts : List Tgt) (tok : Token) (fl : Flags) : State :=
  s.setRun x.w fun r => { (r.putAll ts tok).finish x.k with flags := r.flags ||| fl }

/-- The issuing instruction finishes without a result. -/
def State.finish (s : State) (x : Issue) : State := s.setRun x.w fun r => r.finish x.k

/-- The issuing instruction finishes, leaving an effect for the commit (R72). -/
def State.leave (s : State) (x : Issue) (e : Eff) : State :=
  s.setRun x.w fun r => { r.finish x.k with effs := r.effs ++ [(x.k, e)] }

/-- The issuing instruction waits (R24, R128). -/
def State.wait (s : State) (x : Issue) (w : Wait) : State :=
  let (s, o) := s.newOrder
  s.setRun x.w fun r => r.setNode x.k fun n => { n with st := .waiting w, since := if n.st == .idle then o else n.since }

/-! ### Tiles and references (R181 to R184, R196) -/

/-- A tile of a team's table. -/
def Team.tile? (t : Team) (tid : Nat) : Option Tile := t.tiles.find? fun x => x.tid == tid

/-- A tile changed. -/
def Team.setTile (t : Team) (tid : Nat) (f : Tile → Tile) : Team :=
  { t with tiles := t.tiles.map fun x => if x.tid == tid then f x else x }

/-- The unit a tile belongs to, when it is taken (R317). -/
def Team.unitOf (t : Team) (tid : Nat) : Option Taken :=
  t.taken.find? fun u => u.tid == tid || (u.spl && u.tid + 1 == tid)

/-- A warp may name a tile: the team holds it, and no other warp holds it alone (R181, R319). -/
def Team.mayName (t : Team) (warp tid : Nat) : Bool :=
  (t.tile? tid).isSome &&
  match t.unitOf tid with
  | none => true
  | some u => if u.cls == .shr then u.sharers.getLsbD warp else u.holder == warp

/-- The references to a place. -/
def State.refsTo (s : State) (p : RefTo) : List Ref := s.refs.filter fun r => r.obj == p

/-- The references to a tile of a team. -/
def State.tileRefs (s : State) (t : TeamId) (tid : Nat) : List Ref := s.refsTo (.tile t tid)

/-- A tile's state, empty for a name the team does not hold. -/
def State.tileSt (s : State) (t : TeamId) (tid : Nat) : TileSt :=
  (((s.team? t).bind fun x => x.tile? tid).map (·.st)).getD .empty

/-- The warps whose blocks hold a joint MMA, once its gang has met (R206). -/
def Mma.blocks (m : Mma) : List WarpId :=
  if m.f.gng && m.phase != 0 then m.members.map fun p => { team := m.team, warp := p.1 } else []

/-- The warps whose blocks an owner of references counts as: a block's own and those of every gang that has met in it, or the members
of a joint MMA (R206). -/
def State.blocksOf (s : State) : RefOwner → List WarpId
  | .block w => w :: (s.mmas.filter fun m => m.blocks.contains w).flatMap Mma.blocks
  | .gang id => (s.mmas.filter fun m => m.id == id).flatMap Mma.blocks
  | .msg _ => []

/-- Two owners count as one block: the same, or of one gang (R206). -/
def State.oneBlock (s : State) (a b : RefOwner) : Bool := a == b || (s.blocksOf a).any (s.blocksOf b).contains

/-- A read reference may be taken: ready or draining, and no write reference is held (R183), but by a joint MMA of its own gang
(R206). -/
def State.canRead (s : State) (o : RefOwner) (t : TeamId) (tid : Nat) : Bool :=
  (s.tileSt t tid == .ready || s.tileSt t tid == .draining) &&
  (s.tileRefs t tid).all fun r => !r.write || match r.owner with
    | .gang _ => s.oneBlock o r.owner
    | _ => false

/-- A write reference may be taken, the tile being in one of the states given: no other block holds a reference (R183). -/
def State.canWrite (s : State) (o : RefOwner) (t : TeamId) (tid : Nat) (sts : List TileSt) : Bool :=
  sts.contains (s.tileSt t tid) && (s.tileRefs t tid).all fun r => s.oneBlock o r.owner

/-- A reference taken; it counts as a consumer while the tile is draining, one for each instruction (R184). -/
def State.takeRef (s : State) (o : RefOwner) (t : TeamId) (tid : Nat) (write : Bool) : State :=
  { s with refs := s.refs ++
      [{ owner := o, obj := .tile t tid, write := write, consumer := !write && s.tileSt t tid == .draining }] }

/-- A drained count: each consumer's end lowers it, and 0 empties the tile (R184). -/
def Tile.consume (x : Tile) (n : Nat) : Tile :=
  if x.st != .draining then x
  else if x.cnt ≤ n then { x with st := .empty, cnt := 0 } else { x with cnt := x.cnt - n }

/-- An owner's references released; when it committed or completed, its consumers count (R183, R184). -/
def State.dropRefs (s : State) (o : RefOwner) (committed : Bool) : State :=
  let mine := s.refs.filter fun r => r.owner == o
  let s := { s with refs := s.refs.filter fun r => r.owner != o }
  if !committed then s else
  mine.foldl (fun s r => match r.obj with
    | .tile t tid => if r.consumer then s.setTeam t fun x => x.setTile tid fun y => y.consume 1 else s
    | .region .. => s) s

/-! ### Claims (R174 to R176) -/

/-- The credit meets the oldest pending claims while it covers them (R175). -/
def serveClaims : Nat → List Claim → Nat × List Claim
  | cr, [] => (cr, [])
  | cr, c :: cs =>
    if c.met then let (r, l) := serveClaims cr cs; (r, c :: l)
    else if c.size ≤ cr then let (r, l) := serveClaims (cr - c.size) cs; (r, { c with met := true } :: l)
    else (cr, c :: cs)

/-- Claims served after a change of the credit (R175). -/
def Team.serve (t : Team) : Team :=
  let (c, l) := serveClaims t.credit t.claims
  { t with credit := c, claims := l }

/-! ### Copies (R8, R77, R81, R84) -/

/-- A copy that had begun leaves its tile empty; one that had not begun is dropped (R77, R81). A completed
copy leaves its tile empty also while another copy fills it, which goes on writing (DESIGN CHOICE, log 126). -/
def State.cancelCopy (s : State) (id : Nat) : State :=
  match s.copies.find? fun c => c.id == id with
  | none => s
  | some c =>
    let s := { s with copies := s.copies.filter (fun y => y.id != id)
                      faultQ := s.faultQ.filter fun p => p.of' != .copy id }
    if c.phase == .waiting || c.ovl then s
    else s.setTeam c.warp.team fun t => t.setTile c.dst fun x => { x with st := .empty, cnt := 0 }

/-! ### Barriers (R233 to R239) -/

/-- A phase completes (R233). -/
def Bar.complete (b : Bar) : Bar := { phase := !b.phase, arrived := 0, count := none, pending := 0 }

/-- An arrival; it completes the phase when the count is reached (R235). -/
def Bar.arrive (b : Bar) (warp n : Nat) : Bar :=
  let b' := { b with count := some (b.count.getD n), arrived := b.arrived + 1, pending := b.pending ||| ((1 : Lanes) <<< warp) }
  if b'.arrived == b'.count.getD 0 then b'.complete else b'

/-- A counted arrival withdrawn (R236). -/
def Bar.withdraw (b : Bar) (warp : Nat) : Bar :=
  let a := b.arrived - 1
  { b with arrived := a, pending := b.pending &&& ~~~((1 : Lanes) <<< warp), count := if a == 0 then none else b.count }

/-- The barrier a block's BARSYN waits on. -/
def Run.barsyn? (r : Run) : Option Nat :=
  r.nodes.findSome? fun n => match n.st with
    | .waiting (.barsyn b) => some b
    | _ => none

/-! ### Discarding a block (R77) -/

/-- One warp's block discarded: references, reservations, claims, takes, counted arrivals and its own copies undone. -/
def State.discardOne (s : State) (w : WarpId) : State :=
  match (s.warp? w).bind (·.run) with
  | none => s
  | some r =>
    let s := s.dropRefs (.block w) false
    let free (q : List NEntry) : List NEntry :=
      q.map fun e => if (e.by'.map (·.1)) == some w then { e with by' := none } else e
    let core := ((s.warp? w).map (·.core)).getD 0
    let s := s.setCore core fun c => { c with prev := free c.prev, next := free c.next }
    let s := s.setTeam w.team fun t =>
      let back := (t.claims.filter fun c => c.warp == w.warp && c.met).foldl (fun n c => n + c.size) 0
      { t with credit := t.credit + back, claims := t.claims.filter fun c => c.warp != w.warp }.serve
    let s := match r.counted, r.barsyn? with
      | true, some b => s.setTeam w.team fun t => { t with bars := t.bars.modify b fun x => x.withdraw w.warp }
      | _, _ => s
    let s := ((s.copies.filter fun c => c.warp == w && c.run == r.order && c.pend.isNone).map (·.id)).foldl
      (fun s id => s.cancelCopy id) s
    let s := { s with takes := s.takes.filter fun t => t.warp != w }
    let back (e : StackEnt) : StackEnt := if r.took == some e.key then { e with cp := true } else e
    let (s, ord) := s.newOrder
    s.setWarp w fun x => { x with run := none, phase := .ready, stack := x.stack.map back, order := ord }

/-- The matrix operations a warp's block takes part in. -/
def State.mmasOf (s : State) (w : WarpId) : List Mma :=
  s.mmas.filter fun m => m.team == w.team && m.members.any fun p => p.1 == w.warp

/-- A block discarded; a gang's blocks are discarded together (R205). -/
def State.discard (s : State) (w : WarpId) : State :=
  let ms := s.mmasOf w
  let ids := ms.map (·.id)
  let ws := (w.warp :: ms.flatMap fun m => m.members.map (·.1)).eraseDups
  let s := { (ids.foldl (fun s id => s.dropRefs (.gang id) false) s) with mmas := s.mmas.filter fun x => !ids.contains x.id }
  ws.foldl (fun s p => s.discardOne { team := w.team, warp := p }) s

/-! ### Events (R341) -/

/-- The event queue has room; a full one holds back the source (R341). -/
def Fw.room (f : Fw) : Bool := f.events.length < 4096 && f.back.isEmpty

/-- An event enters the queue of 4,096, or is held back at its source while that is full. -/
def Fw.enter (f : Fw) (e : Evt) : Fw := if f.room then { f with events := f.events ++ [e] } else { f with back := f.back ++ [e] }

/-- An event enters the firmware's queue (R341). -/
def State.event (s : State) (e : Evt) : State := { s with fw := s.fw.enter e }

/-- A source that can wait for room enters its event only then. -/
def State.eventRoom (s : State) : Bool := s.fw.room

/-! ### Raising a fault (R354, R355) -/

/-- The packet of a launch. -/
def Launch.pkt (l : Launch) : PktId := { ctx := l.id.ctx, queue := l.queue, pos := l.pos }

/-- What a warp's fault records of it; EKIND 0, the core. -/
def State.stopOf (s : State) (w : WarpId) (cls cause : Nat) (lanes : Lanes) (va : W64) (payload : List W64) : Stop :=
  let core := ((s.warp? w).map (·.core)).getD 0
  { cls := cls, cause := cause, ctx := w.team.launch.ctx, core := some core, ekind := 0, einst := core
    launch := w.team.launch.num, team := w.team.team, warp := w.warp, lanes := lanes, va := va, payload := payload
    pkt := (s.launch? w.team.launch).map Launch.pkt }

/-- A fault joins those waiting for HALT_RAISE, as an event of the firmware (R341, R356). -/
def State.raise (s : State) (f : Stop) : State :=
  ({ s with raised := s.raised ++ [f] } : State).event (.fault f.ctx f.pkt)

/-- The warp's fault is raised: its block leaves no trace, and it runs no more (R356). -/
def State.faultOne (s : State) (w : WarpId) (f : Stop) : State :=
  ((s.discardOne w).setWarp w fun x => { x with phase := .faulted }).raise f

/-- A warp that exits or faults before a latch completes faults every member waiting there (R204). -/
def State.breakGangs (s : State) (w : WarpId) : State :=
  let hit := s.mmas.filter fun m => m.team == w.team && m.gang.getLsbD w.warp && m.phase == 0
  hit.foldl (fun s m =>
    let s := { s with mmas := s.mmas.filter fun x => x.id != m.id }
    m.members.foldl (fun s p =>
      let v : WarpId := { team := w.team, warp := p.1 }
      if v == w then s else s.faultOne v (s.stopOf v 0x06 0 0 (((s.warp? v).map (·.pc)).getD 0) [m.gang.setWidth 64])) s) s

/-- A context-fatal fault of a warp, and then the gang faults it brings (R204). -/
def State.fault (s : State) (w : WarpId) (f : Stop) : State :=
  let s := (s.raise f).breakGangs w
  (s.discard w).setWarp w fun x => { x with phase := .faulted }

/-- An illegal tile use fault, naming a tile or a Legend index (class 0x05). -/
def State.illegal (s : State) (x : Issue) (id : Nat) (legend : Bool) : State :=
  s.fault x.w (s.stopOf x.w 0x05 0 0 x.run.va [BitVec.ofNat 64 (id + if legend then 256 else 0)])

/-- A gang fault (class 0x06). -/
def State.gangFault (s : State) (x : Issue) : State :=
  s.fault x.w (s.stopOf x.w 0x06 0 0 x.run.va [x.warp.gang.setWidth 64])

/-- A protection fault (class 0x0A) on lanes, with the cause of R263 and its address. -/
def State.protection (s : State) (x : Issue) (cause : Nat) (lanes : Lanes) (va : W64) : State :=
  s.fault x.w (s.stopOf x.w 0x0A cause lanes (va &&& 0x3FFFFFFFFFFFFF) [])

/-- An uncorrectable data fault (class 0x0B): the structure's code, the lanes, the address or offset (R361, R362). -/
def State.dataFault (s : State) (w : WarpId) (va : W64) (code at' : Nat) (lanes : Lanes) : State :=
  s.fault w (s.stopOf w 0x0B 0 lanes va [BitVec.ofNat 64 code, BitVec.ofNat 64 at'])

/-- A page walk that read a poisoned entry: EKIND 7, the walker's die (R355, R362). -/
def State.walkStop (s : State) (w : WarpId) (core : Nat) (va : W64) (pa code : Nat) : Stop :=
  { s.stopOf w 0x0B 0 0 (va &&& 0x3FFFFFFFFFFFFF) [BitVec.ofNat 64 code, BitVec.ofNat 64 pa] with core := none, ekind := 7, einst := dieOf core }

/-- A context has raised a fault whose halt is not over, so that firmware begins nothing more for it (R358). -/
def State.faulty (s : State) (ctx : Nat) : Bool :=
  (s.raised.any fun f => f.ctx == ctx) || s.parts.any fun p => p.guilty.any fun g => g.1 == ctx

/-! ### Rings (R373) -/

/-- An uncorrectable data fault of a unit that works for a context and for no warp: EKIND and EINST, the mark's STRUCT and its address
(R355, R362). -/
def unitStop (ctx ekind einst code pa : Nat) : Stop :=
  { cls := 0x0B, cause := 0, ctx := ctx, core := none, ekind := ekind, einst := einst, launch := 0, team := 0, warp := 0, lanes := 0
    va := 0, payload := [BitVec.ofNat 64 code, BitVec.ofNat 64 pa], pkt := none }

/-- The poison at a place has been raised against a context in the halt under way (log 109). -/
def State.toldOf (s : State) (ctx pa : Nat) : Bool := ((s.ctx? ctx).map fun c => c.told.contains pa).getD false

/-- It is noted. -/
def State.tell (s : State) (ctx pa : Nat) : State := s.setCtx ctx fun c => { c with told := pa :: c.told }

/-- Bytes that a unit reads for a context are corrected (R360), and poison in them is its fault, raised once for a place in a halt (R362;
DESIGN CHOICE, log 109). -/
def State.readFor (s : State) (ctx ekind einst pa n : Nat) : State :=
  match s.sysMark pa n with
  | some code => if s.toldOf ctx pa then s.sysFix pa n else ((s.sysFix pa n).tell ctx pa).raise (unitStop ctx ekind einst code pa)
  | none => s.sysFix pa n

/-- A ring's producer count less its consumer count. -/
def State.ringUsed (s : State) (r : Ring) : Nat :=
  (leNat (s.sysRead r.base 8) + 2 ^ 64 - leNat (s.sysRead (r.base + 8) 8)) % 2 ^ 64

/-- A ring's counts are read by a unit, the lost count only where the ring is full. -/
def State.readCounts (s : State) (ctx ekind einst : Nat) (r : Ring) : State :=
  let s := s.readFor ctx ekind einst r.base 16
  if 2 ^ r.log ≤ s.ringUsed r then s.readFor ctx ekind einst (r.base + 16) 8 else s

/-- A record appended to a ring, its slots of `size` bytes from `head` on: written, then the producer count with a release; on a full
ring it is dropped and counted as lost. -/
def State.ringWrite (s : State) (r : Ring) (head size : Nat) (rec : List W8) : State :=
  if 2 ^ r.log ≤ s.ringUsed r then
    s.sysWrite (r.base + 16) (leBytes 8 (leNat (s.sysRead (r.base + 16) 8) + 1))
  else
    let prod := leNat (s.sysRead r.base 8)
    (s.sysWrite (r.base + head + size * (prod % 2 ^ r.log)) rec).sysWrite r.base (leBytes 8 (prod + 1))

/-- Firmware appends a record to a ring of a context, its slot filled with zeros. -/
def State.ringAppend (s : State) (ctx : Nat) (r : Ring) (size : Nat) (rec : List W8) : State :=
  (s.readCounts ctx 5 0 r).ringWrite r 64 size (rec ++ List.replicate (size - rec.length) 0)

/-- 64-bit words as bytes. -/
def wordsBytes (ws : List W64) : List W8 := ws.flatMap fun w => leBytes 8 w.toNat

/-- A fault-ring record (R266): source, access, address, core and warp; the context's SEQ counts from 1. -/
def State.faultRecord (s : State) (ctx src acc : Nat) (va : W64) (core warp : Nat) : State × Nat :=
  match s.ctx? ctx with
  | none => (s, 0)
  | some c =>
    let seq := c.fseq + 1
    let w0 := src * 2 ^ 62 + ctx * 2 ^ 56 + acc * 2 ^ 54 + va.toNat % 2 ^ 54
    let w1 := seq % 2 ^ 32 * 2 ^ 32 + core * 2 ^ 24 + warp * 2 ^ 16
    ((s.setCtx ctx fun c => { c with fseq := seq }).ringAppend ctx c.fring 16 (leBytes 8 w0 ++ leBytes 8 w1), seq)

/-! ### A recoverable page fault (R264), and the return from it (R267) -/

/-- A warp parks at its block boundary: its block is discarded and a record appended. -/
def State.park (s : State) (w : WarpId) (src acc : Nat) (lanes : Lanes) (va : W64) : State :=
  let s := s.discard w
  let core := ((s.warp? w).map (·.core)).getD 0
  let (s, seq) := s.faultRecord w.team.launch.ctx src acc va core w.warp
  s.setWarp w fun x => { x with phase := .parked seq lanes va }

/-- A parked warp replays from its block boundary. -/
def State.unpark (s : State) (w : WarpId) : State :=
  let (s, ord) := s.newOrder
  s.setWarp w fun x => match x.phase with
    | .parked .. => { x with phase := .ready, order := ord }
    | _ => x

end Sys2Proof.Machine
end

