-- ==== Sys2Proof/Machine/Desc.lean ====
section
/-! DEFINITION. The launch descriptor's fields (R17) and the special registers (R29). -/
namespace Sys2Proof.Machine

/-- Bits [hi:lo] of word `w` of a descriptor or packet body. -/
def field (d : List W64) (w hi lo : Nat) : Nat := (d.getD w 0).toNat / 2 ^ lo % 2 ^ (hi + 1 - lo)

/-- ENTRY, as an address. -/
def Launch.entry (l : Launch) : W64 := BitVec.ofNat 64 (field l.desc 0 48 0 * 32)
/-- CKP. -/
def Launch.ckp (l : Launch) : Bool := field l.desc 1 63 63 == 1
/-- The chain start core, when STV is set. -/
def Launch.start? (l : Launch) : Option Nat := if field l.desc 1 62 62 == 1 then some (field l.desc 1 61 54) else none
/-- DIE. -/
def Launch.die (l : Launch) : Nat := field l.desc 1 53 52
/-- COR. -/
def Launch.cor (l : Launch) : Bool := field l.desc 1 51 51 == 1
/-- PLC: 0 free, 1 die-affine, 2 chain. -/
def Launch.plc (l : Launch) : Nat := field l.desc 1 50 49
/-- Chain placement. -/
def Launch.chain (l : Launch) : Bool := l.plc == 2
/-- NPAR. -/
def Launch.npar (l : Launch) : Nat := field l.desc 1 48 44
/-- PRIO. -/
def Launch.prio (l : Launch) : Nat := field l.desc 1 43 40
/-- The initial row limit. -/
def Launch.rows (l : Launch) : Nat := field l.desc 1 39 32 + 1
/-- Stages. -/
def Launch.stages (l : Launch) : Nat := field l.desc 1 31 29 + 1
/-- Warps of a team. -/
def Launch.warps (l : Launch) : Nat := field l.desc 1 28 24 + 1
/-- Teams. -/
def Launch.teams (l : Launch) : Nat := field l.desc 1 23 0 + 1
/-- Warps in stage `s`. -/
def Launch.stageWarps (l : Launch) (s : Nat) : Nat := field l.desc 2 (6 * s + 5) (6 * s)
/-- TMSK bit `j`. -/
def Launch.tileDecl (l : Launch) (j : Nat) : Bool := field l.desc 3 (32 + j) (32 + j) == 1
/-- CPP. -/
def Launch.pairs (l : Launch) : Nat := field l.desc 3 23 21
/-- ACC. -/
def Launch.accs (l : Launch) : Nat := field l.desc 3 20 17
/-- L1R. -/
def Launch.l1r (l : Launch) : Nat := field l.desc 3 14 10
/-- SPAD, in KiB. -/
def Launch.spad (l : Launch) : Nat := field l.desc 3 9 0
/-- The 16-bit descriptor of tile `tj`. -/
def Launch.tdsc (l : Launch) (j : Nat) : Nat := field l.desc (4 + j / 4) (16 * (j % 4) + 15) (16 * (j % 4))
/-- A tile's offset within the team's scratchpad, and its size, in KiB. -/
def Launch.tileAt (l : Launch) (j : Nat) : Nat × Nat := (l.tdsc j / 16 % 1024, 2 ^ (l.tdsc j % 16))
/-- Parameter word `i`. -/
def Launch.par (l : Launch) (i : Nat) : W32 := BitVec.ofNat 32 (field l.desc (12 + i / 2) (32 * (i % 2) + 31) (32 * (i % 2)))
/-- EST. -/
def Launch.est (l : Launch) : Nat := (l.desc.getD 20 0).toNat

/-- The stage of a warp and its index within it (R13). -/
def Launch.stageOf (l : Launch) (w : Nat) : Nat × Nat :=
  let rec go : Nat → Nat → Nat → Nat × Nat
    | 0, s, r => (s, r)
    | n + 1, s, r => if r < l.stageWarps s then (s, r) else go n (s + 1) (r - l.stageWarps s)
  go 7 0 w

/-- A launch of no descriptor, for a warp that no launch holds. -/
def Launch.none : Launch :=
  { id := { ctx := 0, num := 0 }, queue := 0, pos := 0, since := 0, eval := 0, desc := [], placed := 0, retired := 0, phase := .running, waits := []
    elapsed := 0, used := [], saved := [], saveAt := 0, ver := 0, yielded := [], ends := [], started := [] }

/-- The launch of a warp. -/
def State.launchOf (s : State) (w : WarpId) : Launch := (s.launch? w.team.launch).getD Launch.none

/-- A special register as 64 bits, on a lane (R29). -/
def State.special (s : State) (x : Warp) (am : Lanes) (id : Nat) (lane : Nat) : W64 :=
  let l := s.launchOf x.id
  let n (v : Nat) : W64 := BitVec.ofNat 64 v
  match id with
  | 0 => n lane
  | 1 => n x.id.warp
  | 2 => n x.id.team.team
  | 3 => n (l.stageOf x.id.warp).1
  | 4 => n l.warps
  | 5 => n l.teams
  | 6 => n x.core
  | 7 => n (dieOf x.core)
  | 8 => n x.id.team.launch.ctx
  | 9 => (s.core x.core).cycles
  | 10 => x.fstat.setWidth 64
  | 11 => am.setWidth 64
  | 12 => if l.chain then n x.id.team.team else 0xFFFFFFFF
  | 13 => n (x.id.team.launch.num % 2 ^ 32)
  | 14 => n (l.stageOf x.id.warp).2
  | 15 => n l.stages
  | _ => n (((s.ctx? x.id.team.launch.ctx).map (·.part)).getD 0)

end Sys2Proof.Machine
end

