-- ==== Sys2Proof/Machine/Access.lean ====
section
/-! DEFINITION. What loads, stores and atomics share: the address of each lane (R115 to R118, R289), its checks and
translation at issue (R124, R263, R264), scratchpad ranges and the tiles they touch (R122, R183). -/
namespace Sys2Proof

/-- The bytes of a width. -/
def Width.bytes : Width → Nat
  | .b1 => 1
  | .b2 => 2
  | .b4 => 4
  | .b8 => 8
  | .b16 => 16

end Sys2Proof

namespace Sys2Proof.Machine

/-- A lane's address operand: whole, a 32-bit value zero-extended; a scratchpad offset is taken in 32 bits (R115). -/
def laneBase (spad : Bool) (o : Opnds) (l : Nat) : W64 := if spad then (o.left.val32 l).setWidth 64 else o.left.full l

/-- A lane's address from its operand under an addressing mode (R117): base and offset, the address alone, or base and
index·width, a 32-bit index sign-extended. -/
def laneAddr (spad : Bool) (am : Am) (imm : BitVec 14) (width : Nat) (o : Opnds) (l : Nat) : W64 :=
  let b := laneBase spad o l
  let a := match am with
    | .base => b + imm.signExtend 64
    | .postInc | .modulo => b
    | .indexed => b + o.right.to64 true l * BitVec.ofNat 64 width
  if spad then (a.setWidth 32).setWidth 64 else a

/-- The address AM 01 and AM 10 deliver for an address operand (R117, R118), with the modulo registers of the warp. -/
def nextAddr (am : Am) (imm : BitVec 14) (m : List (W32 × W32)) (a : W64) : W64 :=
  match am with
  | .modulo =>
    let (base, len) := m.getD (imm.extractLsb' 11 3).toNat (0, 0)
    let d := (imm.extractLsb' 0 11).toInt
    if len == 0 then a + BitVec.ofInt 64 d
    else BitVec.ofInt 64 ((base.toNat : Int) + ((a.toNat : Int) - base.toNat + d).fmod len.toNat)
  | _ => a + imm.signExtend 64

/-- One lane's access, checked and translated. -/
structure LaneAcc where
  lane : Nat
  va : W64
  pa : Nat
  nc : Bool
  deriving DecidableEq, Repr, Inhabited

/-- What checking the lanes of one instruction found: the accesses, the lowest page fault and the lowest protection
fault, by cause and lane (R124), and the first walk that met poison (R362). -/
structure Checked where
  accs : List LaneAcc
  absent : Option (Nat × W64)
  bad : Option (Nat × Nat × W64)
  walk : Option (W64 × Nat × Nat)
  deriving DecidableEq, Repr, Inhabited

/-- The access a check is made for (R263, R266): 0 a read, 1 a write, 2 an atomic; `hostOk` for an atomic the host
carries (R256). -/
def State.checkLane (s : State) (core ctx acc width : Nat) (hostOk : Bool) (c : Checked) (la : Nat × W64) : State × Checked :=
  let bad (k : Nat) : Checked := { c with bad := c.bad.or (some (k, la.1, la.2)) }
  if la.2.toNat % width != 0 then (s, bad 5)
  else
    let (s, r) := s.translate (some core) ctx la.2
    match r with
    | .bad k => (s, bad k)
    | .poisoned pa code => (s, { c with walk := c.walk.or (some (la.2, pa, code)) })
    | .absent => (s, { c with absent := c.absent.or (some la) })
    | .page pa w _ nc =>
      if acc != 0 && !w then (s, bad 3)
      else if acc == 2 && (isHost pa || isPeer pa) && !hostOk then (s, bad 7)
      else (s, { c with accs := c.accs ++ [{ lane := la.1, va := la.2, pa := pa, nc := nc }] })

/-- Every lane of an instruction checked, in ascending order. -/
def State.checkLanes (s : State) (core ctx acc width : Nat) (hostOk : Bool) (ls : List (Nat × W64)) : State × Checked :=
  ls.foldl (fun p la => p.1.checkLane core ctx acc width hostOk p.2 la) (s, { accs := [], absent := none, bad := none, walk := none })

/-- The faults of a check, or `k` on the accesses: a protection fault before a poisoned walk, and that before a page fault;
`uni` for an access that concerns no lane (R124, R362). -/
def State.afterCheck (s : State) (x : Issue) (uni : Bool) (acc : Nat) (c : Checked) (k : List LaneAcc → State) : State :=
  match c.bad, c.walk, c.absent with
  | some (cause, l, va), _, _ => s.protection x cause (if uni then 0 else (1 : Lanes) <<< l) va
  | none, some (va, pa, code), _ => s.fault x.w (s.walkStop x.w x.warp.core va pa code)
  | none, none, some (l, va) => s.park x.w 1 acc (if uni then 0 else (1 : Lanes) <<< l) va
  | none, none, none => k c.accs

/-- A memory access of the issuing instruction: its lanes checked, and the access where none fails (R124). -/
def State.access (s : State) (x : Issue) (i : Instr) (acc width : Nat) (hostOk : Bool) (ls : List (Nat × W64))
    (k : State → List LaneAcc → State) : State :=
  let (s, c) := s.checkLanes x.warp.core x.w.team.launch.ctx acc width hostOk ls
  s.afterCheck x i.uniform acc c (k s)

/-! ### The scratchpad (R122) -/

/-- The scratchpad tiles whose range `n` bytes at an offset touch. -/
def Team.tilesAt (t : Team) (off n : Nat) : List Nat :=
  (t.tiles.filter fun x => x.tid < 32 && off < x.off + x.size && x.off < off + n).map (·.tid)

/-- The scratchpad tiles a set of offsets touches, each once. -/
def Team.tilesOf (t : Team) (offs : List Nat) (n : Nat) : List Nat := (offs.flatMap fun o => t.tilesAt o n).eraseDups

/-- The lowest lane whose offset is misaligned or lies beyond SPAD, with its cause (R122, R124);
of an offset that is both, cause 0x05 (DESIGN CHOICE, log 129). -/
def spadBad (size width : Nat) (ls : List (Nat × W64)) : Option (Nat × Nat × W64) :=
  ls.findSome? fun la =>
    if la.2.toNat % width != 0 then some (5, la.1, la.2)
    else if size < la.2.toNat + width then some (6, la.1, la.2) else none

/-- A scratchpad access of the issuing instruction, on the tiles it touches, once each grants its reference (R183):
`write` for STS, which waits for tiles empty or ready, else for LDS, which waits for tiles ready or draining; `uni` for
an access made once for the warp. The protection fault of one lane comes before the illegal tile use of another (DESIGN CHOICE, log 129). -/
def State.spadAccess (s : State) (x : Issue) (uni write : Bool) (width : Nat) (ls : List (Nat × W64)) (k : State → State) :
    State :=
  match spadBad ((s.launchOf x.w).spad * 1024) width ls with
  | some (cause, l, va) => s.protection x cause (if uni then 0 else (1 : Lanes) <<< l) va
  | none =>
    let ts := ((s.team? x.w.team).map fun t => t.tilesOf (ls.map fun la => la.2.toNat) width).getD []
    match ts.find? fun tid => !(((s.team? x.w.team).map fun t => t.mayName x.w.warp tid).getD false) with
    | some tid => s.illegal x tid false
    | none =>
      let o := RefOwner.block x.w
      let ready := ts.all fun tid =>
        if write then s.canWrite o x.w.team tid [.empty, .ready] else s.canRead o x.w.team tid
      if ready then k (ts.foldl (fun s tid => s.takeRef o x.w.team tid write) s) else s.wait x .tiles

/-- `n` bytes of a team's scratchpad. -/
def State.spadRead (s : State) (t : TeamId) (off n : Nat) : List W8 :=
  rdBytes (((s.team? t).map (·.spad)).getD []) off n

/-- Bytes written into a team's scratchpad; the words replaced whole lose their errors (R362). -/
def State.spadWrite (s : State) (t : TeamId) (off : Nat) (bs : List W8) : State :=
  (s.clearErrs (spadWhole t off bs.length)).setTeam t fun x => { x with spad := wrBytes x.spad off bs }

end Sys2Proof.Machine
end

