-- ==== Sys2Proof/Machine/IntVal.lean ====
section
/-! DEFINITION. The values of the integer instructions (R102 to R114), on operands of TY's width held in 64 bits. -/
namespace Sys2Proof

/-- The width of TY in bits (R86). -/
def Ty.bitsW (t : Ty) : Nat := if t.wide then 64 else 32

/-- A value as the exact integer of TY (R102). -/
def Ty.int (t : Ty) (x : W64) : Int :=
  match t with
  | .i32 => (x.setWidth 32).toInt
  | .i64 => x.toInt
  | .n64 => x.toNat
  | _ => (x.setWidth 32).toNat

/-- The lowest value of TY. -/
def Ty.lo (t : Ty) : Int := if t.signed then -(2 ^ (t.bitsW - 1) : Nat) else 0
/-- The highest value of TY. -/
def Ty.hi (t : Ty) : Int := if t.signed then (2 ^ (t.bitsW - 1) - 1 : Nat) else (2 ^ t.bitsW - 1 : Nat)

/-- An integer wrapped into TY's width (R102). -/
def Ty.wrap (t : Ty) (x : Int) : W64 :=
  if t.wide then BitVec.ofInt 64 x else (BitVec.ofInt 32 x).setWidth 64

/-- fit of R102: clamp to TY's range under SAT, else wrap. -/
def Ty.fit (t : Ty) (sat : Bool) (x : Int) : W64 := t.wrap (if sat then clampInt t.lo t.hi x else x)

/-- A 32-bit truth value (R110). -/
def boolW (b : Bool) : W64 := if b then 1 else 0

def ivAdd (t : Ty) (sat : Bool) (a b : W64) : W64 := t.fit sat (t.int a + t.int b)
def ivSub (t : Ty) (sat : Bool) (a b : W64) : W64 := t.fit sat (t.int a - t.int b)
def ivMul (t : Ty) (sat : Bool) (a b : W64) : W64 := t.fit sat (t.int a * t.int b)
def ivMad (t : Ty) (sat : Bool) (a b c : W64) : W64 := t.fit sat (t.int a * t.int b + t.int c)
/-- The high half of the product (R103). -/
def ivMulh (t : Ty) (a b : W64) : W64 := t.wrap ((t.int a * t.int b).fdiv (2 ^ t.bitsW : Nat))

/-- The quotient truncated toward zero, with the corners of R104. -/
def ivDiv (t : Ty) (sat : Bool) (a b : W64) : W64 :=
  if t.int b == 0 then t.wrap (-1) else t.fit sat ((t.int a).tdiv (t.int b))
/-- The remainder (R104). -/
def ivRem (t : Ty) (a b : W64) : W64 :=
  if t.int b == 0 then t.wrap (t.int a) else t.wrap ((t.int a).tmod (t.int b))

def ivMin (t : Ty) (a b : W64) : W64 := if t.int a ≤ t.int b then a else b
def ivMax (t : Ty) (a b : W64) : W64 := if t.int a ≤ t.int b then b else a
def ivAbs (t : Ty) (sat : Bool) (a : W64) : W64 := t.fit sat ((t.int a).natAbs : Int)
def ivNeg (t : Ty) (sat : Bool) (a : W64) : W64 := t.fit sat (-t.int a)

/-- A bitwise result held to TY's width (R106). -/
def Ty.cut (t : Ty) (x : W64) : W64 := if t.wide then x else (x.setWidth 32).setWidth 64

/-- SHL; under SAT a product outside the range is clamped, which is R107's test of the bits shifted out. -/
def ivShl (t : Ty) (sat : Bool) (a b : W64) : W64 := t.fit sat (t.int a * (2 ^ min b.toNat t.bitsW : Nat))
def ivShr (t : Ty) (a b : W64) : W64 := if t.bitsW ≤ b.toNat then 0 else (t.cut a) >>> b.toNat
/-- SAR, with copies of the top bit whatever TY's signedness (R107). -/
def ivSar (t : Ty) (a b : W64) : W64 :=
  let n := min b.toNat (t.bitsW - 1)
  if t.wide then a.sshiftRight n else ((a.setWidth 32).sshiftRight n).setWidth 64
def ivRol (t : Ty) (a b : W64) : W64 :=
  let n := b.toNat % t.bitsW
  if t.wide then a.rotateLeft n else ((a.setWidth 32).rotateLeft n).setWidth 64

/-- Zero bits above the highest one bit (R108). -/
def ivClz (t : Ty) (a : W64) : W64 :=
  let v := (t.cut a).toNat
  BitVec.ofNat 64 (if v == 0 then t.bitsW else t.bitsW - 1 - Nat.log2 v)
def ivPopc (t : Ty) (a : W64) : W64 :=
  BitVec.ofNat 64 (((List.range 64).filter fun k => (t.cut a).getLsbD k).length)
def ivBrev (t : Ty) (a : W64) : W64 :=
  BitVec.ofNat 64 ((List.range t.bitsW).foldl (fun s k => if a.getLsbD k then s + 2 ^ (t.bitsW - 1 - k) else s) 0)

/-- BFX with its control word (R109). -/
def ivBfx (t : Ty) (a ctl : W64) : W64 :=
  let pos := (ctl.extractLsb' 0 8).toNat
  let len := min (ctl.extractLsb' 8 8).toNat t.bitsW
  let f := ((t.cut a).toNat >>> pos) % 2 ^ len
  if len == 0 then 0
  else if t.signed && 2 ^ (len - 1) ≤ f then t.wrap ((f : Int) - (2 ^ len : Nat)) else BitVec.ofNat 64 f

/-- BFI with its control word (R109). -/
def ivBfi (t : Ty) (a b ctl : W64) : W64 :=
  let pos := (ctl.extractLsb' 0 8).toNat
  let len := min (ctl.extractLsb' 8 8).toNat t.bitsW
  BitVec.ofNat 64 ((List.range t.bitsW).foldl (fun s k =>
    if (if pos ≤ k && k < pos + len then b.getLsbD (k - pos) else a.getLsbD k) then s + 2 ^ k else s) 0)

/-- The condition of CMP (R110). -/
def Cond.holds (c : Cond) (a b : Int) : Bool :=
  match c with
  | .eq => a == b
  | .ne => a != b
  | .lt => a < b
  | .le => a ≤ b
  | .gt => b < a
  | .ge => b ≤ a

def ivCmp (c : Cond) (t : Ty) (a b : W64) : W64 := boolW (c.holds (t.int a) (t.int b))
def ivLea (t : Ty) (s : BitVec 3) (a b : W64) : W64 := t.fit false (t.int a + t.int b * (2 ^ s.toNat : Nat))

/-- PK2 (R112). -/
def ivPk2 (t : Ty) (a b : W64) : W64 :=
  if t.wide then b.setWidth 32 ++ a.setWidth 32 else ((b.setWidth 16 ++ a.setWidth 16 : W32)).setWidth 64

/-- EXH: the high word of a widened to 64 bits, or bits [31:16] extended (R112). -/
def ivExh (half : Bool) (t : Ty) (a64 : W64) : W64 :=
  if half then
    (if t.signed then ((a64.extractLsb' 16 16).signExtend 32) else ((a64.extractLsb' 16 16).setWidth 32)).setWidth 64
  else (a64.extractLsb' 32 32).setWidth 64

/-- One half of HOP (R113). -/
def hopHalf (signed : Bool) (op : HopOp) (sat : Bool) (x y : W16) : W16 :=
  let v (w : W16) : Int := if signed then w.toInt else w.toNat
  let lo : Int := if signed then -32768 else 0
  let hi : Int := if signed then 32767 else 65535
  let fit (i : Int) : W16 := BitVec.ofInt 16 (if sat then clampInt lo hi i else i)
  match op with
  | .add => fit (v x + v y)
  | .sub => fit (v x - v y)
  | .min => if v x ≤ v y then x else y
  | .max => if v x ≤ v y then y else x
  | .absd => BitVec.ofNat 16 (v x - v y).natAbs

/-- A value of two halves from a function of each half. -/
def halves (f : W16 → W16 → W16) (a b : W64) : W64 :=
  ((f (a.extractLsb' 16 16) (b.extractLsb' 16 16) ++ f (a.extractLsb' 0 16) (b.extractLsb' 0 16) : W32)).setWidth 64

def ivHop (signed : Bool) (op : HopOp) (sat : Bool) (a b : W64) : W64 := halves (hopHalf signed op sat) a b

/-- DP4: four byte products added to c (R114). -/
def ivDp4 (ls rs sat : Bool) (a b c : W64) : W64 :=
  let ext (s : Bool) (x : W64) (i : Nat) : Int :=
    let v : W8 := x.extractLsb' (8 * i) 8
    if s then v.toInt else v.toNat
  Ty.i32.fit sat ((List.range 4).foldl (fun s i => s + ext ls a i * ext rs b i) (Ty.i32.int c))

end Sys2Proof
end

