-- ==== Sys2Proof/Machine/Trans.lean ====
section
/-! DEFINITION. FTRN (R158): the six transcendental functions to 400 fractional bits, the 16-bit results rounded to nearest
even from them (log 4), and the FP32 results free within the bound. -/
namespace Sys2Proof

/-- The fractional bits of the working precision. -/
def tp : Nat := 400

/-- x · y of fixed-point numbers of `tp` fractional bits. -/
def fxMul (x y : Nat) : Nat := x * y / 2 ^ tp

/-- Σ x^(2i+1) / (2i+1): the inverse hyperbolic tangent, term by term. -/
def fxAtanh (x2 : Nat) : Nat → Nat → Nat → Nat
  | 0, _, _ => 0
  | fuel + 1, t, i => if t == 0 then 0 else t / (2 * i + 1) + fxAtanh x2 fuel (fxMul t x2) (i + 1)

/-- ln of a ratio n / d between 1 and 2, fixed-point. -/
def fxLn (n d : Nat) : Nat :=
  let z := (n - d) * 2 ^ tp / (n + d)
  2 * fxAtanh (fxMul z z) 300 z 0

/-- ln 2, fixed-point. -/
def fxLn2 : Nat := fxLn 2 1

/-- Σ x^i / i!, fixed-point. -/
def fxExp (x : Nat) : Nat → Nat → Nat → Nat
  | 0, _, _ => 0
  | fuel + 1, t, i => if t == 0 then 0 else t + fxExp x fuel (fxMul t x / (i + 1)) (i + 1)

/-- The first `k` terms of x - x^3/3! + x^5/5! ..., fixed-point, for x from 0 to π/2. -/
def fxSinTerms (x2 : Nat) : Nat → Nat → Nat → Int
  | 0, _, _ => 0
  | fuel + 1, t, i =>
    if t == 0 then 0 else (t : Int) - fxSinTerms x2 fuel (fxMul t x2 / ((2 * i + 2) * (2 * i + 3))) (i + 1)

/-- arctan (1 / n) by its series, fixed-point. -/
def fxAtanInv (n2 : Nat) : Nat → Nat → Nat → Int
  | 0, _, _ => 0
  | fuel + 1, t, i => if t == 0 then 0 else (t / (2 * i + 1) : Nat) - fxAtanInv n2 fuel (t / n2) (i + 1)

/-- 2π, fixed-point (Machin's formula). -/
def fxTwoPi : Nat :=
  (8 * (4 * fxAtanInv 25 400 (2 ^ tp / 5) 0 - fxAtanInv (239 * 239) 400 (2 ^ tp / 239) 0)).toNat

/-- floor(m · 2^e · 2^tp), for a finite magnitude. -/
def fxOf (m : Nat) (e : Int) : Nat :=
  let s := e + tp
  if 0 ≤ s then m * 2 ^ s.toNat else m / 2 ^ (-s).toNat

/-- 2^x for x = n + f with a fixed-point fraction f: the pair (mantissa of `tp` fractional bits, n). -/
def fxExp2 (neg : Bool) (x : Nat) : Nat × Int :=
  let i : Int := if neg then -(x : Int) else x
  let n := i.fdiv (2 ^ tp : Nat)
  let f := (i.fmod (2 ^ tp : Nat)).toNat
  (fxExp (fxMul f fxLn2) 200 (2 ^ tp) 0, n)

/-- e^x. -/
def fxExpE (neg : Bool) (x : Nat) : Nat × Int := fxExp2 neg (x * 2 ^ tp / fxLn2)

/-- A magnitude held down to 2^10, where every function has reached its limit in every format. -/
def clampMag (m : Nat) (e : Int) : Nat × Int :=
  if m != 0 && 10 ≤ (Nat.log2 m : Int) + e then (1, 10) else (m, e)

/-- What FTRN's exact value is: one the machine gives exactly with its flags, or an irrational one near n / d · 2^e. -/
inductive TrnV where
  | exact (x : Ex) (f : Flags)
  | near (neg : Bool) (n d : Nat) (e : Int)
  deriving DecidableEq, Repr, Inhabited

/-- 2^a (R158); of a whole number it is exact (log 97). -/
def trnExp2 : Fp → TrnV
  | .nan => .exact .nan 0
  | .inf n => .exact (if n then .rat false 0 1 0 else .inf false) 0
  | .fin n m e =>
    let (m, e) := clampMag m e
    let whole := m == 0 || 0 ≤ e || m % 2 ^ (-e).toNat == 0
    if whole then
      let i : Int := if 0 ≤ e then (m * 2 ^ e.toNat : Nat) else (m / 2 ^ (-e).toNat : Nat)
      .exact (.rat false 1 1 (if n then -i else i)) 0
    else
      let (r, k) := fxExp2 n (fxOf m e)
      .near false r 1 (k - tp)

/-- log₂ a (R158). -/
def trnLog2 : Fp → TrnV
  | .nan => .exact .nan 0
  | .inf n => if n then .exact .nan .nv else .exact (.inf false) 0
  | .fin n m e =>
    if m == 0 then .exact (.inf true) .dz
    else if n then .exact .nan .nv
    else
      let k := Nat.log2 m
      let i : Int := k + e
      if m == 2 ^ k then .exact (.rat (i < 0) i.natAbs 1 0) 0
      else
        let fr := fxLn m (2 ^ k) * 2 ^ tp / fxLn2
        let v : Int := i * (2 ^ tp : Nat) + fr
        .near (v < 0) v.natAbs 1 (-(tp : Int))

/-- sin of `t` turns for t = x / 2^tp from 0 to 1/4, fixed-point. -/
def fxSinTurn (x : Nat) : Nat :=
  let r := fxMul x fxTwoPi
  (fxSinTerms (fxMul r r) 200 r 0).toNat

/-- sin(2πa), with the turn already reduced to x / 2^tp below 1: its sign and magnitude. -/
def fxSin (x : Nat) : Bool × Nat :=
  let half := 2 ^ (tp - 1)
  let y := x % half
  let q := 2 ^ (tp - 2)
  (half ≤ x, fxSinTurn (if y ≤ q then y else half - y))

/-- The fractional turn of a finite value, when it is exact in `tp` bits. -/
def turnOf (n : Bool) (m : Nat) (e : Int) : Nat :=
  if 0 ≤ e then 0
  else
    let f := m % 2 ^ (-e).toNat
    let x := f * 2 ^ tp / 2 ^ (-e).toNat
    if n && x != 0 then 2 ^ tp - x else x

/-- sin(2πa) or, a quarter turn on, cos(2πa) (R158). -/
def trnSin (cos : Bool) : Fp → TrnV
  | .nan => .exact .nan 0
  | .inf _ => .exact .nan .nv
  | .fin n m e =>
    let q := 2 ^ (tp - 2)
    let x0 := turnOf n m e
    if !cos && m == 0 then .exact (.rat n 0 1 0) 0
    else
      let x := if cos then (x0 + q) % 2 ^ tp else x0
      if x % q == 0 then
        .exact (match x / q with
          | 1 => .rat false 1 1 0
          | 3 => .rat true 1 1 0
          | _ => .rat false 0 1 0) 0
      else
        let (s, r) := fxSin x
        .near s r 1 (-(tp : Int))

/-- tanh a (R158), by (1 - t) / (1 + t) with t = e^(-2|a|), which is never 0: the value lies below 1 however large a is. -/
def trnTanh : Fp → TrnV
  | .nan => .exact .nan 0
  | .inf n => .exact (.rat n 1 1 0) 0
  | .fin n m e =>
    if m == 0 then .exact (.rat n 0 1 0) 0
    else
      let (m, e) := clampMag m e
      let (r, k) := fxExpE true (fxOf m (e + 1))
      let t := max 1 (if 0 ≤ k then r * 2 ^ k.toNat else r / 2 ^ (-k).toNat)
      .near n (2 ^ tp - t) (2 ^ tp + t) 0

/-- 1 / (1 + e^-a) (R158). -/
def trnSigm : Fp → TrnV
  | .nan => .exact .nan 0
  | .inf n => .exact (if n then .rat false 0 1 0 else .rat false 1 1 0) 0
  | .fin n m e =>
    if m == 0 then .exact (.rat false 1 1 (-1)) 0
    else
      let (m, e) := clampMag m e
      let (r, k) := fxExpE (!n) (fxOf m e)
      -- e^-a = r · 2^(k - tp)
      let s := k - tp
      if 0 ≤ s then .near false 1 (1 + r * 2 ^ s.toNat) 0
      else .near false (2 ^ (-s).toNat) (2 ^ (-s).toNat + r) 0

/-- The function FUNC selects (R158). -/
def trnV : Trn → Fp → TrnV
  | .exp2 => trnExp2
  | .log2 => trnLog2
  | .sin2pi => trnSin false
  | .cos2pi => trnSin true
  | .tanh => trnTanh
  | .sigm => trnSigm

/-- |c - x| ≤ b · 2^q for the exact x = n / d · 2^e, all times d · 2^k to be whole. -/
def withinBound (neg : Bool) (n d : Nat) (e : Int) (cn : Bool) (cm : Nat) (ce : Int) (b : Nat) (q : Int) : Bool :=
  let k := min (min e ce) q
  let x : Int := (n * 2 ^ (e - k).toNat : Nat)
  let c : Int := (cm * d * 2 ^ (ce - k).toNat : Nat)
  ((if neg then -x else x) - (if cn then -c else c)).natAbs ≤ b * d * 2 ^ (q - k).toNat

/-- The FP32 bound of a function at an exact value: b · 2^q (R158). -/
def trnBound (fn : Trn) (n d : Nat) (e : Int) : Nat × Int :=
  let u := floorLog2 n d + e
  let ulp := (if u < Fmt.f32.emin then Fmt.f32.emin else u) - 23
  match fn with
  | .exp2 => (1, ulp)
  | .log2 => if ulp + 1 < -24 then (1, -24) else (2, ulp)
  | .sin2pi | .cos2pi => (1, -23)
  | .tanh | .sigm => (2, ulp)

/-- FTRN's result and flags in a format. In FP32 the free value of the configuration counts where it is finite, within the bound and,
if it is a zero, of the exact value's sign (R134); the flags are those of the exact value (R158, R142). -/
def ftrn (fn : Trn) (f : Fmt) (bits : Nat) : Nat × Flags :=
  match trnV fn (f.decode bits) with
  | .exact x fl => let (r, g) := f.round .rne false x; (r, fl ||| g)
  | .near neg 0 _ _ => (f.signBit neg, .nx ||| .uf)
  | .near neg n d e =>
    let (r, g) := f.round .rne false (.rat neg n d e)
    let (_, _, _, tiny) := f.roundMag .rne neg n d e
    let fl := g ||| .nx ||| .when tiny .uf
    if f == .f32 && r % 2 ^ 31 != Fmt.f32.infBits then
      let free := (Config.ftrn fn (BitVec.ofNat 32 bits)).toNat
      match f.decode free with
      | .fin cn cm ce =>
        let (b, q) := trnBound fn n d e
        if withinBound neg n d e cn cm ce b q && (cm != 0 || cn == neg) then (free, fl) else (r, fl)
      | _ => (r, fl)
    else (r, fl)

end Sys2Proof
end

