-- ==== Sys2Proof/Machine/FloatVal.lean ====
section
/-! DEFINITION. The values and flags of the float, quantisation and cross-lane instructions (R149 to R170) and of the
combining operations of the scans (R222, R225). -/
namespace Sys2Proof

/-- A result with the flags it raises. -/
abbrev FRes := W64 × Flags

/-- The float layout of TY. -/
def Ty.fmt : Ty → Fmt
  | .f16 => .f16
  | .bf16 => .bf16
  | _ => .f32

/-- The bits of a float value of TY in a token (R137). -/
def Ty.fbits (t : Ty) (x : W64) : Nat := if t == .f32 then (x.setWidth 32).toNat else (x.setWidth 16).toNat

/-- The layout of a source subformat. -/
def Sub.fmt : Sub → Ty → Fmt
  | .asTy, t => t.fmt
  | .bf16, _ => .bf16
  | .f16, _ => .f16
  | .e4m3, _ => .e4m3

/-- widen of R143: the bits in the destination format of a source subformat's value. -/
def widenBits (sub dst : Fmt) (bits : Nat) : Nat :=
  match sub.decode bits with
  | .nan => dst.canonNaN
  | v => (dst.round .rne false v.ex).1

/-- An operand of a float instruction as bits of TY (R151). -/
def FloatF.opnd (f : FloatF) (t : Token) (l : Nat) : Nat :=
  match f.sub with
  | .asTy => f.ty.fbits (t.val l)
  | .e4m3 => widenBits .e4m3 f.ty.fmt ((t.val l).setWidth 8).toNat
  | s => widenBits (s.fmt f.ty) f.ty.fmt ((t.val l).setWidth 16).toNat

/-- A float immediate as bits of TY (R150). -/
def fimm (t : Ty) (v : BitVec 24) : Nat := if t == .f32 then v.toNat * 256 else v.toNat % 65536

/-- The right operand: its slot, widened, or IMM24 (R150). -/
def FloatF.bBits (f : FloatF) (o : Opnds) (l : Nat) : Nat :=
  match f.imm with
  | some v => fimm f.ty v
  | none => f.opnd o.right l

/-- A rounded result in a token, 16-bit results in bits [15:0] (R137). -/
def fres (r : Nat × Flags) : FRes := (BitVec.ofNat 64 r.1, r.2)

/-- Round an exact result with the flags of the operation. -/
def FloatF.out (f : FloatF) (x : Ex × Flags) : FRes :=
  let (r, g) := f.ty.fmt.round f.rm f.sat x.1
  (BitVec.ofNat 64 r, x.2 ||| g)

def fvAdd (f : FloatF) (a b : Nat) : FRes := f.out (fpAdd f.rm (f.ty.fmt.decode a) (f.ty.fmt.decode b))
def fvSub (f : FloatF) (a b : Nat) : FRes := f.out (fpAdd f.rm (f.ty.fmt.decode a) (f.ty.fmt.decode b).neg)
def fvMul (f : FloatF) (a b : Nat) : FRes := f.out (fpMul (f.ty.fmt.decode a) (f.ty.fmt.decode b))
def fvDiv (f : FloatF) (a b : Nat) : FRes := f.out (fpDiv (f.ty.fmt.decode a) (f.ty.fmt.decode b))
def fvRcp (f : FloatF) (a : Nat) : FRes := f.out (fpRcp (f.ty.fmt.decode a))
def fvRsq (f : FloatF) (a : Nat) : FRes := f.out (fpRsq (f.ty.fmt.decode a))

/-- FFMA with the signs FUNC selects (R153). -/
def fvFma (f : FloatF) (op : FmaOp) (a b c : Nat) : FRes :=
  let v (x : Nat) := f.ty.fmt.decode x
  let negP := op == .neg || op == .negsub
  let c' := if op == .sub || op == .negsub then (v c).neg else v c
  f.out (fpFma f.rm negP (v a) (v b) c')

/-- FMIN or FMAX on bits of a format (R154). -/
def minMaxBits (fmt : Fmt) (max nan : Bool) (a b : Nat) : Nat :=
  match fmt.decode a, fmt.decode b with
  | .nan, .nan => fmt.canonNaN
  | .nan, _ => if nan then fmt.canonNaN else b
  | _, .nan => if nan then fmt.canonNaN else a
  | x, y => if max then (if fpBelow x y then b else a) else (if fpBelow y x then b else a)

def fvMin (f : FloatF) (nan : Bool) (a b : Nat) : FRes := (BitVec.ofNat 64 (minMaxBits f.ty.fmt false nan a b), 0)
def fvMax (f : FloatF) (nan : Bool) (a b : Nat) : FRes := (BitVec.ofNat 64 (minMaxBits f.ty.fmt true nan a b), 0)

/-- The sign bit of FSGN's right operand as it is encoded, before any widening of a NaN (R155, log 7). -/
def FloatF.bSign (f : FloatF) (o : Opnds) (l : Nat) : Bool :=
  match f.imm with
  | some v => (fimm f.ty v).testBit f.ty.fmt.magBits
  | none => (o.right.val l).getLsbD (f.sub.fmt f.ty).magBits

/-- FSGN (R155): a NaN a gives the canonical NaN. -/
def fvSgn (f : FloatF) (op : SgnOp) (a : Nat) (sb : Bool) : FRes :=
  let fmt := f.ty.fmt
  let mag := a % 2 ^ fmt.magBits
  let sa := a.testBit fmt.magBits
  let s := match op with
    | .copy => sb
    | .ncopy => !sb
    | .xor => sa != sb
    | .abs => false
    | .neg => !sa
  if fmt.decode a == .nan then (BitVec.ofNat 64 fmt.canonNaN, 0)
  else (BitVec.ofNat 64 (fmt.signBit s + mag), 0)

/-- FCMP (R156). -/
def fvCmp (c : FCond) (fmt : Fmt) (a b : Nat) : FRes :=
  let x := fmt.decode a
  let y := fmt.decode b
  let uo := x == .nan || y == .nan
  let r := match c with
    | .eq => !uo && fpEq x y
    | .ne => uo || !fpEq x y
    | .lt => fpLt x y
    | .le => !uo && !fpLt y x
    | .gt => fpLt y x
    | .ge => !uo && !fpLt x y
    | .uo => uo
    | .ord => !uo
  let ordered := match c with
    | .lt | .le | .gt | .ge => true
    | _ => false
  (boolW r, .when (uo && ordered) .nv)

/-- FSCL: a · 2^n rounded once (R159). -/
def fvScl (f : FloatF) (a : Nat) (n : Int) : FRes :=
  match f.ty.fmt.decode a with
  | .fin s m e => f.out (.rat s m 1 (e + clampExp n), 0)
  | v => f.out (v.ex, 0)

/-- The layout of a float format code of CVT (R161). -/
def FmtCode.fmt : FmtCode → Fmt
  | .f16 => .f16
  | .bf16 => .bf16
  | .e4m3 => .e4m3
  | .e5m2 => .e5m2
  | _ => .f32

/-- The bits of the container a format code reads (R161). -/
def FmtCode.width : FmtCode → Nat
  | .f16 | .bf16 => 16
  | .e4m3 | .e5m2 | .i8 => 8
  | _ => 32

/-- The class word of R160. -/
def classWord (fmt : Fmt) (bits : Nat) : Nat :=
  match fmt.decode bits with
  | .nan => 256
  | .inf n => if n then 1 else 128
  | .fin n m _ =>
    if m == 0 then (if n then 8 else 16)
    else if m < 2 ^ fmt.fbits then (if n then 4 else 32)
    else if n then 2 else 64

/-- FCLS (R160). -/
def fvCls (src : FmtCode) (mask : Option (BitVec 24)) (x : W64) : W64 :=
  let c := classWord src.fmt (x.toNat % 2 ^ src.width)
  match mask with
  | some m => boolW (c &&& (m.toNat % 512) != 0)
  | none => BitVec.ofNat 64 c

/-- A float rounded to an integral value of its own format (R161). -/
def fvIntegral (fmt : Fmt) (rm : Rm) (sat : Bool) : Fp → Nat × Flags
  | .fin n m e =>
    let (w, nx) := roundAt rm n m 1 e 0
    let (r, g) := fmt.round .rz sat (.rat n w 1 0)
    (r, g ||| .when nx .nx)
  | v => fmt.round rm sat v.ex

/-- CVT on an operand of TY's width (R161; a negative INT8 to an unsigned TY clamps, log 96). -/
def fvCvt (src dst : FmtCode) (f : FloatF) (x : W64) : FRes :=
  let srcInt : Option Int := match src with
    | .i8 => some (x.setWidth 8 : W8).toInt
    | .int => some (f.ty.int x)
    | _ => none
  let v : Fp := match srcInt with
    | some i => intFp i
    | none => src.fmt.decode (x.toNat % 2 ^ src.width)
  match dst with
  | .i8 | .int =>
    let (lo, hi) : Int × Int := if dst == .i8 then (-128, 127) else (f.ty.lo, f.ty.hi)
    let (i, fl) := match srcInt with
      | some i => let c := clampInt lo hi i; (c, Flags.when (c != i) .nv)
      | none => fpToInt f.rm lo hi v
    (if dst == .i8 then BitVec.ofNat 64 (intBits 8 i) else f.ty.wrap i, fl)
  | _ =>
    if src == dst then fres (fvIntegral dst.fmt f.rm f.sat v)
    else
      let (r, g) := dst.fmt.round f.rm f.sat v.ex
      (BitVec.ofNat 64 r, g)

/-- One half of FOP2 (R162). -/
def fop2Half (bf : Bool) (op : Fop2Op) (f : FloatF) (a b c : Nat) : Nat × Flags :=
  let f' := { f with ty := if bf then Ty.bf16 else .f16 }
  let r := match op with
    | .add => fvAdd f' a b
    | .sub => fvSub f' a b
    | .mul => fvMul f' a b
    | .fma => fvFma f' .pos a b c
    | .min => fvMin f' false a b
    | .max => fvMax f' false a b
  (r.1.toNat, r.2)

/-- A half of an operand, widened from E4M3 under SUB 11 (R143). -/
def fop2Opnd (bf : Bool) (f : FloatF) (x : W64) (hi : Bool) : Nat :=
  let h : W16 := x.extractLsb' (if hi then 16 else 0) 16
  if f.sub == .e4m3 then widenBits .e4m3 (if bf then .bf16 else .f16) (h.toNat % 256) else h.toNat

/-- FOP2: both halves, flags ORed together (R162). An immediate serves both halves (R150). -/
def fvFop2 (bf : Bool) (op : Fop2Op) (f : FloatF) (a b c : W64) : FRes :=
  let half (hi : Bool) :=
    let bb := match f.imm with
      | some v => v.toNat % 65536
      | none => fop2Opnd bf f b hi
    fop2Half bf op f (fop2Opnd bf f a hi) bb ((c.extractLsb' (if hi then 16 else 0) 16).toNat)
  let (h, g1) := half true
  let (l, g0) := half false
  (BitVec.ofNat 64 (h * 65536 + l), g0 ||| g1)

/-! ### Quantisation (R146 to R148, R163 to R166) -/

/-- Fmax and emax of a target (R146). -/
def QFmt.fmax : QFmt → Nat
  | .e4m3 => 448
  | .e5m2 => 57344
  | .int8 => 127
  | .int4 => 7
  | .int3 => 3
/-- The exponent of the largest power of two not above Fmax (R146). -/
def QFmt.emax : QFmt → Int
  | .e4m3 => 8
  | .e5m2 => 15
  | .int8 => 6
  | .int4 => 2
  | .int3 => 1
/-- The layout of a float target. -/
def QFmt.fmt : QFmt → Option Fmt
  | .e4m3 => some .e4m3
  | .e5m2 => some .e5m2
  | _ => none
/-- The bits of an integer target (R135). -/
def QFmt.ibits : QFmt → Nat
  | .int4 => 4
  | .int3 => 3
  | _ => 8

/-- The value of a scale (R132). -/
def scaleVal (ue5m3 : Bool) (b : Nat) : Fp := if ue5m3 then Fmt.ue5m3.decode (b % 256) else decodeE8M0 (b % 256)

/-- The scale of R147 from the magnitudes of the contributing lanes. -/
def qmaxScale (ue5m3 : Bool) (t : QFmt) (xs : List Fp) : Nat × Flags :=
  let bad := xs.any fun x => match x with | .fin .. => false | _ => true
  let amax := xs.foldl (fun (a : Nat × Int) x => match x with
    | .fin _ m e => if fpLt (.fin false a.1 a.2) (.fin false m e) then (m, e) else a
    | _ => a) (0, 0)
  if bad then (0xFF, .nv)
  else if amax.1 == 0 then (if ue5m3 then 0x78 else 0x7F, 0)
  else if ue5m3 then
    let (m, q, _, _) := Fmt.ue5m3.roundMag .rup false amax.1 t.fmax amax.2
    if Fmt.ue5m3.beyond m q then (Fmt.ue5m3.maxFin, .sf) else (Fmt.ue5m3.encodeMag m q, 0)
  else
    let e := floorLog2 amax.1 1 + amax.2 - t.emax
    let c := clampInt (-127) 127 e
    ((c + 127).toNat, .when (c != e) .sf)

/-- A quotient clamped to ±Fmax or to the end of the integer range (R148). -/
def qClamp (t : QFmt) (neg : Bool) : Nat :=
  match t.fmt with
  | some f => f.signBit neg + f.maxFin
  | none => intBits 8 (if neg then -(t.fmax : Int) - 1 else t.fmax)

/-- QCVT of one value (R148). -/
def qcvtVal (f : QuantF) (x s : Fp) : FRes :=
  let nan : Nat := match f.tgt.fmt with
    | some g => g.canonNaN
    | none => 0
  let r : Nat × Flags := match x, s with
    | .nan, _ | _, .nan => (nan, .nv)
    | .inf n, _ => (qClamp f.tgt n, .sf)
    | .fin n m e, s =>
      match s with
      | .fin _ sm se =>
        if sm == 0 then (if m == 0 then (nan, .nv) else (qClamp f.tgt n, .sf ||| .dz))
        else match f.tgt.fmt with
          | some g =>
            if m == 0 then (g.signBit n, 0) else
            let (k, q, nx, tiny) := g.roundMag f.rm n m sm (e - se)
            if g.beyond k q then (qClamp f.tgt n, .sf ||| .nx)
            else (g.signBit n + g.encodeMag k q, .when nx .nx ||| .when (nx && tiny) .uf)
          | none =>
            let (i, nx) := roundToInt f.rm n m sm (e - se)
            let lo : Int := -(f.tgt.fmax : Int) - 1
            if i < lo || (f.tgt.fmax : Int) < i then (qClamp f.tgt n, .sf ||| .nx)
            else (intBits 8 i, .when nx .nx)
      | _ => (nan, .nv)
  fres r

/-- The quantised value DQCV reads (R166). -/
def dqVal (t : QFmt) (x : W64) : Fp :=
  match t.fmt with
  | some g => g.decode (x.setWidth 8 : W8).toNat
  | none =>
    match t with
    | .int4 => intFp (x.setWidth 4 : BitVec 4).toInt
    | .int3 => intFp (x.setWidth 3 : BitVec 3).toInt
    | _ => intFp (x.setWidth 8 : W8).toInt

/-- DQCV: the exact product rounded once (R148); an integer zero is +0; an infinity times a zero scale is invalid (R144, log 13). -/
def dqcvVal (f : QuantF) (q : W64) (s : Fp) : FRes :=
  let (p, g0) := fpMulV (dqVal f.tgt q) s
  let (r, g) := f.ty.fmt.round f.rm f.sat p.ex
  (BitVec.ofNat 64 r, g0 ||| g)

/-! ### Scans (R222 to R225) -/

/-- The exact combination of two floats of TY, rounded under RM. -/
def scanFloat (f : ScanF) (u v : W64) : FRes :=
  let g : FloatF := { sub := .asTy, ty := f.ty, pr := .always, u := false, imm := none, sat := false, rm := f.rm
                      t0 := .none, t1 := .none }
  let a := f.ty.fbits u
  let b := f.ty.fbits v
  match f.cmb with
  | .add => fvAdd g a b
  | .mul => fvMul g a b
  | .min => fvMin g false a b
  | _ => fvMax g false a b

/-- One combination u ⊕ v (R222, R225). -/
def scanComb (f : ScanF) (u v : W64) : FRes :=
  match f.cmb with
  | .lrec =>
    let d (x : W64) (hi : Bool) := Fmt.f32.decode ((x.extractLsb' (if hi then 32 else 0) 32).toNat)
    let (a, g1) := fpMul (d u false) (d v false)
    let (b, g2) := fpFma f.rm false (d v false) (d u true) (d v true)
    let (ra, g3) := Fmt.f32.round f.rm false a
    let (rb, g4) := Fmt.f32.round f.rm false b
    (BitVec.ofNat 32 rb ++ BitVec.ofNat 32 ra, g1 ||| g2 ||| g3 ||| g4)
  | _ =>
    if f.ty.isFloat then scanFloat f u v
    else (match f.cmb with
      | .add => ivAdd f.ty f.sat u v
      | .mul => ivMul f.ty f.sat u v
      | .min => ivMin f.ty u v
      | _ => ivMax f.ty u v, 0)

/-- The identity of R222. -/
def scanIdentity (f : ScanF) : W64 :=
  match f.cmb with
  | .lrec => 0x3F800000
  | .add => 0
  | .mul => if f.ty.isFloat then (if f.ty == .f32 then 0x3F800000 else if f.ty == .f16 then 0x3C00 else 0x3F80) else 1
  | .min => if f.ty.isFloat then BitVec.ofNat 64 f.ty.fmt.infBits else f.ty.wrap f.ty.hi
  | .max =>
    if f.ty.isFloat then BitVec.ofNat 64 (f.ty.fmt.signBit true + f.ty.fmt.infBits) else f.ty.wrap f.ty.lo

/-- canon of R224: a float NaN, or a NaN component of a pair, becomes the canonical NaN. -/
def scanCanon (f : ScanF) (v : W64) : W64 :=
  let c (fmt : Fmt) (b : Nat) : Nat := if fmt.decode b == .nan then fmt.canonNaN else b
  if f.cmb == .lrec then
    BitVec.ofNat 32 (c .f32 (v.extractLsb' 32 32).toNat) ++ BitVec.ofNat 32 (c .f32 (v.extractLsb' 0 32).toNat)
  else if f.ty.isFloat then BitVec.ofNat 64 (c f.ty.fmt (f.ty.fbits v))
  else v

/-- One step of the tree with distance d (R223). -/
def scanStep (f : ScanF) (d : Nat) (y : List (Option W64)) : List (Option W64) × Flags :=
  let r := (List.range y.length).map fun i =>
    let v := y.getD i none
    if i < d then (v, (0 : Flags))
    else match y.getD (i - d) none, v with
      | none, v => (v, 0)
      | u, none => (u, 0)
      | some a, some b => let (c, g) := scanComb f a b; (some c, g)
  (r.map (·.1), r.foldl (fun g x => g ||| x.2) 0)

/-- The five steps of the tree (R223). -/
def scanTree (f : ScanF) (y : List (Option W64)) : List (Option W64) × Flags :=
  [1, 2, 4, 8, 16].foldl (fun (s : List (Option W64) × Flags) d =>
    let (y', g) := scanStep f d s.1
    (y', s.2 ||| g)) (y, 0)

end Sys2Proof
end

