-- ==== Sys2Proof/Machine/Atomic.lean ====
section
/-! DEFINITION. ATOM, FENCE, FENCEX, PREF and CCTL (R287 to R295): what they do at issue, the value an atomic writes, and
what CCTL does at commit. -/
namespace Sys2Proof

/-- The width of an atomic in bytes (R287). -/
def AtomF.bytes (f : AtomF) : Nat := if f.ty.wide then 8 else 4

/-- The new value of an atomic and its flags; none where `.cas` writes nothing (R288). -/
def atomVal (f : AtomF) (old b c : W64) : Option W64 × Flags :=
  let g : FloatF := { sub := .asTy, ty := .f32, pr := .always, u := false, imm := none, sat := false, rm := .rne
                      t0 := .none, t1 := .none }
  let fl := f.ty == .f32
  match f.aop with
  | .add =>
    if fl then let r := fvAdd g old.toNat (b.setWidth 32).toNat; (some r.1, r.2) else (some (ivAdd f.ty false old b), 0)
  | .min => (some (if fl then (fvMin g false old.toNat (b.setWidth 32).toNat).1 else ivMin f.ty old b), 0)
  | .max => (some (if fl then (fvMax g false old.toNat (b.setWidth 32).toNat).1 else ivMax f.ty old b), 0)
  | .and => (some (old &&& b), 0)
  | .or => (some (old ||| b), 0)
  | .xor => (some (old ^^^ b), 0)
  | .exch => (some b, 0)
  | .cas => (if f.ty.cut old == f.ty.cut b then some c else none, 0)

end Sys2Proof

namespace Sys2Proof.Machine

/-- The addressing mode of an atomic (R289). -/
def AtomF.am (f : AtomF) : Am := if f.indexed then .indexed else .base

/-- An atomic that the host carries: `.add` on an integer type, `.exch` or `.cas`, and no f32 (R256, R291). -/
def hostCarries (f : AtomF) : Bool := f.ty != .f32 && (f.aop == .add || f.aop == .exch || f.aop == .cas)

/-- A write slot marked as one an atomic's reply will fill (R71). -/
def Run.deferSlot (r : Run) (m : Lanes) : Tgt → Run
  | .wr n => { r with wslots := r.wslots.modify n.toNat fun w =>
      { w with tok := some (Token.lanes false m fun _ => 0), deferred := true } }
  | _ => r

/-- ATOM: translated and checked at issue, held in its slot (R290). -/
def execAtom (f : AtomF) (s : State) : Host.Outcome State Fault Refusal :=
  let i : Instr := .atom f
  s.firing i fun x =>
    let ls := (okList i x.o).map fun l => (l, laneAddr false (if f.indexed then .indexed else .base) f.imm f.bytes x.o l)
    s.access x i 2 f.bytes (hostCarries f) ls fun s as =>
      let as : List LaneAtom := as.map fun a =>
        { lane := a.lane, nc := a.nc, va := a.va, addr := a.pa
          b := (if f.indexed then x.o.third else x.o.right).atTy f.ty a.lane, c := x.o.third.atTy f.ty a.lane }
      let mark (a : LaneAtom) : Option Nat := s.coreMark x.w x.warp.core a.nc f.sc a.addr f.bytes
      match as.find? fun a => (mark a).isSome with
      | some a => s.dataFault x.w (a.va &&& 0x3FFFFFFFFFFFFF) ((mark a).getD 0) a.addr
          (lanesOf fun l => as.any fun a => a.lane == l && (mark a).isSome)
      | none =>
      s.setRun x.w fun r =>
        (([f.t0, f.t1].foldl (fun r t => r.deferSlot (okLanes i x.o) t) r).finish x.k : Run) |> fun r =>
          { r with sslots := r.sslots.set f.ss.toNat (.atoms f as) }

/-- FENCE: its halves act at commit (R276, R292). -/
def execFence (pr : Pr) (sc : Scope) (ord : Ord) (s : State) : Host.Outcome State Fault Refusal :=
  s.firing (.fence pr sc ord) fun x => if uniOk (.fence pr sc ord) x.o then s.leave x (.fence sc ord) else s.finish x

/-- FENCEX: its order acts at commit (R281, R293). -/
def execFencex (pr : Pr) (from' to' : BitVec 5) (s : State) : Host.Outcome State Fault Refusal :=
  s.firing (.fencex pr from' to') fun x =>
    if uniOk (.fencex pr from' to') x.o then s.leave x (.fencex from' to') else s.finish x

/-- One lane's request of PREF; an address that fails its checks, or in an uncached page, is ignored (R294). -/
def State.prefetchLine (s : State) (who : WarpId) (core : Nat) (lvl : PrefLvl) (sc : Scope) (va : W64) : State :=
  match s.translate (some core) who.team.launch.ctx va with
  | (s, .page pa _ _ nc) =>
    if nc || !isHbm pa then s
    else match lvl with
    | .l1 => (s.loadLine who core (pa / 128) sc 0).1
    | .l2 => s.grant (dieOf core) (pa / 128) (if sc.devUp then .loadDev else .shared)
    | .mer => s.homeUse (s.partNo (dieOf core)) (pa / 128) false
  | (s, _) => s

/-- PREF: it returns no value and never faults (R294). -/
def execPref (pr : Pr) (lvl : PrefLvl) (sc : Scope) (imm : BitVec 14) (s : State) : Host.Outcome State Fault Refusal :=
  let i : Instr := .pref pr lvl sc imm
  s.firing i fun x =>
    (((okList i x.o).map fun l => laneAddr false .base imm 1 x.o l).foldl
      (fun s va => s.prefetchLine x.w x.warp.core lvl sc va) s).finish x

/-- CCTL: the lines of its valid lanes, acted on at commit (R295). -/
def execCctl (pr : Pr) (op : CctlOp) (imm : BitVec 14) (s : State) : Host.Outcome State Fault Refusal :=
  let i : Instr := .cctl pr op imm
  s.firing i fun x => s.leave x (.cctl op ((okList i x.o).map fun l => laneAddr false .base imm 1 x.o l))

/-- CCTL's action on the line of one address, skipped where it does not translate (R295). -/
def State.cacheCtl (s : State) (core ctx : Nat) (op : CctlOp) (va : W64) : State :=
  match s.translate (some core) ctx va with
  | (s, .page pa _ _ nc) =>
    if nc || !isHbm pa then s
    else
      let ln := pa / 128
      let s := s.writeBackL1 core ln
      match op with
      | .wb => s
      | .inv => s.dropL1 core ln
      | .push => s.push (dieOf core) ln
      | .evict => (s.dropL1 core ln).evictLine (dieOf core) ln
  | (s, _) => s

/-- One lane's atomic performed where R256 places it, with its old value and flags; the engines may read what a far one wrote
over until its reply (R243, R282, log 82). -/
def State.atomLane (s : State) (who : WarpId) (core reply : Nat) (f : AtomF) (a : LaneAtom) : State × W64 × Flags :=
  let n := f.bytes
  let val (bs : List W8) := atomVal f (BitVec.ofNat 64 (leNat bs)) a.b a.c
  let (s, old, far) := s.atomicAt core a.nc f.sc a.addr n fun bs => (val bs).1.map fun v => leBytes n v.toNat
  let (s, id) := s.newId
  let g : Lag := { id := id, reply := reply, warp := who, va := a.va, pa := a.addr, old := old, seen := [] }
  (if far && isHbm a.addr then { s with lags := s.lags ++ [g] } else s, BitVec.ofNat 64 (leNat old), (val old).2)

end Sys2Proof.Machine
end

