-- ==== Sys2Proof/Machine/Block.lean ====
section
/-! DEFINITION. The block format (R31 to R46): the fields of a header, every check of R61 with the words it involves, and
the fetch of a block through a core's code cache (R57, R263, R364). -/
namespace Sys2Proof.Machine

/-! ### The header -/

/-- H0 (R33). -/
structure Hdr where
  ver : Nat
  ni : Nat
  nr : Nat
  nw : Nat
  ns : Nat
  nt : Nat
  nc : Nat
  sr : Bool
  np : Bool
  zero : Bool
  rj : Int
  deriving DecidableEq, Repr, Inhabited

/-- The fields of H0. -/
def Hdr.of (w : W64) : Hdr :=
  { ver := (w.extractLsb' 60 4).toNat, ni := (w.extractLsb' 54 6).toNat, nr := (w.extractLsb' 49 5).toNat
    nw := (w.extractLsb' 44 5).toNat, ns := (w.extractLsb' 38 6).toNat, nt := (w.extractLsb' 35 3).toNat
    nc := (w.extractLsb' 33 2).toNat, sr := w.getLsbD 32, np := w.getLsbD 31, zero := w.extractLsb' 28 3 == 0
    rj := (w.extractLsb' 0 28).toInt }

/-- Rounded up to whole lines of 32 bytes, in words (R31). -/
def pad4 (n : Nat) : Nat := (n + 3) / 4 * 4

/-- The first write word. -/
def Hdr.writeAt (h : Hdr) : Nat := 1 + (h.nr + 1) / 2
/-- The first tile-declaration word. -/
def Hdr.tileAt (h : Hdr) : Nat := h.writeAt + (h.nw + 3) / 4
/-- The first copy-declaration word. -/
def Hdr.copyAt (h : Hdr) : Nat := h.tileAt + h.nt
/-- The header's words before its padding. -/
def Hdr.headEnd (h : Hdr) : Nat := h.copyAt + h.nc
/-- The first body word. -/
def Hdr.bodyAt (h : Hdr) : Nat := pad4 h.headEnd
/-- All the words of the block. -/
def Hdr.total (h : Hdr) : Nat := h.bodyAt + pad4 (h.ni + 1)
/-- The counts are in range (R33). -/
def Hdr.countsOk (h : Hdr) : Bool := h.nr ≤ 16 && h.nw ≤ 16 && h.ns ≤ 32 && h.nt ≤ 4 && h.nc ≤ 2

/-- A read entry (R36). -/
structure ReadEnt where
  k : Bool
  reg : Nat
  ta : BitVec 8
  tb : BitVec 8
  low : BitVec 7
  word : Nat
  deriving DecidableEq, Repr, Inhabited

/-- Read entry `i` of a block. -/
def readEnt (ws : List W64) (i : Nat) : ReadEnt :=
  let e : W32 := (ws.getD (1 + i / 2) 0).extractLsb' (32 * (i % 2)) 32
  { k := e.getLsbD 31, reg := (e.extractLsb' 23 8).toNat, ta := e.extractLsb' 15 8, tb := e.extractLsb' 7 8
    low := e.extractLsb' 0 7, word := 1 + i / 2 }

/-- A write entry (R37). -/
structure WriteEnt where
  k : Bool
  reg : Nat
  low : BitVec 7
  word : Nat
  deriving DecidableEq, Repr, Inhabited

/-- Write entry `i` of a block. -/
def writeEnt (h : Hdr) (ws : List W64) (i : Nat) : WriteEnt :=
  let e : W16 := (ws.getD (h.writeAt + i / 4) 0).extractLsb' (16 * (i % 4)) 16
  { k := e.getLsbD 15, reg := (e.extractLsb' 7 8).toNat, low := e.extractLsb' 0 7, word := h.writeAt + i / 4 }

/-- A tile declaration (R38): tile, read use, write use. -/
def tileDecl (h : Hdr) (ws : List W64) (i : Nat) : Nat × Bool × Bool :=
  let w := ws.getD (h.tileAt + i) 0
  ((w.extractLsb' 58 6).toNat, w.getLsbD 56, w.getLsbD 57)

/-- A copy declaration (R40), its length in bytes. -/
structure CopyDecl where
  dk : Bool
  dst : Nat
  src : Nat
  len : Nat
  pol : Nat
  deriving DecidableEq, Repr, Inhabited

/-- Copy declaration `i` of a block. -/
def copyDecl (h : Hdr) (ws : List W64) (i : Nat) : CopyDecl :=
  let w := ws.getD (h.copyAt + i) 0
  { dk := w.getLsbD 63, dst := (w.extractLsb' 57 6).toNat, src := (w.extractLsb' 51 6).toNat
    len := 256 * ((w.extractLsb' 39 12).toNat + 1), pol := (w.extractLsb' 36 3).toNat }

/-- Every read entry. -/
def Hdr.reads (h : Hdr) (ws : List W64) : List ReadEnt := (List.range h.nr).map (readEnt ws)
/-- Every write entry. -/
def Hdr.writes (h : Hdr) (ws : List W64) : List WriteEnt := (List.range h.nw).map (writeEnt h ws)
/-- Every tile declaration. -/
def Hdr.tiles (h : Hdr) (ws : List W64) : List (Nat × Bool × Bool) := (List.range h.nt).map (tileDecl h ws)
/-- Every copy declaration. -/
def Hdr.copies (h : Hdr) (ws : List W64) : List CopyDecl := (List.range h.nc).map (copyDecl h ws)

/-! ### Checks (R61): each answers the failing words with their causes -/

/-- A failed check: word index and cause. -/
abbrev Fail := Nat × Nat

/-- A failure where a condition does not hold. -/
def failUnless (ok : Bool) (word : Nat) (c : FmtCause) : List Fail := if ok then [] else [(word, c.code)]

/-- Pairs of equal entries fail at the lower of their words. -/
def dupFails {α : Type} [BEq α] (c : FmtCause) : List (α × Nat) → List Fail
  | [] => []
  | (a, w) :: l => ((l.filter fun p => p.1 == a).map fun p => (min w p.2, c.code)) ++ dupFails c l

/-- Causes 0x04 to 0x08: the header's entries and the padding. -/
def headFails (h : Hdr) (ws : List W64) : List Fail :=
  ((h.reads ws).flatMap fun e => failUnless (e.low == 0 && e.ta != 0xFF && (!e.k || e.reg < 64)) e.word .read) ++
  (if h.nr % 2 == 1 then failUnless ((ws.getD (1 + h.nr / 2) 0).extractLsb' 32 32 == 0) (1 + h.nr / 2) .read else []) ++
  ((h.writes ws).flatMap fun e => failUnless (e.low == 0 && (!e.k || e.reg < 64)) e.word .write) ++
  (if h.nw % 4 == 0 then [] else
    failUnless ((ws.getD (h.writeAt + h.nw / 4) 0).toNat < 2 ^ (16 * (h.nw % 4))) (h.writeAt + h.nw / 4) .write) ++
  dupFails .write ((h.writes ws).map fun e => ((e.k, e.reg), e.word)) ++
  ((List.range h.nt).flatMap fun i =>
    let w := ws.getD (h.tileAt + i) 0
    let t := tileDecl h ws i
    failUnless (t.1 < 40 && (t.2.1 || t.2.2) && w.extractLsb' 0 56 == 0) (h.tileAt + i) .tileDecl) ++
  dupFails .tileDecl ((List.range h.nt).map fun i => ((tileDecl h ws i).1, h.tileAt + i)) ++
  ((List.range h.nc).flatMap fun i =>
    let w := ws.getD (h.copyAt + i) 0
    let c := copyDecl h ws i
    failUnless (w.extractLsb' 0 36 == 0 && c.pol < 4 &&
      (c.dk || (c.dst < 32 && (h.tiles ws).any fun t => t.1 == c.dst && t.2.2))) (h.copyAt + i) .copyDecl) ++
  dupFails .copyDecl ((List.range h.nc).map fun i => let c := copyDecl h ws i; ((c.dk, c.dst), h.copyAt + i)) ++
  ((List.range h.total).flatMap fun i =>
    if (h.headEnd ≤ i && i < h.bodyAt) || h.bodyAt + h.ni < i then failUnless (ws.getD i 0 == 0) i .padding else [])

/-- The bits of [23:0] to which an opcode's own layout gives a meaning (R46 to R54). -/
def keptLow (op : Nat) : BitVec 24 :=
  match op with
  | 0x08 | 0x09 => 0x00FFFF
  | 0x0A => 0x07C000
  | 0x0B => 0xFFFF00
  | 0x0D => 0x0000FF
  | 0x4C => 0x500000
  | 0x4D => 0x480000
  | 0x56 => 0xF80000
  | 0x57 => 0x0003FF
  | 0x58 => 0xE03FFF
  | 0x59 => 0x003FFF
  | 0x60 => 0x00FFFF
  | 0x63 | 0x65 => 0x001F1F
  | 0x64 => 0x001F00
  | 0x6A => 0xFCFFFF
  | 0x69 | 0x6B | 0x6C | 0x6D | 0x6E | 0x71 | 0x76 | 0x77 => 0xFC0000
  | 0x70 => 0xFFFFC0
  | 0x72 => 0xFFFC00
  | 0x73 => 0xFFF000
  | 0x74 => 0x000C00
  | 0x81 | 0x82 => 0x080000
  | _ => 0xFFFFFF

/-- The fields of a word whose opcode refuses some of them, with ever more of them set to values it may accept: bits without a meaning
cleared, then Q, then FN, then TY and U; a control word has no target bytes (R52), and NULL, BCST and MMA lose a predicate they do not take (log 49). -/
def nearbyFields (r : Raw) : List Raw :=
  let low := r.low &&& keptLow r.op.toNat
  let lp := r.low &&& 0x080000
  let sent := lp ||| (BitVec.ofNat 24 ((((MsgOp.ofBits r.fn).getD .copy).words (lp != 0)) - 1) <<< 20)
  let lows := if r.op == 0x80 then [r.low, sent] else [r.low, low, low &&& 0x1FFFFF, 0]
  let fns := [r.fn, r.fn &&& 0x38, r.fn &&& 0x30, r.fn &&& 0x0F, r.fn &&& 0x07, r.fn &&& 0x08, r.fn &&& 0x04, r.fn &&& 0x03,
    r.fn &&& 0x01, (r.fn &&& 0x0C) ||| 1, 0, 1]
  [r.u, ~~~r.u].flatMap fun u => [r.ty, 0, 1].flatMap fun ty => fns.flatMap fun fn =>
    [r.q, r.q &&& 0xC, r.q &&& 0x8, 8, 0].flatMap fun q => lows.map fun low =>
      if r.op == 0x0A || r.op == 0x48 || r.op == 0x70 then { r with pr := 0, fn := fn, ty := ty, u := u, q := q, low := low }
      else if r.op.toNat < 0x0A then { r with fn := fn, ty := ty, u := u, q := q, t0 := 0, t1 := 0, low := low }
      else { r with fn := fn, ty := ty, u := u, q := q, low := low }

/-- Opcodes of format G (R49, R55). -/
def formatG (op : Nat) : Bool :=
  (0x0A ≤ op && op ≤ 0x4B && op != 0x0C) || op == 0x5A || (0x60 ≤ op && op ≤ 0x65) || op == 0x75

/-- What a body word puts into its block's graph: its instruction, the slots it uses (R44), its U bit (R45) and its SS (R46). -/
structure BodyShape where
  ins : Instr
  slots : List Slot
  u : Bool
  ss : Nat
  deriving DecidableEq, Repr

/-- A slot takes only uniform tokens (R45, R170). -/
def BodyShape.uniSlot (b : BodyShape) (s : Slot) : Bool := b.u || (!b.ins.uniform && b.ins.uniSlot s)

/-- The result is stated to be uniform (R45). -/
def BodyShape.uniRes (b : BodyShape) : Bool :=
  (b.ins.res == .uni && (!b.ins.uniform || b.u)) || (b.ins.res == .lane && b.u)

/-- The shape of a body word, whatever of it fails: an assigned opcode keeps the slots, targets and limits of its instruction where a
field of the word is refused (R44, R61, log 49). For a word with no refused field the slots are the instruction's own. -/
def shapeOf (w : W64) : Option BodyShape :=
  let r := Raw.ofWord w
  let shape (i : Instr) : BodyShape :=
    let data := if formatG r.op.toNat && r.im then i.dataSlots.filter (· != .right) else i.dataSlots
    { ins := i, u := r.isU, ss := r.ss.toNat
      slots := if (r.pr == 1 || r.pr == 2) && !i.thirdOperand then data ++ [.third] else data }
  match r.fields with
  | .ok i => some (shape i)
  | .error .opcode => none
  | .error _ => ((nearbyFields r).findSome? fun q => q.fields.toOption).map shape

/-- The body's shapes. -/
def Hdr.shapes (h : Hdr) (ws : List W64) : List (Option BodyShape) :=
  (List.range (h.ni + 1)).map fun k => shapeOf (ws.getD (h.bodyAt + k) 0)

/-- The bytes of a body word that name targets (R45, R51, R52, R97). -/
def wordTargets (w : W64) : Option BodyShape → List (BitVec 8)
  | none => []
  | some i =>
    let r := Raw.ofWord w
    match i.ins with
    | .movi .. => [r.t0]
    | .mov f => if f.more.isSome then [r.t0, r.t1, r.low.extractLsb' 16 8, r.low.extractLsb' 8 8] else [r.t0, r.t1]
    | i => if i.targets.isEmpty then [] else [r.t0, r.t1]

/-- A place a target names. -/
inductive Sink where
  | slot (k : Nat) (s : Slot)
  | write (n : Nat)
  deriving DecidableEq, Repr, Inhabited

/-- A target of the graph: its producer's word, whether its token is uniform, the instruction it comes from, and its byte. -/
structure Link where
  word : Nat
  uni : Bool
  src : Option Nat
  byte : BitVec 8
  deriving DecidableEq, Repr, Inhabited

/-- The links of a block. -/
def Hdr.links (h : Hdr) (ws : List W64) : List Link :=
  ((h.reads ws).flatMap fun e => ([e.ta, e.tb].filter (· != 0xFF)).map fun b => { word := e.word, uni := e.k, src := none, byte := b }) ++
  ((List.range (h.ni + 1)).flatMap fun k =>
    let w := ws.getD (h.bodyAt + k) 0
    let i := shapeOf w
    ((wordTargets w i).filter (· != 0xFF)).map fun b =>
      { word := h.bodyAt + k, uni := (i.map fun i => i.uniRes).getD false, src := some k, byte := b })

/-- The place of a target byte, where it names one that is there and used (R43, R45). -/
def Hdr.place (h : Hdr) (sh : List (Option BodyShape)) (b : BitVec 8) : Option Sink :=
  let n := (b.extractLsb' 0 6).toNat
  let slot (s : Slot) : Option Sink :=
    if ((sh.getD n none).map fun i => i.slots.contains s).getD false then some (.slot n s) else none
  match (b.extractLsb' 6 2).toNat with
  | 0 => slot .left
  | 1 => slot .right
  | 2 => slot .third
  | _ => if n < h.nw then some (.write n) else none

/-- The word of a place, and whether it takes only uniform tokens (R45). -/
def Hdr.placeWord (h : Hdr) (ws : List W64) (sh : List (Option BodyShape)) : Sink → Nat × Bool
  | .slot k s => (h.bodyAt + k, ((sh.getD k none).map fun i => i.uniSlot s).getD false)
  | .write n => let e := writeEnt h ws n; (e.word, e.k)

/-- A write slot. -/
def Sink.isWrite : Sink → Bool
  | .write _ => true
  | .slot .. => false

/-- QMAX may feed only write slots that name a uniform register (R164). -/
def Link.wantsUni (l : Link) (sh : List (Option BodyShape)) : Bool :=
  match l.src.bind fun k => sh.getD k none with
  | some { ins := .qmax _, .. } => true
  | _ => false

/-- Every place that must have exactly one producer. -/
def Hdr.places (h : Hdr) (sh : List (Option BodyShape)) : List Sink :=
  ((List.range (h.ni + 1)).flatMap fun k => ((sh.getD k none).map fun i => i.slots.map fun s => Sink.slot k s).getD []) ++
  (List.range h.nw).map Sink.write

/-- The lowest of some words. -/
def lowWord (w : Nat) (ws : List Nat) : Nat := ws.foldl min w

/-- Causes 0x0C, 0x0D and 0x10: the targets of the graph. A QMAX that names a lane write slot (R164) is cause 0x10 at the lower of the
two words (DESIGN CHOICE, log 111). -/
def graphFails (h : Hdr) (ws : List W64) : List Fail :=
  let sh := h.shapes ws
  let ls := (h.links ws).map fun l => (l, h.place sh l.byte)
  (ls.flatMap fun l => match l.2 with
    | none => [(l.1.word, FmtCause.target.code)]
    | some p =>
      let (w, u) := h.placeWord ws sh p
      failUnless ((!u || l.1.uni) && (!l.1.wantsUni sh || u || !p.isWrite)) (min l.1.word w) .uniform) ++
  ((h.places sh).flatMap fun p =>
    let ps := (ls.filter fun l => l.2 == some p).map fun l => l.1.word
    failUnless (ps.length == 1) (lowWord (h.placeWord ws sh p).1 ps) .producer)

/-- Cause 0x0F, at the lowest instruction of a cycle. -/
def cycleFails (h : Hdr) (ws : List W64) : List Fail :=
  let sh := h.shapes ws
  let es := (h.links ws).filterMap fun l => match l.src, h.place sh l.byte with
    | some k, some (.slot n _) => some (k, n)
    | _, _ => none
  match (List.range (h.ni + 1)).find? fun k => (reached es h.ni (feeds es [k])).contains k with
  | some k => [(h.bodyAt + k, FmtCause.cycle.code)]
  | none => []

/-- Cause 0x0E: the store slots (R46). -/
def slotFails (h : Hdr) (ws : List W64) : List Fail :=
  let named := (List.range (h.ni + 1)).filterMap fun k => ((h.shapes ws).getD k none).bind fun i => i.ins.storeSlot.map fun _ => (i.ss, h.bodyAt + k)
  (named.flatMap fun p => failUnless (p.1 < h.ns) p.2 .storeSlot) ++
  dupFails .storeSlot named ++
  (List.range h.ns).flatMap fun s => failUnless (named.any fun p => p.1 == s) 0 .storeSlot

/-- What an instruction may appear once of in a block: a kind and a number (R119, R177, R185, R191, R215, R234, R320, R327). -/
def onceKeys : Instr → List (Nat × Nat)
  | .regrel .. | .regclm .. => [(0, 0)]
  | .bararv .. | .barwt .. | .barsyn .. => [(1, 0)]
  | .sdone .. | .srefu .. => [(2, 0)]
  | .modset _ m _ => [(3, m.toNat)]
  | .agset _ _ a => [(4, a.toNat)]
  | .tdset _ i => [(5, i.toNat)]
  | .tarm _ t _ | .tclr _ t => [(6, t.toNat)]
  | .ttake f => if f.spl then [(7, f.tid.toNat), (7, f.tid.toNat + 1)] else [(7, f.tid.toNat)]
  | _ => []

/-- The tiles a TTAKE or TGIVE names (R320). -/
def giveKeys : Instr → List Nat
  | .tgive _ t => [t.toNat]
  | _ => []

/-- Causes 0x09 to 0x0C of the words alone, the per-block limits, the bring-up service's refusals, and cause 0x11,
which a TID of 40 to 63 raises where the description names no narrower range (R39; DEDUCED, log 31). -/
def bodyFails (h : Hdr) (ws : List W64) (bringUp : Bool) : List Fail :=
  let sh := h.shapes ws
  let word (k : Nat) : W64 := ws.getD (h.bodyAt + k) 0
  let ks := List.range (h.ni + 1)
  let keys (f : Instr → List (Nat × Nat)) : List ((Nat × Nat) × Nat) :=
    ks.flatMap fun k => ((sh.getD k none).map fun i => (f i.ins).map fun y => (y, h.bodyAt + k)).getD []
  let gives := ks.flatMap fun k => ((sh.getD k none).map fun i => (giveKeys i.ins).map fun y => (y, h.bodyAt + k)).getD []
  (ks.flatMap fun k => match decode (word k) with
    | .ok _ => []
    | .error c => [(h.bodyAt + k, c.code)]) ++
  dupFails .field (keys onceKeys) ++
  (gives.flatMap fun g => ((keys onceKeys).filter fun y => y.1 == (7, g.1)).map fun y => (min g.2 y.2, FmtCause.field.code)) ++
  (ks.flatMap fun k => match sh.getD k none with
    | none => []
    | some b =>
      let i := b.ins
      failUnless (!(bringUp && i.bringUpRefused)) (h.bodyAt + k) .field ++
      (match i with
        | .regrel _ first n => failUnless (!((h.writes ws).any fun e =>
            !e.k && first.toNat ≤ e.reg && e.reg ≤ first.toNat + n.toNat)) (h.bodyAt + k) .field
        | _ => []) ++
      (i.tileNeeds.flatMap fun t => failUnless ((h.tiles ws).any fun d => d.1 == t.1 && (d.2.1 || !t.2.1) && (d.2.2 || !t.2.2))
        (h.bodyAt + k) .tile))

/-- The lowest failing word, and within it the lowest cause (R61). -/
def lowest : List Fail → Option Fail
  | [] => none
  | f :: l => match lowest l with
    | none => some f
    | some g => some (if f.1 < g.1 || (f.1 == g.1 && f.2 ≤ g.2) then f else g)

/-- The fault of a block's words, if it has one; the entry check of SR is made at each start (R35). -/
def blockFault (ws : List W64) (bringUp : Bool) : Option Fail :=
  let h := Hdr.of (ws.getD 0 0)
  if h.ver != 1 && h.ver != 8 then some (0, FmtCause.ver.code)
  else if !h.countsOk || !h.zero then some (0, FmtCause.count.code)
  else lowest (headFails h ws ++ bodyFails h ws bringUp ++ graphFails h ws ++ slotFails h ws ++ cycleFails h ws)

/-! ### Fetch -/

/-- What fetching a block gives (R57, R264, R263, R362, R364). -/
inductive Fetched where
  | block (words : List W64) (bad : Option Fail)
  | absent (va : W64)
  | protect (cause : Nat) (va : W64)
  | poisoned (pa code : Nat)
  | walk (va : W64) (pa code : Nat)
  | reloading
  deriving DecidableEq, Repr, Inhabited

/-- The 2 KiB region of a code address. -/
def codeRegion (va : W64) : W64 := va &&& ~~~2047

/-- One word fetched from memory: a page that may be executed (R263). -/
def State.fetchWord (s : State) (core ctx : Nat) (va : W64) : State × Except Fetched W64 :=
  match s.translate (some core) ctx va with
  | (s, .bad c) => (s, .error (.protect c va))
  | (s, .absent) => (s, .error (.absent va))
  | (s, .poisoned pa code) => (s, .error (.walk va pa code))
  | (s, .page pa _ x _) =>
    if !x then (s, .error (.protect 4 va))
    else match s.sysMark pa 8 with
      | some code => (s, .error (.poisoned pa code))
      | none => (s.sysFix pa 8, .ok (BitVec.ofNat 64 (leNat (s.sysRead pa 8))))

/-- Words fetched one after another, up to the first that cannot be. -/
def State.fetchWords (s : State) (core ctx : Nat) (va : W64) : Nat → State × Except Fetched (List W64)
  | 0 => (s, .ok [])
  | n + 1 =>
    match s.fetchWord core ctx va with
    | (s, .error e) => (s, .error e)
    | (s, .ok w) =>
      match s.fetchWords core ctx (va + 8) n with
      | (s, .error e) => (s, .error e)
      | (s, .ok l) => (s, .ok (w :: l))

/-- The cached code of a block on a core. -/
def Core.block? (c : Core) (ctx : Nat) (va : W64) : Option CodeEnt := c.code.find? fun e => e.ctx == ctx && e.va == va

/-- A block through a core's code cache; a miss fetches it from memory, validates it and caches the result, with VER 0001
(R57); a bad VER or count is found before the later words are fetched, any other fault after (R59, log 94). Regions that wait for their
reload hold the fetch (R364). -/
def State.fetchBlock (s : State) (core ctx : Nat) (va : W64) : State × Fetched :=
  let region (a : W64) : Granule := .code core ctx (codeRegion a)
  match (s.core core).block? ctx va with
  | some e =>
    let last := region (va + BitVec.ofNat 64 (8 * e.words.length - 1))
    let s := (s.findRegion (region va)).findRegion last
    if s.reloads.contains (region va) || s.reloads.contains last then (s, .reloading) else (s, .block e.words e.bad)
  | none =>
    if s.reloads.contains (region va) then (s, .reloading) else
    match s.fetchWord core ctx va with
    | (s, .error e) => (s, e)
    | (s, .ok w) =>
      let h := Hdr.of w
      let n := if (h.ver == 1 || h.ver == 8) && h.countsOk then h.total else 1
      if s.reloads.contains (region (va + BitVec.ofNat 64 (8 * n - 1))) then (s, .reloading) else
      match s.fetchWords core ctx (va + 8) (n - 1) with
      | (s, .error e) => (s, e)
      | (s, .ok l) =>
        let bad := blockFault (w :: l) s.fw.bringUp
        let ws := ((w &&& 0x0FFFFFFFFFFFFFFF) ||| 0x1000000000000000) :: l
        let e : CodeEnt := { ctx := ctx, va := va, words := ws, bad := bad }
        (s.setCore core fun c => { c with code := e :: c.code }, .block ws bad)

end Sys2Proof.Machine
end

