-- ==== Sys2Proof/Machine/Waits.lean ====
section
/-! DEFINITION. What a warp waits in, the register-claim deadlock (R176) and the barrier fault (R239). -/
namespace Sys2Proof.Machine

/-- What a warp waits in, as R176 records it: WAIT 1 REGCLM, 2 BARSYN, 3 BARWT or a waiting BARARV; the barrier; the
claim's size. -/
structure WaitKind where
  code : Nat
  bar : Nat
  size : Nat
  deriving DecidableEq, Repr, Inhabited

/-- The barrier word of R239. -/
def barrierWord (core team warp bar cause : Nat) (b : Bar) : W64 :=
  BitVec.ofNat 64 (core * 2 ^ 56 + team * 2 ^ 32 + warp * 2 ^ 24 + bar * 2 ^ 19 + cause * 2 ^ 16 + b.count.getD 0 * 2 ^ 10 +
    b.arrived * 2 ^ 4)

/-- An instruction of the block can still fire. -/
def Run.canFire (r : Run) : Bool :=
  (List.range (r.ni + 1)).any fun k =>
    (r.node k).st == .idle && match r.instr k with
      | some i => (r.node k).full i && !r.held k
      | none => false

/-- Every instruction of the block has finished, a BARSYN aside. -/
def Run.onlyBarsyn (r : Run) : Bool := r.nodes.all fun n => match n.st with
  | .done | .waiting (.barsyn _) => true
  | _ => false

/-- The warps whose blocks commit with a warp's: its gang's members (R205), in ascending index. -/
def State.together (s : State) (w : WarpId) : List WarpId :=
  let ps := w.warp :: ((s.mmasOf w).filter fun m => m.f.gng).flatMap fun m => m.members.map (·.1)
  (List.range 32).filterMap fun p => if ps.contains p then some { team := w.team, warp := p } else none

/-- A warp's block, and that of every member of its gang, waits for its BARSYN alone, so that the arrival is about to count (R205, R236). -/
def State.soonCounted (s : State) (w : WarpId) : Bool :=
  (s.together w).all fun v => ((s.warp? v).map fun x => x.phase == .running && (x.run.map (·.onlyBarsyn)).getD false).getD false

/-- What one waiting instruction waits in; none where something may yet end its wait without another warp (a BARSYN whose arrival is
about to count), and none for every wait R176 does not name. -/
def State.waitOf (s : State) (t : Team) (x : Warp) (r : Run) (k : Nat) : Wait → Option WaitKind
  | .claim n => if t.claims.any fun c => c.warp == x.id.warp && c.idx == k && !c.met then some ⟨1, 0, n⟩ else none
  | .barsyn b =>
    if r.counted || (t.bars.getD b default).pending.getLsbD x.id.warp || !s.soonCounted x.id then some ⟨2, b, 0⟩ else none
  | .barwt b => if (t.bars.getD b default).pending.getLsbD x.id.warp then some ⟨3, b, 0⟩ else none
  | _ => none

/-- A read of the register waits for an atomic's reply (R71). -/
def State.pendingReg (s : State) (w : WarpId) (e : ReadEnt) : Bool :=
  s.replies.any fun p => p.warp == w && p.regs.contains (e.k, e.reg)

/-- A header read of a warp's block waits for an atomic's reply; a reply that no read waits for holds nothing (R71, R176). -/
def State.readHeld (s : State) (w : WarpId) (r : Run) : Bool :=
  ((Hdr.of (r.words.headD 0)).reads r.words).any fun e => s.pendingReg w e

/-- A warp waits in claims and barriers alone: no instruction can fire, and it waits for nothing else, an atomic's reply among
them (R176, R239). Where one block waits in a claim and in a barrier, its word in R176's record shows the claim (DESIGN CHOICE, log 122). -/
def State.waitKind (s : State) (t : Team) (x : Warp) : Option WaitKind :=
  match x.phase, x.run with
  | .running, some r =>
    if r.canFire || s.readHeld x.id r then none
    else
      let ws := (List.range (r.ni + 1)).filterMap fun k => match (r.node k).st with
        | .waiting w => some (s.waitOf t x r k w)
        | _ => none
      if ws.isEmpty || ws.any (·.isNone) then none
      else ((ws.filterMap fun k => k).find? fun w => w.code == 1).or (ws.headD none)
  | _, _ => none

/-- The first barrier whose phase owes more arrivals than live warps can give, and whose fault is not raised yet (R239 cause 4). -/
def Team.overowed (t : Team) (live : List Warp) : Option Nat :=
  (List.range t.bars.length).find? fun b =>
    let x := t.bars.getD b default
    !t.owed.contains b && match x.count with
    | some c => (live.filter fun w => !x.pending.getLsbD w.id.warp).length < c - x.arrived
    | none => false

/-- A barrier fault (class 0x08) against the warp that acted, or the lowest live warp once it is gone; where none is left, the
warp whose retirement it was has it recorded (R239). -/
def State.barrierFault (s : State) (t : Team) (live : List Warp) (actor bar cause : Nat) : State :=
  let rec' (w : WarpId) : Stop := s.stopOf w 0x08 cause 0 (((s.warp? w).map (·.pc)).getD 0)
    [barrierWord t.core t.id.team actor bar cause (t.bars.getD bar default)]
  match ((live.find? fun x => x.id.warp == actor).or live.head?).map (·.id) with
  | some w => s.fault w (rec' w)
  | none => s.raise (rec' { team := t.id, warp := actor })

/-- The payload of R176. -/
def deadlockWords (t : Team) (live : List Warp) (ks : List WaitKind) : List W64 :=
  BitVec.ofNat 64 (t.core * 2 ^ 56 + t.id.team * 2 ^ 32 + t.credit % 2 ^ 16 * 2 ^ 16 + live.length) ::
    (live.zip ks).map fun (x, k) =>
      BitVec.ofNat 64 (x.id.warp * 2 ^ 56 + k.code * 2 ^ 40 + k.bar * 2 ^ 32 + k.size * 2 ^ 16 + x.limit)

/-- The tests of R176 and of R239's causes 4 and 5, after an action of a warp of the team. Where 4 and 5 both hold, or 4 holds of several
barriers, or 4 holds beside R176's deadlock, no rule gives a precedence: DESIGN CHOICE, the lower code and the lowest barrier, and 4 before
the deadlock (log 102). Under cause 5 the record names the barrier that the acting warp waits on, or else the lowest live warp's (DESIGN
CHOICE, log 102); a register-claim deadlock's names the lowest live warp and its pc (DESIGN CHOICE, log 123). -/
def State.testTeam (s : State) (id : TeamId) (actor : Nat) : State :=
  match s.team? id with
  | none => s
  | some t =>
    let live := (s.live id).mergeSort fun a b => a.id.warp ≤ b.id.warp
    match t.overowed live with
    | some b => (s.setTeam id fun t => { t with owed := b :: t.owed }).barrierFault t live actor b 4
    | none =>
      let ks := live.map fun x => s.waitKind t x
      if live.isEmpty || ks.any (·.isNone) then s
      else
        let ks := ks.filterMap fun k => k
        let pend := t.claims.filter fun c => !c.met
        if ks.any fun k => k.code == 1 then
          match pend with
          | c :: _ =>
            if t.credit < c.size then
              match live.head? with
              | some x => s.fault x.id (s.stopOf x.id 0x07 0 0 x.pc (deadlockWords t live ks))
              | none => s
            else s
          | [] => s
        else if pend.isEmpty then
          let bar := (((live.zip ks).find? fun p => p.1.id.warp == actor).map (·.2.bar)).getD ((ks.head?.map (·.bar)).getD 0)
          s.barrierFault t live actor bar 5
        else s

/-- After an instruction of a warp has acted: where its block has nothing left to fire and waits, a wait of it has begun or ended,
and the tests follow (R176, R239). -/
def State.tested (s : State) (w : WarpId) : State :=
  match (s.warp? w).bind (·.run) with
  | none => s
  | some r =>
    if r.canFire || r.nodes.all fun n => match n.st with
        | .waiting _ => false
        | _ => true
    then s else s.testTeam w.team w.warp

/-- After an instruction of a warp, the tests of its team's waits (R176, R239). -/
def afterIssue (w : WarpId) : Host.Outcome State Fault Refusal → Host.Outcome State Fault Refusal
  | .next s => .next (s.tested w)
  | o => o

end Sys2Proof.Machine
end

