-- ==== Sys2Proof/Machine/Barrier.lean ====
section
/-! DEFINITION. The barrier instructions (R233 to R239). -/
namespace Sys2Proof.Machine

/-- The cause 1 to 3 a barrier instruction meets at issue (R239); `n` is its phase count, none for BARWT. Where 2 and 3 both hold the
rule names none: DESIGN CHOICE, the lower code (log 102). -/
def Team.barCause (t : Team) (bar : Nat) (n : Option Nat) : Option Nat :=
  match t.bars[bar]? with
  | none => some 1
  | some b =>
    match n with
    | none => none
    | some n =>
      if b.count.isSome && b.count != some n then some 2
      else if t.bars.length < n then some 3 else none

/-- A barrier instruction with a valid uniform result: its causes tested as it issues, then `k` (R234, R239). -/
def State.barrierOp (s : State) (i : Instr) (bar : Nat) (n : Option Nat) (k : Issue → Team → State) :
    Host.Outcome State Fault Refusal :=
  s.firing i fun x =>
    if !uniOk i x.o then s.finish x
    else match s.team? x.w.team with
    | none => s.finish x
    | some t =>
      match t.barCause bar n, (x.run.node x.k).st with
      | some c, .idle =>
        s.fault x.w (s.stopOf x.w 0x08 c 0 x.run.va
          [barrierWord t.core t.id.team x.w.warp bar c (t.bars.getD bar default)])
      | _, _ => k x t

/-- The warp has arrived in the barrier's phase already (R233). -/
def Team.pendingAt (t : Team) (bar warp : Nat) : Bool := (t.bars.getD bar default).pending.getLsbD warp

/-- A wait begins, and the tests of R176 and R239 follow. -/
def State.waitTested (s : State) (x : Issue) (w : Wait) : State := (s.wait x w).testTeam x.w.team x.w.warp

/-- BARARV: it waits on its own earlier arrival, then arrives at its block's commit (R235). -/
def execBararv (pr : Pr) (bar cntm : BitVec 5) (s : State) : Host.Outcome State Fault Refusal :=
  s.barrierOp (.bararv pr bar cntm) bar.toNat (some (cntm.toNat + 1)) fun x t =>
    if t.pendingAt bar.toNat x.w.warp then s.waitTested x (.barwt bar.toNat)
    else s.leave x (.arrive bar.toNat (cntm.toNat + 1))

/-- BARWT: it waits while the warp's arrival is pending (R237). -/
def execBarwt (pr : Pr) (bar : BitVec 5) (s : State) : Host.Outcome State Fault Refusal :=
  s.barrierOp (.barwt pr bar) bar.toNat none fun x t =>
    if t.pendingAt bar.toNat x.w.warp then s.waitTested x (.barwt bar.toNat) else s.finish x

/-- BARSYN: it holds its block, which is counted once every other commit condition is met, until the phase completes (R236). -/
def execBarsyn (pr : Pr) (bar cntm : BitVec 5) (s : State) : Host.Outcome State Fault Refusal :=
  s.barrierOp (.barsyn pr bar cntm) bar.toNat (some (cntm.toNat + 1)) fun x _ => s.waitTested x (.barsyn bar.toNat)

end Sys2Proof.Machine
end

