-- ==== Sys2Proof/Machine/Engine.lean ====
section
/-! DEFINITION. SEND, WAITR and POLLR (R296, R297, R308, R309). -/
namespace Sys2Proof.Machine

/-- The places for outstanding messages a block holds: one for each SEND that has issued (R297). -/
def Run.messages (r : Run) : Nat :=
  (r.effs.filter fun e => match e.2 with
    | .message .. => true
    | _ => false).length

/-- One of a core's 64 places for outstanding messages is free (R297). -/
def State.msgPlace (s : State) (core : Nat) : Bool :=
  (s.msgs.filter fun m => m.core == core).length +
    ((s.warps.filter fun w => w.core == core).map fun w => ((w.run.map Run.messages).getD 0)).foldl (· + ·) 0 < 64

/-- SEND (R297): it waits for a place; its packet, lane by lane, and its payload leave at commit. -/
def execSend (pr : Pr) (msg : MsgOp) (lp : Bool) (s : State) : Host.Outcome State Fault Refusal :=
  let i : Instr := .send pr msg lp
  s.firing i fun x =>
    if !laneOk i x.o 0 then s.finish x
    else if !s.msgPlace x.warp.core then s.wait x .msgPlace
    else
      let ok (t : Token) (l : Nat) : Bool := x.o.am.getLsbD l && t.ok x.o.am l && predLane i x.o l
      s.leave x (.message msg lp ((List.range (msg.words lp)).map fun l => if ok x.o.left l then x.o.left.val32 l else 0)
        (if lp then (allLanes.filter (ok x.o.right)).map x.o.right.val32 else []))

/-- The value of a record word W0: STATUS · 256 + 1 where DONE is 1 and TAG matches, else 0 (R301, R309). -/
def replyValue (w : W64) (tag : W32) : W32 :=
  if w.getLsbD 0 && w.extractLsb' 32 32 == tag then (w.extractLsb' 8 8).setWidth 32 * 256 + 1 else 0

/-- W0 of the record at the reply location, read at device scope as a load there reads it; `k` goes on (R309). -/
def State.readReply (s : State) (x : Issue) (i : Instr) (spad : Bool) (k : State → W64 → State) : State :=
  let word (bs : List W8) : W64 := BitVec.ofNat 64 (leNat bs)
  if spad then
    let off := laneBase true x.o 0
    let read (s : State) : State :=
      let gs := spadGranules x.w.team off.toNat 8
      let s := s.correct gs
      match s.badOf gs with
      | .spad _ o :: _ => s.dataFault x.w x.run.va 2 o 0
      | _ => k s (word (s.spadRead x.w.team off.toNat 8))
    if (x.run.node x.k).st == .waiting .reply then read s else s.spadAccess x true false 8 [(0, off)] read
  else
    s.access x i 0 8 false [(0, laneBase false x.o 0)] fun s as =>
      match as with
      | a :: _ =>
        match s.coreRead x.w x.warp.core a.nc .device 0 a.pa 8 with
        | (s, _, some code) => s.dataFault x.w (a.va &&& 0x3FFFFFFFFFFFFF) code a.pa 0
        | (s, bs, none) => k s (word bs)
      | [] => s

/-- POLLR: one read (R309). -/
def execPollr (pr : Pr) (spad : Bool) (t0 t1 : Tgt) (s : State) : Host.Outcome State Fault Refusal :=
  let i : Instr := .pollr pr spad t0 t1
  s.firing i fun x =>
    if !uniOk i x.o then s.result x [t0, t1] (Token.uniform false false 0) 0
    else s.readReply x i spad fun s w => s.result x [t0, t1] (Token.uni32 (replyValue w (x.o.right.val32 0))) 0

/-- WAITR: it reads until the record matches (R309). -/
def execWaitr (pr : Pr) (spad : Bool) (t0 t1 : Tgt) (s : State) : Host.Outcome State Fault Refusal :=
  let i : Instr := .waitr pr spad t0 t1
  s.firing i fun x =>
    if !uniOk i x.o then s.result x [t0, t1] (Token.uniform false false 0) 0
    else s.readReply x i spad fun s w =>
      let v := replyValue w (x.o.right.val32 0)
      if v == 0 then s.wait x .reply else s.result x [t0, t1] (Token.uni32 v) 0

end Sys2Proof.Machine
end

