-- ==== Sys2Proof/Machine/Legend.lean ====
section
/-! DEFINITION. The Legend (R189 to R191): an entry's fields and when it is malformed, reading it through a core's cache,
TDSET and TDGET. -/
namespace Sys2Proof.Machine

/-- The fields of a Legend entry (R189); `ok` when it is not malformed. FMT: 0 f32, 1 f16, 2 bf16, 3 e4m3, 4 e5m2,
5 int8, 6 int4, 7 int3. -/
structure LEntry where
  kind : Nat
  space : Nat
  fmt : Nat
  sfmt : Nat
  grp : Bool
  spn : Nat
  mdx : Nat
  stride : Nat
  rows : Nat
  cols : Nat
  base : Nat
  sbase : Nat
  ok : Bool
  deriving DecidableEq, Repr, Inhabited

/-- An entry from its four words; a scale base beside no scale counts as an invalid value (log 18). -/
def parseEntry (ws : List W64) : LEntry :=
  let e (k : Nat) : Nat := (ws.getD k 0).toNat
  let f (k hi lo : Nat) : Nat := e k / 2 ^ lo % 2 ^ (hi + 1 - lo)
  let space := f 0 61 60
  let fmt := f 0 59 56
  let sfmt := f 0 55 54
  let spn := f 0 52 47
  let sbase := f 3 53 0
  { kind := f 0 63 62, space := space, fmt := fmt, sfmt := sfmt, grp := f 0 53 53 == 1, spn := spn, mdx := f 0 46 41
    stride := f 1 63 32, rows := f 1 31 16 + 1, cols := f 1 15 0 + 1, base := f 2 53 0, sbase := sbase
    ok := space != 3 && fmt < 8 && sfmt != 3 && spn ≤ 32 && f 0 40 0 == 0 && f 2 63 54 == 0 && f 3 63 54 == 0 &&
      (sfmt != 0 || sbase == 0) }

/-- The rows a weight entry stores (R194, R199). -/
def LEntry.stored (e : LEntry) : Nat := if e.spn == 0 then e.rows else e.rows / 2

/-- The stored rows of one run (R194), for the formats a weight entry may have; INT3 has none of its own. -/
def LEntry.perRun (e : LEntry) : Nat :=
  match e.fmt with
  | 2 => 4
  | 3 | 4 => 8
  | _ => 16

/-- The row-blocks of a weight image (R194). -/
def LEntry.blocks (e : LEntry) : Nat :=
  if e.fmt == 7 then 3 * ((e.stored + 63) / 64) else (e.stored + e.perRun - 1) / e.perRun

/-- The logical rows of one scale group (R195). -/
def LEntry.group (e : LEntry) : Nat := if e.grp then 64 else 32

/-- The Overlay region of a weight entry, from its first byte to the end of its later image (R195). -/
def LEntry.region (e : LEntry) : Nat × Nat :=
  let hi := e.base + 1024 * e.blocks
  if e.sfmt == 0 then (e.base, hi)
  else (min e.base e.sbase, max hi (e.sbase + 128 * ((e.rows + e.group - 1) / e.group)))

/-- A weight format that R194 lays out. -/
def LEntry.weightFmt (e : LEntry) : Bool := [2, 3, 4, 6, 7].contains e.fmt

/-- An entry that names an Overlay region (R42, R194): well formed, of kind weight, in the Overlay. -/
def LEntry.isWeight (e : LEntry) : Bool := e.ok && e.kind == 1 && e.space == 2 && e.weightFmt

/-- The scale image of an integer format stands at a multiple of 128 (R195). -/
def LEntry.scalesPlaced (e : LEntry) : Bool := !(e.fmt == 6 || e.fmt == 7) || e.sbase % 128 == 0

/-- The physical address of an entry (R190). -/
def State.legendAt (s : State) (ctx idx : Nat) : Nat := ((s.ctx? ctx).map (·.legend)).getD 0 + 32 * idx

/-- A core's cached copy of an entry. -/
def Core.legend? (c : Core) (ctx idx : Nat) : Option (List W64) :=
  (c.legend.find? fun e => e.ctx == ctx && e.idx == idx).map (·.words)

/-- The poison that reading an entry through the core's cache meets: its address and STRUCT (R362). -/
def State.legendMark (s : State) (core ctx idx : Nat) : Option (Nat × Nat) :=
  if ((s.core core).legend? ctx idx).isSome then none
  else (s.sysMark (s.legendAt ctx idx) 32).map fun k => (s.legendAt ctx idx, k)

/-- An entry's words through the core's cache, which a miss fills from memory (R190). An entry once cached stays as it was
read: a host's later write is seen at another placement, a TDSET or a reload (DESIGN CHOICE, log 133). -/
def State.legendWords (s : State) (core ctx idx : Nat) : State × List W64 :=
  match (s.core core).legend? ctx idx with
  | some ws => (s, ws)
  | none =>
    let at' := s.legendAt ctx idx
    let s := s.sysFix at' 32
    let ws : List W64 := (List.range 4).map fun k => BitVec.ofNat 64 (leNat (s.sysRead (at' + 8 * k) 8))
    let e : LegendEnt := { ctx := ctx, idx := idx, words := ws }
    (s.setCore core fun c => { c with legend := e :: c.legend }, ws)

/-- The cached Legend of a context on a core waits for its reload (R364). -/
def State.legendFrozen (s : State) (core ctx : Nat) : Bool := s.reloads.contains (.legend core ctx)

/-- A cached block lies in a 2 KiB region of a context's code. -/
def CodeEnt.inRegion (e : CodeEnt) (ctx : Nat) (va : W64) : Bool :=
  e.ctx == ctx && e.va.toNat < va.toNat + 2048 && va.toNat < e.va.toNat + 8 * e.words.length

/-- The cached copies of a region are dropped, so that they are read from memory again. -/
def State.dropRegion (s : State) : Granule → State
  | .code core ctx va => s.setCore core fun c => { c with code := c.code.filter fun e => !e.inRegion ctx va }
  | .legend core ctx => s.setCore core fun c => { c with legend := c.legend.filter fun e => e.ctx != ctx }
  | _ => s

/-- The issuing instruction reads an entry: it waits while the region is reloaded (R364), and poisoned memory faults it (R362). -/
def State.readLegend (s : State) (x : Issue) (idx : Nat) (k : State → List W64 → State) : State :=
  let ctx := x.w.team.launch.ctx
  let s := s.findRegion (.legend x.warp.core ctx)
  if s.legendFrozen x.warp.core ctx then s.wait x .region
  else match s.legendMark x.warp.core ctx idx with
    | some (pa, code) => s.dataFault x.w x.run.va code pa 0
    | none => let (s, ws) := s.legendWords x.warp.core ctx idx; k s ws

/-- The 32-bit word `i` of an entry (R191). -/
def legendWord (ws : List W64) (i : Nat) : W32 := (ws.getD (i / 2) 0).extractLsb' (32 * (i % 2)) 32

/-- TDSET: the words of its valid lanes below 8, written at commit (R191). -/
def execTdset (pr : Pr) (idx : BitVec 6) (s : State) : Host.Outcome State Fault Refusal :=
  let i : Instr := .tdset pr idx
  s.firing i fun x => s.leave x (.tdset idx.toNat (okLanes i x.o &&& 0xFF) ((List.range 8).map fun l => x.o.left.val32 l))

/-- TDGET: lane i receives word i of the cached entry, lanes 8 to 31 receive 0 (R191). -/
def execTdget (pr : Pr) (idx : BitVec 6) (t0 t1 : Tgt) (s : State) : Host.Outcome State Fault Refusal :=
  let i : Instr := .tdget pr idx t0 t1
  s.firing i fun x =>
    s.readLegend x idx.toNat fun s ws =>
      s.result x [t0, t1] (resultTok i x.o false fun l => if l < 8 then (legendWord ws l).setWidth 64 else 0) 0

/-- An entry's four words with the words of a mask replaced. -/
def setLegendWords (ws : List W64) (mask : Lanes) (new : List W32) : List W64 :=
  (List.range 4).map fun k =>
    let h (i : Nat) : W32 := if mask.getLsbD i then new.getD i 0 else legendWord ws i
    h (2 * k + 1) ++ h (2 * k)

/-- TDSET's change at commit (R191): a device-scope release store of the changed words at the entry's physical address,
the own cached copy updated, every other core's invalidated. -/
def State.commitTdset (s : State) (who : WarpId) (core idx : Nat) (mask : Lanes) (new : List W32) : State :=
  if mask == 0 then s else
  let ctx := who.team.launch.ctx
  let s := s.release core .device
  let s := (List.range 8).foldl (fun s i =>
    if mask.getLsbD i then s.coreStore who core false .device 0 (s.legendAt ctx idx + 4 * i) (leBytes 4 (new.getD i 0).toNat) else s) s
  let mine (e : LegendEnt) : Bool := e.ctx == ctx && e.idx == idx
  { s with cores := s.cores.mapIdx fun c k =>
      if c == core then
        { k with legend := k.legend.map fun e => if mine e then { e with words := setLegendWords e.words mask new } else e }
      else { k with legend := k.legend.filter fun e => !mine e } }

end Sys2Proof.Machine
end

