-- ==== Sys2Proof/Machine/Overlay.lean ====
section
/-! DEFINITION. The Overlay's fills and read references (R196), and its zeroing for another context (R197). -/
namespace Sys2Proof.Machine

/-- The bytes of a core's Overlay. -/
def overlaySize : Nat := 3145728

/-- A fill (R196): its place in the order of issue, its Legend index, the Overlay bytes it writes. -/
structure Fill where
  order : Nat
  idx : Nat
  lo : Nat
  hi : Nat
  deriving DecidableEq, Repr, Inhabited

/-- The Legend index of a FILLB (R299). -/
def Msg.fillIdx (m : Msg) : Nat := (m.packet.getD 6 0).toNat % 64

/-- The fills of a core's Overlay: header copies with DK 1 and FILLBs, in progress or waiting to begin. -/
def State.fills (s : State) (core : Nat) (going : Bool) : List Fill :=
  ((s.copies.filter fun c => c.core == core && c.ovl && (if going then c.phase == .writing else c.phase == .waiting)).map
    fun c => { order := c.id, idx := c.dst, lo := c.lo, hi := c.lo + c.len }) ++
  ((s.msgs.filter fun m => m.core == core && m.op == .fillb && m.status == 0 && m.phase == (if going then 1 else 0)).map
    fun m => { order := m.id, idx := m.fillIdx, lo := m.lo, hi := m.lo + m.len })

/-- A region may be read: its entry's fill count is zero, and no fill in progress writes a byte of it (R196). -/
def State.regionReady (s : State) (core idx lo hi : Nat) : Bool :=
  (s.fills core true).all fun f => f.idx != idx && !(f.lo < hi && lo < f.hi)

/-- A read reference to a region (R196). -/
def State.takeRegion (s : State) (o : RefOwner) (core lo hi : Nat) : State :=
  { s with refs := s.refs ++ [{ owner := o, obj := .region core lo hi, write := false, consumer := false }] }

/-- A read reference overlaps some bytes of a core's Overlay. -/
def State.regionRead (s : State) (core lo hi : Nat) : Bool :=
  s.refs.any fun r => match r.obj with
    | .region c l h => c == core && l < hi && lo < h
    | .tile .. => false

/-- A fill may begin: no read reference overlaps it, and of the fills issued before it that still wait none overlaps it and none
could begin, every reference that held it gone (R196, log 104). -/
def State.fillReady (s : State) (core order lo hi : Nat) : Bool :=
  !s.regionRead core lo hi && (s.fills core false).all fun f =>
    !(f.order < order && ((f.lo < hi && lo < f.hi) || !s.regionRead core f.lo f.hi))

/-- The 8-byte runs of an Overlay that some bytes touch (R193). -/
def ovlGranules (core lo hi : Nat) : List Granule :=
  (List.range ((hi - lo) / 8 + 2)).filterMap fun j =>
    let o := lo / 8 * 8 + 8 * j
    if o < hi then some (.ovl core o) else none

/-- Bytes written by a fill, for a context (R196, R197). -/
def State.fillWrite (s : State) (core ctx lo : Nat) (bs : List W8) : State :=
  (s.clearErrs ((ovlGranules core lo (lo + bs.length)).filter fun g => match g with
    | .ovl _ o => lo ≤ o && o + 8 ≤ lo + bs.length
    | _ => false)).setCore core fun c => { c with ovl := wrBytes c.ovl lo bs, ovlCtx := some ctx }

/-- The Overlay zeroed before a team of a context is placed, when its last fill was for another (R197). -/
def State.ovlEnter (s : State) (core ctx : Nat) : State :=
  match (s.core core).ovlCtx with
  | some c => if c == ctx then s else s.setCore core fun k => { k with ovl := [], ovlCtx := none }
  | none => s

end Sys2Proof.Machine
end

