-- ==== Sys2Proof/Machine/Tiles.lean ====
section
/-! DEFINITION. The tile instructions TARM, TSTAT and TCLR (R181 to R188), and the tile changes their commits make. -/
namespace Sys2Proof.Machine

/-- The first tile of a list that the issuing warp may not name (R181, R319). -/
def State.unnamed? (s : State) (x : Issue) (ts : List Nat) : Option Nat :=
  ts.find? fun tid => !(((s.team? x.w.team).map fun t => t.mayName x.w.warp tid).getD false)

/-- TARM: it waits for its tile to be empty or ready; the change comes at commit (R185, R186). -/
def execTarm (pr : Pr) (tid : BitVec 6) (count : BitVec 16) (s : State) : Host.Outcome State Fault Refusal :=
  let i : Instr := .tarm pr tid count
  s.firing i fun x =>
    if !uniOk i x.o then s.finish x
    else match s.unnamed? x [tid.toNat] with
    | some t => s.illegal x t false
    | none =>
      if s.tileSt x.w.team tid.toNat == .empty || s.tileSt x.w.team tid.toNat == .ready then
        s.leave x (.tarm tid.toNat count.toNat)
      else s.wait x .tiles

/-- The code of a tile's state (R182). -/
def TileSt.code : TileSt → Nat
  | .empty => 0
  | .filling => 1
  | .ready => 2
  | .draining => 3

/-- The code of a class (R188). -/
def clsCode : TakeCls → Nat
  | .own => 1
  | .neg => 2
  | .shr => 3

/-- A warp holds a unit (R317). -/
def Taken.heldBy (u : Taken) (warp : Nat) : Bool := if u.cls == .shr then u.sharers.getLsbD warp else u.holder == warp

/-- The tile a message writes, where it has one (R302, R303, R306). -/
def Msg.destTile (m : Msg) : Option Nat :=
  match m.op with
  | .copy => if (m.packet.getD 7 0).extractLsb' 30 2 == 1 then some ((m.packet.getD 6 0).toNat % 64) else none
  | .gathr => if (m.packet.getD 6 0).getLsbD 2 then some ((m.packet.getD 7 0).toNat % 64) else none
  | _ => none

/-- The tile of a COPYM (R299). -/
def Msg.shareTile (m : Msg) : Nat := (m.packet.getD 7 0).toNat % 64

/-- The copies, messages and shares that wait for a tile, by their places in the order of issue (R184, R285, R302). -/
def State.tileWaiters (s : State) (t : TeamId) (tid : Nat) : List Nat :=
  ((s.copies.filter fun c => c.warp.team == t && !c.ovl && c.dst == tid && c.phase == .waiting).map (·.id)) ++
  ((s.msgs.filter fun m => m.warp.team == t && m.phase == 0 && m.status == 0 && m.destTile == some tid).map (·.id)) ++
  ((s.msgs.filter fun m => m.op == .copym && m.phase < 2 && m.warp.team.launch == t.launch && m.shareTile == tid &&
    m.shares.any fun h => h.team == t.team && h.st == 0).map (·.id))

/-- The word of TSTAT (R188); a name taken before and no longer held shows LOST alone (R319). -/
def State.tileWord (s : State) (t : Team) (warp tid : Nat) : Nat :=
  match t.tile? tid with
  | some x =>
    let u := t.unitOf tid
    (if x.st == .draining then x.cnt * 65536 else 0) +
    (if (u.map fun u => u.heldBy warp).getD false then 64 else 0) + ((u.map fun u => clsCode u.cls).getD 0) * 16 +
    (if !(s.tileWaiters t.id tid).isEmpty then 8 else 0) + (if x.lost then 4 else 0) + x.st.code
  | none => if t.gone.any fun g => g.tid == tid && g.lost then 4 else 0

/-- TSTAT: it takes no reference, and faults only on a name the team neither holds nor has taken (R188, R319). -/
def execTstat (pr : Pr) (tid : BitVec 6) (t0 t1 : Tgt) (s : State) : Host.Outcome State Fault Refusal :=
  let i : Instr := .tstat pr tid t0 t1
  s.firing i fun x =>
    if !uniOk i x.o then s.result x [t0, t1] (Token.uniform false false 0) 0
    else match s.team? x.w.team with
    | none => s.illegal x tid.toNat false
    | some t =>
      if (t.tile? tid.toNat).isSome || t.gone.any (fun g => g.tid == tid.toNat) then
        s.result x [t0, t1] (Token.uni32 (BitVec.ofNat 32 (s.tileWord t x.w.warp tid.toNat))) 0
      else s.illegal x tid.toNat false

/-- TCLR: the tile empties at commit (R187). -/
def execTclr (pr : Pr) (tid : BitVec 6) (s : State) : Host.Outcome State Fault Refusal :=
  let i : Instr := .tclr pr tid
  s.firing i fun x =>
    if !uniOk i x.o then s.finish x
    else match s.unnamed? x [tid.toNat] with
    | some t => s.illegal x t false
    | none => s.leave x (.tclr tid.toNat)

/-- TARM's change (R182; a count of 0 on a draining tile empties it, and a tile a copy fills is left, log 17). -/
def Tile.arm (x : Tile) (n : Nat) : Tile :=
  match x.st with
  | .empty | .ready => if n == 0 then { x with st := .ready } else { x with st := .draining, cnt := n }
  | .draining => if n == 0 then { x with st := .empty, cnt := 0 } else { x with cnt := n }
  | .filling => x

/-- The copies in progress into a tile, and their parked lines, gone (R182); one that is pending for a join stands as completed,
so that a later write of its source reissues it all the same (R84). -/
def State.cancelFilling (s : State) (t : TeamId) (tid : Nat) : State :=
  let hit (c : Copy) : Bool := c.warp.team == t && !c.ovl && c.dst == tid && c.phase == .writing
  let ids := (s.copies.filter hit).map (·.id)
  let cut (c : Copy) : Option Copy :=
    if !hit c then some c else if c.pend.isSome then some { c with phase := .done, got := [] } else none
  { s with copies := s.copies.filterMap cut
           faultQ := s.faultQ.filter fun p => match p.of' with
             | .copy id => !ids.contains id
             | _ => true }

/-- Messages at work on a tile are cut short: they write no more of it, and a COPYM's share has failed (R182; log 23). -/
def State.cutMsgs (s : State) (t : TeamId) (tid : Nat) : State :=
  let hit (m : Msg) : Bool := m.warp.team == t && m.phase == 1 && m.destTile == some tid
  let share (m : Msg) (h : Share) : Share :=
    if m.op == .copym && m.warp.team.launch == t.launch && m.shareTile == tid && h.team == t.team && h.st == 1 then { h with st := 2 }
    else h
  let cut (m : Msg) : Msg :=
    if hit m then { m with phase := 2, done := 0, got := [], status := (Config.cutStatus m.id).toNat }
    else { m with shares := m.shares.map (share m) }
  let ids := (s.msgs.filter hit).map (·.id)
  { s with msgs := s.msgs.map cut
           faultQ := s.faultQ.filter fun p => match p.of' with
             | .msg id => !ids.contains id
             | _ => true }

/-- TCLR's change (R182, R187). -/
def State.clearTile (s : State) (t : TeamId) (tid : Nat) : State :=
  ((s.cancelFilling t tid).cutMsgs t tid).setTeam t fun x => x.setTile tid fun y => { y with st := .empty, cnt := 0 }

end Sys2Proof.Machine
end

