-- ==== Sys2Proof/Machine/Units.lean ====
section
/-! DEFINITION. What the units of the device share: whether one still runs (R357, R365), faults raised by an engine against
a warp (R300, R355), lines translated at the memory side and the home fault queue (R265, R391). -/
namespace Sys2Proof.Machine

/-- The partition that holds a die. -/
def State.partOfDie (s : State) (die : Nat) : Option Part := s.parts.find? fun p => p.dies.contains die

/-- A unit at work for a die: not frozen (R365), and not stopped by the halt of the die's partition (R357). -/
def State.unitRuns (s : State) (die : Nat) (m : Master) : Bool :=
  !s.frozen.contains m && ((s.partOfDie die).map fun p => !(p.up && p.stopped.contains m)).getD true

/-- The partition of a context. -/
def State.partOf (s : State) (ctx : Nat) : Nat := ((s.ctx? ctx).map fun c => c.part).getD 0

/-- A unit at work for a context: not frozen (R365), and not stopped by the halt of the context's partition (R357). -/
def State.unitRunsFor (s : State) (ctx : Nat) (m : Master) : Bool :=
  !s.frozen.contains m && ((s.parts[s.partOf ctx]?).map fun p => !(p.up && p.stopped.contains m)).getD true

/-- A core runs. -/
def State.coreRuns (s : State) (core : Nat) : Bool := s.unitRuns (dieOf core) (.core core)

/-- What an engine's fault against a warp records: EKIND 1 a copy unit, 2 an Overlay fill, 3 a sparse-update unit, 4 the
collective unit (R355). The core is not what raised it. -/
def State.engineStop (s : State) (w : WarpId) (ekind einst cls cause : Nat) (va : W64) (payload : List W64) : Stop :=
  { s.stopOf w cls cause 0 (va &&& 0x3FFFFFFFFFFFFF) payload with core := none, ekind := ekind, einst := einst }

/-- A fault against a warp, which may have retired. -/
def State.faultAgainst (s : State) (w : WarpId) (f : Stop) : State :=
  match s.warp? w with
  | some x => if x.phase == .retired then s.raise f else s.fault w f
  | none => s.raise f

/-- The parts of `len` bytes from an address, one for each 128-byte line: offset and length (R265). -/
def lineParts (va len : Nat) : List (Nat × Nat) :=
  (List.range (len / 128 + 2)).filterMap fun j =>
    let lo := 128 * j - va % 128
    let lo := if j == 0 then 0 else lo
    let hi := min len (128 * (j + 1) - va % 128)
    if lo < hi then some (lo, hi - lo) else none

/-- A line's place in the queue. -/
def State.parked? (s : State) (of' : LineOf) (va : W64) : Option PLine := s.faultQ.find? fun p => p.of' == of' && p.va == va

/-- A line may not perform yet: it is parked, or has been released while an earlier record of its context has still to replay
(R265). -/
def State.isParked (s : State) (of' : LineOf) (va : W64) : Bool :=
  match s.parked? of' va with
  | none => false
  | some p => !p.released || s.faultQ.any fun q => q.ctx == p.ctx && q.released && q.seq < p.seq

/-- A released line leaves the queue as it replays. -/
def State.unparkLine (s : State) (of' : LineOf) (va : W64) : State :=
  if s.faultQ.isEmpty then s else { s with faultQ := s.faultQ.filter fun p => !(p.of' == of' && p.va == va) }

/-- A line parks, with its record, while the queue and the context's share have room; else it waits at its source (R265). -/
def State.parkLine (s : State) (ctx src acc : Nat) (of' : LineOf) (va : W64) (core warp : Nat) : State :=
  if 64 ≤ (s.faultQ.filter fun p => p.ctx == ctx).length || 4096 ≤ s.faultQ.length then s
  else
    let (s, seq) := s.faultRecord ctx src acc va core warp
    { s with faultQ := s.faultQ ++ [{ seq := seq, ctx := ctx, of' := of', va := va, released := false }] }

/-- A line an engine accesses: its page and whether that is uncached, or the cause it fails with, or a poisoned entry its walk read; an absent page has
parked it (R265, R300). -/
inductive LineXl where
  | page (pa : Nat) (nc : Bool)
  | parked
  | bad (cause : Nat)
  | walk (pa code : Nat)
  deriving DecidableEq, Repr, Inhabited

/-- A line translated at the memory side (R265): `acc` 0 a read, 1 a write, 2 an atomic. -/
def State.lineAt (s : State) (ctx src acc : Nat) (of' : LineOf) (va : W64) (core warp : Nat) : State × LineXl :=
  let line := va &&& ~~~127
  if s.isParked of' line then (s, .parked) else
  match (s.unparkLine of' line).translate none ctx va with
  | (s, .bad c) => (s, .bad c)
  | (s, .poisoned pa code) => (s, .walk pa code)
  | (s, .absent) => (s.parkLine ctx src acc of' line core warp, .parked)
  | (s, .page pa w _ nc) => if acc != 0 && !w then (s, .bad 3) else if acc == 2 && (isHost pa || isPeer pa) then (s, .bad 7) else (s, .page pa nc)

end Sys2Proof.Machine
end

