-- ==== Sys2Proof/Machine/Copies.lean ====
section
/-! DEFINITION. Header copies (R6 to R11, R40 to R42, R182 to R184, R196, R265): their checks at issue, their beginning,
their lines and their end, reissue (R84), and the Overlay's fills. -/
namespace Sys2Proof.Machine

/-- A copy may begin into a tile: it is empty, no reference is held, and none that issued earlier waits (R183, R184). -/
def State.tileFree (s : State) (t : TeamId) (tid order : Nat) : Bool :=
  s.tileSt t tid == .empty && (s.tileRefs t tid).isEmpty && (s.tileWaiters t tid).all fun o => order ≤ o

/-- A tile's state set. -/
def State.tileState (s : State) (t : TeamId) (tid : Nat) (st : TileSt) : State :=
  s.setTeam t fun x => x.setTile tid fun y => { y with st := st, cnt := 0 }

/-! ### Beginning (R184, R196) -/

/-- The unit that performs a copy. -/
def Copy.unit (c : Copy) : Master := if c.ovl then .fill c.core else .copy (dieOf c.core)

/-- A copy changed. -/
def State.setCopy (s : State) (id : Nat) (f : Copy → Copy) : State :=
  { s with copies := s.copies.map fun c => if c.id == id then f c else c }

/-- A waiting copy begins: its tile becomes filling (R184), or its fill count rises (R196). -/
def State.beginCopy (s : State) (c : Copy) : State :=
  if c.phase != .waiting || !s.unitRuns (dieOf c.core) c.unit then s
  else if c.ovl then
    if s.fillReady c.core c.id c.lo (c.lo + c.len) then s.setCopy c.id fun y => { y with phase := .writing } else s
  else if s.tileFree c.warp.team c.dst c.id then
    (s.setCopy c.id fun y => { y with phase := .writing }).tileState c.warp.team c.dst .filling
  else s

/-! ### Issue (R40, R42) -/

/-- What issuing a copy finds: the copy's destination bytes, a fault naming a tile or (by 256 more) a Legend index, a poisoned
Legend entry by address and STRUCT (R362), or a region that reloads. -/
inductive CopyCheck where
  | ok (lo : Nat)
  | bad (code : Nat)
  | poisoned (pa code : Nat)
  | reloading (g : Granule)
  deriving DecidableEq, Repr, Inhabited

/-- The checks of R42 on a copy and its source value; a tile must be one its warp may name (R319). An entry whose format R194 does not lay
out, or whose scale image stands where R195 forbids it, describes no region to copy into (DEDUCED, log 120). -/
def State.checkCopy (s : State) (x : Warp) (d : CopyDecl) (src : W32) : State × CopyCheck :=
  let name := d.dst + if d.dk then 256 else 0
  if src.toNat % 16 != 0 then (s, .bad name)
  else if !d.dk then
    let fits : Bool := match s.team? x.id.team with
      | some t => t.mayName x.id.warp d.dst && d.dst < 32 && d.len ≤ ((t.tile? d.dst).map (·.size)).getD 0
      | none => false
    (s, if fits then .ok 0 else .bad name)
  else
  let s := s.findRegion (.legend x.core x.id.team.launch.ctx)
  if s.legendFrozen x.core x.id.team.launch.ctx then (s, .reloading (.legend x.core x.id.team.launch.ctx))
  else match s.legendMark x.core x.id.team.launch.ctx d.dst with
  | some (pa, code) => (s, .poisoned pa code)
  | none =>
    let (s, ws) := s.legendWords x.core x.id.team.launch.ctx d.dst
    let e := parseEntry ws
    let (lo, hi) := e.region
    (s, if e.isWeight && e.scalesPlaced && hi ≤ overlaySize && d.len ≤ hi - lo then .ok lo else .bad name)

/-- A copy that has passed its checks issues, and begins where nothing holds it back (R184, R196). -/
def State.putCopy (s : State) (x : Warp) (d : CopyDecl) (src : W32) (lo : Nat) (pend : Option Nat) (run : Nat) : State :=
  let (s, id) := s.newId
  let c : Copy :=
    { id := id, warp := x.id, core := x.core, ovl := d.dk, dst := d.dst, src := d.src, va := src.setWidth 64, len := d.len
      pol := d.pol, lo := lo, phase := .waiting, pend := pend, run := run, got := [] }
  { s with copies := s.copies ++ [c] }.beginCopy c

/-- A block's copies issue in declaration order; the answer is the first fault, a stop at a reload, or none (R6, R7, R32). -/
def State.issueCopies (s : State) (x : Warp) (ds : List CopyDecl) (pend : Option Nat) (run : Nat) : State × Option CopyCheck :=
  ds.foldl (fun p d =>
    match p.2 with
    | some _ => p
    | none =>
      let src := x.k.getD d.src 0
      match p.1.checkCopy x d src with
      | (s, .ok lo) => (s.putCopy x d src lo pend run, none)
      | (s, r) => (s, some r)) (s, none)

/-! ### Performing -/

/-- One line of a copy performed: read at the home side, or parked, or its fault raised (R265, R282, R362). -/
def State.copyLine (s : State) (id : Nat) (p : Nat × Nat) : State :=
  match s.copies.find? fun c => c.id == id with
  | none => s
  | some c =>
    if c.got.any fun g => g.1 == p.1 then s else
    let va := c.va + BitVec.ofNat 64 p.1
    let ctx := c.warp.team.launch.ctx
    let (ek, ei) := if c.ovl then (2, c.core) else (1, dieOf c.core)
    match s.lineAt ctx 3 0 (.copy id) va c.core c.warp.warp with
    | (s, .parked) => s
    | (s, .bad k) => (s.cancelCopy id).faultAgainst c.warp (s.engineStop c.warp ek ei 0x0A k va [])
    | (s, .walk pa code) => (s.cancelCopy id).faultAgainst c.warp (s.walkStop c.warp c.core va pa code)
    | (s, .page pa nc) =>
      match s.engineRead c.unit pa (p.2 / 4) with
      | (s, _, some (at', code)) =>
        (s.cancelCopy id).faultAgainst c.warp (s.engineStop c.warp ek ei 0x0B 0 va [BitVec.ofNat 64 code, BitVec.ofNat 64 at'])
      | (s, bs, none) =>
        (s.allocRead c.unit (s.partNo (dieOf c.core)) c.pol nc pa).setCopy id fun y => { y with got := y.got ++ [(p.1, bs)] }

/-- Every line of a copy has performed. -/
def Copy.whole (c : Copy) : Bool := (lineParts c.va.toNat c.len).all fun p => c.got.any fun g => g.1 == p.1

/-- A copy's last line: its bytes reach the tile, which becomes ready, or the Overlay (R42, R182, R196). -/
def State.endCopy (s : State) (c : Copy) : State :=
  let s := s.setCopy c.id fun y => { y with phase := .done }
  if c.ovl then c.got.foldl (fun s g => s.fillWrite c.core c.warp.team.launch.ctx (c.lo + g.1) g.2) s
  else
    let off := (((s.team? c.warp.team).bind fun t => t.tile? c.dst).map (·.off)).getD 0
    (c.got.foldl (fun s g => s.spadWrite c.warp.team (off + g.1) g.2) s).tileState c.warp.team c.dst .ready

/-- A copy in progress performs the lines it can, and ends with its last; a reissued one waits for the references to its
tile's old contents (R84, R183). -/
def State.runCopy (s : State) (c : Copy) : State :=
  if c.phase != .writing || !s.unitRuns (dieOf c.core) c.unit || (!c.ovl && !(s.tileRefs c.warp.team c.dst).isEmpty) then s
  else
    let s := (lineParts c.va.toNat c.len).foldl (fun s p => s.copyLine c.id p) s
    match s.copies.find? fun y => y.id == c.id with
    | some y => if y.whole then s.endCopy y else s
    | none => s

/-- A step of a header copy with the destination kind given. -/
def State.copyStep (s : State) (id : Nat) (ovl : Bool) (f : State → Copy → State) : Host.Outcome State Fault Refusal :=
  .next (match s.copies.find? fun c => c.id == id && c.ovl == ovl with
    | some c => f s c
    | none => s)

/-- A copy begins into its empty tile (R184). -/
def execCopyBegin (id : Nat) (s : State) : Host.Outcome State Fault Refusal := s.copyStep id false State.beginCopy

/-- A copy's lines perform; with the last the tile becomes ready (R182, R265). -/
def execCopyComplete (id : Nat) (s : State) : Host.Outcome State Fault Refusal := s.copyStep id false State.runCopy

/-- An Overlay fill begins (R196). -/
def execOverlayFillBegin (id : Nat) (s : State) : Host.Outcome State Fault Refusal := s.copyStep id true State.beginCopy

/-- An Overlay fill's lines perform; with the last its fill count falls (R196, R265). -/
def execOverlayFillComplete (id : Nat) (s : State) : Host.Outcome State Fault Refusal := s.copyStep id true State.runCopy

/-! ### Reissue (R84) -/

/-- A copy cancelled by a reissue: it stops where it stands, and its tile keeps its state (R11). -/
def State.abandonCopy (s : State) (id : Nat) : State :=
  { s with copies := s.copies.filter fun y => y.id != id, faultQ := s.faultQ.filter fun p => p.of' != .copy id }

/-- A pending copy whose source register a commit wrote is cancelled and issued again with the new value: the answer is the
fault of its new check, the old copy being cancelled all the same (R42, R84; what its tile is then: log 50). A completed copy finds
its tile as it stands: ready goes back to filling, empty lets it begin. -/
def State.reissue (s : State) (x : Warp) (c : Copy) : State × Option CopyCheck :=
  let src := x.k.getD c.src 0
  let d : CopyDecl := { dk := c.ovl, dst := c.dst, src := c.src, len := c.len, pol := c.pol }
  match s.checkCopy x d src with
  | (s, .ok lo) =>
    let (s, id) := s.newId
    let resume := c.phase == .writing || (c.phase == .done && !c.ovl && s.tileSt x.id.team c.dst == .ready)
    let new : Copy :=
      { c with id := id, va := src.setWidth 64, lo := lo, got := [], phase := if resume && !c.ovl then .writing else .waiting }
    let s := s.abandonCopy c.id
    let s : State := { s with copies := s.copies ++ [new] }
    (if resume && !c.ovl then s.tileState x.id.team c.dst .filling else s.beginCopy new, none)
  | (s, .reloading g) => (s, some (.reloading g))
  | (s, r) => (s.abandonCopy c.id, some r)

end Sys2Proof.Machine
end

