-- ==== Sys2Proof/Machine/Neighbour.lean ====
section
/-! DEFINITION. Neighbour forwarding: FSEND, FRECV and FPEEK (R226 to R232). -/
namespace Sys2Proof.Machine

/-- The team one step along the chain (R226), when the launch is chain-placed and has it; `pv` for the one before. -/
def State.neighbour (s : State) (t : TeamId) (pv : Bool) : Option TeamId :=
  match s.launch? t.launch with
  | some l =>
    if !l.chain then none
    else if pv then (if t.team == 0 then none else some { t with team := t.team - 1 })
    else if t.team + 1 < l.teams then some { t with team := t.team + 1 } else none
  | none => none

/-- A core's inbound queue: the previous queue for `pv`, else the next queue (R226). -/
def Core.queue (c : Core) (pv : Bool) : List NEntry := if pv then c.prev else c.next

/-- An inbound queue changed. -/
def Core.setQueue (c : Core) (pv : Bool) (f : List NEntry → List NEntry) : Core :=
  if pv then { c with prev := f c.prev } else { c with next := f c.next }

/-- The sends a block has promised in a direction (R228). -/
def Run.promised (r : Run) (pv : Bool) : Nat :=
  (r.effs.filter fun e => match e.2 with
    | .send p .. => p == pv
    | _ => false).length

/-- A place of the destination's queue is neither occupied nor promised; a retired destination always has one (R228). -/
def State.placeFree (s : State) (t : TeamId) (pv : Bool) : Bool :=
  match s.neighbour t pv with
  | none => true
  | some d =>
    match s.team? d with
    | none => true
    | some x =>
      let held := ((s.core x.core).queue (!pv)).length
      let flying := (s.flights.filter fun f => f.dest == d && f.prev == !pv).length
      let promised := ((s.warps.filter fun w => w.id.team == t).map fun w => ((w.run.map fun r => r.promised pv).getD 0)).foldl (· + ·) 0
      held + flying + promised < 8

/-- The oldest unreserved entry of a queue (R229). -/
def openEntry (q : List NEntry) : Option NEntry := q.find? fun e => e.by'.isNone

/-- A FRECV that issued earlier waits for an entry of the queue, so that this one waits behind it (R229). -/
def State.earlierRecv (s : State) (x : Issue) (pv : Bool) : Bool :=
  let n := x.run.node x.k
  s.warps.any fun y => y.id.team == x.w.team && (y.run.map fun r => (List.range (r.ni + 1)).any fun k =>
    (r.node k).st == .waiting (.entry pv) && !(y.id == x.w && k == x.k) && (n.st == .idle || (r.node k).since < n.since)).getD false

/-- A neighbour instruction: a team with no neighbour in its direction faults at issue (R226). -/
def State.neighbourOp (s : State) (x : Issue) (pv : Bool) (k : State) : State :=
  match s.neighbour x.w.team pv with
  | none => s.protection x 9 0 0
  | some _ => k

/-- FSEND: it waits for a place, which its held entry then has until the commit (R228). -/
def execFsend (pv : Bool) (pr : Pr) (rel : Bool) (s : State) : Host.Outcome State Fault Refusal :=
  let i : Instr := .fsend pv pr rel
  s.firing i fun x =>
    let m := okLanes i x.o
    if m == 0 then s.finish x
    else s.neighbourOp x pv <|
      if s.placeFree x.w.team pv then
        s.leave x (.send pv (allLanes.map fun l => if m.getLsbD l then x.o.left.val32 l else 0) m rel)
      else s.wait x (.place pv)

/-- FRECV: it waits for an unreserved entry, reserves the oldest and delivers it (R229). -/
def execFrecv (pv : Bool) (pr : Pr) (acq : Bool) (t0 t1 : Tgt) (s : State) : Host.Outcome State Fault Refusal :=
  let i : Instr := .frecv pv pr acq t0 t1
  s.firing i fun x =>
    if okLanes i x.o == 0 then s.result x [t0, t1] Token.empty 0
    else s.neighbourOp x pv <|
      match if s.earlierRecv x pv then none else openEntry ((s.core x.warp.core).queue pv) with
      | none => s.wait x (.entry pv)
      | some e =>
        let s := s.setCore x.warp.core fun c => c.setQueue pv fun q =>
          q.map fun y => if y.id == e.id then { y with by' := some (x.w, x.k) } else y
        let tok := Token.lanes false (okLanes i x.o &&& e.mask) fun l => (e.words.getD l 0).setWidth 64
        (s.leave x (.recv pv e.id)).setRun x.w fun r => r.putAll [t0, t1] tok

/-- FPEEK: the number of unreserved entries (R230). -/
def execFpeek (pv : Bool) (pr : Pr) (t0 t1 : Tgt) (s : State) : Host.Outcome State Fault Refusal :=
  let i : Instr := .fpeek pv pr t0 t1
  s.firing i fun x =>
    if !uniOk i x.o then s.result x [t0, t1] (Token.uniform false false 0) 0
    else s.neighbourOp x pv <|
      let n := (((s.core x.warp.core).queue pv).filter fun e => e.by'.isNone).length
      s.result x [t0, t1] (Token.uni32 (BitVec.ofNat 32 n)) 0

end Sys2Proof.Machine
end

