-- ==== Sys2Proof/Machine/Messages.lean ====
section
/-! DEFINITION. Engine messages as they leave their core (R296 to R307): the fields of a packet, its checks (R300), and what
each needs before it performs. -/
namespace Sys2Proof.Machine

/-! ### Fields (R298, R299) -/

/-- Packet word `i`. -/
def Msg.word (m : Msg) (i : Nat) : W32 := m.packet.getD i 0
/-- Bits [hi:lo] of packet word `i`. -/
def Msg.bits (m : Msg) (i hi lo : Nat) : Nat := (m.word i).toNat / 2 ^ lo % 2 ^ (hi + 1 - lo)
/-- A 54-bit address, low word first. -/
def Msg.addr (m : Msg) (i : Nat) : W64 := BitVec.ofNat 64 ((m.word i).toNat + 2 ^ 32 * m.bits (i + 1) 21 0)
/-- The bits above a 54-bit address are zero. -/
def Msg.addrOk (m : Msg) (i : Nat) : Bool := m.bits (i + 1) 31 22 == 0
/-- TAG. -/
def Msg.tag (m : Msg) : W32 := m.word 0
/-- RSP. -/
def Msg.inSpad (m : Msg) : Bool := m.bits 3 31 31 == 1
/-- The reply location: a virtual address, or an offset in the scratchpad. -/
def Msg.reply (m : Msg) : W64 := if m.inSpad then (m.word 1).setWidth 64 else m.addr 1
/-- ORD. -/
def Msg.ordered (m : Msg) : Bool := m.bits 3 27 27 == 1
/-- The kind of a COPY's end: 0 an address, 1 a tile. -/
def Msg.kind (m : Msg) (i : Nat) : Nat := m.bits (i + 1) 31 30

/-- A COPY's end: its kind with the bits that stand beside it, an address being 16-byte aligned (R299, R302). -/
def Msg.endOk (m : Msg) (i : Nat) : Bool :=
  match m.kind i with
  | 0 => m.bits (i + 1) 29 22 == 0 && (m.word i).toNat % 16 == 0
  | 1 => m.bits i 31 6 == 0 && m.bits (i + 1) 29 0 == 0
  | _ => false

/-- The type of a SCATR or COLL by its code. -/
def msgTy : Nat → Ty
  | 0 => .i32
  | 1 => .n32
  | 2 => .i64
  | 3 => .n64
  | _ => .f32

/-- The bytes of a SCATR's element. -/
def Msg.scatWidth (m : Msg) : Nat := if (msgTy (m.bits 6 5 3)).wide then 8 else 4
/-- The bytes of a GATHR's element. -/
def Msg.gathWidth (m : Msg) : Nat := if m.bits 6 1 0 == 2 then 4 else 8

/-- A count of tokens read from memory is in range, 1 to 2^24: a SCATR's by R305, a GATHR's by the model's choice (DESIGN CHOICE, log
114). -/
def countOk (n : Nat) : Bool := 1 ≤ n && n ≤ 2 ^ 24

/-- Where the entry of a collective group stands (R375). -/
def State.groupAt (s : State) (ctx g : Nat) : Nat := ((s.ctx? ctx).map (·.groups)).getD 0 + 16 * g

/-- The collective group's GSIZE, RANK and list of peers (R375). -/
def State.group (s : State) (ctx g : Nat) : Nat × Nat × Nat :=
  let at' := s.groupAt ctx g
  let w := leNat (s.sysRead at' 8)
  (w % 128, w / 256 % 128, leNat (s.sysRead (at' + 8) 8))

/-- The fields of a packet that are malformed (R298 to R307): the answer holds where the packet is good. The base and the destination of
a GATHR and the operands of a SCATR are aligned to their width, and index arrays to 4 bytes (DESIGN CHOICE, log 114). -/
def State.packetOk (s : State) (m : Msg) : Bool :=
  m.bits 2 31 22 == 0 && (!m.inSpad || m.bits 2 21 0 == 0) && m.bits 3 30 28 < 4 && (!m.ordered || m.op == .scatr) &&
    m.bits 3 26 0 == 0 &&
  match m.op with
  | .copy => m.endOk 4 && m.endOk 6 && (m.word 8).toNat % 16 == 0 && 16 ≤ (m.word 8).toNat && (m.word 8).toNat ≤ 2 ^ 30
  | .copym =>
    let lim := m.bits 7 12 8
    m.addrOk 4 && (m.word 4).toNat % 16 == 0 && (m.word 6).toNat % 16 == 0 && m.bits 7 7 6 == 0 && m.bits 7 31 13 == 0 &&
      (lim == 0 || (10 ≤ lim && lim ≤ 30)) && m.bits 9 31 16 == 0 && m.word 9 != 0
  | .fillb => m.addrOk 4 && (m.word 4).toNat % 16 == 0 && m.bits 6 31 6 == 0
  | .scatr =>
    let w := m.scatWidth
    m.addrOk 4 && (m.word 4).toNat % w == 0 && m.bits 6 31 6 == 0 && m.bits 6 2 0 ≤ 5 &&
      (m.bits 6 5 3 ≤ 3 || (m.bits 6 5 3 == 4 && m.bits 6 2 0 ≤ 2)) &&
      (m.lp || (countOk (m.word 7).toNat && m.addrOk 8 && (m.word 8).toNat % 4 == 0 && m.addrOk 10 && (m.word 10).toNat % w == 0))
  | .gathr =>
    let w := m.gathWidth
    m.addrOk 4 && (m.word 4).toNat % w == 0 && m.bits 6 31 3 == 0 && 2 ≤ m.bits 6 1 0 &&
      (if m.bits 6 2 2 == 1 then m.bits 7 31 6 == 0 && m.word 8 == 0 else m.addrOk 7 && (m.word 7).toNat % w == 0) &&
      (m.lp || (countOk (m.word 9).toNat && m.addrOk 10 && (m.word 10).toNat % 4 == 0))
  | .coll =>
    let (n, r, _) := s.group m.warp.team.launch.ctx (m.bits 4 7 0)
    let ty := m.bits 4 16 14
    m.bits 4 31 24 == 0 && (ty == 0 || ty == 1 || ty == 4) && m.bits 4 13 11 ≤ 2 && m.bits 4 10 8 ≤ 3 &&
      m.addrOk 5 && (m.word 5).toNat % 4 == 0 && m.addrOk 7 && (m.word 7).toNat % 4 == 0 &&
      n != 0 && r < n && (m.bits 4 10 8 != 3 || m.bits 4 23 17 < n)

/-- What a message moves: bytes of a COPY, COPYM or FILLB, tokens of a SCATR or GATHR, elements of a COLL. -/
def Msg.size (m : Msg) : Nat :=
  match m.op with
  | .copy => (m.word 8).toNat
  | .copym => (m.word 6).toNat
  | .fillb => m.len
  | .scatr => if m.lp then m.payload.length else (m.word 7).toNat
  | .gathr => if m.lp then m.payload.length else (m.word 9).toNat
  | .coll => (m.word 9).toNat

/-! ### Leaving (R297, R300) -/

/-- The fault of a reply location (R298, R300), with its address; an absent page parks when the reply is written. -/
def State.replyBad (s : State) (m : Msg) : Option (Nat × W64) :=
  let va := m.reply
  if va.toNat % 16 != 0 then some (5, va)
  else if m.inSpad then
    let t := s.team? m.warp.team
    let size := ((s.launch? m.warp.team.launch).map fun l => l.spad * 1024).getD 0
    if size < va.toNat + 16 || !((t.map fun t => (t.tilesAt va.toNat 16).isEmpty).getD true) then some (6, va) else none
  else match (s.translate none m.warp.team.launch.ctx va).2 with
    | .bad c => some (c, va)
    | .page _ w _ _ => if w then none else some (3, va)
    | _ => none

/-- The poisoned entry that the walk of a reply location reads, by its address and STRUCT (R298, R362). -/
def State.replyWalk (s : State) (m : Msg) : Option (Nat × Nat) :=
  if m.inSpad then none
  else match (s.translate none m.warp.team.launch.ctx m.reply).2 with
    | .poisoned pa code => some (pa, code)
    | _ => none

/-- A tile the message's team may use for so many bytes: the team holds it, the warp may name it, and it is long enough. -/
def State.msgTileOk (s : State) (m : Msg) (tid n : Nat) : Bool :=
  match s.team? m.warp.team with
  | some t => tid < 32 && t.mayName m.warp.warp tid && n ≤ ((t.tile? tid).map (·.size)).getD 0
  | none => false

/-- The tile a COPY reads (R302). -/
def Msg.srcTile (m : Msg) : Option Nat := if m.op == .copy && m.kind 4 == 1 then some (m.bits 4 5 0) else none

/-- The bytes a message writes at its destination. -/
def Msg.destBytes (m : Msg) : Nat := if m.op == .gathr then m.size * m.gathWidth else m.size

/-- The tile or, by 256 more, the Legend index a message cannot use (R300, R302 to R304, R306). -/
def State.msgIllegal (s : State) (m : Msg) (e : LEntry) : Option Nat :=
  let tile (t : Option Nat) (n : Nat) : Option Nat := t.bind fun t => if s.msgTileOk m t n then none else some t
  match m.op with
  | .fillb => if e.isWeight && e.scalesPlaced && e.region.2 ≤ overlaySize then none else some (256 + m.fillIdx)
  | .copym =>
    let l := (s.launch? m.warp.team.launch).getD Launch.none
    let t := m.shareTile
    if t < 32 && l.tileDecl t && (l.tileAt t).2 * 1024 < m.size then some t else none
  | _ => (tile m.srcTile m.size).or (tile m.destTile m.destBytes)

/-- The shares of a COPYM: a team that is not resident or does not hold the tile fails at once (R303), as does each share to a tile of 32
or more, which no engine copies into (R203; DEDUCED, log 56). -/
def State.sharesOf (s : State) (m : Msg) : List Share :=
  ((List.range 16).filter fun j => (m.word 9).getLsbD j).map fun j =>
    let t := (m.word 8).toNat + j
    let held := ((s.team? { launch := m.warp.team.launch, team := t }).map fun x => (x.tile? m.shareTile).isSome).getD false
    { team := t, since := s.now, st := if held && m.shareTile < 32 then 0 else 2 }

/-- A message leaves: checked, it waits for its engine; malformed, its reply is due (R297, R300); the entry of a COLL's group is read for
its check (R362, log 109). A FILLB whose block was counted while its Legend is reloaded reads the entry that the reload brings, from memory
(DESIGN CHOICE, log 118). The faults that follow its leaving stand against the warp, whose commit stands. -/
def State.leaveMessage (s : State) (w : WarpId) (core : Nat) (va : W64) (op : MsgOp) (lp : Bool) (packet payload : List W32) :
    State :=
  let (s, id) := s.newId
  let ctx := w.team.launch.ctx
  let m : Msg :=
    { id := id, warp := w, core := core, op := op, lp := lp, packet := packet, payload := payload, order := s.order, since := s.now, phase := 0
      lo := 0, len := 0, got := [], done := 0, status := 0, flags := 0, shares := [] }
  match s.replyBad m with
  | some (c, a) => s.fault w (s.stopOf w 0x0A c 0 (a &&& 0x3FFFFFFFFFFFFF) [])
  | none => match s.replyWalk m with
  | some (pa, code) => s.fault w (s.walkStop w core m.reply pa code)
  | none =>
    let table := s.groupAt ctx (m.bits 4 7 0)
    match if op == .coll then s.sysMark table 16 else none with
    | some code => s.faultAgainst w (s.engineStop w 4 0 0x0B 0 0 [BitVec.ofNat 64 code, BitVec.ofNat 64 table])
    | none =>
    let s := if op == .coll then s.sysFix table 16 else s
    let s := if op == .fillb && s.legendFrozen core ctx then s.dropRegion (.legend core ctx) else s
    if !s.packetOk m then { s with msgs := s.msgs ++ [{ m with phase := 2, status := 1 }] }
    else
      match if op == .fillb then s.legendMark core ctx m.fillIdx else none with
      | some (pa, code) => s.dataFault w va code pa 0
      | none =>
      let (s, e) := if op == .fillb then let (s, ws) := s.legendWords core ctx m.fillIdx; (s, parseEntry ws) else (s, parseEntry [])
      match s.msgIllegal m e with
      | some c =>
        s.fault w (s.stopOf w 0x05 0 0 va [BitVec.ofNat 64 c])
      | none =>
        let (lo, hi) := if op == .fillb then e.region else (0, 0)
        let m := { m with lo := lo, len := hi - lo, shares := if op == MsgOp.copym then s.sharesOf m else [] }
        let s := match m.srcTile with
          | some t => if s.canRead (.msg id) w.team t then s.takeRef (.msg id) w.team t false else s
          | none => s
        { s with msgs := s.msgs ++ [m] }

/-- The block sends a FILLB, which reads the Legend as it leaves (R189). -/
def Run.sendsFill (r : Run) : Bool := r.effs.any fun e => match e.2 with
  | .message .fillb .. => true
  | _ => false

/-- A block that holds a FILLB waits while the Legend it names is reloaded (R364). -/
def State.fillHeld (s : State) (x : Warp) (r : Run) : Bool := s.legendFrozen x.core x.id.team.launch.ctx && r.sendsFill

end Sys2Proof.Machine
end

