-- ==== Sys2Proof/Machine/Engines.lean ====
section
/-! DEFINITION. The engines at work on messages (R257, R285, R301 to R307): copies and gathers, shares of a COPYM, fills of the
Overlay, sparse updates, collectives, the reply record, and WAITR's match (R309). -/
namespace Sys2Proof.Machine

/-! ### Messages in the engines -/

/-- A message by its identity. -/
def State.msg? (s : State) (id : Nat) : Option Msg := s.msgs.find? fun m => m.id == id

/-- A message changed. -/
def State.setMsg (s : State) (id : Nat) (f : Msg → Msg) : State :=
  { s with msgs := s.msgs.map fun m => if m.id == id then f m else m }

/-- The kind and number of the unit a message is at work in (R355); a SCATR's arrays are read by the slice of its base (log 24). -/
def Msg.engine (m : Msg) : Nat × Nat :=
  match m.op with
  | .copy | .copym | .gathr => (1, dieOf m.core)
  | .fillb => (2, m.core)
  | .scatr => (3, sliceOf (m.addr 4).toNat)
  | .coll => (4, 0)

/-- The master of a message. -/
def Msg.master (m : Msg) : Master :=
  match m.op with
  | .copy | .copym | .gathr => .copy (dieOf m.core)
  | .fillb => .fill m.core
  | .scatr => .sparse (sliceOf (m.addr 4).toNat)
  | .coll => .coll

/-- The pieces of a COPY, each within one line of its source and one of its destination. -/
def Msg.copyParts (m : Msg) : List (Nat × Nat) :=
  let va (i : Nat) : Nat := if m.kind i == 0 then (m.addr i).toNat else 0
  (lineParts (va 4) m.size).flatMap fun p => (lineParts (va 6 + p.1) p.2).map fun q => (p.1 + q.1, q.2)

/-- Where a message keeps what it reads of an index array, of an operand array or a send buffer, and what it has written of a
receive buffer: keys above every offset of a destination. -/
def indexKey : Nat := 2 ^ 40
/-- The keys of an operand array and of a send buffer. -/
def operandKey : Nat := 2 ^ 41
/-- The keys of a receive buffer's lines. -/
def recvKey : Nat := 2 ^ 42

/-- The mask of the shares that failed (R303). -/
def Msg.failedShares (m : Msg) : Nat := (m.shares.filter fun h => h.st == 2).foldl (fun n h => n + 2 ^ (h.team - (m.word 8).toNat)) 0

/-- A message holds a part. -/
def Msg.has (m : Msg) (off : Nat) : Bool := m.got.any fun g => g.1 == off

/-- The bytes held of the parts of a message. -/
def Msg.gotBytes (m : Msg) : Nat := (m.got.map fun g => g.2.length).foldl (· + ·) 0

/-- The work a message has performed, counted as its reply's COUNT would be, the lines that a tile or the Overlay has still to show
among it (R265, R301, R358). -/
def Msg.performed (m : Msg) : Nat :=
  if 2 ≤ m.phase then m.done
  else match m.op with
  | .copy => ((m.copyParts.filter fun p => m.has p.1).map (·.2)).foldl (· + ·) 0
  | .gathr => (m.got.filter fun g => g.1 < indexKey).length
  | .scatr => m.done
  | .copym => m.failedShares
  | .coll => ((m.got.filter fun g => recvKey ≤ g.1).map fun g => g.2.length).foldl (· + ·) 0 / 4
  | .fillb => m.gotBytes

/-- What a message holds in the machine is given up: its references, its tiles, left empty, its parked lines, its tokens and its part
of a collective. -/
def State.releaseMsg (s : State) (id : Nat) : State :=
  match s.msg? id with
  | none => s
  | some m =>
    let s := s.dropRefs (.msg id) false
    let s := match m.phase, m.destTile with
      | 1, some t => s.tileState m.warp.team t .empty
      | _, _ => s
    let s := m.shares.foldl (fun s h =>
      if h.st == 1 then s.tileState { launch := m.warp.team.launch, team := h.team } m.shareTile .empty else s) s
    let mine (t : SparseTok) : SparseTok := { t with updates := t.updates.filter fun u => u.1 != id }
    let gone := (s.toks.filter fun t => (mine t).msgs.isEmpty).map fun t => t.id
    let leave (c : Collect) : Collect := { c with members := c.members.filter fun y => y.msg != some id }
    { s with
      toks := (s.toks.map mine).filter fun t => !t.msgs.isEmpty
      colls := (s.colls.map leave).filter fun c => !c.members.isEmpty
      faultQ := s.faultQ.filter fun p => match p.of' with
        | .msg i => i != id
        | .token i => !gone.contains i
        | _ => true }

/-- A message gone. -/
def State.dropMsg (s : State) (id : Nat) : State := let s := s.releaseMsg id; { s with msgs := s.msgs.filter fun y => y.id != id }

/-- A message that faults performs no more, and stays for the record that the halt writes of it (R358). -/
def State.failMsg (s : State) (id : Nat) : State :=
  (s.releaseMsg id).setMsg id fun m => { m with phase := 3, done := m.performed, got := [] }

/-- A data line that fails other than by an absent page: the fault is raised against the issuing warp (R300, R362). -/
def State.msgFault (s : State) (m : Msg) (x : LineXl) (va : W64) : State :=
  match x with
  | .bad c => (s.failMsg m.id).faultAgainst m.warp (s.engineStop m.warp m.engine.1 m.engine.2 0x0A c va [])
  | .walk pa code => (s.failMsg m.id).faultAgainst m.warp (s.walkStop m.warp m.core va pa code)
  | _ => s

/-- An engine's read that met an uncorrectable granule (R362). -/
def State.msgPoison (s : State) (m : Msg) (va : W64) (code at' : Nat) : State :=
  (s.failMsg m.id).faultAgainst m.warp
    (s.engineStop m.warp m.engine.1 m.engine.2 0x0B 0 va [BitVec.ofNat 64 code, BitVec.ofNat 64 at'])

/-- Bytes of one line read for a message under its POL; none where the line is parked or has failed. -/
def State.msgRead (s : State) (m : Msg) (va : W64) (n : Nat) : State × Option (List W8) :=
  match s.lineAt m.warp.team.launch.ctx 2 0 (.msg m.id) va m.core m.warp.warp with
  | (s, .page pa nc) =>
    match s.engineRead m.master pa ((n + 3) / 4) with
    | (s, _, some (at', code)) => (s.msgPoison m va code at', none)
    | (s, bs, none) => (s.allocRead m.master (s.partNo (dieOf m.core)) (m.bits 3 30 28) nc pa, some (bs.take n))
  | (s, x) => (s.msgFault m x va, none)

/-- Bytes of one line written for a message; whether they were. -/
def State.msgWrite (s : State) (m : Msg) (va : W64) (bs : List W8) : State × Bool :=
  match s.lineAt m.warp.team.launch.ctx 2 1 (.msg m.id) va m.core m.warp.warp with
  | (s, .page pa _) => (s.homeStore (s.partNo (dieOf m.core)) pa bs, true)
  | (s, x) => (s.msgFault m x va, false)

/-- Bytes of a scratchpad tile read for a message. -/
def State.msgTileRead (s : State) (m : Msg) (tid off n : Nat) : State × Option (List W8) :=
  let base := (((s.team? m.warp.team).bind fun t => t.tile? tid).map (·.off)).getD 0
  let gs := spadGranules m.warp.team (base + off) n
  let s := s.correct gs
  match s.badOf gs with
  | .spad _ o :: _ => (s.msgPoison m 0 2 o, none)
  | _ => (s, some (s.spadRead m.warp.team (base + off) n))

/-- A part of a message has performed, with the bytes it holds. -/
def State.gotPart (s : State) (id off : Nat) (bs : List W8) : State := s.setMsg id fun m => { m with got := m.got ++ [(off, bs)] }

/-- The parts a message has still to perform, each in turn while the message stands. -/
def State.eachPart {α : Type} (s : State) (id : Nat) (key : α → Nat) (ps : List α) (f : State → Msg → α → State) : State :=
  ps.foldl (fun s p => match s.msg? id with
    | some m => if m.has (key p) || 2 ≤ m.phase then s else f s m p
    | none => s) s

/-- The addresses a message names, each with its bytes, as far as its packet tells them; `g` is the size of a COLL's group. -/
def Msg.ranges (m : Msg) (g : Nat) : List (W64 × Nat) :=
  let each (i w : Nat) : List (W64 × Nat) := m.payload.map fun j => (m.addr i + BitVec.ofNat 64 (j.toNat * w), w)
  match m.op with
  | .copy => (if m.kind 4 == 0 then [(m.addr 4, m.size)] else []) ++ if m.kind 6 == 0 then [(m.addr 6, m.size)] else []
  | .copym | .fillb => [(m.addr 4, m.size)]
  | .scatr =>
    if m.lp then each 4 m.scatWidth else [(m.addr 8, 4 * m.size), (m.addr 10, m.scatWidth * m.size)]
  | .gathr =>
    (if m.lp then each 4 m.gathWidth else [(m.addr 10, 4 * m.size)]) ++
    if m.bits 6 2 2 == 1 then [] else [(m.addr 7, m.gathWidth * m.size)]
  | .coll =>
    [(m.addr 5, 4 * m.size * if m.bits 4 10 8 == 2 then g else 1), (m.addr 7, 4 * m.size * if m.bits 4 10 8 == 1 then g else 1)]

/-- A message begins: an address of it whose bits [63:54] are not zero is a protection fault with cause 0x01 (R259). -/
def State.beginning (s : State) (m : Msg) (k : State → State) : State :=
  let g := if m.op == .coll then (s.group m.warp.team.launch.ctx (m.bits 4 7 0)).1 else 0
  match (m.ranges g).find? fun r => 0 < r.2 && 2 ^ 54 < r.1.toNat + r.2 with
  | some r => s.msgFault m (.bad 1) (if r.1.toNat < 2 ^ 54 then 0x40000000000000 else r.1)
  | none => k s

/-- A message has performed, and its reply is due (R301); it holds its references until the reply has been written (R183, R184). -/
def State.endMsg (s : State) (id done status : Nat) : State :=
  s.setMsg id fun m => { m with phase := 2, done := done, status := status, got := [] }

/-- A step of a message of one kind whose unit runs. -/
def State.msgStep (s : State) (id : Nat) (op : MsgOp) (f : State → Msg → State) : Host.Outcome State Fault Refusal :=
  .next (match s.msg? id with
    | some m => if m.op == op && m.phase < 2 && s.unitRuns (dieOf m.core) m.master then f s m else s
    | none => s)

/-! ### COPY and GATHR (R302, R306) -/

/-- A message whose destination is a tile begins with it (R184), and one whose source is a tile holds its reference (R183). -/
def State.beginMsg (s : State) (m : Msg) : State :=
  if m.phase != 0 then s
  else
    let t := m.warp.team
    let held (r : Ref) : Bool := r.owner == .msg m.id
    let src := match m.srcTile with
      | some x => s.refs.any held || s.canRead (.msg m.id) t x
      | none => true
    let dst := match m.destTile with
      | some x => s.tileFree t x m.id
      | none => true
    if !(src && dst) then
      match m.srcTile with
      | some x => if src && !s.refs.any held then s.takeRef (.msg m.id) t x false else s
      | none => s
    else s.beginning m fun s =>
      let s := match m.srcTile with
        | some x => if s.refs.any held then s else s.takeRef (.msg m.id) t x false
        | none => s
      let s := match m.destTile with
        | some x => s.tileState t x .filling
        | none => s
      s.setMsg m.id fun y => { y with phase := 1 }

/-- The bytes held for a tile written to it, and the tile ready (R182, R302). -/
def State.fillTile (s : State) (t : TeamId) (tid : Nat) (got : List (Nat × List W8)) : State :=
  let off := (((s.team? t).bind fun x => x.tile? tid).map (·.off)).getD 0
  (got.foldl (fun s g => s.spadWrite t (off + g.1) g.2) s).tileState t tid .ready

/-- One piece of a COPY. -/
def State.copyPart (s : State) (m : Msg) (p : Nat × Nat) : State :=
  let at' (i : Nat) : W64 := m.addr i + BitVec.ofNat 64 p.1
  let r := match m.srcTile with
    | some t => s.msgTileRead m t p.1 p.2
    | none => s.msgRead m (at' 4) p.2
  match r with
  | (s, none) => s
  | (s, some bs) =>
    match m.destTile with
    | some _ => s.gotPart m.id p.1 bs
    | none => let (s, ok) := s.msgWrite m (at' 6) bs; if ok then s.gotPart m.id p.1 [] else s

/-- A message ends once every part of it has performed, its tile filled with what it holds. -/
def State.finishParts (s : State) (id : Nat) (keys : List Nat) (done : Nat) : State :=
  match s.msg? id with
  | none => s
  | some m =>
    if !(keys.all fun k => m.has k) then s
    else
      let s := match m.destTile with
        | some t => s.fillTile m.warp.team t (m.got.filter fun g => keys.contains g.1)
        | none => s
      s.endMsg id done 0

/-- COPY_MESSAGE (R302): the message begins, and performs the lines it can. -/
def execCopyMessage (id : Nat) (s : State) : Host.Outcome State Fault Refusal :=
  s.msgStep id .copy fun s m =>
    let s := s.beginMsg m
    match s.msg? id with
    | some m =>
      if m.phase != 1 then s
      else (s.eachPart id (fun p => p.1) m.copyParts State.copyPart).finishParts id (m.copyParts.map fun p => p.1) m.size
    | none => s

/-- The lines of an array of a message, with the key each is kept under. -/
def arrayParts (va : W64) (len key : Nat) : List (W64 × Nat × Nat) :=
  (lineParts va.toNat len).map fun p => (va + BitVec.ofNat 64 p.1, p.2, key + p.1)

/-- One line of an array read and kept. -/
def State.arrayPart (s : State) (m : Msg) (p : W64 × Nat × Nat) : State :=
  match s.msgRead m p.1 p.2.1 with
  | (s, some bs) => s.gotPart m.id p.2.2 bs
  | (s, none) => s

/-- The bytes of an array kept from a key on. -/
def Msg.kept (m : Msg) (key : Nat) (parts : List (W64 × Nat × Nat)) : List W8 :=
  parts.flatMap fun p => ((m.got.find? fun g => g.1 == p.2.2 && key ≤ g.1).map (·.2)).getD []

/-- 32-bit words from bytes. -/
def bytesWords (n : Nat) (bs : List W8) : List W32 :=
  (List.range n).map fun i => BitVec.ofNat 32 (leNat ((bs.drop (4 * i)).take 4))

/-- The index array of a SCATR or GATHR without a lane payload. -/
def Msg.indexParts (m : Msg) : List (W64 × Nat × Nat) :=
  if m.lp then [] else arrayParts (m.addr (if m.op == .scatr then 8 else 10)) (4 * m.size) indexKey

/-- The indices of a SCATR or GATHR whose arrays have been read. -/
def Msg.indices (m : Msg) : List W32 := if m.lp then m.payload else bytesWords m.size (m.kept indexKey m.indexParts)

/-- One element of a GATHR: token `j` with its index. -/
def State.gatherPart (s : State) (m : Msg) (p : Nat × W32) : State :=
  let w := m.gathWidth
  match s.msgRead m (m.addr 4 + BitVec.ofNat 64 (p.2.toNat * w)) w with
  | (s, none) => s
  | (s, some bs) =>
    match m.destTile with
    | some _ => s.gotPart m.id (p.1 * w) bs
    | none =>
      let (s, ok) := s.msgWrite m (m.addr 7 + BitVec.ofNat 64 (p.1 * w)) bs
      if ok then s.gotPart m.id (p.1 * w) [] else s

/-- GATHR (R306): its indices, then an element for each. -/
def execGathr (id : Nat) (s : State) : Host.Outcome State Fault Refusal :=
  s.msgStep id .gathr fun s m =>
    let s := s.beginMsg m
    match s.msg? id with
    | none => s
    | some m =>
      if m.phase != 1 then s
      else
        let s := s.eachPart id (fun p => p.2.2) m.indexParts State.arrayPart
        match s.msg? id with
        | none => s
        | some m =>
          if !(m.indexParts.all fun p => m.has p.2.2) then s
          else
            let es := (List.range m.size).zip m.indices
            (s.eachPart id (fun p => p.1 * m.gathWidth) es State.gatherPart).finishParts id
              (es.map fun p => p.1 * m.gathWidth) m.size

/-! ### COPYM (R285, R303) -/

/-- A share of a message changed. -/
def State.setShare (s : State) (id team st : Nat) : State :=
  s.setMsg id fun m => { m with shares := m.shares.map fun h => if h.team == team then { h with st := st } else h }

/-- The team of a share. -/
def Msg.shareTeam (m : Msg) (team : Nat) : TeamId := { launch := m.warp.team.launch, team := team }

/-- The key of a part of a share. -/
def shareKey (team off : Nat) : Nat := (team + 1) * 2 ^ 40 + off

/-- The stall limit in cycles (R303). -/
def Msg.stallLimit (m : Msg) : Nat := if m.bits 7 12 8 == 0 then 2 ^ 20 else 2 ^ m.bits 7 12 8

/-- A waiting share begins into its empty tile; one whose team is no longer resident fails, and one that has waited longer than
the limit is abandoned (R285, R303). -/
def State.beginShare (s : State) (m : Msg) (h : Share) : State :=
  let t := m.shareTeam h.team
  if h.st != 0 then s
  else if !(((s.team? t).map fun x => (x.tile? m.shareTile).isSome).getD false) then s.setShare m.id h.team 2
  else if m.stallLimit < s.now - h.since then s.setShare m.id h.team 2
  else if s.tileFree t m.shareTile m.id then
    s.beginning m fun s => (s.setShare m.id h.team 1).tileState t m.shareTile .filling
  else s

/-- A share's lines; with the last its tile is ready. With a length of 0 it has none, and its tile is ready at once (DEDUCED, log 56). -/
def State.runShare (s : State) (m : Msg) (team : Nat) : State :=
  let ps := arrayParts (m.addr 4) m.size (shareKey team 0)
  let s := s.eachPart m.id (fun p => p.2.2) ps State.arrayPart
  match s.msg? m.id with
  | none => s
  | some m =>
    if !(ps.all fun p => m.has p.2.2) then s
    else
      let got := ps.filterMap fun p => (m.got.find? fun g => g.1 == p.2.2).map fun g => (g.1 - shareKey team 0, g.2)
      (s.fillTile (m.shareTeam team) m.shareTile got).setShare m.id team 3

/-- The reply is due once every share has completed or failed: the mask of the failed, and STATUS 0x02 where there is one (R303). -/
def State.settleShares (s : State) (id : Nat) : State :=
  match s.msg? id with
  | none => s
  | some m =>
    if m.op != .copym || 2 ≤ m.phase || !(m.shares.all fun h => 2 ≤ h.st) then s
    else
      s.endMsg id m.failedShares (if m.failedShares == 0 then 0 else 2)

/-- COPYM: one share begins, or performs the lines it can (R303). -/
def execCopym (id team : Nat) (s : State) : Host.Outcome State Fault Refusal :=
  s.msgStep id .copym fun s m =>
    let s := match m.shares.find? fun h => h.team == team with
      | some h => s.beginShare m h
      | none => s
    let s := match (s.msg? id).bind fun m => if m.phase < 2 then m.shares.find? fun h => h.team == team else none with
      | some h => if h.st == 1 then s.runShare m team else s
      | none => s
    s.settleShares id

/-- COPYM_SHARE_ABANDON: a share that has waited longer than the limit fails (R285). -/
def execCopymShareAbandon (id team : Nat) (s : State) : Host.Outcome State Fault Refusal :=
  s.msgStep id .copym fun s m =>
    match m.shares.find? fun h => h.team == team && h.st == 0 with
    | some h => if m.stallLimit < s.now - h.since then (s.setShare id team 2).settleShares id else s
    | none => s

/-! ### FILLB (R304) -/

/-- FILLB: it begins once its region may be written (R196), and its lines perform; with the last the region holds them. -/
def execFillb (id : Nat) (s : State) : Host.Outcome State Fault Refusal :=
  s.msgStep id .fillb fun s m =>
    let s := if m.phase == 0 && s.fillReady m.core m.id m.lo (m.lo + m.len) then
        s.beginning m fun s => s.setMsg id fun y => { y with phase := 1 }
      else s
    match s.msg? id with
    | none => s
    | some m =>
      if m.phase != 1 then s
      else
        let ps := arrayParts (m.addr 4) m.len 0
        let s := s.eachPart id (fun p => p.2.2) ps State.arrayPart
        match s.msg? id with
        | none => s
        | some m =>
          if !(ps.all fun p => m.has p.2.2) then s
          else (m.got.foldl (fun s g => s.fillWrite m.core m.warp.team.launch.ctx (m.lo + g.1) g.2) s).endMsg id m.len 0

/-! ### SCATR and the sparse-update units (R257, R305) -/

/-- The operation of an update by OPR (R305). -/
def scatOp : Nat → Aop
  | 0 => .add
  | 1 => .min
  | 2 => .max
  | 3 => .and
  | 4 => .or
  | _ => .xor

/-- The operand array of a SCATR without a lane payload. -/
def Msg.operandParts (m : Msg) : List (W64 × Nat × Nat) :=
  if m.lp then [] else arrayParts (m.addr 10) (m.scatWidth * m.size) operandKey

/-- The operand of update `j`: P7 widened (R86), or an element of the array. -/
def Msg.operand (m : Msg) (ty : Ty) (bs : List W8) (j : Nat) : W64 :=
  let w := m.scatWidth
  if m.lp then (if ty == .i64 then (m.word 7).signExtend 64 else (m.word 7).setWidth 64)
  else BitVec.ofNat 64 (leNat ((bs.drop (w * j)).take w))

/-- SCATR: it reads its arrays, and its updates then go out, one for each index (R305). -/
def execScatr (id : Nat) (s : State) : Host.Outcome State Fault Refusal :=
  s.msgStep id .scatr fun s m =>
    if m.phase != 0 then s
    else s.beginning m fun s =>
      let ps := m.indexParts ++ m.operandParts
      let s := s.eachPart id (fun p => p.2.2) ps State.arrayPart
      match s.msg? id with
      | none => s
      | some m =>
        if !(ps.all fun p => m.has p.2.2) then s
        else
          let ty := msgTy (m.bits 6 5 3)
          let ops := m.kept operandKey m.operandParts
          let toks : List SparseTok := ((List.range m.size).zip m.indices).map fun p =>
            { id := s.nextId + p.1, updates := [(id, m.addr 4 + BitVec.ofNat 64 (p.2.toNat * m.scatWidth))], pa := none
              aop := scatOp (m.bits 6 2 0), ty := ty, val := m.operand ty ops p.1, ord := m.ordered }
          let s := { s with toks := s.toks ++ toks, nextId := s.nextId + m.size }
          let s := s.setMsg id fun y => { y with phase := 1, got := [] }
          if m.size == 0 then s.endMsg id 0 0 else s

/-- The atomic an update is the like of (R305). -/
def SparseTok.fields (t : SparseTok) : AtomF :=
  { aop := t.aop, ty := t.ty, pr := .always, indexed := false, sc := .device, ord := .relaxed, ss := 0, imm := 0, t0 := .none
    t1 := .none }

/-- Flags added to messages. -/
def State.msgFlags (s : State) (ids : List Nat) (f : Flags) : State :=
  { s with msgs := s.msgs.map fun m => if ids.contains m.id then { m with flags := m.flags ||| f } else m }

/-- Two tokens in the window merge: one address, one operation, and neither of an ordered message (R257). -/
def SparseTok.merges (a b : SparseTok) : Bool :=
  a.pa.isSome && a.pa == b.pa && a.aop == b.aop && a.ty == b.ty && !a.ord && !b.ord

/-- A token with its physical address enters the window, merged with the one it meets there, the earlier on the left (R257). -/
def State.enterWindow (s : State) (t : SparseTok) : State :=
  let rest := s.toks.filter fun y => y.id != t.id
  match rest.find? fun y => y.merges t with
  | some y =>
    let (v, f) := atomVal t.fields y.val t.val 0
    let new : SparseTok := { y with updates := y.updates ++ t.updates, val := t.ty.cut (v.getD y.val) }
    ({ s with toks := rest.map fun (z : SparseTok) => if z.id == y.id then new else z }).msgFlags new.msgs f
  | none => { s with toks := rest ++ [t] }

/-- The tokens in a slice's window. -/
def State.window (s : State) (slice : Nat) : List SparseTok :=
  s.toks.filter fun t => (t.pa.map fun a => sliceOf a == slice).getD false

/-- The die that a token works for: its first message's. -/
def State.tokDie (s : State) (t : SparseTok) : Nat := (((t.msgs.head?).bind s.msg?).map fun m => dieOf m.core).getD 0

/-- A token on its way is translated, and enters the window of its slice while that has room (R257, R265); while the units it goes through
have stopped, nothing of it begins (R357, R358, R365). -/
def State.arriveTok (s : State) (id : Nat) : State :=
  match s.toks.find? fun t => t.id == id && t.pa.isNone with
  | none => s
  | some t =>
    match (t.msgs.head?).bind s.msg? with
    | none => s
    | some m =>
      match s.lineAt m.warp.team.launch.ctx 2 2 (.token id) t.va m.core m.warp.warp with
      | (s', .page pa _) =>
        if s.unitRuns (dieOf m.core) (.sparse (sliceOf pa)) && (s.window (sliceOf pa)).length < 64 then
          s'.enterWindow { t with pa := some pa }
        else s
      | (s', x) => if s.unitRuns (dieOf m.core) m.master then s'.msgFault m x t.va else s

/-- Messages end with the last of their updates (R301). -/
def State.countUpdates (s : State) (ids : List Nat) : State :=
  ids.foldl (fun s id =>
    let s := s.setMsg id fun m => { m with done := m.done + 1 }
    match s.msg? id with
    | some m => if m.done == m.size then s.endMsg id m.done 0 else s
    | none => s) s

/-- A token of a window is applied at its line's home, recalled from every die; an ordered message's tokens to one address
in the order they arrived (R256, R257). -/
def State.applyTok (s : State) (id : Nat) : State :=
  match s.toks.find? fun t => t.id == id with
  | none => s
  | some t =>
    match t.pa with
    | none => s
    | some pa =>
      let n := if t.ty.wide then 8 else 4
      let early := t.ord && (s.toks.takeWhile fun y => y.id != id).any fun y => y.pa == t.pa && y.ord && y.msgs == t.msgs
      if early || !s.unitRuns (s.tokDie t) (.sparse (sliceOf pa)) then s
      else
        let s := (s.atHome (s.partNo (s.tokDie t)) pa n).dropLags pa n
        match s.sysMark pa n with
        | some code =>
          t.updates.foldl (fun s u => match s.msg? u.1 with
            | some m => if m.phase == 3 then s else (s.failMsg u.1).faultAgainst m.warp
                (s.engineStop m.warp 3 (sliceOf pa) 0x0B 0 u.2 [BitVec.ofNat 64 code, BitVec.ofNat 64 pa])
            | none => s) s
        | none =>
          let (v, f) := atomVal t.fields (BitVec.ofNat 64 (leNat (rdBytes s.mem pa n))) t.val 0
          let s := match v with
            | some v => s.setHome pa (leBytes n v.toNat)
            | none => s
          (({ s with toks := s.toks.filter fun y => y.id != id }).msgFlags t.msgs f).countUpdates t.msgs

/-- SPARSE_TOKEN_ARRIVE: token `id` arrives, and the unit applies token `pick` of a window, in whatever order it takes them (R257). -/
def execSparseTokenArrive (id pick : Nat) (s : State) : Host.Outcome State Fault Refusal := .next ((s.arriveTok id).applyTok pick)

/-! ### Replies (R298, R301, R309) -/

/-- Flags ORed into a warp's `%fstat` as it stands: live, or in its saved record (R145, R284). -/
def State.orFstat (s : State) (w : WarpId) (f : Flags) : State :=
  let s := s.setWarp w fun x => { x with fstat := f.into x.fstat }
  s.setLaunch w.team.launch fun l => { l with saved := l.saved.map fun t =>
    { t with warps := t.warps.map fun x => if x.id == w then { x with fstat := f.into x.fstat } else x } }

/-- The two words of a reply record (R301). -/
def Msg.record (m : Msg) : List W8 :=
  leBytes 8 (m.tag.toNat * 2 ^ 32 + m.status * 256 + 1) ++ leBytes 8 m.done

/-- The reply has been written, and the message is complete: its references end, a consumer among them counts (R183, R184), the place is
free, and the flags are the warp's. -/
def State.replied (s : State) (m : Msg) : State := ((s.dropRefs (.msg m.id) true).dropMsg m.id).orFstat m.warp m.flags

/-- MESSAGE_COMPLETE: the reply record, W1 before W0, in the message's own class (R301). -/
def execMessageComplete (id : Nat) (s : State) : Host.Outcome State Fault Refusal :=
  .next (match (s.settleShares id).msg? id with
    | none => s
    | some m =>
      let s := s.settleShares id
      if m.phase != 2 || !s.unitRuns (dieOf m.core) m.master then s
      else if m.inSpad then
        let off := m.reply.toNat
        ((s.spadWrite m.warp.team (off + 8) (m.record.drop 8)).spadWrite m.warp.team off (m.record.take 8)).replied m
      else
        match s.lineAt m.warp.team.launch.ctx 2 1 (.msg id) m.reply m.core m.warp.warp with
        | (s, .page pa _) =>
          let part := s.partNo (dieOf m.core)
          ((s.homeStore part (pa + 8) (m.record.drop 8)).homeStore part pa (m.record.take 8)).replied m
        | (s, x) => s.msgFault m x m.reply)

/-- REPLY_MATCH: a waiting WAITR reads its record again (R309). -/
def execReplyMatch (w : WarpId) (idx : Nat) (s : State) : Host.Outcome State Fault Refusal :=
  match ((s.warp? w).bind (·.run)).bind fun r => if (r.node idx).st == .waiting .reply then r.instr idx else none with
  | some (.waitr pr spad t0 t1) =>
    if s.coreRuns (s.coreOf w) then execWaitr pr spad t0 t1 { s with cur := some (w, idx) } else .next s
  | _ => .next s

end Sys2Proof.Machine
end

