-- ==== Sys2Proof/Machine/Collective.lean ====
section
/-! DEFINITION. Collectives over the Orxon Links (R307, R375): joining, matching, reductions, layouts and the timeout. -/
namespace Sys2Proof.Machine

/-- KIND, OPR, TY and ROOT of an operation word: what the members must agree on beside the count (R307). -/
def collShape (op : W32) : Nat := op.toNat / 256
/-- KIND: 0 all-reduce, 1 all-gather, 2 reduce-scatter, 3 broadcast. -/
def collKind (op : W32) : Nat := op.toNat / 256 % 8
/-- ROOT. -/
def collRoot (op : W32) : Nat := op.toNat / 2 ^ 17 % 128

/-- The words of a member's send buffer (R307). -/
def Member.needs (m : Member) (g : Nat) : Nat :=
  match collKind m.op with
  | 2 => m.count * g
  | 3 => if m.rank == collRoot m.op then m.count else 0
  | _ => m.count

/-- The collective that a message has joined. -/
def State.collOf (s : State) (id : Nat) : Option Collect := s.colls.find? fun c => c.members.any fun m => m.msg == some id

/-- A collective ended. -/
def State.dropColl (s : State) (c : Collect) : State :=
  { s with colls := s.colls.filter fun d => !(d.ctx == c.ctx && d.grp == c.grp && d.k == c.k) }

/-- A member joins the k-th collective of a group, the first of them opening it at a time (R307). -/
def State.joinColl (s : State) (ctx grp k since : Nat) (m : Member) : State :=
  let hit (c : Collect) : Bool := c.ctx == ctx && c.grp == grp && c.k == k
  match s.colls.find? hit with
  | some c =>
    if c.members.any fun y => y.rank == m.rank then s
    else
      let from' := min c.since since
      let new : Collect := { c with since := from', late := c.late || 2 ^ 30 < s.now - from', members := c.members ++ [m] }
      { s with colls := s.colls.map fun d => if hit d then new else d }
  | none => { s with colls := s.colls ++ [{ ctx := ctx, grp := grp, k := k, since := since, late := false, members := [m] }] }

/-- A COLL of a block reaches the unit after those of the block before it (R307). -/
def State.collTurn (s : State) (m : Msg) : Bool :=
  !(s.msgs.any fun y => y.op == .coll && y.warp == m.warp && y.order == m.order && y.id < m.id && y.phase == 0)

/-- A message reaches the collective unit: it is the next of its device on its group (R307). -/
def State.reachUnit (s : State) (m : Msg) : State :=
  let ctx := m.warp.team.launch.ctx
  let grp := m.bits 4 7 0
  let k := ((((s.ctx? ctx).map fun c => c.colls).getD []).find? fun p => p.1 == grp).map (·.2) |>.getD 0
  let s := s.setCtx ctx fun c => { c with colls := (grp, k + 1) :: c.colls.filter fun p => p.1 != grp }
  let y : Member := { rank := (s.group ctx grp).2.1, op := m.word 4, count := m.size, data := [], msg := some m.id }
  (s.joinColl ctx grp (k + 1) m.since y).setMsg m.id fun z => { z with phase := 1 }

/-- The atomic a reduction's step is the like of. -/
def collAtom (op : W32) : AtomF :=
  { aop := scatOp (op.toNat / 2 ^ 11 % 8), ty := msgTy (op.toNat / 2 ^ 14 % 8), pr := .always, indexed := false, sc := .device
    ord := .relaxed, ss := 0, imm := 0, t0 := .none, t1 := .none }

/-- An element's reduction over the ranks, ascending, left to right (R307). -/
def reduceElem (f : AtomF) (vs : List W32) : W32 × Flags :=
  match vs with
  | [] => (0, 0)
  | v :: vs => vs.foldl (fun p w =>
      let (r, g) := atomVal f (p.1.setWidth 64) (w.setWidth 64) 0
      ((r.getD 0).setWidth 32, p.2 ||| g)) (v, 0)

/-- Elements `lo` to `lo + n` of the reduction of every member's data. -/
def reduceAll (f : AtomF) (ms : List Member) (lo n : Nat) : List W32 × Flags :=
  let es := (List.range n).map fun i => reduceElem f (ms.map fun m => m.data.getD (lo + i) 0)
  (es.map (·.1), es.foldl (fun g e => g ||| e.2) 0)

/-- What a member receives, and the flags (R307). -/
def collResult (ms : List Member) (me : Member) : List W32 × Flags :=
  let f := collAtom me.op
  match collKind me.op with
  | 0 => reduceAll f ms 0 me.count
  | 1 => (ms.flatMap fun m => (List.range me.count).map fun i => m.data.getD i 0, 0)
  | 2 => reduceAll f ms (me.rank * me.count) me.count
  | _ => (((ms.find? fun m => m.rank == collRoot me.op).map fun m => m.data).getD [], 0)

/-- The members by ascending rank. -/
def Collect.ranked (c : Collect) : List Member := c.members.mergeSort fun a b => a.rank ≤ b.rank

/-- The lines of the send buffer read, and the data joined (R307). -/
def State.collSend (s : State) (m : Msg) (me : Member) (g : Nat) : State :=
  let n := me.needs g
  let ps := arrayParts (m.addr 5) (4 * n) operandKey
  let s := s.eachPart m.id (fun p => p.2.2) ps State.arrayPart
  match s.msg? m.id with
  | none => s
  | some m =>
    if !(ps.all fun p => m.has p.2.2) then s
    else
      let data := bytesWords n (m.kept operandKey ps)
      let put (y : Member) : Member := if y.msg == some m.id then { y with data := data } else y
      { s with colls := s.colls.map fun c => { c with members := c.members.map put } }

/-- The result's lines written into the receive buffer; with the last the message has performed. -/
def State.collReceive (s : State) (m : Msg) (c : Collect) (me : Member) : State :=
  let (ws, f) := collResult c.ranked me
  let bs := ws.flatMap fun w => leBytes 4 w.toNat
  let ps := arrayParts (m.addr 7) bs.length recvKey
  let s := s.eachPart m.id (fun p => p.2.2) ps fun s m p =>
    let out := (bs.drop (p.2.2 - recvKey)).take p.2.1
    let (s, ok) := s.msgWrite m p.1 out
    if ok then s.gotPart m.id p.2.2 out else s
  match s.msg? m.id with
  | none => s
  | some m => if ps.all fun p => m.has p.2.2 then (((s.msgFlags [m.id] f).dropColl c).endMsg m.id ws.length 0) else s

/-- A collective whose members have all joined in time: the members that differ end with STATUS 0x03 (R307), else the data move. -/
def State.runColl (s : State) (m : Msg) : State :=
  match s.collOf m.id with
  | none => s
  | some c =>
    match c.members.find? fun y => y.msg == some m.id with
    | none => s
    | some me =>
      let g := (s.group c.ctx c.grp).1
      if c.late then (s.dropColl c).endMsg m.id 0 4
      else if c.members.length < g then s
      else if c.members.any fun y => collShape y.op != collShape me.op || y.count != me.count then
        (s.dropColl c).endMsg m.id 0 3
      else
        let s := if me.data.length < me.needs g then s.collSend m me g else s
        match (s.collOf m.id).bind fun c => (c.members.find? fun y => y.msg == some m.id).map fun y => (c, y), s.msg? m.id with
        | some (c, me), some m => if me.data.length < me.needs g then s else s.collReceive m c me
        | _, _ => s

/-- The entry of a COLL's group is read by the collective unit: corrected, and poison in it a fault (R360, R362); `k` goes on. -/
def State.groupRead (s : State) (m : Msg) (k : State → State) : State :=
  let at' := s.groupAt m.warp.team.launch.ctx (m.bits 4 7 0)
  match s.sysMark at' 16 with
  | some code => s.msgPoison m 0 code at'
  | none => k (s.sysFix at' 16)

/-- COLL (R307): the message reaches the unit, and once every member has joined it reads, combines and writes; the bring-up
service completes it with STATUS 0x04 (R378). -/
def execColl (id : Nat) (s : State) : Host.Outcome State Fault Refusal :=
  s.msgStep id .coll fun s m =>
    if s.fw.bringUp then s.endMsg id 0 4
    else s.groupRead m fun s =>
      let s := if m.phase == 0 && s.collTurn m then s.beginning m fun s => s.reachUnit m else s
      match s.msg? id with
      | some m => if m.phase == 1 then s.runColl m else s
      | none => s

/-- COLL_TIMEOUT: members are missing 2^30 cycles after the first one's leaving, and the one that joined ends with STATUS 0x04
(R307). -/
def execCollTimeout (id : Nat) (s : State) : Host.Outcome State Fault Refusal :=
  s.msgStep id .coll fun s m => s.groupRead m fun s =>
    match s.collOf id with
    | some c =>
      if c.members.length < (s.group c.ctx c.grp).1 && 2 ^ 30 < s.now - c.since then (s.dropColl c).endMsg id 0 4 else s
    | none => s

/-- COLLECTIVE_MEMBER_JOIN: another device's COLL reaches the unit with its data (R307), unless the unit has stopped for its context
(R357, R365). -/
def execCollectiveMemberJoin (ctx grp k rank : Nat) (op : W32) (count : Nat) (data : List W32) (s : State) :
    Host.Outcome State Fault Refusal :=
  .next (if !s.unitRunsFor ctx .coll then s else
    let s := if (s.ctx? ctx).isSome then s.readFor ctx 4 0 (s.groupAt ctx grp) 16 else s
    let (g, mine, _) := s.group ctx grp
    if (s.ctx? ctx).isNone || s.fw.bringUp || g ≤ rank || rank == mine then s
    else s.joinColl ctx grp k s.now { rank := rank, op := op, count := count, data := data, msg := none })

end Sys2Proof.Machine
end

