-- ==== Sys2Proof/Machine/Control.lean ====
section
/-! DEFINITION. The control instructions (R88 to R94): each valid lane receives its successor. -/
namespace Sys2Proof.Machine

/-- The block at an offset in units of 32 bytes from block `t` (R88). -/
def branchTo {n : Nat} (t : W64) (off : BitVec n) : W64 := t + 32 * off.signExtend 64

/-- The issuing instruction finishes, giving each lane of a mask a successor, where there is one (R73). -/
def State.giveSuccs (s : State) (x : Issue) (m : Lanes) (f : Nat → Option SuccKind) : State :=
  s.setRun x.w fun r => { r.finish x.k with
    succs := r.succs ++ (allLanes.filter fun l => m.getLsbD l).filterMap fun l =>
      (f l).map fun k => { idx := x.k, lane := l, kind := k } }

/-- A control instruction: successors for the lanes on which its result is valid (R88). -/
def State.control (s : State) (i : Instr) (f : Issue → Nat → Option SuccKind) : Host.Outcome State Fault Refusal :=
  s.firing i fun x => s.giveSuccs x (okLanes i x.o) (f x)

/-- The address of the topmost join entry (R91). -/
def topJoin (st : List StackEnt) : Option W64 := (st.find? fun e => e.join).map (·.addr)

/-- BR (R88). -/
def execBr (pr : Pr) (off : BitVec 24) (s : State) : Host.Outcome State Fault Refusal :=
  s.control (.br pr off) fun x _ => some (.block (branchTo x.run.va off))

/-- BRC: OFF24 where the condition is nonzero at its full width, OFF16 where it is zero (R88, R89). -/
def execBrc (pr : Pr) (nz : BitVec 24) (z : BitVec 16) (s : State) : Host.Outcome State Fault Refusal :=
  s.control (.brc pr nz z) fun x l =>
    some (.block (if x.o.left.full l != 0 then branchTo x.run.va nz else branchTo x.run.va z))

/-- BRX: the lane's address value, bits [4:0] ignored (R89). -/
def execBrx (pr : Pr) (s : State) : Host.Outcome State Fault Refusal :=
  s.control (.brx pr) fun x l => some (.block (x.o.left.full l &&& ~~~31))

/-- CALL: the callee, and the return block of its call join (R88, R90). -/
def execCall (pr : Pr) (callee : BitVec 24) (back : BitVec 16) (s : State) : Host.Outcome State Fault Refusal :=
  s.control (.call pr callee back) fun x _ => some (.call (branchTo x.run.va callee) (branchTo x.run.va back))

/-- RET: the address of the topmost join entry, or nothing (R91). -/
def execRet (pr : Pr) (s : State) : Host.Outcome State Fault Refusal :=
  s.control (.ret pr) fun x _ => (topJoin x.warp.stack).map .block

/-- EXIT (R92). -/
def execExit (pr : Pr) (s : State) : Host.Outcome State Fault Refusal := s.control (.exit pr) fun _ _ => some .exit

/-- YIELD: OFF24 as BR gives it, with the offer of a save (R93). -/
def execYield (pr : Pr) (off : BitVec 24) (s : State) : Host.Outcome State Fault Refusal :=
  s.control (.yield pr off) fun x _ => some (.yield (branchTo x.run.va off))

/-- TRAP (R94). -/
def execTrap (pr : Pr) (code : BitVec 16) (s : State) : Host.Outcome State Fault Refusal :=
  s.control (.trap pr code) fun _ _ => some (.trap code)

/-- BKPT (R94). -/
def execBkpt (pr : Pr) (code : BitVec 16) (s : State) : Host.Outcome State Fault Refusal :=
  s.control (.bkpt pr code) fun _ _ => some (.bkpt code)

end Sys2Proof.Machine
end

