-- ==== Sys2Proof/Machine/Pool.lean ====
section
/-! DEFINITION. The register pool (R171 to R174): bound registers, rows, residency and the spill engine. -/
namespace Sys2Proof.Machine

/-- The rows of a core's pool (R172). -/
def poolRows : Nat := 3072

/-- A bound register of a warp. -/
def Warp.vreg? (x : Warp) (n : Nat) : Option VReg := x.v.find? fun r => r.num == n

/-- The 32 lane words of a register; an unbound one reads 0 (R171). -/
def Warp.lanesOf (x : Warp) (n : Nat) : List W32 := ((x.vreg? n).map (·.lanes)).getD (List.replicate 32 0)

/-- A register's row is in the pool. -/
def VReg.resident (r : VReg) : Bool := r.row == .pool

/-- The resident rows of a warp. -/
def Warp.resident (x : Warp) : Nat := (x.v.filter fun r => r.resident).length

/-- The warps on a core, the retired ones of a resident team among them: their rows stay bound (R26, R171). -/
def State.warpsOn (s : State) (core : Nat) : List Warp := s.warps.filter fun x => x.core == core

/-- The free rows of a core's pool (R180). -/
def State.freeRows (s : State) (core : Nat) : Nat := poolRows - ((s.warpsOn core).map (·.resident)).foldl (· + ·) 0

/-- The first spill format that holds a row exactly: tag and width bit (R173). -/
def spillFormat (ls : List W32) : Nat × Bool :=
  let a := ls.headD 0
  let d := ls.getD 1 0 - a
  let fits (n : Nat) : Bool := ls.all fun w => (w.setWidth n).signExtend 32 == w
  if ls.all (· == a) then (0, false)
  else if (List.range 32).all (fun l => ls.getD l 0 == a + BitVec.ofNat 32 l * d) then (1, false)
  else if fits 8 then (2, false)
  else if fits 16 then (2, true)
  else (3, false)

/-- The lines of a team's L1 reserve in use: spilled rows there, and the lines of stack overflow that found it free (R82, R173). -/
def State.reserveUsed (s : State) (t : TeamId) : Nat :=
  ((s.warps.filter fun x => x.id.team == t).map fun x =>
    (x.v.filter fun r => match r.row with | .reserve .. => true | _ => false).length + (x.ovf.filter fun b => b).length).foldl (· + ·) 0

/-- A line of a team's L1 reserve is free. -/
def State.reserveFree (s : State) (w : WarpId) : Bool := s.reserveUsed w.team < (s.launchOf w).l1r * 32

/-- The lines that hold a warp's stack entries beyond the 16 on the core, 8 to a line (R79, R82). -/
def Warp.ovfLines (x : Warp) : Nat := (x.stack.length - 16 + 7) / 8

/-- One line of overflow more, in the reserve while a line of it is free (R82). -/
def State.ovfLine (s : State) (w : WarpId) : State :=
  let free := s.reserveFree w
  s.setWarp w fun x => { x with ovf := x.ovf ++ [free] }

/-- The lines of a warp's stack overflow after a change of its stack: those it needs no more are free, and new ones are taken (R82,
R173). -/
def State.fitStack (s : State) (w : WarpId) : State :=
  match s.warp? w with
  | none => s
  | some x =>
    if x.ovfLines == x.ovf.length then s
    else
      let s := s.setWarp w fun y => { y with ovf := y.ovf.take x.ovfLines }
      (List.range (x.ovfLines - x.ovf.length)).foldl (fun s _ => s.ovfLine w) s

/-- One register of a warp changed. -/
def Warp.setVReg (x : Warp) (n : Nat) (f : VReg → VReg) : Warp :=
  { x with v := x.v.map fun r => if r.num == n then f r else r }

/-- A row spilled: its 32 words are read and checked, an error they hold being found once, and it goes to the reserve or the save
area (R173, R361). Row.saved holds it in its format; where in the save area it lies is open, and no byte of memory changes (DESIGN CHOICE,
log 131). -/
def State.spill (s : State) (w : WarpId) (n : Nat) : State :=
  match (s.warp? w).bind fun x => x.vreg? n with
  | none => s
  | some r =>
    let gs := allLanes.map fun l => Granule.pool w n l
    let s := s.correct gs
    let bad := allLanes.filter fun l => s.errs.contains (.pool w n l, true)
    if !bad.isEmpty then
      (s.clearErrs gs).dataFault w 0 1 n (Sys2Proof.lanesOf fun l => bad.contains l)
    else
      let (tag, wd) := spillFormat r.lanes
      let row := if s.reserveFree w then Row.reserve tag wd else .saved tag wd
      s.setWarp w fun x => x.setVReg n fun r => { r with row := row }

/-- The least recently used resident row among some warps. -/
def lruRow (xs : List Warp) : Option (WarpId × Nat) :=
  let all := xs.flatMap fun x => (x.v.filter fun r => r.resident).map fun r => (x.id, r.num, r.used)
  (all.foldl (fun b c => match b with
    | none => some c
    | some b => if c.2.2 < b.2.2 then some c else some b) none).map fun b => (b.1, b.2.1)

/-- A register becomes resident, a row being spilled first where the limit or the pool requires it (R172). -/
def State.makeResident (s : State) (w : WarpId) (n : Nat) : State :=
  match s.warp? w with
  | none => s
  | some x =>
    match x.vreg? n with
    | none => s
    | some r =>
      let (s, u) := s.newOrder
      if r.resident then s.setWarp w fun x => x.setVReg n fun r => { r with used := u }
      else
        let on := s.warpsOn x.core
        let victim :=
          if x.limit ≤ x.resident then lruRow [x]
          else if 0 < s.freeRows x.core then none
          else (lruRow (on.filter fun y => y.id.team == w.team)).or (lruRow on)
        let s := match victim with
          | some (v, m) => s.spill v m
          | none => s
        s.setWarp w fun x => x.setVReg n fun r => { r with row := .pool, used := u }

/-- A commit's write of a lane register: bound if it is unbound, the token's valid lanes replaced, and its row resident
(R69, R171, R172). A token that is valid on no lane writes and binds nothing. -/
def State.writeV (s : State) (w : WarpId) (n : Nat) (m : Lanes) (f : Nat → W32) : State :=
  if m == 0 then s else
  let s := s.setWarp w fun x =>
    let old := x.lanesOf n
    let new := allLanes.map fun l => if m.getLsbD l then f l else old.getD l 0
    match x.vreg? n with
    | some _ => x.setVReg n fun r => { r with lanes := new }
    | none => { x with v := x.v ++ [{ num := n, lanes := new, row := .saved 0 false, used := 0 }] }
  (s.clearErrs ((allLanes.filter fun l => m.getLsbD l).map fun l => Granule.pool w n l)).makeResident w n

/-- Registers unbound (R178): their rows or spilled copies are freed, and their errors are never checked (R361). -/
def State.unbind (s : State) (w : WarpId) (first n : Nat) : State :=
  let hit (r : Nat) : Bool := first ≤ r && r < first + n
  ({ s with errs := s.errs.filter fun e => match e.1 with
      | .pool v r _ => !(v == w && hit r)
      | _ => true }).setWarp w fun x => { x with v := x.v.filter fun r => !hit r.num }

/-- A warp holds no more resident rows than its limit (R172). -/
def State.trimRows (s : State) (w : WarpId) : Nat → State
  | 0 => s
  | k + 1 =>
    match s.warp? w with
    | some x =>
      if x.limit < x.resident then
        match lruRow [x] with
        | some (v, n) => (s.spill v n).trimRows w k
        | none => s
      else s
    | none => s

end Sys2Proof.Machine
end

