-- ==== Sys2Proof/Machine/Take.lean ====
section
/-! DEFINITION. Taking, recalling and surrendering tiles: TTAKE, TGIVE, SDONE and SREFU (R317 to R330), the take queue,
recalls, and the release of a unit. -/
namespace Sys2Proof.Machine

/-- The tiles of a unit. -/
def unitTiles (tid : Nat) (spl : Bool) : List Nat := if spl then [tid, tid + 1] else [tid]

/-- The tiles of a take. -/
def takeTiles (f : TakeF) : List Nat := unitTiles f.tid.toNat f.spl

/-- The team holds count-plane pair `j` (R201): its two planes are listed under 2j and 2j + 1. -/
def Team.hasPair (t : Team) (j : Nat) : Bool := t.counts.any fun p => p.1 == 2 * j

/-- The names a take must bind to core tiles (R318). -/
def Team.news (t : Team) (f : TakeF) : List Nat := (takeTiles f).filter fun x => (t.tile? x).isNone

/-- A take needs a count-plane pair of the core's (R318). -/
def Team.newPair (t : Team) (f : TakeF) : Bool := f.spl && !t.hasPair ((f.tid.toNat - 32) / 2)

/-- The core's accumulator tiles in use (R20, R318): bound by its teams, kept by takes met and not committed, or given up and still
referenced (R323). -/
def State.tilesUsed (s : State) (core : Nat) : List Nat :=
  let on := s.teams.filter fun t => t.core == core
  let held := on.flatMap fun t => (t.tiles.filter fun x => 32 ≤ x.tid).map (·.off)
  let met := (s.takes.filter fun k => k.core == core && k.res.isSome).flatMap fun k => k.bind.map (·.2)
  let lag := on.flatMap fun t => (t.gone.filter fun g => !(s.tileRefs t.id g.tid).isEmpty && (t.tile? g.tid).isNone).filterMap (·.core)
  held ++ met ++ lag

/-- The core's accumulator tiles that are free, ascending. -/
def State.freeTiles (s : State) (core : Nat) : List Nat := (List.range 8).filter fun k => !(s.tilesUsed core).contains k

/-- The core's count-plane pairs in use (R20, R318). -/
def State.pairsUsed (s : State) (core : Nat) : Nat :=
  let on := s.teams.filter fun t => t.core == core
  let met := s.takes.filter fun k => k.core == core && k.res.isSome && ((s.team? k.warp.team).map fun t => t.newPair k.f).getD false
  (on.map fun t => t.counts.length / 2).foldl (· + ·) 0 + met.length

/-- Names bound to free core tiles, both names of a split unit to an even tile and its neighbour (R318), the lowest (log 84). -/
def bindTiles (free names : List Nat) : Option (List (Nat × Nat)) :=
  match names with
  | [] => some []
  | [x] => free.head?.map fun k => [(x, k)]
  | x :: y :: _ => (free.find? fun k => k % 2 == 0 && free.contains (k + 1)).map fun k => [(x, k), (y, k + 1)]

/-- How a take stands (R321): met with the core tiles given, waiting, waiting for a holding to be recalled, or a fault, since the warp
holds the unit already. -/
inductive Standing where
  | met (bind : List (Nat × Nat))
  | wait
  | held
  | recall (t : TeamId) (tid : Nat)
  deriving DecidableEq, Repr, Inhabited

/-- A tile name of a team is bound to a core tile by a take, so that its release frees that (R318, R323). -/
def Launch.bound (l : Launch) (tid : Nat) : Bool := 32 ≤ tid && 32 + l.accs ≤ tid

/-- What the release of another team's holding would free: core tiles, and count-plane pairs (R324). -/
def Team.frees (t : Team) (l : Launch) (u : Taken) : List Nat × Nat :=
  ((t.tiles.filter fun x => (unitTiles u.tid u.spl).contains x.tid && l.bound x.tid).map (·.off),
   if u.spl && l.pairs ≤ (u.tid - 32) / 2 then 1 else 0)

/-- What a take must bind can be had of some free tiles and pairs; of a split unit whose first tile the team declares, the second is
bound to that one's neighbour (R318). -/
def Team.canBind (t : Team) (f : TakeF) (free : List Nat) (pairs : Nat) : Option (List (Nat × Nat)) :=
  if t.newPair f && 4 ≤ pairs then none else
  match f.spl, t.news f, t.tile? f.tid.toNat with
  | true, [y], some x => if x.off % 2 == 0 && free.contains (x.off + 1) then some [(y, x.off + 1)] else none
  | _, ns, _ => bindTiles free ns

/-- The negotiated holding of another team whose release alone supplies what a take needs, the earliest taken (R324). -/
def State.victim (s : State) (k : Take) (mine : Team) : Option (TeamId × Nat) :=
  let free := s.freeTiles k.core
  let pairs := s.pairsUsed k.core
  let all := (s.teams.filter fun t => t.core == k.core && t.id != k.warp.team).flatMap fun t =>
    let l := (s.launch? t.id.launch).getD Launch.none
    (t.taken.filter fun u => u.cls == .neg).filterMap fun u =>
      let g := t.frees l u
      let after := (List.range 8).filter fun x => free.contains x || g.1.contains x
      if (mine.canBind k.f after (pairs - g.2)).isSome then some (u.order, t.id, u.tid) else none
  (all.foldl (fun b c => match b with
    | none => some c
    | some b => if c.1 < b.1 then some c else some b) none).map (·.2)

/-- A take and an earlier one concern one tile of one team. -/
def Take.clash (a b : Take) : Bool := a.warp.team == b.warp.team && (takeTiles a.f).any fun x => (takeTiles b.f).contains x

/-- The standing of a take when its turn comes (R321). -/
def State.standing (s : State) (k : Take) : Standing :=
  match s.team? k.warp.team with
  | none => .wait
  | some t =>
    let u := (takeTiles k.f).findSome? fun x => t.unitOf x
    let earlier := (s.takes.takeWhile fun y => !(y.warp == k.warp && y.idx == k.idx)).filter fun y => y.clash k
    let sharing := k.f.cls == .shr && ((u.map fun u => u.cls == .shr && u.tid == k.f.tid.toNat && u.spl == k.f.spl).getD false)
    if earlier.any fun y => !(sharing && y.f.cls == .shr) then .wait
    else match u with
    | some u => if u.heldBy k.warp.warp then .held else if sharing then .met [] else if u.cls == .neg then .recall t.id u.tid else .wait
    | none =>
      match t.canBind k.f (s.freeTiles k.core) (s.pairsUsed k.core) with
      | some b => .met b
      | none =>
        match s.victim k t with
        | some (v, tid) => .recall v tid
        | none => .wait

/-- A recall of a holding, one from takes and one from the scheduler at most (R324); it enters the core's queue by a step
of its own. -/
def State.addRecall (s : State) (t : TeamId) (tid core : Nat) (sched : Bool) : State :=
  if s.recalls.any fun r => r.team == t && r.tid == tid && r.sched == sched then s
  else { s with recalls := s.recalls ++ [{ team := t, tid := tid, core := core, sched := sched, queued := false, again := false }] }

/-- What a take that waited delivers where the last references to the core tile it is bound to have just gone: how that was given
up (R322, R323). -/
def State.lateCode (s : State) (k : Take) (b : List (Nat × Nat)) : Nat :=
  if !k.waited then 0
  else (((s.teams.filter fun t => t.core == k.core).flatMap fun t => t.gone).findSome? fun g =>
    if b.any fun p => some p.2 == g.core then some g.code else none).getD 0

/-- The core tiles given up to which no reference is held are free, once the takes that waited for them have been served (R323). -/
def State.unlinkGone (s : State) (core : Nat) : State :=
  let cut (t : Team) (g : Gone) : Gone := if (s.tileRefs t.id g.tid).isEmpty then { g with core := none } else g
  { s with teams := s.teams.map fun t => if t.core == core then { t with gone := t.gone.map (cut t) } else t }

/-- Once a checkpoint's stop has reached a warp, the scheduler recalls every negotiated holding of it (R324, R335). -/
def State.recallHeld (s : State) (w : WarpId) : State :=
  match s.warp? w, s.team? w.team with
  | some x, some t =>
    if (s.launchOf w).phase == .stopping && x.phase != .running then
      (t.taken.filter fun u => u.cls == .neg && u.holder == w.warp).foldl (fun s u => s.addRecall t.id u.tid t.core true) s
    else s
  | _, _ => s

/-- The fault of a waiting take whose turn finds the warp the unit's holder (R321, R336). -/
def State.takeHeld (s : State) (k : Take) : State :=
  let va := (((s.warp? k.warp).bind (·.run)).map (·.va)).getD 0
  s.fault k.warp (s.stopOf k.warp 0x05 0 0 va [BitVec.ofNat 64 k.f.tid.toNat])

/-- The recalls of a unit met (R329). -/
def State.dropRecalls (s : State) (t : TeamId) (tid : Nat) : State :=
  { s with recalls := s.recalls.filter fun r => !(r.team == t && r.tid == tid) }

/-- A share of a unit that a take has met, whose block has still to commit (R321, R322). -/
def State.shareMet (s : State) (t : TeamId) (tid : Nat) : Bool :=
  s.takes.any fun k => k.warp.team == t && k.f.tid.toNat == tid && k.f.cls == .shr && k.res.isSome

/-- A unit is free: a declared tile returns to class 00, a bound one is unbound (R323), and how that came is kept. -/
def State.freeUnit (s : State) (id : TeamId) (u : Taken) (code : Nat) : State :=
  let l := (s.launch? id.launch).getD Launch.none
  let bound := (unitTiles u.tid u.spl).filter l.bound
  let j := (u.tid - 32) / 2
  (s.setTeam id fun t =>
    { t with
      taken := t.taken.filter fun v => v.tid != u.tid
      tiles := t.tiles.filter fun x => !bound.contains x.tid
      acc := t.acc.filter fun x => !bound.contains x.1
      counts := if u.spl && l.pairs ≤ j then t.counts.filter fun p => p.1 / 2 != j else t.counts
      gone := t.gone ++ bound.map fun x =>
        { tid := x, core := (t.tile? x).map (·.off), lost := ((t.tile? x).map (·.lost)).getD false, code := code } }).dropRecalls id u.tid

/-- The shared units of a core's teams that nobody shares any more: the last share was given while a take had met one, whose block has
been discarded since, so that the unit stands as before it (R322, R323). -/
def State.emptyUnits (s : State) (core : Nat) : List (TeamId × Taken) :=
  (s.teams.filter fun t => t.core == core).flatMap fun t =>
    (t.taken.filter fun u => u.cls == .shr && u.sharers == 0 && !s.shareMet t.id u.tid).map fun u => (t.id, u)

/-- The waiting takes of a core served in order of issue; a take met now delivers `code`, or that its unit was given (R321, R322). -/
def State.serveTakes (s : State) (core code : Nat) : State :=
  let gone := s.emptyUnits core
  let s := gone.foldl (fun s p => s.freeUnit p.1 p.2 4) s
  let codeOf (k : Take) : Nat := if gone.any fun p => p.1 == k.warp.team && p.2.tid == k.f.tid.toNat then 4 else code
  (s.takes.foldl (fun s k =>
    if k.core != core || k.res.isSome || !s.takes.contains k then s
    else match s.standing k with
    | .held => s.takeHeld k
    | .met b =>
      let r := if codeOf k == 0 then s.lateCode k b else codeOf k
      { s with takes := s.takes.map fun y => if y.warp == k.warp && y.idx == k.idx then { y with res := some r, bind := b } else y }
    | .recall t tid => s.addRecall t tid core false
    | .wait => s) s).unlinkGone core

/-- The take of an instruction. -/
def State.take? (s : State) (x : Issue) : Option Take := s.takes.find? fun k => k.warp == x.w && k.idx == x.k

/-- A take that is met delivers how, and takes effect at commit; a save address that is not aligned is a protection fault (R322). -/
def State.takeMet (s : State) (x : Issue) (f : TakeF) (r : Nat) : State :=
  let save := if f.sv then some (x.o.left.full 0) else none
  if f.sv && (x.o.left.full 0).toNat % 64 != 0 then s.protection x 5 0 (x.o.left.full 0)
  else (s.leave x (.ttake f save)).setRun x.w fun y => y.putAll [f.t0, f.t1] (Token.uni32 (BitVec.ofNat 32 r))

/-- The fault a TTAKE meets at issue: a negotiated take in a routine, a unit the warp holds already, or a scratchpad tile
the team does not declare (R318, R321, R322). -/
def State.takeIllegal (s : State) (x : Issue) (f : TakeF) : Bool :=
  match s.team? x.w.team with
  | none => true
  | some t =>
    (f.cls == .neg && x.warp.routine.isSome) ||
    (takeTiles f).any fun tid => ((t.unitOf tid).map fun u => u.heldBy x.w.warp).getD false || (tid < 32 && (t.tile? tid).isNone)

/-- TTAKE: it joins the unit's take queue and waits until it is met (R321, R322). -/
def execTtake (f : TakeF) (s : State) : Host.Outcome State Fault Refusal :=
  s.firing (.ttake f) fun x =>
    if !uniOk (.ttake f) x.o then s.result x [f.t0, f.t1] (Token.uniform false false 0) 0
    else match s.take? x with
    | some k => match k.res with
      | some r => s.takeMet x f r
      | none => s
    | none =>
      if s.takeIllegal x f then s.illegal x f.tid.toNat false
      else
        let k : Take := { warp := x.w, idx := x.k, f := f, core := x.warp.core, res := none, bind := [], waited := false }
        let s := ({ s with takes := s.takes ++ [k] }).serveTakes x.warp.core 0
        match (s.take? x).bind (·.res) with
        | some r => s.takeMet x f r
        | none =>
          let late (y : Take) : Take := if y.warp == x.w && y.idx == x.k then { y with waited := true } else y
          ({ s with takes := s.takes.map late } : State).wait x .take

/-- TTAKE's change at commit (R318, R322, R333): bound tiles arrive empty, LOST clears, the warp holds or shares the unit. -/
def State.commitTake (s : State) (x : Warp) (va : W64) (f : TakeF) (save : Option W64) : State :=
  let (s, ord) := s.newOrder
  let tid := f.tid.toNat
  let j := (tid - 32) / 2
  let mine (k : Take) : Bool := k.warp == x.id && k.f == f
  let bind := ((s.takes.find? mine).map (·.bind)).getD []
  let s := { s with takes := s.takes.filter fun k => !mine k }
  let s := s.setTeam x.id.team fun t =>
    let fresh := t.news f
    let more : List Tile := fresh.map fun y =>
      { tid := y, st := .empty, cnt := 0, off := (bind.lookup y).getD 0, size := 0, lost := false, status := 0 }
    let keep (y : Tile) : Tile := if (takeTiles f).contains y.tid then { y with lost := false } else y
    let share (u : Taken) : Taken :=
      if u.tid == tid then { u with holder := x.id.warp, sharers := u.sharers ||| ((1 : Lanes) <<< x.id.warp), refusals := 0 } else u
    let unit : Taken :=
      { tid := tid, spl := f.spl, cls := f.cls, holder := x.id.warp
        sharers := if f.cls == .shr then (1 : Lanes) <<< x.id.warp else 0
        routine := va + 32 * f.roff.signExtend 64, bound := f.bnd.toNat + 1, save := save, refusals := 0, order := ord }
    { t with
      tiles := (t.tiles ++ more).map keep
      acc := t.acc ++ fresh.map fun y => (y, [])
      counts := if t.newPair f then t.counts ++ [(2 * j, []), (2 * j + 1, [])] else t.counts
      gone := t.gone.filter fun g => !(takeTiles f).contains g.tid
      taken := if (t.unitOf tid).isSome then t.taken.map share else t.taken ++ [unit] }
  (s.serveTakes x.core 0).recallHeld x.id

/-- A unit released by the warp that holds or shares it (R323): a shared unit keeps its other sharers, and stands while a take has met a share
that its block has still to commit (R321); the takes waiting for a unit that is free are then served with `code`. -/
def State.releaseUnit (s : State) (id : TeamId) (tid warp code : Nat) : State :=
  match s.team? id with
  | none => s
  | some t =>
    match t.taken.find? fun u => u.tid == tid && u.heldBy warp with
    | none => s
    | some u =>
      let left := u.sharers &&& ~~~((1 : Lanes) <<< warp)
      if u.cls == .shr && (left != 0 || s.shareMet id tid) then
        let give (v : Taken) : Taken := if v.tid == tid then { v with sharers := left } else v
        s.setTeam id fun t => { t with taken := t.taken.map give }
      else (s.freeUnit id u code).serveTakes t.core code

/-- The block declares the second tile of a split unit with use write, where the unit an instruction names is one (R39, R320, R327). -/
def Issue.declares (x : Issue) (u : Taken) : Bool := !u.spl || x.run.tiles.any fun d => d.1 == u.tid + 1 && d.2.2

/-- A tile of the unit that the block does not declare is a block-format fault, raised as the instruction issues, since its word names
the unit's first tile alone (log 85). -/
def State.undeclared (s : State) (x : Issue) : State :=
  s.fault x.w (s.stopOf x.w 0x01 FmtCause.tile.code 0 x.run.va [BitVec.ofNat 64 (x.run.bodyAt + x.k)])

/-- TGIVE: the holder, or a sharer, releases the unit at commit (R323). -/
def execTgive (pr : Pr) (tid : BitVec 6) (s : State) : Host.Outcome State Fault Refusal :=
  let i : Instr := .tgive pr tid
  s.firing i fun x =>
    if !uniOk i x.o then s.finish x
    else
      let u := (s.team? x.w.team).bind fun t => t.taken.find? fun u => u.tid == tid.toNat
      match u with
      | some u =>
        if !u.heldBy x.w.warp then s.illegal x tid.toNat false
        else if !x.declares u then s.undeclared x else s.leave x (.tgive tid.toNat)
      | none => s.illegal x tid.toNat false

/-- The unit a routine's ending instruction names is the one recalled (R327). -/
def Issue.inRoutine (x : Issue) (tid : Nat) : Bool := (x.warp.routine.map fun r => r.tid == tid).getD false

/-- A warp holds or shares the unit of a first tile (R317). -/
def State.holds (s : State) (w : WarpId) (tid : Nat) : Bool :=
  (((s.team? w.team).bind fun t => t.taken.find? fun u => u.tid == tid).map fun u => u.heldBy w.warp).getD false

/-- The instruction may end its routine: it is in one for the unit it names, which the warp still holds (R319, R323, R327, R329; a
unit that the routine has given back is no longer its to release, log 108). -/
def State.mayEnd (s : State) (x : Issue) (tid : Nat) : Bool := x.inRoutine tid && s.holds x.w tid

/-- The unit recalled is split and the block does not declare its second tile (R327). -/
def State.undeclared? (s : State) (x : Issue) (tid : Nat) : Bool :=
  (((s.team? x.w.team).bind fun t => t.taken.find? fun u => u.tid == tid).map fun u => !x.declares u).getD false

/-- The routine ends at commit: every active lane receives the interrupted block (R328). -/
def State.endRoutine (s : State) (x : Issue) (tid kind : Nat) : State :=
  (s.leave x (.surrender tid kind)).setRun x.w fun r => { r with
    succs := r.succs ++ (allLanes.filter fun l => r.am.getLsbD l).map fun l => { idx := x.k, lane := l, kind := .routineEnd } }

/-- SDONE (R327 to R329): kind 0 `.fin`, 1 `.sum`. -/
def execSdone (pr : Pr) (sum : Bool) (tid : BitVec 6) (s : State) : Host.Outcome State Fault Refusal :=
  let i : Instr := .sdone pr sum tid
  s.firing i fun x =>
    if !uniOk i x.o then s.finish x
    else if !s.mayEnd x tid.toNat then s.illegal x tid.toNat false
    else if s.undeclared? x tid.toNat then s.undeclared x
    else s.endRoutine x tid.toNat (if sum then 1 else 0)

/-- The refusal limit of a context: the RLIM byte literally, 2 for 0xFF (R330). -/
def State.refusalLimit (s : State) (ctx : Nat) : Nat := ((s.ctx? ctx).map fun c => if c.rlim == 255 then 2 else c.rlim).getD 2

/-- SREFU: one refusal more, within the limit of the context (R329, R330); kind 2. -/
def execSrefu (pr : Pr) (tid : BitVec 6) (s : State) : Host.Outcome State Fault Refusal :=
  let i : Instr := .srefu pr tid
  s.firing i fun x =>
    if !uniOk i x.o then s.finish x
    else if !s.mayEnd x tid.toNat then s.illegal x tid.toNat false
    else if s.undeclared? x tid.toNat then s.undeclared x
    else
      let n := (((s.team? x.w.team).bind fun t => t.taken.find? fun u => u.tid == tid.toNat).map (·.refusals)).getD 0
      if s.refusalLimit x.w.team.launch.ctx ≤ n then
        s.fault x.w (s.stopOf x.w 0x09 0 0 x.run.va [BitVec.ofNat 64 tid.toNat])
      else s.endRoutine x tid.toNat 2

/-- How a negotiated unit's routine ended, kept for the team's record while its launch is checkpointed (R329, R351): 1 `.fin`,
2 `.sum`, 3 a forced end. -/
def State.noteEnd (s : State) (t : TeamId) (tid code : Nat) : State :=
  let ending (l : Launch) : Launch := match l.phase with
    | .yielding _ | .stopping => { l with ends := l.ends ++ [(t, tid, code)] }
    | _ => l
  s.setLaunch t.launch ending

/-- What SDONE and SREFU change at commit, after the block's stores and drains (R329); nothing of a unit the block's own TGIVE has
released (R323). -/
def State.commitSurrender (s : State) (w : WarpId) (tid kind : Nat) : State :=
  if !s.holds w tid then s
  else if kind == 2 then
    let more (u : Taken) : Taken := if u.tid == tid then { u with refusals := u.refusals + 1 } else u
    let again (r : Recall) : Recall := if r.team == w.team && r.tid == tid then { r with again := true } else r
    let s := s.setTeam w.team fun t => { t with taken := t.taken.map more }
    { s with recalls := s.recalls.map again }
  else (s.releaseUnit w.team tid w.warp (kind + 1)).noteEnd w.team tid (kind + 1)

end Sys2Proof.Machine
end

