-- ==== Sys2Proof/Machine/Start.lean ====
section
/-! DEFINITION. Starting a block (R6, R35, R59, R65, R85, R343), the prefetch of blocks (R83), the return of spilled rows
(R172), and step 6 of a commit: rejoin copies and reissue (R7, R60, R84). -/
namespace Sys2Proof.Machine

/-! ### Boundaries -/

/-- The recalls aimed at a warp's holdings in the order they are served: the scheduler's first, then by arrival (R324). -/
def State.recallsOf (s : State) (x : Warp) : List Recall :=
  let mine (r : Recall) : Bool := r.queued && r.team == x.id.team &&
    (((s.team? x.id.team).bind fun t => t.taken.find? fun u => u.tid == r.tid).map fun u =>
      u.cls == .neg && u.holder == x.id.warp).getD false
  (s.recalls.filter fun r => mine r && r.sched) ++ s.recalls.filter fun r => mine r && !r.sched

/-- The recall whose routine a warp runs at its next boundary: one that is not refused until its interrupted block commits
(R325, R329). -/
def State.nextRecall (s : State) (x : Warp) : Option Recall :=
  if x.routine.isSome then none else (s.recallsOf x).find? fun r => !r.again

/-- A routine that has used its bound is ended by the hardware (R331). -/
def Warp.overrun (x : Warp) : Bool := (x.routine.map fun r => decide (r.bound ≤ r.done)).getD false

/-- A warp's next block could start: no routine comes first (R325, R328, R331). -/
def State.startable (s : State) (x : Warp) : Bool :=
  x.phase == .ready && x.run.isNone && x.rejoin.isNone && (s.nextRecall x).isNone && !x.overrun

/-! ### Active places (R343) -/

/-- The waits that keep a block from counting as active. -/
def Wait.rests : Wait → Bool
  | .region | .array | .acquire => false
  | _ => true

/-- A block does not count as active: nothing in it can fire or is at work, and something of it waits (R343). -/
def Run.rests (r : Run) : Bool :=
  !r.canFire && (r.nodes.any fun n => n.st != .done) && r.nodes.all fun n => match n.st with
    | .waiting w => w.rests
    | _ => true

/-- The active blocks of a core. -/
def State.activeOn (s : State) (core : Nat) : Nat :=
  (s.warps.filter fun x => x.core == core && (x.run.map fun r => !r.rests).getD false).length

/-- The place of a warp among the warps of its core: its slot. -/
def State.slotOf (s : State) (x : Warp) : Nat := ((s.warpsOn x.core).takeWhile fun y => y.id != x.id).length

/-- An active place is granted: fewer warps wait longer, ties by the lower slot, than places are free (R343). -/
def State.hasPlace (s : State) (x : Warp) : Bool :=
  let ahead := (s.warpsOn x.core).filter fun y => y.id != x.id && s.startable y &&
    (y.order < x.order || (y.order == x.order && s.slotOf y < s.slotOf x))
  ahead.length + s.activeOn x.core < 16

/-! ### Header reads (R36, R65, R361) -/

/-- A header read delivers its token to its targets: valid on the active lanes, or uniform (R65). -/
def State.readHeader (s : State) (w : WarpId) (e : ReadEnt) : State :=
  match s.warp? w with
  | none => s
  | some x =>
    match x.run with
    | none => s
    | some r =>
      if s.pendingReg w e then s
      else
        let ts := ([e.ta, e.tb].filter (· != 0xFF)).map Tgt.ofByte
        if e.k then s.setRun w fun r => r.putAll ts (Token.uni32 (x.k.getD e.reg 0))
        else
          let s := s.correct ((allLanes.filter fun l => r.am.getLsbD l).map fun l => Granule.pool w e.reg l)
          let bad := lanesOf fun l => r.am.getLsbD l && s.errs.contains (.pool w e.reg l, true)
          if bad != 0 then s.dataFault w r.va 1 e.reg bad
          else
            (s.makeResident w e.reg).setRun w fun r =>
              r.putAll ts (Token.lanes false r.am fun l => ((x.lanesOf e.reg).getD l 0).setWidth 64)

/-! ### Starting -/

/-- The block in flight as a start leaves it, nothing fired. -/
def Run.fresh (va : W64) (ws : List W64) (am : Lanes) (order : Nat) (took : Option Nat) : Run :=
  let h := Hdr.of (ws.headD 0)
  { va := va, words := ws, bodyAt := h.bodyAt, ni := h.ni, rj := h.rj, np := h.np, tiles := h.tiles ws, am := am, order := order
    nodes := List.replicate (h.ni + 1) { left := none, right := none, third := none, st := .idle, since := 0 }
    wslots := (h.writes ws).map fun e => { k := e.k, reg := e.reg, tok := none, deferred := false }
    sslots := List.replicate h.ns .unfired, succs := [], effs := [], flags := 0, counted := false, took := took }

/-- The key of a popped join whose copies are out already (R6, R80). -/
def outOf (p : Option (Nat × Bool)) : Option Nat := p.bind fun q => if q.2 then some q.1 else none

/-- The popped join that a warp runs next, its copies out already. -/
def Warp.copiesOut (x : Warp) : Option Nat := outOf x.popped

/-- An illegal tile use by a copy that issues (R42). -/
def State.badCopy (s : State) (w : WarpId) (va : W64) (c : Nat) : State :=
  s.fault w (s.stopOf w 0x05 0 0 va [BitVec.ofNat 64 c])

/-- A valid block starts: its copies issue unless they are out, or are taken over from a join entry by a start that is not the
join's own, then its header reads deliver (R6, R65, R80, R85). A copy that fails its checks leaves no trace of the block. -/
def State.enterBlock (s : State) (x : Warp) (ws : List W64) : State :=
  let h := Hdr.of (ws.headD 0)
  let (s, ord) := s.newOrder
  let took := match x.popped with
    | some _ => none
    | none => (x.stack.find? fun e => e.join && e.cp && e.addr == x.pc).map (·.key)
  let (s', bad) := if x.copiesOut.isSome || took.isSome then (s, none) else s.issueCopies x (h.copies ws) none ord
  match bad with
  | some (.bad c) => s.badCopy x.id x.pc c
  | some (.poisoned pa code) => s.dataFault x.id x.pc code pa 0
  | some (.reloading g) => s.findRegion g
  | some (.ok _) => s
  | none =>
    let clear (e : StackEnt) : StackEnt := if took == some e.key then { e with cp := false } else e
    let begun (l : Launch) : Launch := if l.started.contains x.pc then l else { l with started := x.pc :: l.started }
    let s := (s'.setLaunch x.id.team.launch begun).setWarp x.id fun y => { y with
      run := some (Run.fresh x.pc ws x.am ord took), phase := .running, stack := y.stack.map clear }
    (h.reads ws).foldl (fun s e => s.readHeader x.id e) s

/-- A warp's next block is fetched and starts, or parks the warp, or faults (R35, R59, R264). -/
def State.openBlock (s : State) (x : Warp) : State :=
  match s.fetchBlock x.core x.id.team.launch.ctx x.pc with
  | (s, .absent va) => s.park x.id 0 3 0 va
  | (s, .protect c va) => s.fault x.id (s.stopOf x.id 0x0A c 0 (va &&& 0x3FFFFFFFFFFFFF) [])
  | (s, .walk va pa code) => s.fault x.id (s.walkStop x.id x.core va pa code)
  | (s, .poisoned pa code) => s.dataFault x.id x.pc code pa 0
  | (s, .reloading) => s
  | (s, .block ws bad) =>
    let sr := if (Hdr.of (ws.headD 0)).sr != x.entering then [(0, FmtCause.sr.code)] else []
    match lowest (bad.toList ++ sr) with
    | some (w, c) => s.fault x.id (s.stopOf x.id 0x01 c 0 x.pc [BitVec.ofNat 64 w])
    | none => s.enterBlock x ws

/-! ### Step 6 of a commit (R7, R60, R75, R84) -/

/-- The join entries whose copies are pending for a warp, by key: those on its stack with CP set, and a popped join that has
not started, its own or the one a routine interrupted. -/
def Warp.pendingJoins (x : Warp) : List Nat :=
  (x.stack.filter fun e => e.join && e.cp).map (·.key) ++ x.copiesOut.toList ++
    ((x.routine.bind fun q => outOf q.popped).toList)

/-- What two sets of copies find: a reload, for which both wait, or the first fault. -/
def CopyCheck.first : Option CopyCheck → Option CopyCheck → Option CopyCheck
  | some (.reloading g), _ | _, some (.reloading g) => some (.reloading g)
  | a, b => a.or b

/-- Pending copies whose source registers were written are reissued, in the order they issued; a fault of one keeps none of the
others from it. -/
def State.reissueAll (s : State) (x : Warp) (keys wrote : List Nat) : State × Option CopyCheck :=
  (s.copies.filter fun c => c.warp == x.id && wrote.contains c.src && (c.pend.map keys.contains).getD false).foldl
    (fun p c =>
      let (s, r) := p.1.reissue x c
      (s, CopyCheck.first p.2 r)) (s, none)

/-- The rejoin block's copies issue, where it has been fetched and passes validation, and its entry carries CP (R7, R60). A rejoin block
with SR = 1 issues them too: SR is tested when a block starts (DESIGN CHOICE, log 105). -/
def State.rejoinCopies (s : State) (x : Warp) (key : Nat) (r : Fetched) : State × Option CopyCheck :=
  match r with
  | .block ws none =>
    let h := Hdr.of (ws.headD 0)
    let (s, ord) := s.newOrder
    let (s, bad) := s.issueCopies x (h.copies ws) (some key) ord
    let mark (e : StackEnt) : StackEnt := if e.key == key then { e with cp := true } else e
    (if h.nc == 0 || bad.isSome then s else s.setWarp x.id fun y => { y with stack := y.stack.map mark }, bad)
  | .reloading => (s, some (.reloading (.code x.core x.id.team.launch.ctx x.pc)))
  | _ => (s, none)

/-- What is left to be done at step 6: a rejoin block's copies, the registers written, and those of an ended routine. -/
def step6Of (join : Option (W64 × Nat)) (wrote before : List Nat) : Option Step6 :=
  if join.isNone && wrote.isEmpty && before.isEmpty then none else some { join := join, wrote := wrote, before := before }

/-- Copies issued and reissued at step 6, what is left of it set: a reload holds the warp, nothing of it being made, and an illegal copy
faults the warp, its commit standing (R42, log 50). -/
def State.step6Done (s : State) (w : WarpId) (left : Option Step6) (va : W64) (p : State × Option CopyCheck) : State :=
  let s' := p.1.setWarp w fun y => { y with rejoin := left }
  match p.2 with
  | some (.reloading g) => s.findRegion g
  | some (.bad c) => s'.badCopy w va c
  | some (.poisoned pa code) => s'.dataFault w va code pa 0
  | _ => s'

/-- The reissue that the blocks of an ended routine owe (R84): it waits for no fetch of the interrupted block's. -/
def State.step6Before (s : State) (w : WarpId) : State :=
  match s.warp? w with
  | none => s
  | some x =>
    match x.rejoin with
    | none => s
    | some q =>
      if q.before.isEmpty then s
      else s.step6Done w (step6Of q.join q.wrote []) x.pc (s.reissueAll x x.pendingJoins q.before)

/-- A warp's own step 6: a rejoin fetch whose page is absent parks the warp (R60). -/
def State.step6Own (s : State) (w : WarpId) : State :=
  match s.warp? w with
  | none => s
  | some x =>
    match x.rejoin with
    | none => s
    | some q =>
      if !q.before.isEmpty || x.phase != .ready then s
      else
        let keys := x.pendingJoins
        match q.join with
        | none => s.step6Done w none x.pc (s.reissueAll x keys q.wrote)
        | some (j, key) =>
          match s.fetchBlock x.core w.team.launch.ctx j with
          | (s, .absent va) => s.park w 0 3 0 va
          | (s, r) =>
            let p := s.rejoinCopies x key r
            let q' := p.1.reissueAll x keys q.wrote
            s.step6Done w none (if p.2.isSome then j else x.pc) (q'.1, CopyCheck.first p.2 q'.2)

/-- Step 6 made (R60, R75, R84). -/
def State.step6 (s : State) (w : WarpId) : State := (s.step6Before w).step6Own w

/-- A warp at a boundary owes something of step 6 that keeps the boundary from being there (R75): all of it, or, where it is parked on
the fetch itself, what waits for no fetch. -/
def Warp.owes (x : Warp) : Bool :=
  match x.phase with
  | .ready => x.rejoin.isSome
  | .parked .. => (x.rejoin.map fun q => !q.before.isEmpty).getD false
  | _ => false

/-! ### Stops at a boundary (R76, R93, R334, R335, R348) -/

/-- Whether a warp at a boundary stops there: a checkpoint's stop has come, and neither a routine nor a refused recall keeps
it going (R334, R335). -/
def State.stopsHere (s : State) (x : Warp) : Bool :=
  (s.launchOf x.id).phase == .stopping && x.routine.isNone && !((s.recallsOf x).any fun r => r.again)

/-- A YIELD counts where its block commits: a yield request is pending, or the stop request comes as it commits (R93, R348). A YIELD of a
surrender routine does not, since a routine runs on to its end (R326, R335; DESIGN CHOICE, log 117). -/
def State.yieldsHere (s : State) (x : Warp) : Bool :=
  match (s.launchOf x.id).phase with
  | .yielding _ => x.routine.isNone
  | .stopping => s.stopsHere x
  | _ => false

/-- The commit of a YIELD is noted (R93, R348): the warp stops at this boundary once nothing of its commit is owed. -/
def State.noteYield (s : State) (w : WarpId) (yields : Bool) : State :=
  match s.warp? w with
  | some x => if yields && s.yieldsHere x then s.setLaunch w.team.launch fun l => { l with yielded := w :: l.yielded } else s
  | none => s

/-- A warp has yielded at the boundary where it stands (R348). -/
def State.rests (s : State) (x : Warp) : Bool :=
  x.routine.isNone && (s.launchOf x.id).yielded.contains x.id && match (s.launchOf x.id).phase with
    | .yielding _ | .stopping => true
    | _ => false

/-- A warp at its boundary stops by yield, or for a stop request, and the scheduler recalls what it holds once that has come (R93, R324,
R334, R335, R348); a YIELD of a surrender routine is none (DESIGN CHOICE, log 117). Where step 6 of its commit is still to be made, no stop
observes the boundary yet (R75). -/
def State.atBoundary (s : State) (w : WarpId) : State :=
  match s.warp? w with
  | none => s
  | some x =>
    if x.phase != .ready || x.owes || !(s.rests x || s.stopsHere x) then s
    else (s.setWarp w fun y => { y with phase := .stopped }).recallHeld w

/-- BLOCK_START: a step 6 still to be made comes first, and then a stop that waited for it (R75); then the next block starts once it holds
an active place (R65, R343). -/
def execBlockStart (w : WarpId) (s : State) : Host.Outcome State Fault Refusal :=
  .next (match s.warp? w with
    | some x =>
      if !s.coreRuns x.core then s
      else if x.owes then (s.step6 w).atBoundary w
      else if s.startable x && s.hasPlace x then s.openBlock x else s
    | none => s)

/-! ### Prefetch and rows -/

/-- The blocks a block's control words and RJ name (R83). -/
def Run.names (r : Run) : List W64 :=
  (if r.rj == 0 then [] else [r.va + 32 * BitVec.ofInt 64 r.rj]) ++
  (List.range (r.ni + 1)).flatMap fun k => match r.instr k with
    | some (.br _ o) | some (.yield _ o) => [branchTo r.va o]
    | some (.brc _ a b) => [branchTo r.va a, branchTo r.va b]
    | some (.call _ a b) => [branchTo r.va a, branchTo r.va b]
    | _ => []

/-- PREFETCH_BLOCK: a block named by the block in flight or by a stack entry is fetched and validated; it raises nothing (R83). -/
def execPrefetchBlock (w : WarpId) (va : W64) (s : State) : Host.Outcome State Fault Refusal :=
  .next (match s.warp? w with
    | some x =>
      match x.run with
      | some r =>
        if s.coreRuns x.core && !r.np && (r.names.contains va || x.stack.any fun e => e.addr == va) then
          (s.fetchBlock x.core w.team.launch.ctx va).1
        else s
      | none => s
    | none => s)

/-- ROW_RETURN: a spilled row comes back to the pool (R172). -/
def execRowReturn (w : WarpId) (reg : Nat) (s : State) : Host.Outcome State Fault Refusal :=
  .next (match s.warp? w with
    | some x => if s.coreRuns x.core && x.phase != .retired then s.makeResident w reg else s
    | none => s)

end Sys2Proof.Machine
end

