-- ==== Sys2Proof/Machine/Leaving.lean ====
section
/-! DEFINITION. Step 5 of a commit (R75): the successor vote and its faults (R73, R74, R90, R328), the groups of lanes, and
the divergence stack (R78 to R82). -/
namespace Sys2Proof.Machine

/-- Lanes that have not exited. -/
def Warp.liveLanes (x : Warp) : Lanes := ~~~x.exited

/-- The successors an active lane received, by ascending instruction index (R73). -/
def Run.succsOf (r : Run) (l : Nat) : List Succ :=
  if r.am.getLsbD l then (r.succs.filter fun p => p.lane == l).mergeSort fun a b => a.idx ≤ b.idx else []

/-- The lane's successor, where it received one. -/
def Run.succ? (r : Run) (l : Nat) : Option Succ := (r.succsOf l).head?

/-- The active lanes whose successor is of some kind. -/
def Run.lanesTo (r : Run) (p : SuccKind → Bool) : Lanes := lanesOf fun l => ((r.succ? l).map fun q => p q.kind).getD false

/-- A lane leaves the active lanes: EXIT, TRAP or BKPT (R75). -/
def SuccKind.leaves : SuccKind → Bool
  | .exit | .trap _ | .bkpt _ => true
  | _ => false

/-- The address a branch or YIELD gives. -/
def SuccKind.block? : SuccKind → Option W64
  | .block a | .yield a => some a
  | _ => none

/-- A lane added to the group of its address; groups ascend by address. -/
def addLane (a : W64) (l : Nat) : List (W64 × Lanes) → List (W64 × Lanes)
  | [] => [(a, (1 : Lanes) <<< l)]
  | (b, m) :: g =>
    if a == b then (b, m ||| ((1 : Lanes) <<< l)) :: g
    else if a.toNat < b.toNat then (a, (1 : Lanes) <<< l) :: (b, m) :: g
    else (b, m) :: addLane a l g

/-- The groups of a commit, the call group left out (R78, R90). -/
def Run.groups (r : Run) : List (W64 × Lanes) :=
  allLanes.foldl (fun g l => match (r.succ? l).bind fun p => p.kind.block? with
    | some a => addLane a l g
    | none => g) []

/-- The call group, its callee and its return block (R90). -/
def Run.call? (r : Run) : Option (Lanes × W64 × W64) :=
  (allLanes.findSome? fun l => (r.succ? l).bind fun p => match p.kind with
    | .call f b => some (f, b)
    | _ => none).map fun p => (r.lanesTo fun k => match k with
      | .call .. => true
      | _ => false, p.1, p.2)

/-- A path entry. -/
def pathEnt (g : W64 × Lanes) : StackEnt := { join := false, addr := g.1, cp := false, mask := g.2, key := 0 }

/-- A join entry. -/
def joinEnt (a : W64) (m : Lanes) (key : Nat) : StackEnt := { join := true, addr := a, cp := false, mask := m, key := key }

/-- Exiting lanes leave every join entry's mask (R81). -/
def StackEnt.leave (m : Lanes) (e : StackEnt) : StackEnt := if e.join then { e with mask := e.mask &&& ~~~m } else e

/-- What runs next: the block, its mask, and the key of a popped join whose copies are out. -/
structure Next where
  pc : W64
  am : Lanes
  popped : Option (Nat × Bool)
  deriving DecidableEq, Repr, Inhabited

/-- The stack popped until something runs: the rest, what runs, and the joins discarded empty, by key (R80, R81). -/
def popStack : List StackEnt → List StackEnt × Option Next × List Nat
  | [] => ([], none, [])
  | e :: st =>
    if e.mask == 0 then
      let (r, n, c) := popStack st
      (r, n, if e.join && e.cp then e.key :: c else c)
    else (st, some { pc := e.addr, am := e.mask, popped := if e.join then some (e.key, e.cp) else none }, [])

/-- The outcome of step 5. -/
structure Leaving where
  stack : List StackEnt
  leave : Lanes
  next : Option Next
  /-- The rejoin block and the key of the join entry pushed, where the commit diverged with an RJ (R78). -/
  join : Option (W64 × Nat)
  /-- Joins discarded empty (R81). -/
  gone : List Nat
  ends : Bool
  yields : Bool
  deriving DecidableEq, Repr, Inhabited

/-- Step 5 of a commit (R78 to R81, R90); the join entries it may push take the two keys. -/
def Warp.leaving (x : Warp) (r : Run) (k1 k2 : Nat) : Leaving :=
  let leave := r.lanesTo SuccKind.leaves
  let st := x.stack.map (StackEnt.leave leave)
  let yields := (r.lanesTo fun k => match k with
    | .yield _ => true
    | _ => false) != 0
  let ends := (r.lanesTo fun k => k == .routineEnd) != 0
  if ends then { stack := st, leave := leave, next := none, join := none, gone := [], ends := true, yields := false }
  else
    let gs := r.groups
    let call := r.call?
    let j := r.va + 32 * BitVec.ofInt 64 r.rj
    let push := 1 < gs.length + (if call.isSome then 1 else 0) && r.rj != 0
    let all := gs.foldl (fun m g => m ||| g.2) ((call.map (·.1)).getD 0)
    let st := if push then joinEnt j all k1 :: st else st
    let gs := if push then gs.filter fun g => g.1 != j else gs
    let join := if push then some (j, k1) else none
    match call with
    | some (m, f, b) =>
      { stack := joinEnt b m k2 :: (gs.map pathEnt ++ st), leave := leave, next := some { pc := f, am := m, popped := none }
        join := join, gone := [], ends := false, yields := yields }
    | none =>
      match gs.filter fun g => some g.1 != topJoin st with
      | g :: gs =>
        { stack := gs.map pathEnt ++ st, leave := leave, next := some { pc := g.1, am := g.2, popped := none }
          join := join, gone := [], ends := false, yields := yields }
      | [] =>
        let (rest, n, gone) := popStack st
        { stack := rest, leave := leave, next := n, join := join, gone := gone, ends := false, yields := yields }

/-- The lowest lane of those that satisfy a test. -/
def lowestLane (p : Nat → Bool) : Option Nat := allLanes.find? p

/-- The lowest cause of a block-exit fault that applies, with its lowest lane (R74, R90, R328). -/
def Warp.exitFault (x : Warp) (r : Run) : Option (Nat × Nat) :=
  let calls := ((allLanes.flatMap r.succsOf).filterMap fun p => match p.kind with
    | .call .. => some p.idx
    | _ => none).eraseDups
  let isCall (l : Nat) : Bool := (r.succsOf l).any fun p => match p.kind with
    | .call .. => true
    | _ => false
  let lv := x.leaving r 0 0
  let five : Option (Nat × Nat) :=
    match x.routine with
    | some q =>
      if !lv.ends then none
      else match lowestLane fun l => x.liveLanes.getLsbD l && !r.am.getLsbD l with
        | some l => some (5, l)
        | none => if x.stack != q.stack then some (5, 0) else none
    | none => none
  ((lowestLane fun l => r.am.getLsbD l && (r.succsOf l).isEmpty).map fun l => (1, l)).or <|
  ((lowestLane fun l => 1 < (r.succsOf l).length).map fun l => (2, l)).or <|
  (if 1024 < lv.stack.length then some (3, 0) else none).or <|
  (if 1 < calls.length then (lowestLane isCall).map fun l => (4, l) else none).or five

end Sys2Proof.Machine
end

