-- ==== Sys2Proof/Machine/MatrixVal.lean ====
section
/-! DEFINITION. The values of the matrix array: weights and masks (R194, R195, R198, R199), the group sum and its rounding
(R200), split accumulation (R201), and drained elements (R212). -/
namespace Sys2Proof.Machine

/-! ### Operands -/

/-- The format of a float entry FMT code (R189). -/
def fmtOf : Nat → Fmt
  | 0 => .f32
  | 1 => .f16
  | 2 => .bf16
  | 3 => .e4m3
  | _ => .e5m2

/-- A stored row of a column is read by an MMA of the K range given (R194, R199). -/
def LEntry.readsRow (b : LEntry) (kb ka s : Nat) : Bool :=
  if b.spn == 0 then kb ≤ s && s < kb + ka
  else kb / 64 ≤ s / 32 && s / 32 < (kb + ka) / 64 && s % 32 < b.spn

/-- The bytes of an activation or output element. -/
def LEntry.elem (e : LEntry) : Nat :=
  match e.fmt with
  | 0 => 4
  | 1 | 2 => 2
  | _ => 1

/-- The stride of an entry's rows; 0 packs rows of `n` bytes with no gap (R189). -/
def LEntry.step (e : LEntry) (n : Nat) : Nat := if e.stride == 0 then n else e.stride

/-- Element c of row m of an activation entry in a scratchpad (R208). -/
def activation (spad : Mem) (a : LEntry) (m c : Nat) : Fp :=
  (fmtOf a.fmt).decode (leNat (rdBytes spad (a.base + m * a.step (a.cols * a.elem) + c * a.elem) a.elem))

/-- The bits of stored row s of column n of a weight image (R194). -/
def storedBits (ovl : Mem) (b : LEntry) (s n : Nat) : Nat :=
  match b.fmt with
  | 2 => leNat (rdBytes ovl (b.base + 1024 * (s / 4) + 8 * n + 2 * (s % 4)) 2)
  | 3 | 4 => (cget ovl (b.base + 1024 * (s / 8) + 8 * n + s % 8)).toNat
  | 6 => (cget ovl (b.base + 1024 * (s / 16) + 8 * n + s % 16 / 2)).toNat / (if s % 2 == 0 then 1 else 16) % 16
  | _ =>
    let byte (j : Nat) : W8 := cget ovl (b.base + 1024 * (3 * (s / 64) + j / 8) + 8 * n + j % 8)
    let g := s % 64 / 32
    leNat ((List.range 12).map fun j => byte (12 * g + j)) / 2 ^ (3 * (s % 32)) % 8

/-- The metadata mask of column n in group g (R199). -/
def maskOf (spad : Mem) (meta' : LEntry) (g n : Nat) : W64 := rdW64 spad (meta'.base + 1024 * g + 8 * n)

/-- The mask bits below a bit. -/
def onesBelow (w : W64) (k : Nat) : Nat := ((List.range k).filter fun i => w.getLsbD i).length

/-- The stored row of logical row k of column n, or none where a mask leaves it out (R199). -/
def storedRow (spad : Mem) (b meta' : LEntry) (k n : Nat) : Option Nat :=
  if b.spn == 0 then some k
  else
    let w := maskOf spad meta' (k / 64) n
    if w.getLsbD (k % 64) then some (32 * (k / 64) + onesBelow w (k % 64)) else none

/-- The exact weight of logical row k of column n (R198). -/
def weight (ovl spad : Mem) (b meta' : LEntry) (k n : Nat) : Fp :=
  match storedRow spad b meta' k n with
  | none => .fin false 0 0
  | some s =>
    let bits := storedBits ovl b s n
    match b.fmt with
    | 6 | 7 =>
      let w := if b.fmt == 6 then 4 else 3
      let i : Int := if bits < 2 ^ (w - 1) then bits else (bits : Int) - 2 ^ w
      (fpMulV (intFp i) (Fmt.ue5m3.decode (cget ovl (b.sbase + 128 * (k / b.group) + n)).toNat)).1
    | f => (fmtOf f).decode bits

/-! ### The group sum (R200) -/

/-- S · 2^lo rounded to FP32 by RNE, a tie between two values below 2^128 being decided by the sign of D; a dropped term makes the
result inexact (R142, R200). -/
def roundGroup (s lo d : Int) (dropped : Bool) : W32 × Flags :=
  if s == 0 then (0, .when dropped .nx) else
  let m := s.natAbs
  let top := (Nat.log2 m : Int) + lo - 23
  let k := (if top < -149 then -149 else top) - lo
  let tie := 0 < k && m % 2 ^ k.toNat == 2 ^ (k - 1).toNat && (Nat.log2 m : Int) + lo < 128
  let rm : Rm := if tie && 0 < d then .rup else if tie && d < 0 then .rdn else .rne
  let (b, f) := Fmt.f32.round rm false (.rat (s < 0) m 1 lo)
  let tiny := (Fmt.f32.roundMag rm (s < 0) m 1 lo).2.2.2
  (if b == 2 ^ 31 then 0 else BitVec.ofNat 32 b, f ||| .when dropped .nx ||| .when (dropped && tiny) .uf)

/-- The canonical NaN of FP32. -/
def nan32 : W32 := BitVec.ofNat 32 Fmt.f32.canonNaN

/-- One group of R200: the terms are C and the products. -/
def groupSum (c : W32) (ps : List Fp) : W32 × Flags :=
  let ts := (Fmt.f32.decode c.toNat :: ps).filter fun t => !t.isZero
  if ts.contains .nan then (nan32, 0)
  else if ts.contains (.inf false) && ts.contains (.inf true) then (nan32, .nv)
  else if ts.contains (.inf false) then (0x7F800000, 0)
  else if ts.contains (.inf true) then (0xFF800000, 0)
  else
    let logs := ts.map fun t => match t with
      | .fin _ m e => (Nat.log2 m : Int) + e
      | _ => 0
    match logs with
    | [] => (0, 0)
    | l :: ls =>
      let lo := ls.foldl (fun a b => if a < b then b else a) l - 63
      let add (acc : Int × Int × Bool) (t : Fp) : Int × Int × Bool :=
        match t with
        | .fin n m e =>
          let sh := (lo - e).toNat
          let h := if lo ≤ e then m * 2 ^ (e - lo).toNat else m / 2 ^ sh
          let cut := e < lo && m % 2 ^ sh != 0
          let sg : Int := if n then -1 else 1
          (acc.1 + sg * h, acc.2.1 + (if cut then sg else 0), acc.2.2 || cut)
        | _ => acc
      let (s, d, dropped) := ts.foldl add (0, 0, false)
      roundGroup s lo d dropped

/-- A logical row is stored, no mask leaves it out (R199). -/
def keptRow (spad : Mem) (b meta' : LEntry) (k n : Nat) : Bool := (storedRow spad b meta' k n).isSome

/-- The products of one group, with their flags (R198). -/
def groupProducts (as bs : List Fp) : List Fp × Flags :=
  (as.zip bs).foldl (fun p ab => let (v, f) := fpMulV ab.1 ab.2; (p.1 ++ [v], p.2 ||| f)) ([], 0)

/-- A count raised, held at 65,535 with CS (R201). -/
def countUp (c : W32) (n : Nat) : W32 × Flags :=
  if 65535 < c.toNat + n then (65535, .cs) else (BitVec.ofNat 32 (c.toNat + n), 0)

/-- An element of a split pair: P, N, c+ and c− (R201). -/
structure SplitElem where
  p : W32
  n : W32
  cp : W32
  cm : W32
  deriving DecidableEq, Repr, Inhabited

/-- One group of a split MMA on one element (R201). -/
def splitGroup (x : SplitElem) (ps : List Fp) : SplitElem × Flags :=
  let live := ps.filter fun t => !t.isZero
  let pos := live.filter fun t => t == .nan || !t.isNeg
  let neg := (live.filter fun t => t == .nan || t.isNeg).map Fp.neg
  let (p, f1) := groupSum x.p pos
  let (n, f2) := groupSum x.n neg
  let (cp, f3) := countUp x.cp (pos.filter (· != .nan)).length
  let (cm, f4) := countUp x.cm (neg.filter (· != .nan)).length
  ({ p := p, n := n, cp := cp, cm := cm }, f1 ||| f2 ||| f3 ||| f4)

/-- A list cut into groups of 32 (R200). -/
def groups (l : List Fp) : List (List Fp) := (List.range (l.length / 32)).map fun g => (l.drop (32 * g)).take 32

/-- One element through its groups, in increasing k (R200, R209). -/
def plainElem (c : W32) (as bs : List Fp) : W32 × Flags :=
  ((groups as).zip (groups bs)).foldl (fun acc g =>
    let (ps, f) := groupProducts g.1 g.2
    let (r, f') := groupSum acc.1 ps
    (r, acc.2 ||| f ||| f')) (c, 0)

/-- One split element through its groups (R201). -/
def splitElem (x : SplitElem) (as bs : List Fp) : SplitElem × Flags :=
  ((groups as).zip (groups bs)).foldl (fun acc g =>
    let (ps, f) := groupProducts g.1 g.2
    let (r, f') := splitGroup acc.1 ps
    (r, acc.2 ||| f ||| f')) (x, 0)

/-! ### Drained values (R212) -/

/-- P − N; with both infinite it is NaN with NV (R212). -/
def diffVal (p n : Fp) : Ex × Flags :=
  match p, n with
  | .inf _, .inf _ => (.nan, .nv)
  | _, _ => fpAdd .rne p n.neg

/-- The ratio a as a quotient with a positive divisor, none for NaN (R212); a ratio of zero is +0, over a negative sum too (DESIGN CHOICE,
log 112). -/
def ratioVal : Fp → Fp → Option (Int × Nat)
  | .nan, _ | _, .nan => none
  | .inf _, .inf _ => none
  | .inf _, _ | _, .inf _ => some (1, 1)
  | .fin n1 m1 e1, .fin n2 m2 e2 =>
    let e := if e1 ≤ e2 then e1 else e2
    let v (n : Bool) (m : Nat) (x : Int) : Int := let a : Int := (m * 2 ^ (x - e).toNat : Nat); if n then -a else a
    let p := v n1 m1 e1
    let q := v n2 m2 e2
    let num : Int := (p - q).natAbs
    if p == 0 && q == 0 then some (0, 1)
    else if p + q == 0 then none
    else if p + q < 0 then some (-num, (p + q).natAbs)
    else some (num, (p + q).natAbs)

/-- A NaN written as the canonical NaN, every other pattern unchanged (R212, R214). -/
def canon32 (w : W32) : W32 := if Fmt.f32.decode w.toNat == .nan then nan32 else w

/-- One drained element of modes raw, diff, ratio and gate: its bits in the output format, and flags (R212). -/
def drainVal (mode : DrainMode) (fmt : Fmt) (ag : Agree) (x : SplitElem) : Nat × Flags :=
  let p := Fmt.f32.decode x.p.toNat
  let n := Fmt.f32.decode x.n.toNat
  let diff (_ : Unit) : Nat × Flags := let (v, f) := diffVal p n; let (b, g) := fmt.round .rne false v; (b, f ||| g)
  match mode with
  | .raw => if fmt == .f32 then ((canon32 x.p).toNat, 0) else fmt.round .rne false p.ex
  | .ratio =>
    match ratioVal p n with
    | none => (fmt.canonNaN, .ro)
    | some (num, den) => fmt.round .rne false (.rat (num < 0) num.natAbs den 0)
  | .gate =>
    match ratioVal p n with
    | none => (if ag.nb then fmt.canonNaN else 0, 0)
    | some (num, den) =>
      if (ag.theta.toNat : Int) * den ≤ num * 65536 && ag.kappa.toNat ≤ x.cp.toNat + x.cm.toNat then diff () else (0, 0)
  | _ => diff ()

/-- The bytes of one drained row, element by element in ascending address, and their flags (R212). -/
def drainRow (mode : DrainMode) (out : LEntry) (ag : Agree) (row : Nat → SplitElem) : List (List W8) × Flags :=
  let cols := List.range 128
  match mode with
  | .img =>
    ((cols.map fun n => leBytes 4 (canon32 (row n).p).toNat) ++ (cols.map fun n => leBytes 4 (canon32 (row n).n).toNat) ++
      (cols.map fun n => leBytes 2 (row n).cp.toNat) ++ (cols.map fun n => leBytes 2 (row n).cm.toNat), 0)
  | _ =>
    cols.foldl (fun acc n =>
      let (b, f) := drainVal mode (fmtOf out.fmt) ag (row n)
      (acc.1 ++ [leBytes out.elem b], acc.2 ||| f)) ([], 0)

end Sys2Proof.Machine
end

