-- ==== Sys2Proof/Machine/Matrix.lean ====
section
/-! DEFINITION. The matrix instructions (R203 to R217): MMA with its gang latch, its start and its completion, AZERO, ADRN,
ALOAD, AGSET and GANG, and what their commits change. -/
namespace Sys2Proof.Machine

/-! ### Tiles of the array -/

/-- The element of row r, column n of a tile and, for a split pair, of its partner and counts (R201). -/
def Team.elem (t : Team) (tid r n : Nat) (spl : Bool) : SplitElem :=
  let at' (l : List (Nat × Plane)) (k : Nat) : W32 := cget (((l.find? fun p => p.1 == k).map (·.2)).getD []) (128 * r + n)
  let j := tid - 32
  { p := at' t.acc tid, n := if spl then at' t.acc (tid + 1) else 0
    cp := if spl then at' t.counts j else 0, cm := if spl then at' t.counts (j + 1) else 0 }

/-- One plane of a list changed. -/
def setPlane (l : List (Nat × Plane)) (k : Nat) (f : Plane → Plane) : List (Nat × Plane) :=
  l.map fun p => if p.1 == k then (p.1, f p.2) else p

/-- The words of `new` written over a plane: those of its rows listed, the rest left. -/
def overPlane (old new : Plane) (rows : Nat) : Plane :=
  new.foldl (fun a p => cset a p.1 p.2) (old.filter fun p => 128 * rows ≤ p.1)

/-- The unit a matrix instruction names: the first tile the warp may not name, or the pair's first tile where the team has
no counts for it (R201, R208, R319). -/
def State.accBad (s : State) (x : Issue) (tid : Nat) (spl : Bool) : Option Nat :=
  (s.unnamed? x (unitTiles tid spl)).or
    (if spl && !(((s.team? x.w.team).map fun t => t.hasPair ((tid - 32) / 2)).getD false) then some tid else none)

/-- The scratchpad tile that holds some bytes, among those the block declares with read use (R208). -/
def Team.holding (t : Team) (r : Run) (lo hi : Nat) : Option Nat :=
  ((t.tiles.filter fun x => x.tid < 32 && x.off ≤ lo && hi ≤ x.off + x.size).find? fun x =>
    r.tiles.any fun d => d.1 == x.tid && d.2.1).map (·.tid)

/-! ### Commits (R202, R203, R210, R214) -/

/-- A tile of the array becomes ready. -/
def Tile.becomeReady (x : Tile) : Tile := { x with st := .ready, cnt := 0 }

/-- Flags ORed into a tile's status (R202). -/
def Team.orStatus (t : Team) (tid : Nat) (f : Flags) : Team := t.setTile tid fun x => { x with status := x.status ||| f }

/-- The count planes of a split pair (R201). -/
def countPlanes (tid : Nat) (spl : Bool) : List Nat := if spl then [tid - 32, tid - 31] else []

/-- The errors of the rows of accumulator tiles and count planes that a write replaces, gone (R362). -/
def State.clearAcc (s : State) (t : TeamId) (tids planes : List Nat) (first rows : Nat) : State :=
  let hit (w : Nat) : Bool := 128 * first ≤ w && w < 128 * (first + rows)
  { s with errs := s.errs.filter fun e => match e.1 with
      | .acc u k w => !(u == t && tids.contains k && hit w)
      | .counts u k w => !(u == t && planes.contains k && hit w)
      | _ => true }

/-- AZERO's change (R210); with .s both tiles of the pair lose their status (DESIGN CHOICE, log 134). -/
def State.commitAzero (s : State) (id : TeamId) (tid : Nat) (spl : Bool) : State :=
  (s.clearAcc id (unitTiles tid spl) (countPlanes tid spl) 0 128).setTeam id fun t =>
    let zero (l : List (Nat × Plane)) (k : Nat) : List (Nat × Plane) := setPlane l k fun _ => []
    let t := (unitTiles tid spl).foldl (fun t k =>
      { (t.setTile k fun x => { x.becomeReady with status := 0 }) with acc := zero t.acc k }) t
    if spl then { t with counts := zero (zero t.counts (tid - 32)) (tid - 31) } else t

/-- A list of rows of words as a plane, from a first row on. -/
def rowsPlane (first : Nat) (rows : List (List W32)) : Plane :=
  ((List.range rows.length).flatMap fun i => (List.range 128).map fun n => (128 * (first + i) + n, (rows.getD i []).getD n 0)).filter
    fun p => p.2 != 0

/-- The rows from `first` on replaced in a plane, whose other rows are kept, or zero where the tile was empty (R203, R214). -/
def loadPlane (old : Plane) (empty : Bool) (first : Nat) (rows : List (List W32)) : Plane :=
  let base : Plane := if empty then [] else old.filter fun p => !(128 * first ≤ p.1 && p.1 < 128 * (first + rows.length))
  (rowsPlane first rows).foldl (fun a p => cset a p.1 p.2) base

/-- ALOAD's change (R203, R214): each row holds 128 words, or for an image P, N, c+ and c− in turn. Where one tile of a pair alone is
empty, the counts of the rows left unloaded become 0 as the even tile is (DESIGN CHOICE, log 113). -/
def State.commitAload (s : State) (id : TeamId) (tid first : Nat) (img : Bool) (rows : List (List W32)) : State :=
  let empty := s.tileSt id tid == .empty
  (s.clearAcc id (unitTiles tid img) (countPlanes tid img) (if empty then 0 else first) (if empty then 128 else rows.length)).setTeam id fun t =>
    let part (k : Nat) : List (List W32) := rows.map fun r => (r.drop (128 * k)).take 128
    let isEmpty (k : Nat) : Bool := ((t.tile? k).map fun x => x.st == .empty).getD true
    let acc := setPlane t.acc tid fun p => loadPlane p (isEmpty tid) first (part 0)
    let acc := if img then setPlane acc (tid + 1) fun p => loadPlane p (isEmpty (tid + 1)) first (part 1) else acc
    let cnt := if img then
        setPlane (setPlane t.counts (tid - 32) fun p => loadPlane p (isEmpty tid) first (part 2)) (tid - 31)
          fun p => loadPlane p (isEmpty tid) first (part 3)
      else t.counts
    (unitTiles tid img).foldl (fun t k => t.setTile k Tile.becomeReady) { t with acc := acc, counts := cnt }

/-- The rows an operation computes. -/
def Mma.rows (m : Mma) : Nat := (m.members.map fun p => p.2.2.2).foldl (· + ·) 0

/-- An MMA's change (R209): its rows replaced in the tile, or in the pair and its counts; the flags go to the status. -/
def State.commitMma (s : State) (m : Mma) : State :=
  let tid := m.f.tid.toNat
  s.setTeam m.team fun t =>
    let acc := setPlane t.acc tid fun p => overPlane p m.outP m.rows
    let t := if m.f.spl then
        { t with
          acc := setPlane acc (tid + 1) fun p => overPlane p m.outN m.rows
          counts := setPlane (setPlane t.counts (tid - 32) fun p => overPlane p m.outCp m.rows) (tid - 31)
            fun p => overPlane p m.outCm m.rows }
      else { t with acc := acc }
    t.orStatus tid m.flags

/-! ### MMA (R207 to R209) -/

/-- The checks of R208 on the entries and operands, in its order; the answer names a tile, or a Legend index by 256 more.
A bad row count is reported by A's index and a bad K origin by B's (log 21). -/
def Team.mmaBad (t : Team) (r : Run) (f : MmaF) (ra rows kb : Nat) (a b meta' : LEntry) : Option Nat :=
  let ka := a.cols
  let step := a.step (ka * a.elem)
  let sparse := b.spn != 0
  let entry (i : BitVec 6) : Option Nat := some (256 + i.toNat)
  if !(a.ok && a.kind == 0 && a.space == 1 && [2, 3, 4].contains a.fmt && a.sfmt == 0 && a.spn == 0 && ka % 32 == 0 &&
      1 ≤ rows && rows ≤ 128 && ra + rows ≤ a.rows) then entry f.tda
  else if (t.holding r (a.base + ra * step) (a.base + (ra + rows - 1) * step + ka * a.elem)).isNone then entry f.tda
  else if !(b.isWeight && b.cols == 128 && b.base % 1024 == 0 &&
      (if b.fmt == 6 || b.fmt == 7 then b.sfmt == 1 && b.sbase % 128 == 0 else b.sfmt == 0) &&
      (b.fmt != 7 || b.stored % 64 == 0) && (!sparse || b.rows % (if b.fmt == 7 then 128 else 64) == 0) &&
      b.region.2 ≤ overlaySize && kb + ka ≤ b.rows && kb % 32 == 0 && (!sparse || (ka % 64 == 0 && kb % 64 == 0))) then entry f.tdb
  else if sparse then
    if !(meta'.ok && meta'.kind == 3 && meta'.space == 1 && meta'.fmt == 0 && meta'.sfmt == 0 && meta'.cols == 128 &&
        b.rows / 64 ≤ meta'.rows && meta'.base % 256 == 0) ||
      (t.holding r (meta'.base + 1024 * (kb / 64)) (meta'.base + 1024 * ((kb + ka) / 64))).isNone then some (256 + b.mdx)
    else none
  else none

/-- The scratchpad tiles a member reads: the one that holds its A rows, and the metadata's (R206, R208). -/
def Team.mmaSources (t : Team) (r : Run) (a b e : LEntry) (kb ra rows : Nat) : List Nat :=
  let step := a.step (a.cols * a.elem)
  (t.holding r (a.base + ra * step) (a.base + (ra + rows - 1) * step + a.cols * a.elem)).toList ++
    (if b.spn == 0 then [] else (t.holding r (e.base + 1024 * (kb / 64)) (e.base + 1024 * ((kb + a.cols) / 64))).toList)

/-- The same of an operation's member. -/
def Team.mmaReads (t : Team) (r : Run) (m : Mma) (ra rows : Nat) : List Nat :=
  t.mmaSources r (parseEntry m.a) (parseEntry m.b) (parseEntry m.meta') m.kb ra rows

/-- The scratchpad tiles an operation reads, each once (R206, R209). -/
def State.mmaTiles (s : State) (m : Mma) : List Nat :=
  (m.members.flatMap fun p =>
    match s.team? m.team, (s.warp? { team := m.team, warp := p.1 }).bind (·.run) with
    | some t, some r => t.mmaReads r m p.2.2.1 p.2.2.2
    | _, _ => []).eraseDups

/-- Who holds an operation's references: the block, or the gang as one (R206). -/
def Mma.owner (m : Mma) : RefOwner :=
  if m.f.gng then .gang m.id
  else match m.members with
  | (w, _) :: _ => .block { team := m.team, warp := w }
  | [] => .gang m.id

/-- An operation changed. -/
def State.setMma (s : State) (id : Nat) (f : Mma → Mma) : State :=
  { s with mmas := s.mmas.map fun m => if m.id == id then f m else m }

/-- An operation takes its references once all of them may be taken (R183, R196, R203, R209). -/
def State.mmaRefs (s : State) (m : Mma) : State :=
  if m.phase != 1 then s else
  let o := m.owner
  let (lo, hi) := (parseEntry m.b).region
  let reads := s.mmaTiles m
  let writes := unitTiles m.f.tid.toNat m.f.spl
  if (reads.all fun k => s.canRead o m.team k) && (writes.all fun k => s.canWrite o m.team k [.ready]) &&
      s.regionReady m.core m.f.tdb.toNat lo hi then
    let s := reads.foldl (fun s k => s.takeRef o m.team k false) s
    let s := writes.foldl (fun s k => s.takeRef o m.team k true) s
    (s.takeRegion o m.core lo hi).setMma m.id fun x => { x with phase := 2 }
  else s

/-- The cost of R217, in tokens. -/
def mmaCost (rows ka : Nat) (a b : LEntry) : Nat :=
  let f := if (b.fmt == 6 || b.fmt == 7) && a.fmt != 2 then 6 else 4
  let c := (rows + 15) / 16 * (ka / 32) * f
  if b.spn == 0 then c else (c + 1) / 2

/-- The K origin of an MMA: its third slot, or 0 (R207). -/
def mmaOrigin (f : MmaF) (o : Opnds) : Nat := if f.ks then (o.third.val32 0).toNat else 0

/-- A warp of a team has exited or faulted, or is none of its warps (R204). -/
def State.absentWarp (s : State) (t : TeamId) (w : Nat) : Bool :=
  match s.warp? { team := t, warp := w } with
  | some x => x.phase == .retired || x.phase == .faulted
  | none => true

/-- A listed warp waits at a latch of another list, so that its gang register differs (R204). -/
def State.gangDiffers (s : State) (t : TeamId) (g : Lanes) : Bool :=
  s.mmas.any fun m => m.team == t && m.phase == 0 && m.gang != g && m.members.any fun p => g.getLsbD p.1

/-- The waiting members whose list names a warp that comes with another list take a gang fault (R204). -/
def State.faultDiffering (s : State) (w : WarpId) (g : Lanes) : State :=
  ((s.mmas.filter fun m => m.team == w.team && m.phase == 0 && m.gang != g && m.gang.getLsbD w.warp).filterMap
      fun m => m.members.head?.map fun p => p.1).foldl (fun s v =>
    let id : WarpId := { team := w.team, warp := v }
    s.fault id (s.stopOf id 0x06 0 0 (((s.warp? id).map (·.pc)).getD 0) [BitVec.setWidth 64 (((s.warp? id).map fun y => y.gang).getD 0)])) s

/-- A gang's last member arrives: a joint M above 128 is an illegal tile use of the lowest listed warp (R204); else the
operation waits for its references as one (R206). -/
def State.latched (s : State) (m : Mma) : State :=
  if 128 < m.rows then
    match m.members with
    | (w, _) :: _ =>
      let id : WarpId := { team := m.team, warp := w }
      s.fault id (s.stopOf id 0x05 0 0 (((s.warp? id).bind (·.run)).map (·.va) |>.getD 0) [m.f.tid.setWidth 64])
    | [] => s
  else
    let s := s.setMma m.id fun x =>
      { x with phase := 1, cost := mmaCost x.rows x.ka (parseEntry x.a) (parseEntry x.b) }
    let s := m.members.foldl (fun s p => s.setRun { team := m.team, warp := p.1 } fun r =>
      r.setNode p.2.1 fun n => { n with st := .waiting .array }) s
    match s.mmas.find? fun x => x.id == m.id with
    | some x => s.mmaRefs x
    | none => s

/-- A gang's member arrives at the latch for its list (R204): its own place among the members, in ascending warp index.
A second joint MMA of one block joins the first operation waiting for the list that its warp has not joined yet (DESIGN CHOICE, log 124). -/
def State.atLatch (s : State) (x : Issue) (new : Mma) : State :=
  let g := x.warp.gang
  let same (m : Mma) : Bool := m.team == x.w.team && m.phase == 0 && m.gang == g && m.members.all fun p => p.1 != x.w.warp
  let differs (m : Mma) : Bool :=
    m.f.tid != new.f.tid || m.f.tda != new.f.tda || m.f.tdb != new.f.tdb || m.f.spl != new.f.spl || m.kb != new.kb
  if s.gangDiffers x.w.team g then s.gangFault x
  else
    let s := s.faultDiffering x.w g
    match s.mmas.find? same with
    | some m =>
      if differs m then s.gangFault x
      else
        let add (y : Mma) : Mma :=
          { y with members := (y.members.filter fun p => p.1 < x.w.warp) ++ new.members ++ y.members.filter fun p => x.w.warp < p.1 }
        let s := (s.setMma m.id add).wait x .latch
        if (add m).members.length == laneCount g then s.latched (add m) else s
    | none => { (s.wait x .latch) with mmas := s.mmas ++ [new] }

/-- An MMA whose checks have passed: it takes its references, or waits at its gang's latch (R204, R209). -/
def State.mmaIssue (s : State) (x : Issue) (f : MmaF) (ra rows : Nat) (aw bw mw : List W64) : State :=
  let (s, id) := s.newId
  let a := parseEntry aw
  let m : Mma :=
    { id := id, team := x.w.team, core := x.warp.core, f := f, gang := if f.gng then x.warp.gang else (1 : Lanes) <<< x.w.warp
      members := [(x.w.warp, x.k, ra, rows)], kb := mmaOrigin f x.o, ka := a.cols, a := aw, b := bw, meta' := mw
      cost := mmaCost rows a.cols a (parseEntry bw), phase := if f.gng then 0 else 1
      outP := [], outN := [], outCp := [], outCm := [], flags := 0 }
  if f.gng then s.atLatch x m
  else ({ (s.wait x .array) with mmas := s.mmas ++ [m] } : State).mmaRefs m

/-- A fault that names a tile, or a Legend index by 256 more. -/
def State.illegalCode (s : State) (x : Issue) (c : Nat) : State := s.illegal x (c % 256) (256 ≤ c)

/-- MMA (R207 to R209): its scratchpad tiles must be ones its warp may name (R319); the bring-up service accepts BF16 with BF16 alone (R378). -/
def execMma (f : MmaF) (s : State) : Host.Outcome State Fault Refusal :=
  s.firing (.mma f) fun x =>
    let st := (x.run.node x.k).st
    if !uniOk (.mma f) x.o then (if f.gng then s.gangFault x else s.finish x)
    else if st == .waiting .latch || st == .waiting .array then s
    else match s.accBad x f.tid.toNat f.spl with
    | some t => s.illegal x t false
    | none =>
      if f.gng && (x.warp.routine.isSome || !x.warp.gang.getLsbD x.w.warp ||
          allLanes.any fun w => x.warp.gang.getLsbD w && s.absentWarp x.w.team w) then s.gangFault x
      else
        let ra := (x.o.left.val32 0).toNat
        let rows := (x.o.right.val32 0).toNat
        s.readLegend x f.tda.toNat fun s aw => s.readLegend x f.tdb.toNat fun s bw =>
          let b := parseEntry bw
          let go (s : State) (mw : List W64) : State :=
            let srcs := ((s.team? x.w.team).map fun t => t.mmaSources x.run (parseEntry aw) b (parseEntry mw) (mmaOrigin f x.o) ra rows).getD []
            match ((s.team? x.w.team).bind fun t => t.mmaBad x.run f ra rows (mmaOrigin f x.o) (parseEntry aw) b (parseEntry mw)).or
                (s.unnamed? x srcs) with
            | some c => s.illegalCode x c
            | none =>
              if s.fw.bringUp && (parseEntry aw).fmt != 2 then s.illegal x f.tda.toNat true
              else if s.fw.bringUp && b.fmt != 2 then s.illegal x f.tdb.toNat true
              else s.mmaIssue x f ra rows aw bw mw
          if b.ok && b.spn != 0 then s.readLegend x b.mdx go else go s []

/-- An operation at the array: it takes its references, and when it holds them it starts once the bucket's level is above
zero, whose tokens it takes (R209, R217); the array of a core that has stopped begins nothing (R357, R365). -/
def execMmaStart (id : Nat) (s : State) : Host.Outcome State Fault Refusal :=
  match s.mmas.find? fun m => m.id == id with
  | none => .next s
  | some m =>
    if !s.coreRuns m.core then .next s else
    let s := s.mmaRefs m
    match s.mmas.find? fun m => m.id == id with
    | some m =>
      if m.phase == 2 && 0 < (s.core m.core).level then
        .next ((s.setCore m.core fun c => { c with level := c.level - 4 * m.cost }).setMma id fun x => { x with phase := 3 })
      else .next s
    | none => .next s

/-- The A rows of an operation, members in ascending warp index (R204). -/
def Mma.aRows (m : Mma) : List Nat := m.members.flatMap fun p => (List.range p.2.2.2).map fun i => p.2.2.1 + i

/-- A mask whose population count differs from N (R199). -/
def maskBad (spad : Mem) (b e : LEntry) (kb ka : Nat) : Bool :=
  (List.range (ka / 64)).any fun g => (List.range 128).any fun n => onesBelow (maskOf spad e (kb / 64 + g) n) 64 != b.spn

/-- The MMA reads the Overlay run at an offset: one of its weight rows, or a scale of one of its groups (R194, R195, R199). -/
def LEntry.readsRun (b : LEntry) (kb ka o : Nat) : Bool :=
  let blk := (o - b.base) / 1024
  let rows := if b.fmt == 7 then
      ((List.range 64).filter fun r => 96 * (r / 32) + 3 * (r % 32) < 64 * (blk % 3 + 1) && 64 * (blk % 3) ≤ 96 * (r / 32) + 3 * (r % 32) + 2).map
        fun r => 64 * (blk / 3) + r
    else (List.range b.perRun).map fun r => b.perRun * blk + r
  (b.base ≤ o && o < b.base + 1024 * b.blocks && rows.any fun s => b.readsRow kb ka s) ||
    (b.sfmt != 0 && o < b.sbase + 128 * ((kb + ka - 1) / b.group + 1) && b.sbase + 128 * (kb / b.group) < o + 8)

/-- The granules an operation reads, with errors (R360, R362). -/
def State.mmaErrs (s : State) (m : Mma) : List Granule :=
  let a := parseEntry m.a
  let b := parseEntry m.b
  let e := parseEntry m.meta'
  let step := a.step (a.cols * a.elem)
  (s.errs.map (·.1)).filter fun g => match g with
    | .ovl c o => c == m.core && b.readsRun m.kb m.ka o
    | .acc t k w => t == m.team && (unitTiles m.f.tid.toNat m.f.spl).contains k && w < 128 * m.rows
    | .counts t k w => t == m.team && (countPlanes m.f.tid.toNat m.f.spl).contains k && w < 128 * m.rows
    | .spad t o =>
      t == m.team && (m.aRows.any (fun r => o < a.base + r * step + a.cols * a.elem && a.base + r * step < o + 4) ||
        (b.spn != 0 && o < e.base + 1024 * ((m.kb + m.ka) / 64) && e.base + 1024 * (m.kb / 64) < o + 4))
    | _ => false

/-- The computed rows of an operation: P, N, c+, c− and the flags (R209); a masked-out row's product is zero whatever its activation
(R199). -/
def Team.mmaRun (t : Team) (m : Mma) (ovl : Mem) : List (Nat × SplitElem) × Flags :=
  let a := parseEntry m.a
  let b := parseEntry m.b
  let e := parseEntry m.meta'
  let tid := m.f.tid.toNat
  let cols := (List.range 128).map fun n => (n, (List.range m.ka).map fun k => weight ovl t.spad b e (m.kb + k) n)
  let kept (av : List Fp) (n : Nat) : List Fp :=
    if b.spn == 0 then av
    else (av.zip (List.range m.ka)).map fun p => if keptRow t.spad b e (m.kb + p.2) n then p.1 else .fin false 0 0
  let rows := (List.range m.aRows.length).zip m.aRows
  rows.foldl (fun acc r =>
    let av := (List.range m.ka).map fun c => activation t.spad a r.2 c
    cols.foldl (fun acc c =>
      let x := t.elem tid r.1 c.1 m.f.spl
      let av := kept av c.1
      let (y, f) := if m.f.spl then splitElem x av c.2 else let (p, f) := plainElem x.p av c.2; ({ x with p := p }, f)
      (acc.1 ++ [(128 * r.1 + c.1, y)], acc.2 ||| f)) acc) ([], 0)

/-- An operation's members' instructions finish, leaving the change to their joint commit (R205, R209). -/
def State.mmaDone (s : State) (m : Mma) (f : Flags) : State :=
  m.members.foldl (fun s p => s.setRun { team := m.team, warp := p.1 } fun r =>
    { r.finish p.2.1 with effs := r.effs ++ [(p.2.1, .mma m.id)], flags := r.flags ||| f }) s

/-- A started operation completes (R209): an uncorrectable error or a bad mask faults its warp, the first of a gang's. -/
def execMmaComplete (id : Nat) (s : State) : Host.Outcome State Fault Refusal :=
  match s.mmas.find? fun m => m.id == id && m.phase == 3 with
  | none => .next s
  | some m =>
    if !s.coreRuns m.core then .next s else
    match s.team? m.team, m.members with
    | some t, (w, _) :: _ =>
      let v : WarpId := { team := m.team, warp := w }
      let va := (((s.warp? v).bind (·.run)).map (·.va)).getD 0
      let gs := s.mmaErrs m
      let s := s.correct gs
      match s.badOf gs with
      | .ovl _ o :: _ => .next (s.dataFault v va 4 o 0)
      | .acc _ _ o :: _ | .counts _ _ o :: _ => .next (s.dataFault v va 3 (4 * o) 0)
      | .spad _ o :: _ => .next (s.dataFault v va 2 o 0)
      | _ =>
        let b := parseEntry m.b
        if b.spn != 0 && maskBad t.spad b (parseEntry m.meta') m.kb m.ka then
          .next (s.fault v (s.stopOf v 0x05 0 0 va [BitVec.ofNat 64 (256 + b.mdx)]))
        else
          let (out, f) := t.mmaRun m (s.core m.core).ovl
          let plane (g : SplitElem → W32) : Plane := (out.map fun p => (p.1, g p.2)).filter fun p => p.2 != 0
          let s := (s.setMma id fun x => { x with
            phase := 4, outP := plane (·.p), outN := plane (·.n), outCp := plane (·.cp), outCm := plane (·.cm)
            flags := f }).mmaDone m f
          .next (m.members.foldl (fun s p => s.tested { team := m.team, warp := p.1 }) s)
    | _, _ => .next s

/-! ### AZERO, AGSET, GANG (R210, R215, R216) -/

/-- Every other instruction of a block has finished, but AZEROs and a BARSYN that holds it (log 20). -/
def Run.restDone (r : Run) : Bool :=
  (List.range (r.ni + 1)).all fun k =>
    match (r.node k).st, r.instr k with
    | .done, _ => true
    | .waiting (.barsyn _), _ => true
    | _, some i => (match i with | .azero .. => true | _ => false) && (r.node k).full i
    | _, none => false

/-- Nothing holds a block: something of it can fire, or it waits for reloads alone, which no program sees (R364). -/
def Run.moves (r : Run) : Bool :=
  r.canFire || r.nodes.all fun n => match n.st with
    | .waiting .region => true
    | .waiting _ => false
    | _ => true

/-- Another warp of the team may be about to drain one of some tiles that is ready: it is between blocks, or an ADRN of such a tile waits
for a reload of the Legend there, or has still to fire and nothing holds its block (R129, log 95). -/
def State.drainDue (s : State) (w : WarpId) (ts : List Nat) : Bool :=
  (ts.any fun k => s.tileSt w.team k == .ready) && (s.live w.team).any fun y => y.id != w && match y.phase, y.run with
    | .ready, _ | .parked .., _ => true
    | .running, some r =>
      (List.range (r.ni + 1)).any fun k =>
        ((r.node k).st == .waiting .region || ((r.node k).st == .idle && r.moves)) && match r.instr k with
          | some (.adrn f) => (unitTiles f.tid.toNat (f.mode != .raw)).any ts.contains
          | _ => false
    | _, _ => false

/-- AZERO: it takes its write references when the rest of its block is done (R203, R210, log 20) and no drain of its tiles is due in
another warp of the team (R129, log 95). -/
def execAzero (pr : Pr) (spl : Bool) (tid : BitVec 6) (s : State) : Host.Outcome State Fault Refusal :=
  let i : Instr := .azero pr spl tid
  s.firing i fun x =>
    if !uniOk i x.o then s.finish x
    else match s.accBad x tid.toNat spl with
    | some t => s.illegal x t false
    | none =>
      let ts := unitTiles tid.toNat spl
      let o := RefOwner.block x.w
      if x.run.restDone && !s.drainDue x.w ts && ts.all fun k => s.canWrite o x.w.team k [.empty, .ready] then
        (ts.foldl (fun s k => s.takeRef o x.w.team k true) s).leave x (.azero tid.toNat spl)
      else s.wait x .tiles

/-- AGSET: the word θ [31:16], κ [15:0], at commit (R215). -/
def execAgset (pr : Pr) (nb : Bool) (ag : BitVec 2) (s : State) : Host.Outcome State Fault Refusal :=
  let i : Instr := .agset pr nb ag
  s.firing i fun x =>
    if uniOk i x.o then
      let v := x.o.left.val32 0
      s.leave x (.agset ag.toNat (v.extractLsb' 16 16) (v.extractLsb' 0 16) nb)
    else s.finish x

/-- GANG: bit j of the mask lists warp BASE + j, at commit (R216). -/
def execGang (pr : Pr) (base : BitVec 5) (mask : BitVec 24) (s : State) : Host.Outcome State Fault Refusal :=
  let i : Instr := .gang pr base mask
  s.firing i fun x => if uniOk i x.o then s.leave x (.gang (mask.setWidth 32 <<< base.toNat)) else s.finish x

/-! ### ADRN and ALOAD (R211 to R214) -/

/-- Where an element of an output or source row lies, its offset in the row and its width: 128 elements, or an image's 512. -/
def rowElems (e : LEntry) (img : Bool) : List (Nat × Nat) :=
  if img then
    ((List.range 256).map fun n => (4 * n, 4)) ++ (List.range 256).map fun n => (1024 + 2 * n, 2)
  else (List.range 128).map fun n => (e.elem * n, e.elem)

/-- The bytes of a row. -/
def rowBytes (e : LEntry) (img : Bool) : Nat := if img then 1536 else 128 * e.elem

/-- The address of an element of a row of an entry, with the offset of its row. -/
def LEntry.at' (e : LEntry) (img : Bool) (row off : Nat) : Nat := e.base + row * e.step (rowBytes e img) + off

/-- The checks R211 and R214 make of an entry and the slots. -/
def rowsOk (e : LEntry) (img load : Bool) (tr row rows : Nat) : Bool :=
  e.ok && e.kind == 2 && e.space ≤ 1 && 1 ≤ rows && rows ≤ 128 && tr + rows ≤ 128 && row + rows ≤ e.rows &&
    (if img then e.fmt == 0 && e.cols == 384 else (e.fmt == 0 || (!load && e.fmt ≤ 2)) && e.cols == 128)

/-- The elements of some rows, checked as lane accesses are, in ascending row and address (R124, R213, log 22). -/
def State.checkRows (s : State) (x : Issue) (acc : Nat) (els : List (Nat × Nat)) : State × Checked :=
  els.foldl (fun p e => p.1.checkLane x.warp.core x.w.team.launch.ctx acc e.2 false p.2 (0, BitVec.ofNat 64 e.1))
    (s, { accs := [], absent := none, bad := none, walk := none })

/-- The first scratchpad element that is misaligned or beyond SPAD, with its cause. -/
def spadElemBad (size : Nat) (els : List (Nat × Nat)) : Option (Nat × Nat) :=
  els.findSome? fun e => if e.1 % e.2 != 0 then some (5, e.1) else if size < e.1 + e.2 then some (6, e.1) else none

/-- The words of accumulator rows and counts a drain reads, with errors. -/
def State.rowErrs (s : State) (t : TeamId) (tids planes : List Nat) (tr rows : Nat) : List Granule :=
  (s.errs.map (·.1)).filter fun g => match g with
    | .acc u k w => u == t && tids.contains k && 128 * tr ≤ w && w < 128 * (tr + rows)
    | .counts u k w => u == t && planes.contains k && 128 * tr ≤ w && w < 128 * (tr + rows)
    | _ => false

/-- A drain whose references are granted: the tile read, every output translated, the status delivered (R211 to R213). -/
def State.drainIssue (s : State) (x : Issue) (f : DrainF) (t : Team) (e : LEntry) (tr row rows : Nat) : State :=
  let tid := f.tid.toNat
  let img := f.mode == .img
  let spl := f.mode != .raw
  let gs := s.rowErrs x.w.team (unitTiles tid spl) (countPlanes tid (f.mode == .img || f.mode == .gate)) tr rows
  let s := s.correct gs
  match s.badOf gs with
  | .acc _ _ w :: _ | .counts _ _ w :: _ => s.dataFault x.w x.run.va 3 (4 * w) 0
  | _ =>
    let ag := t.ag.getD f.ag.toNat { theta := 0, kappa := 0, nb := false }
    let (data, fl) := (List.range rows).foldl (fun acc i =>
      let (b, g) := drainRow f.mode e ag fun n => t.elem tid (tr + i) n spl
      (acc.1 ++ b, acc.2 ||| g)) ([], 0)
    let els := (List.range rows).flatMap fun i => (rowElems e img).map fun o => (e.at' img (row + i) o.1, o.2)
    let fin (s : State) (ws : List DrainWrite) : State :=
      let st : Flags := ((t.tile? tid).map fun y => y.status).getD 0
      (s.leave x (.drain tid fl ws)).setRun x.w fun r => r.putAll [f.t0, f.t1] (Token.uni32 (st.setWidth 32))
    if e.space == 1 then
      fin s ((els.zip data).map fun p => { space := .spad, va := BitVec.ofNat 64 p.1.1, addr := p.1.1, bytes := p.2 })
    else
      let (s, c) := s.checkRows x 1 els
      s.afterCheck x true 1 c fun as =>
        fin s ((as.zip data).map fun p =>
          { space := if p.1.nc then .uncached else .mem, va := p.1.va, addr := p.1.pa, bytes := p.2 })

/-- ADRN (R211 to R213): read references on its tiles, and write references on the scratchpad tiles its output touches; the
bring-up service refuses an f16 output (R378). -/
def execAdrn (f : DrainF) (s : State) : Host.Outcome State Fault Refusal :=
  let i : Instr := .adrn f
  s.firing i fun x =>
    let tid := f.tid.toNat
    let img := f.mode == .img
    let spl := f.mode != .raw
    if !uniOk i x.o then s.result x [f.t0, f.t1] (Token.uniform false false 0) 0
    else match s.accBad x tid spl with
    | some t => s.illegal x t false
    | none =>
      s.readLegend x f.tdo.toNat fun s ew =>
        let e := parseEntry ew
        let tr := (x.o.left.val32 0).toNat
        let row := (x.o.right.val32 0).toNat
        let rows := (x.o.third.val32 0).toNat
        if !rowsOk e img false tr row rows || (s.fw.bringUp && e.fmt == 1) then s.illegal x f.tdo.toNat true
        else match s.team? x.w.team with
        | none => s
        | some t =>
          let els := if e.space == 1 then
              (List.range rows).flatMap fun i => (rowElems e img).map fun o => (e.at' img (row + i) o.1, o.2)
            else []
          match spadElemBad ((s.launchOf x.w).spad * 1024) els with
          | some (c, a) => s.protection x c 0 (BitVec.ofNat 64 a)
          | none =>
            let outs := (els.flatMap fun p => t.tilesAt p.1 p.2).eraseDups
            match s.unnamed? x outs with
            | some k => s.illegal x k false
            | none =>
              let o := RefOwner.block x.w
              if ((unitTiles tid spl).all fun k => s.canRead o x.w.team k) &&
                  outs.all fun k => s.canWrite o x.w.team k [.empty, .ready] then
                let s := (unitTiles tid spl).foldl (fun s k => s.takeRef o x.w.team k false) s
                (outs.foldl (fun s k => s.takeRef o x.w.team k true) s).drainIssue x f t e tr row rows
              else s.wait x .tiles

/-- The words of the rows an ALOAD read, from their elements' bytes (R214). -/
def loadedRows (img : Bool) (rows : Nat) (bs : List (List W8)) : List (List W32) :=
  let n := if img then 512 else 128
  (List.range rows).map fun i => ((bs.drop (n * i)).take n).map fun b =>
    let w : W32 := BitVec.ofNat 32 (leNat b)
    if b.length == 4 then canon32 w else w

/-- ALOAD's reads at issue: relaxed loads of the warp from memory, or its scratchpad (R214, R362). -/
def State.loadRows (s : State) (x : Issue) (e : LEntry) (els : List (Nat × Nat)) (k : State → List (List W8) → State) : State :=
  if e.space == 1 then
    let gs := (els.flatMap fun p => spadGranules x.w.team p.1 p.2).eraseDups
    let s := s.correct gs
    match s.badOf gs with
    | .spad _ o :: _ => s.dataFault x.w x.run.va 2 o 0
    | _ => k s (els.map fun p => s.spadRead x.w.team p.1 p.2)
  else
    let (s, c) := s.checkRows x 0 els
    s.afterCheck x true 0 c fun as =>
      let (s, bs, bad) := (as.zip els).foldl (fun p a =>
        let (s, b, bad) := p.1.coreRead x.w x.warp.core a.1.nc .warp 0 a.1.pa a.2.2
        (s, p.2.1 ++ [b], p.2.2.or (bad.map fun code => (a.1, code)))) (s, ([] : List (List W8)), (none : Option (LaneAcc × Nat)))
      match bad with
      | some (a, code) => s.dataFault x.w (a.va &&& 0x3FFFFFFFFFFFFF) code a.pa 0
      | none => k s bs

/-- ALOAD (R214): write references on its tiles, read references on the scratchpad tiles its source touches. -/
def execAload (pr : Pr) (img : Bool) (tid tds : BitVec 6) (s : State) : Host.Outcome State Fault Refusal :=
  let i : Instr := .aload pr img tid tds
  s.firing i fun x =>
    if !uniOk i x.o then s.finish x
    else match s.accBad x tid.toNat img with
    | some t => s.illegal x t false
    | none =>
      s.readLegend x tds.toNat fun s ew =>
        let e := parseEntry ew
        let tr := (x.o.left.val32 0).toNat
        let row := (x.o.right.val32 0).toNat
        let rows := (x.o.third.val32 0).toNat
        if !rowsOk e img true tr row rows then s.illegal x tds.toNat true
        else match s.team? x.w.team with
        | none => s
        | some t =>
          let els := (List.range rows).flatMap fun i => (rowElems e img).map fun o => (e.at' img (row + i) o.1, o.2)
          match if e.space == 1 then spadElemBad ((s.launchOf x.w).spad * 1024) els else none with
          | some (c, a) => s.protection x c 0 (BitVec.ofNat 64 a)
          | none =>
            let srcs := if e.space == 1 then (els.flatMap fun p => t.tilesAt p.1 p.2).eraseDups else []
            match s.unnamed? x srcs with
            | some k => s.illegal x k false
            | none =>
              let o := RefOwner.block x.w
              let ts := unitTiles tid.toNat img
              if (srcs.all fun k => s.canRead o x.w.team k) && ts.all fun k => s.canWrite o x.w.team k [.empty, .ready] then
                let s := srcs.foldl (fun s k => s.takeRef o x.w.team k false) s
                let s := ts.foldl (fun s k => s.takeRef o x.w.team k true) s
                s.loadRows x e els fun s bs => s.leave x (.aload tid.toNat tr img (loadedRows img rows bs))
              else s.wait x .tiles

end Sys2Proof.Machine
end

