-- ==== Sys2Proof/Machine/Regs.lean ====
section
/-! DEFINITION. REGREL, REGCLM and REGQRY (R174 to R180). -/
namespace Sys2Proof.Machine

/-- REGREL: at commit the registers are unbound and rows move to the credit (R178). -/
def execRegrel (pr : Pr) (first cntm : BitVec 8) (s : State) : Host.Outcome State Fault Refusal :=
  s.firing (.regrel pr first cntm) fun x =>
    if uniOk (.regrel pr first cntm) x.o then s.leave x (.regrel first.toNat (cntm.toNat + 1)) else s.finish x

/-- A claim that is met delivers its size, and raises the limit at commit (R179). -/
def State.claimMet (s : State) (x : Issue) (ts : List Tgt) (size : Nat) : State :=
  (s.leave x (.claimed size)).setRun x.w fun r => r.putAll ts (Token.uni32 (BitVec.ofNat 32 size))

/-- REGCLM: the claim joins the team's queue and the instruction waits until the credit meets it (R175, R179). -/
def execRegclm (pr : Pr) (t0 t1 : Tgt) (s : State) : Host.Outcome State Fault Refusal :=
  s.firing (.regclm pr t0 t1) fun x =>
    if !uniOk (.regclm pr t0 t1) x.o then s.result x [t0, t1] (Token.uniform false false 0) 0
    else
      let size := min (x.o.left.val32 0).toNat (256 - x.warp.limit)
      let mine (c : Claim) : Bool := c.warp == x.w.warp && c.idx == x.k
      match (s.team? x.w.team).bind fun t => t.claims.find? mine with
      | some c => if c.met then s.claimMet x [t0, t1] c.size else s
      | none =>
        if size == 0 then s.claimMet x [t0, t1] 0
        else
          let s := s.setTeam x.w.team fun t =>
            let c : Claim := { warp := x.w.warp, idx := x.k, size := size, met := false }
            Team.serve { t with claims := t.claims ++ [c] }
          match (s.team? x.w.team).bind fun t => t.claims.find? mine with
          | some c => if c.met then s.claimMet x [t0, t1] c.size else s.waitTested x (.claim size)
          | none => s

/-- What REGQRY reads (R180): the limit, the bound registers and the credit as the warp's earlier commits left them (log 87). -/
def State.regQuery (s : State) (x : Warp) (q : RegQ) : Nat :=
  let t := s.team? x.id.team
  match q with
  | .limit => x.limit
  | .bound => x.v.length
  | .spilled => x.v.length - x.resident
  | .credit => x.credit
  | .pend => (t.map fun t => (t.claims.filter fun c => !c.met).foldl (fun n c => n + c.size) 0).getD 0
  | .free => s.freeRows x.core

/-- REGQRY (R180). -/
def execRegqry (pr : Pr) (q : RegQ) (t0 t1 : Tgt) (s : State) : Host.Outcome State Fault Refusal :=
  s.firing (.regqry pr q t0 t1) fun x =>
    s.result x [t0, t1] (resultTok (.regqry pr q t0 t1) x.o false fun _ => BitVec.ofNat 64 (s.regQuery x.warp q)) 0

end Sys2Proof.Machine
end

