-- ==== Sys2Proof/Machine/Commit.lean ====
section
/-! DEFINITION. The commit of a block (R69 to R77): its conditions, its steps in order, the retirement of a warp (R25, R336),
blocks that commit together (R205, R236), and the stop request (R76). -/
namespace Sys2Proof.Machine

/-! ### Conditions (R75) -/

/-- Every write slot holds its token, every store slot has fired, and every instruction has finished, a BARSYN aside. -/
def Run.complete (r : Run) : Bool :=
  (r.wslots.all fun w => w.tok.isSome) && (r.sslots.all fun s => s != .unfired) && r.nodes.all fun n => match n.st with
    | .done | .waiting (.barsyn _) => true
    | _ => false

/-- The same with no BARSYN waiting. -/
def Run.finished (r : Run) : Bool := r.complete && r.barsyn?.isNone

/-- The Legend that blocks about to commit read for their FILLBs: an error in it is found (R364). -/
def State.findFills (s : State) (ws : List WarpId) : State :=
  ws.foldl (fun s w => match s.warp? w with
    | some x => if (x.run.map fun r => r.complete && r.sendsFill).getD false then
        s.findRegion (.legend x.core w.team.launch.ctx) else s
    | none => s) s

/-- A warp's block meets the conditions given by a test of its run; one that is counted has met them, and commits as its phase completes
even while its FILLB's Legend is reloaded (R236, R364; DESIGN CHOICE, log 118). -/
def State.runMeets (s : State) (p : Run → Bool) (w : WarpId) : Bool :=
  match s.warp? w with
  | some x => x.phase == .running && (x.run.map fun r => p r && (r.counted || !s.fillHeld x r)).getD false
  | none => false

/-! ### Step 1: registers, tiles and flags -/

/-- A matrix operation's change, made once for its members (R205, R209). -/
def State.commitMmaId (s : State) (id : Nat) : State :=
  match s.mmas.find? fun m => m.id == id with
  | none => s
  | some m => { ((s.commitMma m).dropRefs (.gang id) true) with mmas := s.mmas.filter fun x => x.id != id }

/-- One effect of step 1. -/
def State.commitEff (s : State) (x : Warp) (va : W64) (k : Nat) : Eff → State
  | .modset m b l => s.setWarp x.id fun y => { y with m := y.m.set m (b, l) }
  | .regrel first n =>
    let given := min n ((((s.warp? x.id).map (·.limit)).getD 1) - 1)
    let s := (s.unbind x.id first n).setWarp x.id fun y => { y with limit := y.limit - given }
    s.setTeam x.id.team fun t => Team.serve { t with credit := t.credit + given }
  | .claimed size =>
    (s.setWarp x.id fun y => { y with limit := y.limit + size }).setTeam x.id.team fun t =>
      { t with claims := t.claims.filter fun c => !(c.warp == x.id.warp && c.idx == k) }
  | .gang m => s.setWarp x.id fun y => { y with gang := m }
  | .agset a th ka nb => s.setTeam x.id.team fun t => { t with ag := t.ag.set a { theta := th, kappa := ka, nb := nb } }
  | .azero tid spl => s.commitAzero x.id.team tid spl
  | .aload tid row img rows => s.commitAload x.id.team tid row img rows
  | .mma id => s.commitMmaId id
  | .tarm tid n => s.setTeam x.id.team fun t => t.setTile tid fun y => y.arm n
  | .tclr tid => s.clearTile x.id.team tid
  | .ttake f save => s.commitTake x va f save
  | .tgive tid => s.releaseUnit x.id.team tid x.id.warp 4
  | .drain tid fl _ => s.setTeam x.id.team fun t => t.orStatus tid fl
  | _ => s

/-- The write slots (R69): lane registers on the token's valid lanes, uniform registers where it is valid; a slot that an
atomic feeds is written by its reply (R71). -/
def State.commitSlot (s : State) (w : WarpId) (am : Lanes) (sl : WSlot) : State :=
  match sl.tok with
  | some t =>
    if sl.deferred then s
    else if sl.k then
      if t.mask.getLsbD 0 then s.setWarp w fun y => { y with k := y.k.set sl.reg (t.val32 0) } else s
    else s.writeV w sl.reg (lanesOf (t.ok am)) t.val32
  | none => s

/-- The uniform registers a block's commit writes (R84). -/
def Run.wrote (r : Run) : List Nat :=
  r.wslots.filterMap fun sl => if sl.k && (sl.tok.map fun t => t.mask.getLsbD 0).getD false then some sl.reg else none

/-- Step 1: every change to registers, tiles and %fstat, then the references released, and the takes that this lets be met. -/
def State.commitRegs (s : State) (x : Warp) (r : Run) (effs : List (Nat × Eff)) : State :=
  let s := effs.foldl (fun s e => s.commitEff x r.va e.1 e.2) s
  let s := r.wslots.foldl (fun s sl => s.commitSlot x.id r.am sl) s
  let s := s.setWarp x.id fun y => { y with fstat := r.flags.into y.fstat }
  let s := s.setWarp x.id fun y => { y with credit := ((s.team? x.id.team).map (·.credit)).getD 0 }
  ((s.dropRefs (.block x.id) true).trimRows x.id 256).serveTakes x.core 0

/-! ### Step 2: store slots, drains and what follows them -/

/-- A release precedes the access that carries it (R253, R273). -/
def State.releaseFor (s : State) (core : Nat) (sc : Scope) (o : Ord) : State :=
  if o == .release || o == .acqRel then s.release core sc else s

/-- Bytes stored by a block to memory or to its team's scratchpad. -/
def State.put (s : State) (x : Warp) (sc : Scope) (hint : BitVec 2) (sp : Space) (addr : Nat) (bs : List W8) : State :=
  match sp with
  | .spad => s.spadWrite x.id.team addr bs
  | .mem => s.coreStore x.id x.core false sc hint addr bs
  | .uncached => s.coreStore x.id x.core true sc hint addr bs

/-- The registers an atomic's reply writes. -/
def Run.replyRegs (r : Run) (f : AtomF) : List (Bool × Nat) :=
  [f.t0, f.t1].filterMap fun t => match t with
    | .wr n => (r.wslots[n.toNat]?).map fun w => (w.k, w.reg)
    | _ => none

/-- A slot's atomics perform in ascending lane (R70, R256); their old values travel in one reply (R71, R290). -/
def State.commitAtoms (s : State) (x : Warp) (r : Run) (f : AtomF) (as : List LaneAtom) : State :=
  if as.isEmpty then s
  else
    let (s, id) := s.newId
    let (s, vals, fl) := as.foldl (fun p a =>
      let (s, old, g) := p.1.atomLane x.id x.core id f a
      (s, p.2.1.set a.lane old, p.2.2 ||| g)) (s, List.replicate 32 (0 : W64), (0 : Flags))
    let p : Reply :=
      { id := id, warp := x.id, regs := r.replyRegs f, mask := lanesOf fun l => as.any fun a => a.lane == l
        vals := vals, flags := fl }
    { s with replies := s.replies ++ [p] }

/-- One store slot enters the memory system (R70). -/
def State.commitStore (s : State) (x : Warp) (r : Run) : SlotSt → State
  | .stores sc o ws => ws.foldl (fun s w => s.put x sc w.hint w.space w.addr w.bytes) (s.releaseFor x.core sc o)
  | .atoms f as => (s.releaseFor x.core f.sc f.ord).commitAtoms x r f as
  | _ => s

/-- A drain's writes, and its flags once they have entered the memory system (R213, R145). -/
def State.commitDrain (s : State) (x : Warp) : Eff → State
  | .drain _ fl ws =>
    (ws.foldl (fun s w => s.put x .warp 0 w.space w.addr w.bytes) s).setWarp x.id fun y => { y with fstat := fl.into y.fstat }
  | _ => s

/-- What acts after the store slots and drains: fences (R276, R281), CCTL (R295), TDSET (R191), and a routine's end (R329). -/
def State.commitAfter (s : State) (x : Warp) : Eff → State
  | .fence sc o => s.releaseFor x.core sc o
  | .fencex f _ => if f.getLsbD 0 then (s.release x.core .device).homeOwned else s
  | .cctl op vas => vas.foldl (fun s va => s.cacheCtl x.core x.id.team.launch.ctx op va) s
  | .tdset idx m ws => s.commitTdset x.id x.core idx m ws
  | .surrender tid kind => s.commitSurrender x.id tid kind
  | _ => s

/-- Step 2. -/
def State.commitStores (s : State) (x : Warp) (r : Run) (effs : List (Nat × Eff)) : State :=
  let s := r.sslots.foldl (fun s sl => s.commitStore x r sl) s
  let s := effs.foldl (fun s e => s.commitDrain x e.2) s
  effs.foldl (fun s e => s.commitAfter x e.2) s

/-! ### Steps 3 and 4: sends and receives -/

/-- A neighbour entry leaves for its promised place; with `.rel` it is a release at die scope, or device where the step
leaves the die (R228, R231). An entry for a team that has retired is dropped. -/
def State.commitSend (s : State) (x : Warp) : Eff → State
  | .send pv words m rel =>
    match s.neighbour x.id.team pv with
    | none => s
    | some d =>
      let place := (s.team? d).map (·.core)
      let s := if rel then s.release x.core (if (place.map dieOf) == some (dieOf x.core) then .die else .device) else s
      if place.isNone then s
      else
        let (s, id) := s.newId
        let f : Flight := { id := id, dest := d, prev := !pv, entry := { id := id, words := words, mask := m, by' := none } }
        { s with flights := s.flights ++ [f] }
  | _ => s

/-- An engine message leaves (R72, R297). -/
def State.commitMessage (s : State) (x : Warp) (va : W64) : Eff → State
  | .message op lp p pay => s.leaveMessage x.id x.core va op lp p pay
  | _ => s

/-- A reserved receive entry retires (R229). -/
def State.commitRecv (s : State) (x : Warp) : Eff → State
  | .recv pv id => s.setCore x.core fun c => c.setQueue pv fun q => q.filter fun e => e.id != id
  | _ => s

/-- An arrival; a phase that completes releases its counted BARSYN blocks, which it answers, and every waiter (R233, R235). -/
def State.arriveAt (s : State) (w : WarpId) (b n : Nat) : State × List WarpId :=
  match s.team? w.team with
  | none => (s, [])
  | some t =>
    let old := t.bars.getD b default
    let new := old.arrive w.warp n
    let s := s.setTeam w.team fun t => { t with bars := t.bars.set b new }
    if new.phase == old.phase then (s, [])
    else
      let pend := old.pending ||| ((1 : Lanes) <<< w.warp)
      let held (x : Warp) : Bool := x.id.team == w.team && (x.run.map fun r => r.counted && r.barsyn? == some b).getD false
      let rel := (s.warps.filter held).map (·.id)
      let reset (x : Warp) : Warp := if x.id.team == w.team && pend.getLsbD x.id.warp then { x with since := 0 } else x
      let free (n : Node) : Node := if n.st == .waiting (.barsyn b) then { n with st := .done } else n
      let s := { s with warps := s.warps.map reset }
      (rel.foldl (fun s v => s.setRun v fun r => { r with nodes := r.nodes.map free }) s, rel)

/-- The block's BARARV arrives (R235). -/
def State.commitArrive (p : State × List WarpId) (w : WarpId) : Eff → State × List WarpId
  | .arrive b n =>
    let (s, rel) := p.1.arriveAt w b n
    (s, p.2 ++ rel)
  | _ => p

/-! ### Steps 5 to 7 -/

/-- Copies that have completed and are pending for nothing are forgotten, once their block has committed (R77, R84). -/
def State.dropDone (s : State) : State :=
  { s with copies := s.copies.filter fun c =>
      !(c.phase == .done && c.pend.isNone && !(s.warps.any fun x => x.id == c.warp && (x.run.map fun r => r.order == c.run).getD false)) }

/-- Copies pending for a join are pending no more: it has run, or an ordinary run of its block took them over (R84, R85). -/
def State.settle (s : State) (w : WarpId) (keys : List Nat) : State :=
  let f (c : Copy) : Copy := if c.warp == w && (c.pend.map keys.contains).getD false then { c with pend := none } else c
  ({ s with copies := s.copies.map f }).dropDone

/-- The copies of joins discarded empty are cancelled (R81). -/
def State.cancelJoins (s : State) (w : WarpId) (keys : List Nat) : State :=
  ((s.copies.filter fun c => c.warp == w && (c.pend.map keys.contains).getD false).map (·.id)).foldl (fun s id => s.cancelCopy id) s

/-- A retiring warp's units pass to the lowest live warp of its team, and its shares are given back (R336). -/
def State.passUnits (s : State) (w : WarpId) : State :=
  let live := (s.live w.team).map (·.id.warp)
  match live with
  | [] => s
  | v :: vs =>
    let heir := vs.foldl min v
    let give (u : Taken) : Taken := if u.cls != .shr && u.holder == w.warp then { u with holder := heir } else u
    let shares := ((s.team? w.team).map fun t => (t.taken.filter fun u => u.cls == .shr && u.sharers.getLsbD w.warp).map (·.tid)).getD []
    let s := (s.setTeam w.team fun t => { t with taken := t.taken.map give }).recallHeld { team := w.team, warp := heir }
    shares.foldl (fun s tid => s.releaseUnit w.team tid w.warp 4) s

/-- A warp retires (R25): it breaks the gangs that wait for it, and passes on what it holds. -/
def State.retire (s : State) (w : WarpId) : State :=
  let s := s.setWarp w fun x => { x with phase := .retired, routine := none, am := 0 }
  (s.breakGangs w).passUnits w

/-- A refused recall waits for its warp no more: the interrupted block has committed (R329). -/
def State.clearAgain (s : State) (x : Warp) : State :=
  let mine := s.recallsOf x
  let f (r : Recall) : Recall := if mine.contains r then { r with again := false } else r
  { s with recalls := s.recalls.map f }

/-- The fault of TRAP and BKPT: class, code and lanes; the lower-indexed TRAP gives the code (R94), and where no TRAP
fires the lower-indexed BKPT (DESIGN CHOICE, log 121). -/
def Run.trapped (r : Run) : Option (Nat × Nat × Lanes) :=
  let ss := ((allLanes.filterMap fun l => r.succ? l).filterMap fun p => match p.kind with
    | .trap c => some (p.idx, 3, c.toNat)
    | .bkpt c => some (64 + p.idx, 4, c.toNat)
    | _ => none)
  (ss.foldl (fun (b : Option (Nat × Nat × Nat)) c => match b with
    | none => some c
    | some b => if c.1 < b.1 then some c else some b) none).map fun b =>
      (b.2.1, b.2.2, r.lanesTo fun k => match k with
        | .trap _ | .bkpt _ => true
        | _ => false)

/-- A routine has ended: the interrupted block is next, under its mask, with the stack that the routine found (R328, R331, R392). A warp
that had yielded rests at that boundary still (R348), unless the routine refused, so that the interrupted block must run first
(R329, R335); the step 6 that a warp parked on its rejoin fetch owes is made as the fetch is (R60), and the reissue that the routine's
last commit owes at once (R84). The copies pending for a join entry that the routine pushed and left run on, pending for a join that is
gone (DESIGN CHOICE, log 127). -/
def State.leaveRoutine (s : State) (w : WarpId) (q : Routine) (wrote : List Nat) : State :=
  let again := ((s.warp? w).map fun x => (s.recallsOf x).any fun r => r.again).getD false
  let rests := (s.launchOf w).yielded.contains w && !again
  let s := if rests then s else s.setLaunch w.team.launch fun l => { l with yielded := l.yielded.filter (· != w) }
  let (s, ord) := s.newOrder
  let z := q.rejoin.getD { join := none, wrote := [], before := [] }
  let rej := step6Of z.join z.wrote (z.before ++ wrote)
  let s := s.setWarp w fun y => { y with
    routine := none, entering := false, pc := q.pc, am := q.am, popped := q.popped, rejoin := rej, order := ord
    stack := y.stack.drop (y.stack.length - q.stack.length)
    phase := if y.phase == .faulted then .faulted else match q.parked with
      | some (n, l, a) => .parked n l a
      | none => .ready }
  (s.fitStack w).step6Before w

/-- What runs next is set, and steps 6 and 7 of R75 follow. -/
def State.goOn (s : State) (w : WarpId) (lv : Leaving) (n : Next) (wrote : List Nat) : State :=
  let (s, ord) := s.newOrder
  let s := s.setWarp w fun y => { y with pc := n.pc, am := n.am, popped := n.popped, order := ord, rejoin := step6Of lv.join wrote [] }
  match (s.warp? w).map (·.phase) with
  | some WPhase.ready => s.step6 w
  | _ => s

/-- Steps 5 to 7 (R75). -/
def State.commitLeave (s : State) (x : Warp) (r : Run) (lv : Leaving) : State :=
  let w := x.id
  let s := (s.cancelJoins w lv.gone).settle w (r.took.toList ++ x.copiesOut.toList)
  let more (q : Routine) : Routine := { q with done := q.done + 1 }
  let s := s.setWarp w fun y => { y with
    stack := lv.stack, exited := y.exited ||| lv.leave, since := y.since + 1, entering := false, popped := none
    routine := y.routine.map more }
  let s := s.fitStack w
  let s := if x.routine.isNone then s.clearAgain x else s
  match r.trapped with
  | some (cls, code, lanes) => s.fault w (s.stopOf w cls 0 lanes r.va [BitVec.ofNat 64 code])
  | none =>
    let s := match lv.ends, x.routine, lv.next with
      | true, some q, _ => s.leaveRoutine w q r.wrote
      | _, _, some n => s.goOn w lv n r.wrote
      | _, _, none => s.retire w
    (s.noteYield w lv.yields).atBoundary w

/-- What orders the effects of one block that change one thing: the kind first, then what the effect holds, so that no numbering of the
instructions shows (R32). Which change of one tile or its status is the later, and which of two GANGs, is the model's choice (DESIGN
CHOICE, log 103): an MMA's, then a drain's flags, then AZERO's, then ALOAD's; the rest keep the order of their indices (R72). -/
def State.effKey (s : State) : Eff → List Nat
  | .mma id => match s.mmas.find? fun m => m.id == id with
    | some m =>
      let plane (p : Plane) : List Nat := p.length :: p.flatMap fun c => [c.1, c.2.toNat]
      [0, m.f.tid.toNat, m.rows, m.flags.toNat] ++ plane m.outP ++ plane m.outN ++ plane m.outCp ++ plane m.outCm
    | none => [0]
  | .drain tid fl ws => [1, tid, fl.toNat] ++ ws.flatMap fun w => w.addr :: w.bytes.map (·.toNat)
  | .azero tid spl => [2, tid, spl.toNat]
  | .aload tid row img rows => [3, tid, row, img.toNat] ++ rows.flatten.map (·.toNat)
  | .gang m => [4, m.toNat]
  | .tgive tid => [5, tid]
  | .ttake f _ => [6, f.tid.toNat]
  | .fence .. => [7]
  | .fencex .. => [8]
  | .cctl op vas => [9, op.bits.toNat] ++ vas.map (·.toNat)
  | .tdset idx .. => [10, idx]
  | _ => [11]

/-- A block's effects in the order in which they become final (R32, R72). -/
def State.effOrder (s : State) (effs : List (Nat × Eff)) : List (Nat × Eff) :=
  effs.mergeSort fun a b =>
    let ka := s.effKey a.2
    let kb := s.effKey b.2
    ka < kb || (ka == kb && a.1 ≤ b.1)

/-- One block commits, its conditions met (R75); the answer names the BARSYN blocks its arrival released. -/
def State.commitOne (s : State) (w : WarpId) : State × List WarpId :=
  match s.warp? w with
  | none => (s, [])
  | some x =>
    match x.run with
    | none => (s, [])
    | some r =>
      let (s, k1) := s.newOrder
      let (s, k2) := s.newOrder
      let lv := x.leaving r k1 k2
      let effs := s.effOrder r.effs
      let s := s.setWarp w fun y => { y with run := none, phase := .ready }
      let s := s.commitRegs x r effs
      let s := s.commitStores x r effs
      let s := effs.foldl (fun s e => s.commitSend x e.2) s
      let s := effs.foldl (fun s e => s.commitMessage x r.va e.2) s
      let s := effs.foldl (fun s e => s.commitRecv x e.2) s
      let (s, rel) := effs.foldl (fun p e => State.commitArrive p w e.2) (s, [])
      ((s.commitLeave x r lv).testTeam w.team w.warp, rel)

/-- Blocks commit one after another within one step: each with its gang, and then those that it released (R205, R235, R236). -/
def State.commitAll : Nat → List WarpId → State → State
  | 0, _, s => s
  | _, [], s => s
  | n + 1, w :: ws, s =>
    let g := s.together w
    if g.all fun v => s.runMeets Run.finished v then
      let (s, rel) := g.foldl (fun p v => let (s, l) := p.1.commitOne v; (s, p.2 ++ l)) (s, [])
      s.commitAll n (ws ++ rel)
    else s.commitAll n ws

/-- A waiting BARSYN's arrival counts, its block having met every other condition (R236), and once the phase in which the warp has
arrived already is complete (R235). -/
def State.countBarsyn (p : State × List WarpId) (w : WarpId) : State × List WarpId :=
  match (p.1.warp? w).bind (·.run) with
  | none => p
  | some r =>
    match r.counted, r.barsyn? with
    | false, some b =>
      if ((p.1.team? w.team).map fun t => t.pendingAt b w.warp).getD false then p else
      let n := ((List.range (r.ni + 1)).findSome? fun k => match r.instr k with
        | some (.barsyn _ _ c) => some (c.toNat + 1)
        | _ => none).getD 1
      let (s, rel) := (p.1.setRun w fun r => { r with counted := true }).arriveAt w b n
      (s.testTeam w.team w.warp, p.2 ++ rel)
    | _, _ => p

/-- A block commits if its conditions are met; one whose lanes break the exit rules faults (R74, R75). -/
def State.tryCommit (s : State) (w : WarpId) : State :=
  let g := s.together w
  let s := s.findFills g
  if !(g.all fun v => s.runMeets Run.complete v) then s
  else
    let bad := g.findSome? fun v => (s.warp? v).bind fun x => x.run.bind fun r => (x.exitFault r).map fun f => (v, r.va, f)
    match bad with
    | some (v, va, c, l) => s.fault v (s.stopOf v 0x02 c 0 va [BitVec.ofNat 64 l])
    | none =>
      let (s, rel) := g.foldl State.countBarsyn (s, [])
      s.commitAll 256 (w :: rel)

/-- BLOCK_COMMIT (R75). -/
def execBlockCommit (w : WarpId) (s : State) : Host.Outcome State Fault Refusal :=
  .next (match s.warp? w with
    | some x => if s.coreRuns x.core then s.tryCommit w else s
    | none => s)

/-! ### Stop requests (R76, R77) -/

/-- The blocks that meet their conditions as a stop comes commit, before it discards any: a phase that one of them completes finds every
counted block of it there (R76, R236). -/
def State.commitMet (s : State) (ws : List WarpId) : State := ws.foldl (fun s w => s.tryCommit w) s

/-- A stop discards a block in flight (R76, R77). -/
def State.discardRunning (s : State) (w : WarpId) : State :=
  match (s.warp? w).map (·.phase) with
  | some WPhase.running => s.discard w
  | _ => s

/-- A warp stops at its boundary, a block still in flight discarded (R76). A warp whose commit has step 6 still to be made stops after it
(R75). -/
def State.stopWarp (s : State) (w : WarpId) : State :=
  let s := s.discardRunning w
  if ((s.warp? w).map (·.owes)).getD false then s
  else (s.setWarp w fun x => if x.phase == .ready then { x with phase := .stopped } else x).recallHeld w

/-- STOP_REQUEST: a launch's checkpoint or kill reaches a core: its blocks that meet their conditions commit, and every other one is
discarded (R76, R236). Under a checkpoint a warp in its routine, or running the
block that a refused routine interrupted, goes on (R335); a kill runs no routine. -/
def execStopRequest (core : Nat) (l : LaunchId) (s : State) : Host.Outcome State Fault Refusal :=
  let kill := (s.launch? l).map (·.phase) == some .killing
  let mine (x : Warp) : Bool := x.core == core && x.id.team.launch == l &&
    (kill || (s.stopsHere x && x.phase != .stopped))
  let ws := (s.warps.filter mine).map (·.id)
  .next (if s.coreRuns core then ws.foldl (fun s w => s.stopWarp w) (s.commitMet ws) else s)

end Sys2Proof.Machine
end

