-- ==== Sys2Proof/Machine/Queues.lean ====
section
/-! DEFINITION. Command queues (R337 to R341, R359, R371): finding and changing one, its status block, tokens, the packets of its
window, and its freezing with an owner record. -/
namespace Sys2Proof.Machine

/-- A queue of a context. -/
def State.queue? (s : State) (ctx q : Nat) : Option Queue := (s.ctx? ctx).bind fun c => c.queues.find? fun y => y.num == q

/-- A queue changed. -/
def State.setQueue (s : State) (ctx q : Nat) (f : Queue → Queue) : State :=
  s.setCtx ctx fun c => { c with queues := c.queues.map fun y => if y.num == q then f y else y }

/-- A packet in its window. -/
def State.pkt? (s : State) (p : PktId) : Option Pkt := (s.queue? p.ctx p.queue).bind fun q => q.window.find? fun y => y.pos == p.pos

/-- A packet changed. -/
def State.setPkt (s : State) (p : PktId) (f : Pkt → Pkt) : State :=
  s.setQueue p.ctx p.queue fun q => { q with window := q.window.map fun y => if y.pos == p.pos then f y else y }

/-- A packet leaves its window. -/
def State.leavePkt (s : State) (p : PktId) : State :=
  s.setQueue p.ctx p.queue fun q => { q with window := q.window.filter fun y => y.pos != p.pos }

/-- The queue that the driver's command in progress names: QSET's, QRESET's or QRESUME's (R372). -/
def State.cmdNames (s : State) : Option (Nat × Nat) :=
  let c0 := (s.host.cmd.headD 0).toNat
  if 2 ≤ c0 / 2 ^ 56 && c0 / 2 ^ 56 ≤ 4 then some (c0 / 2 ^ 50 % 64, c0 / 2 ^ 40 % 256) else none

/-- The queue an event belongs to (R341): a fault's is that of the packet which supplied the work; a command of the driver belongs to the
queue it names, if it names one. -/
def State.evtQueue (s : State) : Evt → Option (Nat × Nat)
  | .doorbell c q => some (c, q)
  | .packet p => some (p.ctx, p.queue)
  | .tokens c q => some (c, q)
  | .retired t => (s.launch? t.launch).map fun l => (t.launch.ctx, l.queue)
  | .command => s.cmdNames
  | .fault _ p => p.map fun k => (k.ctx, k.queue)
  | .reread p => some (p.ctx, p.queue)

/-- A firmware core handles an event of a queue, whose ordering lock it holds (R341); a command that names the queue holds the lock and
does what R372 says, and nothing of the queue's packets. -/
def State.handles (s : State) (ctx q : Nat) : Bool :=
  s.fw.held.any fun e => e != some .command && (e.bind s.evtQueue) == some (ctx, q)

/-- The firmware core that handles a queue's event, the first where none has taken one. -/
def State.fwCore (s : State) (ctx q : Nat) : Nat :=
  ((List.range 12).find? fun i => ((s.fw.held.getD i none).bind s.evtQueue) == some (ctx, q)).getD 0

/-- POPS and then READ written to the status block (R371). -/
def State.writeRead (s : State) (q : Queue) : State :=
  (s.sysWrite (q.status + 8) (leBytes 8 q.pops)).sysWrite q.status (leBytes 8 q.rd)

/-- STATE written to the status block (R371). -/
def State.writeState (s : State) (q : Queue) : State := s.sysWrite (q.status + 16) (leBytes 8 (if q.frozen then 1 else 0))

/-- The whole status block written (R371, R372). -/
def State.writeStatus (s : State) (q : Queue) : State :=
  s.sysWrite q.status (leBytes 8 q.rd ++ leBytes 8 q.pops ++ leBytes 8 (if q.frozen then 1 else 0) ++ List.replicate 40 0)

/-- An owner record (R359). -/
def State.ownerRecord (s : State) (ctx q cause tag pos sseq : Nat) : State :=
  match s.ctx? ctx with
  | none => s
  | some c =>
    s.ringAppend ctx c.oring 16 (leBytes 8 (cause * 2 ^ 56 + q * 2 ^ 48 + ctx * 2 ^ 42 + tag % 2 ^ 32) ++
      leBytes 8 (pos % 2 ^ 32 * 2 ^ 32 + sseq % 2 ^ 32))

/-- A queue freezes: STATE is set and its owner record written (R359, R371). -/
def State.freeze (s : State) (ctx q cause tag pos sseq : Nat) : State :=
  let s := s.setQueue ctx q fun y => { y with frozen := true }
  let s := match s.queue? ctx q with
    | some y => s.writeState y
    | none => s
  s.ownerRecord ctx q cause tag pos sseq

/-- TAG of a packet (R337). -/
def Pkt.tag (k : Pkt) : Nat := (k.q.headD 0).toNat % 2 ^ 32

/-- A queue freezes over a packet of its window, which leaves it without setting its tokens (R359). -/
def State.freezePkt (s : State) (p : PktId) (cause sseq : Nat) : State :=
  match s.pkt? p with
  | none => s
  | some k => (s.leavePkt p).freeze p.ctx p.queue cause k.tag p.pos sseq

/-- TYPE of a packet. -/
def Pkt.type (k : Pkt) : Nat := (k.q.headD 0).toNat / 2 ^ 60
/-- CLR. -/
def Pkt.clr (k : Pkt) : Bool := (k.q.headD 0).getLsbD 59
/-- NPR. -/
def Pkt.npr (k : Pkt) : Bool := (k.q.headD 0).getLsbD 58
/-- WAIT. -/
def Pkt.wait (k : Pkt) : W64 := k.q.getD 1 0
/-- SET. -/
def Pkt.set' (k : Pkt) : W64 := k.q.getD 2 0
/-- Word `i` of the body. -/
def Pkt.word (k : Pkt) (i : Nat) : W64 := k.body.getD i 0

/-- A packet's WAIT tokens are all set. -/
def Pkt.met (k : Pkt) (tokens : W64) : Bool := k.wait &&& ~~~tokens == 0

/-- A packet is ready: its WAIT tokens are set and, for a FENCE, every older packet has completed (R339). -/
def Queue.ready (q : Queue) (k : Pkt) : Bool :=
  k.ph == .waiting && k.met q.tokens && (k.type != 6 || !(q.window.any fun y => y.pos < k.pos))

/-- Firmware holds the dispatcher for an ACTIVATE (R377). -/
def State.dispatchHeld (s : State) : Bool := s.host.ring == 1 && (s.host.cmd.headD 0).extractLsb' 56 8 == 0x0C

/-- A packet's turn may come: it is ready, or became ready while the dispatcher was held, which it is no more (R339, R377). -/
def Queue.due (q : Queue) (held : Bool) (k : Pkt) : Bool := q.ready k || (k.ph == .ready && !held)

/-- A packet's turn: it is the oldest of those of a queue that is not frozen (R338, R339, R359). It starts, but for a LAUNCH while the dispatcher
is held, which becomes ready and waits, and keeps no younger packet from its turn (R377). -/
def Queue.turn (q : Queue) (held : Bool) (k : Pkt) : Bool :=
  !q.frozen && q.due held k && !(q.window.any fun y => y.pos < k.pos && q.due held y)

/-- A queue with other tokens: its window is evaluated anew, at a time `at'`, and the packets whose WAIT tokens have just become set are
ready from then on (R338, R339, R342). -/
def Queue.withTokens (q : Queue) (tokens : W64) (at' : Nat) : Queue :=
  let find (k : Pkt) : Pkt := if k.ph == .waiting && k.met tokens && !k.met q.tokens then { k with since := at', eval := at' } else k
  { q with tokens := tokens, eval := at', window := q.window.map find }

/-- A change of a queue's tokens, which is an event (R338, R341). -/
def State.setTokens (s : State) (ctx n : Nat) (f : W64 → W64) : State :=
  let (s, at') := s.newOrder
  (s.setQueue ctx n fun q => q.withTokens (f q.tokens) at').event (.tokens ctx n)

/-- A packet becomes ready, as it starts or before: with CLR its WAIT tokens, all of them set, are cleared, once (R337, R338). -/
def State.turnPkt (s : State) (p : PktId) (k : Pkt) (ph : PktPh) : State :=
  let s := s.setPkt p fun y => { y with ph := ph }
  if k.ph == .waiting && k.clr && k.wait != 0 then s.setTokens p.ctx p.queue fun t => t &&& ~~~k.wait else s

/-- A step of a packet of one type: started by a firmware core that handles an event of its queue, if its turn has come, `f` acting on
it. -/
def State.pktStep (s : State) (p : PktId) (type : Nat) (again : Bool) (f : State → Pkt → State) : Host.Outcome State Fault Refusal :=
  .next (match s.queue? p.ctx p.queue, s.pkt? p with
    | some q, some k =>
      if k.type != type || s.faulty p.ctx then s
      else if q.turn s.dispatchHeld k && s.handles p.ctx p.queue then f (s.turnPkt p k .started) { k with ph := .started }
      else if again && k.ph == .started then f s k else s
    | _, _ => s)

/-- The work of a packet is done; its completion follows (R338). -/
def State.donePkt (s : State) (p : PktId) : State := (s.setPkt p fun y => { y with ph := .done }).event (.packet p)

end Sys2Proof.Machine
end

