-- ==== Sys2Proof/Machine/Placing.lean ====
section
/-! DEFINITION. The dispatcher (R18 to R22, R342, R346, R347, R350): where a launch's teams may go, which launch is served, and a
team placed. -/
namespace Sys2Proof.Machine

/-! ### Cores -/

/-- The dies of a partition, ascending. -/
def State.partDies (s : State) (p : Nat) : List Nat := ((s.parts[p]?).map fun x => x.dies.mergeSort fun a b => a ≤ b).getD []

/-- The chain path of some dies (R21). -/
def chainPath (ds : List Nat) : List Nat :=
  ds.flatMap fun d => (List.range 8).flatMap fun r => (List.range 8).map fun c => 64 * d + 8 * r + (if r % 2 == 0 then c else 7 - c)

/-- The cores of the context's partition that a launch's mode allows (R16, R20). -/
def State.allowed (s : State) (l : Launch) : List Nat :=
  let ds := s.partDies (s.partOf l.id.ctx)
  if l.plc == 1 then if ds.contains l.die then (List.range 64).map fun c => 64 * l.die + c else []
  else if l.chain then chainPath ds
  else ds.flatMap fun d => (List.range 64).map fun c => 64 * d + c

/-! ### What a team needs (R18, R20) -/

/-- The declared tiles. -/
def Launch.declared (l : Launch) : List Nat := (List.range 32).filter l.tileDecl

/-- The size of a launch's largest tile, to which its regions are aligned (R18). -/
def Launch.align (l : Launch) : Nat := (l.declared.map fun j => (l.tileAt j).2 * 1024).foldl max 1024

/-- How many teams an empty core admits (R18, R20). -/
def Launch.emptyFit (l : Launch) : Nat :=
  let size := l.spad * 1024
  let stride := (size + l.align - 1) / l.align * l.align
  let upTo (n cap : Nat) : Nat := if n == 0 then 64 else cap / n
  let region := if size == 0 then 64 else if 786432 < size then 0 else 1 + (786432 - size) / stride
  [upTo l.warps 48, upTo l.accs 8, upTo l.pairs 4, upTo l.l1r 24, region].foldl min 64

/-- A place for a team's scratchpad region in a core: the lowest that is free and aligned to the largest tile (R18; which of the free
ones it takes is the model's choice, log 43). -/
def State.spadPlace (s : State) (core size align : Nat) : Option Nat :=
  if size == 0 then some 0
  else
    let held := (s.teams.filter fun t => t.core == core).map fun t =>
      (t.spadAt, t.spadAt + (((s.launch? t.id.launch).map fun l => l.spad).getD 0) * 1024)
    ((List.range (786432 / align)).map fun k => k * align).find? fun a =>
      a + size ≤ 786432 && held.all fun h => a + size ≤ h.1 || h.2 ≤ a

/-- The accumulator names of a saved team that are bound together: a split unit that a take bound, and each other by itself (R318,
R335). -/
def SavedTeam.groups (t : SavedTeam) (l : Launch) : List (List Nat) :=
  let pairs := (t.team.taken.filter fun u => u.spl && l.bound (u.tid + 1)).map fun u => [u.tid, u.tid + 1]
  pairs ++ (t.team.tiles.filter fun x => 32 ≤ x.tid && !pairs.any fun p => p.contains x.tid).map fun x => [x.tid]

/-- Names bound to core tiles, group after group. -/
def bindGroups (free : List Nat) : List (List Nat) → Option (List (Nat × Nat))
  | [] => some []
  | g :: gs => (bindTiles free g).bind fun b =>
    (bindGroups (free.filter fun k => !b.any fun p => p.2 == k) gs).map fun r => b ++ r

/-- The core tiles of a team's declared accumulators: the lowest free ones, but that the last of an odd number goes, where it can, to an
even tile with a free neighbour, so that a split take may pair it (R20, R318; log 84). -/
def bindDeclared (free : List Nat) (n : Nat) : Option (List (Nat × Nat)) :=
  let names := (List.range n).map fun i => [32 + i]
  let last := 31 + n
  let pairs (b : List (Nat × Nat)) : Bool := n % 2 == 0 || ((b.lookup last).map fun k =>
    k % 2 == 0 && free.contains (k + 1) && !b.any fun p => p.2 == k + 1).getD false
  let other : Option (List (Nat × Nat)) := (free.find? fun k => k % 2 == 0 && free.contains (k + 1)).bind fun k =>
    (bindGroups (free.filter fun j => j / 2 != k / 2) names.dropLast).map fun b => b ++ [(last, k)]
  match bindGroups free names with
  | some b => if pairs b then some b else some (other.getD b)
  | none => none

/-- The core tiles that a team's accumulators are bound to on a core, for a saved team those it holds (R20, R335; log 84). -/
def State.arrayPlace (s : State) (l : Launch) (core : Nat) : Option SavedTeam → Option (List (Nat × Nat))
  | .none => bindDeclared (s.freeTiles core) l.accs
  | some t => bindGroups (s.freeTiles core) (t.groups l)

/-- The count-plane pairs a team asks for. -/
def Launch.pairsFor (l : Launch) : Option SavedTeam → Nat
  | .none => l.pairs
  | some t => t.team.counts.length / 2

/-- A core admits a team of a launch, its scratchpad at the place given (R20, R21). -/
def State.admits (s : State) (l : Launch) (saved : Option SavedTeam) (core : Nat) : Option Nat :=
  let on := s.teams.filter fun t => t.core == core
  let sum (f : Launch → Nat) : Nat := (on.map fun t => ((s.launch? t.id.launch).map f).getD 0).foldl (· + ·) 0
  let chained := l.chain && on.any fun t => ((s.launch? t.id.launch).map fun k => k.chain).getD false
  if s.coreRuns core && core < 256 && sum Launch.warps + l.warps ≤ 48 && (s.arrayPlace l core saved).isSome &&
      s.pairsUsed core + l.pairsFor saved ≤ 4 && sum Launch.l1r + l.l1r ≤ 24 && !chained then
    s.spadPlace core (l.spad * 1024) l.align
  else .none

/-! ### A team placed (R19) -/

/-- The tiles of a launch's teams, the accumulators bound to core tiles (R17, R20, R182). -/
def Launch.tiles (l : Launch) (bind : List (Nat × Nat)) : List Tile :=
  (l.declared.map fun j =>
    { tid := j, st := .empty, cnt := 0, off := (l.tileAt j).1 * 1024, size := (l.tileAt j).2 * 1024, lost := false, status := 0 }) ++
  (List.range l.accs).map fun i =>
    { tid := 32 + i, st := .empty, cnt := 0, off := (bind.lookup (32 + i)).getD 0, size := 0, lost := false, status := 0 }

/-- A team as it is placed (R19, R233). -/
def Launch.newTeam (l : Launch) (i core at' now : Nat) (bind : List (Nat × Nat)) : Team :=
  { id := { launch := l.id, team := i }, core := core, spadAt := at', spad := [], tiles := l.tiles bind, taken := []
    acc := (List.range l.accs).map fun k => (32 + k, []), counts := (List.range (2 * l.pairs)).map fun k => (k, [])
    bars := List.replicate l.warps { phase := false, arrived := 0, count := .none, pending := 0 }
    ag := List.replicate 4 { theta := 0, kappa := 0, nb := false }, credit := 0, claims := [], placedAt := now, ran := 0, gone := [], owed := [] }

/-- The warps of a team as they begin (R19). -/
def Launch.newWarps (l : Launch) (i core order : Nat) : List Warp :=
  let k := (List.range 64).map fun j => if j < l.npar then l.par j else 0
  (List.range l.warps).map fun w =>
    { Warp.begin { team := { launch := l.id, team := i }, warp := w } core l.rows k l.entry with order := order + w }

/-- A core before a team of a context is placed on it: its Overlay, and its copies of the Legend, which the host may have written
since (R190, R197; that it reaches the launch only here, at a TDSET or a reload: DESIGN CHOICE, log 133). -/
def State.readyCore (s : State) (core ctx : Nat) : State :=
  (s.ovlEnter core ctx).setCore core fun c => { c with legend := c.legend.filter fun e => e.ctx != ctx }

/-- Team `i` of a launch on a core (R19), its reserve taken out of the core's L1 (R245); with the last team the launch waits for no
pre-emption any more (R346). -/
def State.putTeam (s : State) (l : Launch) (i core at' : Nat) : State :=
  let s := s.readyCore core l.id.ctx
  let s := { s with
    teams := s.teams ++ [l.newTeam i core at' s.now ((s.arrayPlace l core none).getD [])]
    warps := s.warps ++ l.newWarps i core s.order, order := s.order + l.warps }
  let s := s.setLaunch l.id fun l => { l with
    placed := l.placed + 1, used := if l.used.contains core then l.used else l.used ++ [core]
    phase := if l.phase == .saved then .running else l.phase
    waits := if l.placed + 1 < l.teams then l.waits else [] }
  (s.trimL1 core).serveTakes core 0

/-- A saved team on a core: its state, its queues, its bound tiles and its warps as the record names them (R335, R350, R352); its time
goes on from ELAP (R351), and its reserve is taken out of the core's L1 (R245). A warp that was parked on the fetch of its rejoin block owes
step 6 of its commit still, which no field of R352 holds: it makes the fetch again before it runs a block (R60, R75, R84; DESIGN CHOICE, log
115). The credit that REGQRY FN 3 shows in its first block is the team's saved one (DESIGN CHOICE, log 132). -/
def State.putSaved (s : State) (l : Launch) (t : SavedTeam) (core at' : Nat) : State :=
  let s := s.readyCore core l.id.ctx
  let row (r : VReg) : VReg := { r with row := let f := spillFormat r.lanes; .saved f.1 f.2 }
  let wake (x : Warp) : Warp := { x with
    core := core, v := x.v.map row, phase := .ready, run := none, age := 0, urgent := false, ovf := []
    credit := t.team.credit }
  let bind := (s.arrayPlace l core (some t)).getD []
  let tile (x : Tile) : Tile := if 32 ≤ x.tid then { x with off := (bind.lookup x.tid).getD 0 } else x
  let live := t.warps.mapIdx fun i x => if x.phase == .retired then { x with core := core } else { wake x with order := s.order + i }
  let apart (g : Gone) : Gone := { g with core := .none }
  let mine (c : Copy) : Copy := if c.warp.team == t.team.id then { c with core := core } else c
  let s := { s with
    teams := s.teams ++ [{ t.team with
      core := core, spadAt := at', tiles := t.team.tiles.map tile, gone := t.team.gone.map apart, placedAt := s.now, ran := l.elapsed }]
    warps := s.warps ++ live
    copies := s.copies.map mine, order := s.order + t.warps.length }
  let s := (t.warps.map (·.id)).foldl (fun s w => s.fitStack w) s
  let s := if l.chain then s.setCore core fun c => { c with prev := t.prev, next := t.next } else s
  (s.setLaunch l.id fun l => { l with
    saved := l.saved.filter fun y => y.team.id != t.team.id, used := if l.used.contains core then l.used else l.used ++ [core]
    phase := .running }).trimL1 core |>.serveTakes core 0

/-- The next teams of a launch, each with the cores it may go to: one team, or for a chain or co-resident launch all of them
(R21, R22, R350). A resumed chain without STV whose first teams have retired has no core for team 0: the named core is the one team 0
would take, and saved team i goes i cores on along the path (DESIGN CHOICE, log 125). -/
def State.nextTeams (s : State) (l : Launch) (core : Nat) : List (Nat × Option SavedTeam × List Nat) :=
  let saved := l.saved.mergeSort fun a b => a.team.id.team ≤ b.team.id.team
  let all : List (Nat × Option SavedTeam) :=
    (saved.map fun t => (t.team.id.team, some t)) ++ (List.range (l.teams - l.placed)).map fun i => (l.placed + i, none)
  let cores := s.allowed l
  if l.chain then
    let path := cores.dropWhile fun c => c != (l.start?.getD core)
    all.map fun p => (p.1, p.2, (path[p.1]?).toList)
  else if l.cor then
    let turned := (cores.dropWhile fun c => c != core) ++ cores.takeWhile fun c => c != core
    all.map fun p => (p.1, p.2, if cores.contains core then turned else [])
  else (all.take 1).map fun p => (p.1, p.2, cores.filter fun c => c == core)

/-- What a team asks of the array beyond what all teams of its launch ask of a core: how its accumulators are bound, and its count-plane
pairs (R20, R335). -/
def Launch.asks (l : Launch) (t : Option SavedTeam) : List Nat × Nat :=
  ((match t with
    | .none => List.replicate l.accs 1
    | some y => (y.groups l).map List.length), l.pairsFor t)

/-- A team of a launch, by its index or as it was saved, on a core that admits it with its scratchpad at a place. -/
def State.placeTeam (s : State) (l : Launch) (i : Nat) (t : Option SavedTeam) (core at' : Nat) : State :=
  match t with
  | some y => s.putSaved l y core at'
  | .none => s.putTeam l i core at'

/-- Teams placed together, each on one of its cores that admits it; none is placed where no choice of cores takes all (R22). Where the
teams left ask for the same, the first core that admits one serves as well as any other; where they do not, each core is tried. -/
def State.placeTeams (s : State) (l : Launch) : List (Nat × Option SavedTeam × List Nat) → Option State
  | [] => some s
  | t :: ts =>
    if ts.all fun u => l.asks u.2.1 == l.asks t.2.1 then
      (t.2.2.findSome? fun c => (s.admits l t.2.1 c).map fun a => (c, a)).bind fun p =>
        (s.placeTeam l t.1 t.2.1 p.1 p.2).placeTeams l ts
    else t.2.2.findSome? fun c => (s.admits l t.2.1 c).bind fun a => (s.placeTeam l t.1 t.2.1 c a).placeTeams l ts

/-! ### Which launch is served (R342, R346, R347, R350) -/

/-- A launch has teams on cores. -/
def State.resident (s : State) (l : LaunchId) : Bool := s.teams.any fun t => t.id.launch == l

/-- A launch has teams to place. -/
def Launch.unplaced (l : Launch) : Bool := l.placed < l.teams || !l.saved.isEmpty

/-- A pre-emption has finished: the launch is saved or gone, or the drained one has no team left on a core (R346). -/
def State.preempted (s : State) (l : LaunchId) : Bool :=
  match s.launch? l with
  | none => true
  | some x => match x.phase with
    | .saved | .running => true
    | .draining => !s.resident l
    | _ => false

/-- A drained launch whose newcomer has teams that have not been placed yet (R347). -/
def State.drained (s : State) (l : Launch) : Bool :=
  l.phase == .draining && s.launches.any fun n => n.waits.contains l.id && n.placed < n.teams

/-- Two launches lie in one partition. -/
def State.samePart (s : State) (a b : LaunchId) : Bool := s.partOf a.ctx == s.partOf b.ctx

/-- A saved launch may be placed again: none of higher priority in its partition is resident or has teams to place (R350). -/
def State.mayResume (s : State) (l : Launch) : Bool :=
  !(s.launches.any fun n => s.samePart n.id l.id && l.prio < n.prio && (s.resident n.id || n.unplaced))

/-- A launch may have a team placed now, its pre-emptions finished and itself not held back. -/
def State.mayPlace (s : State) (l : Launch) : Bool :=
  l.unplaced && l.waits.all s.preempted && !s.dispatchHeld && !(((s.parts[s.partOf l.id.ctx]?).map fun p => p.up).getD true) &&
  match l.phase with
  | .running => true
  | .draining => !s.drained l
  | .saved => s.mayResume l
  | _ => false

/-- Some core can take the launch's next teams. -/
def State.canPlace (s : State) (l : Launch) : Bool :=
  (s.allowed l).any fun c => (s.placeTeams l (s.nextTeams l c)).isSome

/-- A launch's packet became ready before another's: earlier, and not in one evaluation of one queue, where both are ready at once and
either may come first (R240, R342). -/
def Launch.before (a b : Launch) : Bool :=
  a.since < b.since && !(a.id.ctx == b.id.ctx && a.queue == b.queue && a.eval == b.eval)

/-- A launch is served: none that comes before it in R342's order can be placed. -/
def State.served (s : State) (l : Launch) : Bool :=
  s.mayPlace l &&
  let first := s.launches.filter fun n => s.samePart n.id l.id && (l.prio < n.prio || (n.prio == l.prio && n.before l))
  first.all fun n => !(s.mayPlace n && s.canPlace n)

/-- TEAM_PLACE: the next team of a launch on a core, or all of a chain or co-resident launch from there, once no saved team comes first
(R20, R22, R342, R350). -/
def execTeamPlace (id : LaunchId) (core : Nat) (s : State) : Host.Outcome State Fault Refusal :=
  .next (match s.launch? id with
    | none => s
    | some l => if s.served l && l.saved.isEmpty then (s.placeTeams l (s.nextTeams l core)).getD s else s)

end Sys2Proof.Machine
end

