-- ==== Sys2Proof/Machine/Retire.lean ====
section
/-! DEFINITION. The ends of teams and launches (R8, R26, R27, R347), the recall queue (R324), and surrender routines as they start
and as the hardware ends them (R325, R331 to R335, R392). -/
namespace Sys2Proof.Machine

/-! ### A team gone -/

/-- An owner of references belongs to a team. -/
def State.ownerOf (s : State) (t : TeamId) : RefOwner → Bool
  | .block w => w.team == t
  | .gang id => s.mmas.any fun m => m.id == id && m.team == t
  | .msg _ => false

/-- A team's place on its core is free (R26): its warps, copies, references, takes, recalls, replies and entries are gone, the
shares of COPYMs that wait for its tiles have failed, and the takes that this lets be met deliver `code`. -/
def State.removeTeam (s : State) (t : TeamId) (code : Nat) : State :=
  match s.team? t with
  | none => s
  | some x =>
    let ids := (s.copies.filter fun c => c.warp.team == t).map (·.id)
    let chain := ((s.launch? t.launch).map fun l => l.chain).getD false
    let share (m : Msg) (h : Share) : Share :=
      if m.op == .copym && m.warp.team.launch == t.launch && h.team == t.team && h.st < 2 then { h with st := 2 } else h
    let cut (m : Msg) : Msg := { m with shares := m.shares.map (share m) }
    let s := { s with
      teams := s.teams.filter fun y => y.id != t
      warps := s.warps.filter fun y => y.id.team != t
      copies := s.copies.filter fun c => c.warp.team != t
      refs := s.refs.filter fun r => !s.ownerOf t r.owner && (match r.obj with
        | .tile u _ => u != t
        | .region .. => true)
      mmas := s.mmas.filter fun m => m.team != t
      takes := s.takes.filter fun k => k.warp.team != t
      recalls := s.recalls.filter fun r => r.team != t
      flights := s.flights.filter fun f => f.dest != t
      replies := s.replies.filter fun p => p.warp.team != t
      msgs := s.msgs.map cut
      faultQ := s.faultQ.filter fun p => match p.of' with
        | .copy id => !ids.contains id
        | .save w => w.team != t
        | _ => true
      errs := s.errs.filter fun e => match e.1 with
        | .pool w _ _ => w.team != t
        | .spad u _ => u != t
        | .acc u _ _ | .counts u _ _ => u != t
        | _ => true }
    let s := if chain then s.setCore x.core fun c => { c with prev := [], next := [] } else s
    s.serveTakes x.core code

/-- TEAM_RETIRE (R26): every warp has retired and every message of the team's has completed. -/
def execTeamRetire (t : TeamId) (s : State) : Host.Outcome State Fault Refusal :=
  .next (match s.team? t with
    | none => s
    | some x =>
      if !(s.live t).isEmpty || (s.msgs.any fun m => m.warp.team == t) || !s.coreRuns x.core || !s.eventRoom then s
      else ((s.removeTeam t 4).setLaunch t.launch fun l => { l with retired := l.retired + 1 }).event (.retired t))

/-! ### A launch complete -/

/-- Every byte the cores of some dies have written is visible at system scope (R27, R253). -/
def State.flushDies (s : State) (ds : List Nat) : State := (s.pushDies ds).homeOwned

/-- A launch forgotten. -/
def State.dropLaunch (s : State) (l : LaunchId) : State := { s with launches := s.launches.filter fun x => x.id != l }

/-- The teams of a launch on cores. -/
def State.teamsOf (s : State) (l : LaunchId) : List TeamId := (s.teams.filter fun t => t.id.launch == l).map (·.id)

/-- A warp is at a boundary, running nothing. -/
def Warp.rested (x : Warp) : Bool :=
  match x.phase with
  | .stopped | .retired => true
  | .parked .. => !x.owes
  | _ => false

/-- A killed launch ends: its warps have stopped and its messages are complete; its teams are discarded and its queue freezes
with cause 0x05 (R347, R359). -/
def State.endKill (s : State) (l : Launch) : State :=
  if (s.msgs.any fun m => m.warp.team.launch == l.id) || (s.warps.any fun x => x.id.team.launch == l.id && !x.rested) then s
  else
    let s := (s.teamsOf l.id).foldl (fun s t => s.removeTeam t 4) s
    (s.dropLaunch l.id).freezePkt l.pkt 5 0

/-- LAUNCH_COMPLETE (R27): all teams have retired, and their writes perform at system scope; the launch's packet is done. A firmware
core does it that handles an event of the launch's queue (R341); the end of a kill follows from another launch's event (R347). -/
def execLaunchComplete (l : LaunchId) (s : State) : Host.Outcome State Fault Refusal :=
  .next (match s.launch? l with
    | none => s
    | some x =>
      if x.phase == .killing then s.endKill x
      else if !s.handles l.ctx x.queue then s
      else if x.retired == x.teams && x.saved.isEmpty then
        ((s.flushDies ((x.used.map dieOf).eraseDups)).dropLaunch l).donePkt x.pkt
      else s)

/-! ### Recalls (R324) -/

/-- RECALL_QUEUED: the oldest recall that finds an entry enters its core's queue: 16 entries, of which takes use at most 12. -/
def execRecallQueued (core : Nat) (s : State) : Host.Outcome State Fault Refusal :=
  let on := s.recalls.filter fun r => r.core == core && r.queued
  let room (r : Recall) : Bool := r.core == core && !r.queued && on.length < 16 && (r.sched || (on.filter fun q => !q.sched).length < 12)
  .next (match s.recalls.find? room with
    | some r => { s with recalls := s.recalls.map fun q => if q == r then { q with queued := true } else q }
    | none => s)

/-! ### Routines (R325, R331, R334, R335, R392) -/

/-- SURRENDER_ROUTINE_START: at the holder's boundary the routine's entry block is next, with the warp's live lanes (R325). -/
def execSurrenderRoutineStart (w : WarpId) (s : State) : Host.Outcome State Fault Refusal :=
  .next (match s.warp? w with
    | none => s
    | some x =>
      let parked := match x.phase with
        | .parked n l a => some (n, l, a)
        | _ => none
      let ok := x.run.isNone && (x.phase == .ready || x.phase == .stopped || parked.isSome) && !x.owes && s.coreRuns x.core &&
        (s.launchOf w).phase != .killing
      match if ok then s.nextRecall x else none with
      | none => s
      | some r =>
        match (s.team? w.team).bind fun t => t.taken.find? fun u => u.tid == r.tid with
        | none => s
        | some u =>
          let (s, ord) := s.newOrder
          let q : Routine :=
            { tid := r.tid, bound := u.bound, done := 0, pc := x.pc, am := x.am, stack := x.stack, popped := x.popped
              rejoin := x.rejoin, parked := parked, lines := [] }
          s.setWarp w fun x => { x with
            routine := some q, pc := u.routine, am := x.liveLanes, entering := true, popped := none, rejoin := none
            phase := .ready, order := ord })

/-- The image of a unit's tiles (R332): a scratchpad tile's bytes, an accumulator's rows, or a pair's in the `.img` layout. -/
def Team.image (t : Team) (tid : Nat) (spl : Bool) : List W8 :=
  if tid < 32 then
    match t.tile? tid with
    | some x => rdBytes t.spad x.off x.size
    | none => []
  else
    (List.range 128).flatMap fun r =>
      let e (n : Nat) : SplitElem := t.elem tid r n spl
      let cols := List.range 128
      if spl then
        (cols.flatMap fun n => leBytes 4 (e n).p.toNat) ++ (cols.flatMap fun n => leBytes 4 (e n).n.toNat) ++
          (cols.flatMap fun n => leBytes 2 (e n).cp.toNat) ++ (cols.flatMap fun n => leBytes 2 (e n).cm.toNat)
      else cols.flatMap fun n => leBytes 4 (e n).p.toNat

/-- A surrender save record (R332). -/
def Team.saveRecord (t : Team) (u : Taken) (w : WarpId) : List W8 :=
  let img := t.image u.tid u.spl
  let x := t.tile? u.tid
  let st := (x.map fun x => x.st.code).getD 0
  let stat := if u.tid < 32 then 0 else (x.map fun x => x.status.toNat).getD 0
  leBytes 8 (u.tid * 2 ^ 58 + (if u.spl then 2 ^ 57 else 0) + st * 2 ^ 55 + img.length) ++
    leBytes 8 (w.team.team * 2 ^ 40 + w.warp * 2 ^ 32 + w.team.launch.num % 2 ^ 32) ++ leBytes 48 stat ++ img

/-- A line of a record at the take's save address: written once, or parked, or failed (R265, R332). -/
def State.saveLine (s : State) (x : Warp) (va : W64) (rec : List W8) (p : Nat × Nat) : State :=
  let done := ((s.warp? x.id).bind fun y => y.routine).map fun q => q.lines.contains p.1
  if done != some false then s
  else
    let a := va + BitVec.ofNat 64 p.1
    match s.lineAt x.id.team.launch.ctx 2 1 (.save x.id) a x.core x.id.warp with
    | (s, .page pa _) =>
      let more (q : Routine) : Routine := { q with lines := q.lines ++ [p.1] }
      (s.sysWrite pa ((rec.drop p.1).take p.2)).setWarp x.id fun y => { y with routine := y.routine.map more }
    | (s, .parked) => s
    | (s, .bad c) => s.fault x.id (s.engineStop x.id 1 (dieOf x.core) 0x0A c a [])
    | (s, .walk pa code) => s.fault x.id (s.walkStop x.id x.core a pa code)

/-- A record appended to the context's surrender ring by a die's copy unit, its slots of 512 KiB after 4 KiB of counts; a full ring
loses it (R332, R373). -/
def State.surrAppend (s : State) (ctx die : Nat) (rec : List W8) : State :=
  match s.ctx? ctx with
  | none => s
  | some c => (s.readCounts ctx 1 die c.surr).ringWrite c.surr 4096 524288 rec

/-- A unit lost: its names carry LOST, declared tiles are empty with no status, and it is released with result 3 (R331, R333). -/
def State.loseUnit (s : State) (w : WarpId) (u : Taken) : State :=
  let ts := unitTiles u.tid u.spl
  let s := ts.foldl (fun s tid => s.clearTile w.team tid) s
  let mark (x : Tile) : Tile := if ts.contains x.tid then { x with lost := true, status := 0 } else x
  let s := s.setTeam w.team fun t => { t with tiles := t.tiles.map mark }
  (s.releaseUnit w.team u.tid w.warp 3).noteEnd w.team u.tid 3

/-- A wait in which a checkpoint ends a routine (R335). -/
def Wait.endsRoutine : Wait → Bool
  | .claim _ | .barsyn _ | .barwt _ | .entry _ | .latch => true
  | _ => false

/-- A routine's block that waits where a checkpoint ends it, or is parked on a page fault (R335). -/
def State.stuckRoutine (s : State) (x : Warp) : Bool :=
  (match (s.launchOf x.id).phase with
    | .yielding _ | .stopping => true
    | _ => false) &&
  match x.phase, x.run with
  | .parked .., _ => true
  | _, some r => r.nodes.any fun n => match n.st with
    | .waiting k => k.endsRoutine
    | _ => false
  | _, none => false

/-- A word of a unit's contents. -/
def Team.unitWord (x : Team) (u : Taken) : Granule → Bool
  | .spad v off => v == x.id && ((x.tile? u.tid).map fun y => u.tid < 32 && y.off ≤ off && off < y.off + y.size).getD false
  | .acc v tid _ => v == x.id && (unitTiles u.tid u.spl).contains tid
  | .counts v p _ => v == x.id && 32 ≤ u.tid && (countPlanes u.tid u.spl).contains p
  | _ => false

/-- A forced end has begun: the routine runs no further block, whatever its record still waits for (R331, R335). -/
def State.stopRoutine (s : State) (x : Warp) : State :=
  let close (q : Routine) : Routine := { q with done := q.bound }
  let s := if x.run.isSome then s.discard x.id else s
  if x.overrun then s else s.setWarp x.id fun y => { y with routine := y.routine.map close }

/-- The registers whose reissue a warp's commits owe still (R84). -/
def Warp.owed (x : Warp) : List Nat := (x.rejoin.map fun q => q.before ++ q.wrote).getD []

/-- ROUTINE_FORCED_END: at its bound, or where a checkpoint cannot wait for it, a routine is ended: the unit is saved, lost and released,
and the interrupted block is next (R331, R335); the words it reads are corrected (R360). The record is work of the die's copy
unit, which begins no line once it has stopped or is frozen (R332, R357, R365). A unit that the routine gave up already has met its recall
(R323). The boundary is there once step 6 of the routine's last commit is made (R75); a routine that a checkpoint ends while it is parked
on its rejoin fetch passes the reissue of that commit on, its join entry being gone (R84). -/
def execRoutineForcedEnd (w : WarpId) (s : State) : Host.Outcome State Fault Refusal :=
  .next (match s.warp? w with
    | none => s
    | some x =>
      if x.routine.isNone || !s.coreRuns x.core || !((x.overrun && x.run.isNone && x.phase == .ready && !x.owes) || s.stuckRoutine x) then s
      else
        let s := s.stopRoutine x
        match s.warp? w, s.team? w.team with
        | some x, some t =>
          let mine (u : Taken) : Bool := some u.tid == (x.routine.map fun q => q.tid) && u.cls == .neg && u.holder == w.warp
          match x.routine, t.taken.find? mine with
          | some q, none => (s.leaveRoutine w q x.owed).atBoundary w
          | some q, some u =>
            if !s.unitRuns (dieOf x.core) (.copy (dieOf x.core)) then s else
            let gs := (s.errs.map (·.1)).filter (t.unitWord u)
            let s := s.correct gs
            match (s.badOf gs).head? with
            | some g => s.dataFault w 0 (structCode g) (match g with
              | .spad _ off => off
              | .acc _ _ i | .counts _ _ i => 4 * i
              | _ => 0) 0
            | none =>
              let rec' := t.saveRecord u w
              let ps := match u.save with
                | some va => lineParts va.toNat rec'.length
                | none => []
              let s := match u.save with
                | some va => ps.foldl (fun s p => s.saveLine x va rec' p) s
                | none => s.surrAppend w.team.launch.ctx (dieOf x.core) rec'
              let written := ((s.warp? w).bind fun y => y.routine).map fun q => ps.all fun p => q.lines.contains p.1
              if written == some true && (s.warp? w).map (·.phase) != some .faulted then
                ((s.loseUnit w u).leaveRoutine w q x.owed).atBoundary w
              else s
          | none, _ => s
        | _, _ => s)

end Sys2Proof.Machine
end

