-- ==== Sys2Proof/Machine/Saving.lean ====
section
/-! DEFINITION. Checkpoints (R346 to R353): the yield deadline, the save's conditions, its records, and the cores it frees. -/
namespace Sys2Proof.Machine

/-- The negotiated holdings of a launch's teams: team, first tile, core. -/
def State.negotiated (s : State) (l : LaunchId) : List (TeamId × Nat × Nat) :=
  (s.teams.filter fun t => t.id.launch == l).flatMap fun t => (t.taken.filter fun u => u.cls == .neg).map fun u => (t.id, u.tid, t.core)

/-- The stop request goes out: the scheduler recalls what the warps hold that rest at a boundary already, and of every other one as it
stops (R324, R335, R348). -/
def State.stopLaunch (s : State) (l : LaunchId) : State :=
  let s := s.setLaunch l fun x => { x with phase := .stopping }
  ((s.warps.filter fun x => x.id.team.launch == l && x.rested).map (·.id)).foldl (fun s w => s.recallHeld w) s

/-- YIELD_DEADLINE_EXPIRY: the deadline has come, or every warp has yielded (R348). -/
def execYieldDeadlineExpiry (l : LaunchId) (s : State) : Host.Outcome State Fault Refusal :=
  .next (match (s.launch? l).map fun x => x.phase with
    | some (LPhase.yielding d) =>
      if d ≤ s.now || (s.warps.all fun x => x.id.team.launch != l || x.phase == .stopped || x.phase == .retired) then s.stopLaunch l
      else s
    | _ => s)

/-! ### Records (R351, R352) -/

/-- A divergence-stack entry as a record holds it (R79): the address bits [63:54] of a BRX successor, which R89 accepts, have no field and
are lost (DESIGN CHOICE, log 130). -/
def StackEnt.bytes (e : StackEnt) : List W8 :=
  leBytes 8 (e.addr.toNat / 32 % 2 ^ 49 * 2 ^ 15 + (if e.cp then 2 else 0) + (if e.join then 1 else 0)) ++ leBytes 8 e.mask.toNat

/-- A warp record (R352). NEXT, like a stack entry's ADDR, has no bits [63:54] (DESIGN CHOICE, log 130). -/
def Warp.record (x : Warp) (yielded : Bool) : List W8 :=
  let pk := match x.phase with
    | .parked .. => 1
    | _ => 0
  let rows := x.v.mergeSort fun a b => a.num ≤ b.num
  leBytes 8 (x.id.warp * 2 ^ 56 + (if yielded then 2 ^ 33 else 0) + pk * 2 ^ 32 + x.am.toNat) ++
    leBytes 8 (x.pc.toNat / 32 % 2 ^ 49 * 2 ^ 15 + x.stack.length) ++
    leBytes 8 (x.gang.toNat * 2 ^ 32 + x.limit * 2 ^ 8 + x.fstat.toNat % 256) ++
    (x.k.flatMap fun k => leBytes 4 k.toNat) ++ (x.m.flatMap fun m => leBytes 8 (m.1.toNat * 2 ^ 32 + m.2.toNat)) ++
    leBytes 32 (rows.foldl (fun n r => n + 2 ^ r.num) 0) ++ (x.stack.flatMap StackEnt.bytes) ++
    rows.flatMap fun r => r.lanes.flatMap fun w => leBytes 4 w.toNat

/-- A tile word (R351). -/
def Team.tileWord (t : Team) (x : Tile) : W64 :=
  let u := t.unitOf x.tid
  BitVec.ofNat 64 (x.tid * 2 ^ 58 + ((u.map fun u => clsCode u.cls).getD 0) * 2 ^ 56 + x.st.code * 2 ^ 54 +
    ((u.map fun u => u.holder).getD 0) * 2 ^ 49 + (if x.lost then 2 ^ 48 else 0) +
    ((u.map fun u => u.sharers.toNat).getD 0) * 2 ^ 16 + x.cnt % 2 ^ 16)

/-- The accumulator units of a team, a pair with its counts as one (R332, R351). -/
def Team.accUnits (t : Team) : List (Nat × Bool) :=
  let has (k : Nat) : Bool := (t.tile? k).isSome
  (List.range 8).filterMap fun i =>
    let k := 32 + i
    if !has k then none
    else match t.unitOf k with
    | some u => if u.tid == k then some (k, u.spl) else none
    | none =>
      let pair (e : Nat) : Bool := has e && has (e + 1) && t.hasPair ((e - 32) / 2) && (t.unitOf e).isNone && (t.unitOf (e + 1)).isNone
      if i % 2 == 0 then some (k, pair k) else if pair (k - 1) then none else some (k, false)

/-- The live warps of a saved team, ascending. -/
def SavedTeam.live (t : SavedTeam) : List Warp := (t.warps.filter fun x => x.phase != .retired).mergeSort fun a b => a.id.warp ≤ b.id.warp

/-- The tiles of a team, ascending. -/
def Team.sorted (t : Team) : List Tile := t.tiles.mergeSort fun a b => a.tid ≤ b.tid

/-- The sections of a team record before its warp records (R351). -/
def SavedTeam.sections (t : SavedTeam) (spad : Nat) (ends : List (TeamId × Nat × Nat)) : List W8 :=
    wordsBytes (t.team.ag.map fun a => Config.agWord a.theta a.kappa a.nb) ++
    wordsBytes (t.team.bars.map fun b => Config.barWord b.phase b.arrived b.count b.pending) ++
    wordsBytes (t.team.sorted.map t.team.tileWord) ++
    wordsBytes (t.team.gone.map fun g => BitVec.ofNat 64 (g.tid * 2 ^ 58 + if g.lost then 2 ^ 48 else 0)) ++
    rdBytes t.team.spad 0 spad ++
    (t.team.accUnits.flatMap fun u => t.team.image u.1 u.2) ++
    (t.prev.flatMap fun e => Config.entryBytes true e.words e.mask) ++ (t.next.flatMap fun e => Config.entryBytes false e.words e.mask) ++
    wordsBytes ((ends.filter fun e => e.1 == t.team.id).map fun e => BitVec.ofNat 64 (e.2.1 * 2 ^ 58 + e.2.2 * 2 ^ 56))

/-- A team record (R351): the team and its warps, its neighbour entries, the unit ends and the warps that yielded. -/
def SavedTeam.record (t : SavedTeam) (ver spad : Nat) (ends : List (TeamId × Nat × Nat)) (yielded : List WarpId) : List W8 :=
  let body := t.sections spad ends ++ t.live.flatMap fun x => x.record (yielded.contains x.id)
  leBytes 8 (ver * 2 ^ 48 + t.team.id.team * 2 ^ 24 + t.team.core * 2 ^ 16 + t.live.length) ++
    leBytes 8 ((16 + body.length) * 2 ^ 32 + t.team.credit) ++ body

/-- A launch record (R351). -/
def Launch.record (l : Launch) (ver elap teams : Nat) : List W8 :=
  leBytes 8 (ver * 2 ^ 48 + l.id.num % 2 ^ 32) ++ leBytes 8 (teams * 2 ^ 32 + l.placed) ++ leBytes 8 elap ++ leBytes 8 l.queue ++
    wordsBytes l.desc

/-! ### The save (R349) -/

/-- The checkpoint may write: every warp has stopped, no negotiated holding is left, and every copy, message, reply and entry of
the launch has completed (R335, R349); a shared unit of which no share is left is free first (R323). -/
def State.saveReady (s : State) (l : LaunchId) : Bool :=
  (s.warps.all fun x => x.id.team.launch != l || (x.rested && x.routine.isNone)) && (s.negotiated l).isEmpty &&
  (s.teams.all fun t => t.id.launch != l || t.taken.all fun u => u.cls != .shr || u.sharers != 0) &&
  (s.copies.all fun c => c.warp.team.launch != l || c.phase == .done) && (s.msgs.all fun m => m.warp.team.launch != l) &&
  (s.replies.all fun p => p.warp.team.launch != l) && s.flights.all fun f => f.dest.launch != l

/-- A core's queues as they are saved, without reservations (R232). -/
def openEntries (q : List NEntry) : List NEntry := q.map fun e => { e with by' := none }

/-- A team as it is saved. -/
def State.saveTeam (s : State) (l : Launch) (t : Team) : SavedTeam :=
  let c := s.core t.core
  { team := { t with claims := [] }, warps := s.warps.filter fun x => x.id.team == t.id
    prev := if l.chain then openEntries c.prev else [], next := if l.chain then openEntries c.next else []
    at' := 0, len := 0, warpsAt := 0 }

/-- The cycles that the most recently placed resident team has run, those before a save among them (R346, R351). -/
def State.elapsed (s : State) (l : Launch) : Nat :=
  (((s.teams.filter fun t => t.id.launch == l.id).getLast?).map fun t => t.ran + (s.now - t.placedAt)).getD l.elapsed

/-- A word that a save reads: of a bound row, the scratchpad, an accumulator or a count plane (R351, R361). -/
def State.saveReads (s : State) (l : LaunchId) : Granule → Bool
  | .pool w reg _ => w.team.launch == l && ((s.warp? w).bind fun x => x.vreg? reg).isSome
  | .spad t _ | .acc t _ _ | .counts t _ _ => t.launch == l
  | _ => false

/-- The first uncorrectable word that a save reads (R361, R362). -/
def State.saveErr (s : State) (l : LaunchId) : Option Granule := (s.errs.find? fun e => e.2 && s.saveReads l e.1).map (·.1)

/-- The fault of a save that met an uncorrectable word: against the row's warp, or by firmware against the context. -/
def State.saveFault (s : State) (l : Launch) : Granule → State
  | .pool w reg _ => s.dataFault w 0 1 reg (lanesOf fun k => s.errs.contains (.pool w reg k, true))
  | g =>
    let (t, at') := match g with
      | .spad t off => (t.team, off)
      | .acc t _ i | .counts t _ i => (t.team, 4 * i)
      | _ => (0, 0)
    s.raise { cls := 0x0B, cause := 0, ctx := l.id.ctx, core := none, ekind := 5, einst := s.fwCore l.id.ctx l.queue, launch := l.id.num, team := t, warp := 0
              lanes := 0, va := 0, payload := [BitVec.ofNat 64 (structCode g), BitVec.ofNat 64 at'], pkt := some l.pkt }

/-- The records written one after another from an address on; the teams with their places. -/
def State.writeTeams (s : State) (l : Launch) (ver : Nat) : Nat → List SavedTeam → State × List SavedTeam
  | _, [] => (s, [])
  | at', t :: ts =>
    let rec' := t.record ver (l.spad * 1024) l.ends l.yielded
    let (s', rest) := State.writeTeams (s.sysWrite at' rec') l ver (at' + rec'.length) ts
    (s', { t with at' := at', len := rec'.length, warpsAt := 16 + (t.sections (l.spad * 1024) l.ends).length } :: rest)

/-- The teams of a launch as its save holds them: those saved before and those on cores (R350, R351). -/
def State.saveTeams (s : State) (l : Launch) : List SavedTeam :=
  l.saved ++ (s.teams.filter fun t => t.id.launch == l.id).map fun t => s.saveTeam l t

/-- The bytes of a launch's save. -/
def State.saveSize (s : State) (l : Launch) : Nat :=
  let ver := s.fw.writes.toNat
  let ts := s.saveTeams l
  (l.record ver (s.elapsed l) ts.length).length +
    (ts.map fun t => (t.record ver (l.spad * 1024) l.ends l.yielded).length).foldl (· + ·) 0

/-- The bytes of a context's save area in use: none while no other launch of it is saved. -/
def State.saveUsed (s : State) (l : Launch) (c : Ctx) : Nat :=
  if s.launches.any fun y => y.id.ctx == l.id.ctx && y.id != l.id && (y.phase == .saved || !y.saved.isEmpty) then c.saveUsed else 0

/-- A launch saved: what its cores wrote, and what they have read of other cores' stores on their dies, is made visible, so that a warp
resumed elsewhere reads nothing older (R270, R349); its records are written from an address on, and its cores are free (R349 to R353). -/
def State.saveLaunch (s : State) (x : Launch) (c : Ctx) : State :=
  let l := x.id
  let cores := ((s.teams.filter fun t => t.id.launch == l).map (·.core)).eraseDups
  let elap := s.elapsed x
  let ver := s.fw.writes.toNat
  let ts := s.saveTeams x
  let head := x.record ver elap ts.length
  let at' := c.save + s.saveUsed x c
  let used := s.saveUsed x c + s.saveSize x
  let s := s.pushDies ((x.used.map dieOf).eraseDups)
  let (s, ts) := (s.sysWrite at' head).writeTeams x ver (at' + head.length) ts
  let s := { s with
    teams := s.teams.filter fun t => t.id.launch != l
    warps := s.warps.filter fun w => w.id.team.launch != l
    recalls := s.recalls.filter fun r => r.team.launch != l }
  let s := if x.chain then cores.foldl (fun s k => s.setCore k fun c => { c with prev := [], next := [] }) s else s
  let s := (s.setCtx l.ctx fun c => { c with saveUsed := used }).setLaunch l fun y => { y with
    phase := .saved, saved := ts, saveAt := at', ver := ver, elapsed := elap, yielded := [], ends := [] }
  cores.foldl (fun s k => s.serveTakes k 0) s

/-- CHECKPOINT_SAVE (R349 to R353): what it reads is corrected, or faults once. A save that does not fit the save area waits. -/
def execCheckpointSave (l : LaunchId) (s : State) : Host.Outcome State Fault Refusal :=
  .next (match s.launch? l, s.ctx? l.ctx with
    | some x, some c =>
      if x.phase != .stopping || !s.saveReady l then s
      else
      let s := s.correct ((s.errs.map (·.1)).filter (s.saveReads l))
      match s.saveErr l with
      | some g => (s.saveFault x g).clearErrs [g]
      | none => if c.saveSize < s.saveUsed x c + s.saveSize x then s else s.saveLaunch x c
    | _, _ => s)

end Sys2Proof.Machine
end

