-- ==== Sys2Proof/Machine/Packets.lean ====
section
/-! DEFINITION. Command packets (R18, R337 to R341, R346, R371, R391): popping, the descriptor's checks, pre-emption, and what each
type of packet does. -/
namespace Sys2Proof.Machine

/-! ### The descriptor (R13, R17, R18) -/

/-- The stage map satisfies R13. -/
def Launch.stagesOk (l : Launch) : Bool :=
  ((List.range 8).all fun k => if k < l.stages then 1 ≤ l.stageWarps k && l.stageWarps k ≤ 32 else l.stageWarps k == 0) &&
  ((List.range 8).map l.stageWarps).foldl (· + ·) 0 == l.warps

/-- The declared tiles lie in the scratchpad, aligned and apart (R18). -/
def Launch.tilesOk (l : Launch) : Bool :=
  l.declared.all fun j =>
    let (o, n) := l.tileAt j
    l.tdsc j % 16 ≤ 8 && o % n == 0 && o + n ≤ l.spad && l.declared.all fun k =>
      k == j || let (p, m) := l.tileAt k; o + n ≤ p || p + m ≤ o

/-- The reserved bits of a descriptor are zero (R17). -/
def descReserved (d : List W64) : Bool :=
  field d 0 63 49 == 0 && field d 2 63 48 == 0 && field d 3 31 24 == 0 && field d 3 16 15 == 0 &&
  ((List.range 32).all fun j => field d (4 + j / 4) (16 * (j % 4) + 15) (16 * (j % 4) + 14) == 0) &&
  d.getD 21 0 == 0 && d.getD 22 0 == 0 && d.getD 23 0 == 0

/-- The teams of a chain or co-resident launch fit on the empty partition (R18). -/
def State.fitsEmpty (s : State) (l : Launch) : Bool :=
  let cores := s.allowed l
  if l.chain then
    let path := match l.start? with
      | some c => cores.dropWhile fun k => k != c
      | none => cores
    1 ≤ l.emptyFit && l.teams ≤ path.length
  else if l.cor then l.teams ≤ cores.length * l.emptyFit
  else true

/-- Firmware accepts a descriptor (R18). -/
def State.descOk (s : State) (l : Launch) : Bool :=
  let ds := s.partDies (s.partOf l.id.ctx)
  descReserved l.desc && l.plc != 3 && l.stagesOk && l.spad ≤ 768 && l.l1r ≤ 24 && l.npar ≤ 16 && l.accs ≤ 8 && l.pairs ≤ 4 &&
  l.tilesOk && (l.plc != 1 || ds.contains l.die) && (!l.chain || ((l.start?.map fun c => ds.contains (dieOf c)).getD true)) &&
  s.fitsEmpty l

/-! ### LAUNCH and pre-emption (R346) -/

/-- The remaining estimate of a launch (R346). -/
def State.remaining (s : State) (l : Launch) : Nat := if l.placed < l.teams then l.est else l.est - s.elapsed l

/-- The drain threshold of a context (R373). -/
def State.drainAt (s : State) (ctx : Nat) : Nat := ((s.ctx? ctx).map fun c => if c.dthr == 2 ^ 64 - 1 then 320000 else c.dthr).getD 320000
/-- The yield deadline of a context (R373). -/
def State.yieldIn (s : State) (ctx : Nat) : Nat := ((s.ctx? ctx).map fun c => if c.ydl == 2 ^ 64 - 1 then 32768 else c.ydl).getD 32768

/-- What pre-emption decides for a launch: drained, checkpointed, its warps asked to yield, or killed (R346, R348). -/
def State.preempt (s : State) (l : Launch) : State :=
  if s.remaining l < s.drainAt l.id.ctx then s.setLaunch l.id fun x => { x with phase := .draining }
  else if l.ckp then
    if s.yieldIn l.id.ctx == 0 then s.stopLaunch l.id
    else s.setLaunch l.id fun x => { x with phase := .yielding (s.now + s.yieldIn l.id.ctx) }
  else s.setLaunch l.id fun x => { x with phase := .killing }

/-- The launches a newcomer pre-empts: resident in its partition, of lower priority, not being pre-empted already (R346). -/
def State.victims (s : State) (n : Launch) : List Launch :=
  s.launches.filter fun l => s.samePart l.id n.id && s.resident l.id && l.prio < n.prio &&
    (l.phase == .running || (l.phase == .draining && !s.drained l))

/-- A launch as its packet starts it. -/
def launchOf (p : PktId) (num era : Nat) (k : Pkt) : Launch :=
  { Launch.none with
    id := { ctx := p.ctx, num := num, era := era }, queue := p.queue, pos := p.pos, since := k.since, eval := k.eval, desc := k.body }

/-- A LAUNCH becomes ready while the dispatcher is held, and waits (R337, R377). -/
def State.holdLaunch (s : State) (p : PktId) : State :=
  match s.queue? p.ctx p.queue, s.pkt? p with
  | some q, some k => if k.type == 1 && !s.faulty p.ctx && q.turn true k && s.handles p.ctx p.queue then s.turnPkt p k .ready else s
  | _, _ => s

/-- LAUNCH_PACKET: the descriptor is checked, the launch numbered, and pre-emption decided (R18, R29, R337, R346). A LAUNCH that
becomes ready while the dispatcher is held waits (R377). -/
def execLaunchPacket (p : PktId) (s : State) : Host.Outcome State Fault Refusal :=
  if s.dispatchHeld then .next (s.holdLaunch p)
  else s.pktStep p 1 false fun s k =>
    match s.ctx? p.ctx with
    | none => s
    | some c =>
      let l := launchOf p c.launches c.era k
      if !s.descOk l then s.freezePkt p 3 0
      else
        let vs := if k.npr then [] else s.victims l
        let s := vs.foldl (fun s v => s.preempt v) s
        (({ s with launches := s.launches ++ [{ l with waits := vs.map fun (v : Launch) => v.id }] }).setCtx p.ctx
          fun c => { c with launches := c.launches + 1 }).event (.packet p)

/-! ### What firmware reads and writes for a packet (R391) -/

/-- A fault of a packet: EKIND 5, against its context (R391). -/
def State.fwFault (s : State) (p : PktId) (cls cause : Nat) (va : W64) (payload : List W64) : State :=
  s.raise { cls := cls, cause := cause, ctx := p.ctx, core := none, ekind := 5, einst := s.fwCore p.ctx p.queue, launch := 0, team := 0
            warp := 0, lanes := 0, va := va &&& 0x3FFFFFFFFFFFFF, payload := payload, pkt := some p }

/-- A line of a packet's body, `acc` 0 read, 1 written; `k` acts on its page (R391). -/
def State.fwPage (s : State) (p : PktId) (acc : Nat) (va : W64) (k : State → Nat → State) : State :=
  match s.lineAt p.ctx 2 acc (.packet p) va 0 0 with
  | (s, .page pa _) => k s pa
  | (s, .parked) => s
  | (s, .bad c) => s.fwFault p 0x0A c va []
  | (s, .walk pa code) => s.fwFault p 0x0B 0 va [BitVec.ofNat 64 code, BitVec.ofNat 64 pa]

/-- What firmware reads at a physical address for a packet is corrected, and poison in it is a fault (R360, R362); `k` goes on. -/
def State.fwRead (s : State) (p : PktId) (va : W64) (pa n : Nat) (k : State → State) : State :=
  match s.sysMark pa n with
  | some code => (s.sysFix pa n).fwFault p 0x0B 0 va [BitVec.ofNat 64 code, BitVec.ofNat 64 pa]
  | none => k (s.sysFix pa n)

/-- A COPY packet's address: 54 bits, aligned to 16 bytes (R337; log 83). -/
def copyAddr (a : W64) : Bool := a.toNat < 2 ^ 54 && a.toNat % 16 == 0

/-- The pieces of a COPY packet, each within one line of its source and one of its destination. -/
def Pkt.copyParts (k : Pkt) : List (Nat × Nat) :=
  (lineParts (k.word 0).toNat (k.word 2).toNat).flatMap fun p =>
    (lineParts ((k.word 1).toNat + p.1) p.2).map fun q => (p.1 + q.1, q.2)

/-- One piece of a COPY packet, in the copy class, by the I/O die's copy unit. -/
def State.pktPart (s : State) (p : PktId) (x : Nat × Nat) : State :=
  match s.pkt? p with
  | none => s
  | some k =>
    if k.got.contains x.1 || s.faulty p.ctx || s.frozen.contains (.copy 5) then s
    else
      let va := k.word 0 + BitVec.ofNat 64 x.1
      s.fwPage p 0 va fun s src =>
        s.fwPage p 1 (k.word 1 + BitVec.ofNat 64 x.1) fun s dst =>
          match s.engineRead (.copy 5) src (x.2 / 4) with
          | (s, _, some (pa, code)) => s.fwFault p 0x0B 0 va [BitVec.ofNat 64 code, BitVec.ofNat 64 pa]
          | (s, bs, none) => (s.sysWrite dst bs).setPkt p fun y => { y with got := y.got ++ [x.1] }

/-- COPY_PACKET: its lines perform; with the last its work is done (R337). -/
def execCopyPacket (p : PktId) (s : State) : Host.Outcome State Fault Refusal :=
  s.pktStep p 2 true fun s k =>
    let n := (k.word 2).toNat
    if !(copyAddr (k.word 0) && copyAddr (k.word 1) && n % 16 == 0 && 16 ≤ n && n ≤ 2 ^ 30) then s.freezePkt p 4 0
    else
      let s := k.copyParts.foldl (fun s x => s.pktPart p x) s
      match s.pkt? p with
      | some y => if k.copyParts.all fun x => y.got.contains x.1 then s.donePkt p else s
      | none => s

/-- WRITEMEM: a system-scope release store (R337). -/
def execWritemem (p : PktId) (s : State) : Host.Outcome State Fault Refusal :=
  s.pktStep p 3 true fun s k =>
    if !((k.word 0).toNat % 4 == 0 && (k.word 1).toNat < 2 ^ 32) then s.freezePkt p 4 0
    else s.fwPage p 1 (k.word 0) fun s pa => (s.sysWrite pa (leBytes 4 (k.word 1).toNat)).donePkt p

/-- COND of a WAITMEM (R337). -/
def waitCond (cond v w : Nat) : Bool :=
  match cond with
  | 0 => v == w
  | 1 => v != w
  | 2 => v < w
  | _ => w ≤ v

/-- A read of a WAITMEM's word at system scope, noted for the event in which it is made (R340). -/
def State.poll (s : State) (p : PktId) (k : Pkt) : State :=
  let s := s.setPkt p fun y => { y with got := [((s.queue? p.ctx p.queue).map (·.evals)).getD 0] }
  s.fwPage p 0 (k.word 0) fun s pa => s.fwRead p (k.word 0) pa 4 fun s =>
    if waitCond ((k.word 1).toNat / 2 ^ 32) (leNat (s.sysRead pa 4)) ((k.word 1).toNat % 2 ^ 32) then s.donePkt p else s

/-- WAITMEM: it starts with a read (R340). -/
def execWaitmem (p : PktId) (s : State) : Host.Outcome State Fault Refusal :=
  s.pktStep p 4 false fun s k =>
    if !((k.word 0).toNat % 4 == 0 && (k.word 1).toNat < 2 ^ 34) then s.freezePkt p 4 0 else s.poll p k

/-- A firmware core handles an event for which a WAITMEM reads again: its own, or a change of its queue's tokens (R340). -/
def State.rereads (s : State) (p : PktId) : Bool :=
  s.fw.held.contains (some (.reread p)) || s.fw.held.contains (some (.tokens p.ctx p.queue))

/-- WAITMEM_REREAD: it becomes an event, and reads again where a core handles that or a change of the queue's tokens (R340, R341). -/
def execWaitmemReread (p : PktId) (s : State) : Host.Outcome State Fault Refusal :=
  .next (match s.pkt? p with
    | some k =>
      if k.type != 4 || k.ph != .started || s.faulty p.ctx then s
      else if s.rereads p then s.poll p k
      else if s.fw.events.contains (.reread p) || !s.eventRoom then s else s.event (.reread p)
    | none => s)

/-- A packet completes: its SET tokens are set and it leaves the window (R338, R339). -/
def State.completePkt (s : State) (p : PktId) (k : Pkt) : State :=
  (s.setTokens p.ctx p.queue fun t => t ||| k.set').leavePkt p

/-- TOKEN_PACKET: it clears CLRM and then sets SET, as one change (R338). -/
def execTokenPacket (p : PktId) (s : State) : Host.Outcome State Fault Refusal :=
  s.pktStep p 5 false fun s k => (s.setTokens p.ctx p.queue fun t => t &&& ~~~k.word 0 ||| k.set').leavePkt p

/-- FENCE_PACKET: ready once every older packet has completed, it is done at once (R339). -/
def execFencePacket (p : PktId) (s : State) : Host.Outcome State Fault Refusal := s.pktStep p 6 false fun s _ => s.donePkt p

/-- PACKET_COMPLETE (R338). -/
def execPacketComplete (p : PktId) (s : State) : Host.Outcome State Fault Refusal :=
  .next (match s.pkt? p with
    | some k => if k.ph == .done && s.handles p.ctx p.queue then s.completePkt p k else s
    | none => s)

/-! ### Popping (R337, R371) -/

/-- The body words of each TYPE; none for an unassigned one (R337). -/
def bodyWords : Nat → Option Nat
  | 1 => some 24
  | 2 => some 3
  | 3 => some 2
  | 4 => some 2
  | 5 => some 1
  | 6 => some 0
  | _ => none

/-- A header is well formed (R337). -/
def headerOk (q : List W64) : Bool :=
  let q0 := (q.headD 0).toNat
  bodyWords (q0 / 2 ^ 60) == some (q0 / 2 ^ 32 % 256) && q0 / 2 ^ 40 % 2 ^ 18 == 0 && (!q0.testBit 58 || q0 / 2 ^ 60 == 1) && q.getD 3 0 == 0

/-- The physical address of word `i` from the read offset on (R371). -/
def Queue.wordAt (q : Queue) (i : Nat) : Nat := q.base + (q.rd + 8 * i) % q.size

/-- Words of a ring. -/
def State.ringWords (s : State) (q : Queue) (i n : Nat) : List W64 :=
  (List.range n).map fun j => BitVec.ofNat 64 (leNat (s.sysRead (q.wordAt (i + j)) 8))

/-- A whole packet popped into the window, with the status block (R371); it is ready from now on if its WAIT tokens are set. -/
def State.popWhole (s : State) (ctx : Nat) (q : Queue) (head : List W64) (nb : Nat) : State :=
  let (s, at') := s.newOrder
  let k : Pkt := { pos := q.pops, q := head, body := s.ringWords q 4 nb, ph := .waiting, got := [], since := at', eval := q.eval }
  let new : Queue := { q with rd := (q.rd + 32 + 8 * nb) % q.size, pops := q.pops + 1, window := q.window ++ [k] }
  ((s.setQueue ctx q.num fun _ => new).writeRead new).event (.packet { ctx := ctx, queue := q.num, pos := k.pos })

/-- The words of a ring are read, corrected, and poison in one of them is a fault (R360, R362, log 99). -/
def State.ringRead (s : State) (ctx : Nat) (q : Queue) (i n : Nat) (k : State → State) : State :=
  let at' := (List.range n).map fun j => q.wordAt (i + j)
  let s := at'.foldl (fun s a => s.sysFix a 8) s
  match at'.findSome? fun a => (s.sysMark a 8).map fun code => (a, code) with
  | some (a, code) =>
    s.fwFault { ctx := ctx, queue := q.num, pos := q.pops } 0x0B 0 0 [BitVec.ofNat 64 code, BitVec.ofNat 64 a]
  | none => k s

/-- The bytes between the offsets. -/
def Queue.avail (q : Queue) : Nat := (q.wr + q.size - q.rd) % q.size

/-- A queue has a next packet to look at: room in the window, no FENCE in it, a queue that is not frozen, and a header between
the offsets (R339, R371). -/
def State.hasNext (s : State) (ctx : Nat) (q : Queue) : Bool :=
  !q.frozen && q.window.length < 32 && !(q.window.any fun k => k.type == 6) && 32 ≤ q.avail && !s.faulty ctx

/-- NB of a header. -/
def headNb (head : List W64) : Nat := (head.headD 0).toNat / 2 ^ 32 % 256

/-- PACKET_POP (R337, R339, R371): a whole packet, by a firmware core that handles an event of the queue. A malformed header is not
popped, and freezes the queue with cause 0x04. -/
def execPacketPop (ctx queue : Nat) (s : State) : Host.Outcome State Fault Refusal :=
  .next (match s.queue? ctx queue with
    | none => s
    | some q =>
      if !s.hasNext ctx q || !s.handles ctx queue then s
      else s.ringRead ctx q 0 4 fun s =>
        let head := s.ringWords q 0 4
        if !headerOk head then s.freeze ctx queue 4 ((head.headD 0).toNat % 2 ^ 32) q.pops 0
        else if q.avail < 32 + 8 * headNb head then s
        else s.ringRead ctx q 4 (headNb head) fun s => s.popWhole ctx q head (headNb head))

/-! ### Events (R341) -/

/-- Something is left to do for a queue: a packet to pop, to start or to complete, or a launch to complete (R341). The core does it
while the event queue is full too: what then becomes an event is held back (log 68). -/
def State.queueWork (s : State) (ctx n : Nat) : Bool :=
  match s.queue? ctx n with
  | none => false
  | some q =>
    let head := s.ringWords q 0 4
    (q.window.any fun k => k.ph == .done) ||
    (!s.faulty ctx && q.window.any (q.turn s.dispatchHeld)) ||
    (s.hasNext ctx q && (!headerOk head || 32 + 8 * headNb head ≤ q.avail)) ||
    s.launches.any fun l => l.id.ctx == ctx && l.queue == n && l.phase != .killing && l.retired == l.teams && l.saved.isEmpty

/-- A WAITMEM has still to read its word in the event that a core handles (R340, R341). -/
def State.unread (s : State) (q : Queue) (ctx : Nat) (k : Pkt) : Bool :=
  k.type == 4 && k.ph == .started && !k.got.contains q.evals && !s.faulty ctx

/-- What an event asks for is still to be done: the reads of the WAITMEMs it concerns (R340). -/
def State.readsLeft (s : State) (e : Evt) : Bool :=
  match e with
  | .tokens c n => ((s.queue? c n).map fun q => q.window.any fun k => s.unread q c k).getD false
  | .reread p => ((s.queue? p.ctx p.queue).map fun q => q.window.any fun k => k.pos == p.pos && s.unread q p.ctx k).getD false
  | _ => false

/-- An event is not handled to its end while its queue, or the mailbox for a command, has something left to do, or a read it asks for is
still to be made (R340, R341; log 68). -/
def State.unfinished (s : State) (e : Evt) : Bool :=
  if e == .command then s.host.ring == 1
  else s.readsLeft e || ((s.evtQueue e).map fun q => s.queueWork q.1 q.2).getD false

/-- The command in progress has no assigned OP (R372). -/
def State.badCommand (s : State) : Bool :=
  let op := ((s.host.cmd.headD 0).extractLsb' 56 8).toNat
  s.host.ring == 1 && (op == 0 || 13 < op)

/-- The LAUNCH packets that have become ready while the dispatcher was held (R377). -/
def State.launchesHeld (s : State) : List PktId :=
  s.ctxs.flatMap fun c => c.queues.flatMap fun q =>
    (q.window.filter fun k => k.ph == .ready).map fun k => { ctx := c.num, queue := q.num, pos := k.pos }

/-- The mailbox answers with a status and is idle, and the command's event is handled (R341, R372); a command that held the dispatcher
lets go of it, and each LAUNCH that waited for it is an event again (R377). -/
def State.answer (s : State) (st : W8) : State :=
  let drop (e : Option Evt) : Option Evt := if e == some .command then none else e
  let again := if s.dispatchHeld then s.launchesHeld else []
  { s with
    host := { s.host with status := st, ring := 0 }
    fw := again.foldl (fun f p => f.enter (.packet p)) { s.fw with held := s.fw.held.map drop } }

/-- The event taken by a firmware core, given the events held: the oldest whose queue none of them belongs to, and then the oldest
event held back has room (R341). -/
def State.takeEvent (s : State) (fw : Nat) : State :=
  let held := s.fw.held.set fw none
  let locks := held.filterMap fun e => e.bind s.evtQueue
  let free (e : Evt) : Bool := ((s.evtQueue e).map fun q => !locks.contains q).getD true
  match s.fw.events.find? free with
  | none => { s with fw := { s.fw with held := held } }
  | some e =>
    let before := s.fw.events.takeWhile fun y => !free y
    let rest := before ++ s.fw.events.drop (before.length + 1)
    let s := { s with fw := { s.fw with
      held := held.set fw (some e), events := rest ++ s.fw.back.take (4096 - rest.length), back := s.fw.back.drop (4096 - rest.length) } }
    match s.evtQueue e with
    | some q =>
      let (s, at') := s.newOrder
      s.setQueue q.1 q.2 fun y => { y with evals := y.evals + 1, eval := at' }
    | none => s

end Sys2Proof.Machine
end

