-- ==== Sys2Proof/Machine/Sched.lean ====
section
/-! DEFINITION. The issue choice (R343 to R345), the power buckets (R217, R379), the scrubber (R361), reloads (R364), flit
replay (R360) and frozen masters (R365). -/
namespace Sys2Proof.Machine

/-! ### The issue choice (R344) -/

/-- The fireable instructions of a block, ascending (R68). -/
def Run.fireable (r : Run) : List Nat :=
  (List.range (r.ni + 1)).filter fun k => (r.node k).st == .idle && match r.instr k with
    | some i => (r.node k).full i && !r.held k
    | none => false

/-- A candidate: its warp's slot and age, and what R344 orders it by. -/
structure Cand where
  w : WarpId
  k : Nat
  slot : Nat
  age : Nat
  urgent : Bool
  order : Nat
  deriving DecidableEq, Repr, Inhabited

/-- The candidates of a core. -/
def State.cands (s : State) (core : Nat) : List Cand :=
  let xs := s.warpsOn core
  ((List.range xs.length).zip xs).flatMap fun (n, x) => match x.phase, x.run with
    | .running, some r => r.fireable.map fun k =>
        { w := x.id, k := k, slot := n, age := x.age, urgent := x.urgent, order := r.order }
    | _, _ => []

/-- The order of R344: urgency, the older block, the lower index, the lower slot. -/
def Cand.before (a b : Cand) : Bool :=
  if a.urgent != b.urgent then a.urgent
  else if a.order != b.order then a.order < b.order
  else if a.k != b.k then a.k < b.k
  else a.slot ≤ b.slot

/-- The older age first, then the lower slot. -/
def Cand.older (a b : Cand) : Bool := if a.age != b.age then b.age < a.age else a.slot ≤ b.slot

/-- The first candidate of each of the four oldest aged warps. -/
def agedPicks (cs : List Cand) : List Cand :=
  let aged := (cs.filter fun c => 48 ≤ c.age).mergeSort Cand.older
  let ws := ((aged.map fun c => c.w).eraseDups).take 4
  ws.filterMap fun w => ((cs.filter fun c => c.w == w).mergeSort Cand.before).head?

/-- The instructions a clock issues, up to four (R344). -/
def picks (cs : List Cand) : List Cand :=
  let a := agedPicks cs
  a ++ (((cs.filter fun c => !a.contains c).mergeSort Cand.before).take (4 - a.length))

/-- Whether a waiting instruction acts again by itself when its wait can end: the latch, the array and BARSYN are ended by
others. -/
def Wait.retries : Wait → Bool
  | .barsyn _ | .latch | .array | .acquire => false
  | _ => true

/-- The waiting instructions of a core that look again whether their wait has ended, in the order they began to wait (R183,
R229); they use no issue slot (R24). -/
def State.retries (s : State) (core : Nat) : List (WarpId × Nat) :=
  let all := (s.warpsOn core).flatMap fun x => match x.phase, x.run with
    | .running, some r => (List.range (r.ni + 1)).filterMap fun k => match (r.node k).st with
      | .waiting w => if w.retries then some ((r.node k).since, x.id, k) else none
      | _ => none
    | _, _ => []
  (all.mergeSort fun a b => a.1 ≤ b.1).map fun a => a.2

/-- Instructions of one clock act in ascending warp, then index, so that claims and receives of one cycle are so ordered
(R175, R229). -/
def inWarpOrder (cs : List Cand) : List (WarpId × Nat) :=
  (cs.mergeSort fun a b => if a.w.warp != b.w.warp then a.w.warp < b.w.warp else if a.slot != b.slot then a.slot < b.slot else a.k ≤ b.k).map
    fun c => (c.w, c.k)

/-- A core's clock: its cycle count and its bucket (R29, R217). -/
def Core.clock (c : Core) : Core := { c with cycles := c.cycles + 1, level := min (c.level + c.rate) (4 * c.depth) }

/-- Ages after a clock (R344). -/
def State.ageWarps (s : State) (core : Nat) (cs ps : List Cand) : State :=
  let f (x : Warp) : Warp :=
    if x.core != core then x
    else if ps.any (fun p => p.w == x.id) || !(cs.any fun c => c.w == x.id) then { x with age := 0 }
    else { x with age := x.age + 1 }
  { s with warps := s.warps.map f }

/-- ISSUE_CLOCK: one clock of a core (R344), with the takes, references and waits of the core looked at again. -/
def execIssueClock (core : Nat) (s : State) : Host.Outcome State Fault Refusal :=
  .next (
    let s := s.setCore core Core.clock
    let s := { s with now := max s.now (s.core core).cycles.toNat }
    if !s.coreRuns core then s
    else
      let s := s.serveTakes core 0
      let s := (s.mmas.filter fun m => m.core == core).foldl (fun s m => s.mmaRefs m) s
      let cs := s.cands core
      let ps := picks cs
      { (s.ageWarps core cs ps) with issue := s.retries core ++ inWarpOrder ps })

/-- The urgent warp of a stage with two or more live warps: the fewest blocks since its last barrier phase, ties by index (R345). -/
def urgentOf (xs : List Warp) : Option Warp :=
  if xs.length < 2 then none
  else xs.foldl (fun (b : Option Warp) x => match b with
    | none => some x
    | some b => if x.since < b.since || (x.since == b.since && x.id.warp < b.id.warp) then some x else some b) none

/-- URGENCY_EVALUATION (R345). -/
def execUrgencyEvaluation (t : TeamId) (s : State) : Host.Outcome State Fault Refusal :=
  .next (
    let live := s.live t
    let stage (x : Warp) : Nat := ((s.launchOf x.id).stageOf x.id.warp).1
    let ids := (List.range 8).filterMap fun g => (urgentOf (live.filter fun x => stage x == g)).map (·.id)
    let f (x : Warp) : Warp := if x.id.team == t then { x with urgent := ids.contains x.id } else x
    { s with warps := s.warps.map f })

/-! ### Power (R217, R379) -/

/-- The throttle mask: bit d where a core of die d refills its bucket below the rate of reset (R217, R379; log 89). -/
def State.throttled (s : State) : W64 :=
  (dies.filter fun d => (List.range 64).any fun c => (s.core (64 * d + c)).rate < Core.reset.rate).foldl (fun m d => m ||| (1 : W64) <<< d) 0

/-- POWER_RATE_SET: a core's refill rate, in quarter tokens a clock, and its depth, within their ranges (R217), and the throttle mask
that follows (R379). -/
def execPowerRateSet (core quarters depth : Nat) (s : State) : Host.Outcome State Fault Refusal :=
  .next (if 1 ≤ quarters && quarters ≤ 32 && 256 ≤ depth && depth ≤ 65535 then
    let s := s.setCore core fun c => { c with rate := quarters, depth := depth, level := min c.level (4 * depth) }
    { s with regs := { s.regs with throttle := s.throttled } }
  else s)

/-! ### Errors found outside a read -/

/-- POOL_SCRUB: every lane word of a bound row is read and checked, and what it finds is a data fault of the row's warp, raised
once (R361); the pool of a core that has stopped is not scrubbed. -/
def execPoolScrub (w : WarpId) (reg : Nat) (s : State) : Host.Outcome State Fault Refusal :=
  .next (match s.warp? w with
    | none => s
    | some x =>
      if !s.coreRuns x.core || x.phase == .faulted || (x.vreg? reg).isNone then s
      else
        let gs := allLanes.map fun l => Granule.pool w reg l
        let s := s.correct gs
        let bad := lanesOf fun l => s.errs.contains (.pool w reg l, true)
        if bad == 0 then s else (s.clearErrs gs).dataFault w 0 1 reg bad)

/-- A data fault against the context that needs a region of a core, with a warp of it there where there is one. -/
def State.needFault (s : State) (core ctx : Nat) (va : W64) (at' : Nat) : State :=
  match (s.warpsOn core).find? fun x => x.id.team.launch.ctx == ctx && x.phase != .retired && x.phase != .faulted with
  | some x => s.dataFault x.id va 7 at' 0
  | none => s.raise { cls := 0x0B, cause := 0, ctx := ctx, core := some core, ekind := 0, einst := core, launch := 0, team := 0, warp := 0
                      lanes := 0, va := va, payload := [7, BitVec.ofNat 64 at'], pkt := none }

/-- An error found again within a reload (R362, R364). -/
def State.regionFault (s : State) : Granule → State
  | .code core ctx va => s.needFault core ctx va va.toNat
  | .legend core ctx => s.needFault core ctx 0 (s.legendAt ctx 0)
  | _ => s

/-- CODE_REGION_RELOAD: a frozen region is read from memory again and is usable, and the reload is counted; an error that struck it
meanwhile ends the reload with a fault (R364, R366). A core that has stopped reads nothing (R357, R365). -/
def execCodeRegionReload (g : Granule) (s : State) : Host.Outcome State Fault Refusal :=
  let core := match g with
    | .code c .. | .legend c _ => c
    | _ => 0
  .next (if !s.reloads.contains g || !s.coreRuns core then s
  else
    let again := s.errs.contains (g, true)
    let s := ({ s with reloads := s.reloads.filter (· != g), errs := s.errs.filter fun e => e.1 != g } : State).dropRegion g
    if again then s.regionFault g else s.bump (0x10400 + 2 * core) 16)

/-- Where the data of a flit that crosses a port arrives: at its line's home, or in the L2 of the compute die whose port it is, where
that holds the line (R360; log 110). -/
def State.arrivals (s : State) (port ln : Nat) : List Place :=
  s.homeAt ln :: if port < 4 && (s.l2? port ln).isSome then [.l2 port] else []

/-- FLIT_REPLAY: a flit that fails its CRC so many times on a port is sent again up to 8 times, and then its data is poisoned where it
arrives (R360, R366); ports 0 to 4 join the dies, 5 to 12 are the Orxon Links. -/
def execFlitReplay (port fails pa : Nat) (s : State) : Host.Outcome State Fault Refusal :=
  .next (if 13 ≤ port then s
  else
    let off := if port < 5 then 0x10300 + 4 * port else 0x10340 + 4 * (port - 5)
    let s := (List.range (min fails 8)).foldl (fun s _ => s.bump off 32) s
    if fails ≤ 8 then s
    else
      let at' := (choose s.fresh (s.arrivals port (pa / 128))).getD (s.homeAt (pa / 128))
      ({ s with fresh := s.fresh + 1 } : State).mark at' pa 8)

/-! ### Frozen masters (R365) -/

/-- A record that a forced end owes is work of the die's copy unit: the routine is over, and the warp still holds its unit (R332). -/
def State.recordDue (s : State) (x : Warp) : Bool :=
  x.overrun && x.run.isNone && ((x.routine.map fun q => s.holds x.id q.tid).getD false)

/-- The launches with work in a master, each with the packet that supplied it: teams on a core, or copies, messages, tokens and records
of forced ends in an engine. -/
def State.launchesIn (s : State) : Master → List LaunchId
  | .core c => (s.teams.filter fun t => t.core == c).map (·.id.launch)
  | .copy d =>
    ((s.copies.filter fun c => !c.ovl && dieOf c.core == d && c.phase != .done).map (·.warp.team.launch)) ++
    ((s.msgs.filter fun m => dieOf m.core == d && (m.op == .copy || m.op == .copym || m.op == .gathr)).map (·.warp.team.launch)) ++
    (s.warps.filter fun x => dieOf x.core == d && s.recordDue x).map (·.id.team.launch)
  | .fill c =>
    ((s.copies.filter fun y => y.ovl && y.core == c && y.phase != .done).map (·.warp.team.launch)) ++
    (s.msgs.filter fun m => m.core == c && m.op == .fillb).map (·.warp.team.launch)
  | .sparse n =>
    ((s.msgs.filter fun m => m.op == .scatr && m.master == .sparse n).map fun m => m.warp.team.launch) ++
    (s.toks.filter fun t => (t.pa.map fun a => sliceOf a == n).getD false).flatMap fun t =>
      (s.msgs.filter fun m => t.msgs.contains m.id).map fun m => m.warp.team.launch
  | .coll => (s.msgs.filter fun m => m.op == .coll).map (·.warp.team.launch)

/-- The COPY packets at work, which the I/O die's copy unit performs (R337, R355). -/
def State.copyPkts (s : State) : List PktId :=
  s.ctxs.flatMap fun c => c.queues.flatMap fun q =>
    (q.window.filter fun k => k.type == 2 && k.ph == .started).map fun k => { ctx := c.num, queue := q.num, pos := k.pos }

/-- The work in a master: its launch, if it has one, and the packet that supplied it (R359, R365). -/
def State.workIn (s : State) (m : Master) : List (LaunchId × Option PktId) :=
  ((s.launchesIn m).map fun l => (l, (s.launch? l).map Launch.pkt)) ++
  if m == .copy 5 then s.copyPkts.map fun p => ({ ctx := p.ctx, num := 0 }, some p) else []

/-- The kind and number of a master (R355). -/
def masterCode : Master → Nat × Nat
  | .core c => (0, c)
  | .copy d => (1, d)
  | .fill c => (2, c)
  | .sparse n => (3, n)
  | .coll => (4, 0)

/-- The first work of each context, in order. -/
def perCtx (ls : List (LaunchId × Option PktId)) : List (LaunchId × Option PktId) :=
  ls.foldl (fun a l => if a.any fun k => k.1.ctx == l.1.ctx then a else a ++ [l]) []

/-- FROZEN_MASTER: a master that breaks the fabric's protocol issues no more, and raises its fault against every context
with work in it (R365). -/
def execFrozenMaster (m : Master) (s : State) : Host.Outcome State Fault Refusal :=
  .next (if s.frozen.contains m then s
  else
    let (kind, inst) := masterCode m
    let stop (l : LaunchId × Option PktId) : Stop :=
      { cls := 0x0C, cause := 0, ctx := l.1.ctx, core := if kind == 0 then some inst else none, ekind := kind, einst := inst
        launch := l.1.num, team := 0, warp := 0, lanes := 0, va := 0, payload := [BitVec.ofNat 64 kind], pkt := l.2 }
    (perCtx (s.workIn m)).foldl (fun s l => s.raise (stop l)) { s with frozen := m :: s.frozen })

end Sys2Proof.Machine
end

