-- ==== Sys2Proof/Machine/Halt.lean ====
section
/-! DEFINITION. The halt (R354 to R359): stop records, units stopping, the flush with its discards and frozen queues, and soft errors
as they strike (R360 to R364). -/
namespace Sys2Proof.Machine

/-! ### Stop records (R355, R356) -/

/-- A partition changed. -/
def State.setPart (s : State) (p : Nat) (f : Part → Part) : State := { s with parts := s.parts.modify p f }

/-- A stop record's words (R355). -/
def stopWords (f : Stop) (part seq : Nat) (org : Bool) : List W64 :=
  [BitVec.ofNat 64 (f.cls * 2 ^ 56 + f.cause * 2 ^ 48 + f.ctx * 2 ^ 42 + part * 2 ^ 40 + (if f.core.isSome then 2 ^ 39 else 0) +
      f.core.getD 0 * 2 ^ 31 + f.ekind * 2 ^ 27 + f.einst * 2 ^ 16 + f.payload.length),
   BitVec.ofNat 64 ((if org then 2 ^ 63 else 0) + seq % 2 ^ 31 * 2 ^ 32 + f.launch % 2 ^ 32),
   BitVec.ofNat 64 (f.team * 2 ^ 40 + f.warp * 2 ^ 32 + f.lanes.toNat), f.va] ++ f.payload

/-- A stop record appended to its context's ring, in a slot of 512 bytes, with the context's next SEQ. -/
def State.stopRecord (s : State) (f : Stop) (org : Bool) : State × Nat :=
  match s.ctx? f.ctx with
  | none => (s, 0)
  | some c =>
    let seq := c.sseq + 1
    ((s.setCtx f.ctx fun c => { c with sseq := seq }).ringAppend f.ctx c.sring 512 (wordsBytes (stopWords f c.part seq org)), seq)

/-- The fault of a poisoned line that Meridian evicted without an owner known, for one context; the manual names no EKIND for it (R363,
log 81). -/
def lostStop (ctx pa code : Nat) : Stop :=
  { cls := 0x0B, cause := 0, ctx := ctx, core := none, ekind := Config.evictUnit.1.toNat, einst := Config.evictUnit.2.toNat, launch := 0
    team := 0, warp := 0, lanes := 0, va := 0, payload := [BitVec.ofNat 64 code, BitVec.ofNat 64 pa], pkt := none }

/-- The faults of poisoned lines that Meridian evicted are raised against every context of the partition that held each (R363). -/
def State.raiseLost (s : State) : State :=
  s.lost.foldl (fun s (x : Nat × Nat × Nat) =>
    ((s.ctxs.filter fun c => c.part == x.1).map fun c => c.num).foldl (fun s c => s.raise (lostStop c x.2.1 x.2.2)) s) { s with lost := [] }

/-- The first fault waiting raises its partition's line, unless it is up, and its record is written (R356). -/
def State.haltRaise (s : State) : State :=
  let s := s.raiseLost
  match s.raised with
  | [] => s
  | f :: rest =>
    let p := s.partOf f.ctx
    let up := ((s.parts[p]?).map fun x => x.up).getD false
    let (s, seq) := ({ s with raised := rest }).stopRecord f !up
    let s := if up then s else s.bump (0x10600 + 2 * p) 16
    s.setPart p fun x => { x with
      up := true, guilty := x.guilty ++ [(f.ctx, seq, f.pkt)], org := if up then x.org else seq, flushed := false }

/-- HALT_RAISE (R356). -/
def execHaltRaise (s : State) : Host.Outcome State Fault Refusal := .next s.haltRaise

/-! ### Units stop (R357) -/

/-- The units a partition's halt stops: the cores and engines of its dies, and for its work the shared engines. -/
def Part.units (p : Part) : List Master :=
  (p.dies.flatMap fun d => .copy d :: (List.range 64).flatMap fun c => [.core (64 * d + c), .fill (64 * d + c)]) ++
  (List.range 128).map Master.sparse ++ [.coll]

/-- A core stops: blocks that meet their conditions commit, unless the core is frozen, and every other one in flight is discarded (R76,
R77, R357, R365). -/
def State.stopCore (s : State) (core : Nat) : State :=
  let ws := (s.warpsOn core).map (·.id)
  ws.foldl (fun s w => s.discardRunning w) (if s.frozen.contains (.core core) then s else s.commitMet ws)

/-- UNIT_STOP: a unit of a partition whose line is up stops (R357). -/
def execUnitStop (part : Nat) (m : Master) (s : State) : Host.Outcome State Fault Refusal :=
  .next (match s.parts[part]? with
    | none => s
    | some p =>
      if !p.up || !p.units.contains m || p.stopped.contains m then s
      else
        let s := match m with
          | .core c => s.stopCore c
          | _ => s
        s.setPart part fun p => { p with stopped := m :: p.stopped })

/-! ### What a halt or a partition reset discards (R358) -/

/-- The record of a message that a halt stopped, of class 0x0D (R358). -/
def State.stoppedRecord (s : State) (m : Msg) : State :=
  (s.stopRecord (s.engineStop m.warp m.engine.1 m.engine.2 0x0D 0 0 [m.tag.setWidth 64, BitVec.ofNat 64 m.performed]) false).1

/-- A launch of a context that loses teams, resident or saved; one that has none yet goes on (R358). -/
def State.loses (s : State) (ctx : Nat) (l : Launch) : Bool :=
  l.id.ctx == ctx && (s.resident l.id || l.phase == .saved || !l.saved.isEmpty)

/-- The packets of a context whose work is discarded: its launches' and the packets firmware has in progress. -/
def State.lostPkts (s : State) (ctx : Nat) : List PktId :=
  ((s.launches.filter (s.loses ctx)).map Launch.pkt) ++
  (((s.ctx? ctx).map fun c => c.queues).getD []).flatMap fun q =>
    (q.window.filter fun k => k.ph == .started && (2 ≤ k.type && k.type ≤ 4)).map fun k => { ctx := ctx, queue := q.num, pos := k.pos }

/-- A context's work gone: its teams, saved launches, messages, tokens, parked lines and packets in progress (R358). -/
def State.discardCtx (s : State) (ctx : Nat) : State :=
  let gone := (s.launches.filter (s.loses ctx)).map (·.id)
  let ts := (s.teams.filter fun t => t.id.launch.ctx == ctx).map (·.id)
  let s := ts.foldl (fun s t => s.removeTeam t 4) s
  let s := ((s.msgs.filter fun m => m.warp.team.launch.ctx == ctx).map (·.id)).foldl (fun s id => s.dropMsg id) s
  { s with
    warps := s.warps.filter fun x => x.id.team.launch.ctx != ctx
    copies := s.copies.filter fun c => c.warp.team.launch.ctx != ctx
    replies := s.replies.filter fun p => p.warp.team.launch.ctx != ctx
    launches := s.launches.filter fun l => !gone.contains l.id
    faultQ := s.faultQ.filter fun p => p.ctx != ctx }

/-- TAG of a packet: of one in its window, or of the next to be popped, where a read of its body faulted, from its header in the ring, 0
where that is poisoned too (R359, log 99). -/
def State.tagOf (s : State) (p : PktId) : Nat :=
  match s.pkt? p, s.queue? p.ctx p.queue with
  | some k, _ => k.tag
  | none, some q => if p.pos == q.pops && !s.poisoned (q.wordAt 0) 8 then leNat (s.sysRead (q.wordAt 0) 4) else 0
  | none, none => 0

/-- One queue of a context frozen for the packets it lost, all of which leave its window: the record names the packet that
supplied the faulting work, with cause 0x01, or else the oldest lost; a queue that is frozen already freezes no more (R359; log 27). -/
def State.freezeLost (s : State) (ctx : Nat) (lost : List PktId) (guilty : List PktId) (sseq q : Nat) : State :=
  let mine := lost.filter fun p => p.queue == q
  let bad := guilty.find? fun p => p.queue == q
  let cause := if bad.isSome then 1 else 2
  let oldest := mine.foldl (fun (b : Option PktId) p => match b with
    | none => some p
    | some b => if p.pos < b.pos then some p else some b) none
  match bad.or oldest with
  | none => s
  | some p =>
    let tag := s.tagOf p
    let s := (p :: mine).foldl (fun s p => s.leavePkt p) s
    if ((s.queue? ctx q).map (·.frozen)).getD false then s else s.freeze ctx q cause tag p.pos sseq

/-- The queues of a context that supplied the faulting work or held discarded work freeze (R359). -/
def State.freezeAll (s : State) (ctx : Nat) (lost guilty : List PktId) (sseq : Nat) : State :=
  (((lost ++ guilty).map fun p => p.queue).eraseDups).foldl (fun s q => s.freezeLost ctx lost guilty sseq q) s

/-- A fault of a partition has still to be recorded (R357, R358). -/
def State.unwritten (s : State) (part : Nat) : Bool := (s.raised.any fun f => s.partOf f.ctx == part) || s.lost.any fun x => x.1 == part

/-- HALT_FLUSH: with every unit stopped and every record of a fault written, the partition's caches are written home, the work of
the contexts that faulted is discarded with a record for each message, and queues freeze (R357 to R359); a fault that an earlier flush
of the halt has dealt with freezes nothing more. -/
def execHaltFlush (part : Nat) (s : State) : Host.Outcome State Fault Refusal :=
  .next (match s.parts[part]? with
    | none => s
    | some p =>
      if !p.up || p.flushed || !(p.units.all fun m => p.stopped.contains m) || s.unwritten part then s
      else
        let s := s.flushDies p.dies
        let new := p.guilty.drop p.dealt
        let ctxs := (new.map (·.1)).eraseDups
        let s := ctxs.foldl (fun s c =>
          let s := (s.msgs.filter fun m => m.warp.team.launch.ctx == c).foldl (fun s m => s.stoppedRecord m) s
          let lost := s.lostPkts c
          let guilty := new.filterMap fun g => if g.1 == c then g.2.2 else none
          (s.discardCtx c).freezeAll c lost guilty p.org) s
        s.setPart part fun p => { p with flushed := true, dealt := p.guilty.length })

/-! ### Soft errors and bring-up events (R360 to R364, R378) -/

/-- A granule named by its first byte. -/
def granuleOf : Granule → Granule
  | .spad t o => .spad t (o / 4 * 4)
  | .ovl c o => .ovl c (o / 8 * 8)
  | .mem p a => .mem p (a / p.granule * p.granule)
  | .code c x va => .code c x (codeRegion va)
  | g => g

/-- A granule that stands for stored data. -/
def State.holdsData (s : State) : Granule → Bool
  | .pool w reg lane => lane < 32 && ((s.warp? w).bind fun x => x.vreg? reg).isSome
  | .spad t off => match s.team? t with
    | some x => off < ((s.launch? x.id.launch).map fun l => l.spad).getD 0 * 1024
    | none => false
  | .acc t tid i => i < 128 * 128 && 32 ≤ tid && ((s.team? t).bind fun x => x.tile? tid).isSome
  | .counts t p i => i < 128 * 128 && ((s.team? t).map fun x => x.counts.any fun c => c.1 == p).getD false
  | .ovl c off => c < 256 && off < overlaySize
  | .mem (.l1 c) a => (s.l1? c (a / 128)).isSome
  | .mem (.l2 d) a => (s.l2? d (a / 128)).isSome
  | .mem .mer a => s.inMer (a / 128)
  | .mem .hbm a => isHbm a
  | .code c ctx va => (s.core c).code.any fun e => e.inRegion ctx va
  | .legend c ctx => (s.core c).legend.any fun e => e.ctx == ctx

/-- An uncorrectable error in a copy of a line (R360): dirty bytes, or an only copy, are poisoned; a clean copy is dropped, its other
bytes reaching the level below, and fetched again at its next use, with the marks of what it is fetched from (R362). -/
def State.copyError (s : State) (p : Place) (pa : Nat) : State :=
  let ln := pa / 128
  let hit (m : LineMask) : Bool := m &&& spanMask (pa % 128) 16 != 0
  let bad := s.mark p pa p.code
  match p with
  | .l1 c => match s.l1? c ln with
    | some x => if hit x.dirty then bad else (s.writeBackL1 c ln).dropL1 c ln
    | none => s
  | .l2 d => match s.l2? d ln with
    | some x => if x.st == .m || x.st == .o || hit x.marked then bad else s.evictLine d ln
    | none => s
  | .mer => if s.mer.any fun e => e.line == ln && e.dirty then bad else (s.fix .hbm pa 16).carry .hbm .mer ln (spanMask (pa % 128) 16)
  | .hbm => s.markHbm pa

/-- An uncorrectable error in stored data: in a copy of memory it acts at once, elsewhere where it is found. -/
def State.hardError (s : State) (g : Granule) : State :=
  match g with
  | .mem p pa => s.copyError p pa
  | _ => { s with errs := (s.errs.filter fun e => e.1 != g) ++ [(g, true)] }

/-- SOFT_ERROR: an error strikes a granule, correctable or, `double`, not (R360). -/
def execSoftError (g : Granule) (double : Bool) (s : State) : Host.Outcome State Fault Refusal :=
  .next (let g := granuleOf g
    if !s.holdsData g then s
    else if double then s.hardError g
    else if s.errs.any fun e => e.1 == g then s else { s with errs := s.errs ++ [(g, false)] })

/-- MEMORY_TRAINING_COMPLETE (R378). -/
def execMemoryTrainingComplete (s : State) : Host.Outcome State Fault Refusal := .next { s with fw := { s.fw with trained := true } }

/-- LINK_EQUALISATION_COMPLETE (R375, R378). -/
def execLinkEqualisationComplete (s : State) : Host.Outcome State Fault Refusal := .next { s with fw := { s.fw with equalised := true } }

/-- NATIVE_CODE_CACHE_EVICTION: a core's native block is dropped (R57, R58). -/
def execNativeCodeCacheEviction (core ctx : Nat) (va : W64) (s : State) : Host.Outcome State Fault Refusal :=
  .next (s.setCore core fun c => { c with code := c.code.filter fun e => !(e.ctx == ctx && e.va == va) })

end Sys2Proof.Machine
end

