-- ==== Sys2Proof/Machine/HostPort.lean ====
section
/-! DEFINITION. The host port (R365 to R371): posted writes with their routes and hold rule, doorbells, reads, AtomicOps, the registers
of BAR 0, a function frozen and reset, and the taking of events, which lets in what waited for room. -/
namespace Sys2Proof.Machine

/-- The bytes of BAR 2. -/
def bar2 : Nat := 2 ^ 39

/-- The function is frozen: its later requests are dropped (R365). -/
def State.freezeHost (s : State) : State := { s with host := { s.host with frozen := true } }

/-- A completion goes to the host. -/
def State.completion (s : State) (c : Completion) : State := { s with host := { s.host with completions := s.host.completions ++ [c] } }

/-- A request that breaks R365: it completes with an error, and the function is frozen. -/
def State.badRequest (s : State) : State := (s.completion .error).freezeHost

/-- A step of the host's function, dropped while it is frozen (R365). -/
def State.hostStep (s : State) (f : State → State) : Host.Outcome State Fault Refusal := .next (if s.host.frozen then s else f s)

/-! ### Posted accesses (R369, R370) -/

/-- The compute die beside the stack that holds an address (R247, R369). -/
def routeOf (pa : Nat) : Nat := pa / 2048 % 4

/-- The routes of a write: the dies of its lines. -/
def routesOf (off len : Nat) : List Nat := ((lineParts off len).map fun p => routeOf (off + p.1)).eraseDups

/-- A doorbell's effect (R370, R371): the write offset modulo the ring, unless it is no multiple of 8 or would empty a ring that
holds packets. -/
def State.ringBell (s : State) (ctx q : Nat) (off : W64) : State :=
  match s.queue? ctx q with
  | none => s
  | some y =>
    let w := off.toNat % y.size
    if off.toNat % 8 != 0 || (w == y.rd && y.wr != y.rd) then s
    else (s.setQueue ctx q fun y => { y with wr := w }).event (.doorbell ctx q)

/-- An AtomicOp at its line's home (R369): the old bytes; a CAS compares with the first operand and writes the second. -/
def State.hostAtomic (s : State) (op : HostAop) (wide : Bool) (off : Nat) (a b : W64) : State :=
  let n := if wide then 8 else 4
  let s := (s.atHome none off n).dropLags off n
  let old := leNat (rdBytes s.mem off n)
  let cut (v : W64) : Nat := v.toNat % 2 ^ (8 * n)
  let new := match op with
    | .fetchAdd => some (old + cut a)
    | .swap => some (cut a)
    | .cas => if old == cut a then some (cut b) else none
  let s := match new with
    | some v => s.setHome off (leBytes n v)
    | none => s
  s.completion (.data (leBytes n old) (s.poisoned off n))

/-- A write of the ring word: 1 rings an idle mailbox, and the command in progress is what the mailbox then holds; every other write
leaves it (R372). -/
def State.ringMail (s : State) (v : W64) : State :=
  if v == 1 && s.host.ring == 0 then
    ({ s with host := { s.host with ring := 1, cmd := s.host.mail } } : State).event .command
  else s

/-- A mailbox register written (R368, R372). -/
def State.mailWrite (s : State) (off : Nat) (v : W64) : State :=
  if off < 0x1020 then { s with host := { s.host with mail := s.host.mail.set ((off - 0x1000) / 8) v } }
  else if off == 0x1020 then s.ringMail v
  else { s with host := { s.host with status := v.setWidth 8 } }

/-- A posted access may be let in: no earlier one is left, or with Relaxed Ordering no earlier AtomicOp is; a doorbell and a ring of
the mailbox also need room for their event (R341, R369, R370). -/
def State.mayEnter (s : State) (earlier : List Posted) (p : Posted) : Bool :=
  (earlier.isEmpty || (p.ro && earlier.all fun q => match q.op with
    | .atomic .. => false
    | _ => true)) &&
  match p.op with
  | .bell .. => s.eventRoom
  | .mail off _ => off != 0x1020 || s.eventRoom
  | _ => true

/-- A posted access let in: a write begins its routes, the others act. -/
def State.enter (s : State) (p : Posted) : State :=
  let drop (s : State) : State := { s with host := { s.host with posted := s.host.posted.filter fun q => q.id != p.id } }
  match p.op with
  | .write off bytes _ =>
    if bytes.isEmpty then drop s
    else
      let begin' (q : Posted) : Posted := if q.id == p.id then { q with entered := true, routes := routesOf off bytes.length } else q
      { s with host := { s.host with posted := s.host.posted.map begin' } }
  | .mail off v => (drop s).mailWrite off v
  | .bell c q off => (drop s).ringBell c q off
  | .atomic op wide off a b => (drop s).hostAtomic op wide off a b

/-- Every posted access that may be let in, in order. -/
def State.letIn : Nat → State → State
  | 0, s => s
  | n + 1, s =>
    match s.host.posted.find? fun p => !p.entered && s.mayEnter (s.host.posted.takeWhile fun q => q.id != p.id) p with
    | some p => State.letIn n (s.enter p)
    | none => s

/-- A posted access arrives. -/
def State.post (s : State) (op : HostOp) (ro : Bool) : State :=
  let (s, id) := s.newId
  let p : Posted := { id := id, op := op, ro := ro, entered := false, routes := [] }
  let s := { s with host := { s.host with posted := s.host.posted ++ [p] } }
  s.letIn s.host.posted.length

/-- DOORBELL (R370): posted, and discarded when it acts if its queue does not exist. -/
def execDoorbell (ctx queue : Nat) (off : W64) (s : State) : Host.Outcome State Fault Refusal :=
  s.hostStep fun s => if ctx < 64 && queue < 256 then s.post (.bell ctx queue off) false else s.freezeHost

/-- HOST_POSTED_WRITE to BAR 2, of at most 512 bytes (R367, R369); with EP its TLP carries poisoned data (R360). -/
def execHostPostedWrite (off : Nat) (bytes : List W8) (attr : TlpAttr) (s : State) : Host.Outcome State Fault Refusal :=
  s.hostStep fun s => if off + bytes.length ≤ bar2 && bytes.length ≤ 512 then s.post (.write off bytes attr.ep) attr.ro else s.freezeHost

/-- Bytes of a TLP written at their home, their granules poisoned where the TLP was (R360, R369). -/
def State.tlpWrite (s : State) (pa : Nat) (bs : List W8) (ep : Bool) : State :=
  let s := s.sysWrite pa bs
  if ep then (List.range ((pa % 16 + bs.length + 15) / 16)).foldl (fun s j => s.mark (s.homeAt (pa / 128)) (pa / 16 * 16 + 16 * j) 9) s else s

/-- ROUTE_ACKNOWLEDGE: the lines of one route take their places at their homes (R369). -/
def execRouteAcknowledge (id die : Nat) (s : State) : Host.Outcome State Fault Refusal :=
  .next (match s.host.posted.find? fun p => p.id == id && p.entered && p.routes.contains die with
    | none => s
    | some p =>
      match p.op with
      | .write off bytes ep =>
        let parts := (lineParts off bytes.length).filter fun q => routeOf (off + q.1) == die
        let s := parts.foldl (fun s q => s.tlpWrite (off + q.1) ((bytes.drop q.1).take q.2) ep) s
        let ack (q : Posted) : Posted := if q.id == id then { q with routes := q.routes.filter (· != die) } else q
        let left := (s.host.posted.map ack).filter fun q => !(q.entered && q.routes.isEmpty)
        let s := { s with host := { s.host with posted := left } }
        s.letIn s.host.posted.length
      | _ => s)

/-- HOST_READ of BAR 2: it completes once every earlier posted write is acknowledged, with the poison of what it read (R362, R369). -/
def execHostRead (off len : Nat) (s : State) : Host.Outcome State Fault Refusal :=
  s.hostStep fun s =>
    if bar2 < off + len then s.badRequest
    else if !s.host.posted.isEmpty then s
    else (s.sysFix off len).completion (.data (s.sysRead off len) (s.poisoned off len))

/-- HOST_ATOMICOP to BAR 2: one that is not aligned completes with an error. An offset beyond BAR 2 stands for every AtomicOp that is not
to BAR 2, one to BAR 0 among them: it breaks R365 (R369). -/
def execHostAtomicop (op : HostAop) (wide : Bool) (off : Nat) (a b : W64) (s : State) : Host.Outcome State Fault Refusal :=
  s.hostStep fun s =>
    let n := if wide then 8 else 4
    if bar2 < off + n then s.badRequest
    else if off % n != 0 then s.completion .error
    else s.post (.atomic op wide off a b) false

/-- FUNCTION_LEVEL_RESET (R365). -/
def execFunctionLevelReset (s : State) : Host.Outcome State Fault Refusal :=
  .next { s with host := { s.host with frozen := false } }

/-! ### Events (R341) -/

/-- FIRMWARE_EVENT_TAKE: a firmware core that has finished its event takes the next (R341); a command with no assigned OP is
malformed. The accesses of the host that waited for room in the event queue are let in (R341, R370, R372). -/
def execFirmwareEventTake (fw : Nat) (s : State) : Host.Outcome State Fault Refusal :=
  .next (if 12 ≤ fw || ((s.fw.held.getD fw none).map s.unfinished).getD false then s
  else
    let s := s.takeEvent fw
    let s := if s.fw.held.getD fw none == some .command && s.badCommand then s.answer 1 else s
    s.letIn s.host.posted.length)

/-! ### BAR 0 (R366, R368, R379) -/

/-- The width in bytes of the counter at an offset. -/
def counterBytes (off : Nat) : Option Nat :=
  if 0x10000 ≤ off && off < 0x100C0 && off % 4 == 0 && off % 32 < 28 then some 4
  else if 0x10200 ≤ off && off < 0x10218 && off % 4 == 0 then some 4
  else if 0x10300 ≤ off && off < 0x10314 && off % 4 == 0 then some 4
  else if 0x10340 ≤ off && off < 0x10360 && off % 4 == 0 then some 4
  else if 0x10400 ≤ off && off < 0x10600 && off % 2 == 0 then some 2
  else if 0x10600 ≤ off && off < 0x10608 && off % 2 == 0 then some 2
  else none

/-- The doorbell at an offset: context and queue. -/
def bellAt (off : Nat) : Option (Nat × Nat) :=
  if 0x1000000 ≤ off && off < 0x1020000 && off % 8 == 0 then some ((off - 0x1000000) / 2048, (off - 0x1000000) % 2048 / 8) else none

/-- The other registers of BAR 0: value and width in bytes. -/
def State.register (s : State) (off : Nat) : Option (W64 × Nat) :=
  if 0x1000 ≤ off && off < 0x1020 && off % 8 == 0 then some (Config.blindRead off, 8)
  else if off == 0x1020 then some (s.host.ring, 8)
  else if off == 0x1028 then some (s.host.status.setWidth 64, 8)
  else if off == 0x2000 then some (s.regs.power.setWidth 64, 2)
  else if 0x2010 ≤ off && off < 0x2024 && off % 2 == 0 then some ((s.regs.temps.getD ((off - 0x2010) / 2) 0).setWidth 64, 2)
  else if off == 0x2040 then some (s.regs.throttle, 8)
  else if off == 0x2048 then some (if s.fw.bringUp then 0 else 1, 8)
  else if (bellAt off).isSome then some (Config.blindRead off, 8)
  else none

/-- The sensors measured as they are read: the package power, or a die's temperature (R379, log 89). -/
def State.sense (s : State) (off : Nat) : State :=
  let v := Config.sensor off s.fresh
  if off == 0x2000 then { s with regs := { s.regs with power := v }, fresh := s.fresh + 1 }
  else if 0x2010 ≤ off && off < 0x2024 && off % 2 == 0 then
    { s with regs := { s.regs with temps := s.regs.temps.set ((off - 0x2010) / 2) v }, fresh := s.fresh + 1 }
  else s

/-- COUNTER_READ: a read of BAR 0; a counter is cleared by it, and an offset without a register freezes the function (R365, R366,
R368). -/
def execCounterRead (off : Nat) (s : State) : Host.Outcome State Fault Refusal :=
  s.hostStep fun s =>
    match counterBytes off with
    | some n =>
      let v := ((s.regs.counters.find? fun p => p.1 == off).map (·.2)).getD 0
      ({ s with regs := { s.regs with counters := s.regs.counters.filter fun p => p.1 != off } }).completion (.data (leBytes n v) false)
    | none =>
      let s := s.sense off
      match s.register off with
      | some (v, n) => s.completion (.data (leBytes n v.toNat) false)
      | none => s.badRequest

/-- REGISTER_WRITE: a posted write of BAR 0, held as one of BAR 2 is (R369, R372); a register that is only read keeps its value, and an
offset without a register freezes the function (R365, R368). -/
def execRegisterWrite (off : Nat) (val : W64) (s : State) : Host.Outcome State Fault Refusal :=
  s.hostStep fun s =>
    if 0x1000 ≤ off && off ≤ 0x1028 && off % 8 == 0 then s.post (.mail off val) false
    else match bellAt off with
      | some (c, q) => s.post (.bell c q val) false
      | none => if (counterBytes off).isSome || (s.register off).isSome then s else s.freezeHost

end Sys2Proof.Machine
end

