-- ==== Sys2Proof/Machine/Signature.lean ====
section
/-! DEFINITION. The two signatures of a firmware image (R376): SHA-256 and SHA-384 (FIPS 180-4), ECDSA on P-384 (FIPS 186), and LMS
with LMS_SHA256_M32_H15 and LMOTS_SHA256_N32_W8 (RFC 8554), under the keys fused at manufacture (log 6). -/
namespace Sys2Proof.Machine

/-! ### SHA-2 -/

/-- The greatest `r` below `2 ^ bits`, added to the one given, whose k-th power is at most `n`. -/
def rootOf (k n : Nat) : Nat → Nat → Nat
  | 0, r => r
  | bits + 1, r => rootOf k n bits (if (r + 2 ^ bits) ^ k ≤ n then r + 2 ^ bits else r)

/-- The first 80 primes. -/
def primes : List Nat := (List.range 410).filter fun n => 2 ≤ n && (List.range n).all fun d => d < 2 || n % d != 0

/-- The first `w` bits of the fraction of the k-th root of a number. -/
def rootFrac (k w n : Nat) : BitVec w := BitVec.ofNat w (rootOf k (n * 2 ^ (k * w)) (w + 5) 0)

/-- What tells SHA-256 from SHA-384 beside the word: its rounds, its rotations, and the numbers whose roots begin it. -/
structure Sha where
  rounds : Nat
  big0 : List Nat
  big1 : List Nat
  small0 : List Nat
  small1 : List Nat
  start : List Nat
  out : Nat
  deriving DecidableEq, Repr, Inhabited

/-- SHA-256; the last of the small rotations are shifts. -/
def sha256Of : Sha :=
  { rounds := 64, big0 := [2, 13, 22], big1 := [6, 11, 25], small0 := [7, 18, 3], small1 := [17, 19, 10], start := primes.take 8, out := 32 }

/-- SHA-384. -/
def sha384Of : Sha :=
  { rounds := 80, big0 := [28, 34, 39], big1 := [14, 18, 41], small0 := [1, 8, 7], small1 := [19, 61, 6]
    start := (primes.drop 8).take 8, out := 48 }

/-- Three rotations mixed. -/
def mixBig {w : Nat} (x : BitVec w) (r : List Nat) : BitVec w :=
  x.rotateRight (r.getD 0 0) ^^^ x.rotateRight (r.getD 1 0) ^^^ x.rotateRight (r.getD 2 0)

/-- Two rotations and a shift mixed. -/
def mixSmall {w : Nat} (x : BitVec w) (r : List Nat) : BitVec w :=
  x.rotateRight (r.getD 0 0) ^^^ x.rotateRight (r.getD 1 0) ^^^ (x >>> r.getD 2 0)

/-- A number's bytes, the highest first. -/
def beBytes (n v : Nat) : List W8 := (leBytes n v).reverse
/-- The number of some bytes, the highest first. -/
def beNat (bs : List W8) : Nat := leNat bs.reverse

/-- The message schedule of a block, the latest word first. -/
def schedule {w : Nat} (h : Sha) (block : List W8) : List (BitVec w) :=
  let z := w / 8
  let first : List (BitVec w) := (List.range 16).map fun i => BitVec.ofNat w (beNat ((block.drop (z * i)).take z))
  (List.range (h.rounds - 16)).foldl (fun (a : List (BitVec w)) _ =>
    (mixSmall (a.getD 1 0) h.small1 + a.getD 6 0 + mixSmall (a.getD 14 0) h.small0 + a.getD 15 0) :: a) first.reverse

/-- One round. -/
def shaRound {w : Nat} (h : Sha) (v : List (BitVec w)) (kw : BitVec w) : List (BitVec w) :=
  let x (i : Nat) : BitVec w := v.getD i 0
  let t1 := x 7 + mixBig (x 4) h.big1 + ((x 4 &&& x 5) ^^^ (~~~x 4 &&& x 6)) + kw
  let t2 := mixBig (x 0) h.big0 + ((x 0 &&& x 1) ^^^ (x 0 &&& x 2) ^^^ (x 1 &&& x 2))
  [t1 + t2, x 0, x 1, x 2, x 3 + t1, x 4, x 5, x 6]

/-- A block taken into the hash. -/
def shaBlock {w : Nat} (h : Sha) (ks v : List (BitVec w)) (block : List W8) : List (BitVec w) :=
  let ws : List (BitVec w) := (schedule h block).reverse
  let r := (ks.zip ws).foldl (fun a p => shaRound h a (p.1 + p.2)) v
  (v.zip r).map fun p => p.1 + p.2

/-- A message padded to whole blocks of `z` bytes, its length in bits at the end. -/
def shaPad (z : Nat) (m : List W8) : List W8 :=
  let used := m.length + 1 + z / 8
  m ++ [0x80] ++ List.replicate ((z - used % z) % z) 0 ++ beBytes (z / 8) (8 * m.length)

/-- The hash of a message in words of `w` bits. -/
def sha (w : Nat) (h : Sha) (m : List W8) : List W8 :=
  let z := 2 * w
  let p := shaPad z m
  let ks : List (BitVec w) := (primes.take h.rounds).map (rootFrac 3 w)
  let v := (List.range (p.length / z)).foldl (fun v i => shaBlock h ks v ((p.drop (z * i)).take z)) (h.start.map (rootFrac 2 w))
  (v.flatMap fun x => beBytes (w / 8) x.toNat).take h.out

/-- SHA-256. -/
def sha256 : List W8 → List W8 := sha 32 sha256Of
/-- SHA-384. -/
def sha384 : List W8 → List W8 := sha 64 sha384Of

/-! ### ECDSA on P-384 -/

/-- The field. -/
def p384 : Nat := 2 ^ 384 - 2 ^ 128 - 2 ^ 96 + 2 ^ 32 - 1
/-- The order of the base point. -/
def n384 : Nat := 0xFFFFFFFFFFFFFFFFFFFFFFFFFFFFFFFFFFFFFFFFFFFFFFFFC7634D81F4372DDF581A0DB248B0A77AECEC196ACCC52973
/-- The base point. -/
def g384 : Nat × Nat :=
  (0xAA87CA22BE8B05378EB1C71EF320AD746E1D3B628BA79B9859F741E082542A385502F25DBF55296C3A545E3872760AB7,
   0x3617DE4A96262C6F5D9E98BF9292DC29F8F41DBD289A147CE9DA3113B5F0B8C00A60B1CE1D7E819D7A431D7C90EA0E5F)

/-- A power modulo m, over the lowest bits of the exponent. -/
def powMod (m a e : Nat) : Nat → Nat
  | 0 => 1 % m
  | bits + 1 => let r := powMod m (a * a % m) (e / 2) bits; if e % 2 == 1 then r * a % m else r

/-- The inverse modulo a prime of at most 384 bits. -/
def invMod (m a : Nat) : Nat := powMod m (a % m) (m - 2) 384

/-- A point with the slope of its line: the third point, mirrored. -/
def chord (l x y x' : Nat) : Nat × Nat :=
  let x3 := (l * l + 2 * p384 - x - x') % p384
  (x3, (l * (x + p384 - x3) + p384 - y) % p384)

/-- The sum of two points of the curve, none being the point at infinity. -/
def addPoint : Option (Nat × Nat) → Option (Nat × Nat) → Option (Nat × Nat)
  | none, b => b
  | a, none => a
  | some (x, y), some (x', y') =>
    if x == x' then
      if (y + y') % p384 == 0 then none
      else some (chord ((3 * x * x + p384 - 3) * invMod p384 (2 * y) % p384) x y x')
    else some (chord ((y' + p384 - y) * invMod p384 (x' + p384 - x) % p384) x y x')

/-- A multiple of a point, over the lowest bits of the factor. -/
def mulPoint (p : Option (Nat × Nat)) (k : Nat) : Nat → Option (Nat × Nat)
  | 0 => none
  | bits + 1 =>
    let r := mulPoint (addPoint p p) (k / 2) bits
    if k % 2 == 1 then addPoint r p else r

/-- An ECDSA signature, r and then s in 48 bytes each, holds for a message under a key. -/
def ecdsaOk (key : Nat × Nat) (m sig : List W8) : Bool :=
  let r := beNat (sig.take 48)
  let s := beNat ((sig.drop 48).take 48)
  let w := invMod n384 s
  let u (v : Nat) : Nat := v * w % n384
  sig.length == 96 && 1 ≤ r && r < n384 && 1 ≤ s && s < n384 &&
    ((addPoint (mulPoint (some g384) (u (beNat (sha384 m))) 384) (mulPoint (some key) (u r) 384)).map fun p => p.1 % n384) == some r

/-! ### LMS -/

/-- One chain of an LMOTS signature, from step `a` to 255. -/
def otsChain (id q : List W8) (i a : Nat) (y : List W8) : List W8 :=
  (List.range (255 - a)).foldl (fun t j => sha256 (id ++ q ++ beBytes 2 i ++ beBytes 1 (a + j) ++ t)) y

/-- The public key that an LMOTS signature of a message leads to (RFC 8554, 4.6). -/
def otsKey (id q m sig : List W8) : List W8 :=
  let d := sha256 (id ++ q ++ beBytes 2 0x8181 ++ (sig.drop 4).take 32 ++ m)
  let digits := d ++ beBytes 2 ((d.map fun b => 255 - b.toNat).foldl (· + ·) 0)
  let zs := (List.range 34).flatMap fun i => otsChain id q i (digits.getD i 0).toNat ((sig.drop (36 + 32 * i)).take 32)
  sha256 (id ++ q ++ beBytes 2 0x8080 ++ zs)

/-- The root that a leaf leads to along a path of 15 nodes (RFC 8554, 5.4). -/
def lmsRoot (id leaf path : List W8) (node : Nat) : List W8 :=
  ((List.range 15).foldl (fun (a : List W8 × Nat) i =>
    let y := (path.drop (32 * i)).take 32
    let two := if a.2 % 2 == 1 then y ++ a.1 else a.1 ++ y
    (sha256 (id ++ beBytes 4 (a.2 / 2) ++ beBytes 2 0x8383 ++ two), a.2 / 2)) (leaf, node)).1

/-- The bytes of an LMS signature: the leaf's number, the LMOTS signature, the type and the path. -/
def lmsLen : Nat := 4 + (4 + 32 + 34 * 32) + 4 + 15 * 32

/-- An LMS signature holds for a message under a key: an identifier and a root. -/
def lmsOk (key : List W8 × List W8) (m sig : List W8) : Bool :=
  let q := sig.take 4
  let ots := (sig.drop 4).take 1124
  sig.length == lmsLen && beNat q < 2 ^ 15 && beNat (ots.take 4) == 4 && beNat ((sig.drop 1128).take 4) == 7 &&
    lmsRoot key.1 (sha256 (key.1 ++ beBytes 4 (2 ^ 15 + beNat q) ++ beBytes 2 0x8282 ++ otsKey key.1 q m ots)) (sig.drop 1132)
      (2 ^ 15 + beNat q) == key.2

/-- The signatures of an image, which follow its header of 256 bytes and its body, hold for these two (R376). -/
def signaturesOk (body : Nat) (image : List W8) : Bool :=
  let m := image.take (256 + body)
  let rest := image.drop (256 + body)
  ecdsaOk Config.ecdsaKey m (rest.take 96) && lmsOk Config.lmsKey m ((rest.drop 96).take lmsLen)

end Sys2Proof.Machine
end

