-- ==== Sys2Proof/Machine/Commands.lean ====
section
/-! DEFINITION. The driver's commands (R16, R262, R267, R358, R372 to R378), each read from the mailbox, and the device's reset. -/
namespace Sys2Proof.Machine

/-! ### The mailbox (R372) -/

/-- Word `i` of the command in progress. -/
def State.mail (s : State) (i : Nat) : Nat := (s.host.cmd.getD i 0).toNat
/-- CTX. -/
def State.cmdCtx (s : State) : Nat := s.mail 0 / 2 ^ 50 % 64
/-- PART. -/
def State.cmdPart (s : State) : Nat := s.mail 0 / 2 ^ 48 % 4
/-- QUEUE. -/
def State.cmdQueue (s : State) : Nat := s.mail 0 / 2 ^ 40 % 256

/-- The command in progress, of an OP, which a firmware core handles as an event (R341, R372): `f` acts and answers with a status, or
with none while the command goes on; a C0 whose low bits are not zero is malformed. A word of C1 to C3 that R372's table shows as '—' is
ignored (DESIGN CHOICE, log 116). -/
def State.command (s : State) (op : Nat) (f : State → State × Option W8) : Host.Outcome State Fault Refusal :=
  .next (if s.host.ring != 1 || s.mail 0 / 2 ^ 56 != op || !s.fw.held.contains (some .command) then s
  else if s.mail 0 % 2 ^ 40 != 0 then s.answer 1
  else match f s with
    | (s, some st) => s.answer st
    | (s, none) => s)

/-- A status the manual does not state (log 28). -/
def openSt (op : Nat) : Option W8 := some (Config.openStatus op)

/-- Bytes that lie in HBM or in host space, the first of them at least (R372). -/
def placed (pa len : Nat) : Bool := (isHbm pa && isHbm (pa + (len - 1))) || (isHost pa && isHost (pa + (len - 1)))

/-! ### CTXSET (R373) -/

/-- The context has a resident or saved launch (R372). -/
def State.ctxBusy (s : State) (ctx : Nat) : Bool :=
  s.launches.any fun l => l.id.ctx == ctx && (s.resident l.id || l.phase == .saved || !l.saved.isEmpty)

/-- A ring field. -/
def ringOf (w : Nat) : Ring := { base := w / 4096 % 2 ^ 42 * 4096, log := w % 32 }

/-- A ring field is good: not zero, its other bits zero, its whole extent in HBM or host space (R373). -/
def ringOk (w head size : Nat) : Bool :=
  let r := ringOf w
  w != 0 && w / 2 ^ 54 == 0 && w / 32 % 128 == 0 && placed r.base (head + size * 2 ^ r.log)

/-- A configuration block's words are good (R373). -/
def blockOk (w : Nat → Nat) : Bool :=
  let rlim := w 9 % 256
  w 0 % 2048 == 0 && isHbm (w 0 + 2047) && w 1 % 262144 == 0 && isHbm (w 1 + 262143) && isHbm (w 2) && w 2 + w 3 ≤ 0x8000000000 &&
  ringOk (w 4) 64 16 && ringOk (w 5) 64 512 && ringOk (w 6) 64 16 && ringOk (w 7) 4096 524288 && placed (w 8) 4096 &&
  (rlim ≤ 7 || rlim == 255) && w 9 / 256 == 0 && (List.range 4).all fun i => w (12 + i) == 0

/-- The context a block sets up; one that was there keeps its queues and its counts, but for the launches accepted, which are counted
anew (R29); one accepted already, and neither resident nor saved, goes on (log 90). -/
def State.ctxOf (s : State) (ctx part : Nat) (w : Nat → Nat) : Ctx :=
  let old := (s.ctx? ctx).getD
    { num := ctx, part := part, legend := 0, root := 0, save := 0, saveSize := 0, saveUsed := 0, fring := ringOf 0, sring := ringOf 0
      oring := ringOf 0, surr := ringOf 0, groups := 0, rlim := 0, dthr := 0, ydl := 0, fseq := 0, sseq := 0, launches := 0, era := 0
      told := [], colls := [], queues := [] }
  { old with
    part := part, legend := w 0, root := w 1, save := w 2, saveSize := w 3, saveUsed := 0, fring := ringOf (w 4), sring := ringOf (w 5)
    oring := ringOf (w 6), surr := ringOf (w 7), groups := w 8, rlim := w 9 % 256, dthr := w 10, ydl := w 11, launches := 0
    era := old.era + 1 }

/-- The firmware core that handles the command. -/
def State.cmdCore (s : State) : Nat := (s.fw.held.findIdx? fun e => e == some .command).getD 0

/-- CTXSET; poison in the block is a fault against the context where there is one, and its status then the model leaves free, but where the
context has a resident or saved launch (R362, log 109). -/
def execCtxset (s : State) : Host.Outcome State Fault Refusal :=
  s.command 1 fun s =>
    let a := s.mail 1
    if !placed a 128 then (s, some 1)
    else if (s.sysMark a 128).isSome then
      ((if (s.ctx? s.cmdCtx).isSome then s.readFor s.cmdCtx 5 s.cmdCore a 128 else s.sysFix a 128), if s.ctxBusy s.cmdCtx then some 2 else openSt 1)
    else
      let s := s.sysFix a 128
      let w (i : Nat) : Nat := leNat (s.sysRead (a + 8 * i) 8)
      if !blockOk w then (s, some 1)
      else if s.ctxBusy s.cmdCtx then (s, some 2)
      else if (s.partDies s.cmdPart).isEmpty then (s, openSt 1)
      else
        let c := s.ctxOf s.cmdCtx s.cmdPart w
        ({ s with ctxs := (s.ctxs.filter fun x => x.num != s.cmdCtx) ++ [c] }, some 0)

/-! ### Queues (R371, R372) -/

/-- QSET. -/
def execQset (s : State) : Host.Outcome State Fault Refusal :=
  s.command 2 fun s =>
    let (base, size, st) := (s.mail 1, s.mail 2, s.mail 3)
    if !(base % 4096 == 0 && st % 64 == 0 && ((List.range 13).any fun k => size == 2 ^ (12 + k)) && placed base size && placed st 64) then
      (s, some 1)
    else if (s.ctx? s.cmdCtx).isNone then (s, openSt 2)
    else if (s.queue? s.cmdCtx s.cmdQueue).isSome then (s, some 2)
    else
      let q : Queue :=
        { num := s.cmdQueue, base := base, size := size, status := st, wr := 0, rd := 0, pops := 0, frozen := false, tokens := 0
          window := [], evals := 0, eval := 0 }
      ((s.setCtx s.cmdCtx fun c => { c with queues := c.queues ++ [q] }).writeStatus q, some 0)

/-- QRESET: the packets are discarded with their parked lines, so that no launch still running completes one of them. -/
def execQreset (s : State) : Host.Outcome State Fault Refusal :=
  s.command 3 fun s =>
    let (c, n) := (s.cmdCtx, s.cmdQueue)
    match s.queue? c n with
    | some q =>
      if !q.frozen then (s, some 2)
      else
        let new : Queue := { q with wr := 0, rd := 0, pops := 0, frozen := false, tokens := 0, window := [] }
        let cut (l : Launch) : Launch := if l.id.ctx == c && l.queue == n then { l with pos := 2 ^ 64 } else l
        let s := { s with
          launches := s.launches.map cut
          faultQ := s.faultQ.filter fun p => match p.of' with
            | .packet k => !(k.ctx == c && k.queue == n)
            | _ => true }
        ((s.setQueue c n fun _ => new).writeStatus new, some 0)
    | none => (s, some 2)

/-- QRESUME. -/
def execQresume (s : State) : Host.Outcome State Fault Refusal :=
  s.command 4 fun s =>
    match s.queue? s.cmdCtx s.cmdQueue with
    | some q =>
      if !q.frozen then (s, some 2)
      else
        let new : Queue := { q with frozen := false }
        (((s.setQueue s.cmdCtx s.cmdQueue fun _ => new).writeState new).event (.tokens s.cmdCtx s.cmdQueue), some 0)
    | none => (s, some 2)

/-! ### Translations and faults (R262, R267) -/

/-- An entry lies in a range of a context. -/
def TlbEnt.inRange (e : TlbEnt) (ctx va len : Nat) : Bool := e.ctx == ctx && e.va < va + len && va < e.va + 2 ^ e.bits

/-- The addresses of a context that accesses still to perform hold translated: of blocks in flight, of every update of the sparse
tokens in a window, and of far atomics on their way (R70, R213, R257, R262). -/
def State.heldAt (s : State) (ctx : Nat) : List Nat :=
  ((s.warps.filter fun x => x.id.team.launch.ctx == ctx).flatMap fun x => (x.run.map fun r =>
    (r.sslots.flatMap fun sl => match sl with
      | .stores _ _ ws => (ws.filter fun w => w.space != .spad).map fun w => w.va.toNat
      | .atoms _ as => as.map fun a => a.va.toNat
      | _ => []) ++
    r.effs.flatMap fun e => match e.2 with
      | .drain _ _ ws => (ws.filter fun w => w.space != .spad).map fun w => w.va.toNat
      | _ => []).getD []) ++
  (((s.toks.filter fun t => t.pa.isSome).flatMap fun t => t.updates).filter fun u =>
    ((s.msg? u.1).map fun m => m.warp.team.launch.ctx) == some ctx).map (fun u => u.2.toNat) ++
  (s.lags.filter fun g => g.warp.team.launch.ctx == ctx).map fun g => g.va.toNat

/-- TLBINV: it completes once every access translated by the entries it names has performed, whether a TLB still holds them or not
(log 69); the entries are dropped then. -/
def execTlbinv (s : State) : Host.Outcome State Fault Refusal :=
  s.command 5 fun s =>
    let (c, va, len) := (s.cmdCtx, s.mail 1, s.mail 2)
    let hit (e : TlbEnt) : Bool := e.inRange c va len
    let named := (s.cores.flatMap fun c => c.tlb.filter hit) ++ ((s.tlb2.filter fun p => hit p.2).map fun p => p.2) ++
      s.past.filter hit
    let inPage (a : Nat) : Bool := a / 65536 * 65536 < va + len && va < (a / 65536 + 1) * 65536
    if (s.heldAt c).any fun a => inPage a || named.any fun e => e.covers c a then (s, none)
    else ({ s with
      cores := s.cores.map fun c => { c with tlb := c.tlb.filter fun e => !hit e }
      tlb2 := s.tlb2.filter fun p => !hit p.2
      past := s.past.filter fun e => !hit e }, some 0)

/-- FRESUME: warps and lines parked on records up to a SEQ replay. -/
def execFresume (s : State) : Host.Outcome State Fault Refusal :=
  s.command 6 fun s =>
    let (c, n) := (s.cmdCtx, s.mail 1)
    let ws := (s.warps.filter fun x => x.id.team.launch.ctx == c && match x.phase with
      | .parked k _ _ => k ≤ n
      | _ => false).map (·.id)
    let s := ws.foldl (fun s w => s.unpark w) s
    let loose (q : Routine) : Routine := match q.parked with
      | some (k, _, _) => if k ≤ n then { q with parked := none } else q
      | none => q
    let free (x : Warp) : Warp := if x.id.team.launch.ctx == c then { x with routine := x.routine.map loose } else x
    let release (p : PLine) : PLine := if p.ctx == c && p.seq ≤ n then { p with released := true } else p
    let s := { s with warps := s.warps.map free, faultQ := s.faultQ.map release }
    (ws.foldl (fun s w => s.atBoundary w) s, some 0)

/-- A parked line declared unrepairable: its source raises a protection fault with cause 0x08. -/
def State.denyLine (s : State) (p : PLine) : State :=
  let s := { s with faultQ := s.faultQ.filter fun q => !(q.ctx == p.ctx && q.seq == p.seq) }
  match p.of' with
  | .copy id =>
    match s.copies.find? fun c => c.id == id with
    | some c =>
      let (ek, ei) := if c.ovl then (2, c.core) else (1, dieOf c.core)
      (s.cancelCopy id).faultAgainst c.warp (s.engineStop c.warp ek ei 0x0A 8 p.va [])
    | none => s
  | .msg id =>
    match s.msg? id with
    | some m => s.msgFault m (.bad 8) p.va
    | none => s
  | .token id =>
    match (s.toks.find? fun t => t.id == id).bind fun t => (t.msgs.head?).bind s.msg? with
    | some m => s.msgFault m (.bad 8) p.va
    | none => s
  | .packet k => s.fwFault k 0x0A 8 p.va []
  | .save w => s.fault w (s.engineStop w 1 (dieOf (s.coreOf w)) 0x0A 8 p.va [])

/-- FDENY: the source of a record raises a protection fault with cause 0x08. -/
def execFdeny (s : State) : Host.Outcome State Fault Refusal :=
  s.command 7 fun s =>
    let (c, n) := (s.cmdCtx, s.mail 1)
    let at' (x : Warp) : Option (Lanes × W64) := match x.phase, x.routine.bind fun q => q.parked with
      | .parked k l a, _ => if k == n then some (l, a) else none
      | _, some (k, l, a) => if k == n then some (l, a) else none
      | _, none => none
    let ws := s.warps.filterMap fun x => if x.id.team.launch.ctx == c then (at' x).map fun p => (x.id, p) else none
    let s := ws.foldl (fun s w => s.fault w.1 (s.stopOf w.1 0x0A 8 w.2.1 (w.2.2 &&& 0x3FFFFFFFFFFFFF) [])) s
    ((s.faultQ.filter fun p => p.ctx == c && p.seq == n && !p.released).foldl (fun s p => s.denyLine p) s, some 0)

/-! ### Code (R374) -/

/-- A launch of a context uses a range of code: its entry, a block one of its warps has started, or one its save names. -/
def State.usesCode (s : State) (l : Launch) (va len : Nat) : Bool :=
  let hit (a : W64) : Bool := va ≤ a.toNat && a.toNat < va + len
  (s.resident l.id || l.phase == .saved || !l.saved.isEmpty) &&
    (hit l.entry || l.started.any hit || l.saved.any fun t => t.warps.any fun x => hit x.pc || x.stack.any fun e => hit e.addr)

/-- CODEINV. -/
def execCodeinv (s : State) : Host.Outcome State Fault Refusal :=
  s.command 8 fun s =>
    let (c, va, len) := (s.cmdCtx, s.mail 1, s.mail 2)
    if s.launches.any fun l => l.id.ctx == c && s.usesCode l va len then (s, some 2)
    else
      let hit (e : CodeEnt) : Bool := e.ctx == c && e.va.toNat < va + len && va < e.va.toNat + 8 * e.words.length
      ({ s with cores := s.cores.map fun k => { k with code := k.code.filter fun e => !hit e } }, some 0)

/-! ### Partitions (R16, R258, R356 to R358) -/

/-- A context's halt is over: its queues, the events of which ended with nothing begun while it faulted, are events again where they have
something to do (R341, R358), and poison raises its fault anew (log 109). -/
def State.reopen (s : State) (ctx : Nat) : State :=
  let s := s.setCtx ctx fun c => { c with told := [] }
  let qs := (((s.ctx? ctx).map fun c => c.queues).getD []).map fun q => q.num
  (qs.filter fun n => s.queueWork ctx n).foldl (fun s n => s.event (.tokens ctx n)) s

/-- A partition whose line is down, with nothing stopped. -/
def Part.lower (p : Part) : Part := { p with up := false, guilty := [], dealt := 0, org := 0, stopped := [], flushed := false }

/-- The contexts that have faulted in a partition's halt. -/
def Part.faulted (p : Part) : List Nat := (p.guilty.map fun g => g.1).eraseDups

/-- HALTREL: refused before every record is written. -/
def execHaltrel (s : State) : Host.Outcome State Fault Refusal :=
  s.command 9 fun s =>
    let p := s.cmdPart
    match s.parts[p]? with
    | none => (s, openSt 9)
    | some x =>
      if !x.up then (s, openSt 9)
      else if !x.flushed || s.unwritten p then (s, some 2)
      else (x.faulted.foldl State.reopen (s.setPart p Part.lower), some 0)

/-- PARTSET: refused while a context is resident, in bring-up, or where a partition it names has no Meridian way; a halt line that is
up falls, and a context keeps its partition's number (log 91). -/
def execPartset (s : State) : Host.Outcome State Fault Refusal :=
  s.command 10 fun s =>
    let of' (d : Nat) : Nat := s.mail 1 / 4 ^ d % 4
    let ways (p : Nat) : W16 := BitVec.ofNat 16 (s.mail 2 / 2 ^ (16 * p))
    if s.fw.bringUp || !s.teams.isEmpty || dies.any fun d => ways (of' d) == 0 then (s, some 2)
    else
      let new : State := { s with parts := (List.range 4).map fun p =>
        { Part.reset (dies.filter fun d => of' d == p) with ways := ways p } }
      ((s.parts.flatMap Part.faulted).foldl State.reopen new, some 0)

/-- A core after a partition reset, its cycle count going on (log 29). -/
def Core.cleared (c : Core) : Core := { Core.reset with cycles := c.cycles }

/-- PARTRESET: the cores and engines of a partition are reset, and the shared ones with them, its contexts' work discarded, and the queues
that held it frozen with cause 0x02 (R197, R365, R372); the throttle mask follows the cores' rates (R379). -/
def execPartreset (s : State) : Host.Outcome State Fault Refusal :=
  s.command 11 fun s =>
    let p := s.cmdPart
    match s.parts[p]? with
    | none => (s, openSt 11)
    | some x =>
      let on (c : Nat) : Bool := x.dies.contains (dieOf c)
      let s := ((List.range 256).filter on).foldl (fun s c => s.stopCore c) s
      let s := s.flushDies x.dies
      let ctxs := (s.ctxs.filter fun c => c.part == p).map fun c => c.num
      let s := ctxs.foldl (fun s c =>
        let lost := s.lostPkts c
        (s.discardCtx c).freezeAll c lost [] 0) s
      let s := (s.l1.filter fun y => on y.core).foldl (fun s y => s.dropL1 y.core y.line) s
      let onCore (g : Granule) : Bool := match g with
        | .ovl c _ | .code c _ _ | .legend c _ => on c
        | _ => false
      let s := { s with
        cores := s.cores.mapIdx fun i (c : Core) => if on i then c.cleared else c
        raised := s.raised.filter fun f => !ctxs.contains f.ctx
        lost := s.lost.filter fun y => y.1 != p
        errs := s.errs.filter fun e => !onCore e.1
        reloads := s.reloads.filter fun g => !onCore g
        frozen := s.frozen.filter fun m => match m with
          | .core c | .fill c => !on c
          | .copy d => d < 4 && !x.dies.contains d
          | .sparse _ | .coll => false }
      let s := { s with regs := { s.regs with throttle := s.throttled } }
      (ctxs.foldl State.reopen (s.setPart p Part.lower), some 0)

/-! ### Images and service (R376 to R378) -/

/-- A field of an image's header: MAGIC, IVER, READ, WRITE or BODY. -/
def State.imageWord (s : State) (a i n : Nat) : Nat := leNat (s.sysRead (a + i) n)

/-- Poison in an image: the fault of a read that no context's work made, against every context of the partitions that hold the line
(R363, log 109). -/
def State.imageFault (s : State) (a len : Nat) : State :=
  match s.markIn a len with
  | none => s
  | some (pa, code) =>
    let hit := s.ctxs.filter fun c => (s.partsWith (pa / 128)).contains c.part
    hit.foldl (fun s c => s.raise (unitStop c.num 5 s.cmdCore code pa)) s

/-- The first words of the records of every saved launch, with its context: where LVER and TVER stand (R351, R377). -/
def State.saveWords (s : State) : List (Nat × Nat) :=
  (s.launches.filter fun l => l.phase == .saved || !l.saved.isEmpty).flatMap fun l =>
    (l.saveAt :: l.saved.map (·.at')).map fun a => (l.id.ctx, a)

/-- The twelve cores restart on an image (R377): the events they held, but for the command's own, are the oldest of the queue again. -/
def State.restart (s : State) (iver : W32) (readable writes : W16) : State :=
  let held := (s.fw.held.filterMap id).filter (· != .command)
  let all := held ++ s.fw.events ++ s.fw.back
  { s with fw := { s.fw with
    iver := iver, readable := readable, writes := writes, held := List.replicate 12 none, events := all.take 4096, back := all.drop 4096 } }

/-- ACTIVATE: it waits for checkpoints in progress; then no team may be resident, and every saved record's version must be
readable. What an image holds in the header bytes that R376 shows as zero beyond its signature makes no difference (DESIGN CHOICE, log 116). -/
def execActivate (s : State) : Host.Outcome State Fault Refusal :=
  s.command 12 fun s =>
    let (a, len) := (s.mail 1, s.mail 2)
    let saving (l : Launch) : Bool := match l.phase with
      | .yielding _ | .stopping => true
      | _ => false
    if !placed a len then (s, some 1)
    else if s.launches.any saving then (s, none)
    else if (s.sysMark a len).isSome then ((s.sysFix a len).imageFault a len, openSt 12)
    else
      let s := s.sysFix a len
      if s.imageWord a 0 8 != 0x4F58465700000001 || !signaturesOk (s.imageWord a 16 8) (s.sysRead a len) then (s, some 2)
      else if !s.teams.isEmpty then (s, some 2)
      else
        let readable := BitVec.ofNat 16 (s.imageWord a 12 2)
        let ws := s.saveWords
        let bad := ws.any fun p => (s.sysMark p.2 8).isSome
        let s := ws.foldl (fun s p => s.readFor p.1 5 s.cmdCore p.2 8) s
        if bad then (s, openSt 12)
        else if ws.any fun p => !readable.getLsbD (leNat (s.sysRead (p.2 + 6) 2)) then (s, some 3)
        else (s.restart (BitVec.ofNat 32 (s.imageWord a 8 4)) readable (BitVec.ofNat 16 (s.imageWord a 14 2)), some 0)

/-- SERVICE: bring-up ends, with one partition of every die and way (log 91); code validated under the reduced service is fetched again
(log 92). -/
def execService (s : State) : Host.Outcome State Fault Refusal :=
  s.command 13 fun s =>
    if !s.teams.isEmpty || (s.launches.any fun l => l.phase == .saved || !l.saved.isEmpty) || !s.fw.trained || !s.fw.equalised then
      (s, some 2)
    else if !s.fw.bringUp then (s, openSt 13)
    else
      let new : State := { s with
        fw := { s.fw with bringUp := false }
        parts := Part.reset dies :: List.replicate 3 (Part.reset [])
        cores := s.cores.map fun c => { c with code := [] } }
      ((s.parts.flatMap Part.faulted).foldl State.reopen new, some 0)

/-- DEVICE_RESET: the machine as reset leaves it; memory keeps its bytes as the homes hold them, with their poison (log 30), and the
model's own fields go on. -/
def execDeviceReset (s : State) : Host.Outcome State Fault Refusal :=
  let home (k : Mark) : Bool := k.place == s.homeAt (k.gran / 8)
  .next { State.reset with
    mem := s.mem, poison := (s.poison.filter home).map fun k => { k with place := .hbm }, agenda := s.agenda, tick := s.tick, fresh := s.fresh }

end Sys2Proof.Machine
end

