-- ==== Sys2Proof/Machine/Plain.lean ====
section
/-! DEFINITION. The plain-value instructions (R96 to R100), and the shape every instruction of values only shares. -/
namespace Sys2Proof.Machine

/-- An instruction whose effect is a result token and flags from its operands. -/
def State.pure (s : State) (i : Instr) (ts : List Tgt) (f : Issue → Token × Flags) : Host.Outcome State Fault Refusal :=
  s.firing i fun x => s.result x ts (f x).1 (f x).2

/-- NULL with FN 0: a token that is valid nowhere (R96). -/
def execNull (u : Bool) (t0 t1 : Tgt) (s : State) : Host.Outcome State Fault Refusal :=
  s.pure (.null u t0 t1) [t0, t1] fun _ => (if u then Token.uniform false false 0 else Token.empty, 0)

/-- NULL with FN 1: the store slot fires and stores nothing (R96). -/
def execNullSlot (u : Bool) (ss : BitVec 5) (s : State) : Host.Outcome State Fault Refusal :=
  s.firing (.nullSlot u ss) fun x =>
    s.setRun x.w fun r => { r.finish x.k with sslots := r.sslots.set ss.toNat .nothing }

/-- MOV: TY fixes the width only (R97). -/
def execMov (f : MovF) (s : State) : Host.Outcome State Fault Refusal :=
  s.pure (.mov f) ([f.t0, f.t1] ++ match f.more with | some (c, d) => [c, d] | none => []) fun x =>
    (resultTok (.mov f) x.o f.ty.wide fun l => x.o.left.atTy f.ty l, 0)

/-- The immediate of MOVI as TY takes it (R51, R98). -/
def moviVal (ty : Ty) (imm : BitVec 32) : W64 := if ty == .i64 then imm.signExtend 64 else imm.setWidth 64

/-- MOVI (R98). -/
def execMovi (ty : Ty) (pr : Pr) (u : Bool) (t0 : Tgt) (imm : BitVec 32) (s : State) : Host.Outcome State Fault Refusal :=
  s.pure (.movi ty pr u t0 imm) [t0] fun x =>
    (resultTok (.movi ty pr u t0 imm) x.o ty.wide fun _ => moviVal ty imm, 0)

/-- GETSR: the register as it is when the instruction issues (R99). -/
def execGetsr (ty : Ty) (pr : Pr) (u : Bool) (id : BitVec 8) (t0 t1 : Tgt) (s : State) : Host.Outcome State Fault Refusal :=
  s.pure (.getsr ty pr u id t0 t1) [t0, t1] fun x =>
    (resultTok (.getsr ty pr u id t0 t1) x.o ty.wide fun l => ty.cut (s.special x.warp x.run.am id.toNat l), 0)

/-- SEL: the selector is tested at its full width (R100). -/
def execSel (f : IntF) (s : State) : Host.Outcome State Fault Refusal :=
  s.pure (.sel f) [f.t0, f.t1] fun x =>
    (resultTok (.sel f) x.o f.ty.wide fun l => if x.o.third.full l != 0 then x.o.left.atTy f.ty l else f.b x.o l, 0)

end Sys2Proof.Machine
end

