-- ==== Sys2Proof/Machine/Float.lean ====
section
/-! DEFINITION. The float instructions (R149 to R162). -/
namespace Sys2Proof.Machine

/-- An instruction whose value and flags on a lane are a function of its operands; its flags come from its valid
lanes (R145). -/
def State.flagOp (s : State) (i : Instr) (t0 t1 : Tgt) (wide : Bool) (g : Opnds → Nat → FRes) :
    Host.Outcome State Fault Refusal :=
  s.pure i [t0, t1] fun x =>
    (resultTok i x.o wide fun l => (g x.o l).1, (okList i x.o).foldl (fun fl l => fl ||| (g x.o l).2) 0)

/-- A float instruction of one operand, widened from SUB (R151). -/
def State.float1 (s : State) (i : Instr) (f : FloatF) (g : Nat → FRes) : Host.Outcome State Fault Refusal :=
  s.flagOp i f.t0 f.t1 false fun o l => g (f.opnd o.left l)

/-- A float instruction of two operands, widened from SUB, the right one its slot or IMM24 (R150, R151). -/
def State.float2 (s : State) (i : Instr) (f : FloatF) (g : Nat → Nat → FRes) : Host.Outcome State Fault Refusal :=
  s.flagOp i f.t0 f.t1 false fun o l => g (f.opnd o.left l) (f.bBits o l)

/-- FADD (R153). -/
def execFadd (f : FloatF) (s : State) : Host.Outcome State Fault Refusal :=
  s.float2 (.fadd f) f (fvAdd f)

/-- FSUB (R153). -/
def execFsub (f : FloatF) (s : State) : Host.Outcome State Fault Refusal :=
  s.float2 (.fsub f) f (fvSub f)

/-- FMUL (R153). -/
def execFmul (f : FloatF) (s : State) : Host.Outcome State Fault Refusal :=
  s.float2 (.fmul f) f (fvMul f)

/-- FDIV (R153). -/
def execFdiv (f : FloatF) (s : State) : Host.Outcome State Fault Refusal :=
  s.float2 (.fdiv f) f (fvDiv f)

/-- FMIN (R154). -/
def execFmin (nan : Bool) (f : FloatF) (s : State) : Host.Outcome State Fault Refusal :=
  s.float2 (.fmin nan f) f (fvMin f nan)

/-- FMAX (R154). -/
def execFmax (nan : Bool) (f : FloatF) (s : State) : Host.Outcome State Fault Refusal :=
  s.float2 (.fmax nan f) f (fvMax f nan)

/-- FFMA (R153): the third operand in TY, never widened. -/
def execFfma (op : FmaOp) (f : FloatF) (s : State) : Host.Outcome State Fault Refusal :=
  s.flagOp (.ffma op f) f.t0 f.t1 false fun o l => fvFma f op (f.opnd o.left l) (f.bBits o l) (f.ty.fbits (o.third.val l))

/-- FSGN (R155). -/
def execFsgn (op : SgnOp) (f : FloatF) (s : State) : Host.Outcome State Fault Refusal :=
  s.flagOp (.fsgn op f) f.t0 f.t1 false fun o l => fvSgn f op (f.opnd o.left l) (f.bSign o l)

/-- FCMP (R156). -/
def execFcmp (c : FCond) (f : FloatF) (s : State) : Host.Outcome State Fault Refusal :=
  s.float2 (.fcmp c f) f (fvCmp c f.ty.fmt)

/-- FRCP (R157). -/
def execFrcp (f : FloatF) (s : State) : Host.Outcome State Fault Refusal :=
  s.float1 (.frcp f) f (fvRcp f)

/-- FRSQ (R157). -/
def execFrsq (f : FloatF) (s : State) : Host.Outcome State Fault Refusal :=
  s.float1 (.frsq f) f (fvRsq f)

/-- FTRN (R158). -/
def execFtrn (fn : Trn) (f : FloatF) (s : State) : Host.Outcome State Fault Refusal :=
  s.float1 (.ftrn fn f) f fun a => fres (Sys2Proof.ftrn fn f.ty.fmt a)

/-- FSCL (R159): n is an integer. -/
def execFscl (f : FloatF) (s : State) : Host.Outcome State Fault Refusal :=
  s.flagOp (.fscl f) f.t0 f.t1 false fun o l => fvScl f (f.opnd o.left l) (match f.imm with | some v => v.toInt | none => (o.right.val32 l).toInt)

/-- FCLS (R160). -/
def execFcls (src : FmtCode) (pr : Pr) (u : Bool) (mask : Option (BitVec 24)) (t0 t1 : Tgt) (s : State) : Host.Outcome State Fault Refusal :=
  s.flagOp (.fcls src pr u mask t0 t1) t0 t1 false fun o l => (fvCls src mask (o.left.val l), 0)

/-- CVT (R161). -/
def execCvt (src dst : FmtCode) (f : FloatF) (s : State) : Host.Outcome State Fault Refusal :=
  s.flagOp (.cvt src dst f) f.t0 f.t1 (dst == .int && f.ty.wide) fun o l => fvCvt src dst f (if src == .int then o.left.atTy f.ty l else o.left.val l)

/-- FOP2 (R162). -/
def execFop2 (bf : Bool) (op : Fop2Op) (f : FloatF) (s : State) : Host.Outcome State Fault Refusal :=
  s.flagOp (.fop2 bf op f) f.t0 f.t1 false fun o l => fvFop2 bf op f (o.left.val l) (o.right.val l) (o.third.val l)

end Sys2Proof.Machine
end

