-- ==== Sys2Proof/Machine/Cross.lean ====
section
/-! DEFINITION. The cross-lane instructions (R167 to R170), and SCAN and WRED (R221 to R225). -/
namespace Sys2Proof.Machine

/-- The offset of SHFL and BCST on a lane: IMM24 or the right operand's low 32 bits (R168). -/
def shflB (f : IntF) (o : Opnds) (l : Nat) : W32 :=
  match f.imm with
  | some v => v.signExtend 32
  | none => o.right.val32 l

/-- The source lane of SHFL (R168). -/
def shflSrc (op : ShflOp) (b : W32) (l : Nat) : Nat :=
  match op with
  | .lane => b.toNat % 32
  | .swz => (BitVec.ofNat 5 l ^^^ BitVec.ofNat 5 b.toNat).toNat
  | .rot => (l + b.toNat) % 32
  | .slide => if 0 ≤ (l : Int) + b.toInt && (l : Int) + b.toInt ≤ 31 then ((l : Int) + b.toInt).toNat else l

/-- The lanes on which SHFL's result is valid (R168). -/
def shflOk (op : ShflOp) (f : IntF) (o : Opnds) (l : Nat) : Bool :=
  o.am.getLsbD l && (f.imm.isSome || o.right.ok o.am l) && predLane (.shfl op f) o l &&
    o.left.ok o.am (shflSrc op (shflB f o l) l)

/-- SHFL (R168). -/
def execShfl (op : ShflOp) (f : IntF) (s : State) : Host.Outcome State Fault Refusal :=
  s.pure (.shfl op f) [f.t0, f.t1] fun x =>
    (Token.lanes f.ty.wide (lanesOf (shflOk op f x.o)) fun l => x.o.left.atTy f.ty (shflSrc op (shflB f x.o l) l), 0)

/-- The result of VOTE from the participating lanes, each with its value at full width (R169). -/
def voteVal (op : VoteOp) (p : List (Nat × W64)) : W32 :=
  let hit := p.filter fun x => x.2 != 0
  match op with
  | .mask => lanesOf fun l => hit.any fun x => x.1 == l
  | .hit => if hit.isEmpty then 0 else 1
  | .full => if hit.length == p.length then 1 else 0
  | .same => if p.all (fun x => some x.2 == (p.head?.map (·.2))) then 1 else 0
  | .cnt => BitVec.ofNat 32 hit.length
  | .first => BitVec.ofNat 32 ((hit.head?.map (·.1)).getD 32)
  | .pmask => lanesOf fun l => p.any fun x => x.1 == l

/-- VOTE: a uniform result, always valid, of values at TY's width (R169, log 98). -/
def execVote (op : VoteOp) (f : IntF) (s : State) : Host.Outcome State Fault Refusal :=
  s.pure (.vote op f) [f.t0, f.t1] fun x =>
    let p := (allLanes.filter (laneOk (.vote op f) x.o)).map fun l => (l, x.o.left.atTy f.ty l)
    (Token.uniform f.ty.wide true ((voteVal op p).setWidth 64), 0)

/-- BCST: the left operand of one lane, made uniform (R170). -/
def execBcst (f : IntF) (s : State) : Host.Outcome State Fault Refusal :=
  s.pure (.bcst f) [f.t0, f.t1] fun x =>
    let j := (shflB f x.o 0).toNat % 32
    let ok := (f.imm.isSome || x.o.right.mask.getLsbD 0) && x.o.left.ok x.o.am j
    (Token.uniform f.ty.wide ok (if ok then x.o.left.atTy f.ty j else 0), 0)

/-- The operands a scan's tree starts from, and the tree's results and flags (R223). -/
def scanOf (i : Instr) (f : ScanF) (o : Opnds) : List (Option W64) × Flags :=
  scanTree f (allLanes.map fun l => if laneOk i o l then some (o.left.atTy f.ty l) else none)

/-- SCAN (R224). -/
def execScan (ex : Bool) (f : ScanF) (s : State) : Host.Outcome State Fault Refusal :=
  s.pure (.scan ex f) [f.t0, f.t1] fun x =>
    let (y, fl) := scanOf (.scan ex f) f x.o
    let v (l : Nat) : W64 :=
      match (if ex then (if l == 0 then none else y.getD (l - 1) none) else y.getD l none) with
      | some v => scanCanon f v
      | none => scanIdentity f
    (Token.lanes f.ty.wide (okLanes (.scan ex f) x.o) v, fl)

/-- WRED: the result of lane 31, uniform and always valid (R224). -/
def execWred (f : ScanF) (s : State) : Host.Outcome State Fault Refusal :=
  s.pure (.wred f) [f.t0, f.t1] fun x =>
    let (y, fl) := scanOf (.wred f) f x.o
    let v := match y.getD 31 none with
      | some v => scanCanon f v
      | none => scanIdentity f
    (Token.uniform f.ty.wide true v, fl)

end Sys2Proof.Machine
end

