-- ==== Sys2Proof/Machine/Integer.lean ====
section
/-! DEFINITION. The integer instructions (R101 to R114): the exact result of each, fitted to its type. -/
namespace Sys2Proof.Machine

/-- An integer instruction whose value on a lane is a function of its operands; `wide` is its result's width. -/
def State.intOp (s : State) (i : Instr) (f : IntF) (wide : Bool) (g : Opnds → Nat → W64) : Host.Outcome State Fault Refusal :=
  s.pure i [f.t0, f.t1] fun x => (resultTok i x.o wide (g x.o), 0)

/-- An integer instruction of one operand of TY's width. -/
def State.int1 (s : State) (i : Instr) (f : IntF) (wide : Bool) (g : W64 → W64) : Host.Outcome State Fault Refusal :=
  s.intOp i f wide fun o l => g (o.left.atTy f.ty l)

/-- An integer instruction of two operands of TY's width, the right one its slot or IMM24 (R101). -/
def State.int2 (s : State) (i : Instr) (f : IntF) (wide : Bool) (g : W64 → W64 → W64) : Host.Outcome State Fault Refusal :=
  s.intOp i f wide fun o l => g (o.left.atTy f.ty l) (f.b o l)

/-- An integer instruction of three operands of TY's width. -/
def State.int3 (s : State) (i : Instr) (f : IntF) (wide : Bool) (g : W64 → W64 → W64 → W64) : Host.Outcome State Fault Refusal :=
  s.intOp i f wide fun o l => g (o.left.atTy f.ty l) (f.b o l) (o.third.atTy f.ty l)

/-- ADD (R103). -/
def execAdd (f : IntF) (s : State) : Host.Outcome State Fault Refusal :=
  s.int2 (.add f) f f.ty.wide (ivAdd f.ty f.sat)

/-- SUB (R103). -/
def execSub (f : IntF) (s : State) : Host.Outcome State Fault Refusal :=
  s.int2 (.sub f) f f.ty.wide (ivSub f.ty f.sat)

/-- MUL (R103). -/
def execMul (f : IntF) (s : State) : Host.Outcome State Fault Refusal :=
  s.int2 (.mul f) f f.ty.wide (ivMul f.ty f.sat)

/-- MULH (R103). -/
def execMulh (f : IntF) (s : State) : Host.Outcome State Fault Refusal :=
  s.int2 (.mulh f) f f.ty.wide (ivMulh f.ty)

/-- DIV (R104). -/
def execDiv (f : IntF) (s : State) : Host.Outcome State Fault Refusal :=
  s.int2 (.div f) f f.ty.wide (ivDiv f.ty f.sat)

/-- REM (R104). -/
def execRem (f : IntF) (s : State) : Host.Outcome State Fault Refusal :=
  s.int2 (.rem f) f f.ty.wide (ivRem f.ty)

/-- MIN (R105). -/
def execMin (f : IntF) (s : State) : Host.Outcome State Fault Refusal :=
  s.int2 (.min f) f f.ty.wide (ivMin f.ty)

/-- MAX (R105). -/
def execMax (f : IntF) (s : State) : Host.Outcome State Fault Refusal :=
  s.int2 (.max f) f f.ty.wide (ivMax f.ty)

/-- AND (R106). -/
def execAnd (f : IntF) (s : State) : Host.Outcome State Fault Refusal :=
  s.int2 (.and f) f f.ty.wide (fun a b => a &&& b)

/-- OR (R106). -/
def execOr (f : IntF) (s : State) : Host.Outcome State Fault Refusal :=
  s.int2 (.or f) f f.ty.wide (fun a b => a ||| b)

/-- XOR (R106). -/
def execXor (f : IntF) (s : State) : Host.Outcome State Fault Refusal :=
  s.int2 (.xor f) f f.ty.wide (fun a b => a ^^^ b)

/-- ANDN (R106). -/
def execAndn (f : IntF) (s : State) : Host.Outcome State Fault Refusal :=
  s.int2 (.andn f) f f.ty.wide (fun a b => a &&& ~~~b)

/-- SHL (R107). -/
def execShl (f : IntF) (s : State) : Host.Outcome State Fault Refusal :=
  s.int2 (.shl f) f f.ty.wide (ivShl f.ty f.sat)

/-- SHR (R107). -/
def execShr (f : IntF) (s : State) : Host.Outcome State Fault Refusal :=
  s.int2 (.shr f) f f.ty.wide (ivShr f.ty)

/-- SAR (R107). -/
def execSar (f : IntF) (s : State) : Host.Outcome State Fault Refusal :=
  s.int2 (.sar f) f f.ty.wide (ivSar f.ty)

/-- ROL (R107). -/
def execRol (f : IntF) (s : State) : Host.Outcome State Fault Refusal :=
  s.int2 (.rol f) f f.ty.wide (ivRol f.ty)

/-- BFX (R109). -/
def execBfx (f : IntF) (s : State) : Host.Outcome State Fault Refusal :=
  s.int2 (.bfx f) f f.ty.wide (ivBfx f.ty)

/-- ABS (R105). -/
def execAbs (f : IntF) (s : State) : Host.Outcome State Fault Refusal :=
  s.int1 (.abs f) f f.ty.wide (ivAbs f.ty f.sat)

/-- NEG (R105). -/
def execNeg (f : IntF) (s : State) : Host.Outcome State Fault Refusal :=
  s.int1 (.neg f) f f.ty.wide (ivNeg f.ty f.sat)

/-- NOT (R106). -/
def execNot (f : IntF) (s : State) : Host.Outcome State Fault Refusal :=
  s.int1 (.not f) f f.ty.wide (fun a => f.ty.cut (~~~a))

/-- CLZ (R108): a 32-bit count. -/
def execClz (f : IntF) (s : State) : Host.Outcome State Fault Refusal :=
  s.int1 (.clz f) f false (ivClz f.ty)

/-- POPC (R108): a 32-bit count. -/
def execPopc (f : IntF) (s : State) : Host.Outcome State Fault Refusal :=
  s.int1 (.popc f) f false (ivPopc f.ty)

/-- BREV (R108). -/
def execBrev (f : IntF) (s : State) : Host.Outcome State Fault Refusal :=
  s.int1 (.brev f) f f.ty.wide (ivBrev f.ty)

/-- MAD (R103). -/
def execMad (f : IntF) (s : State) : Host.Outcome State Fault Refusal :=
  s.int3 (.mad f) f f.ty.wide (ivMad f.ty f.sat)

/-- BFI (R109). -/
def execBfi (f : IntF) (s : State) : Host.Outcome State Fault Refusal :=
  s.int3 (.bfi f) f f.ty.wide (ivBfi f.ty)

/-- CMP (R110): a 32-bit 0 or 1. -/
def execCmp (c : Cond) (f : IntF) (s : State) : Host.Outcome State Fault Refusal :=
  s.int2 (.cmp c f) f false (ivCmp c f.ty)

/-- LEA (R111). -/
def execLea (shift : BitVec 3) (f : IntF) (s : State) : Host.Outcome State Fault Refusal :=
  s.int2 (.lea shift f) f f.ty.wide (ivLea f.ty shift)

/-- PK2 (R112). -/
def execPk2 (f : IntF) (s : State) : Host.Outcome State Fault Refusal :=
  s.int2 (.pk2 f) f f.ty.wide (ivPk2 f.ty)

/-- EXH (R112): the operand at 64 bits, a 32-bit result. -/
def execExh (half : Bool) (f : IntF) (s : State) : Host.Outcome State Fault Refusal :=
  s.intOp (.exh half f) f false fun o l => ivExh half f.ty (o.left.to64 f.ty.signed l)

/-- HOP (R113). -/
def execHop (signed : Bool) (op : HopOp) (f : IntF) (s : State) : Host.Outcome State Fault Refusal :=
  s.int2 (.hop signed op f) f false (ivHop signed op f.sat)

/-- DP4 (R114). -/
def execDp4 (ls rs : Bool) (f : IntF) (s : State) : Host.Outcome State Fault Refusal :=
  s.int3 (.dp4 ls rs f) f false (ivDp4 ls rs f.sat)

end Sys2Proof.Machine
end

