-- ==== Sys2Proof/Machine/Memory.lean ====
section
/-! DEFINITION. The basic memory instructions (R115 to R124): LD, ST, LDS, STS, LDK and MODSET. -/
namespace Sys2Proof.Machine

/-- A loaded value extended to the width of TY (R116). -/
def loadExt (f : MemF) (bs : List W8) : W64 :=
  let v := BitVec.ofNat 64 (leNat bs)
  let n := f.width.bytes
  if f.sx then f.ty.cut (((v <<< (64 - 8 * n)).sshiftRight (64 - 8 * n))) else v

/-- The addresses of the valid lanes. -/
def memAddrs (i : Instr) (f : MemF) (spad : Bool) (o : Opnds) : List (Nat × W64) :=
  (okList i o).map fun l => (l, laneAddr spad f.am f.imm f.width.bytes o l)

/-- The token of the addresses AM 01 and AM 10 deliver, as wide as TY makes a result (R86, R117); in the scratchpad they are taken in
32 bits (R115; log 16). -/
def nextTok (i : Instr) (f : MemF) (spad : Bool) (x : Issue) : Token :=
  Token.lanes f.ty.wide (okLanes i x.o) fun l =>
    let a := nextAddr f.am f.imm x.warp.m (laneBase spad x.o l)
    if spad || !f.ty.wide then (a.setWidth 32).setWidth 64 else a

/-- What a load delivers (R117): data to both targets; data and the next address; or the halves of 16 bytes. -/
def loadToks (i : Instr) (f : MemF) (spad : Bool) (x : Issue) (got : List (Nat × List W8)) : Token × Token :=
  let bytes (l : Nat) : List W8 := ((got.find? fun p => p.1 == l).map (·.2)).getD []
  let data := resultTok i x.o f.ty.wide fun l => loadExt f ((bytes l).take 8)
  match f.am, f.width with
  | .postInc, _ | .modulo, _ => (data, nextTok i f spad x)
  | _, .b16 => (data, resultTok i x.o true fun l => BitVec.ofNat 64 (leNat ((bytes l).drop 8)))
  | _, _ => (data, data)

/-- A load finishes with what it read. -/
def State.loaded (s : State) (x : Issue) (i : Instr) (f : MemF) (spad : Bool) (got : List (Nat × List W8)) : State :=
  let (a, b) := loadToks i f spad x got
  s.setRun x.w fun r => ((r.put f.t0 a).put f.t1 b).finish x.k

/-- The reads of a load at issue under its cache hint, lane by lane, with the lanes that met poison and its STRUCT (R362). -/
def State.readLanes (s : State) (who : WarpId) (core : Nat) (sc : Scope) (hint : BitVec 2) (width : Nat) (as : List LaneAcc) :
    State × List (Nat × List W8) × List (LaneAcc × Nat) :=
  as.foldl (fun p a =>
    let (s, bs, bad) := p.1.coreRead who core a.nc sc hint a.pa width
    (s, p.2.1 ++ [(a.lane, bs)], p.2.2 ++ bad.toList.map fun k => (a, k))) (s, [], [])

/-- A load from memory: it performs when it issues (R120, R121). -/
def State.memLoad (s : State) (x : Issue) (i : Instr) (f : MemF) : State :=
  s.access x i 0 f.width.bytes false (memAddrs i f false x.o) fun s as =>
    let (s, got, bad) := s.readLanes x.w x.warp.core f.sc f.hint f.width.bytes as
    match bad with
    | (a, k) :: _ => s.dataFault x.w (a.va &&& 0x3FFFFFFFFFFFFF) k a.pa (if i.uniform then 0 else lanesOf fun l => bad.any fun a => a.1.lane == l)
    | [] => s.loaded x i f false got

/-- The data a store gives a lane: the low bytes of its value, or the two halves of 16 bytes (R116, R117). -/
def storeBytes (f : MemF) (o : Opnds) (l : Nat) : List W8 :=
  match f.width with
  | .b16 => leBytes 8 (o.right.atTy f.ty l).toNat ++ leBytes 8 (o.third.atTy f.ty l).toNat
  | w => leBytes w.bytes ((if f.am == .indexed then o.third else o.right).atTy f.ty l).toNat

/-- A store fires its slot and delivers its next address, where its mode has one (R70, R117). -/
def State.stored (s : State) (x : Issue) (i : Instr) (f : MemF) (spad : Bool) (ws : List LaneStore) : State :=
  s.setRun x.w fun r =>
    let r := { r with sslots := r.sslots.set f.ss.toNat (.stores f.sc f.ord ws) }
    (if i.targets.isEmpty then r else r.putAll [f.t0, f.t1] (nextTok i f spad x)).finish x.k

/-- LD (R121). -/
def execLd (f : MemF) (s : State) : Host.Outcome State Fault Refusal := s.firing (.ld f) fun x => s.memLoad x (.ld f) f

/-- ST: translated and checked at issue, held to its block's commit (R121, R124). -/
def execSt (f : MemF) (s : State) : Host.Outcome State Fault Refusal :=
  s.firing (.st f) fun x =>
    s.access x (.st f) 1 f.width.bytes false (memAddrs (.st f) f false x.o) fun s as =>
      s.stored x (.st f) f false (as.map fun a =>
        { space := if a.nc then .uncached else .mem, hint := f.hint, va := a.va, addr := a.pa, bytes := storeBytes f x.o a.lane })

/-- LDS: read from the team's scratchpad once every tile it touches is ready or draining (R122, R183). -/
def execLds (f : MemF) (s : State) : Host.Outcome State Fault Refusal :=
  s.firing (.lds f) fun x =>
    let ls := memAddrs (.lds f) f true x.o
    let n := f.width.bytes
    s.spadAccess x false false n ls fun s =>
      let gs := ls.flatMap fun la => spadGranules x.w.team la.2.toNat n
      let s := s.correct gs
      match s.badOf gs with
      | .spad _ off :: _ =>
        s.dataFault x.w x.run.va 2 off (lanesOf fun l => ls.any fun la => la.1 == l && off < la.2.toNat + n && la.2.toNat < off + 4)
      | _ => s.loaded x (.lds f) f true (ls.map fun la => (la.1, s.spadRead x.w.team la.2.toNat n))

/-- STS: held to its block's commit, once every tile it touches grants a write reference (R122, R183). -/
def execSts (f : MemF) (s : State) : Host.Outcome State Fault Refusal :=
  s.firing (.sts f) fun x =>
    let ls := memAddrs (.sts f) f true x.o
    s.spadAccess x false true f.width.bytes ls fun s =>
      s.stored x (.sts f) f true (ls.map fun la =>
        { space := .spad, hint := f.hint, va := la.2, addr := la.2.toNat, bytes := storeBytes f x.o la.1 })

/-- LDK: one access for the warp (R123). -/
def execLdk (f : MemF) (s : State) : Host.Outcome State Fault Refusal := s.firing (.ldk f) fun x => s.memLoad x (.ldk f) f

/-- MODSET: mN becomes (BASE, LEN) at commit, with a valid uniform result (R119). -/
def execModset (pr : Pr) (m : BitVec 3) (imm : Option (BitVec 24)) (s : State) : Host.Outcome State Fault Refusal :=
  s.firing (.modset pr m imm) fun x =>
    if uniOk (.modset pr m imm) x.o then
      let len : W32 := match imm with
        | some v => v.signExtend 32
        | none => x.o.right.val32 0
      s.leave x (.modset m.toNat (x.o.left.val32 0) len)
    else s.finish x

end Sys2Proof.Machine
end

