-- ==== Sys2Proof/Machine/Moves.lean ====
section
/-! DEFINITION. What moves by itself: evictions and pushes (R248, R249, R252), neighbour entries (R228) and replies of
atomics (R71). -/
namespace Sys2Proof.Machine

/-- LINE_EVICTION: an L1 of a core writes its dirty bytes back and drops the line, where it may choose that (R248, R345); an L2 pushes or writes back what it
holds of it and gives it up (R252); die 4 names Meridian, which evicts the line from every die first (R249, R363). -/
def execLineEviction (die : Nat) (core : Option Nat) (line : Nat) (s : State) : Host.Outcome State Fault Refusal :=
  .next (match core with
    | some c => if c < 256 && s.mayChoose c line then (s.writeBackL1 c line).dropL1 c line else s
    | none => if die < 4 then s.evictLine die line else if die == 4 then s.merEvict line else s)

/-- PUSH_APPLY: a die's marked bytes of a line are applied at its home (R252). -/
def execPushApply (die line : Nat) (s : State) : Host.Outcome State Fault Refusal := .next (s.push die line)

/-- A neighbour entry reaches its queue, unless an earlier one for that queue is still on its way (R228); the entry for a team
that has retired is dropped. -/
def execNeighbourEntryArrive (id : Nat) (s : State) : Host.Outcome State Fault Refusal :=
  .next (match s.flights.find? fun f => f.id == id with
    | none => s
    | some f =>
      if (s.flights.find? fun g => g.dest == f.dest && g.prev == f.prev) != some f then s
      else
        let s := { s with flights := s.flights.filter fun g => g.id != id }
        match s.team? f.dest with
        | some t => s.setCore t.core fun c => c.setQueue f.prev fun q => q ++ [f.entry]
        | none => s)

/-- The header reads of a warp's block that waited for some registers (R71). -/
def State.heldReads (s : State) (w : WarpId) (regs : List (Bool × Nat)) : State :=
  match (s.warp? w).bind (·.run) with
  | none => s
  | some r =>
    let h := Hdr.of (r.words.headD 0)
    ((h.reads r.words).filter fun e => regs.contains (e.k, e.reg)).foldl (fun s e => s.readHeader w e) s

/-- ATOMIC_REPLY: the old values are written to the atomic's registers on the lanes that performed it, whether or not the warp has
retired (R171), its flags join the warp's, and the reads that waited for them deliver (R71, R145, R290). A value that a later block
wrote to the register meanwhile is overwritten (log 88). -/
def execAtomicReply (id : Nat) (s : State) : Host.Outcome State Fault Refusal :=
  .next (match s.replies.find? fun p => p.id == id with
    | none => s
    | some p =>
      let s := { s with replies := s.replies.filter fun q => q.id != id }
      let s := s.setWarp p.warp fun x => { x with fstat := p.flags.into x.fstat }
      let s := { s with lags := s.lags.filter fun g => g.reply != id }
      let s := p.regs.foldl (fun s r =>
        if r.1 then s else s.writeV p.warp r.2 p.mask fun l => (p.vals.getD l 0).setWidth 32) s
      (s.heldReads p.warp p.regs).tested p.warp)

end Sys2Proof.Machine
end

