-- ==== Sys2Proof/Machine/Quant.lean ====
section
/-! DEFINITION. The quantisation instructions (R163 to R166). -/
namespace Sys2Proof.Machine

/-- QMAX: the scale of the largest magnitude over the contributing lanes; the uniform result is always valid (R164). -/
def execQmax (f : QuantF) (s : State) : Host.Outcome State Fault Refusal :=
  s.pure (.qmax f) [f.t0, f.t1] fun x =>
    let xs := (allLanes.filter (laneOk (.qmax f) x.o)).map fun l => f.ty.fmt.decode (f.ty.fbits (x.o.left.val l))
    let (v, fl) := qmaxScale f.ue5m3 f.tgt xs
    (Token.uniform false true (BitVec.ofNat 64 v), fl)

/-- QCVT (R165). -/
def execQcvt (f : QuantF) (s : State) : Host.Outcome State Fault Refusal :=
  s.flagOp (.qcvt f) f.t0 f.t1 false fun o l =>
    qcvtVal f (f.ty.fmt.decode (f.ty.fbits (o.left.val l))) (scaleVal f.ue5m3 ((o.right.val l).setWidth 8).toNat)

/-- DQCV (R166). -/
def execDqcv (f : QuantF) (s : State) : Host.Outcome State Fault Refusal :=
  s.flagOp (.dqcv f) f.t0 f.t1 false fun o l =>
    dqcvVal f (o.left.val l) (scaleVal f.ue5m3 ((o.right.val l).setWidth 8).toNat)

end Sys2Proof.Machine
end

