-- ==== Sys2Proof/Machine/Resume.lean ====
section
/-! DEFINITION. The return from a checkpoint (R335, R350 to R353): a saved launch and its teams read back from their records in
memory, with what the records' stated layout names, and placed again. -/
namespace Sys2Proof.Machine

/-! ### Reading a record -/

/-- Bytes cut into `n` pieces of a size. -/
def pieces (size : Nat) : Nat → List W8 → List (List W8)
  | 0, _ => []
  | n + 1, b => b.take size :: pieces size n (b.drop size)

/-- `n` little-endian words of a size in bytes. -/
def words (size n : Nat) (b : List W8) : List Nat := (pieces size n b).map leNat

/-- A plane from its words in order. -/
def planeOf (ws : List Nat) : Plane := ((List.range ws.length).zip (ws.map (BitVec.ofNat 32))).filter fun p => p.2 != 0

/-- A scratchpad from its bytes. -/
def spadOf (b : List W8) : Mem := ((List.range b.length).zip b).filter fun p => p.2 != 0

/-- A stack entry from its two words (R79), with the model's key for it. -/
def StackEnt.read (w0 w1 key : Nat) : StackEnt :=
  { join := w0.testBit 0, addr := BitVec.ofNat 64 (w0 / 2 ^ 15 % 2 ^ 49 * 32), cp := w0.testBit 1, mask := BitVec.ofNat 32 w1, key := key }

/-- A lane register from its row, in the save area until it is used (R352). -/
def VReg.read (num : Nat) (b : List W8) : VReg :=
  let ls := (words 4 32 b).map (BitVec.ofNat 32)
  let f := spillFormat ls
  { num := num, lanes := ls, row := .saved f.1 f.2, used := 0 }

/-- A warp as its record names it (R352), and the bytes behind the record; `fresh` begins the keys of entries beyond those the warp
had. Its live lanes are those of AMASK and the stack. -/
def Warp.read (x : Warp) (fresh : Nat) (b : List W8) : Warp × List W8 :=
  let w := words 8 3 b
  let w0 := w.getD 0 0
  let w1 := w.getD 1 0
  let w2 := w.getD 2 0
  let depth := w1 % 2 ^ 11
  let b := b.drop 24
  let k := (words 4 64 b).map (BitVec.ofNat 32)
  let b := b.drop 256
  let m := (words 8 8 b).map fun v => (BitVec.ofNat 32 (v / 2 ^ 32), BitVec.ofNat 32 v)
  let b := b.drop 64
  let bound := leNat (b.take 32)
  let b := b.drop 32
  let key (i : Nat) : Nat := ((x.stack[i]?).map fun e => e.key).getD (fresh + i)
  let es := (List.range depth).zip (pieces 16 depth b)
  let stack := es.map fun e => StackEnt.read (leNat (e.2.take 8)) (leNat (e.2.drop 8)) (key e.1)
  let b := b.drop (16 * depth)
  let regs := (List.range 256).filter fun n => bound.testBit n
  let am : Lanes := BitVec.ofNat 32 w0
  ({ x with
    am := am, pc := BitVec.ofNat 64 (w1 / 2 ^ 15 % 2 ^ 49 * 32), gang := BitVec.ofNat 32 (w2 / 2 ^ 32), limit := w2 / 2 ^ 8 % 2 ^ 24
    fstat := BitVec.ofNat 32 (w2 % 256), k := k, m := m, stack := stack, exited := ~~~(stack.foldl (fun a e => a ||| e.mask) am)
    v := (regs.zip (pieces 128 regs.length b)).map fun r => VReg.read r.1 r.2 }, b.drop (128 * regs.length))

/-- Warps read one after another. -/
def readWarps (fresh : Nat) : List Warp → List W8 → List Warp
  | [], _ => []
  | x :: xs, b =>
    let (y, b) := x.read fresh b
    y :: readWarps (fresh + 2 ^ 11) xs b

/-- The state that a tile word names. -/
def tileStOf : Nat → TileSt
  | 0 => .empty
  | 1 => .filling
  | 2 => .ready
  | _ => .draining

/-- A tile as its word names it (R351). -/
def Tile.read (x : Tile) (w : Nat) : Tile := { x with st := tileStOf (w / 2 ^ 54 % 4), lost := w.testBit 48, cnt := w % 2 ^ 16 }

/-- A unit as the word of its first tile names it (R351). -/
def Taken.read (u : Taken) (w : Nat) : Taken :=
  let u := { u with holder := w / 2 ^ 49 % 32, sharers := BitVec.ofNat 32 (w / 2 ^ 16) }
  match w / 2 ^ 56 % 4 with
  | 1 => { u with cls := .own }
  | 2 => { u with cls := .neg }
  | 3 => { u with cls := .shr }
  | _ => u

/-- The tile words of a team: its tiles in ascending order, and then the names it has lost. -/
def Team.readTiles (t : Team) (ws : List Nat) : Team :=
  let named := (t.sorted.zip ws).map fun p => (p.1.tid, p.2)
  let lost := (t.gone.zip (ws.drop t.tiles.length)).map fun p => (p.1.tid, p.2)
  let at' {α : Type} (l : List (Nat × Nat)) (tid : Nat) (f : α → Nat → α) (x : α) : α := ((l.lookup tid).map (f x)).getD x
  { t with
    tiles := t.tiles.map fun x => at' named x.tid Tile.read x
    taken := t.taken.map fun u => at' named u.tid Taken.read u
    gone := t.gone.map fun g => at' lost g.tid (fun g w => { g with lost := w.testBit 48 }) g }

/-- The image of a unit (R332) put into a team's planes. -/
def Team.readUnit (t : Team) (u : Nat × Bool) (b : List W8) : Team :=
  if u.2 then
    let rows := pieces 1536 128 b
    let part (size off : Nat) : Plane := planeOf (rows.flatMap fun r => words size 128 (r.drop off))
    { t with
      acc := setPlane (setPlane t.acc u.1 fun _ => part 4 0) (u.1 + 1) fun _ => part 4 512
      counts := setPlane (setPlane t.counts (u.1 - 32) fun _ => part 2 1024) (u.1 - 31) fun _ => part 2 1280 }
  else { t with acc := setPlane t.acc u.1 fun _ => planeOf (words 4 16384 b) }

/-- The images of a team's accumulator units, one after another. -/
def Team.readUnits (t : Team) : List (Nat × Bool) → List W8 → Team
  | [], _ => t
  | u :: us, b => (t.readUnit u b).readUnits us (b.drop (if u.2 then 128 * 1536 else 128 * 512))

/-- A saved team as its record in memory names it (R351, R352); what the layout leaves open, the agreement registers, barriers and
neighbour entries, and what it does not name, stand as they were saved (log 25). -/
def SavedTeam.read (t : SavedTeam) (spad fresh : Nat) (b : List W8) : SavedTeam :=
  let cred := leNat ((b.drop 8).take 4)
  let tilesAt := 16 + 32 + 8 * t.team.bars.length
  let n := t.team.tiles.length + t.team.gone.length
  let spadAt := tilesAt + 8 * n
  let team := (t.team.readTiles (words 8 n (b.drop tilesAt))).readUnits t.team.accUnits (b.drop (spadAt + spad))
  let live := readWarps fresh t.live (b.drop t.warpsAt)
  { t with
    team := { team with credit := cred, spad := spadOf ((b.drop spadAt).take spad) }
    warps := t.warps.map fun x => (live.find? fun y => y.id == x.id).getD x }

/-! ### The launch record -/

/-- The bytes of a launch record. -/
def launchRecord : Nat := 8 * 28

/-- A launch as its record names it (R351). -/
def Launch.read (l : Launch) (b : List W8) : Launch :=
  let w := words 8 28 b
  { l with
    ver := w.getD 0 0 / 2 ^ 48, placed := w.getD 1 0 % 2 ^ 32, elapsed := w.getD 2 0, queue := w.getD 3 0 % 256
    desc := (w.drop 4).map (BitVec.ofNat 64) }

/-- The records that the next resumption of a launch reads: address and length of each. -/
def State.resumeReads (s : State) (l : Launch) (core : Nat) : List (Nat × Nat) :=
  (l.saveAt, launchRecord) :: (s.nextTeams l core).filterMap fun t => t.2.1.map fun y => (y.at', y.len)

/-- Firmware read poison in a save record: a data fault of EKIND 5 against the context (R355, R362). -/
def State.resumeFault (s : State) (l : Launch) (pa code : Nat) : State :=
  s.raise { cls := 0x0B, cause := 0, ctx := l.id.ctx, core := none, ekind := 5, einst := s.fwCore l.id.ctx l.queue, launch := l.id.num
            team := 0, warp := 0, lanes := 0, va := 0, payload := [BitVec.ofNat 64 code, BitVec.ofNat 64 pa], pkt := some l.pkt }

/-- A launch with what its records in memory name: itself, and the saved teams that come next. -/
def State.readSave (s : State) (l : Launch) (core : Nat) : Launch :=
  let l := l.read (s.sysRead l.saveAt launchRecord)
  let next := (s.nextTeams l core).filterMap fun t => t.2.1.map fun y => y.team.id
  let read (t : SavedTeam) : SavedTeam :=
    if next.contains t.team.id then t.read (l.spad * 1024) s.order (s.sysRead t.at' t.len) else t
  { l with saved := l.saved.map read }

/-- The versions that the records of the next resumption name, each in the first two bytes below bit 63 of its first word: a launch
record's LVER and a team record's TVER (R351). -/
def State.resumeVers (s : State) (reads : List (Nat × Nat)) : List Nat := reads.map fun p => leNat (s.sysRead (p.1 + 6) 2)

/-- The keys that reading a save's stacks may use are used up. -/
def State.spendKeys (s : State) : State := { s with order := s.order + 2 ^ 16 }

/-- LAUNCH_RESUME: a saved team, or all of them, read back from memory and placed on a core (R350 to R353). Poison in a record that is
read is a fault; a record of a version that the image does not list is not read (R351). -/
def execLaunchResume (id : LaunchId) (core : Nat) (s : State) : Host.Outcome State Fault Refusal :=
  .next (match s.launch? id with
    | none => s
    | some l =>
      if l.saved.isEmpty || !s.served l || s.faulty id.ctx then s
      else
        let reads := s.resumeReads l core
        let r := reads.foldl (fun s p => s.sysFix p.1 p.2) s
        match reads.findSome? fun p => r.markIn p.1 p.2 with
        | some (pa, code) => r.resumeFault l pa code
        | none =>
          let y := r.readSave l core
          if !((s.resumeVers reads).all fun v => s.fw.readable.getLsbD v) then s
          else
            let r := r.spendKeys.setLaunch id fun _ => y
            (r.placeTeams y (r.nextTeams y core)).getD s)

end Sys2Proof.Machine
end

