-- ==== Sys2Proof/Machine/Dispatch.lean ====
section
/-! DEFINITION. One arm for each instruction, a direct call of its meaning. -/
namespace Sys2Proof.Machine

def exec (i : Instr) (s : State) : Host.Outcome State Fault Refusal :=
  match i with
  | .br pr off => Sys2Proof.Machine.execBr pr off s
  | .brc pr nz z => Sys2Proof.Machine.execBrc pr nz z s
  | .brx pr => Sys2Proof.Machine.execBrx pr s
  | .call pr callee back => Sys2Proof.Machine.execCall pr callee back s
  | .ret pr => Sys2Proof.Machine.execRet pr s
  | .exit pr => Sys2Proof.Machine.execExit pr s
  | .yield pr off => Sys2Proof.Machine.execYield pr off s
  | .trap pr code => Sys2Proof.Machine.execTrap pr code s
  | .bkpt pr code => Sys2Proof.Machine.execBkpt pr code s
  | .null u t0 t1 => Sys2Proof.Machine.execNull u t0 t1 s
  | .nullSlot u ss => Sys2Proof.Machine.execNullSlot u ss s
  | .mov f => Sys2Proof.Machine.execMov f s
  | .movi ty pr u t0 imm => Sys2Proof.Machine.execMovi ty pr u t0 imm s
  | .getsr ty pr u id t0 t1 => Sys2Proof.Machine.execGetsr ty pr u id t0 t1 s
  | .sel f => Sys2Proof.Machine.execSel f s
  | .add f => Sys2Proof.Machine.execAdd f s
  | .sub f => Sys2Proof.Machine.execSub f s
  | .mul f => Sys2Proof.Machine.execMul f s
  | .mulh f => Sys2Proof.Machine.execMulh f s
  | .mad f => Sys2Proof.Machine.execMad f s
  | .div f => Sys2Proof.Machine.execDiv f s
  | .rem f => Sys2Proof.Machine.execRem f s
  | .min f => Sys2Proof.Machine.execMin f s
  | .max f => Sys2Proof.Machine.execMax f s
  | .abs f => Sys2Proof.Machine.execAbs f s
  | .neg f => Sys2Proof.Machine.execNeg f s
  | .and f => Sys2Proof.Machine.execAnd f s
  | .or f => Sys2Proof.Machine.execOr f s
  | .xor f => Sys2Proof.Machine.execXor f s
  | .andn f => Sys2Proof.Machine.execAndn f s
  | .not f => Sys2Proof.Machine.execNot f s
  | .shl f => Sys2Proof.Machine.execShl f s
  | .shr f => Sys2Proof.Machine.execShr f s
  | .sar f => Sys2Proof.Machine.execSar f s
  | .rol f => Sys2Proof.Machine.execRol f s
  | .clz f => Sys2Proof.Machine.execClz f s
  | .popc f => Sys2Proof.Machine.execPopc f s
  | .brev f => Sys2Proof.Machine.execBrev f s
  | .bfx f => Sys2Proof.Machine.execBfx f s
  | .bfi f => Sys2Proof.Machine.execBfi f s
  | .cmp c f => Sys2Proof.Machine.execCmp c f s
  | .lea shift f => Sys2Proof.Machine.execLea shift f s
  | .pk2 f => Sys2Proof.Machine.execPk2 f s
  | .exh half f => Sys2Proof.Machine.execExh half f s
  | .hop signed op f => Sys2Proof.Machine.execHop signed op f s
  | .dp4 ls rs f => Sys2Proof.Machine.execDp4 ls rs f s
  | .ld f => Sys2Proof.Machine.execLd f s
  | .st f => Sys2Proof.Machine.execSt f s
  | .lds f => Sys2Proof.Machine.execLds f s
  | .sts f => Sys2Proof.Machine.execSts f s
  | .ldk f => Sys2Proof.Machine.execLdk f s
  | .modset pr m imm => Sys2Proof.Machine.execModset pr m imm s
  | .fadd f => Sys2Proof.Machine.execFadd f s
  | .fsub f => Sys2Proof.Machine.execFsub f s
  | .fmul f => Sys2Proof.Machine.execFmul f s
  | .ffma op f => Sys2Proof.Machine.execFfma op f s
  | .fmin nan f => Sys2Proof.Machine.execFmin nan f s
  | .fmax nan f => Sys2Proof.Machine.execFmax nan f s
  | .fsgn op f => Sys2Proof.Machine.execFsgn op f s
  | .fcmp c f => Sys2Proof.Machine.execFcmp c f s
  | .frcp f => Sys2Proof.Machine.execFrcp f s
  | .frsq f => Sys2Proof.Machine.execFrsq f s
  | .ftrn fn f => Sys2Proof.Machine.execFtrn fn f s
  | .fscl f => Sys2Proof.Machine.execFscl f s
  | .fcls src pr u mask t0 t1 => Sys2Proof.Machine.execFcls src pr u mask t0 t1 s
  | .cvt src dst f => Sys2Proof.Machine.execCvt src dst f s
  | .fdiv f => Sys2Proof.Machine.execFdiv f s
  | .fop2 bf op f => Sys2Proof.Machine.execFop2 bf op f s
  | .qmax f => Sys2Proof.Machine.execQmax f s
  | .qcvt f => Sys2Proof.Machine.execQcvt f s
  | .dqcv f => Sys2Proof.Machine.execDqcv f s
  | .shfl op f => Sys2Proof.Machine.execShfl op f s
  | .vote op f => Sys2Proof.Machine.execVote op f s
  | .bcst f => Sys2Proof.Machine.execBcst f s
  | .scan ex f => Sys2Proof.Machine.execScan ex f s
  | .wred f => Sys2Proof.Machine.execWred f s
  | .fsend pv pr rel => Sys2Proof.Machine.execFsend pv pr rel s
  | .frecv pv pr acq t0 t1 => Sys2Proof.Machine.execFrecv pv pr acq t0 t1 s
  | .fpeek pv pr t0 t1 => Sys2Proof.Machine.execFpeek pv pr t0 t1 s
  | .atom f => Sys2Proof.Machine.execAtom f s
  | .fence pr sc ord => Sys2Proof.Machine.execFence pr sc ord s
  | .fencex pr from' to' => Sys2Proof.Machine.execFencex pr from' to' s
  | .pref pr lvl sc imm => Sys2Proof.Machine.execPref pr lvl sc imm s
  | .cctl pr op imm => Sys2Proof.Machine.execCctl pr op imm s
  | .regrel pr first cntm => Sys2Proof.Machine.execRegrel pr first cntm s
  | .regclm pr t0 t1 => Sys2Proof.Machine.execRegclm pr t0 t1 s
  | .regqry pr q t0 t1 => Sys2Proof.Machine.execRegqry pr q t0 t1 s
  | .bararv pr bar cntm => Sys2Proof.Machine.execBararv pr bar cntm s
  | .barwt pr bar => Sys2Proof.Machine.execBarwt pr bar s
  | .barsyn pr bar cntm => Sys2Proof.Machine.execBarsyn pr bar cntm s
  | .ttake f => Sys2Proof.Machine.execTtake f s
  | .tgive pr tid => Sys2Proof.Machine.execTgive pr tid s
  | .sdone pr sum tid => Sys2Proof.Machine.execSdone pr sum tid s
  | .srefu pr tid => Sys2Proof.Machine.execSrefu pr tid s
  | .tarm pr tid count => Sys2Proof.Machine.execTarm pr tid count s
  | .tstat pr tid t0 t1 => Sys2Proof.Machine.execTstat pr tid t0 t1 s
  | .tclr pr tid => Sys2Proof.Machine.execTclr pr tid s
  | .mma f => Sys2Proof.Machine.execMma f s
  | .azero pr spl tid => Sys2Proof.Machine.execAzero pr spl tid s
  | .adrn f => Sys2Proof.Machine.execAdrn f s
  | .aload pr img tid tds => Sys2Proof.Machine.execAload pr img tid tds s
  | .agset pr nb ag => Sys2Proof.Machine.execAgset pr nb ag s
  | .gang pr base mask => Sys2Proof.Machine.execGang pr base mask s
  | .tdset pr idx => Sys2Proof.Machine.execTdset pr idx s
  | .tdget pr idx t0 t1 => Sys2Proof.Machine.execTdget pr idx t0 t1 s
  | .send pr msg lp => Sys2Proof.Machine.execSend pr msg lp s
  | .waitr pr spad t0 t1 => Sys2Proof.Machine.execWaitr pr spad t0 t1 s
  | .pollr pr spad t0 t1 => Sys2Proof.Machine.execPollr pr spad t0 t1 s
  | .blockStart w => Sys2Proof.Machine.execBlockStart w s
  | .prefetchBlock w va => Sys2Proof.Machine.execPrefetchBlock w va s
  | .blockCommit w => Sys2Proof.Machine.execBlockCommit w s
  | .rowReturn w reg => Sys2Proof.Machine.execRowReturn w reg s
  | .stopRequest core l => Sys2Proof.Machine.execStopRequest core l s
  | .copyBegin id => Sys2Proof.Machine.execCopyBegin id s
  | .copyComplete id => Sys2Proof.Machine.execCopyComplete id s
  | .overlayFillBegin id => Sys2Proof.Machine.execOverlayFillBegin id s
  | .overlayFillComplete id => Sys2Proof.Machine.execOverlayFillComplete id s
  | .mmaComplete id => Sys2Proof.Machine.execMmaComplete id s
  | .mmaStart id => Sys2Proof.Machine.execMmaStart id s
  | .powerRateSet core quarters depth => Sys2Proof.Machine.execPowerRateSet core quarters depth s
  | .neighbourEntryArrive id => Sys2Proof.Machine.execNeighbourEntryArrive id s
  | .atomicReply id => Sys2Proof.Machine.execAtomicReply id s
  | .issueClock core => Sys2Proof.Machine.execIssueClock core s
  | .urgencyEvaluation t => Sys2Proof.Machine.execUrgencyEvaluation t s
  | .poolScrub w reg => Sys2Proof.Machine.execPoolScrub w reg s
  | .codeRegionReload g => Sys2Proof.Machine.execCodeRegionReload g s
  | .flitReplay port fails pa => Sys2Proof.Machine.execFlitReplay port fails pa s
  | .frozenMaster m => Sys2Proof.Machine.execFrozenMaster m s
  | .lineEviction die core line => Sys2Proof.Machine.execLineEviction die core line s
  | .pushApply die line => Sys2Proof.Machine.execPushApply die line s
  | .sparseTokenArrive id pick => Sys2Proof.Machine.execSparseTokenArrive id pick s
  | .copyMessage id => Sys2Proof.Machine.execCopyMessage id s
  | .copym id team => Sys2Proof.Machine.execCopym id team s
  | .copymShareAbandon id team => Sys2Proof.Machine.execCopymShareAbandon id team s
  | .fillb id => Sys2Proof.Machine.execFillb id s
  | .scatr id => Sys2Proof.Machine.execScatr id s
  | .gathr id => Sys2Proof.Machine.execGathr id s
  | .coll id => Sys2Proof.Machine.execColl id s
  | .collTimeout id => Sys2Proof.Machine.execCollTimeout id s
  | .messageComplete id => Sys2Proof.Machine.execMessageComplete id s
  | .replyMatch w idx => Sys2Proof.Machine.execReplyMatch w idx s
  | .teamPlace l core => Sys2Proof.Machine.execTeamPlace l core s
  | .teamRetire t => Sys2Proof.Machine.execTeamRetire t s
  | .launchComplete l => Sys2Proof.Machine.execLaunchComplete l s
  | .recallQueued core => Sys2Proof.Machine.execRecallQueued core s
  | .surrenderRoutineStart w => Sys2Proof.Machine.execSurrenderRoutineStart w s
  | .routineForcedEnd w => Sys2Proof.Machine.execRoutineForcedEnd w s
  | .launchPacket p => Sys2Proof.Machine.execLaunchPacket p s
  | .yieldDeadlineExpiry l => Sys2Proof.Machine.execYieldDeadlineExpiry l s
  | .checkpointSave l => Sys2Proof.Machine.execCheckpointSave l s
  | .launchResume l core => Sys2Proof.Machine.execLaunchResume l core s
  | .copyPacket p => Sys2Proof.Machine.execCopyPacket p s
  | .writemem p => Sys2Proof.Machine.execWritemem p s
  | .waitmem p => Sys2Proof.Machine.execWaitmem p s
  | .waitmemReread p => Sys2Proof.Machine.execWaitmemReread p s
  | .tokenPacket p => Sys2Proof.Machine.execTokenPacket p s
  | .fencePacket p => Sys2Proof.Machine.execFencePacket p s
  | .packetPop ctx queue => Sys2Proof.Machine.execPacketPop ctx queue s
  | .packetComplete p => Sys2Proof.Machine.execPacketComplete p s
  | .firmwareEventTake fw => Sys2Proof.Machine.execFirmwareEventTake fw s
  | .doorbell ctx queue off => Sys2Proof.Machine.execDoorbell ctx queue off s
  | .hostPostedWrite off bytes attr => Sys2Proof.Machine.execHostPostedWrite off bytes attr s
  | .routeAcknowledge id die => Sys2Proof.Machine.execRouteAcknowledge id die s
  | .hostRead off len => Sys2Proof.Machine.execHostRead off len s
  | .hostAtomicop op wide off a b => Sys2Proof.Machine.execHostAtomicop op wide off a b s
  | .functionLevelReset => Sys2Proof.Machine.execFunctionLevelReset s
  | .counterRead off => Sys2Proof.Machine.execCounterRead off s
  | .registerWrite off val => Sys2Proof.Machine.execRegisterWrite off val s
  | .ctxset => Sys2Proof.Machine.execCtxset s
  | .qset => Sys2Proof.Machine.execQset s
  | .qreset => Sys2Proof.Machine.execQreset s
  | .qresume => Sys2Proof.Machine.execQresume s
  | .tlbinv => Sys2Proof.Machine.execTlbinv s
  | .fresume => Sys2Proof.Machine.execFresume s
  | .fdeny => Sys2Proof.Machine.execFdeny s
  | .codeinv => Sys2Proof.Machine.execCodeinv s
  | .haltrel => Sys2Proof.Machine.execHaltrel s
  | .partset => Sys2Proof.Machine.execPartset s
  | .partreset => Sys2Proof.Machine.execPartreset s
  | .activate => Sys2Proof.Machine.execActivate s
  | .service => Sys2Proof.Machine.execService s
  | .deviceReset => Sys2Proof.Machine.execDeviceReset s
  | .haltRaise => Sys2Proof.Machine.execHaltRaise s
  | .unitStop part m => Sys2Proof.Machine.execUnitStop part m s
  | .haltFlush part => Sys2Proof.Machine.execHaltFlush part s
  | .softError g double => Sys2Proof.Machine.execSoftError g double s
  | .memoryTrainingComplete => Sys2Proof.Machine.execMemoryTrainingComplete s
  | .linkEqualisationComplete => Sys2Proof.Machine.execLinkEqualisationComplete s
  | .collectiveMemberJoin ctx grp k rank op count data => Sys2Proof.Machine.execCollectiveMemberJoin ctx grp k rank op count data s
  | .nativeCodeCacheEviction core ctx va => Sys2Proof.Machine.execNativeCodeCacheEviction core ctx va s

end Sys2Proof.Machine
end

