-- ==== Sys2Proof/Machine/Step.lean ====
section
/-! DEFINITION. One step of the device: the next instruction of the issue slots; when they are empty, the next step of
the agenda; when that is empty, a step the manual leaves free (log 1). -/
namespace Sys2Proof.Machine

/-- A step of the device, which is no body word. -/
def runEvent (i : Instr) (s : State) : Host.Outcome State Fault Refusal := if i.isBody then .next s else exec i s

/-- One step. -/
def step (s : State) : Host.Outcome State Fault Refusal :=
  match s.issue with
  | (w, k) :: rest =>
    match s.fetch w k with
    | some i => afterIssue w (exec i { s with issue := rest, cur := some (w, k) })
    | none => .next { s with issue := rest, cur := none }
  | [] =>
    match s.agenda with
    | i :: rest => runEvent i { s with agenda := rest, cur := none }
    | [] => runEvent (Config.schedule s.tick) { s with tick := s.tick + 1, cur := none }

/-- The state with a body word issuing next (log 8). -/
def State.withFetchWord (s : State) (_nbits w : Nat) : State := s.placeWord (BitVec.ofNat 64 w)

end Sys2Proof.Machine
end

