-- ==== Sys2Proof/Claims.lean ====
section
/-! DEFINITION. The terms the statements use: when an instruction may fire, what it delivers, and the formulas of the manual in
their own words. -/
namespace Sys2Proof

/-- fit of R102 as the manual writes it: clamped to TY's range under SAT, else the exact result modulo 2^w. -/
def FitsTo (t : Ty) (sat : Bool) (x : Int) (v : W64) : Prop :=
  v.toNat < 2 ^ t.bitsW ∧
    if sat then t.int v = max t.lo (min t.hi x) else (v.toNat : Int) = x % (2 ^ t.bitsW : Nat)

/-- The bits of a value of TY's width, one by one. -/
def BitsAre (t : Ty) (v : W64) (p : Nat → Bool) : Prop := ∀ k, v.getLsbD k = (decide (k < t.bitsW) && p k)

/-- A 16-bit half as HOP reads it (R113). -/
def halfInt (signed : Bool) (w : W16) : Int := if signed then w.toInt else w.toNat

/-- One half of HOP as the table of R113 gives it. -/
def HalfIs (signed : Bool) (op : HopOp) (sat : Bool) (x y z : W16) : Prop :=
  let lo : Int := if signed then -32768 else 0
  let hi : Int := if signed then 32767 else 65535
  match op with
  | .add => if sat then halfInt signed z = max lo (min hi (halfInt signed x + halfInt signed y)) else z = x + y
  | .sub => if sat then halfInt signed z = max lo (min hi (halfInt signed x - halfInt signed y)) else z = x - y
  | .min => halfInt signed z = min (halfInt signed x) (halfInt signed y)
  | .max => halfInt signed z = max (halfInt signed x) (halfInt signed y)
  | .absd => z.toNat = (halfInt signed x - halfInt signed y).natAbs

/-- One signed or unsigned byte of DP4 (R114). -/
def byteInt (signed : Bool) (x : W64) (i : Nat) : Int :=
  if signed then (x.extractLsb' (8 * i) 8).toInt else (x.extractLsb' (8 * i) 8).toNat

/-- The condition of CMP as a comparison of integers (R110). -/
def CondHolds (c : Cond) (a b : Int) : Prop :=
  match c with
  | .eq => a = b
  | .ne => a ≠ b
  | .lt => a < b
  | .le => a ≤ b
  | .gt => a > b
  | .ge => a ≥ b

/-! ### Exact values (R133, R138) -/

/-- The value (-1)^neg · n / d · 2^e. -/
def ratV (neg : Bool) (n d : Nat) (e : Int) : ℚ := (if neg then -1 else 1) * ((n : ℚ) / d) * 2 ^ e

/-- The value of an exact result, none of a NaN or an infinity. -/
def Ex.val? : Ex → Option ℚ
  | .rat neg n d e => some (ratV neg n d e)
  | _ => none

/-- A value on a format's grid, its exponent unbounded above; `sub`: with the subnormal grid below the smallest normal (R138). -/
def Fmt.OnGrid (f : Fmt) (sub : Bool) (y : ℚ) : Prop :=
  ∃ (neg : Bool) (k : Nat) (q : Int), k < 2 ^ (f.fbits + 1) ∧ (sub = true → f.emin - f.fbits ≤ q) ∧ y = ratV neg k 1 q

/-- A value on the grid whose lowest F bit is 0 (R138). -/
def Fmt.EvenOn (f : Fmt) (sub : Bool) (y : ℚ) : Prop :=
  ∃ (neg : Bool) (k : Nat) (q : Int), k < 2 ^ (f.fbits + 1) ∧ k % 2 = 0 ∧ (sub = true → f.emin - f.fbits ≤ q) ∧
    (2 ^ f.fbits ≤ k ∨ (sub = true ∧ q = f.emin - f.fbits)) ∧ y = ratV neg k 1 q

/-- `y` is `x` rounded on the grid under a mode, as R138 puts the four. -/
def Fmt.RoundsTo (f : Fmt) (sub : Bool) (rm : Rm) (x y : ℚ) : Prop :=
  f.OnGrid sub y ∧ ∀ z, f.OnGrid sub z → match rm with
    | .rne => |y - x| ≤ |z - x| ∧ (|y - x| = |z - x| → z ≠ y → f.EvenOn sub y)
    | .rz => |y| ≤ |x| ∧ 0 ≤ x * y ∧ (|z| ≤ |x| → |z| ≤ |y|)
    | .rdn => y ≤ x ∧ (z ≤ x → z ≤ y)
    | .rup => x ≤ y ∧ (x ≤ z → y ≤ z)

/-- The largest finite value of a format (R133). -/
def Fmt.largest (f : Fmt) : ℚ := (f.decode f.maxFin).ex.val?.getD 0

end Sys2Proof

namespace Sys2Proof.Machine

/-- Instruction `i` may fire as issue `x`: it is the one issuing, its block is in flight, every slot it uses holds a token, it has
not finished (R68), and no acquire of its block holds it back (R120, R231, R274). -/
def Fires (s : State) (i : Instr) (x : Issue) : Prop :=
  s.cur = some (x.warp.id, x.k) ∧ s.warp? x.warp.id = some x.warp ∧ x.warp.run = some x.run ∧
    (x.run.node x.k).full i = true ∧ (x.run.node x.k).st ≠ .done ∧ x.run.held x.k = false

/-- The instruction completes: exec answers the state in which its token stands at each target, its node has finished, and its
flags are ORed into the block's; nothing else differs. -/
def Delivers (s : State) (i : Instr) (x : Issue) (ts : List Tgt) (tok : Token) (fl : Flags) : Prop :=
  exec i s = .next (s.setRun x.w fun r => { (r.putAll ts tok).finish x.k with flags := r.flags ||| fl })

/-- An integer instruction completes with a value that satisfies `P` on each lane. -/
def IntCompletes (s : State) (i : Instr) (f : IntF) (wide : Bool) (P : Issue → Nat → W64 → Prop) : Prop :=
  ∀ x, Fires s i x → ∃ g : Nat → W64, Delivers s i x [f.t0, f.t1] (resultTok i x.o wide g) 0 ∧ ∀ l, P x l (g l)

/-- A float, quantisation or cross-lane instruction completes with the value and flags of `g` on each valid lane. -/
def FloatCompletes (s : State) (i : Instr) (t0 t1 : Tgt) (wide : Bool) (g : Issue → Nat → FRes) : Prop :=
  ∀ x, Fires s i x → Delivers s i x [t0, t1] (resultTok i x.o wide fun l => (g x l).1)
    ((okList i x.o).foldl (fun fl l => fl ||| (g x l).2) 0)

/-- The instruction completes, leaving an effect for its block's commit (R72). -/
def Leaves (s : State) (i : Instr) (x : Issue) (e : Eff) : Prop :=
  exec i s = .next (s.setRun x.w fun r => { r.finish x.k with effs := r.effs ++ [(x.k, e)] })

/-- A control instruction completes: each lane on which its result is valid receives the successor `f` gives it (R88). -/
def Gives (s : State) (i : Instr) (x : Issue) (f : Nat → Option SuccKind) : Prop :=
  exec i s = .next (s.setRun x.w fun r => { r.finish x.k with
    succs := r.succs ++ (allLanes.filter fun l => laneOk i x.o l).filterMap fun l =>
      (f l).map fun k => { idx := x.k, lane := l, kind := k } })

/-- The lanes of an access pass every check of R124 and R263, with these translations. -/
def Clean (s : State) (x : Issue) (acc width : Nat) (hostOk : Bool) (ls : List (Nat × W64)) (t : State) (as : List LaneAcc) : Prop :=
  s.checkLanes x.warp.core x.w.team.launch.ctx acc width hostOk ls =
    (t, { accs := as, absent := none, bad := none, walk := none })

/-- The tiles a scratchpad access touches. -/
def touched (s : State) (x : Issue) (width : Nat) (ls : List (Nat × W64)) : List Nat :=
  ((s.team? x.w.team).map fun t => t.tilesOf (ls.map fun la => la.2.toNat) width).getD []

/-- The issuing warp may name a tile (R181, R319). -/
def Named (s : State) (x : Issue) (tid : Nat) : Prop := ∃ t, s.team? x.w.team = some t ∧ t.mayName x.w.warp tid = true

/-- A scratchpad access passes its checks, and every tile it touches grants its reference now (R122, R183). -/
def SpadClean (s : State) (x : Issue) (write : Bool) (width : Nat) (ls : List (Nat × W64)) : Prop :=
  spadBad ((s.launchOf x.w).spad * 1024) width ls = none ∧
  ∀ tid ∈ touched s x width ls, Named s x tid ∧
    if write then s.canWrite (.block x.w) x.w.team tid [.empty, .ready] = true
    else s.canRead (.block x.w) x.w.team tid = true

/-- The state once a scratchpad access has taken its references. -/
def refsTaken (s : State) (x : Issue) (write : Bool) (width : Nat) (ls : List (Nat × W64)) : State :=
  (touched s x width ls).foldl (fun s tid => s.takeRef (.block x.w) x.w.team tid write) s

/-- A Legend entry is read: once its region's error has been looked for it is not being reloaded, and its memory is not poisoned
(R190, R362, R364). -/
def LegendReads (s : State) (x : Issue) (idx : Nat) (t : State) (ws : List W64) : Prop :=
  let u := s.findRegion (.legend x.warp.core x.w.team.launch.ctx)
  u.legendFrozen x.warp.core x.w.team.launch.ctx = false ∧ u.legendMark x.warp.core x.w.team.launch.ctx idx = none ∧
  u.legendWords x.warp.core x.w.team.launch.ctx idx = (t, ws)

/-- The command OP is in progress: rung, a firmware core has its event, and its first word is well formed (R341, R372). -/
def CommandGiven (s : State) (op : Nat) : Prop :=
  s.host.ring = 1 ∧ s.mail 0 / 2 ^ 56 = op ∧ s.mail 0 % 2 ^ 40 = 0 ∧ s.fw.held.contains (some .command) = true

end Sys2Proof.Machine
end

