-- ==== Sys2Proof/Certificates/Slice0/Obligations.lean ====
section
/-! DEFINITION. The statements for the provers: what decoding, a step and every instruction do, by family. -/

open Sys2Proof Sys2Proof.Machine

/-! ### Encoding -/

/-- Words the manual writes out decode to the instructions it gives for them (R91, R99, R119, R127, R153, R168, R207, R234,
R291, R312). -/
def Obligations.DecodesExampleWords : Prop :=
  decode 0x0D008001FF000000 = .ok (.getsr .n32 .always false 0 (.to .left 1) .none) ∧
  decode 0x0400000008000020 = .ok (.call .always 0x20 8) ∧
  decode 0x0C00508300000010 = .ok (.movi .i32 .ifZero true (.to .third 3) 16) ∧
  decode 0x15009003FF000000 = .ok (.div { ty := .n32, pr := .always, u := true, imm := none, sat := false
                                          t0 := .to .left 3, t1 := .none }) ∧
  decode 0x5A0898FFFF001000 = .ok (.modset .always 2 (some 4096)) ∧
  decode 0x3E0201C0FF000000 = .ok (.fdiv { sub := .asTy, ty := .f32, pr := .always, u := false, imm := none, sat := false
                                           rm := .rz, t0 := .wr 0, t1 := .none }) ∧
  decode 0x440C88C0FFFFFFFF = .ok (.shfl .slide { ty := .n32, pr := .always, u := false, imm := some (-1), sat := false
                                                  t0 := .wr 0, t1 := .none }) ∧
  decode 0x5580A0C0FF780000 = .ok (.atom { aop := .or, ty := .n32, pr := .ifNonzero, indexed := false, sc := .device
                                           ord := .acqRel, ss := 0, imm := 0, t0 := .wr 0, t1 := .none }) ∧
  decode 0x650090FFFF000201 = .ok (.barsyn .always 2 1) ∧
  decode 0x70001CFFFF800040 = .ok (.mma { pr := .always, spl := true, gng := true, ks := false, tid := 32, tda := 0, tdb := 1 })

/-- Whatever decodes is well formed: a body word whose fields, predicate and targets its description accepts. A word whose opcode is
assigned to no instruction is refused with cause 0x09 (R56, R61). -/
def Obligations.DecodesOnlyWellFormed : Prop :=
  (∀ (w : W64) (i : Instr), decode w = .ok i → i.wellFormed = true) ∧
  ∀ w : W64, (w.extractLsb' 56 8).toNat ∈
      [0x00, 0x0F, 0x2F, 0x43, 0x49, 0x4A, 0x4B, 0x4F, 0x5B, 0x5C, 0x5D, 0x5E, 0x5F, 0x66, 0x67, 0x6F, 0x78, 0x79, 0x7A, 0x7B,
        0x7C, 0x7D, 0x7E, 0x7F] ∨ 0x83 ≤ (w.extractLsb' 56 8).toNat →
    decode w = .error .opcode

/-- For every well-formed body instruction, decoding its encoding gives it back, every operand at every value. -/
def Obligations.DecodesWhatItEncodes : Prop := ∀ i : Instr, i.wellFormed = true → decode (encode i) = .ok i

/-! ### The step and reset -/

/-- A step with an issue slot pending runs the instruction its block's word decodes to, the slot consumed (R68, R344); then the tests
of R176 and R239 look at the warp; that they do nothing while an instruction of its block can fire is the model's reading (log 47). With
none pending, the next step placed in the agenda runs (the model's own, log 1). -/
def Obligations.StepRunsTheDecodedInstruction : Prop :=
  (∀ (s : State) (w : WarpId) (k : Nat) (rest : List (WarpId × Nat)) (x : Warp) (r : Run) (i : Instr),
    s.issue = (w, k) :: rest → s.warp? w = some x → x.run = some r → k ≤ r.ni →
    decode (r.words.getD (r.bodyAt + k) 0) = .ok i →
    step s = afterIssue w (exec i { s with issue := rest, cur := some (w, k) })) ∧
  (∀ (w : WarpId) (t : State), afterIssue w (.next t) = .next (t.tested w)) ∧
  (∀ (w : WarpId) (t : State) (x : Warp) (r : Run) (k : Nat) (i : Instr), t.warp? w = some x → x.run = some r → k ≤ r.ni →
    (r.node k).st = .idle → r.instr k = some i → (r.node k).full i = true → r.held k = false → t.tested w = t) ∧
  ∀ (s : State) (i : Instr) (rest : List Instr), s.issue = [] → s.agenda = i :: rest → i.isBody = false →
    step s = exec i { s with agenda := rest, cur := none }

/-- After reset: no team, warp, launch, context or queue; every core's Overlay zero and filled for no context (R197) and its neighbour
queues empty; no line in a cache of a core, a die or Meridian (R378); the bring-up service in place; partition 0 with die 0 and every
way, the others without dies (R16, R258); no halt line up; the mailbox idle (R368). That a cycle count begins at 0, that mailbox words
C0 to C3, the power, the temperatures, the throttle mask and the counters read 0 are the model's choices (log 3); so is that memory holds
nothing (log 2). -/
def Obligations.ResetState : Prop :=
  State.reset.teams = [] ∧ State.reset.warps = [] ∧ State.reset.launches = [] ∧ State.reset.ctxs = [] ∧
  State.reset.cores.length = 256 ∧
  (∀ c ∈ State.reset.cores, c.cycles = 0 ∧ c.ovl = [] ∧ c.ovlCtx = none ∧ c.prev = [] ∧ c.next = [] ∧ c.code = [] ∧
    c.legend = [] ∧ c.tlb = []) ∧
  State.reset.l1 = [] ∧ State.reset.l2 = [] ∧ State.reset.mer = [] ∧ State.reset.tlb2 = [] ∧
  State.reset.errs = [] ∧ State.reset.reloads = [] ∧ State.reset.poison = [] ∧ State.reset.lost = [] ∧
  State.reset.raised = [] ∧ State.reset.frozen = [] ∧ State.reset.host.frozen = false ∧
  State.reset.fw.bringUp = true ∧ State.reset.fw.events = [] ∧ State.reset.parts.map (·.dies) = [[0], [], [], []] ∧
  (∀ p ∈ State.reset.parts, p.up = false ∧ p.ways = 0xFFFF) ∧
  State.reset.host.mail = [0, 0, 0, 0] ∧ State.reset.host.ring = 0 ∧ State.reset.host.status = 0 ∧
  State.reset.mem = [] ∧ State.reset.mem.wf = true ∧ State.reset.regs.power = 0 ∧ State.reset.regs.temps = List.replicate 10 0 ∧
  State.reset.regs.throttle = 0 ∧ State.reset.regs.counters = []

/-! ### Validity, targets, frames -/

/-- R67: a lane instruction's result is valid on a lane where every data operand is, the lane is active, and the predicate, if any, is valid
there and passes; a uniform instruction's where every operand and the predicate, if any, are valid and it passes, whatever the active mask;
and flags, saturation and faults come from those lanes, or that one result, alone. R66: a uniform token is spread to every lane: where its
bit is valid it is valid on the active lanes, with its one value. -/
def Obligations.ResultValidity : Prop :=
  (∀ (i : Instr) (o : Opnds) (l : Nat), l < 32 →
    ((okLanes i o).getLsbD l = true ↔
      (∀ sl ∈ i.dataSlots, (o.slot sl).ok o.am l = true) ∧ o.am.getLsbD l = true ∧
      (i.thirdOperand = true ∨ i.pr = .always ∨
        (i.pr = .ifNonzero ∧ o.third.ok o.am l = true ∧ o.third.full l ≠ 0) ∨
        (i.pr = .ifZero ∧ o.third.ok o.am l = true ∧ o.third.full l = 0)))) ∧
  (∀ (i : Instr) (o : Opnds), (uniOk i o = true ↔
      (∀ sl ∈ i.dataSlots, (o.slot sl).mask.getLsbD 0 = true) ∧
      (i.thirdOperand = true ∨ i.pr = .always ∨ (o.third.mask.getLsbD 0 = true ∧
        ((i.pr = .ifNonzero ∧ o.third.full 0 ≠ 0) ∨ (i.pr = .ifZero ∧ o.third.full 0 = 0))))) ∧
    (∀ l, l ∈ okList i o ↔ if i.uniform = true then l = 0 ∧ uniOk i o = true else l < 32 ∧ laneOk i o l = true) ∧
    ∀ (wide : Bool) (f : Nat → W64) (l : Nat), l < 32 →
      (i.uniform = true → (resultTok i o wide f).ok o.am l = (uniOk i o && o.am.getLsbD l) ∧
        (uniOk i o = true → (resultTok i o wide f).val l = f 0)) ∧
      (i.uniform = false → (resultTok i o wide f).ok o.am l = laneOk i o l ∧
        (laneOk i o l = true → (resultTok i o wide f).val l = f l))) ∧
  ∀ (wide b : Bool) (v : W64) (am : Lanes) (l : Nat), l < 32 →
    (Token.uniform wide b v).ok am l = (b && am.getLsbD l) ∧ (Token.uniform wide b v).val l = v

/-- R43: a token put at a target stands in the slot or write slot it names, and nothing else of the block changes. -/
def Obligations.TokensGoToTheirTargets : Prop :=
  ∀ (r : Run) (tok : Token),
    r.put .none tok = r ∧
    (∀ (sl : Slot) (i : BitVec 6), i.toNat < r.nodes.length →
      ((r.put (.to sl i) tok).node i.toNat).tok sl = some tok ∧
      (∀ sl', sl' ≠ sl → ((r.put (.to sl i) tok).node i.toNat).tok sl' = (r.node i.toNat).tok sl') ∧
      (∀ k, k ≠ i.toNat → (r.put (.to sl i) tok).node k = r.node k) ∧
      { r.put (.to sl i) tok with nodes := r.nodes } = r) ∧
    (∀ n : BitVec 4, n.toNat < r.wslots.length →
      (((r.put (.wr n) tok).wslots)[n.toNat]?).map (·.tok) = some (some tok) ∧
      (∀ k, k ≠ n.toNat → ((r.put (.wr n) tok).wslots)[k]? = r.wslots[k]?) ∧
      { r.put (.wr n) tok with wslots := r.wslots } = r)

/-- The frame of a change of one warp's block in flight: memory, caches, teams, cores, contexts and every other field stand; so do
the other warps, and of that warp its registers, stack, limit, flags and place in the program. -/
def Obligations.BlockChangeFrame : Prop :=
  ∀ (s : State) (w : WarpId) (f : Run → Run),
    { s.setRun w f with warps := s.warps } = s ∧
    (∀ v, v ≠ w → (s.setRun w f).warp? v = s.warp? v) ∧
    (∀ x, s.warp? w = some x → (s.setRun w f).warp? w = some { x with run := x.run.map f })

/-! ### Plain values (R96 to R100) -/

/-- NULL, MOV, MOVI, GETSR and SEL complete with the values of R96 to R100; NULL with FN 1 fires its store slot. R29: what each special
register reads, for a warp of a launch; R13: its stage, and its index within the stage, from the counts of the stages. -/
def Obligations.PlainValuesComplete : Prop :=
  (∀ (s : State) (x : Issue),
    (∀ u a b, Fires s (.null u a b) x →
      ∃ tok : Token, tok.uni = u ∧ (∀ l, tok.ok x.o.am l = false) ∧ Delivers s (.null u a b) x [a, b] tok 0) ∧
    (∀ u ss, Fires s (.nullSlot u ss) x →
      exec (.nullSlot u ss) s = .next (s.setRun x.w fun r => { r.finish x.k with sslots := r.sslots.set ss.toNat .nothing })) ∧
    (∀ f, Fires s (.mov f) x →
      Delivers s (.mov f) x ([f.t0, f.t1] ++ (f.more.map fun p => [p.1, p.2]).getD [])
        (resultTok (.mov f) x.o f.ty.wide fun l => x.o.left.atTy f.ty l) 0) ∧
    (∀ ty pr u a imm, Fires s (.movi ty pr u a imm) x →
      Delivers s (.movi ty pr u a imm) x [a] (resultTok (.movi ty pr u a imm) x.o ty.wide fun _ =>
        if ty = .i64 then imm.signExtend 64 else imm.setWidth 64) 0) ∧
    (∀ ty pr u id a b, Fires s (.getsr ty pr u id a b) x →
      Delivers s (.getsr ty pr u id a b) x [a, b] (resultTok (.getsr ty pr u id a b) x.o ty.wide fun l =>
        if ty.wide then s.special x.warp x.run.am id.toNat l
        else ((s.special x.warp x.run.am id.toNat l).setWidth 32).setWidth 64) 0) ∧
    (∀ f, Fires s (.sel f) x →
      Delivers s (.sel f) x [f.t0, f.t1] (resultTok (.sel f) x.o f.ty.wide fun l =>
        if x.o.third.full l = 0 then f.b x.o l else x.o.left.atTy f.ty l) 0)) ∧
  ∀ (s : State) (x : Warp) (l : Launch) (am : Lanes) (lane : Nat), s.launch? x.id.team.launch = some l →
    let before (g : Nat) : Nat := ((List.range g).map l.stageWarps).sum
    s.special x am 0 lane = BitVec.ofNat 64 lane ∧
    s.special x am 1 lane = BitVec.ofNat 64 x.id.warp ∧
    s.special x am 2 lane = BitVec.ofNat 64 x.id.team.team ∧
    (∀ g i, g < 8 → i < l.stageWarps g → x.id.warp = before g + i →
      s.special x am 3 lane = BitVec.ofNat 64 g ∧ s.special x am 14 lane = BitVec.ofNat 64 i) ∧
    s.special x am 4 lane = BitVec.ofNat 64 l.warps ∧
    s.special x am 5 lane = BitVec.ofNat 64 l.teams ∧
    s.special x am 6 lane = BitVec.ofNat 64 x.core ∧
    s.special x am 7 lane = BitVec.ofNat 64 (dieOf x.core) ∧
    s.special x am 8 lane = BitVec.ofNat 64 x.id.team.launch.ctx ∧
    s.special x am 9 lane = (s.core x.core).cycles ∧
    s.special x am 10 lane = x.fstat.setWidth 64 ∧
    s.special x am 11 lane = am.setWidth 64 ∧
    (l.plc ≠ 2 → s.special x am 12 lane = 0xFFFFFFFF) ∧
    (l.plc = 2 → s.special x am 12 lane = BitVec.ofNat 64 x.id.team.team) ∧
    s.special x am 13 lane = BitVec.ofNat 64 (x.id.team.launch.num % 2 ^ 32) ∧
    s.special x am 15 lane = BitVec.ofNat 64 l.stages ∧
    ∀ c, s.ctx? x.id.team.launch.ctx = some c → s.special x am 16 lane = BitVec.ofNat 64 c.part

/-! ### Integer (R101 to R114) -/

/-- ADD, SUB, MUL, MAD, MULH, DIV, REM, MIN, MAX, ABS and NEG complete with the results of R103 to R105: the exact result fitted to TY;
the high half of the product; the quotient truncated toward zero and its remainder, all ones and a where b is 0; the lesser and the
greater; the magnitude and the negation, fitted. -/
def Obligations.IntegerArithmeticCompletes : Prop :=
  ∀ (s : State) (f : IntF),
    let a (x : Issue) (l : Nat) : Int := f.ty.int (x.o.left.atTy f.ty l)
    let b (x : Issue) (l : Nat) : Int := f.ty.int (f.b x.o l)
    let c (x : Issue) (l : Nat) : Int := f.ty.int (x.o.third.atTy f.ty l)
    IntCompletes s (.add f) f f.ty.wide (fun x l v => FitsTo f.ty f.sat (a x l + b x l) v) ∧
    IntCompletes s (.sub f) f f.ty.wide (fun x l v => FitsTo f.ty f.sat (a x l - b x l) v) ∧
    IntCompletes s (.mul f) f f.ty.wide (fun x l v => FitsTo f.ty f.sat (a x l * b x l) v) ∧
    IntCompletes s (.mad f) f f.ty.wide (fun x l v => FitsTo f.ty f.sat (a x l * b x l + c x l) v) ∧
    IntCompletes s (.mulh f) f f.ty.wide
      (fun x l v => FitsTo f.ty false ((a x l * b x l).fdiv (2 ^ f.ty.bitsW : Nat)) v) ∧
    IntCompletes s (.div f) f f.ty.wide (fun x l v =>
      (b x l = 0 → v.toNat = 2 ^ f.ty.bitsW - 1) ∧ (b x l ≠ 0 → FitsTo f.ty f.sat ((a x l).tdiv (b x l)) v)) ∧
    IntCompletes s (.rem f) f f.ty.wide (fun x l v =>
      (b x l = 0 → FitsTo f.ty false (a x l) v) ∧
      (b x l ≠ 0 → FitsTo f.ty false (a x l - b x l * (a x l).tdiv (b x l)) v)) ∧
    IntCompletes s (.min f) f f.ty.wide (fun x l v =>
      f.ty.int v = min (a x l) (b x l) ∧ (v = x.o.left.atTy f.ty l ∨ v = f.b x.o l)) ∧
    IntCompletes s (.max f) f f.ty.wide (fun x l v =>
      f.ty.int v = max (a x l) (b x l) ∧ (v = x.o.left.atTy f.ty l ∨ v = f.b x.o l)) ∧
    IntCompletes s (.neg f) f f.ty.wide (fun x l v => FitsTo f.ty f.sat (-a x l) v) ∧
    IntCompletes s (.abs f) f f.ty.wide (fun x l v => FitsTo f.ty f.sat ((a x l).natAbs : Int) v)

/-- AND, OR, XOR, ANDN and NOT act on every bit; SHL, SHR, SAR and ROL shift by the whole count, SHL under SAT giving the exact product
clamped; CLZ, POPC and BREV count and turn the bits (R106 to R108). -/
def Obligations.LogicAndShiftsComplete : Prop :=
  ∀ (s : State) (f : IntF),
    let a (x : Issue) (l : Nat) : W64 := x.o.left.atTy f.ty l
    let b (x : Issue) (l : Nat) : W64 := f.b x.o l
    let n (x : Issue) (l : Nat) : Nat := (f.b x.o l).toNat
    let w := f.ty.bitsW
    IntCompletes s (.and f) f f.ty.wide
      (fun x l v => BitsAre f.ty v fun k => (a x l).getLsbD k && (b x l).getLsbD k) ∧
    IntCompletes s (.or f) f f.ty.wide
      (fun x l v => BitsAre f.ty v fun k => (a x l).getLsbD k || (b x l).getLsbD k) ∧
    IntCompletes s (.xor f) f f.ty.wide
      (fun x l v => BitsAre f.ty v fun k => (a x l).getLsbD k != (b x l).getLsbD k) ∧
    IntCompletes s (.andn f) f f.ty.wide
      (fun x l v => BitsAre f.ty v fun k => (a x l).getLsbD k && !(b x l).getLsbD k) ∧
    IntCompletes s (.not f) f f.ty.wide (fun x l v => BitsAre f.ty v fun k => !(a x l).getLsbD k) ∧
    IntCompletes s (.shl f) f f.ty.wide (fun x l v =>
      (f.sat = false → BitsAre f.ty v fun k => decide (n x l ≤ k) && (a x l).getLsbD (k - n x l)) ∧
      (f.sat = true → FitsTo f.ty true (f.ty.int (a x l) * 2 ^ min (n x l) w) v)) ∧
    IntCompletes s (.shr f) f f.ty.wide (fun x l v => BitsAre f.ty v fun k => (a x l).getLsbD (k + n x l)) ∧
    IntCompletes s (.sar f) f f.ty.wide (fun x l v => BitsAre f.ty v fun k => (a x l).getLsbD (min (k + n x l) (w - 1))) ∧
    IntCompletes s (.rol f) f f.ty.wide
      (fun x l v => BitsAre f.ty v fun k => (a x l).getLsbD ((k + (w - n x l % w)) % w)) ∧
    IntCompletes s (.brev f) f f.ty.wide (fun x l v => BitsAre f.ty v fun k => (a x l).getLsbD (w - 1 - k)) ∧
    IntCompletes s (.clz f) f false (fun x l v =>
      v.toNat ≤ w ∧ (∀ k, w - v.toNat ≤ k → k < w → (a x l).getLsbD k = false) ∧
        (v.toNat < w → (a x l).getLsbD (w - 1 - v.toNat) = true)) ∧
    IntCompletes s (.popc f) f false (fun x l v =>
      v.toNat = ((List.range w).filter fun k => (a x l).getLsbD k).length)

/-- BFX gives the named bits of a, extended as TY's sign asks, 0 for a length of 0; BFI gives a with the named bits replaced (R109). -/
def Obligations.BitFieldsComplete : Prop :=
  ∀ (s : State) (f : IntF),
    let a (x : Issue) (l : Nat) : W64 := x.o.left.atTy f.ty l
    let b (x : Issue) (l : Nat) : W64 := f.b x.o l
    let w := f.ty.bitsW
    let pos (c : W64) : Nat := c.toNat % 256
    let len (c : W64) : Nat := min (c.toNat / 256 % 256) w
    IntCompletes s (.bfx f) f f.ty.wide (fun x l v =>
      let c := b x l
      BitsAre f.ty v fun k =>
        if k < len c then (a x l).getLsbD (pos c + k)
        else f.ty.signed && decide (0 < len c) && (a x l).getLsbD (pos c + len c - 1)) ∧
    IntCompletes s (.bfi f) f f.ty.wide (fun x l v =>
      let c := x.o.third.atTy f.ty l
      BitsAre f.ty v fun k =>
        if pos c ≤ k ∧ k < pos c + len c then (b x l).getLsbD (k - pos c) else (a x l).getLsbD k)

/-- CMP, LEA, PK2, EXH, HOP and DP4 complete with the results of R110 to R114. -/
def Obligations.ComparisonsAndPackedComplete : Prop :=
  ∀ (s : State) (f : IntF),
    let a (x : Issue) (l : Nat) : W64 := x.o.left.atTy f.ty l
    let b (x : Issue) (l : Nat) : W64 := f.b x.o l
    let c (x : Issue) (l : Nat) : W64 := x.o.third.atTy f.ty l
    (∀ k : Cond, IntCompletes s (.cmp k f) f false (fun x l v =>
      (CondHolds k (f.ty.int (a x l)) (f.ty.int (b x l)) → v = 1) ∧
      (¬ CondHolds k (f.ty.int (a x l)) (f.ty.int (b x l)) → v = 0))) ∧
    (∀ sh : BitVec 3, IntCompletes s (.lea sh f) f f.ty.wide
      (fun x l v => FitsTo f.ty false (f.ty.int (a x l) + f.ty.int (b x l) * 2 ^ sh.toNat) v)) ∧
    IntCompletes s (.pk2 f) f f.ty.wide (fun x l v =>
      let h := f.ty.bitsW / 2
      v.toNat = (b x l).toNat % 2 ^ h * 2 ^ h + (a x l).toNat % 2 ^ h) ∧
    IntCompletes s (.exh false f) f false (fun x l v => v.toNat = (x.o.left.to64 f.ty.signed l).toNat / 2 ^ 32) ∧
    IntCompletes s (.exh true f) f false (fun x l v =>
      let h : W16 := (x.o.left.to64 f.ty.signed l).extractLsb' 16 16
      BitsAre .n32 v fun k => if k < 16 then h.getLsbD k else f.ty.signed && h.getLsbD 15) ∧
    (∀ (sg : Bool) (op : HopOp), IntCompletes s (.hop sg op f) f false (fun x l v =>
      v.toNat < 2 ^ 32 ∧
      HalfIs sg op f.sat ((a x l).extractLsb' 0 16) ((b x l).extractLsb' 0 16) (v.extractLsb' 0 16) ∧
      HalfIs sg op f.sat ((a x l).extractLsb' 16 16) ((b x l).extractLsb' 16 16) (v.extractLsb' 16 16))) ∧
    ∀ ls rs : Bool, IntCompletes s (.dp4 ls rs f) f false (fun x l v =>
      FitsTo .i32 f.sat (Ty.i32.int (c x l) + byteInt ls (a x l) 0 * byteInt rs (b x l) 0 +
        byteInt ls (a x l) 1 * byteInt rs (b x l) 1 + byteInt ls (a x l) 2 * byteInt rs (b x l) 2 +
        byteInt ls (a x l) 3 * byteInt rs (b x l) 3) v)





/-! ### Control (R88 to R94) -/

/-- Each control instruction completes, giving the lanes of a valid result the successor of R88's table; RET the address of the
topmost join entry, or nothing. -/
def Obligations.ControlCompletes : Prop :=
  ∀ (s : State) (x : Issue),
    let t := x.run.va
    (∀ pr off, Fires s (.br pr off) x → Gives s (.br pr off) x fun _ => some (.block (t + 32 * off.signExtend 64))) ∧
    (∀ pr nz z, Fires s (.brc pr nz z) x → Gives s (.brc pr nz z) x fun l =>
      some (.block (if x.o.left.full l = 0 then t + 32 * z.signExtend 64 else t + 32 * nz.signExtend 64))) ∧
    (∀ pr, Fires s (.brx pr) x → Gives s (.brx pr) x fun l => some (.block (x.o.left.full l &&& 0xFFFFFFFFFFFFFFE0))) ∧
    (∀ pr callee back, Fires s (.call pr callee back) x → Gives s (.call pr callee back) x fun _ =>
      some (.call (t + 32 * callee.signExtend 64) (t + 32 * back.signExtend 64))) ∧
    (∀ pr, Fires s (.ret pr) x → Gives s (.ret pr) x fun _ => (topJoin x.warp.stack).map .block) ∧
    (∀ pr, Fires s (.exit pr) x → Gives s (.exit pr) x fun _ => some .exit) ∧
    (∀ pr off, Fires s (.yield pr off) x → Gives s (.yield pr off) x fun _ => some (.yield (t + 32 * off.signExtend 64))) ∧
    (∀ pr code, Fires s (.trap pr code) x → Gives s (.trap pr code) x fun _ => some (.trap code)) ∧
    (∀ pr code, Fires s (.bkpt pr code) x → Gives s (.bkpt pr code) x fun _ => some (.bkpt code))

/-! ### Float, quantisation and cross-lane (R149 to R170, R221 to R225) -/

/-- FADD, FSUB, FMUL, FFMA and FDIV complete with the exact result of the operation rounded once under RM and SAT, and its flags
from the valid lanes (R145, R151, R153). The special values of R153: opposed infinities, 0·∞, 0/0 and ∞/∞ give the canonical NaN and
raise NV; a finite nonzero value divided by zero gives an infinity and raises DZ. The finite results: the exact sum, product, quotient and
a·b + c, zeros signed as R134 says. The one rounding (R138): to the nearer value, at a tie to the even one, toward zero, down or up, on the
grid with subnormals; what lies beyond the largest value overflows (R140), SAT making an infinity the largest value (R141); UF where the
result is tiny and inexact (R142). -/
def Obligations.FloatArithmeticCompletes : Prop :=
  (∀ (s : State) (f : FloatF),
    let v (n : Nat) : Fp := f.ty.fmt.decode n
    let a (x : Issue) (l : Nat) : Fp := v (f.opnd x.o.left l)
    let b (x : Issue) (l : Nat) : Fp := v (f.bBits x.o l)
    let out (r : Ex × Flags) : FRes :=
      (BitVec.ofNat 64 (f.ty.fmt.round f.rm f.sat r.1).1, r.2 ||| (f.ty.fmt.round f.rm f.sat r.1).2)
    FloatCompletes s (.fadd f) f.t0 f.t1 false (fun x l => out (fpAdd f.rm (a x l) (b x l))) ∧
    FloatCompletes s (.fsub f) f.t0 f.t1 false (fun x l => out (fpAdd f.rm (a x l) (b x l).neg)) ∧
    FloatCompletes s (.fmul f) f.t0 f.t1 false (fun x l => out (fpMul (a x l) (b x l))) ∧
    FloatCompletes s (.fdiv f) f.t0 f.t1 false (fun x l => out (fpDiv (a x l) (b x l))) ∧
    ∀ op : FmaOp, FloatCompletes s (.ffma op f) f.t0 f.t1 false (fun x l =>
      let c := v (f.ty.fbits (x.o.third.val l))
      out (fpFma f.rm (op == .neg || op == .negsub) (a x l) (b x l) (if op == .sub || op == .negsub then c.neg else c)))) ∧
  (∀ (rm : Rm) (n m : Bool) (k : Nat) (e e' : Int) (c : Fp), k ≠ 0 →
    fpAdd rm (.inf n) (.inf !n) = (.nan, .nv) ∧
    fpMul (.fin n 0 e) (.inf m) = (.nan, .nv) ∧ fpMul (.inf m) (.fin n 0 e) = (.nan, .nv) ∧
    fpFma rm false (.fin n 0 e) (.inf m) c = (.nan, .nv) ∧
    fpDiv (.fin n 0 e) (.fin m 0 e') = (.nan, .nv) ∧ fpDiv (.inf n) (.inf m) = (.nan, .nv) ∧
    fpDiv (.fin n k e) (.fin m 0 e') = (.inf (n != m), .dz) ∧
    ∀ (f : FloatF), (f.out (.nan, .nv)).1 = BitVec.ofNat 64 f.ty.fmt.canonNaN) ∧
  (∀ (rm : Rm) (n n' n'' minus : Bool) (m m' m'' : Nat) (e e' e'' : Int),
    let a := ratV n m 1 e
    let b := ratV n' m' 1 e'
    let is (r : Ex × Flags) (v : ℚ) (zero : Bool) : Prop := r.2 = 0 ∧ ∃ k d x, ∃ s : Bool, r.1 = .rat s k d x ∧ d ≠ 0 ∧ ratV s k d x = v ∧
      (k = 0 → s = zero)
    let sum (s t : Bool) : Bool := if s = t then s else decide (rm = .rdn)
    is (fpAdd rm (.fin n m e) (.fin n' m' e')) (a + b) (sum n n') ∧
    is (fpMul (.fin n m e) (.fin n' m' e')) (a * b) (n != n') ∧
    (m' ≠ 0 → is (fpDiv (.fin n m e) (.fin n' m' e')) (a / b) (n != n')) ∧
    is (fpFma rm minus (.fin n m e) (.fin n' m' e') (.fin n'' m'' e'')) ((if minus then -(a * b) else a * b) + ratV n'' m'' 1 e'')
      (sum ((n != n') != minus) n'')) ∧
  ∀ (f : Fmt) (rm : Rm) (sat neg : Bool) (n d : Nat) (e : Int), f ∈ [Fmt.f32, .f16, .bf16, .e4m3, .e5m2, .ue5m3] → d ≠ 0 →
    let x := ratV neg n d e
    let out := f.round rm sat (.rat neg n d e)
    (n = 0 → out = (f.signBit neg, 0)) ∧
    (n ≠ 0 → neg = true → f.signed = false → out = if sat then (0, .sf) else (f.canonNaN, .nv)) ∧
    (n ≠ 0 → (neg = true → f.signed = true) → ∃ y y', f.RoundsTo true rm x y ∧ f.RoundsTo false rm x y' ∧
      (|y| ≤ f.largest → (∃ k q, f.decode out.1 = .fin neg k q ∧ ratV neg k 1 q = y) ∧
        out.2 = Flags.when (decide (y ≠ x)) .nx ||| Flags.when (decide (y ≠ x ∧ |y'| < 2 ^ f.emin)) .uf) ∧
      (f.largest < |y| →
        let inf : Bool := rm == .rne || (rm == .rdn && neg) || (rm == .rup && !neg)
        let most := f.signBit neg + f.maxFin
        out = (if inf && !sat then (if f.ieee then f.signBit neg + f.infBits else f.canonNaN) else most,
          Flags.when (inf && sat) .sf ||| .of ||| .nx)))

/-- FRCP, FRSQ, FTRN, FSCL, FCLS, CVT and FOP2 complete with their values and flags (R157 to R162). What they are: FRCP and FRSQ of a
zero, an infinity and a negative number (R157); FTRN's special values, its 16-bit results, the nearest to the exact value, and its FP32
results, which the model leaves free within R158's bound and else takes the nearest (log 4); FSCL's scaling (R159); FCLS's classes
(R160); of CVT the integer clamped, the float rounded, the NaN and the infinity (R139, R161); that a negative INT8 clamps too under an
unsigned TY is log 96 (DEDUCED). -/
def Obligations.FloatFunctionsComplete : Prop :=
  (∀ (s : State) (f : FloatF),
    FloatCompletes s (.frcp f) f.t0 f.t1 false (fun x l => f.out (fpRcp (f.ty.fmt.decode (f.opnd x.o.left l)))) ∧
    FloatCompletes s (.frsq f) f.t0 f.t1 false (fun x l => f.out (fpRsq (f.ty.fmt.decode (f.opnd x.o.left l)))) ∧
    (∀ fn : Trn, FloatCompletes s (.ftrn fn f) f.t0 f.t1 false (fun x l => fres (ftrn fn f.ty.fmt (f.opnd x.o.left l)))) ∧
    FloatCompletes s (.fscl f) f.t0 f.t1 false (fun x l =>
      fvScl f (f.opnd x.o.left l) ((f.imm.map fun v => v.toInt).getD (x.o.right.val32 l).toInt)) ∧
    (∀ src pr u mask a b, FloatCompletes s (.fcls src pr u mask a b) a b false (fun x l =>
      (fvCls src mask (x.o.left.val l), 0))) ∧
    (∀ src dst : FmtCode, FloatCompletes s (.cvt src dst f) f.t0 f.t1 (dst == .int && f.ty.wide) (fun x l =>
      fvCvt src dst f (if src == .int then x.o.left.atTy f.ty l else x.o.left.val l))) ∧
    ∀ (bf : Bool) (op : Fop2Op), FloatCompletes s (.fop2 bf op f) f.t0 f.t1 false (fun x l =>
      fvFop2 bf op f (x.o.left.val l) (x.o.right.val l) (x.o.third.val l))) ∧
  (∀ (n : Bool) (k : Nat) (e : Int), k ≠ 0 →
    fpRcp .nan = (.nan, 0) ∧ fpRcp (.fin n 0 e) = (.inf n, .dz) ∧ fpRcp (.inf n) = (.rat n 0 1 0, 0) ∧
    fpRcp (.fin n k e) = (.rat n 1 k (-e), 0) ∧
    fpRsq .nan = (.nan, 0) ∧ fpRsq (.fin n 0 e) = (.inf n, .dz) ∧ fpRsq (.inf false) = (.rat false 0 1 0, 0) ∧
    fpRsq (.inf true) = (.nan, .nv) ∧ fpRsq (.fin true k e) = (.nan, .nv) ∧
    trnV .log2 (.fin n 0 e) = .exact (.inf true) .dz ∧ trnV .log2 (.fin true k e) = .exact .nan .nv ∧
    trnV .tanh (.fin n 0 e) = .exact (.rat n 0 1 0) 0 ∧ trnV .sigm (.fin n 0 e) = .exact (.rat false 1 1 (-1)) 0 ∧
    trnV .sin2pi (.fin n 0 e) = .exact (.rat n 0 1 0) 0 ∧ trnV .cos2pi (.fin n 0 e) = .exact (.rat false 1 1 0) 0 ∧
    trnV .exp2 (.fin n 0 e) = .exact (.rat false 1 1 0) 0) ∧
  (trnV .exp2 (.inf false) = .exact (.inf false) 0 ∧ trnV .exp2 (.inf true) = .exact (.rat false 0 1 0) 0 ∧
    trnV .log2 (.inf false) = .exact (.inf false) 0 ∧ trnV .log2 (.inf true) = .exact .nan .nv ∧
    (∀ n, trnV .sin2pi (.inf n) = .exact .nan .nv ∧ trnV .cos2pi (.inf n) = .exact .nan .nv ∧
      trnV .tanh (.inf n) = .exact (.rat n 1 1 0) 0) ∧
    trnV .sigm (.inf true) = .exact (.rat false 0 1 0) 0 ∧ trnV .sigm (.inf false) = .exact (.rat false 1 1 0) 0 ∧
    ∀ fn, trnV fn .nan = .exact .nan 0) ∧
  (∀ (fn : Trn) (m : Fmt) (bits : Nat),
    (∀ x fl, trnV fn (m.decode bits) = .exact x fl →
      ftrn fn m bits = ((m.round .rne false x).1, fl ||| (m.round .rne false x).2)) ∧
    (∀ neg n d e, n ≠ 0 → trnV fn (m.decode bits) = .near neg n d e →
      let near := (m.round .rne false (.rat neg n d e)).1
      (m ≠ .f32 → (ftrn fn m bits).1 = near) ∧
      (m = .f32 → (ftrn fn m bits).1 = near ∨ ∃ cn cm ce, m.decode (ftrn fn m bits).1 = .fin cn cm ce ∧ (cm = 0 → cn = neg) ∧
        withinBound neg n d e cn cm ce (trnBound fn n d e).1 (trnBound fn n d e).2 = true) ∧
      (ftrn fn m bits).2 ||| Flags.nx = (ftrn fn m bits).2)) ∧
  (∀ (f : FloatF) (a : Nat) (n : Int),
    (f.ty.fmt.decode a = .nan → fvScl f a n = f.out (.nan, 0)) ∧
    (∀ b, f.ty.fmt.decode a = .inf b → fvScl f a n = f.out (.inf b, 0)) ∧
    (∀ b k e, f.ty.fmt.decode a = .fin b k e → -1000 ≤ n → n ≤ 1000 → fvScl f a n = f.out (.rat b k 1 (e + n), 0))) ∧
  (∀ (m : Fmt) (b k : Nat) (e : Int),
    (m.decode b = .inf true → classWord m b = 2 ^ 0) ∧
    (m.decode b = .fin true k e → 2 ^ m.fbits ≤ k → classWord m b = 2 ^ 1) ∧
    (m.decode b = .fin true k e → 0 < k → k < 2 ^ m.fbits → classWord m b = 2 ^ 2) ∧
    (m.decode b = .fin true 0 e → classWord m b = 2 ^ 3) ∧
    (m.decode b = .fin false 0 e → classWord m b = 2 ^ 4) ∧
    (m.decode b = .fin false k e → 0 < k → k < 2 ^ m.fbits → classWord m b = 2 ^ 5) ∧
    (m.decode b = .fin false k e → 2 ^ m.fbits ≤ k → classWord m b = 2 ^ 6) ∧
    (m.decode b = .inf false → classWord m b = 2 ^ 7) ∧
    (m.decode b = .nan → classWord m b = 2 ^ 8)) ∧
  (∀ (src : FmtCode) (x : W64) (mask : BitVec 24),
    let c := classWord src.fmt (x.toNat % 2 ^ src.width)
    fvCls src none x = BitVec.ofNat 64 c ∧
    (fvCls src (some mask) x = 1 ↔ ∃ j, j < 9 ∧ c.testBit j = true ∧ mask.getLsbD j = true)) ∧
  (∀ (src dst : FmtCode) (f : FloatF) (x : W64),
    let v : Fp := src.fmt.decode (x.toNat % 2 ^ src.width)
    (src ≠ .i8 → src ≠ .int → dst ≠ .i8 → dst ≠ .int → src ≠ dst →
      fvCvt src dst f x = (BitVec.ofNat 64 (dst.fmt.round f.rm f.sat v.ex).1, (dst.fmt.round f.rm f.sat v.ex).2)) ∧
    (dst ≠ .i8 → dst ≠ .int → fvCvt .int dst f x =
      (BitVec.ofNat 64 (dst.fmt.round f.rm f.sat (intFp (f.ty.int x)).ex).1, (dst.fmt.round f.rm f.sat (intFp (f.ty.int x)).ex).2)) ∧
    (src ≠ .i8 → src ≠ .int → v = .nan → fvCvt src .int f x = (0, .nv)) ∧
    (∀ n, f.ty.isInt = true → src ≠ .i8 → src ≠ .int → v = .inf n →
      f.ty.int (fvCvt src .int f x).1 = (if n then f.ty.lo else f.ty.hi) ∧ (fvCvt src .int f x).2 = .nv) ∧
    (∀ n k e, f.ty.isInt = true → src ≠ .i8 → src ≠ .int → v = .fin n k e →
      f.ty.int (fvCvt src .int f x).1 = max f.ty.lo (min f.ty.hi (roundToInt f.rm n k 1 e).1)) ∧
    (f.ty.isInt = true → f.ty.int (fvCvt .i8 .int f x).1 = max f.ty.lo (min f.ty.hi (x.setWidth 8 : W8).toInt)))

/-- FMIN and FMAX complete with one of their operands, a NaN giving way without `.nan` and winning with it, and no flag (R154); FSGN
acts on sign bits alone, a NaN a giving the canonical NaN, with no flag (R155); FCMP gives the truth of its condition, a NaN making the
pair unordered, which sets NV for the four orderings (R156). -/
def Obligations.FloatSelectionCompletes : Prop :=
  (∀ (s : State) (f : FloatF) (nan : Bool),
    let m := f.ty.fmt
    let a (x : Issue) (l : Nat) : Nat := f.opnd x.o.left l
    let b (x : Issue) (l : Nat) : Nat := f.bBits x.o l
    let special (p q v : Nat) : Prop :=
      (m.decode p = .nan → m.decode q = .nan → v = m.canonNaN) ∧
      (m.decode p = .nan → m.decode q ≠ .nan → v = if nan then m.canonNaN else q) ∧
      (m.decode p ≠ .nan → m.decode q = .nan → v = if nan then m.canonNaN else p)
    (∃ g : Issue → Nat → Nat,
      FloatCompletes s (.fmin nan f) f.t0 f.t1 false (fun x l => (BitVec.ofNat 64 (g x l), 0)) ∧
      ∀ x l, special (a x l) (b x l) (g x l) ∧
        (m.decode (a x l) ≠ .nan → m.decode (b x l) ≠ .nan →
          g x l = if fpBelow (m.decode (b x l)) (m.decode (a x l)) then b x l else a x l)) ∧
    (∃ g : Issue → Nat → Nat,
      FloatCompletes s (.fmax nan f) f.t0 f.t1 false (fun x l => (BitVec.ofNat 64 (g x l), 0)) ∧
      ∀ x l, special (a x l) (b x l) (g x l) ∧
        (m.decode (a x l) ≠ .nan → m.decode (b x l) ≠ .nan →
          g x l = if fpBelow (m.decode (a x l)) (m.decode (b x l)) then b x l else a x l))) ∧
  (∀ (s : State) (f : FloatF) (op : SgnOp),
    let m := f.ty.fmt
    ∃ g : Issue → Nat → Nat,
      FloatCompletes s (.fsgn op f) f.t0 f.t1 false (fun x l => (BitVec.ofNat 64 (g x l), 0)) ∧
      ∀ x l,
        let a := f.opnd x.o.left l
        let sb := f.bSign x.o l
        (m.decode a = .nan → g x l = m.canonNaN) ∧
        (m.decode a ≠ .nan →
          (∀ k, k < m.magBits → (g x l).testBit k = a.testBit k) ∧
          (g x l).testBit m.magBits = match op with
            | .copy => sb
            | .ncopy => !sb
            | .xor => a.testBit m.magBits != sb
            | .abs => false
            | .neg => !a.testBit m.magBits)) ∧
  (∀ (s : State) (f : FloatF) (c : FCond), ∃ g : Issue → Nat → FRes,
    FloatCompletes s (.fcmp c f) f.t0 f.t1 false g ∧
    ∀ x l,
      let a := f.ty.fmt.decode (f.opnd x.o.left l)
      let b := f.ty.fmt.decode (f.bBits x.o l)
      ((a = .nan ∨ b = .nan) → g x l =
        (if c = .ne ∨ c = .uo then 1 else 0, if c = .lt ∨ c = .le ∨ c = .gt ∨ c = .ge then Flags.nv else 0)) ∧
      (a ≠ .nan → b ≠ .nan → g x l = (match c with
        | .eq => boolW (!fpLt a b && !fpLt b a)
        | .ne => boolW (fpLt a b || fpLt b a)
        | .lt => boolW (fpLt a b)
        | .le => boolW (!fpLt b a)
        | .gt => boolW (fpLt b a)
        | .ge => boolW (!fpLt a b)
        | .uo => 0
        | .ord => 1, 0)))




/-- QMAX, QCVT and DQCV complete with their values and flags; QMAX's uniform result is always valid (R164 to R166). R147: the scale of a
NaN or an infinity is 0xFF, of zeros 1; the scale of many values is that of the largest; E8M0's exponent is that of the largest less
the target's, held from −127 to 127; UE5M3's is the quotient by Fmax rounded up, held at the largest. R148: what a NaN, an infinity, a
zero scale and a quotient beyond the range give; DQCV's product is exact before its one rounding. -/
def Obligations.QuantisationCompletes : Prop :=
  (∀ (s : State) (f : QuantF) (x : Issue),
    (Fires s (.qmax f) x →
      let r := qmaxScale f.ue5m3 f.tgt
        ((allLanes.filter (laneOk (.qmax f) x.o)).map fun l => f.ty.fmt.decode (f.ty.fbits (x.o.left.val l)))
      Delivers s (.qmax f) x [f.t0, f.t1] (Token.uniform false true (BitVec.ofNat 64 r.1)) r.2) ∧
    FloatCompletes s (.qcvt f) f.t0 f.t1 false (fun x l =>
      qcvtVal f (f.ty.fmt.decode (f.ty.fbits (x.o.left.val l))) (scaleVal f.ue5m3 ((x.o.right.val l).setWidth 8).toNat)) ∧
    FloatCompletes s (.dqcv f) f.t0 f.t1 false (fun x l =>
      dqcvVal f (x.o.left.val l) (scaleVal f.ue5m3 ((x.o.right.val l).setWidth 8).toNat))) ∧
  (∀ (u : Bool) (t : QFmt) (xs : List Fp),
    ((∃ x ∈ xs, x = .nan ∨ ∃ n, x = .inf n) → qmaxScale u t xs = (0xFF, .nv)) ∧
    ((∀ x ∈ xs, ∃ n e, x = .fin n 0 e) → qmaxScale u t xs = (if u then 0x78 else 0x7F, 0)) ∧
    ((∀ x ∈ xs, ∃ n m e, x = .fin n m e) → xs ≠ [] → ∃ n m e, Fp.fin n m e ∈ xs ∧
      (∀ a b c, Fp.fin a b c ∈ xs → fpLt (.fin false m e) (.fin false b c) = false) ∧
      qmaxScale u t xs = qmaxScale u t [.fin n m e])) ∧
  (∀ (t : QFmt) (n : Bool) (m : Nat) (e : Int) (k : Nat), 2 ^ k ≤ m → m < 2 ^ (k + 1) →
    let x : Int := k + e - t.emax
    ((qmaxScale false t [.fin n m e]).1 : Int) = max (-127) (min 127 x) + 127 ∧
    (qmaxScale false t [.fin n m e]).2 = Flags.when (decide (x < -127 ∨ 127 < x)) .sf) ∧
  (∀ (t : QFmt) (n : Bool) (m : Nat) (e : Int), m ≠ 0 →
    let r := Fmt.ue5m3.roundMag .rup false m t.fmax e
    qmaxScale true t [.fin n m e] =
      if Fmt.ue5m3.beyond r.1 r.2.1 then (Fmt.ue5m3.maxFin, .sf) else (Fmt.ue5m3.encodeMag r.1 r.2.1, 0)) ∧
  (∀ (f : QuantF) (n : Bool) (m : Nat) (e : Int) (x : Fp), m ≠ 0 →
    let nan : Nat := (f.tgt.fmt.map (·.canonNaN)).getD 0
    let most : Nat := match f.tgt.fmt with
      | some g => g.signBit n + g.maxFin
      | none => intBits 8 (if n then -(f.tgt.fmax : Int) - 1 else f.tgt.fmax)
    qcvtVal f .nan x = (BitVec.ofNat 64 nan, .nv) ∧ qcvtVal f x .nan = (BitVec.ofNat 64 nan, .nv) ∧
    (x ≠ .nan → qcvtVal f (.inf n) x = (BitVec.ofNat 64 most, .sf)) ∧
    (∀ s se, qcvtVal f (.fin n m e) (.fin s 0 se) = (BitVec.ofNat 64 most, .sf ||| .dz) ∧
      qcvtVal f (.fin n 0 e) (.fin s 0 se) = (BitVec.ofNat 64 nan, .nv)) ∧
    (∀ s sm se, sm ≠ 0 → f.tgt.fmt = none →
      let i := (roundToInt f.rm n m sm (e - se)).1
      (i < -(f.tgt.fmax : Int) - 1 ∨ (f.tgt.fmax : Int) < i →
        qcvtVal f (.fin n m e) (.fin s sm se) = (BitVec.ofNat 64 most, .sf ||| .nx)) ∧
      (-(f.tgt.fmax : Int) - 1 ≤ i → i ≤ f.tgt.fmax →
        (qcvtVal f (.fin n m e) (.fin s sm se)).1 = BitVec.ofNat 64 (intBits 8 i))) ∧
    (∀ g s sm se, sm ≠ 0 → f.tgt.fmt = some g →
      let r := g.roundMag f.rm n m sm (e - se)
      (g.beyond r.1 r.2.1 = true → qcvtVal f (.fin n m e) (.fin s sm se) = (BitVec.ofNat 64 most, .sf ||| .nx)) ∧
      (g.beyond r.1 r.2.1 = false →
        (qcvtVal f (.fin n m e) (.fin s sm se)).1 = BitVec.ofNat 64 (g.signBit n + g.encodeMag r.1 r.2.1)))) ∧
  ∀ (f : QuantF) (q : W64) (n s : Bool) (m sm : Nat) (e se : Int), dqVal f.tgt q = .fin n m e →
    dqcvVal f q (.fin s sm se) = (BitVec.ofNat 64 (f.ty.fmt.round f.rm f.sat (.rat (n != s) (m * sm) 1 (e + se))).1,
      (f.ty.fmt.round f.rm f.sat (.rat (n != s) (m * sm) 1 (e + se))).2)

/-- SHFL, VOTE and BCST complete: each lane the value of its source lane; the vote of the participating lanes, always valid; the value
of one lane made uniform (R168 to R170). What VOTE counts (R169): `.cnt` the participating lanes with a nonzero value, `.hit` whether
there is one, `.full` whether all are, `.same` whether all hold one value, `.first` the lowest, 32 for none, `.mask` and `.pmask` the
lanes themselves; the value is taken at TY's width, of a 64-bit token under a 32-bit TY its low half (DEDUCED, log 98). -/
def Obligations.CrossLaneCompletes : Prop :=
  (∀ (s : State) (f : IntF) (x : Issue),
    (∀ op, Fires s (.shfl op f) x →
      ∃ tok : Token, Delivers s (.shfl op f) x [f.t0, f.t1] tok 0 ∧ tok.uni = false ∧
        ∀ l, l < 32 →
          let b := shflB f x.o l
          let src := match op with
            | .lane => b.toNat % 32
            | .swz => l ^^^ (b.toNat % 32)
            | .rot => (l + b.toNat) % 32
            | .slide => if 0 ≤ (l : Int) + b.toInt ∧ (l : Int) + b.toInt < 32 then ((l : Int) + b.toInt).toNat else l
          (tok.mask.getLsbD l = true ↔
            x.o.am.getLsbD l = true ∧ (f.imm.isSome = true ∨ x.o.right.ok x.o.am l = true) ∧
            predLane (.shfl op f) x.o l = true ∧ x.o.left.ok x.o.am src = true) ∧
          (tok.mask.getLsbD l = true → tok.val l = x.o.left.atTy f.ty src)) ∧
    (∀ op, Fires s (.vote op f) x →
      Delivers s (.vote op f) x [f.t0, f.t1] (Token.uniform f.ty.wide true
        ((voteVal op ((allLanes.filter (laneOk (.vote op f) x.o)).map fun l => (l, x.o.left.atTy f.ty l))).setWidth 64)) 0) ∧
    (Fires s (.bcst f) x →
      let j := (shflB f x.o 0).toNat % 32
      let ok := (f.imm.isSome || x.o.right.mask.getLsbD 0) && x.o.left.ok x.o.am j
      Delivers s (.bcst f) x [f.t0, f.t1] (Token.uniform f.ty.wide ok (if ok then x.o.left.atTy f.ty j else 0)) 0)) ∧
  (∀ p : List (Nat × W64), p.length ≤ 32 → (∀ q ∈ p, q.1 < 32) → (p.map (·.1)).Pairwise (· < ·) →
    let hit := p.filter fun q => q.2 != 0
    (voteVal .cnt p).toNat = hit.length ∧
    (voteVal .hit p = 1 ↔ ∃ q ∈ p, q.2 ≠ 0) ∧
    (voteVal .full p = 1 ↔ ∀ q ∈ p, q.2 ≠ 0) ∧
    (voteVal .same p = 1 ↔ ∀ q ∈ p, ∀ r ∈ p, q.2 = r.2) ∧
    (voteVal .first p).toNat = ((hit.map (·.1)).headD 32) ∧
    (∀ l, l < 32 → ((voteVal .mask p).getLsbD l = true ↔ ∃ q ∈ p, q.1 = l ∧ q.2 ≠ 0)) ∧
    (∀ l, l < 32 → ((voteVal .pmask p).getLsbD l = true ↔ ∃ q ∈ p, q.1 = l)))


/-- SCAN and WRED complete with the tree of R223 over the valid lanes: a lane's result, the one before it under EX, or lane 31's
made uniform; the identity where no operand has come (R224). R223: the tree takes five steps of distance 1, 2, 4, 8 and 16; in each a
lane from the distance on combines the value that many lanes below it, on the left, with its own, one side empty passing the other
on. R222: the integer combinations are the sum, the product, the lesser and the greater, fitted to TY; so an integer sum over all the
lanes is the sum of the lanes up to each. -/
def Obligations.ScansComplete : Prop :=
  (∀ (s : State) (f : ScanF) (x : Issue),
    let pick (o : Option W64) : W64 := (o.map fun v => scanCanon f v).getD (scanIdentity f)
    (Fires s (.scan false f) x →
      let y := scanOf (.scan false f) f x.o
      Delivers s (.scan false f) x [f.t0, f.t1]
        (Token.lanes f.ty.wide (okLanes (.scan false f) x.o) fun l => pick (y.1.getD l none)) y.2) ∧
    (Fires s (.scan true f) x →
      let y := scanOf (.scan true f) f x.o
      Delivers s (.scan true f) x [f.t0, f.t1]
        (Token.lanes f.ty.wide (okLanes (.scan true f) x.o) fun l =>
          if l = 0 then scanIdentity f else pick (y.1.getD (l - 1) none)) y.2) ∧
    (Fires s (.wred f) x →
      let y := scanOf (.wred f) f x.o
      Delivers s (.wred f) x [f.t0, f.t1] (Token.uniform f.ty.wide true (pick (y.1.getD 31 none))) y.2)) ∧
  (∀ (f : ScanF) (y : List (Option W64)),
    let p (d : Nat) (y : List (Option W64)) := (scanStep f d y).1
    (scanTree f y).1 = p 16 (p 8 (p 4 (p 2 (p 1 y))))) ∧
  (∀ (f : ScanF) (d : Nat) (y : List (Option W64)), (scanStep f d y).1.length = y.length ∧ ∀ i, i < y.length →
    let r := (scanStep f d y).1.getD i none
    (i < d → r = y.getD i none) ∧
    (d ≤ i → (y.getD (i - d) none = none → r = y.getD i none) ∧ (y.getD i none = none → r = y.getD (i - d) none) ∧
      ∀ u v, y.getD (i - d) none = some u → y.getD i none = some v → r = some (scanComb f u v).1)) ∧
  (∀ (f : ScanF) (u v : W64), f.ty.isInt = true →
    (f.cmb = .add → FitsTo f.ty f.sat (f.ty.int u + f.ty.int v) (scanComb f u v).1) ∧
    (f.cmb = .mul → FitsTo f.ty f.sat (f.ty.int u * f.ty.int v) (scanComb f u v).1) ∧
    (f.cmb = .min → f.ty.int (scanComb f u v).1 = min (f.ty.int u) (f.ty.int v)) ∧
    (f.cmb = .max → f.ty.int (scanComb f u v).1 = max (f.ty.int u) (f.ty.int v)) ∧
    (f.cmb ≠ .lrec → (scanComb f u v).2 = 0)) ∧
  ∀ (f : ScanF) (xs : List W64), f.ty.isInt = true → f.cmb = .add → f.sat = false → xs.length = 32 →
    (∀ x ∈ xs, x.toNat < 2 ^ f.ty.bitsW) → ∀ i, i < 32 →
    ∃ v, (scanTree f (xs.map some)).1.getD i none = some v ∧
      FitsTo f.ty false (((xs.take (i + 1)).map fun x => f.ty.int x).sum) v

/-! ### Memory (R115 to R124) -/

/-- Where every lane passes its checks, LD and LDK complete with the bytes read at issue, extended to TY, and ST with its slot
fired and its stores held for the commit, no byte of memory changed by the store itself (R70, R116, R121, R123, R124). -/
def Obligations.LoadsAndStoresComplete : Prop :=
  ∀ (s : State) (f : MemF) (x : Issue) (t u : State) (as : List LaneAcc) (got : List (Nat × List W8)),
    (Fires s (.ld f) x → Clean s x 0 f.width.bytes false (memAddrs (.ld f) f false x.o) t as →
      t.readLanes x.w x.warp.core f.sc f.hint f.width.bytes as = (u, got, []) →
      let (a, b) := loadToks (.ld f) f false x got
      exec (.ld f) s = .next (u.setRun x.w fun r => ((r.put f.t0 a).put f.t1 b).finish x.k)) ∧
    (Fires s (.ldk f) x → Clean s x 0 f.width.bytes false (memAddrs (.ldk f) f false x.o) t as →
      t.readLanes x.w x.warp.core f.sc f.hint f.width.bytes as = (u, got, []) →
      let (a, b) := loadToks (.ldk f) f false x got
      exec (.ldk f) s = .next (u.setRun x.w fun r => ((r.put f.t0 a).put f.t1 b).finish x.k)) ∧
    (Fires s (.st f) x → Clean s x 1 f.width.bytes false (memAddrs (.st f) f false x.o) t as →
      exec (.st f) s = .next (t.setRun x.w fun r =>
        let slot : SlotSt := .stores f.sc f.ord (as.map fun a =>
          { space := if a.nc then .uncached else .mem, hint := f.hint, va := a.va, addr := a.pa, bytes := storeBytes f x.o a.lane })
        let r : Run := { r with sslots := r.sslots.set f.ss.toNat slot }
        (if (Instr.st f).targets.isEmpty then r else r.putAll [f.t0, f.t1] (nextTok (.st f) f false x)).finish x.k))

/-- Where its offsets are aligned, inside SPAD, and in tiles that grant their references, LDS completes with the scratchpad's
bytes, STS with its slot fired; both hold their references (R122, R183). -/
def Obligations.ScratchpadAccessesComplete : Prop :=
  ∀ (s : State) (f : MemF) (x : Issue), s.errs = [] →
    (let ls := memAddrs (.lds f) f true x.o
     Fires s (.lds f) x → SpadClean s x false f.width.bytes ls →
      let (a, b) := loadToks (.lds f) f true x (ls.map fun la => (la.1, s.spadRead x.w.team la.2.toNat f.width.bytes))
      exec (.lds f) s = .next ((refsTaken s x false f.width.bytes ls).setRun x.w fun r =>
        ((r.put f.t0 a).put f.t1 b).finish x.k)) ∧
    (let ls := memAddrs (.sts f) f true x.o
     Fires s (.sts f) x → SpadClean s x true f.width.bytes ls →
      exec (.sts f) s = .next ((refsTaken s x true f.width.bytes ls).setRun x.w fun r =>
        let slot : SlotSt := .stores f.sc f.ord (ls.map fun la =>
          { space := .spad, hint := f.hint, va := la.2, addr := la.2.toNat, bytes := storeBytes f x.o la.1 })
        let r : Run := { r with sslots := r.sslots.set f.ss.toNat slot }
        (if (Instr.sts f).targets.isEmpty then r else r.putAll [f.t0, f.t1] (nextTok (.sts f) f true x)).finish x.k))

/-- Faults at issue, each discarding its block and stopping its warp. LD, ST, LDK and ATOM check their lanes in ascending order, and the
first of them that faults gives the record its cause and VA, before any page fault (R124); only then a page fault parks the warp. That a
misaligned lane takes cause 0x05 whatever its translation would find, and that a fault comes before a poisoned walk, is the model's reading
(log 14). A lane's causes (R263): 0x05 a misaligned address, 0x01 and 0x02 what translation finds, 0x03 a write to a page with W = 0, 0x07 an
atomic on a window it is not carried to. LDS and STS: 0x05, and 0x06 an offset beyond SPAD (R122). The LANES word holds that one lane
(log 10), nothing for an access made once for the warp (log 11). A team with no neighbour in the direction: cause 9 (R226). A tile's
name used by a warp that does not hold it, and a routine's ending outside its routine: the tile's id (R181, R319, R323, R327); a unit
whose second tile the block does not declare: a block-format fault (R39, log 85). A routine's ending that names a unit its warp no
longer holds: the tile's id (log 108). -/
def Obligations.FaultsAtIssue : Prop :=
  (∀ (s : State) (x : Issue) (t : State) (c : Checked),
    let checks (i : Instr) (acc width : Nat) (hostOk : Bool) (ls : List (Nat × W64)) (lanes : Nat → Lanes) : Prop :=
      Fires s i x → s.checkLanes x.warp.core x.w.team.launch.ctx acc width hostOk ls = (t, c) →
      (∀ k l va, c.bad = some (k, l, va) → exec i s = .next (t.protection x k (lanes l) va)) ∧
      (∀ l va, c.bad = none → c.walk = none → c.absent = some (l, va) → exec i s = .next (t.park x.w 1 acc (lanes l) va))
    let one (l : Nat) : Lanes := (1 : Lanes) <<< l
    (∀ f, checks (.ld f) 0 f.width.bytes false (memAddrs (.ld f) f false x.o) one) ∧
    (∀ f, checks (.st f) 1 f.width.bytes false (memAddrs (.st f) f false x.o) one) ∧
    (∀ f, checks (.ldk f) 0 f.width.bytes false (memAddrs (.ldk f) f false x.o) fun _ => 0) ∧
    (∀ f, checks (.atom f) 2 f.bytes (hostCarries f)
      ((okList (.atom f) x.o).map fun l => (l, laneAddr false (if f.indexed then .indexed else .base) f.imm f.bytes x.o l)) one)) ∧
  (∀ (s : State) (core ctx acc width : Nat) (hostOk : Bool) (ls : List (Nat × W64)) (l : Nat) (va : W64),
    let p := s.checkLanes core ctx acc width hostOk ls
    s.checkLanes core ctx acc width hostOk (ls ++ [(l, va)]) = p.1.checkLane core ctx acc width hostOk p.2 (l, va)) ∧
  (∀ (s t : State) (core ctx acc width : Nat) (hostOk : Bool) (c : Checked) (l : Nat) (va : W64),
    let r := (s.checkLane core ctx acc width hostOk c (l, va)).2
    (∀ b, c.bad = some b → r.bad = some b) ∧
    (c.bad = none → va.toNat % width ≠ 0 → r.bad = some (5, l, va)) ∧
    (c.bad = none → va.toNat % width = 0 →
      (∀ k, s.translate (some core) ctx va = (t, .bad k) → r.bad = some (k, l, va)) ∧
      (s.translate (some core) ctx va = (t, .absent) → r.bad = none ∧ r.absent = c.absent.or (some (l, va))) ∧
      ∀ pa w ex nc, s.translate (some core) ctx va = (t, .page pa w ex nc) →
        (acc ≠ 0 → w = false → r.bad = some (3, l, va)) ∧
        (acc = 2 → w = true → (isHost pa || isPeer pa) = true → hostOk = false → r.bad = some (7, l, va)) ∧
        ((acc = 0 ∨ (w = true ∧ (acc = 1 ∨ (isHost pa || isPeer pa) = false ∨ hostOk = true))) →
          r.bad = none ∧ r.accs = c.accs ++ [{ lane := l, va := va, pa := pa, nc := nc }]))) ∧
  (∀ (s : State) (f : MemF) (x : Issue) (k l : Nat) (va : W64),
    (Fires s (.lds f) x → spadBad ((s.launchOf x.w).spad * 1024) f.width.bytes (memAddrs (.lds f) f true x.o) = some (k, l, va) →
      exec (.lds f) s = .next (s.protection x k ((1 : Lanes) <<< l) va)) ∧
    (Fires s (.sts f) x → spadBad ((s.launchOf x.w).spad * 1024) f.width.bytes (memAddrs (.sts f) f true x.o) = some (k, l, va) →
      exec (.sts f) s = .next (s.protection x k ((1 : Lanes) <<< l) va))) ∧
  (∀ (size width l : Nat) (va : W64) (ls : List (Nat × W64)),
    (va.toNat % width ≠ 0 → spadBad size width ((l, va) :: ls) = some (5, l, va)) ∧
    (va.toNat % width = 0 → size < va.toNat + width → spadBad size width ((l, va) :: ls) = some (6, l, va)) ∧
    (va.toNat % width = 0 → va.toNat + width ≤ size → spadBad size width ((l, va) :: ls) = spadBad size width ls)) ∧
  (∀ (s : State) (x : Issue) (pv : Bool) (pr : Pr), s.neighbour x.w.team pv = none →
    (∀ rel, Fires s (.fsend pv pr rel) x → okLanes (.fsend pv pr rel) x.o ≠ 0 →
      exec (.fsend pv pr rel) s = .next (s.protection x 9 0 0)) ∧
    (∀ acq a b, Fires s (.frecv pv pr acq a b) x → okLanes (.frecv pv pr acq a b) x.o ≠ 0 →
      exec (.frecv pv pr acq a b) s = .next (s.protection x 9 0 0)) ∧
    (∀ a b, Fires s (.fpeek pv pr a b) x → uniOk (.fpeek pv pr a b) x.o = true →
      exec (.fpeek pv pr a b) s = .next (s.protection x 9 0 0))) ∧
  (∀ (s : State) (x : Issue) (pr : Pr) (tid : BitVec 6) (t : Team) (u : Taken), s.team? x.w.team = some t →
    let fault (i : Instr) : Prop := exec i s = .next (s.fault x.w (s.stopOf x.w 0x05 0 0 x.run.va [tid.setWidth 64]))
    let format (i : Instr) : Prop :=
      exec i s = .next (s.fault x.w (s.stopOf x.w 0x01 0x11 0 x.run.va [BitVec.ofNat 64 (x.run.bodyAt + x.k)]))
    let found := t.taken.find? fun u => u.tid == tid.toNat
    (Fires s (.tgive pr tid) x → uniOk (.tgive pr tid) x.o = true →
      (found = none → fault (.tgive pr tid)) ∧
      (found = some u → u.heldBy x.w.warp = false → fault (.tgive pr tid)) ∧
      (found = some u → u.heldBy x.w.warp = true → x.declares u = false → format (.tgive pr tid))) ∧
    (∀ sum, Fires s (.sdone pr sum tid) x → uniOk (.sdone pr sum tid) x.o = true →
      (x.inRoutine tid.toNat = false → fault (.sdone pr sum tid)) ∧
      (found = none → fault (.sdone pr sum tid)) ∧
      (found = some u → u.heldBy x.w.warp = false → fault (.sdone pr sum tid)) ∧
      (x.inRoutine tid.toNat = true → found = some u → u.heldBy x.w.warp = true → x.declares u = false → format (.sdone pr sum tid))) ∧
    (Fires s (.srefu pr tid) x → uniOk (.srefu pr tid) x.o = true →
      (x.inRoutine tid.toNat = false → fault (.srefu pr tid)) ∧
      (found = none → fault (.srefu pr tid)) ∧
      (found = some u → u.heldBy x.w.warp = false → fault (.srefu pr tid)) ∧
      (x.inRoutine tid.toNat = true → found = some u → u.heldBy x.w.warp = true → x.declares u = false → format (.srefu pr tid))) ∧
    (Fires s (.tclr pr tid) x → uniOk (.tclr pr tid) x.o = true → ¬ Named s x tid.toNat → fault (.tclr pr tid)))

/-- Taking a fault (R77, R354 to R356): the warp's block is discarded and the warp stopped, its registers, its place in the program and
memory as before, and the fault waits for HALT_RAISE; a page fault parks the warp with its record's SEQ, and it replays from its block
boundary (R264, R267). Here where no gang that the warp belongs to waits at its latch (R204 faults its members too). -/
def Obligations.FaultsLeaveNoTrace : Prop :=
  ∀ (s : State) (x : Warp), s.warp? x.id = some x →
    (∀ m ∈ s.mmas, m.team = x.id.team → m.gang.getLsbD x.id.warp = true → m.phase ≠ 0) →
    let kept (t : State) (y : Warp) : Prop := t.warp? x.id = some y ∧ y.run = none ∧ y.v = x.v ∧ y.k = x.k ∧ y.m = x.m ∧
      y.fstat = x.fstat ∧ y.limit = x.limit ∧ y.gang = x.gang ∧ y.pc = x.pc ∧ y.am = x.am ∧ y.exited = x.exited ∧
      y.stack.map (fun e => (e.addr, e.mask)) = x.stack.map (fun e => (e.addr, e.mask))
    (∀ f : Stop, (∃ y, kept (s.fault x.id f) y ∧ y.phase = .faulted) ∧ (s.fault x.id f).raised = s.raised ++ [f] ∧
      (s.fault x.id f).mem = s.mem ∧ (s.fault x.id f).l1 = s.l1 ∧ (s.fault x.id f).l2 = s.l2) ∧
    (∀ (c : Ctx) (src acc : Nat) (lanes : Lanes) (va : W64), s.ctx? x.id.team.launch.ctx = some c →
      ∃ y, kept (s.park x.id src acc lanes va) y ∧ y.phase = .parked (c.fseq + 1) lanes va ∧
        ∃ z, kept ((s.park x.id src acc lanes va).unpark x.id) z ∧ z.phase = .ready)

/-- The addresses an access goes to (R115, R117): base and IMM14, the address operand itself under AM 01 and AM 10, or base and index
times width, a 32-bit index sign-extended; in memory wrapped to 64 bits, a 32-bit operand zero-extended, in the scratchpad taken in 32
bits. What a mode delivers: under AM 01 the operand and IMM14; under AM 10 (R118) the operand and the increment where LEN is 0, and else
an address in the ring: at least BASE and below BASE + LEN, congruent to the operand and the increment. A load's second target receives
it on the lanes of a valid result, as wide as TY makes a result (R86; how wide it is taken in the scratchpad, log 16). -/
def Obligations.AddressingModes : Prop :=
  (∀ (imm : BitVec 14) (n : Nat) (o : Opnds) (l : Nat),
    laneAddr false .base imm n o l = o.left.full l + imm.signExtend 64 ∧
    laneAddr false .postInc imm n o l = o.left.full l ∧
    laneAddr false .modulo imm n o l = o.left.full l ∧
    (o.right.wide = true → laneAddr false .indexed imm n o l = o.left.full l + o.right.val l * BitVec.ofNat 64 n) ∧
    (o.right.wide = false → laneAddr false .indexed imm n o l =
      o.left.full l + (o.right.val32 l).signExtend 64 * BitVec.ofNat 64 n) ∧
    (o.left.wide = false → o.left.full l = (o.left.val32 l).setWidth 64) ∧
    laneAddr true .base imm n o l = (o.left.val32 l + imm.signExtend 32).setWidth 64 ∧
    laneAddr true .postInc imm n o l = (o.left.val32 l).setWidth 64 ∧
    laneAddr true .modulo imm n o l = (o.left.val32 l).setWidth 64 ∧
    laneAddr true .indexed imm n o l = (o.left.val32 l + o.right.val32 l * BitVec.ofNat 32 n).setWidth 64) ∧
  (∀ (imm : BitVec 14) (m : List (W32 × W32)) (a : W64), nextAddr .postInc imm m a = a + imm.signExtend 64) ∧
  (∀ (imm : BitVec 14) (m : List (W32 × W32)) (a : W64) (base : W32),
    m.getD (imm.extractLsb' 11 3).toNat (0, 0) = (base, 0) →
    nextAddr .modulo imm m a = a + (imm.extractLsb' 0 11).signExtend 64) ∧
  (∀ (imm : BitVec 14) (m : List (W32 × W32)) (a : W64) (base len : W32),
    m.getD (imm.extractLsb' 11 3).toNat (0, 0) = (base, len) → len ≠ 0 →
    let v := (nextAddr .modulo imm m a).toNat
    base.toNat ≤ v ∧ v < base.toNat + len.toNat ∧
      ((v : Int) - (a.toNat + (imm.extractLsb' 0 11).toInt)) % len.toNat = 0) ∧
  (∀ (i : Instr) (f : MemF) (spad : Bool) (x : Issue) (got : List (Nat × List W8)), f.am = .postInc ∨ f.am = .modulo →
    (loadToks i f spad x got).2 = nextTok i f spad x) ∧
  (∀ (i : Instr) (f : MemF) (spad : Bool) (x : Issue) (l : Nat), l < 32 → (okLanes i x.o).getLsbD l = true →
    let r := nextTok i f spad x
    r.mask.getLsbD l = true ∧ r.wide = f.ty.wide ∧
    (spad = false → f.ty.wide = true → r.val l = nextAddr f.am f.imm x.warp.m (x.o.left.full l)) ∧
    (spad = false → f.ty.wide = false → r.val32 l = (nextAddr f.am f.imm x.warp.m (x.o.left.full l)).setWidth 32) ∧
    (spad = true → r.val32 l = (nextAddr f.am f.imm x.warp.m ((x.o.left.val32 l).setWidth 64)).setWidth 32))

/-! ### Atomics, fences, caches (R287 to R295) -/

/-- ATOM completes with its lanes' atomics held in its slot and its write slots left for the reply (R71, R290); FENCE, FENCEX and
CCTL leave their effects for the commit; PREF requests its lines and finishes, never faulting (R292 to R295). -/
def Obligations.AtomicsAndFencesComplete : Prop :=
  ∀ (s : State) (x : Issue) (pr : Pr),
    (∀ (f : AtomF) (t : State) (as : List LaneAcc), Fires s (.atom f) x →
      Clean s x 2 f.bytes (hostCarries f)
        ((okList (.atom f) x.o).map fun l => (l, laneAddr false (if f.indexed then .indexed else .base) f.imm f.bytes x.o l)) t as →
      (∀ a ∈ as, t.coreMark x.w x.warp.core a.nc f.sc a.pa f.bytes = none) →
      exec (.atom f) s = .next (t.setRun x.w fun r =>
        let d : Run := (r.deferSlot (okLanes (.atom f) x.o) f.t0).deferSlot (okLanes (.atom f) x.o) f.t1
        { d.finish x.k with sslots := d.sslots.set f.ss.toNat (.atoms f (as.map fun a =>
            { lane := a.lane, nc := a.nc, va := a.va, addr := a.pa
              b := (if f.indexed then x.o.third else x.o.right).atTy f.ty a.lane, c := x.o.third.atTy f.ty a.lane })) })) ∧
    (∀ sc o, Fires s (.fence pr sc o) x → uniOk (.fence pr sc o) x.o = true → Leaves s (.fence pr sc o) x (.fence sc o)) ∧
    (∀ a b, Fires s (.fencex pr a b) x → uniOk (.fencex pr a b) x.o = true → Leaves s (.fencex pr a b) x (.fencex a b)) ∧
    (∀ lvl sc imm, Fires s (.pref pr lvl sc imm) x →
      exec (.pref pr lvl sc imm) s = .next
        ((((okList (.pref pr lvl sc imm) x.o).map fun l => x.o.left.full l + imm.signExtend 64).foldl
          (fun s va => s.prefetchLine x.w x.warp.core lvl sc va) s).setRun x.w fun r => r.finish x.k)) ∧
    (∀ op imm, Fires s (.cctl pr op imm) x → Leaves s (.cctl pr op imm) x
      (.cctl op ((okList (.cctl pr op imm) x.o).map fun l => x.o.left.full l + imm.signExtend 64)))

/-- R288: the value an atomic writes from the old one. An integer one's sum modulo 2^w, lesser, greater, bits; an f32 `.add` is the sum
rounded to nearest even with its flags, `.min` and `.max` select as FMIN and FMAX do, without a flag; `.exch` writes the operand and `.cas`
the swap value where old and operand are equal bit for bit, else nothing. -/
def Obligations.AtomicValues : Prop :=
  (∀ (f : AtomF) (old b c : W64), f.ty = .f32 → old.toNat < 2 ^ 32 →
    let x := Fmt.f32.decode old.toNat
    let y := Fmt.f32.decode (b.toNat % 2 ^ 32)
    let r := fpAdd .rne x y
    let b32 : W64 := (b.setWidth 32).setWidth 64
    (f.aop = .add → atomVal f old b c = (some (BitVec.ofNat 64 (Fmt.f32.round .rne false r.1).1), r.2 ||| (Fmt.f32.round .rne false r.1).2)) ∧
    (f.aop = .min ∨ f.aop = .max → ∃ v, atomVal f old b c = (some v, 0) ∧
      (x = .nan → y = .nan → v.toNat = 0x7FC00000) ∧ (x = .nan → y ≠ .nan → v = b32) ∧ (x ≠ .nan → y = .nan → v = old) ∧
      (x ≠ .nan → y ≠ .nan → (f.aop = .min → v = if fpBelow y x then b32 else old) ∧
        (f.aop = .max → v = if fpBelow x y then b32 else old))) ∧
    (f.aop = .exch → atomVal f old b c = (some b, 0)) ∧
    (f.aop = .cas → atomVal f old b c = (if old.toNat = b.toNat % 2 ^ 32 then some c else none, 0))) ∧
  ∀ (f : AtomF) (old b c : W64), f.ty.isInt = true →
    (f.aop = .add → ∃ v, atomVal f old b c = (some v, 0) ∧ FitsTo f.ty false (f.ty.int old + f.ty.int b) v) ∧
    (f.aop = .min → ∃ v, atomVal f old b c = (some v, 0) ∧ f.ty.int v = min (f.ty.int old) (f.ty.int b)) ∧
    (f.aop = .max → ∃ v, atomVal f old b c = (some v, 0) ∧ f.ty.int v = max (f.ty.int old) (f.ty.int b)) ∧
    (f.aop = .and → atomVal f old b c = (some (old &&& b), 0)) ∧
    (f.aop = .or → atomVal f old b c = (some (old ||| b), 0)) ∧
    (f.aop = .xor → atomVal f old b c = (some (old ^^^ b), 0)) ∧
    (f.aop = .exch → atomVal f old b c = (some b, 0)) ∧
    (f.aop = .cas → f.ty.cut old = f.ty.cut b → atomVal f old b c = (some c, 0)) ∧
    (f.aop = .cas → f.ty.cut old ≠ f.ty.cut b → atomVal f old b c = (none, 0))

/-- R259 to R263: an address with bits [63:54] is refused; a walk reads the entry of its level: poison, V = 0, a malformed entry, a leaf's
page address with the address bits below its size, or the next table; what makes an entry malformed; a translation once made is made
alike again from the TLB (R262). A lane that is misaligned faults with cause 5, on a page without W at a write or atomic with 3, and on
an absent page it parks; a fetch from a page without X faults with 4 (R124, R264); an engine's line faults or parks alike (R265, R300).
That cause 5 comes before any translation is log 14; a poisoned entry of the walk ends it (R362, log 58). -/
def Obligations.TranslationsAndTheirFaults : Prop :=
  (∀ (s : State) (core : Option Nat) (ctx : Nat) (va : W64), 2 ^ 54 ≤ va.toNat → s.translate core ctx va = (s, .bad 1)) ∧
  (levelBits 0 = (39, 15) ∧ levelBits 1 = (30, 9) ∧ levelBits 2 = (21, 9) ∧ levelBits 3 = (16, 5)) ∧
  (∀ (s : State) (va fuel lvl base : Nat),
    let at' := base + 8 * (va / 2 ^ (levelBits lvl).1 % 2 ^ (levelBits lvl).2)
    let e := leNat (s.sysRead at' 8)
    let addr := e / 256 % 2 ^ 44 * 256
    let peer := s.fw.bringUp && e.testBit 1 && isPeer addr
    (∀ k, s.sysMark at' 8 = some k → s.walkFrom va (fuel + 1) lvl base = (.poisoned at' k, 0)) ∧
    (s.sysMark at' 8 = none →
      (e.testBit 0 = false → s.walkFrom va (fuel + 1) lvl base = (.absent, 0)) ∧
      (e.testBit 0 = true → (pteBad lvl e = true ∨ peer = true) → s.walkFrom va (fuel + 1) lvl base = (.bad 2, 0)) ∧
      (e.testBit 0 = true → pteBad lvl e = false → peer = false →
        (e.testBit 1 = true → s.walkFrom va (fuel + 1) lvl base =
          (.page (addr + va % 2 ^ (levelBits lvl).1) (e.testBit 2) (e.testBit 3) (e / 16 % 4 == 1), (levelBits lvl).1)) ∧
        (e.testBit 1 = false → s.walkFrom va (fuel + 1) lvl base = s.walkFrom va fuel (lvl + 1) addr)))) ∧
  (∀ (lvl e : Nat), lvl < 4 →
    let addr := e / 256 % 2 ^ 44 * 256
    let leaf : Prop := e.testBit 1 = true
    pteBad lvl e = true ↔ 2 ^ 52 ≤ e ∨ e / 64 % 4 ≠ 0 ∨ 2 ≤ e / 16 % 4 ∨ (lvl = 0 ∧ leaf) ∨ (lvl = 3 ∧ ¬ leaf) ∨
      (leaf ∧ addr % 2 ^ (levelBits lvl).1 ≠ 0) ∨ (¬ leaf ∧ addr % (if lvl = 2 then 256 else 4096) ≠ 0) ∨
      (leaf ∧ 0x8000000000 ≤ addr ∧ addr < 0x4000000000000) ∨ (leaf ∧ 0x8000000000 ≤ addr ∧ e / 16 % 4 = 0) ∨
      (¬ leaf ∧ 0x8000000000 ≤ addr)) ∧
  (∀ (s t : State) (core : Option Nat) (ctx : Nat) (va : W64) (pa : Nat) (w x nc : Bool),
    s.translate core ctx va = (t, .page pa w x nc) → t.translate core ctx va = (t, .page pa w x nc)) ∧
  (∀ (s : State) (core ctx : Nat) (c : Ctx) (va : W64), va.toNat < 2 ^ 54 → s.ctx? ctx = some c →
    (∀ e ∈ (s.core core).tlb, e.covers ctx va.toNat = false) → (∀ p ∈ s.tlb2, p.1 = dieOf core → p.2.covers ctx va.toNat = false) →
    (s.translate (some core) ctx va).2 = (s.walkFrom va.toNat 4 0 c.root).1) ∧
  (∀ (s t : State) (core ctx acc width : Nat) (hostOk : Bool) (c : Checked) (l : Nat) (va : W64) (r : Xl),
    c.bad = none → c.absent = none →
    (va.toNat % width ≠ 0 → s.checkLane core ctx acc width hostOk c (l, va) = (s, { c with bad := some (5, l, va) })) ∧
    (va.toNat % width = 0 → s.translate (some core) ctx va = (t, r) →
      (∀ k, r = .bad k → s.checkLane core ctx acc width hostOk c (l, va) = (t, { c with bad := some (k, l, va) })) ∧
      (r = .absent → s.checkLane core ctx acc width hostOk c (l, va) = (t, { c with absent := some (l, va) })) ∧
      ∀ pa w x nc, r = .page pa w x nc →
        (w = false → acc ≠ 0 → s.checkLane core ctx acc width hostOk c (l, va) = (t, { c with bad := some (3, l, va) })) ∧
        (w = true ∨ acc = 0 → acc ≠ 2 ∨ isHbm pa = true ∨ hostOk = true →
          s.checkLane core ctx acc width hostOk c (l, va) =
            (t, { c with accs := c.accs ++ [{ lane := l, va := va, pa := pa, nc := nc }] })))) ∧
  (∀ (s t : State) (core ctx : Nat) (va : W64) (pa : Nat) (w nc : Bool),
    (s.translate (some core) ctx va = (t, .page pa w false nc) → s.fetchWord core ctx va = (t, .error (.protect 4 va))) ∧
    (s.translate (some core) ctx va = (t, .page pa w true nc) → t.sysMark pa 8 = none →
      s.fetchWord core ctx va = (t.sysFix pa 8, .ok (BitVec.ofNat 64 (leNat (t.sysRead pa 8)))))) ∧
  (∀ (s t : State) (ctx src acc core warp : Nat) (of' : LineOf) (va : W64) (r : Xl), s.faultQ = [] →
    s.translate none ctx va = (t, r) →
    (r = .absent → s.lineAt ctx src acc of' va core warp = (t.parkLine ctx src acc of' (va &&& ~~~127) core warp, .parked)) ∧
    (∀ k, r = .bad k → s.lineAt ctx src acc of' va core warp = (t, .bad k)) ∧
    ∀ pa w x nc, r = .page pa w x nc → (w = false → acc ≠ 0 → s.lineAt ctx src acc of' va core warp = (t, .bad 3)) ∧
      (w = true ∨ acc = 0 → acc ≠ 2 ∨ isHbm pa = true → s.lineAt ctx src acc of' va core warp = (t, .page pa nc))) ∧
  ∀ (s : State) (m : Msg) (k : State → State) (r : W64 × Nat), m.op ≠ .coll → m.ranges 0 = [r] →
    (0 < r.2 → 2 ^ 54 < r.1.toNat + r.2 → r.1.toNat < 2 ^ 54 → s.beginning m k = s.msgFault m (.bad 1) 0x40000000000000) ∧
    (r.1.toNat + r.2 ≤ 2 ^ 54 → s.beginning m k = k s)

/-! ### Neighbours (R226 to R232) -/

/-- FSEND with a place in its destination's queue holds its entry for the commit; FRECV, where no earlier FRECV of the team waits for the
queue, reserves the oldest unreserved entry and delivers it where the entry is valid; FPEEK delivers the number of unreserved entries (R228
to R230). -/
def Obligations.NeighboursComplete : Prop :=
  ∀ (s : State) (x : Issue) (pv : Bool) (pr : Pr) (d : TeamId), s.neighbour x.w.team pv = some d →
    (∀ rel, Fires s (.fsend pv pr rel) x → okLanes (.fsend pv pr rel) x.o ≠ 0 → s.placeFree x.w.team pv = true →
      let m := okLanes (.fsend pv pr rel) x.o
      Leaves s (.fsend pv pr rel) x (.send pv (allLanes.map fun l => if m.getLsbD l then x.o.left.val32 l else 0) m rel)) ∧
    (∀ acq a b e, Fires s (.frecv pv pr acq a b) x → okLanes (.frecv pv pr acq a b) x.o ≠ 0 →
      s.earlierRecv x pv = false → ((s.core x.warp.core).queue pv).find? (fun e => e.by'.isNone) = some e →
      let m := okLanes (.frecv pv pr acq a b) x.o &&& e.mask
      exec (.frecv pv pr acq a b) s = .next
        ((s.setCore x.warp.core fun c => c.setQueue pv fun q =>
          q.map fun y => if y.id == e.id then { y with by' := some (x.w, x.k) } else y).setRun x.w fun r =>
            ({ r.finish x.k with effs := r.effs ++ [(x.k, Eff.recv pv e.id)] } : Run).putAll [a, b]
              (Token.lanes false m fun l => (e.words.getD l 0).setWidth 64))) ∧
    (∀ a b, Fires s (.fpeek pv pr a b) x → uniOk (.fpeek pv pr a b) x.o = true →
      Delivers s (.fpeek pv pr a b) x [a, b] (Token.uniform false true
        ((BitVec.ofNat 32 (((s.core x.warp.core).queue pv).filter fun e => e.by'.isNone).length).setWidth 64)) 0)


/-! ### Register pool and barriers (R174 to R180, R233 to R239) -/

/-- REGREL leaves its release for the commit; REGCLM whose claim the credit covers, no other claim waiting, delivers its size and
lowers the credit by it; REGQRY delivers what it asks for, the credit as the warp's
last commit left it (R175, R178 to R180; log 87). At its commit REGREL unbinds the registers and moves rows
of the limit, one kept, to the team's credit. -/
def Obligations.RegisterPoolCompletes : Prop :=
  (∀ (s : State) (x : Issue) (pr : Pr),
    (∀ first n, Fires s (.regrel pr first n) x → uniOk (.regrel pr first n) x.o = true →
      Leaves s (.regrel pr first n) x (.regrel first.toNat (n.toNat + 1))) ∧
    (∀ a b t, Fires s (.regclm pr a b) x → uniOk (.regclm pr a b) x.o = true → s.team? x.w.team = some t →
      (∀ c ∈ t.claims, c.met = true ∧ (c.warp ≠ x.w.warp ∨ c.idx ≠ x.k)) →
      let size := min (x.o.left.val32 0).toNat (256 - x.warp.limit)
      let claim (met : Bool) : Claim := { warp := x.w.warp, idx := x.k, size := size, met := met }
      0 < size → size ≤ t.credit →
      exec (.regclm pr a b) s = .next
        ((s.setTeam x.w.team fun t => Team.serve { t with claims := t.claims ++ [claim false] }).setRun
          x.w fun r => ({ r.finish x.k with effs := r.effs ++ [(x.k, Eff.claimed size)] } : Run).putAll [a, b]
            (Token.uniform false true ((BitVec.ofNat 32 size).setWidth 64))) ∧
      Team.serve { t with claims := t.claims ++ [claim false] } =
        { t with credit := t.credit - size, claims := t.claims ++ [claim true] }) ∧
    (∀ q a b, Fires s (.regqry pr q a b) x →
      Delivers s (.regqry pr q a b) x [a, b] (resultTok (.regqry pr q a b) x.o false fun _ => BitVec.ofNat 64 (match q with
        | .limit => x.warp.limit
        | .bound => x.warp.v.length
        | .spilled => x.warp.v.length - x.warp.resident
        | .credit => x.warp.credit
        | .pend => ((s.team? x.w.team).map fun t =>
            (t.claims.filter fun c => !c.met).foldl (fun n c => n + c.size) 0).getD 0
        | .free => s.freeRows x.warp.core)) 0)) ∧
  (∀ (s : State) (x y : Warp) (va : W64) (k first n : Nat), s.warp? x.id = some y →
    let given := min n (y.limit - 1)
    let t := s.commitEff x va k (.regrel first n)
    (∀ z, t.warp? x.id = some z → z.limit = y.limit - given ∧ z.v = y.v.filter fun r => !(first ≤ r.num && r.num < first + n)) ∧
    (∀ tm tm', s.team? x.id.team = some tm → tm.claims = [] → t.team? x.id.team = some tm' → tm'.credit = tm.credit + given) ∧
    t.mem = s.mem)


/-- Where no cause of R239 is met: BARARV with no arrival of its warp pending leaves its arrival for the commit; BARWT with none pending
finishes; BARSYN begins its wait, which its block's commit counts (R235 to R237), and R239's tests follow (when: DEDUCED, log 47). R233: the
arrival that reaches the phase count completes the phase: the phase flips, nobody has arrived, no count is set and nothing is pending; an
earlier one is counted and pending. -/
def Obligations.BarriersComplete : Prop :=
  (∀ (s : State) (x : Issue) (pr : Pr) (b n : BitVec 5) (t : Team), s.team? x.w.team = some t →
    (Fires s (.bararv pr b n) x → uniOk (.bararv pr b n) x.o = true → t.barCause b.toNat (some (n.toNat + 1)) = none →
      t.pendingAt b.toNat x.w.warp = false → Leaves s (.bararv pr b n) x (.arrive b.toNat (n.toNat + 1))) ∧
    (Fires s (.barwt pr b) x → uniOk (.barwt pr b) x.o = true → t.barCause b.toNat none = none →
      t.pendingAt b.toNat x.w.warp = false → exec (.barwt pr b) s = .next (s.setRun x.w fun r => r.finish x.k)) ∧
    (Fires s (.barsyn pr b n) x → uniOk (.barsyn pr b n) x.o = true → t.barCause b.toNat (some (n.toNat + 1)) = none →
      exec (.barsyn pr b n) s = .next
        (((({ s with order := s.order + 1 } : State).setRun x.w fun r => r.setNode x.k fun m =>
          { m with st := .waiting (.barsyn b.toNat), since := if m.st == .idle then s.order else m.since }).testTeam
            x.w.team x.w.warp)))) ∧
  (∀ (b : Bar) (w n : Nat), w < 32 →
    let c := b.count.getD n
    (b.arrived + 1 = c → b.arrive w n = { phase := !b.phase, arrived := 0, count := none, pending := 0 }) ∧
    (b.arrived + 1 ≠ c → (b.arrive w n).phase = b.phase ∧ (b.arrive w n).arrived = b.arrived + 1 ∧
      (b.arrive w n).count = some c ∧
      ∀ v, v < 32 → (b.arrive w n).pending.getLsbD v = (b.pending.getLsbD v || decide (v = w))))


/-! ### Tiles (R181 to R188, R317 to R330) -/

/-- TARM on an empty or ready tile and TCLR on any leave their changes for the commit; TSTAT delivers the tile's word; where the
warp may name the tile (R185 to R188). -/
def Obligations.TileInstructionsComplete : Prop :=
  ∀ (s : State) (x : Issue) (pr : Pr) (tid : BitVec 6),
    (∀ count, Fires s (.tarm pr tid count) x → uniOk (.tarm pr tid count) x.o = true → Named s x tid.toNat →
      (s.tileSt x.w.team tid.toNat = .empty ∨ s.tileSt x.w.team tid.toNat = .ready) →
      Leaves s (.tarm pr tid count) x (.tarm tid.toNat count.toNat)) ∧
    (Fires s (.tclr pr tid) x → uniOk (.tclr pr tid) x.o = true → Named s x tid.toNat →
      Leaves s (.tclr pr tid) x (.tclr tid.toNat)) ∧
    (∀ a b t, Fires s (.tstat pr tid a b) x → uniOk (.tstat pr tid a b) x.o = true → s.team? x.w.team = some t →
      (t.tile? tid.toNat).isSome = true →
      Delivers s (.tstat pr tid a b) x [a, b]
        (Token.uniform false true ((BitVec.ofNat 32 (s.tileWord t x.w.warp tid.toNat)).setWidth 64)) 0)

/-- R182, R186: TARM with a count on an empty or ready tile makes it draining with that count, and with 0 makes an empty one ready; that
0 leaves a ready one ready is log 17. R184: a consumer's end lowers the count, and at 0 the tile is empty. R183: a write reference is
granted only where no other block holds a reference to the tile; a read reference only where no write reference is held, but one that a
joint MMA of the same gang holds; the blocks of a gang that has met and its joint MMA count as one block, whatever other joint MMAs those
blocks hold (R206). -/
def Obligations.TileStates : Prop :=
  (∀ (x : Tile) (n : Nat),
    ((x.st = .empty ∨ x.st = .ready) → x.arm 0 = { x with st := .ready } ∧
      (0 < n → x.arm n = { x with st := .draining, cnt := n })) ∧
    (x.st = .draining → (x.cnt ≤ 1 → (x.consume 1).st = .empty) ∧
      (1 < x.cnt → (x.consume 1).st = .draining ∧ (x.consume 1).cnt = x.cnt - 1)) ∧
    (x.st ≠ .draining → x.consume n = x)) ∧
  (∀ (s : State) (o : RefOwner) (t : TeamId) (tid : Nat) (r : Ref), r ∈ s.refs → r.obj = .tile t tid →
    (s.oneBlock o r.owner = false → ∀ sts, s.canWrite o t tid sts = false) ∧
    (r.write = true → (∀ id, r.owner = .gang id → s.oneBlock o r.owner = false) → s.canRead o t tid = false)) ∧
  (∀ (s : State) (m : Mma) (w v : Nat), m ∈ s.mmas → m.f.gng = true → m.phase ≠ 0 → (∃ p ∈ m.members, p.1 = w) →
    (∃ p ∈ m.members, p.1 = v) →
    let blk (k : Nat) : RefOwner := .block { team := m.team, warp := k }
    s.oneBlock (blk w) (blk v) = true ∧ s.oneBlock (blk w) (.gang m.id) = true ∧
    ∀ m' ∈ s.mmas, m'.f.gng = true → m'.phase ≠ 0 → m'.team = m.team → (∃ p ∈ m'.members, p.1 = w) →
      s.oneBlock (.gang m.id) (.gang m'.id) = true) ∧
  ∀ (s : State) (o : RefOwner) (t : TeamId) (tid : Nat), (∀ r ∈ s.refs, r.obj ≠ .tile t tid) →
    (∀ sts, s.tileSt t tid ∈ sts → s.canWrite o t tid sts = true) ∧
    (s.tileSt t tid = .ready ∨ s.tileSt t tid = .draining → s.canRead o t tid = true)

/-- TTAKE that is met delivers how and takes effect at its commit, where a save address it gives is a multiple of 64, which else is a
protection fault (R322); TGIVE by a holder, SDONE and SREFU by the routine of the recalled unit that its warp holds (log 108), SREFU within
the limit, where the block declares every tile of the unit, leave their effects, and the routine's lanes receive the interrupted block
(R323, R327 to R330). -/
def Obligations.TakesComplete : Prop :=
  ∀ (s : State) (x : Issue) (pr : Pr) (tid : BitVec 6),
    (∀ f k r, Fires s (.ttake f) x → uniOk (.ttake f) x.o = true → s.take? x = some k → k.res = some r →
      (f.sv = true → (x.o.left.full 0).toNat % 64 ≠ 0 → exec (.ttake f) s = .next (s.protection x 5 0 (x.o.left.full 0))) ∧
      ((f.sv = true → (x.o.left.full 0).toNat % 64 = 0) → exec (.ttake f) s = .next (s.setRun x.w fun q =>
        ({ q.finish x.k with effs := q.effs ++ [(x.k, Eff.ttake f (if f.sv then some (x.o.left.full 0) else none))] } : Run).putAll
          [f.t0, f.t1] (Token.uniform false true ((BitVec.ofNat 32 r).setWidth 64))))) ∧
    (∀ t u, Fires s (.tgive pr tid) x → uniOk (.tgive pr tid) x.o = true → s.team? x.w.team = some t →
      t.taken.find? (fun u => u.tid == tid.toNat) = some u → u.heldBy x.w.warp = true →
      x.declares u = true → Leaves s (.tgive pr tid) x (.tgive tid.toNat)) ∧
    (∀ q t' u', x.warp.routine = some q → q.tid = tid.toNat → s.team? x.w.team = some t' →
      t'.taken.find? (fun u => u.tid == tid.toNat) = some u' → u'.heldBy x.w.warp = true → x.declares u' = true →
      let ends (i : Instr) (kind : Nat) : Prop := exec i s = .next (s.setRun x.w fun r =>
        { r.finish x.k with
          effs := r.effs ++ [(x.k, Eff.surrender tid.toNat kind)]
          succs := r.succs ++ (allLanes.filter fun l => r.am.getLsbD l).map fun l =>
            { idx := x.k, lane := l, kind := .routineEnd } })
      (Fires s (.sdone pr false tid) x → uniOk (.sdone pr false tid) x.o = true → ends (.sdone pr false tid) 0) ∧
      (Fires s (.sdone pr true tid) x → uniOk (.sdone pr true tid) x.o = true → ends (.sdone pr true tid) 1) ∧
      (∀ t u, Fires s (.srefu pr tid) x → uniOk (.srefu pr tid) x.o = true → s.team? x.w.team = some t →
        t.taken.find? (fun u => u.tid == tid.toNat) = some u → u.refusals < s.refusalLimit x.w.team.launch.ctx →
        ends (.srefu pr tid) 2))


/-! ### Matrix and Legend (R189 to R217) -/

/-- AGSET and GANG leave the agreement register and the gang mask for the commit, TDSET its words, MODSET BASE and LEN; TDGET delivers
the eight words of the entry (R119, R191, R215, R216). -/
def Obligations.SettingsComplete : Prop :=
  (∀ (s : State) (x : Issue) (pr : Pr),
    (∀ nb ag, Fires s (.agset pr nb ag) x → uniOk (.agset pr nb ag) x.o = true →
      Leaves s (.agset pr nb ag) x
        (.agset ag.toNat ((x.o.left.val32 0).extractLsb' 16 16) ((x.o.left.val32 0).extractLsb' 0 16) nb)) ∧
    (∀ base m, Fires s (.gang pr base m) x → uniOk (.gang pr base m) x.o = true →
      Leaves s (.gang pr base m) x (.gang (m.setWidth 32 <<< base.toNat))) ∧
    (∀ idx, Fires s (.tdset pr idx) x → Leaves s (.tdset pr idx) x
      (.tdset idx.toNat (okLanes (.tdset pr idx) x.o &&& 0xFF) ((List.range 8).map fun l => x.o.left.val32 l))) ∧
    (∀ idx a b t ws, Fires s (.tdget pr idx a b) x → LegendReads s x idx.toNat t ws →
      exec (.tdget pr idx a b) s = .next (t.setRun x.w fun r =>
        { (r.putAll [a, b] (resultTok (.tdget pr idx a b) x.o false fun l =>
            if l < 8 then ((ws.getD (l / 2) 0).extractLsb' (32 * (l % 2)) 32).setWidth 64 else 0)).finish x.k with
          flags := r.flags ||| 0 })) ∧
    ∀ (va : W64) (k : Nat) (m : Lanes), s.commitEff x.warp va k (.gang m) = s.setWarp x.warp.id fun y => { y with gang := m }) ∧
  (∀ (s : State) (pr : Pr) (m : BitVec 3) (imm : Option (BitVec 24)) (x : Issue), Fires s (.modset pr m imm) x →
    let e : Eff := .modset m.toNat (x.o.left.val32 0) ((imm.map fun v => v.signExtend 32).getD (x.o.right.val32 0))
    (uniOk (.modset pr m imm) x.o = true → Leaves s (.modset pr m imm) x e) ∧
    (uniOk (.modset pr m imm) x.o = false → exec (.modset pr m imm) s = .next (s.setRun x.w fun r => r.finish x.k)) ∧
    ∀ (va : W64) (k : Nat),
      s.commitEff x.warp va k e = s.setWarp x.warp.id fun y => { y with m := y.m.set m.toNat (x.o.left.val32 0,
        (imm.map fun v => v.signExtend 32).getD (x.o.right.val32 0)) })

/-- MMA with fitting operands in tiles its warp may name, dense weights and no gang joins its operation to the machine; AZERO, with the rest
of its block finished, its tiles granting write references and no other warp's drain of them due (log 95), takes them and leaves its zeroing
for the commit (R207 to R210); ADRN and ALOAD in memory space, their rows fitting and their tiles granting references, drain the rows, or
read the rows and leave them for the commit (R211 to R214). -/
def Obligations.MatrixOperationsComplete : Prop :=
  (∀ (s : State) (x : Issue),
    (∀ (f : MmaF) (t u : State) (aw bw : List W64) (tm : Team), Fires s (.mma f) x → uniOk (.mma f) x.o = true → f.gng = false →
      (x.run.node x.k).st = .idle → s.accBad x f.tid.toNat f.spl = none →
      LegendReads s x f.tda.toNat t aw → LegendReads t x f.tdb.toNat u bw →
      (parseEntry bw).spn = 0 → u.fw.bringUp = false → u.team? x.w.team = some tm →
      tm.mmaBad x.run f (x.o.left.val32 0).toNat (x.o.right.val32 0).toNat (mmaOrigin f x.o) (parseEntry aw) (parseEntry bw)
        (parseEntry []) = none →
      u.unnamed? x (tm.mmaSources x.run (parseEntry aw) (parseEntry bw) (parseEntry []) (mmaOrigin f x.o) (x.o.left.val32 0).toNat
        (x.o.right.val32 0).toNat) = none →
      exec (.mma f) s = .next (u.mmaIssue x f (x.o.left.val32 0).toNat (x.o.right.val32 0).toNat aw bw [])) ∧
    (∀ pr spl tid, Fires s (.azero pr spl tid) x → uniOk (.azero pr spl tid) x.o = true →
      s.accBad x tid.toNat spl = none → x.run.restDone = true →
      let ts := if spl then [tid.toNat, tid.toNat + 1] else [tid.toNat]
      (∀ k ∈ ts, s.canWrite (.block x.w) x.w.team k [.empty, .ready] = true) → s.drainDue x.w ts = false →
      exec (.azero pr spl tid) s = .next ((ts.foldl (fun s k => s.takeRef (.block x.w) x.w.team k true) s).setRun x.w fun r =>
        { r.finish x.k with effs := r.effs ++ [(x.k, Eff.azero tid.toNat spl)] }))) ∧
  (∀ (s : State) (x : Issue) (t : State) (ew : List W64) (tm : Team), t.team? x.w.team = some tm → (parseEntry ew).space ≠ 1 →
    let e := parseEntry ew
    let tr := (x.o.left.val32 0).toNat
    let row := (x.o.right.val32 0).toNat
    let rows := (x.o.third.val32 0).toNat
    (∀ f : DrainF, Fires s (.adrn f) x → uniOk (.adrn f) x.o = true → s.accBad x f.tid.toNat (f.mode != .raw) = none →
      LegendReads s x f.tdo.toNat t ew → rowsOk e (f.mode == .img) false tr row rows = true → t.fw.bringUp = false →
      let ts := unitTiles f.tid.toNat (f.mode != .raw)
      (∀ k ∈ ts, t.canRead (.block x.w) x.w.team k = true) →
      exec (.adrn f) s =
        .next ((ts.foldl (fun s k => s.takeRef (.block x.w) x.w.team k false) t).drainIssue x f tm e tr row rows)) ∧
    (∀ pr img tid tds, Fires s (.aload pr img tid tds) x → uniOk (.aload pr img tid tds) x.o = true →
      s.accBad x tid.toNat img = none → LegendReads s x tds.toNat t ew → rowsOk e img true tr row rows = true →
      let ts := unitTiles tid.toNat img
      (∀ k ∈ ts, t.canWrite (.block x.w) x.w.team k [.empty, .ready] = true) →
      exec (.aload pr img tid tds) s = .next ((ts.foldl (fun s k => s.takeRef (.block x.w) x.w.team k true) t).loadRows x e
        ((List.range rows).flatMap fun i => (rowElems e img).map fun o => (e.at' img (row + i) o.1, o.2)) fun s bs =>
          s.setRun x.w fun r =>
            { r.finish x.k with effs := r.effs ++ [(x.k, Eff.aload tid.toNat tr img (loadedRows img rows bs))] })))


/-! ### Messages (R296, R297, R308, R309) -/

/-- SEND valid on lane 0, with a place free, holds its packet for the commit; POLLR delivers the record's word as one read finds
it, and WAITR once it matches (R297, R309). -/
def Obligations.MessagesComplete : Prop :=
  ∀ (s : State) (x : Issue) (pr : Pr),
    (∀ msg lp, Fires s (.send pr msg lp) x → laneOk (.send pr msg lp) x.o 0 = true → s.msgPlace x.warp.core = true →
      let ok (t : Token) (l : Nat) : Bool := x.o.am.getLsbD l && t.ok x.o.am l && predLane (.send pr msg lp) x.o l
      Leaves s (.send pr msg lp) x (.message msg lp
        ((List.range (msg.words lp)).map fun l => if ok x.o.left l then x.o.left.val32 l else 0)
        (if lp then (allLanes.filter (ok x.o.right)).map x.o.right.val32 else []))) ∧
    (∀ a b t u acc bs, Clean s x 0 8 false [(0, x.o.left.full 0)] t [acc] →
      t.coreRead x.w x.warp.core acc.nc .device 0 acc.pa 8 = (u, bs, none) →
      let w0 : W64 := BitVec.ofNat 64 (leNat bs)
      let v : W32 := if w0.getLsbD 0 ∧ w0.extractLsb' 32 32 = x.o.right.val32 0 then
        (w0.extractLsb' 8 8).setWidth 32 * 256 + 1 else 0
      (Fires s (.pollr pr false a b) x → uniOk (.pollr pr false a b) x.o = true →
        exec (.pollr pr false a b) s = .next (u.setRun x.w fun r =>
          { (r.putAll [a, b] (Token.uniform false true (v.setWidth 64))).finish x.k with flags := r.flags ||| 0 })) ∧
      (Fires s (.waitr pr false a b) x → uniOk (.waitr pr false a b) x.o = true → v ≠ 0 →
        exec (.waitr pr false a b) s = .next (u.setRun x.w fun r =>
          { (r.putAll [a, b] (Token.uniform false true (v.setWidth 64))).finish x.k with flags := r.flags ||| 0 })))

/-! ### Blocks of a warp (R65, R69, R75, R76, R83, R172, R343) -/

/-- BLOCK_START of a warp that holds an active place, its block valid and its copies issued, begins the block with nothing fired and
delivers its header reads; one whose commits have step 6 still to be made makes that first (R75), one parked on a rejoin fetch what waits
for no fetch; PREFETCH_BLOCK fetches a block that is
named; ROW_RETURN brings a spilled row to the pool. R65: a header read delivers a uniform register's word, valid, or a lane register's 32
words, valid on the active lanes. -/
def Obligations.BlocksStart : Prop :=
  (∀ (s : State) (x : Warp), s.warp? x.id = some x → s.coreRuns x.core = true →
    (∀ (t u : State) (ws : List W64),
      let h := Hdr.of (ws.headD 0)
      x.rejoin = none → s.startable x = true → s.hasPlace x = true → x.popped = none →
      s.fetchBlock x.core x.id.team.launch.ctx x.pc = (t, .block ws none) → h.sr = x.entering →
      (∀ e ∈ x.stack, e.join = true → e.cp = true → e.addr ≠ x.pc) →
      ({ t with order := t.order + 1 } : State).issueCopies x (h.copies ws) none t.order = (u, none) →
      exec (.blockStart x.id) s = .next ((h.reads ws).foldl (fun s e => s.readHeader x.id e)
        ((u.setLaunch x.id.team.launch fun l => if l.started.contains x.pc then l else { l with started := x.pc :: l.started }).setWarp
          x.id fun y => { y with run := some (Run.fresh x.pc ws x.am t.order none), phase := .running })) ∧
      (∀ k, k ≤ h.ni → (Run.fresh x.pc ws x.am t.order none).node k =
        { left := none, right := none, third := none, st := .idle, since := 0 }) ∧
      (∀ w ∈ (Run.fresh x.pc ws x.am t.order none).wslots, w.tok = none)) ∧
    ((x.phase = .ready ∧ x.rejoin ≠ none) ∨ (∃ n l a q, x.phase = .parked n l a ∧ x.rejoin = some q ∧ q.before ≠ []) →
      exec (.blockStart x.id) s = .next ((s.step6 x.id).atBoundary x.id)) ∧
    (∀ (r : Run) (va : W64), x.run = some r → r.np = false → (va ∈ r.names ∨ ∃ e ∈ x.stack, e.addr = va) →
      exec (.prefetchBlock x.id va) s = .next (s.fetchBlock x.core x.id.team.launch.ctx va).1) ∧
    (∀ (n : Nat) (v : VReg), x.phase ≠ .retired → x.vreg? n = some v → v.row ≠ .pool → x.resident < x.limit → 0 < s.freeRows x.core →
      exec (.rowReturn x.id n) s = .next (({ s with order := s.order + 1 } : State).setWarp x.id fun y =>
        y.setVReg n fun q => { q with row := .pool, used := s.order }))) ∧
  (∀ (s : State) (x : Warp) (r : Run) (e : ReadEnt), s.warp? x.id = some x → x.run = some r → s.pendingReg x.id e = false → s.errs = [] →
    let ts := ([e.ta, e.tb].filter (· != 0xFF)).map Tgt.ofByte
    (e.k = true → s.readHeader x.id e = s.setRun x.id fun r =>
      r.putAll ts (Token.uniform false true ((x.k.getD e.reg 0).setWidth 64))) ∧
    (e.k = false → s.readHeader x.id e = (s.makeResident x.id e.reg).setRun x.id fun r' =>
      r'.putAll ts (Token.lanes false r.am fun l => ((x.lanesOf e.reg).getD l 0).setWidth 64)))


/-- R69: at its commit a lane register's words are replaced on the token's valid lanes and kept on the others; a uniform
register is written where the token is valid. Nothing else changes: of the warp only its lane registers, of every other warp at most
where rows lie (R172), and beyond the warps only the order in which rows are used. -/
def Obligations.CommitWritesRegisters : Prop :=
  ∀ (s : State) (x : Warp) (am : Lanes) (sl : WSlot) (t : Token), s.warp? x.id = some x → sl.tok = some t → sl.deferred = false →
    (sl.k = true → t.mask.getLsbD 0 = true →
      s.commitSlot x.id am sl = s.setWarp x.id fun y => { y with k := y.k.set sl.reg (t.val32 0) }) ∧
    (sl.k = true → t.mask.getLsbD 0 = false → s.commitSlot x.id am sl = s) ∧
    (sl.k = false → s.errs = [] → ∃ y, (s.commitSlot x.id am sl).warp? x.id = some y ∧
      (∀ l, l < 32 → (y.lanesOf sl.reg).getD l 0 = if t.ok am l then t.val32 l else (x.lanesOf sl.reg).getD l 0) ∧
      (∀ n, n ≠ sl.reg → y.lanesOf n = x.lanesOf n) ∧ { y with v := x.v } = x ∧
      (∀ v z, v ≠ x.id → s.warp? v = some z → ∃ z', (s.commitSlot x.id am sl).warp? v = some z' ∧ { z' with v := z.v } = z ∧
        z'.v.map (·.num) = z.v.map (·.num) ∧ ∀ n, z'.lanesOf n = z.lanesOf n) ∧
      { s.commitSlot x.id am sl with warps := s.warps, order := s.order } = s)

/-- BLOCK_COMMIT of a block that meets every condition of R75, alone, with no exit fault and no error in a Legend it reads, commits it, and
then the blocks it released (what a commit does is said by the statements on commits); STOP_REQUEST stops the one warp of a launch on a
core, discarding a block that cannot commit (R76); where there are more, each block that can commit does so before any is discarded (R236).
R75: no stop observes a boundary while step 6 of the commit has still to be made: the
warp stops after it, by a YIELD that its commit noted or by the stop request (R93, R348). -/
def Obligations.BlocksCommitAndStop : Prop :=
  ∀ (s : State) (x : Warp), s.warp? x.id = some x → s.coreRuns x.core = true →
    (∀ (r : Run), x.run = some r → x.phase = .running → r.finished = true → s.fillHeld x r = false → s.together x.id = [x.id] →
      x.exitFault r = none → s.findFills [x.id] = s →
      exec (.blockCommit x.id) s = .next ((s.commitOne x.id).1.commitAll 255 (s.commitOne x.id).2)) ∧
    (x.id.warp < 32 → s.errs = [] → s.runMeets Run.complete x.id = false → (x.phase = .ready ∨ x.phase = .running) →
      (s.warps.filter fun y => y.core == x.core && y.id.team.launch == x.id.team.launch) = [x] →
      ((s.launch? x.id.team.launch).map (·.phase) = some .killing ∨ s.stopsHere x = true) →
      (x.rejoin = none → exec (.stopRequest x.core x.id.team.launch) s =
        .next (((if x.phase = .running then s.discard x.id else s).setWarp x.id fun y =>
          if y.phase = .ready then { y with phase := .stopped } else y).recallHeld x.id)) ∧
      (x.rejoin ≠ none → x.phase = .ready → exec (.stopRequest x.core x.id.team.launch) s = .next s)) ∧
    (∀ (l : Launch) (y : Warp), s.launch? x.id.team.launch = some l → l.phase = .killing → y.id ≠ x.id →
      (s.warps.filter fun y => y.core == x.core && y.id.team.launch == x.id.team.launch) = [x, y] →
      exec (.stopRequest x.core x.id.team.launch) s =
        .next ((((s.tryCommit x.id).tryCommit y.id).stopWarp x.id).stopWarp y.id)) ∧
    (∀ (l : Launch) (d : Nat), s.launch? x.id.team.launch = some l → l.phase = .yielding d → x.routine = none → x.phase = .ready →
      s.noteYield x.id true = (s.setLaunch x.id.team.launch fun l => { l with yielded := x.id :: l.yielded }) ∧
      (x.rejoin ≠ none → s.atBoundary x.id = s) ∧
      (x.rejoin = none → x.id ∈ l.yielded →
        s.atBoundary x.id = (s.setWarp x.id fun y => { y with phase := .stopped }).recallHeld x.id))

/-- Step 2 of a commit (R70, R75): its store slots in order, each slot's lanes in order. What one store does: in the scratchpad its bytes
and no other; in cached memory the warp's core reads the bytes back, and a line the store brings in keeps its hint, unless `.nol1` leaves no
copy there: then the die's L2 holds the bytes, marked (R116; DESIGN CHOICE, log 128), as a load under it leaves none; on a line that its L1
and L2 hold, for no other core of the die, only that L1 copy changes: the bytes stored and the bytes marked dirty, memory and every other
line standing; in an uncached page whose line no die holds, memory at the address and nothing else (R248, R255). An atomic's slot leaves one
reply with its lane's old value (R71). R251, R256: a near atomic reads and writes the die's L2 copy, where the write of R288 stands and, in
die scope, its bytes are marked, a device-scope one leaving the line M; a far one reads and writes the home, once every die has lost the
line. -/
def Obligations.CommitsStore : Prop :=
  (∀ (s : State) (x : Warp) (r : Run), s.commitStores x r [] = r.sslots.foldl (fun s sl => s.commitStore x r sl) s ∧
    (∀ sc o ws (w : LaneStore), s.commitStore x r (.stores sc o (ws ++ [w])) =
      (s.commitStore x r (.stores sc o ws)).put x sc w.hint w.space w.addr w.bytes) ∧
    (∀ sc o, s.commitStore x r (.stores sc o []) = if o = .release ∨ o = .acqRel then s.release x.core sc else s)) ∧
  (∀ (s : State) (x : Warp) (sc : Scope) (h : BitVec 2) (a : Nat) (bs : List W8) (t : Team), s.team? x.id.team = some t →
    cwf t.spad = true →
    let u := s.put x sc h .spad a bs
    u.spadRead x.id.team a bs.length = bs ∧
    (∀ b, (b < a ∨ a + bs.length ≤ b) → u.spadRead x.id.team b 1 = s.spadRead x.id.team b 1) ∧
    (∀ v, v ≠ x.id.team → u.team? v = s.team? v) ∧ { u with teams := s.teams, errs := s.errs } = s) ∧
  (∀ (s : State) (x : Warp) (sc sc' : Scope) (h h' : BitVec 2) (pa : Nat) (bs : List W8), pa % 128 + bs.length ≤ 128 →
    (s.passesL1 x.core (pa / 128) h = false → ((s.put x sc h .mem pa bs).coreRead x.id x.core false sc' h' pa bs.length).2.1 = bs ∧
      ((s.l1? x.core (pa / 128)).isNone = true → ∃ d, (s.put x sc h .mem pa bs).l1? x.core (pa / 128) = some d ∧ d.hint = h)) ∧
    (s.passesL1 x.core (pa / 128) h = true → 0 < bs.length → (s.put x sc h .mem pa bs).l1? x.core (pa / 128) = none ∧
      ∃ y, (s.put x sc h .mem pa bs).l2? (dieOf x.core) (pa / 128) = some y ∧ ∀ j, j < bs.length →
        y.data.byte (pa % 128 + j) = bs.getD j 0 ∧ y.marked.getLsbD (pa % 128 + j) = true) ∧
    (s.l1? x.core (pa / 128) = none →
      (h = 2 → (s.coreRead x.id x.core false sc h pa bs.length).1.l1? x.core (pa / 128) = none) ∧
      (h ≠ 2 → ∃ d, (s.coreRead x.id x.core false sc h pa bs.length).1.l1? x.core (pa / 128) = some d ∧ d.hint = h))) ∧
  (∀ (s : State) (x : Warp) (sc : Scope) (h : BitVec 2) (pa : Nat) (bs : List W8) (c : L1Line) (y : L2Line), sc.devUp = false →
    let ln := pa / 128
    let off := pa % 128
    off + bs.length ≤ 128 → s.l1? x.core ln = some c → s.l2? (dieOf x.core) ln = some y →
    (∀ z ∈ s.l1, z.line = ln → dieOf z.core = dieOf x.core → z.core = x.core) →
    let t := s.put x sc h .mem pa bs
    t.mem = s.mem ∧ t.l2 = s.l2 ∧ t.mer = s.mer ∧ t.teams = s.teams ∧ t.warps = s.warps ∧
    (∀ k l, k ≠ x.core ∨ l ≠ ln → t.l1? k l = s.l1? k l) ∧
    ∃ d, t.l1? x.core ln = some d ∧ ∀ j, j < 128 →
      d.dirty.getLsbD j = (c.dirty.getLsbD j || (decide (off ≤ j) && decide (j < off + bs.length))) ∧
      d.data.byte j = if off ≤ j ∧ j < off + bs.length then bs.getD (j - off) 0
        else if c.dirty.getLsbD j then c.data.byte j else y.data.byte j) ∧
  (∀ (s : State) (x : Warp) (sc : Scope) (h : BitVec 2) (pa : Nat) (bs : List W8), pa % 128 + bs.length ≤ 128 →
    (s.inMer (pa / 128) = true ∨ isHbm pa = false) → (∀ y ∈ s.l2, y.line ≠ pa / 128) →
    let t := s.put x sc h .uncached pa bs
    t.mem = wrBytes s.mem pa bs ∧ t.l1 = s.l1 ∧ t.l2 = s.l2 ∧ t.teams = s.teams ∧ t.warps = s.warps) ∧
  (∀ (s : State) (x : Warp) (reply : Nat) (f : AtomF) (a : LaneAtom), a.addr % 128 + f.bytes ≤ 128 →
    let (die, ln, off, n) := (dieOf x.core, a.addr / 128, a.addr % 128, f.bytes)
    let p := s.atomLane x.id x.core reply f a
    let val (bs : List W8) : Option W64 := (atomVal f (BitVec.ofNat 64 (leNat bs)) a.b a.c).1
    let near (u : State) (mark : Bool) : Prop := ∀ c, u.l2? die ln = some c →
      let old := c.data.bytes off n
      p.2.1 = BitVec.ofNat 64 (leNat old) ∧ ∃ y, p.1.l2? die ln = some y ∧ (mark = false → y.st = .m) ∧ ∀ j, j < 128 →
        let hit := off ≤ j ∧ j < off + n
        (¬ hit → y.data.byte j = c.data.byte j) ∧ (val old = none → y.data.byte j = c.data.byte j) ∧
        (∀ v, hit → val old = some v → y.data.byte j = (leBytes n v.toNat).getD (j - off) 0) ∧
        (y.marked.getLsbD j = (c.marked.getLsbD j || (mark && decide hit)))
    (a.nc = false → isHbm a.addr = true → f.sc.devUp = false → near ((s.grant die ln .shared).recallL1s die ln true) true) ∧
    (∀ c, a.nc = false → isHbm a.addr = true → f.sc.devUp = true → s.l2? die ln = some c → (c.st = .e ∨ c.st = .m) →
      near (((s.recallL1s die ln true).fix (.l2 die) a.addr n).push die ln) false) ∧
    (a.nc = true ∨ isHbm a.addr = false ∨ (f.sc.devUp = true ∧ ∀ c, s.l2? die ln = some c → c.st ≠ .e ∧ c.st ≠ .m) →
      let u := s.atHome (s.partNo die) a.addr n
      let old := rdBytes u.mem a.addr n
      p.2.1 = BitVec.ofNat 64 (leNat old) ∧ (val old = none → p.1.mem = u.mem) ∧
      ∀ v, val old = some v → p.1.mem = wrBytes u.mem a.addr (leBytes n v.toNat))) ∧
  ∀ (s : State) (x : Warp) (r : Run) (f : AtomF) (a : LaneAtom),
    let (t, old, g) := ({ s with nextId := s.nextId + 1 } : State).atomLane x.id x.core s.nextId f a
    s.commitAtoms x r f [a] = { t with replies := t.replies ++ [{
      id := s.nextId, warp := x.id, regs := r.replyRegs f, mask := lanesOf fun l => a.lane == l
      vals := (List.replicate 32 0).set a.lane old, flags := 0 ||| g }] }

/-- A commit's steps in the order of R75, and where its warp goes. R145: the block's flags are ORed into %fstat. R78: lanes with one
successor form a group, groups ascend by address; a commit that diverges with a rejoin block pushes its join entry with every lane that
goes on, the lowest group runs and the others become path entries; a call runs its callee over a join entry for its return block
(R90); where no lane goes on, the stack is popped, entries with no lane left discarded (R80, R81). A warp with nothing left retires
(R25). R32: the order in which a block's effects become final does not show how its instructions are numbered, where no two effects have one
key (the order of the keys is the model's, log 103). After a commit come the tests of R176 and R239 (when: DEDUCED, log 47). -/
def Obligations.CommitsMoveOn : Prop :=
  (∀ (s : State) (x : Warp) (r : Run), s.warp? x.id = some x → x.run = some r →
    let lv := x.leaving r s.order (s.order + 1)
    let effs := s.effOrder r.effs
    let u0 := ({ s with order := s.order + 2 } : State).setWarp x.id fun y => { y with run := none, phase := .ready }
    let u2 := (u0.commitRegs x r effs).commitStores x r effs
    let u3 := effs.foldl (fun s e => s.commitMessage x r.va e.2) (effs.foldl (fun s e => s.commitSend x e.2) u2)
    let u4 := effs.foldl (fun p e => State.commitArrive p x.id e.2) (effs.foldl (fun s e => s.commitRecv x e.2) u3, [])
    s.commitOne x.id = ((u4.1.commitLeave x r lv).testTeam x.id.team x.id.warp, u4.2)) ∧
  (∀ (s : State) (es fs : List (Nat × Eff)), (es.map (·.2)).Perm (fs.map (·.2)) → (es.map fun e => s.effKey e.2).Nodup →
    (s.effOrder es).map (·.2) = (s.effOrder fs).map (·.2)) ∧
  (∀ (s : State) (x : Warp) (r : Run), s.warp? x.id = some x → r.wslots = [] → ∃ y, (s.commitRegs x r []).warp? x.id = some y ∧
    y.fstat = x.fstat ||| r.flags.setWidth 32) ∧
  (∀ (r : Run), (r.groups.map fun g => g.1.toNat).Pairwise (· < ·) ∧
    ∀ a m l, (a, m) ∈ r.groups → l < 32 → (m.getLsbD l = true ↔ ∃ p, r.succ? l = some p ∧ p.kind.block? = some a)) ∧
  (∀ (x : Warp) (r : Run) (k1 k2 : Nat),
    let lv := x.leaving r k1 k2
    let st := x.stack.map (StackEnt.leave lv.leave)
    let gs := r.groups
    let j := r.va + 32 * BitVec.ofInt 64 r.rj
    let all := gs.foldl (fun m g => m ||| g.2) 0
    let rest := gs.filter fun g => g.1 != j
    let path (g : W64 × Lanes) : StackEnt := { join := false, addr := g.1, cp := false, mask := g.2, key := 0 }
    r.lanesTo (fun k => k == .routineEnd) = 0 →
    (r.call? = none →
      (∀ g l, gs.length ≤ 1 ∨ r.rj = 0 → (gs.filter fun g => some g.1 != topJoin st) = g :: l →
        lv.next = some { pc := g.1, am := g.2, popped := none } ∧ lv.stack = l.map path ++ st ∧ lv.join = none) ∧
      (gs.length ≤ 1 ∨ r.rj = 0 → (∀ g ∈ gs, topJoin st = some g.1) →
        lv.next = (popStack st).2.1 ∧ lv.stack = (popStack st).1 ∧ lv.gone = (popStack st).2.2) ∧
      (∀ g l, 1 < gs.length → r.rj ≠ 0 → rest = g :: l → lv.join = some (j, k1) ∧
        lv.next = some { pc := g.1, am := g.2, popped := none } ∧
        lv.stack = l.map path ++ { join := true, addr := j, cp := false, mask := all, key := k1 } :: st)) ∧
    (∀ m f b, r.call? = some (m, f, b) → gs = [] → lv.next = some { pc := f, am := m, popped := none } ∧
      lv.stack = { join := true, addr := b, cp := false, mask := m, key := k2 } :: st)) ∧
  (∀ (e : StackEnt) (st : List StackEnt),
    (e.mask ≠ 0 → popStack (e :: st) =
      (st, some { pc := e.addr, am := e.mask, popped := if e.join then some (e.key, e.cp) else none }, [])) ∧
    (e.mask = 0 → (popStack (e :: st)).1 = (popStack st).1 ∧ (popStack (e :: st)).2.1 = (popStack st).2.1) ∧
    popStack [] = ([], none, [])) ∧
  ∀ (s : State) (x z : Warp) (r : Run) (lv : Leaving), s.warp? x.id = some z → z.phase = .ready → r.trapped = none → lv.ends = false →
    (s.launchOf x.id).phase = .running →
    (∀ n, lv.next = some n → lv.join = none → r.wrote = [] → ∃ y, (s.commitLeave x r lv).warp? x.id = some y ∧ y.phase = .ready ∧
      y.pc = n.pc ∧ y.am = n.am ∧ y.popped = n.popped ∧ y.stack = lv.stack ∧ y.exited = z.exited ||| lv.leave ∧
      y.since = z.since + 1 ∧ y.entering = false ∧ y.v.map (·.num) = z.v.map (·.num) ∧ y.k = z.k ∧ y.fstat = z.fstat) ∧
    (lv.next = none → ∃ y, (s.commitLeave x r lv).warp? x.id = some y ∧ y.phase = .retired ∧ y.am = 0 ∧ y.routine = none)

/-! ### Copies and the matrix machine (R182 to R184, R196, R209, R217, R282) -/

/-- A copy begins into an empty tile that nothing references, or an Overlay region that nothing reads; with its last line the tile
is ready, its bytes the copied ones, or the region holds them. A pending copy reissued with a value that R42 refuses is cancelled all the
same (R84; its tile: log 50). -/
def Obligations.CopiesComplete : Prop :=
  (∀ (s t : State) (x : Warp) (c : Copy) (r : CopyCheck),
    s.checkCopy x { dk := c.ovl, dst := c.dst, src := c.src, len := c.len, pol := c.pol } (x.k.getD c.src 0) = (t, r) →
    (∀ lo, r ≠ .ok lo) → (∀ g, r ≠ .reloading g) →
    ∃ u, s.reissue x c = (u, some r) ∧ u.copies = t.copies.filter (fun y => y.id != c.id) ∧ u.teams = t.teams) ∧
  ∀ (s : State) (c : Copy), (s.copies.find? fun y => y.id == c.id && y.ovl == c.ovl) = some c → s.unitRuns (dieOf c.core) c.unit = true →
    let t := (lineParts c.va.toNat c.len).foldl (fun s p => s.copyLine c.id p) s
    (c.phase = .waiting → c.ovl = false → s.tileFree c.warp.team c.dst c.id = true →
      exec (.copyBegin c.id) s =
        .next ((s.setCopy c.id fun y => { y with phase := .writing }).tileState c.warp.team c.dst .filling) ∧
      s.tileSt c.warp.team c.dst = .empty ∧ ∀ r ∈ s.refs, r.obj ≠ .tile c.warp.team c.dst) ∧
    (c.phase = .waiting → c.ovl = true → s.fillReady c.core c.id c.lo (c.lo + c.len) = true →
      exec (.overlayFillBegin c.id) s = .next (s.setCopy c.id fun y => { y with phase := .writing })) ∧
    (c.phase = .writing → c.ovl = false → (∀ r ∈ s.refs, r.obj ≠ .tile c.warp.team c.dst) →
      ∀ y, (t.copies.find? fun y => y.id == c.id) = some y → y.whole = true →
        exec (.copyComplete c.id) s = .next (t.endCopy y) ∧
        (∀ tm z, y.ovl = false → t.team? y.warp.team = some tm → tm.tile? y.dst = some z →
          (t.endCopy y).tileSt y.warp.team y.dst = .ready)) ∧
    (c.phase = .writing → c.ovl = true →
      ∀ y, (t.copies.find? fun y => y.id == c.id) = some y → y.whole = true →
        exec (.overlayFillComplete c.id) s = .next (t.endCopy y))

/-- MMA_START of an operation that holds its references takes its cost from a bucket above zero, in quarter tokens (R217); MMA_COMPLETE
with no error and good masks computes every row for its members' commit (R209), and R176's and R239's tests follow (when: DEDUCED, log
47). R200: an element takes its K in groups of 32; a group's
terms are C and the products but the zeros; a NaN, opposed infinities, an infinity and no term give NaN, NaN with NV, it, and +0; else
the terms are cut toward zero at 63 bits below the greatest, and their exact sum is rounded once, a tie by the sign of what was cut.
R201: a split element sums its positive and its negative products apart, and counts them up to 65,535. -/
def Obligations.MatrixMachineCompletes : Prop :=
  (∀ (s : State) (m : Mma),
    ((s.mmas.find? fun y => y.id == m.id) = some m → s.coreRuns m.core = true → m.phase = 2 → 0 < (s.core m.core).level →
      exec (.mmaStart m.id) s = .next ((s.setCore m.core fun c => { c with level := c.level - 4 * m.cost }).setMma m.id fun y =>
        { y with phase := 3 })) ∧
    (∀ (t : Team) (p : Nat × Nat × Nat × Nat) (ps : List (Nat × Nat × Nat × Nat)),
      (s.mmas.find? fun y => y.id == m.id && y.phase == 3) = some m → s.coreRuns m.core = true → s.team? m.team = some t →
      m.members = p :: ps → s.errs = [] →
      ((parseEntry m.b).spn = 0 ∨ maskBad t.spad (parseEntry m.b) (parseEntry m.meta') m.kb m.ka = false) →
      let out := t.mmaRun m (s.core m.core).ovl
      let plane (g : SplitElem → W32) : Plane := (out.1.map fun p => (p.1, g p.2)).filter fun p => p.2 != 0
      exec (.mmaComplete m.id) s = .next (m.members.foldl (fun s p => s.tested { team := m.team, warp := p.1 })
        ((s.setMma m.id fun y => { y with
          phase := 4, outP := plane (·.p), outN := plane (·.n), outCp := plane (·.cp), outCm := plane (·.cm)
          flags := out.2 }).mmaDone m out.2)))) ∧
  (∀ (t : Team) (m : Mma) (ovl : Mem) (i n : Nat), (parseEntry m.b).spn = 0 → m.f.spl = false → i < m.aRows.length → n < 128 →
    let a := parseEntry m.a
    let as := (List.range m.ka).map fun c => activation t.spad a (m.aRows.getD i 0) c
    let bs := (List.range m.ka).map fun k => weight ovl t.spad (parseEntry m.b) (parseEntry m.meta') (m.kb + k) n
    let x := t.elem m.f.tid.toNat i n false
    (128 * i + n, { x with p := (plainElem x.p as bs).1 }) ∈ (t.mmaRun m ovl).1) ∧
  (∀ (c : W32) (as bs as' bs' : List Fp), as.length = 32 → bs.length = 32 → as'.length = bs'.length →
    (plainElem c [] []).1 = c ∧
    (plainElem c (as ++ as') (bs ++ bs')).1 = (plainElem (groupSum c ((as.zip bs).map fun p => (fpMulV p.1 p.2).1)).1 as' bs').1) ∧
  (∀ (c : W32) (ps : List Fp),
    let ts := (Fmt.f32.decode c.toNat :: ps).filter fun t => !t.isZero
    (ts = [] → groupSum c ps = (0, 0)) ∧
    (Fp.nan ∈ ts → groupSum c ps = (0x7FC00000, 0)) ∧
    (Fp.nan ∉ ts → Fp.inf false ∈ ts → Fp.inf true ∈ ts → groupSum c ps = (0x7FC00000, .nv)) ∧
    (Fp.nan ∉ ts → Fp.inf false ∈ ts → Fp.inf true ∉ ts → groupSum c ps = (0x7F800000, 0)) ∧
    (Fp.nan ∉ ts → Fp.inf false ∉ ts → Fp.inf true ∈ ts → groupSum c ps = (0xFF800000, 0)) ∧
    (∀ (top : Int) (log : Fp → Int), (∀ n m e, log (.fin n m e) = Nat.log2 m + e) → (∀ t ∈ ts, ∃ n m e, t = .fin n m e) →
      (∃ t ∈ ts, log t = top) → (∀ t ∈ ts, log t ≤ top) →
      let lo := top - 63
      let cut (t : Fp) : Bool := match t with
        | .fin _ m e => decide (e < lo) && m % 2 ^ (lo - e).toNat != 0
        | _ => false
      let hi (t : Fp) : Int := match t with
        | .fin n m e => (if n then -1 else 1) * ((if lo ≤ e then m * 2 ^ (e - lo).toNat else m / 2 ^ (lo - e).toNat : Nat) : Int)
        | _ => 0
      let sg (t : Fp) : Int := if cut t then (if t.isNeg then -1 else 1) else 0
      groupSum c ps = roundGroup (ts.map hi).sum lo (ts.map sg).sum (ts.any cut))) ∧
  (∀ (v lo d : Int) (cut : Bool),
    let m := v.natAbs
    let k := (if (Nat.log2 m : Int) + lo - 23 < -149 then -149 else (Nat.log2 m : Int) + lo - 23) - lo
    let tie := 0 < k ∧ m % 2 ^ k.toNat = 2 ^ (k - 1).toNat ∧ (Nat.log2 m : Int) + lo < 128
    let out (rm : Rm) : W32 := let b := (Fmt.f32.round rm false (.rat (v < 0) m 1 lo)).1; if b = 2 ^ 31 then 0 else BitVec.ofNat 32 b
    (v = 0 → (roundGroup v lo d cut).1 = 0) ∧
    (v ≠ 0 → d = 0 ∨ ¬ tie → (roundGroup v lo d cut).1 = out .rne) ∧
    (v ≠ 0 → tie → 0 < d → (roundGroup v lo d cut).1 = out .rup) ∧
    (v ≠ 0 → tie → d < 0 → (roundGroup v lo d cut).1 = out .rdn) ∧
    (cut = true → (roundGroup v lo d cut).2 ||| Flags.nx = (roundGroup v lo d cut).2)) ∧
  ∀ (x : SplitElem) (ps : List Fp),
    let up := ps.filter fun t => t != .nan && !t.isZero && !t.isNeg
    let down := ps.filter fun t => t != .nan && !t.isZero && t.isNeg
    let y := (splitGroup x ps).1
    y.cp.toNat = min 65535 (x.cp.toNat + up.length) ∧ y.cm.toNat = min 65535 (x.cm.toNat + down.length) ∧
    (Fp.nan ∉ ps → y.p = (groupSum x.p up).1 ∧ y.n = (groupSum x.n (down.map Fp.neg)).1) ∧
    (Fp.nan ∈ ps → y.p = 0x7FC00000 ∧ y.n = 0x7FC00000)

/-! ### What moves by itself (R71, R228, R248 to R252) -/

/-- A neighbour entry joins its queue in order; an atomic's reply writes its registers, of a retired warp too, and a later block's value in
one of them is overwritten (log 88), and R176's and R239's tests follow (when: DEDUCED, log 47); an L1 eviction leaves the dirty bytes
marked in the die's L2; an L2 eviction of a line held nowhere else leaves the marked bytes, and all bytes of an owner, at the home;
Meridian's eviction recalls the line from every die, and a mark with no owner known is a loss of the partitions that hold the line (R363,
log 81); a push merges a die's marked bytes. An L1 gives up a line that `.strm` brought first, one of `.keep` after the others (R116), and
one of an urgent warp only where its set holds no other (R345). -/
def Obligations.ArrivalsComplete : Prop :=
  ∀ (s : State),
    (∀ (f : Flight) (t : Team), (s.flights.find? fun g => g.id == f.id) = some f →
      (s.flights.find? fun g => g.dest == f.dest && g.prev == f.prev) = some f → s.team? f.dest = some t →
      exec (.neighbourEntryArrive f.id) s = .next (({ s with flights := s.flights.filter fun g => g.id != f.id } : State).setCore t.core
        fun c => c.setQueue f.prev fun q => q ++ [f.entry])) ∧
    (∀ (p : Reply), (s.replies.find? fun q => q.id == p.id) = some p →
      let u := ({ s with replies := s.replies.filter fun q => q.id != p.id, lags := s.lags.filter fun g => g.reply != p.id } : State).setWarp
        p.warp fun y => { y with fstat := p.flags.into y.fstat }
      let v := p.regs.foldl (fun s r => if r.1 then s else s.writeV p.warp r.2 p.mask fun l => (p.vals.getD l 0).setWidth 32) u
      exec (.atomicReply p.id) s = .next ((v.heldReads p.warp p.regs).tested p.warp)) ∧
    (∀ c line x, s.l1? c line = some x →
      (s.mayChoose c line = true ↔ ∀ y ∈ s.l1, y.core = c → y.line % 128 = line % 128 → s.spareRank x ≤ s.spareRank y) ∧
      s.spareRank x = if s.urgentLine x then 3 else if x.hint = 1 then 0 else if x.hint = 3 then 2 else 1) ∧
    (∀ c die line, c < 256 → s.mayChoose c line = false → exec (.lineEviction die (some c) line) s = .next s) ∧
    (∀ c die line, c < 256 → s.mayChoose c line = true → ∃ t, exec (.lineEviction die (some c) line) s = .next t ∧
      t.l1? c line = none ∧ t.mem = s.mem ∧
      ∀ x, s.l1? c line = some x → x.dirty ≠ 0 → ∃ y, t.l2? (dieOf c) line = some y ∧
        ∀ j, j < 128 → x.dirty.getLsbD j = true → y.data.byte j = x.data.byte j ∧ y.marked.getLsbD j = true) ∧
    (∀ die line x, die < 4 → s.l2? die line = some x → (∀ y ∈ s.l2, y.line = line → y.die = die) →
      (∀ y ∈ s.l1, y.line = line → dieOf y.core ≠ die) → Mem.wf s.mem = true →
      (∃ t, exec (.lineEviction die none line) s = .next t ∧ t.l2? die line = none ∧
        (∀ j, j < 128 → (x.st = .m ∨ x.st = .o ∨ x.marked.getLsbD j = true) → cget t.mem (128 * line + j) = x.data.byte j) ∧
        ∀ a, a / 128 ≠ line → cget t.mem a = cget s.mem a) ∧
      ∃ t y, exec (.pushApply die line) s = .next t ∧ t.l2? die line = some y ∧ y.marked = 0 ∧ y.data = x.data ∧
        ∀ j, j < 128 → x.st ≠ .m → x.st ≠ .o → x.marked.getLsbD j = true → cget t.mem (128 * line + j) = x.data.byte j) ∧
    (∀ line, ∃ t, exec (.lineEviction 4 none line) s = .next t ∧ t.inMer line = false ∧ t.mem = (s.recallAll line).mem ∧
      ∀ e k, s.owner? line = none → ((s.recallAll line).mer.find? fun e => e.line == line) = some e →
        ((s.recallAll line).marksAt .mer (128 * line) 128).head? = some k →
        t.lost = s.lost ++ (s.partsWith line).map fun p => (p, 16 * k.gran, k.code)) ∧
    ∀ die line, exec (.pushApply die line) s = .next (s.push die line)

/-! ### The clock of a core (R29, R217, R344, R345) -/

/-- ISSUE_CLOCK raises the core's cycle count and refills its bucket, serves what waits and issues the picks in warp order; a candidate is
an idle instruction with full slots that nothing holds back (slots of warps: log 36). Up to four are picked and none is left while there is
room; an aged warp with fewer than four older aged warps issues its first (older: the greater age, then the lower slot); where no warp is
aged, what is picked comes before what is not: urgent warps first, then the older block, the lower index, the lower slot (R344).
URGENCY_EVALUATION marks, in each stage of two live warps or more, the one with the fewest blocks since its last barrier phase.
POWER_RATE_SET sets the rate and the throttle mask (log 89). -/
def Obligations.ClocksComplete : Prop :=
  ∀ (s : State),
    (∀ core, core < s.cores.length →
      let c := s.core core
      let u := s.setCore core fun c => { c with cycles := c.cycles + 1, level := min (c.level + c.rate) (4 * c.depth) }
      let u : State := { u with now := max s.now (c.cycles + 1).toNat }
      (s.coreRuns core = false → exec (.issueClock core) s = .next u) ∧
      let a := u.serveTakes core 0
      let d := (a.mmas.filter fun m => m.core == core).foldl (fun s m => s.mmaRefs m) a
      let aged : State := { d with warps := d.warps.map fun x =>
        if x.core = core then
          { x with age := if x.id ∈ (picks (d.cands core)).map (·.w) ∨ x.id ∉ (d.cands core).map (·.w) then 0 else x.age + 1 }
        else x }
      (s.coreRuns core = true → exec (.issueClock core) s = .next { aged with
        issue := d.retries core ++ inWarpOrder (picks (d.cands core)) })) ∧
    (∀ a b : Cand,
      (a.before b = true ↔ (a.urgent = true ∧ b.urgent = false) ∨ (a.urgent = b.urgent ∧
        (a.order < b.order ∨ (a.order = b.order ∧ (a.k < b.k ∨ (a.k = b.k ∧ a.slot ≤ b.slot)))))) ∧
      (a.older b = true ↔ b.age < a.age ∨ (a.age = b.age ∧ a.slot ≤ b.slot))) ∧
    (∀ core, (∀ c ∈ s.cands core, ∃ x r, (s.warpsOn core)[c.slot]? = some x ∧ x.run = some r ∧ x.id = c.w ∧ x.age = c.age ∧
        x.urgent = c.urgent ∧ r.order = c.order) ∧
      ∀ w k, (∃ c ∈ s.cands core, c.w = w ∧ c.k = k) ↔ ∃ x ∈ s.warpsOn core, ∃ r i, x.id = w ∧ x.phase = .running ∧ x.run = some r ∧
        k ≤ r.ni ∧ (r.node k).st = .idle ∧ r.instr k = some i ∧ (r.node k).full i = true ∧ r.held k = false) ∧
    (∀ cs : List Cand, (picks cs).length ≤ 4 ∧ (∀ c ∈ picks cs, c ∈ cs) ∧
      ((picks cs).length < 4 → ∀ c ∈ cs, c ∈ picks cs) ∧
      ((∀ c ∈ cs, c.age < 48) → ∀ c ∈ picks cs, ∀ d ∈ cs, d ∉ picks cs → c.before d = true) ∧
      ∀ c ∈ cs, 48 ≤ c.age → (∀ a ∈ cs, ∀ b ∈ cs, a.w = b.w → a.age = b.age ∧ a.slot = b.slot) →
        (∃ ws : List WarpId, ws.length ≤ 3 ∧ ∀ d ∈ cs, 48 ≤ d.age → d.older c = true → d.w = c.w ∨ d.w ∈ ws) →
        ∃ p ∈ picks cs, p.w = c.w ∧ ∀ d ∈ cs, d.w = c.w → p.before d = true) ∧
    (∀ t, exec (.urgencyEvaluation t) s = .next { s with warps := s.warps.map fun x =>
      if x.id.team = t then { x with urgent := (List.range 8).any fun g =>
        ((urgentOf ((s.live t).filter fun y => ((s.launchOf y.id).stageOf y.id.warp).1 == g)).map (·.id)) == some x.id } else x }) ∧
    (∀ xs : List Warp, (xs.length < 2 → urgentOf xs = none) ∧
      (2 ≤ xs.length → ∃ x ∈ xs, urgentOf xs = some x ∧
        ∀ y ∈ xs, x.since < y.since ∨ (x.since = y.since ∧ x.id.warp ≤ y.id.warp))) ∧
    ∀ (core quarters depth : Nat),
      (1 ≤ quarters → quarters ≤ 32 → 256 ≤ depth → depth ≤ 65535 →
        let t := s.setCore core fun c => { c with rate := quarters, depth := depth, level := min c.level (4 * depth) }
        exec (.powerRateSet core quarters depth) s = .next { t with regs := { t.regs with throttle := t.throttled } })

/-! ### Errors as they strike and as they are mended (R217, R360 to R366, R378) -/

/-- A scrub of a running core's pool corrects and counts, and what it finds is one data fault of the warp; a reload reads the region again
and is counted, or faults where an error struck meanwhile; a flit is sent again at most 8 times before its data is poisoned where it arrives
(log 110); an error strikes a granule that holds data, in a copy of memory at once: a dirty line's granule is poisoned, a clean line is
dropped (that an uncorrectable error replaces a correctable one is log 74); a frozen master issues no more and its contexts fault;
bring-up's events are noted. -/
def Obligations.ErrorEventsComplete : Prop :=
  ∀ (s : State),
    (∀ w n x r, s.warp? w = some x → x.vreg? n = some r → s.coreRuns x.core = true → x.phase ≠ .faulted →
      let gs := allLanes.map fun l => Granule.pool w n l
      let u := s.correct gs
      ((∀ l, l < 32 → (Granule.pool w n l, true) ∉ u.errs) → exec (.poolScrub w n) s = .next u) ∧
      ∀ l, l < 32 → (Granule.pool w n l, true) ∈ u.errs →
        let bad := lanesOf fun l => u.errs.contains (Granule.pool w n l, true)
        let v := u.clearErrs gs
        exec (.poolScrub w n) s = .next (v.dataFault w 0 1 n bad) ∧ ∀ l, l < 32 → ∀ b, (Granule.pool w n l, b) ∉ v.errs) ∧
    (∀ core ctx va, let g := Granule.code core ctx va
      g ∈ s.reloads →
      let u := ({ s with reloads := s.reloads.filter (· != g), errs := s.errs.filter fun e => e.1 != g } : State).setCore core fun c =>
        { c with code := c.code.filter fun e =>
            !(e.ctx == ctx && e.va.toNat < va.toNat + 2048 && va.toNat < e.va.toNat + 8 * e.words.length) }
      ((g, true) ∉ s.errs → exec (.codeRegionReload g) s = .next (u.bump (0x10400 + 2 * core) 16)) ∧
      ((g, true) ∈ s.errs → exec (.codeRegionReload g) s = .next (u.needFault core ctx va va.toNat))) ∧
    (∀ core ctx, let g := Granule.legend core ctx
      g ∈ s.reloads → (g, true) ∉ s.errs →
      exec (.codeRegionReload g) s = .next (((
        { s with reloads := s.reloads.filter (· != g), errs := s.errs.filter fun e => e.1 != g } : State).setCore core fun c =>
          { c with legend := c.legend.filter fun e => e.ctx != ctx }).bump (0x10400 + 2 * core) 16)) ∧
    (∀ port fails pa, port < 5 → fails ≤ 8 →
      exec (.flitReplay port fails pa) s = .next ((List.range fails).foldl (fun s _ => s.bump (0x10300 + 4 * port) 32) s)) ∧
    (∀ port fails pa, 5 ≤ port → port < 13 → 8 < fails →
      let u := (List.range 8).foldl (fun s _ => s.bump (0x10340 + 4 * (port - 5)) 32) s
      let v : State := { u with fresh := u.fresh + 1 }
      exec (.flitReplay port fails pa) s = .next (v.mark (u.homeAt (pa / 128)) pa 8) ∧
      ∃ k ∈ (v.mark (u.homeAt (pa / 128)) pa 8).poison, k.place = u.homeAt (pa / 128) ∧ k.gran = pa / 16) ∧
    (∀ port fails pa, port < 5 → 8 < fails → ∃ t, exec (.flitReplay port fails pa) s = .next t ∧ t.mem = s.mem ∧
      ∃ k ∈ t.poison, k.gran = pa / 16 ∧ (k.place = s.homeAt (pa / 128) ∨ (k.place = .l2 port ∧ (s.l2? port (pa / 128)).isSome = true))) ∧
    (∀ m, m ∉ s.frozen → ∃ t, exec (.frozenMaster m) s = .next t ∧ t.frozen = m :: s.frozen ∧
      t.raised.length = s.raised.length + (perCtx (s.workIn m)).length ∧
      (∀ f ∈ t.raised, f ∈ s.raised ∨ (f.cls = 0x0C ∧ ∃ l ∈ s.workIn m, l.1.ctx = f.ctx)) ∧ t.mem = s.mem ∧ t.warps = s.warps) ∧
    (∀ g, s.holdsData (granuleOf g) = true → (∀ e ∈ s.errs, e.1 ≠ granuleOf g) →
      exec (.softError g false) s = .next { s with errs := s.errs ++ [(granuleOf g, false)] }) ∧
    (∀ t off, s.holdsData (.spad t (off / 4 * 4)) = true →
      exec (.softError (.spad t off) true) s =
        .next { s with errs := (s.errs.filter fun e => e.1 != .spad t (off / 4 * 4)) ++ [(.spad t (off / 4 * 4), true)] }) ∧
    (∀ c pa x, s.l1? c (pa / 128) = some x → ∃ u, exec (.softError (.mem (.l1 c) pa) true) s = .next u ∧
      (x.dirty = wholeLine → u.l1? c (pa / 128) = some x ∧ ∃ k ∈ u.poison, k.place = .l1 c ∧ k.gran = pa / 16) ∧
      (x.dirty = 0 → u.l1? c (pa / 128) = none ∧ u.mem = s.mem)) ∧
    (∀ pa, isHbm pa = true → ∃ u, exec (.softError (.mem .hbm pa) true) s = .next u ∧ u.mem = s.mem ∧
      ∀ a, pa / 32 * 32 ≤ a → a < pa / 32 * 32 + 32 → ∃ k ∈ u.poison, k.place = .hbm ∧ k.gran = a / 16) ∧
    exec .memoryTrainingComplete s = .next { s with fw := { s.fw with trained := true } } ∧
    exec .linkEqualisationComplete s = .next { s with fw := { s.fw with equalised := true } } ∧
    ∀ core ctx va, core < s.cores.length → ∃ t, exec (.nativeCodeCacheEviction core ctx va) s = .next t ∧
      (t.core core).block? ctx va = none ∧ t.mem = s.mem

/-! ### Engine messages (R285, R301 to R306, R309) -/

/-- COPY, GATHR and FILLB perform their lines and end with the last, a tile they fill being ready with the bytes; SCATR sends out its
updates, one for each index; a COPYM's share performs, or fails once it has waited longer than the limit, whichever step comes to it
first. -/
def Obligations.EngineMessagesComplete : Prop :=
  ∀ (s : State) (m : Msg), s.msg? m.id = some m → m.phase < 2 → s.unitRuns (dieOf m.core) m.master = true →
    (∀ (a y : Msg), m.op = .copy → (s.beginMsg m).msg? m.id = some a → a.phase = 1 →
      let t := (s.beginMsg m).eachPart m.id (fun p => p.1) a.copyParts State.copyPart
      t.msg? m.id = some y → (∀ p ∈ a.copyParts, y.has p.1 = true) →
      (y.destTile = none → exec (.copyMessage m.id) s = .next (t.endMsg m.id a.size 0)) ∧
      ∀ tid, y.destTile = some tid → exec (.copyMessage m.id) s = .next ((t.fillTile y.warp.team tid
        (y.got.filter fun g => (a.copyParts.map fun p => p.1).contains g.1)).endMsg m.id a.size 0)) ∧
    (∀ (a b y : Msg), m.op = .gathr → (s.beginMsg m).msg? m.id = some a → a.phase = 1 →
      let t := (s.beginMsg m).eachPart m.id (fun p => p.2.2) a.indexParts State.arrayPart
      t.msg? m.id = some b → (∀ p ∈ b.indexParts, b.has p.2.2 = true) →
      let es := (List.range b.size).zip b.indices
      let u := t.eachPart m.id (fun p => p.1 * b.gathWidth) es State.gatherPart
      u.msg? m.id = some y → (∀ p ∈ es, y.has (p.1 * b.gathWidth) = true) →
      (y.destTile = none → exec (.gathr m.id) s = .next (u.endMsg m.id b.size 0)) ∧
      ∀ tid, y.destTile = some tid → exec (.gathr m.id) s = .next ((u.fillTile y.warp.team tid
        (y.got.filter fun g => (es.map fun p => p.1 * b.gathWidth).contains g.1)).endMsg m.id b.size 0)) ∧
    (∀ (t : TeamId) (tid : Nat) (got : List (Nat × List W8)) (x : Tile), (s.team? t).bind (fun y => y.tile? tid) = some x →
      (s.fillTile t tid got).tileSt t tid = .ready ∧ ∀ off bs, got = [(off, bs)] →
        (∀ y, s.team? t = some y → cwf y.spad = true) → (s.fillTile t tid got).spadRead t (x.off + off) bs.length = bs) ∧
    (∀ (u : State) (a y : Msg), m.op = .fillb →
      ((m.phase = 1 ∧ u = s) ∨ (m.phase = 0 ∧ s.fillReady m.core m.id m.lo (m.lo + m.len) = true ∧
        (∀ r ∈ m.ranges 0, r.2 = 0 ∨ r.1.toNat + r.2 ≤ 2 ^ 54) ∧ u = s.setMsg m.id fun z => { z with phase := 1 })) →
      u.msg? m.id = some a →
      let ps := arrayParts (a.addr 4) a.len 0
      let t := u.eachPart m.id (fun p => p.2.2) ps State.arrayPart
      t.msg? m.id = some y → (∀ p ∈ ps, y.has p.2.2 = true) →
      exec (.fillb m.id) s = .next ((y.got.foldl (fun s g => s.fillWrite y.core y.warp.team.launch.ctx (y.lo + g.1) g.2) t).endMsg
        m.id y.len 0)) ∧
    (∀ (y : Msg), m.op = .scatr → m.phase = 0 → (∀ r ∈ m.ranges 0, r.2 = 0 ∨ r.1.toNat + r.2 ≤ 2 ^ 54) →
      let t := s.eachPart m.id (fun p => p.2.2) (m.indexParts ++ m.operandParts) State.arrayPart
      t.msg? m.id = some y → (∀ p ∈ m.indexParts ++ m.operandParts, y.has p.2.2 = true) → y.size ≠ 0 →
      exec (.scatr m.id) s = .next (({ t with
        nextId := t.nextId + y.size
        toks := t.toks ++ ((List.range y.size).zip y.indices).map fun (p : Nat × W32) =>
          ({ id := t.nextId + p.1, updates := [(m.id, y.addr 4 + BitVec.ofNat 64 (p.2.toNat * y.scatWidth))], pa := none
             aop := scatOp (y.bits 6 2 0), ty := msgTy (y.bits 6 5 3)
             val := y.operand (msgTy (y.bits 6 5 3)) (y.kept operandKey y.operandParts) p.1, ord := y.ordered } : SparseTok) } :
          State).setMsg m.id fun z => { z with phase := 1, got := [] })) ∧
    (∀ (a : Msg) (h g : Share), m.op = .copym → (m.shares.find? fun z => z.team == h.team) = some h →
      (s.beginShare m h).msg? m.id = some a → a.phase < 2 → (a.shares.find? fun z => z.team == h.team) = some g → g.st = 1 →
      exec (.copym m.id h.team) s = .next (((s.beginShare m h).runShare a h.team).settleShares m.id)) ∧
    (∀ (h : Share), m.op = .copym → (m.shares.find? fun z => z.team == h.team) = some h → h.st = 0 → m.stallLimit < s.now - h.since →
      exec (.copym m.id h.team) s = .next ((s.setShare m.id h.team 2).settleShares m.id) ∧
      exec (.copymShareAbandon m.id h.team) s = .next ((s.setShare m.id h.team 2).settleShares m.id))

/-- MESSAGE_COMPLETE writes the record of a message that has performed, W1 before W0, in memory or in the team's scratchpad, and
frees its place: only then do its references end, a consumer's counting (R183, R184); REPLY_MATCH lets a WAITR whose record matches deliver
STATUS · 256 + 1 (R301, R309). -/
def Obligations.RepliesComplete : Prop :=
  ∀ (s : State),
    (∀ (m : Msg) (done status : Nat), (s.endMsg m.id done status).refs = s.refs ∧ (∀ r ∈ (s.replied m).refs, r.owner ≠ .msg m.id) ∧
      ∀ t tid z, s.msg? m.id = some m → m.phase = 2 → m.shares = [] →
        (s.refs.filter fun r => r.owner == .msg m.id) = [{ owner := .msg m.id, obj := .tile t tid, write := false, consumer := true }] →
        (s.team? t).bind (·.tile? tid) = some z → ((s.replied m).team? t).bind (·.tile? tid) = some (z.consume 1)) ∧
    (∀ (m : Msg) (t : State) (pa : Nat) (nc : Bool), s.msg? m.id = some m → m.phase = 2 → s.unitRuns (dieOf m.core) m.master = true →
      m.inSpad = false → s.lineAt m.warp.team.launch.ctx 2 1 (.msg m.id) m.reply m.core m.warp.warp = (t, .page pa nc) →
      let part := t.partNo (dieOf m.core)
      exec (.messageComplete m.id) s = .next (((t.homeStore part (pa + 8) (leBytes 8 m.done)).homeStore part pa
        (leBytes 8 (m.tag.toNat * 2 ^ 32 + m.status * 256 + 1))).replied m)) ∧
    (∀ (m : Msg), s.msg? m.id = some m → m.phase = 2 → s.unitRuns (dieOf m.core) m.master = true → m.inSpad = true →
      exec (.messageComplete m.id) s = .next (((s.spadWrite m.warp.team (m.reply.toNat + 8) (leBytes 8 m.done)).spadWrite
        m.warp.team m.reply.toNat (leBytes 8 (m.tag.toNat * 2 ^ 32 + m.status * 256 + 1))).replied m)) ∧
    (∀ (x : Issue) (pr : Pr) (a b : Tgt),
      let i : Instr := .waitr pr true a b
      let u : State := { s with cur := some (x.w, x.k) }
      let w0 : W64 := BitVec.ofNat 64 (leNat (s.spadRead x.w.team (laneBase true x.o 0).toNat 8))
      Fires u i x → (x.run.node x.k).st = .waiting .reply → x.run.instr x.k = some i → s.coreRuns x.warp.core = true →
      uniOk i x.o = true → s.errs = [] → w0.getLsbD 0 = true → w0.extractLsb' 32 32 = x.o.right.val32 0 →
      exec (.replyMatch x.w x.k) s = .next (u.setRun x.w fun r =>
        { (r.putAll [a, b] (Token.uniform false true ((((w0.extractLsb' 8 8).setWidth 32 : W32) * 256 + 1).setWidth 64))).finish x.k with
          flags := r.flags ||| 0 }))

/-! ### Collectives and sparse updates (R257, R307) -/

/-- COLL of a collective whose members have all joined in time and agree moves the data, where they differ it ends with STATUS 0x03, where
the last joined later than 2^30 cycles after the first's leaving or is still missing then with 0x04, and so at once in bring-up; a member of
another device joins with its data; poison in the group's entry, which the unit reads, is a fault (R362). A reduction combines the ranks
left to right, wrapping integers; all-gather is every member's data by rank; a broadcast delivers the root's data, to the root too (log 56)
(R307). SPARSE_TOKEN_ARRIVE: a token enters the window of its slice, and the unit applies the token it takes at its line's home, counting
the update (R257, R301, R305); where updates have merged, the flags and the count go to every message the token stands for (R284; DEDUCED,
log 62). -/
def Obligations.CollectivesAndSparseComplete : Prop :=
  (∀ (s : State) (m : Msg) (c : Collect) (me : Member), s.msg? m.id = some m → m.op = .coll → m.phase < 2 →
    s.unitRuns (dieOf m.core) m.master = true →
    let ctx := m.warp.team.launch.ctx
    let table := s.groupAt ctx (m.bits 4 7 0)
    let u := s.sysFix table 16
    let g := (u.group c.ctx c.grp).1
    (∀ k, s.fw.bringUp = false → s.sysMark table 16 = some k → exec (.coll m.id) s = .next (s.msgPoison m 0 k table)) ∧
    (s.fw.bringUp = true → exec (.coll m.id) s = .next (s.endMsg m.id 0 4)) ∧
    (s.fw.bringUp = false → m.phase = 1 → s.sysMark table 16 = none → u.collOf m.id = some c → c.late = false →
      (c.members.find? fun y => y.msg == some m.id) = some me → g ≤ c.members.length →
      ((∀ y ∈ c.members, collShape y.op = collShape me.op ∧ y.count = me.count) → me.needs g ≤ me.data.length →
        exec (.coll m.id) s = .next (u.collReceive m c me)) ∧
      (∀ y ∈ c.members, (collShape y.op ≠ collShape me.op ∨ y.count ≠ me.count) →
        exec (.coll m.id) s = .next ((u.dropColl c).endMsg m.id 0 3))) ∧
    (s.fw.bringUp = false → m.phase = 1 → s.sysMark table 16 = none → u.collOf m.id = some c → c.late = true →
      (∃ y ∈ c.members, y.msg = some m.id) → exec (.coll m.id) s = .next ((u.dropColl c).endMsg m.id 0 4)) ∧
    (∀ y, (s.colls.find? fun d => d.ctx == c.ctx && d.grp == c.grp && d.k == c.k) = some c → (∀ z ∈ c.members, z.rank ≠ y.rank) →
      2 ^ 30 < s.now - c.since → ∃ d ∈ (s.joinColl c.ctx c.grp c.k s.now y).colls, y ∈ d.members ∧ d.late = true) ∧
    (s.sysMark table 16 = none → u.collOf m.id = some c → c.members.length < g → 2 ^ 30 < u.now - c.since →
      exec (.collTimeout m.id) s = .next ((u.dropColl c).endMsg m.id 0 4)) ∧
    (∀ ctx grp k rank op count data,
      let v := s.sysFix (s.groupAt ctx grp) 16
      (s.ctx? ctx).isSome = true → s.sysMark (s.groupAt ctx grp) 16 = none → v.fw.bringUp = false → rank < (v.group ctx grp).1 →
      rank ≠ (v.group ctx grp).2.1 → s.unitRunsFor ctx .coll = true →
      exec (.collectiveMemberJoin ctx grp k rank op count data) s =
        .next (v.joinColl ctx grp k v.now { rank := rank, op := op, count := count, data := data, msg := none }))) ∧
  (∀ (ms : List Member) (me : Member),
    (∀ i, i < me.count →
      (collKind me.op = 0 → (collResult ms me).1.getD i 0 = (reduceElem (collAtom me.op) (ms.map fun y => y.data.getD i 0)).1) ∧
      (collKind me.op = 2 → (collResult ms me).1.getD i 0 =
        (reduceElem (collAtom me.op) (ms.map fun y => y.data.getD (me.rank * me.count + i) 0)).1)) ∧
    (∀ v vs w, let f := collAtom me.op
      let p := reduceElem f (v :: vs)
      let q := atomVal f (p.1.setWidth 64) (w.setWidth 64) 0
      reduceElem f [v] = (v, 0) ∧ reduceElem f (v :: vs ++ [w]) = ((q.1.getD 0).setWidth 32, p.2 ||| q.2) ∧
      (f.aop = .add → f.ty = .i32 ∨ f.ty = .n32 → (q.1.getD 0).setWidth 32 = p.1 + w ∧ q.2 = 0) ∧
      (f.aop = .max → f.ty = .n32 → ((q.1.getD 0).setWidth 32).toNat = max p.1.toNat w.toNat)) ∧
    (collKind me.op = 1 → (∀ y ∈ ms, y.data.length = me.count) → collResult ms me = (ms.flatMap fun y => y.data, 0)) ∧
    (collKind me.op = 3 → ∀ r, (ms.find? fun y => y.rank == collRoot me.op) = some r → collResult ms me = (r.data, 0))) ∧
  (∀ (s : State) (id pick : Nat) (t : SparseTok) (m : Msg),
    (∀ (u : State) (pa : Nat) (nc : Bool), (s.toks.find? fun y => y.id == id && y.pa.isNone) = some t → (t.msgs.head?).bind s.msg? = some m →
      s.lineAt m.warp.team.launch.ctx 2 2 (.token id) t.va m.core m.warp.warp = (u, .page pa nc) →
      s.unitRuns (dieOf m.core) (.sparse (sliceOf pa)) = true → (s.window (sliceOf pa)).length < 64 →
      exec (.sparseTokenArrive id pick) s = .next ((u.enterWindow { t with pa := some pa }).applyTok pick)) ∧
    (∀ (pa : Nat) (v : W64) (f : Flags), (s.toks.find? fun y => y.id == id && y.pa.isNone) = none →
      (s.toks.find? fun y => y.id == pick) = some t → t.pa = some pa → t.ord = false →
      s.unitRuns (s.tokDie t) (.sparse (sliceOf pa)) = true → s.poison = [] →
      let n := if t.ty.wide then 8 else 4
      let u := (s.atHome (s.partNo (s.tokDie t)) pa n).dropLags pa n
      atomVal t.fields (BitVec.ofNat 64 (leNat (rdBytes u.mem pa n))) t.val 0 = (some v, f) →
      let w := u.setHome pa (leBytes n v.toNat)
      w.mem = wrBytes u.mem pa (leBytes n v.toNat) ∧
      exec (.sparseTokenArrive id pick) s = .next ((({ w with toks := w.toks.filter fun y => y.id != pick } : State).msgFlags
        t.msgs f).countUpdates t.msgs)))



/-! ### Teams and launches (R19, R22, R26, R27, R342, R347, R350) -/

/-- TEAM_PLACE puts the next team of the launch that is served on the core named; LAUNCH_RESUME reads the records of the next saved teams
and places them, faults where one holds poison (R362, log 99), and reads none of which a record's version is not listed; a team whose warps
have retired retires; a launch whose teams have retired completes by a core that handles an event of its queue, the dies it used flushed,
and a killed one freezes its queue (R22, R26, R27, R342, R347, R350, R351). R342: a launch is placed nothing while one of higher PRIO, or of
equal PRIO that became ready before it, may be placed and some core can take its next team. R22: two saved teams that ask for different
things are placed together wherever some choice of cores takes both. R19: a warp of a new team begins at the entry with every lane
active, the launch's parameters in its uniform registers, and no register bound. -/
def Obligations.TeamsAndLaunchesComplete : Prop :=
  (∀ (s : State) (l : Launch), s.launch? l.id = some l →
    (∀ core a, s.served l = true → l.saved = [] → l.chain = false → l.cor = false → l.placed < l.teams →
      core ∈ s.allowed l → s.admits l none core = some a →
      exec (.teamPlace l.id core) s = .next (s.putTeam l l.placed core a)) ∧
    (∀ core t, s.served l = true → l.saved = [] → s.placeTeams l (s.nextTeams l core) = some t →
      exec (.teamPlace l.id core) s = .next t) ∧
    (∀ (core : Nat) (n : Launch), n ∈ s.launches → s.samePart n.id l.id = true → s.mayPlace n = true → s.canPlace n = true →
      (l.prio < n.prio ∨ (n.prio = l.prio ∧ n.since < l.since ∧ (n.id.ctx ≠ l.id.ctx ∨ n.queue ≠ l.queue ∨ n.eval ≠ l.eval))) →
      exec (.teamPlace l.id core) s = .next s ∧ exec (.launchResume l.id core) s = .next s) ∧
    (∀ (t u : Nat × Option SavedTeam × List Nat) (c d a b : Nat), l.asks u.2.1 ≠ l.asks t.2.1 → c ∈ t.2.2 → s.admits l t.2.1 c = some a →
      d ∈ u.2.2 → (s.placeTeam l t.1 t.2.1 c a).admits l u.2.1 d = some b → (s.placeTeams l [t, u]).isSome = true) ∧
    (∀ core, s.served l = true → l.saved ≠ [] → s.faulty l.id.ctx = false →
      let reads := s.resumeReads l core
      let r := reads.foldl (fun s p => s.sysFix p.1 p.2) s
      let y := r.readSave l core
      let v := r.spendKeys.setLaunch l.id fun _ => y
      let listed (p : Nat × Nat) : Bool := s.fw.readable.getLsbD (leNat (s.sysRead (p.1 + 6) 2))
      (∀ pa code, (reads.findSome? fun p => r.markIn p.1 p.2) = some (pa, code) →
        exec (.launchResume l.id core) s = .next (r.resumeFault l pa code)) ∧
      ((∀ p ∈ reads, r.markIn p.1 p.2 = none) →
        ((∃ p ∈ reads, listed p = false) → exec (.launchResume l.id core) s = .next s) ∧
        ∀ t, (∀ p ∈ reads, listed p = true) → v.placeTeams y (v.nextTeams y core) = some t →
          exec (.launchResume l.id core) s = .next t)) ∧
    (∀ t, s.team? t.id = some t → s.live t.id = [] → (∀ m ∈ s.msgs, m.warp.team ≠ t.id) → s.coreRuns t.core = true →
      s.eventRoom = true → exec (.teamRetire t.id) s = .next (((s.removeTeam t.id 4).setLaunch t.id.launch fun l =>
        { l with retired := l.retired + 1 }).event (.retired t.id))) ∧
    (s.handles l.id.ctx l.queue = true → l.phase ≠ .killing → l.retired = l.teams → l.saved = [] →
      exec (.launchComplete l.id) s =
        .next (((s.flushDies ((l.used.map dieOf).eraseDups)).dropLaunch l.id).donePkt l.pkt)) ∧
    (l.phase = .killing → (∀ m ∈ s.msgs, m.warp.team.launch ≠ l.id) →
      (∀ x ∈ s.warps, x.id.team.launch = l.id → x.rested = true) →
      exec (.launchComplete l.id) s =
        .next ((((s.teamsOf l.id).foldl (fun s t => s.removeTeam t 4) s).dropLaunch l.id).freezePkt l.pkt 5 0))) ∧
  (∀ (l : Launch) (i core order w : Nat), w < l.warps → ∃ x, (l.newWarps i core order)[w]? = some x ∧
    x.id = { team := { launch := l.id, team := i }, warp := w } ∧ x.core = core ∧ x.pc = l.entry ∧ x.am = BitVec.allOnes 32 ∧
    x.v = [] ∧ x.m = List.replicate 8 (0, 0) ∧ x.stack = [] ∧ x.exited = 0 ∧ x.gang = 0 ∧ x.fstat = 0 ∧ x.limit = l.rows ∧
    x.phase = .ready ∧ x.k.length = 64 ∧ ∀ j, j < 64 → x.k.getD j 1 = if j < l.npar then l.par j else 0)


/-! ### Surrender and checkpoints (R324, R325, R331 to R333, R346 to R353) -/

/-- A recall enters its core's queue of 16 while it has an entry, a take's while 12 are not taken; a routine starts at its holder's
boundary, stopped or parked ones too, with the live lanes, once step 6 of its last commit is made (R75); one that has used its bound is
ended then, its unit saved at its save address or in the ring by the die's copy unit, where that runs (R357, R365), and lost; a yield
deadline or the last yield brings the stop request (R324, R325, R331 to R334, R348, R392). CHECKPOINT_SAVE of a launch that has stopped and
whose save fits leaves no team or warp of it on a core, and holds its teams as saved; an uncorrectable word it reads is a fault (R349 to
R353, R361; outside registers log 64); where the record lies and what fits is log 37. A warp record read back gives what was written: the
mask, the address, the gang, limit and status, the uniform and modulo registers, the stack's entries and the rows of the bound lane
registers (R352; addresses of more than 54 bits: log 130). -/
def Obligations.SurrendersAndCheckpointsComplete : Prop :=
  (∀ (s : State),
    (∀ core, let on := s.recalls.filter fun r => r.core == core && r.queued
      let taken := (on.filter fun r => !r.sched).length
      let entered (r : Recall) : State := { s with recalls := s.recalls.map fun q => if q = r then { q with queued := true } else q }
      (∀ r, taken < 12 → on.length < 16 → (s.recalls.find? fun r => r.core == core && !r.queued) = some r →
        exec (.recallQueued core) s = .next (entered r)) ∧
      (∀ r, 12 ≤ taken → on.length < 16 → (s.recalls.find? fun r => r.core == core && !r.queued && r.sched) = some r →
        exec (.recallQueued core) s = .next (entered r)) ∧
      (16 ≤ on.length → exec (.recallQueued core) s = .next s) ∧
      (12 ≤ taken → (∀ r ∈ s.recalls, r.core = core → r.queued = false → r.sched = false) →
        exec (.recallQueued core) s = .next s)) ∧
    (∀ (x : Warp) (r : Recall) (t : Team) (u : Taken), s.warp? x.id = some x → x.run = none →
      (x.phase = .ready ∨ x.phase = .stopped ∨ ∃ n l a, x.phase = .parked n l a) → x.owes = false → s.coreRuns x.core = true →
      (s.launchOf x.id).phase ≠ .killing → s.nextRecall x = some r → s.team? x.id.team = some t →
      (t.taken.find? fun u => u.tid == r.tid) = some u →
      exec (.surrenderRoutineStart x.id) s = .next (({ s with order := s.order + 1 } : State).setWarp x.id fun y => { y with
        routine := some { tid := r.tid, bound := u.bound, done := 0, pc := x.pc, am := x.am, stack := x.stack, popped := x.popped
                          rejoin := x.rejoin, lines := [], parked := match x.phase with
                            | .parked n l a => some (n, l, a)
                            | _ => none }
        pc := u.routine, am := ~~~x.exited, entering := true, popped := none, rejoin := none, phase := .ready, order := s.order })) ∧
    (∀ (x : Warp) (q : Routine) (t : Team), s.warp? x.id = some x → x.routine = some q → s.coreRuns x.core = true →
      q.bound ≤ q.done → x.run = none → x.phase = .ready → s.team? x.id.team = some t →
      (x.rejoin ≠ none → exec (.routineForcedEnd x.id) s = .next s) ∧ (x.rejoin = none →
      let its (u : Taken) : Bool := u.tid == q.tid && u.cls == .neg && u.holder == x.id.warp
      let ended (v : State) (u : Taken) : State := ((v.loseUnit x.id u).leaveRoutine x.id q []).atBoundary x.id
      (t.taken.find? its = none → exec (.routineForcedEnd x.id) s = .next ((s.leaveRoutine x.id q []).atBoundary x.id)) ∧
      ∀ u, t.taken.find? its = some u →
        let unit := s.unitRuns (dieOf x.core) (.copy (dieOf x.core))
        (unit = false → exec (.routineForcedEnd x.id) s = .next s) ∧ (unit = true → (∀ e ∈ s.errs, t.unitWord u e.1 = false) →
        (u.save = none →
          exec (.routineForcedEnd x.id) s = .next (ended (s.surrAppend x.id.team.launch.ctx (dieOf x.core) (t.saveRecord u x.id)) u)) ∧
        ∀ va y r, u.save = some va →
          let ps := lineParts va.toNat (t.saveRecord u x.id).length
          let v := ps.foldl (fun s p => s.saveLine x va (t.saveRecord u x.id) p) s
          v.warp? x.id = some y → y.routine = some r → y.phase ≠ .faulted →
          ((∀ p ∈ ps, p.1 ∈ r.lines) → exec (.routineForcedEnd x.id) s = .next (ended v u)) ∧
          ((∃ p ∈ ps, p.1 ∉ r.lines) → exec (.routineForcedEnd x.id) s = .next v)))) ∧
    (∀ (l : Launch) (d : Nat), s.launch? l.id = some l → l.phase = .yielding d →
      (d ≤ s.now ∨ ∀ x ∈ s.warps, x.id.team.launch = l.id → x.phase = .stopped ∨ x.phase = .retired) →
      exec (.yieldDeadlineExpiry l.id) s = .next (s.stopLaunch l.id))) ∧
  (∀ (s : State) (l : Launch) (c : Ctx), s.launch? l.id = some l → s.ctx? l.id.ctx = some c → l.phase = .stopping →
    s.saveReady l.id = true →
    (∀ g, s.saveErr l.id = some g →
      let u := s.correct ((s.errs.map (·.1)).filter (s.saveReads l.id))
      exec (.checkpointSave l.id) s = .next ((u.saveFault l g).clearErrs [g])) ∧
    (s.saveErr l.id = none → s.saveUsed l c + s.saveSize l ≤ c.saveSize →
      ∃ t, exec (.checkpointSave l.id) s = .next t ∧ (∀ y ∈ t.teams, y.id.launch ≠ l.id) ∧ (∀ y ∈ t.warps, y.id.team.launch ≠ l.id) ∧
        ∃ y, t.launch? l.id = some y ∧ y.phase = .saved ∧ y.placed = l.placed ∧ y.retired = l.retired ∧
          y.saveAt = c.save + s.saveUsed l c ∧ y.elapsed = s.elapsed l ∧ y.ver = s.fw.writes.toNat ∧
          y.saved.map (·.team.id) = l.saved.map (·.team.id) ++ s.teamsOf l.id)) ∧
  ∀ (x : Warp) (fresh : Nat) (yielded : Bool) (rest : List W8), x.id.warp < 32 → x.pc.toNat % 32 = 0 → x.pc.toNat < 2 ^ 54 →
    x.stack.length < 2 ^ 11 → x.limit < 2 ^ 24 → x.fstat.toNat < 2 ^ 8 → x.k.length = 64 → x.m.length = 8 →
    (∀ e ∈ x.stack, e.addr.toNat % 32 = 0 ∧ e.addr.toNat < 2 ^ 54) → (x.v.map fun r => r.num).Nodup →
    (∀ r ∈ x.v, r.num < 256 ∧ r.lanes.length = 32) →
    let y := (x.read fresh (x.record yielded ++ rest)).1
    y.am = x.am ∧ y.pc = x.pc ∧ y.gang = x.gang ∧ y.limit = x.limit ∧ y.fstat = x.fstat ∧ y.k = x.k ∧ y.m = x.m ∧ y.stack = x.stack ∧
      y.v.length = x.v.length ∧ (∀ r ∈ x.v, ∃ z ∈ y.v, z.num = r.num ∧ z.lanes = r.lanes) ∧
      (x.read fresh (x.record yielded ++ rest)).2 = rest

/-! ### Command packets and firmware (R337 to R341, R371) -/

/-- A packet that is the oldest ready one starts by a core that handles an event of its queue: LAUNCH numbers its launch and, with NPR 0,
pre-empts the resident launches of lower priority of its partition (while an ACTIVATE holds the dispatcher it only becomes ready, R377): one
that remains below the threshold drains, one with CKP is asked to yield or stopped, another is killed; none of its teams is placed before
(R337, R346 to R348). COPY performs its lines (its 54-bit addresses: log 83), WRITEMEM stores, WAITMEM completes once its condition holds
and reads again at its event, TOKEN clears and sets, FENCE is done at once; then its SET tokens are set, a change that is an event and from
which on the packets are ready whose WAIT tokens it completes (R338 to R341). -/
def Obligations.PacketsComplete : Prop :=
  (∀ (s : State) (p : PktId) (q : Queue) (k : Pkt), s.queue? p.ctx p.queue = some q → s.pkt? p = some k →
    s.faulty p.ctx = false →
    let k' : Pkt := { k with ph := .started }
    let u := s.turnPkt p k .started
    (k.ph = .waiting → k.clr = true → k.wait ≠ 0 → u =
      (s.setPkt p fun y => { y with ph := .started }).setTokens p.ctx p.queue fun t => t &&& ~~~k.wait) ∧
    (k.ph = .ready → u = s.setPkt p (fun y => { y with ph := .started }) ∧ q.due true k = false) ∧
    (k.type = 1 → s.dispatchHeld = true → q.turn true k = true → s.handles p.ctx p.queue = true →
      exec (.launchPacket p) s = .next (s.turnPkt p k .ready)) ∧
    (q.turn s.dispatchHeld k = true → s.handles p.ctx p.queue = true →
      (∀ c, k.type = 1 → s.dispatchHeld = false → u.ctx? p.ctx = some c →
        let l := launchOf p c.launches c.era k
        let vs := if k.npr then [] else u.victims l
        let v := vs.foldl (fun s y => s.preempt y) u
        (u.descOk l = false → exec (.launchPacket p) s = .next (u.freezePkt p 3 0)) ∧
        (u.descOk l = true → exec (.launchPacket p) s = .next ((({ v with
          launches := v.launches ++ [{ l with waits := vs.map fun (y : Launch) => y.id }] } : State).setCtx p.ctx fun c =>
            { c with launches := c.launches + 1 }).event (.packet p)))) ∧
      (k.type = 2 → (k.word 0).toNat < 2 ^ 54 → (k.word 1).toNat < 2 ^ 54 → (k.word 0).toNat % 16 = 0 → (k.word 1).toNat % 16 = 0 →
        (k.word 2).toNat % 16 = 0 → 16 ≤ (k.word 2).toNat → (k.word 2).toNat ≤ 2 ^ 30 →
        let t := k'.copyParts.foldl (fun s x => s.pktPart p x) u
        ∀ y, t.pkt? p = some y → (∀ x ∈ k'.copyParts, x.1 ∈ y.got) → exec (.copyPacket p) s = .next (t.donePkt p)) ∧
      (k.type = 3 → ((k.word 0).toNat % 4 ≠ 0 ∨ 2 ^ 32 ≤ (k.word 1).toNat) → exec (.writemem p) s = .next (u.freezePkt p 4 0)) ∧
      (∀ t pa nc, k.type = 3 → (k.word 0).toNat % 4 = 0 → (k.word 1).toNat < 2 ^ 32 →
        u.lineAt p.ctx 2 1 (.packet p) (k.word 0) 0 0 = (t, .page pa nc) →
        exec (.writemem p) s = .next ((t.sysWrite pa (leBytes 4 (k.word 1).toNat)).donePkt p)) ∧
      (∀ t pa nc, k.type = 4 → (k.word 0).toNat % 4 = 0 → (k.word 1).toNat < 2 ^ 34 →
        (u.setPkt p fun y => { y with got := [((u.queue? p.ctx p.queue).map (·.evals)).getD 0] }).lineAt p.ctx 2 0 (.packet p) (k.word 0)
          0 0 = (t, .page pa nc) → t.sysMark pa 4 = none →
        let v := t.sysFix pa 4
        waitCond ((k.word 1).toNat / 2 ^ 32) (leNat (v.sysRead pa 4)) ((k.word 1).toNat % 2 ^ 32) = true →
        exec (.waitmem p) s = .next (v.donePkt p)) ∧
      (k.type = 5 → exec (.tokenPacket p) s =
        .next ((u.setTokens p.ctx p.queue fun t => t &&& ~~~k.word 0 ||| k.q.getD 2 0).leavePkt p)) ∧
      (k.type = 6 → exec (.fencePacket p) s = .next (u.donePkt p))) ∧
    (∀ t pa nc, k.type = 4 → k.ph = .started → s.rereads p = true →
      (s.setPkt p fun y => { y with got := [q.evals] }).lineAt p.ctx 2 0 (.packet p) (k.word 0) 0 0 = (t, .page pa nc) →
      t.sysMark pa 4 = none →
      let v := t.sysFix pa 4
      waitCond ((k.word 1).toNat / 2 ^ 32) (leNat (v.sysRead pa 4)) ((k.word 1).toNat % 2 ^ 32) = true →
      exec (.waitmemReread p) s = .next (v.donePkt p)) ∧
    (k.ph = .done → s.handles p.ctx p.queue = true → exec (.packetComplete p) s =
      .next ((s.setTokens p.ctx p.queue fun t => t ||| k.q.getD 2 0).leavePkt p))) ∧
  (∀ (s : State) (c n : Nat) (f : W64 → W64) (q : Queue), s.queue? c n = some q →
    ∃ r, (s.setTokens c n f).queue? c n = some r ∧ r.tokens = f q.tokens ∧ r.window.map (·.pos) = q.window.map (·.pos) ∧
      (Evt.tokens c n ∈ (s.setTokens c n f).fw.events ∨ Evt.tokens c n ∈ (s.setTokens c n f).fw.back) ∧
      ∀ k ∈ r.window, k.ph = .waiting → k.wait &&& ~~~f q.tokens = 0 → (k.wait &&& ~~~q.tokens ≠ 0 → k.since = s.order) ∧
        (k.wait &&& ~~~q.tokens = 0 → k ∈ q.window)) ∧
  (∀ (s : State) (n l : Launch), l ∈ s.victims n ↔ l ∈ s.launches ∧ s.partOf l.id.ctx = s.partOf n.id.ctx ∧ s.resident l.id = true ∧
    l.prio < n.prio ∧ (l.phase = .running ∨ (l.phase = .draining ∧ s.drained l = false))) ∧
  (∀ (s : State) (l : Launch) (c : Ctx), s.ctx? l.id.ctx = some c → c.dthr ≠ 2 ^ 64 - 1 → c.ydl ≠ 2 ^ 64 - 1 →
    let left := if l.placed < l.teams then l.est else l.est - s.elapsed l
    let to' (ph : LPhase) : State := s.setLaunch l.id fun x => { x with phase := ph }
    (left < c.dthr → s.preempt l = to' .draining) ∧
    (c.dthr ≤ left → l.ckp = false → s.preempt l = to' .killing) ∧
    (c.dthr ≤ left → l.ckp = true → 0 < c.ydl → s.preempt l = to' (.yielding (s.now + c.ydl))) ∧
    (c.dthr ≤ left → l.ckp = true → c.ydl = 0 → s.preempt l = s.stopLaunch l.id)) ∧
  ∀ (s : State) (n v : Launch) (core : Nat), s.launch? n.id = some n → v.id ∈ n.waits → s.launch? v.id = some v →
    (v.phase = .stopping ∨ v.phase = .killing ∨ (∃ d, v.phase = .yielding d) ∨ (v.phase = .draining ∧ s.resident v.id = true)) →
    exec (.teamPlace n.id core) s = .next s

/-- R337, R339, R371: a whole packet of a queue that is not frozen, whose window has room and no FENCE, is popped by a core that handles an
event of the queue: READ and POPS move on, and the packet waits in the window; a malformed header is not popped and freezes the queue;
poison in the header is a fault (R362). R341: an idle firmware core, or one whose event's queue has nothing left to do (log 68), takes the
oldest event whose queue no other core holds, a command's the one it names; the rest keep their order, and those held back enter as room
comes, then doorbells and mailbox commands that waited for it (R370, R372). A core keeps the event of a queue that has a packet to complete,
whether the event queue has room or not. -/
def Obligations.PacketsArePoppedAndEventsTaken : Prop :=
  (∀ (s : State) (ctx n : Nat) (q : Queue), s.queue? ctx n = some q → s.faulty ctx = false →
    s.handles ctx n = true → q.num = n → q.frozen = false → q.window.length < 32 → (∀ k ∈ q.window, k.type ≠ 6) →
    let avail := (q.wr + q.size - q.rd) % q.size
    let u := (List.range 4).foldl (fun s i => s.sysFix (q.wordAt i) 8) s
    let head := u.ringWords q 0 4
    let nb := (head.headD 0).toNat / 2 ^ 32 % 256
    let v := (List.range nb).foldl (fun s i => s.sysFix (q.wordAt (4 + i)) 8) u
    32 ≤ avail →
    (∀ a code, ((List.range 4).findSome? fun i => (u.sysMark (q.wordAt i) 8).map fun k => (q.wordAt i, k)) = some (a, code) →
      exec (.packetPop ctx n) s =
        .next (u.fwFault { ctx := ctx, queue := n, pos := q.pops } 0x0B 0 0 [BitVec.ofNat 64 code, BitVec.ofNat 64 a])) ∧
    ((∀ i, i < 4 → u.sysMark (q.wordAt i) 8 = none) →
      (headerOk head = true → 32 + 8 * nb ≤ avail → (∀ i, i < nb → v.sysMark (q.wordAt (4 + i)) 8 = none) →
        let k : Pkt := { pos := q.pops, q := head, body := v.ringWords q 4 nb, ph := .waiting, got := [], since := v.order
                         eval := q.eval }
        let new : Queue := { q with rd := (q.rd + 32 + 8 * nb) % q.size, pops := q.pops + 1, window := q.window ++ [k] }
        exec (.packetPop ctx n) s = .next
          (((({ v with order := v.order + 1 } : State).setQueue ctx n fun _ => new).writeRead new).event (.packet { ctx := ctx, queue := n, pos := q.pops }))) ∧
      (headerOk head = false →
        exec (.packetPop ctx n) s = .next (u.freeze ctx n 4 ((head.headD 0).toNat % 2 ^ 32) q.pops 0)))) ∧
  (∀ (s : State) (fw : Nat) (e : Evt) (before after : List Evt), fw < 12 → s.fw.events = before ++ e :: after →
    (∀ y, s.fw.held.getD fw none = some y → s.unfinished y = false) →
    let locked (y : Evt) : Prop := ∃ x, some x ∈ s.fw.held.set fw none ∧ (s.evtQueue y).isSome = true ∧ s.evtQueue x = s.evtQueue y
    (∀ y ∈ before, locked y) → ¬ locked e →
    let t : State := { s with fw := { s.fw with
      held := s.fw.held.set fw (some e), events := before ++ after ++ s.fw.back.take (4096 - (before ++ after).length)
      back := s.fw.back.drop (4096 - (before ++ after).length) } }
    (∀ c n, s.evtQueue e = some (c, n) →
      exec (.firmwareEventTake fw) s = .next ((({ t with order := t.order + 1 } : State).setQueue c n fun q =>
        { q with evals := q.evals + 1, eval := t.order }).letIn s.host.posted.length)) ∧
    (s.evtQueue e = none → e ≠ .command ∨ s.badCommand = false →
      exec (.firmwareEventTake fw) s = .next (t.letIn s.host.posted.length)) ∧
    (e = .command → s.badCommand = true → s.fw.held.length = 12 → s.host.posted = [] →
      ∃ u, exec (.firmwareEventTake fw) s = .next u ∧ u.host.status = 1 ∧ u.host.ring = 0)) ∧
  (∀ (s : State) (y : Posted) (c n : Nat) (off : W64), s.host.posted = [y] → y.entered = false → y.op = .bell c n off →
    (s.eventRoom = true → s.letIn 1 = (({ s with host := { s.host with posted := [] } } : State).ringBell c n off)) ∧
    (s.eventRoom = false → s.letIn 1 = s)) ∧
  (∀ (s : State) (ctx n : Nat), s.evtQueue (.doorbell ctx n) = some (ctx, n) ∧
    (∀ q, s.queue? ctx n = some q → (∃ k ∈ q.window, k.ph = .done) → s.unfinished (.doorbell ctx n) = true) ∧
    ∀ op, 2 ≤ op → op ≤ 4 → (s.host.cmd.headD 0).toNat / 2 ^ 56 = op → ctx = (s.host.cmd.headD 0).toNat / 2 ^ 50 % 64 →
      n = (s.host.cmd.headD 0).toNat / 2 ^ 40 % 256 → s.evtQueue .command = some (ctx, n)) ∧
  ∀ (s : State) (fw : Nat) (y : Evt), fw < 12 → s.fw.held.getD fw none = some y → s.unfinished y = true →
    exec (.firmwareEventTake fw) s = .next s

/-! ### The host (R365 to R372) -/

/-- While its function is not frozen and no posted access is left: a doorbell moves its queue's write offset, a write begins its routes
and lands with the last acknowledgement, poisoned where its TLP was, a read and an AtomicOp complete with the bytes of memory, a counter
is read and cleared, the mailbox is written and rung; an access that breaks R365 freezes the function, which then drops every request
until FUNCTION_LEVEL_RESET. R369: an AtomicOp reads the old bytes and writes FetchAdd's sum modulo 2^n, Swap's operand, or CAS's second
operand where the first is equal (which operand of CAS compares is log 71); it completes with the old bytes. -/
def Obligations.HostAccessesComplete : Prop :=
  (∀ (s : State), s.host.frozen = false →
    let v : State := { s with nextId := s.nextId + 1 }
    (∀ ctx n off q, ctx < 64 → n < 256 → s.host.posted = [] → s.eventRoom = true → s.queue? ctx n = some q →
      off.toNat % 8 = 0 → (off.toNat % q.size ≠ q.rd ∨ q.wr = q.rd) →
      exec (.doorbell ctx n off) s =
        .next ((v.setQueue ctx n fun y => { y with wr := off.toNat % q.size }).event (.doorbell ctx n))) ∧
    (∀ off bytes attr, off + bytes.length ≤ 2 ^ 39 → bytes.length ≤ 512 → bytes ≠ [] → s.host.posted = [] →
      exec (.hostPostedWrite off bytes attr) s = .next { v with host := { s.host with posted :=
        [{ id := s.nextId, op := .write off bytes attr.ep, ro := attr.ro, entered := true, routes := routesOf off bytes.length }] } }) ∧
    (∀ off len, off + len ≤ 2 ^ 39 → s.host.posted = [] →
      let u := s.sysFix off len
      exec (.hostRead off len) s = .next { u with host := { u.host with
        completions := u.host.completions ++ [.data (s.sysRead off len) (s.poisoned off len)] } }) ∧
    (∀ op wide off a b, off + (if wide then 8 else 4) ≤ 2 ^ 39 → off % (if wide then 8 else 4) = 0 → s.host.posted = [] →
      exec (.hostAtomicop op wide off a b) s = .next (v.hostAtomic op wide off a b)) ∧
    (∀ op wide off a b, 2 ^ 39 < off + (if wide then 8 else 4) →
      exec (.hostAtomicop op wide off a b) s = .next { s with host := { s.host with
        completions := s.host.completions ++ [.error], frozen := true } }) ∧
    (∀ off n, counterBytes off = some n →
      exec (.counterRead off) s = .next ({ s with
        regs := { s.regs with counters := s.regs.counters.filter fun p => p.1 != off }
        host := { s.host with completions := s.host.completions ++
          [.data (leBytes n (((s.regs.counters.find? fun p => p.1 == off).map (·.2)).getD 0)) false] } })) ∧
    (∀ i val, i < 4 → s.host.posted = [] →
      exec (.registerWrite (0x1000 + 8 * i) val) s = .next { v with host := { s.host with mail := s.host.mail.set i val } }) ∧
    (s.host.ring = 0 → s.host.posted = [] → s.eventRoom = true → exec (.registerWrite 0x1020 1) s =
      .next (({ v with host := { s.host with ring := 1, cmd := s.host.mail } } : State).event .command))) ∧
  (∀ (s : State), exec .functionLevelReset s = .next { s with host := { s.host with frozen := false } } ∧
    (∀ id die off bytes ep ro, s.host.posted = [{ id := id, op := .write off bytes ep, ro := ro, entered := true, routes := [die] }] →
      let t := ((lineParts off bytes.length).filter fun q => routeOf (off + q.1) == die).foldl
        (fun s q => s.tlpWrite (off + q.1) ((bytes.drop q.1).take q.2) ep) s
      exec (.routeAcknowledge id die) s = .next { t with host := { t.host with posted := [] } }) ∧
    (∀ pa bs, s.tlpWrite pa bs false = s.sysWrite pa bs ∧
      ∀ a, pa ≤ a → a < pa + bs.length → ∃ k ∈ (s.tlpWrite pa bs true).poison, k.gran = a / 16) ∧
    (s.host.frozen = true → ∀ ctx n (off len : Nat) (val : W64) bytes attr op wide a b,
      exec (.doorbell ctx n val) s = .next s ∧ exec (.hostPostedWrite off bytes attr) s = .next s ∧
      exec (.hostRead off len) s = .next s ∧ exec (.hostAtomicop op wide off a b) s = .next s ∧
      exec (.counterRead off) s = .next s ∧ exec (.registerWrite off val) s = .next s)) ∧
  (∀ (s : State) (wide : Bool) (off : Nat) (a b : W64),
    let n := if wide then 8 else 4
    let u := (s.atHome none off n).dropLags off n
    let old := leNat (rdBytes u.mem off n)
    let wrote (op : HostAop) (v : Nat) : Prop := (s.hostAtomic op wide off a b).mem = wrBytes u.mem off (leBytes n v)
    wrote .fetchAdd (old + a.toNat % 2 ^ (8 * n)) ∧ wrote .swap (a.toNat % 2 ^ (8 * n)) ∧
    (old = a.toNat % 2 ^ (8 * n) → wrote .cas (b.toNat % 2 ^ (8 * n))) ∧
    (old ≠ a.toNat % 2 ^ (8 * n) → (s.hostAtomic .cas wide off a b).mem = u.mem) ∧
    ∀ op, (s.hostAtomic op wide off a b).host.completions.getLast? =
      some (.data (leBytes n old) ((s.hostAtomic op wide off a b).poisoned off n)))

/-! ### Commands (R372 to R378) -/

/-- CTXSET, QSET, QRESET, QRESUME, TLBINV, FRESUME, FDENY and CODEINV act and answer STATUS 0 where nothing refuses them (R373, R374,
R262, R267); CTXSET is refused while a launch of the context is resident or saved, and counts its launches anew (log 90); TLBINV waits for
every held access in a 64 KiB page of its range or under an entry it names, and else completes at once (log 69); CODEINV drops every cached
block that overlaps its range (log 70). -/
def Obligations.ContextCommandsComplete : Prop :=
  ∀ (s : State),
    let c := s.cmdCtx
    let n := s.cmdQueue
    let u := s.sysFix (s.mail 1) 128
    let w (i : Nat) : Nat := leNat (u.sysRead (s.mail 1 + 8 * i) 8)
    (CommandGiven s 1 → placed (s.mail 1) 128 = true → blockOk w = true → s.sysMark (s.mail 1) 128 = none →
      let stands (l : Launch) : Prop := s.resident l.id = true ∨ l.phase = .saved ∨ l.saved ≠ []
      ((∀ l ∈ s.launches, l.id.ctx = c → ¬ stands l) → s.partDies s.cmdPart ≠ [] →
        exec .ctxset s = .next (({ u with ctxs := (u.ctxs.filter fun x => x.num != c) ++ [u.ctxOf c s.cmdPart w] } : State).answer 0)) ∧
      ((∃ l ∈ s.launches, l.id.ctx = c ∧ stands l) → exec .ctxset s = .next (u.answer 2))) ∧
    (∀ j, CommandGiven s 2 → s.mail 1 % 4096 = 0 → s.mail 3 % 64 = 0 → j < 13 → s.mail 2 = 2 ^ (12 + j) →
      placed (s.mail 1) (s.mail 2) = true → placed (s.mail 3) 64 = true → (s.ctx? c).isSome = true → s.queue? c n = none →
      let q : Queue := { num := n, base := s.mail 1, size := s.mail 2, status := s.mail 3, wr := 0, rd := 0, pops := 0, frozen := false
                         tokens := 0, window := [], evals := 0, eval := 0 }
      exec .qset s = .next (((s.setCtx c fun x => { x with queues := x.queues ++ [q] }).writeStatus q).answer 0)) ∧
    (∀ q, CommandGiven s 3 → s.queue? c n = some q → q.frozen = true → ∃ t, exec .qreset s = .next t ∧ t.host.status = 0 ∧
      t.host.ring = 0 ∧ t.queue? c n = some { q with wr := 0, rd := 0, pops := 0, frozen := false, tokens := 0, window := [] }) ∧
    (∀ q, CommandGiven s 4 → s.queue? c n = some q → q.frozen = true →
      exec .qresume s = .next ((((s.setQueue c n fun _ => { q with frozen := false }).writeState { q with frozen := false }).event
        (.tokens c n)).answer 0)) ∧
    (CommandGiven s 5 →
      let hit (e : TlbEnt) : Bool := e.ctx == c && e.va < s.mail 1 + s.mail 2 && s.mail 1 < e.va + 2 ^ e.bits
      let named := (s.cores.flatMap fun k => k.tlb.filter hit) ++ ((s.tlb2.filter fun p => hit p.2).map fun p => p.2) ++ s.past.filter hit
      let held (a : Nat) : Prop := (a / 65536 * 65536 < s.mail 1 + s.mail 2 ∧ s.mail 1 < (a / 65536 + 1) * 65536) ∨
        ∃ e ∈ named, e.covers c a = true
      ((∀ a ∈ s.heldAt c, ¬ held a) → exec .tlbinv s = .next (({ s with
        cores := s.cores.map fun k => { k with tlb := k.tlb.filter fun e => !hit e }
        tlb2 := s.tlb2.filter fun p => !hit p.2
        past := s.past.filter fun e => !hit e } : State).answer 0)) ∧
      ((∃ a ∈ s.heldAt c, held a) → exec .tlbinv s = .next s)) ∧
    (CommandGiven s 6 → ∃ t, exec .fresume s = .next t ∧ t.host.status = 0 ∧ t.host.ring = 0 ∧
      t.faultQ = (s.faultQ.map fun p => if p.ctx = c ∧ p.seq ≤ s.mail 1 then { p with released := true } else p) ∧
      ∀ x ∈ t.warps, x.id.team.launch.ctx = c → ∀ k l a, x.phase = .parked k l a → s.mail 1 < k) ∧
    (CommandGiven s 7 → ∃ t, exec .fdeny s = .next t ∧ t.host.status = 0 ∧ t.host.ring = 0 ∧
      (∀ p ∈ t.faultQ, ¬ (p.ctx = c ∧ p.seq = s.mail 1 ∧ p.released = false)) ∧
      ∀ x ∈ t.warps, x.id.team.launch.ctx = c → ∀ l a, x.phase ≠ .parked (s.mail 1) l a) ∧
    (CommandGiven s 8 → (∀ l ∈ s.launches, l.id.ctx = c → s.usesCode l (s.mail 1) (s.mail 2) = false) →
      exec .codeinv s = .next (({ s with cores := s.cores.map fun k => { k with code := k.code.filter fun e =>
        !(e.ctx == c && e.va.toNat < s.mail 1 + s.mail 2 && s.mail 1 < e.va.toNat + 8 * e.words.length) } } : State).answer 0))

/-- HALTREL, PARTSET, PARTRESET, ACTIVATE and SERVICE act and answer STATUS 0 where nothing refuses them (R16, R258, R358, R372, R376 to
R378): what becomes of a halt line under PARTSET and SERVICE is log 91, that SERVICE drops cached code log 92, the fused keys log 6, the
STATUS of an image of another MAGIC log 73, the bits of C1 that PARTSET ignores log 70, that words C1 to C3 which a command does not use and an
image's spare header bytes are ignored log 116. ACTIVATE refuses with 0x03 where a saved record's
version is not listed, and the events that cores held are the oldest again. SERVICE is refused while a context is resident or saved or
training is incomplete, in bring-up or not (R378). A queue of a context whose halt is over is an event again where it has something to do
(R341, R358). DEVICE_RESET leaves the machine as reset does, the homes' bytes
and their poison standing (log 30). -/
def Obligations.DeviceCommandsComplete : Prop :=
  ∀ (s : State),
    let p := s.cmdPart
    let halted := s.parts.flatMap fun x => (x.guilty.map (·.1)).eraseDups
    (∀ c n, let v := s.setCtx c fun x => { x with told := [] }
      (s.queue? c n).isSome = true → v.queueWork c n = true →
        Evt.tokens c n ∈ (s.reopen c).fw.events ∨ Evt.tokens c n ∈ (s.reopen c).fw.back) ∧
    (∀ x, CommandGiven s 9 → s.parts[p]? = some x → x.up = true →
      (x.flushed = true → (∀ f ∈ s.raised, s.partOf f.ctx ≠ p) → (∀ y ∈ s.lost, y.1 ≠ p) →
        exec .haltrel s = .next ((((x.guilty.map (·.1)).eraseDups).foldl State.reopen (s.setPart p fun x =>
          { x with up := false, guilty := [], dealt := 0, org := 0, stopped := [], flushed := false })).answer 0)) ∧
      (x.flushed = false → exec .haltrel s = .next (s.answer 2))) ∧
    (CommandGiven s 10 →
      (s.fw.bringUp = false → s.teams = [] →
        (∀ d ∈ dies, BitVec.ofNat 16 (s.mail 2 / 2 ^ (16 * (s.mail 1 / 4 ^ d % 4))) ≠ 0) →
        exec .partset s = .next ((halted.foldl State.reopen ({ s with parts := (List.range 4).map fun p =>
          { dies := dies.filter fun d => s.mail 1 / 4 ^ d % 4 == p, ways := BitVec.ofNat 16 (s.mail 2 / 2 ^ (16 * p)), up := false
            guilty := [], dealt := 0, org := 0, stopped := [], flushed := false } } : State)).answer 0)) ∧
      (s.teams ≠ [] → exec .partset s = .next (s.answer 2))) ∧
    (∀ x, CommandGiven s 11 → s.parts[p]? = some x → ∃ t, exec .partreset s = .next t ∧ t.host.status = 0 ∧ t.host.ring = 0 ∧
      (∀ i k, t.cores[i]? = some k → x.dies.contains (dieOf i) = true → k = { Core.reset with cycles := k.cycles }) ∧
      t.regs.throttle = t.throttled ∧ Master.copy 4 ∉ t.frozen ∧ Master.copy 5 ∉ t.frozen ∧ Master.coll ∉ t.frozen ∧
      ∀ y ∈ t.l1, x.dies.contains (dieOf y.core) = false) ∧
    (CommandGiven s 12 → placed (s.mail 1) (s.mail 2) = true →
      (∀ l ∈ s.launches, l.phase ≠ .stopping ∧ ∀ d, l.phase ≠ .yielding d) →
      s.sysMark (s.mail 1) (s.mail 2) = none →
      let u := s.sysFix (s.mail 1) (s.mail 2)
      let image := u.sysRead (s.mail 1) (s.mail 2)
      let good := leNat (u.sysRead (s.mail 1 + 0) 8) = 0x4F58465700000001 ∧ signaturesOk (leNat (u.sysRead (s.mail 1 + 16) 8)) image = true
      let readable := BitVec.ofNat 16 (leNat (u.sysRead (s.mail 1 + 12) 2))
      (¬ good → exec .activate s = .next (u.answer 2)) ∧
      (good → s.teams ≠ [] → exec .activate s = .next (u.answer 2)) ∧
      let v := u.saveWords.foldl (fun s p => s.readFor p.1 5 s.cmdCore p.2 8) u
      let listed (p : Nat × Nat) : Bool := readable.getLsbD (leNat (v.sysRead (p.2 + 6) 2))
      (good → s.teams = [] → (∀ p ∈ u.saveWords, u.sysMark p.2 8 = none) →
        ((∀ p ∈ u.saveWords, listed p = true) → exec .activate s = .next ((v.restart (BitVec.ofNat 32 (leNat (u.sysRead (s.mail 1 + 8) 4)))
          readable (BitVec.ofNat 16 (leNat (u.sysRead (s.mail 1 + 14) 2)))).answer 0)) ∧
        ((∃ p ∈ u.saveWords, listed p = false) → exec .activate s = .next (v.answer 3)))) ∧
    (∀ iver readable writes, let t := s.restart iver readable writes
      t.fw.iver = iver ∧ t.fw.readable = readable ∧ t.fw.writes = writes ∧ t.fw.held = List.replicate 12 none ∧
      t.fw.events ++ t.fw.back = (s.fw.held.filterMap id).filter (· != .command) ++ s.fw.events ++ s.fw.back) ∧
    (CommandGiven s 13 → s.fw.bringUp = true → s.teams = [] → (∀ l ∈ s.launches, l.phase ≠ .saved ∧ l.saved = []) →
      s.fw.trained = true → s.fw.equalised = true →
      exec .service s = .next ((halted.foldl State.reopen ({ s with
        fw := { s.fw with bringUp := false }, parts := Part.reset [0, 1, 2, 3] :: List.replicate 3 (Part.reset [])
        cores := s.cores.map fun c => { c with code := [] } } : State)).answer 0)) ∧
    (CommandGiven s 13 → (s.teams ≠ [] ∨ (∃ l ∈ s.launches, l.phase = .saved ∨ l.saved ≠ []) ∨ s.fw.trained = false ∨
      s.fw.equalised = false) → exec .service s = .next (s.answer 2)) ∧
    exec .deviceReset s = .next { State.reset with
      mem := s.mem, agenda := s.agenda, tick := s.tick, fresh := s.fresh
      poison := (s.poison.filter fun k => k.place == s.homeAt (k.gran / 8)).map fun k => { k with place := .hbm } }

/-! ### Halts (R354 to R359) -/

/-- HALT_RAISE takes the first fault waiting, a line that Meridian lost among them (log 81), writes its stop record with the words of R355
and raises its partition's line, counted, unless it is up (R356); a unit of that partition stops, a core committing what it can;
HALT_FLUSH with every unit stopped and every record written writes the L1s back, pushes the L2s' marked lines and writes the owned lines
home, then discards the work of the contexts that faulted since the last flush, records each message and freezes the queues (R357 to R359). -/
def Obligations.HaltsComplete : Prop :=
  (∀ (s : State),
    (∀ (f : Stop) (rest : List Stop) (c : Ctx) (x : Part), let u := s.raiseLost
      u.raised = f :: rest → u.ctx? f.ctx = some c → u.parts[c.part]? = some x →
      let rec' := wordsBytes (stopWords f c.part (c.sseq + 1) (!x.up))
      let v := (({ u with raised := rest } : State).setCtx f.ctx fun c => { c with sseq := c.sseq + 1 }).ringAppend f.ctx c.sring 512 rec'
      let w := if x.up then v else v.bump (0x10600 + 2 * c.part) 16
      exec .haltRaise s = .next (w.setPart c.part fun x => { x with
        up := true, guilty := x.guilty ++ [(f.ctx, c.sseq + 1, f.pkt)], org := if x.up then x.org else c.sseq + 1, flushed := false })) ∧
    (s.lost = [] → s.raiseLost = s) ∧
    (∀ p pa code, s.lost = [(p, pa, code)] →
      s.raiseLost.raised = s.raised ++ (s.ctxs.filter fun c => c.part == p).map fun c => lostStop c.num pa code) ∧
    (∀ (n : Nat) (p : Part) (m : Master), s.parts[n]? = some p → p.up = true → m ∈ p.units → m ∉ p.stopped →
      exec (.unitStop n m) s = .next ((match m with
        | .core c => s.stopCore c
        | _ => s).setPart n fun p => { p with stopped := m :: p.stopped })) ∧
    (∀ (n : Nat) (p : Part), s.parts[n]? = some p → p.up = true → p.flushed = false → (∀ m ∈ p.units, m ∈ p.stopped) →
      (∀ f ∈ s.raised, s.partOf f.ctx ≠ n) → (∀ x ∈ s.lost, x.1 ≠ n) →
      let new := p.guilty.drop p.dealt
      let one (s : State) (c : Nat) : State :=
        let v := (s.msgs.filter fun m => m.warp.team.launch.ctx == c).foldl (fun s m => s.stoppedRecord m) s
        (v.discardCtx c).freezeAll c (v.lostPkts c) (new.filterMap fun g => if g.1 == c then g.2.2 else none) p.org
      exec (.haltFlush n) s = .next ((((new.map (·.1)).eraseDups).foldl one (s.flushDies p.dies)).setPart n
        fun p => { p with flushed := true, dealt := p.guilty.length })) ∧
    (∀ c, let t := s.discardCtx c
      (∀ x ∈ t.warps, x ∈ s.warps ∧ x.id.team.launch.ctx ≠ c) ∧ (∀ x ∈ t.teams, x.id.launch.ctx ≠ c) ∧
      ∀ x ∈ t.msgs, x.warp.team.launch.ctx ≠ c) ∧
    (∀ c, (∀ x ∈ s.l1, s.l1? x.core x.line = some x) → ∀ x ∈ (s.flushL1 c).l1, x.core = c → x.dirty = 0) ∧
    (∀ d, (∀ x ∈ s.l2, x.die = d ∧ s.l2? x.die x.line = some x) → ∀ x ∈ (s.flushL2 d).l2, x.marked = 0) ∧
    (Mem.wf s.mem = true → ∀ x ∈ s.l2, (x.st = .m ∨ x.st = .o) → (∀ y ∈ s.l2, y.line = x.line → (y.st = .m ∨ y.st = .o) → y = x) →
      ∀ j, j < 128 → cget s.homeOwned.mem (128 * x.line + j) = x.data.byte j)) ∧
  ∀ (f : Stop) (part seq : Nat) (org : Bool), f.cls < 2 ^ 8 → f.cause < 2 ^ 8 → f.ctx < 2 ^ 6 → part < 2 ^ 2 →
    f.core.getD 0 < 2 ^ 8 → f.ekind < 2 ^ 4 → f.einst < 2 ^ 11 → f.payload.length < 2 ^ 16 → seq < 2 ^ 31 → f.launch < 2 ^ 32 →
    f.team < 2 ^ 24 → f.warp < 2 ^ 8 →
    let s (i hi lo : Nat) : Nat := ((stopWords f part seq org).getD i 0).toNat / 2 ^ lo % 2 ^ (hi + 1 - lo)
    s 0 63 56 = f.cls ∧ s 0 55 48 = f.cause ∧ s 0 47 42 = f.ctx ∧ s 0 41 40 = part ∧ s 0 39 39 = (if f.core.isSome then 1 else 0) ∧
    s 0 38 31 = f.core.getD 0 ∧ s 0 30 27 = f.ekind ∧ s 0 26 16 = f.einst ∧ s 0 15 0 = f.payload.length ∧
    s 1 63 63 = (if org then 1 else 0) ∧ s 1 62 32 = seq ∧ s 1 31 0 = f.launch ∧
    s 2 63 40 = f.team ∧ s 2 39 32 = f.warp ∧ s 2 31 0 = f.lanes.toNat ∧
    (stopWords f part seq org).drop 3 = f.va :: f.payload

/-! ### Memory -/

/-- Contents in canonical form: a write is read back at its place and leaves every other; the form is kept; a run of bytes written is
read back; and contents that read alike are the same data. -/
def Obligations.MemoryLaws : Prop :=
  ∀ (m : Mem), m.wf = true →
    (∀ a (v : W8), Mem.wf (cset m a v) = true ∧ cget (cset m a v) a = v ∧ ∀ b, b ≠ a → cget (cset m a v) b = cget m b) ∧
    (∀ a bs, Mem.wf (wrBytes m a bs) = true ∧ rdBytes (wrBytes m a bs) a bs.length = bs ∧
      ∀ b, (b < a ∨ a + bs.length ≤ b) → cget (wrBytes m a bs) b = cget m b) ∧
    ∀ m' : Mem, m'.wf = true → (∀ a, cget m a = cget m' a) → m = m'

/-- Every step keeps memory in its canonical form. -/
def Obligations.StepsKeepMemoryForm : Prop :=
  ∀ (s s' : State), s.mem.wf = true → step s = .next s' → s'.mem.wf = true
end

