-- ==== Sys2Proof/Laws/Bits.lean ====
section
/-! SUPPORT. Masks of lanes, sums of powers of two, and fit of R102. -/
namespace Sys2Proof

/-- A sum of distinct powers of two below 2^n is below 2^n. -/
theorem foldl_pow_lt (p : Nat → Bool) (n : Nat) :
    (List.range n).foldl (fun a l => if p l then a + 2 ^ l else a) 0 < 2 ^ n := by
  induction n with
  | zero => simp
  | succ n ih =>
    rw [List.range_succ, List.foldl_append, List.foldl_cons, List.foldl_nil, Nat.pow_succ]
    split <;> omega

/-- The bits of a sum of distinct powers of two. -/
theorem foldl_pow_testBit (p : Nat → Bool) (n j : Nat) :
    ((List.range n).foldl (fun a l => if p l then a + 2 ^ l else a) 0).testBit j = (decide (j < n) && p j) := by
  induction n with
  | zero => simp
  | succ n ih =>
    rw [List.range_succ, List.foldl_append, List.foldl_cons, List.foldl_nil]
    have hn := foldl_pow_lt p n
    rcases Nat.lt_trichotomy j n with hj | hj | hj
    · by_cases hp : p n
      · rw [if_pos hp, Nat.add_comm, Nat.testBit_two_pow_add_gt hj, ih]
        simp [hj, Nat.lt_succ_of_lt hj]
      · rw [if_neg hp, ih]
        simp [hj, Nat.lt_succ_of_lt hj]
    · subst hj
      by_cases hp : p j
      · rw [if_pos hp, Nat.add_comm, Nat.testBit_two_pow_add_eq, ih]
        simp [hp]
      · rw [if_neg hp, ih]
        simp [hp]
    · have hle : ¬ j < n + 1 := by omega
      have hw : (if p n then (List.range n).foldl (fun a l => if p l then a + 2 ^ l else a) 0 + 2 ^ n
          else (List.range n).foldl (fun a l => if p l then a + 2 ^ l else a) 0) < 2 ^ j := by
        have : 2 ^ (n + 1) ≤ 2 ^ j := Nat.pow_le_pow_right (by omega) hj
        rw [Nat.pow_succ] at this
        split <;> omega
      rw [Nat.testBit_lt_two_pow hw]
      simp [hle]

/-- The lanes of a mask made from a test. -/
theorem lanesOf_getLsbD (p : Nat → Bool) (l : Nat) : (lanesOf p).getLsbD l = (decide (l < 32) && p l) := by
  unfold lanesOf
  rw [BitVec.getLsbD_ofNat, foldl_pow_testBit]
  by_cases h : l < 32 <;> simp [h]

/-- The valid lanes of an instruction, one by one. -/
theorem okLanes_getLsbD (i : Instr) (o : Opnds) (l : Nat) : (okLanes i o).getLsbD l = (decide (l < 32) && laneOk i o l) :=
  lanesOf_getLsbD _ _

/-- An integer wrapped into TY's width is that integer modulo 2^w. -/
theorem Ty.wrap_toNat (t : Ty) (x : Int) : ((t.wrap x).toNat : Int) = x % (2 ^ t.bitsW : Nat) := by
  unfold Ty.wrap Ty.bitsW
  cases t.wide
  · simp only [Bool.false_eq_true, ↓reduceIte, BitVec.toNat_setWidth, BitVec.toNat_ofInt]
    omega
  · simp only [↓reduceIte, BitVec.toNat_ofInt]
    omega

/-- A wrapped integer fits TY's width. -/
theorem Ty.wrap_lt (t : Ty) (x : Int) : (t.wrap x).toNat < 2 ^ t.bitsW := by
  have h := t.wrap_toNat x
  have hp : (0 : Int) < (2 ^ t.bitsW : Nat) := by exact_mod_cast Nat.two_pow_pos _
  have := Int.emod_lt_of_pos x hp
  omega

/-- An integer of TY's range is what its wrapped value reads as. -/
theorem Ty.int_wrap (t : Ty) (x : Int) (h1 : t.lo ≤ x) (h2 : x ≤ t.hi) : t.int (t.wrap x) = x := by
  cases t <;>
    simp only [Ty.int, Ty.wrap, Ty.lo, Ty.hi, Ty.signed, Ty.wide, Ty.bitsW, Bool.false_eq_true, ↓reduceIte, BitVec.toInt_ofInt,
      BitVec.toNat_ofInt, BitVec.setWidth_setWidth_of_le, BitVec.setWidth_eq, Nat.reducePow, Nat.reduceSub,
      Nat.reduceLeDiff, Int.bmod] at * <;> omega

/-- clamp of R102. -/
theorem clampInt_eq (lo hi x : Int) (h : lo ≤ hi) : clampInt lo hi x = max lo (min hi x) := by
  unfold clampInt
  split
  · omega
  · split <;> omega

/-- TY's range is not empty. -/
theorem Ty.lo_le_hi (t : Ty) : t.lo ≤ t.hi := by cases t <;> decide

/-- fit does what R102 says. -/
theorem Ty.fit_fits (t : Ty) (sat : Bool) (x : Int) : FitsTo t sat x (t.fit sat x) := by
  refine ⟨t.wrap_lt _, ?_⟩
  unfold Ty.fit
  cases sat
  · simpa using t.wrap_toNat x
  · have h := t.lo_le_hi
    simp only [↓reduceIte, clampInt_eq _ _ _ h]
    exact t.int_wrap _ (by omega) (by omega)

end Sys2Proof
end

