-- ==== Sys2Proof/Laws/Memory.lean ====
section
/-! SUPPORT. Contents in canonical form: reading after writing, and the form kept by every write. -/
namespace Sys2Proof.Machine

variable {n : Nat}

/-- A later bound is a weaker condition met from an earlier one. -/
theorem cwfFrom_mono {l : List (Nat × BitVec n)} {lo lo' : Nat} (h : lo ≤ lo') (hl : cwfFrom lo' l = true) : cwfFrom lo l = true := by
  cases l with
  | nil => rfl
  | cons p r =>
    simp only [cwfFrom, Bool.and_eq_true, decide_eq_true_eq] at hl ⊢
    exact ⟨⟨by omega, hl.1.2⟩, hl.2⟩

/-- Below its first place, contents in canonical form read as zero. -/
theorem cget_below {l : List (Nat × BitVec n)} {lo k : Nat} (hl : cwfFrom lo l = true) (h : k < lo) : cget l k = 0 := by
  cases l with
  | nil => rfl
  | cons p r =>
    simp only [cwfFrom, Bool.and_eq_true, decide_eq_true_eq] at hl
    simp only [cget]
    rw [if_neg (by omega), if_pos (by omega)]

/-- A write keeps the canonical form. -/
theorem cset_cwfFrom {l : List (Nat × BitVec n)} {lo k : Nat} (v : BitVec n) (hl : cwfFrom lo l = true) (h : lo ≤ k) :
    cwfFrom lo (cset l k v) = true := by
  induction l generalizing lo with
  | nil =>
    unfold cset
    split
    · rfl
    · simp_all [cwfFrom]
  | cons p r ih =>
    simp only [cwfFrom, Bool.and_eq_true, decide_eq_true_eq] at hl
    obtain ⟨⟨h1, h2⟩, h3⟩ := hl
    unfold cset
    split
    · split
      · simp only [cwfFrom, Bool.and_eq_true, decide_eq_true_eq]
        exact ⟨⟨h1, h2⟩, h3⟩
      · have : k + 1 ≤ p.1 := by omega
        simp_all [cwfFrom]
    · split
      · split
        · exact cwfFrom_mono (by omega) h3
        · simp_all [cwfFrom]
      · have := ih (lo := p.1 + 1) h3 (by omega)
        simp only [cwfFrom, Bool.and_eq_true, decide_eq_true_eq]
        exact ⟨⟨h1, h2⟩, this⟩

/-- A write is read back at its place. -/
theorem cget_cset_same {l : List (Nat × BitVec n)} {lo : Nat} (k : Nat) (v : BitVec n) (hl : cwfFrom lo l = true) :
    cget (cset l k v) k = v := by
  induction l generalizing lo with
  | nil =>
    unfold cset
    split
    · simp_all [cget]
    · simp [cget]
  | cons p r ih =>
    simp only [cwfFrom, Bool.and_eq_true, decide_eq_true_eq] at hl
    obtain ⟨⟨h1, h2⟩, h3⟩ := hl
    unfold cset
    split
    · rename_i hk
      split
      · rename_i hv
        simp only [cget]
        rw [if_neg (by omega), if_pos hk, hv]
      · simp [cget]
    · split
      · rename_i hk hka
        split
        · rename_i hv
          rw [cget_below h3 (by omega), hv]
        · simp [cget, hka]
      · rename_i hk hka
        simp only [cget]
        rw [if_neg hka, if_neg hk]
        exact ih h3

/-- A write leaves every other place. -/
theorem cget_cset_ne {l : List (Nat × BitVec n)} {lo k j : Nat} (v : BitVec n) (hl : cwfFrom lo l = true) (h : j ≠ k) :
    cget (cset l k v) j = cget l j := by
  induction l generalizing lo with
  | nil =>
    unfold cset
    split
    · rfl
    · simp only [cget]
      rw [if_neg h]
      split <;> rfl
  | cons p r ih =>
    simp only [cwfFrom, Bool.and_eq_true, decide_eq_true_eq] at hl
    obtain ⟨⟨h1, h2⟩, h3⟩ := hl
    unfold cset
    split
    · rename_i hk
      split
      · rfl
      · simp only [cget]
        rw [if_neg h]
        by_cases hj : j < k
        · rw [if_pos hj, if_neg (by omega), if_pos (by omega)]
        · rw [if_neg hj]
    · split
      · rename_i hk hka
        split
        · simp only [cget]
          by_cases hj : j < p.1
          · rw [if_neg (by omega), if_pos hj, cget_below h3 (by omega)]
          · rw [if_neg (by omega), if_neg hj]
        · simp only [cget]
          rw [if_neg (by omega), if_neg (show ¬ j = p.1 by omega)]
      · simp only [cget]
        rw [ih h3]

/-- Contents in canonical form that read alike are the same data. -/
theorem cget_ext {l m : List (Nat × BitVec n)} {lo lo' : Nat} (hl : cwfFrom lo l = true) (hm : cwfFrom lo' m = true)
    (h : ∀ k, cget l k = cget m k) : l = m := by
  induction l generalizing lo lo' m with
  | nil =>
    cases m with
    | nil => rfl
    | cons p r =>
      simp only [cwfFrom, Bool.and_eq_true, decide_eq_true_eq, bne_iff_ne] at hm
      have := h p.1
      simp only [cget, if_true] at this
      exact absurd this.symm hm.1.2
  | cons p r ih =>
    simp only [cwfFrom, Bool.and_eq_true, decide_eq_true_eq, bne_iff_ne] at hl
    cases m with
    | nil =>
      have := h p.1
      simp only [cget, if_true] at this
      exact absurd this hl.1.2
    | cons q t =>
      simp only [cwfFrom, Bool.and_eq_true, decide_eq_true_eq, bne_iff_ne] at hm
      have hp := h p.1
      have hq := h q.1
      simp only [cget, if_true] at hp hq
      have he : p.1 = q.1 := by
        rcases Nat.lt_trichotomy p.1 q.1 with hlt | heq | hgt
        · rw [if_neg (by omega), if_pos hlt] at hp
          exact absurd hp hl.1.2
        · exact heq
        · rw [if_neg (by omega), if_pos hgt] at hq
          exact absurd hq.symm hm.1.2
      have hv : p.2 = q.2 := by rw [if_pos he] at hp; exact hp
      have hr : r = t := by
        refine ih hl.2 hm.2 fun k => ?_
        have hk := h k
        simp only [cget] at hk
        by_cases h1 : k = p.1
        · rw [cget_below hl.2 (by omega), cget_below hm.2 (by omega)]
        · by_cases h2 : k < p.1
          · rw [cget_below hl.2 (by omega), cget_below hm.2 (by omega)]
          · rw [if_neg h1, if_neg h2, if_neg (by omega), if_neg (by omega)] at hk
            exact hk
      rw [hr, Prod.ext he hv]

/-- A byte written keeps memory's canonical form. -/
theorem Mem.wf_cset {m : Mem} (h : m.wf = true) (a : Nat) (v : W8) : Mem.wf (cset m a v) = true := cset_cwfFrom v h (Nat.zero_le a)

/-- Bytes written keep memory's canonical form. -/
theorem Mem.wf_wrBytes {m : Mem} (h : m.wf = true) (a : Nat) (bs : List W8) : Mem.wf (wrBytes m a bs) = true := by
  induction bs generalizing m a with
  | nil => exact h
  | cons b bs ih => exact ih (Mem.wf_cset h a b) (a + 1)

/-- Bytes written leave every byte outside them. -/
theorem cget_wrBytes_other {m : Mem} (h : m.wf = true) {a b : Nat} (bs : List W8) (hb : b < a ∨ a + bs.length ≤ b) :
    cget (wrBytes m a bs) b = cget m b := by
  induction bs generalizing m a with
  | nil => rfl
  | cons x bs ih =>
    simp only [List.length_cons] at hb
    simp only [wrBytes]
    rw [ih (Mem.wf_cset h a x) (by omega), cget_cset_ne x h (by omega)]

/-- Bytes written are read back. -/
theorem cget_wrBytes_in {m : Mem} (h : m.wf = true) (a : Nat) (bs : List W8) (j : Nat) (hj : j < bs.length) :
    cget (wrBytes m a bs) (a + j) = bs.getD j 0 := by
  induction bs generalizing m a j with
  | nil => simp at hj
  | cons x bs ih =>
    simp only [wrBytes]
    cases j with
    | zero =>
      rw [cget_wrBytes_other (Mem.wf_cset h a x) bs (by omega)]
      simpa using cget_cset_same a x h
    | succ j =>
      have := ih (Mem.wf_cset h a x) (a + 1) j (by simpa using hj)
      rw [show a + (j + 1) = a + 1 + j by omega, this]
      rfl

/-- Reset memory is in canonical form. -/
theorem Mem.wf_empty : Mem.wf [] = true := rfl

end Sys2Proof.Machine
end

