-- ==== Sys2Proof/Laws/State.lean ====
section
/-! SUPPORT. The fields of State after each of the updates the meanings are made of. -/
namespace Sys2Proof.Machine

variable (s : State)

@[simp] theorem State.setWarp_agenda (w : WarpId) (f : Warp → Warp) : (s.setWarp w f).agenda = s.agenda := rfl
@[simp] theorem State.setWarp_issue (w : WarpId) (f : Warp → Warp) : (s.setWarp w f).issue = s.issue := rfl
@[simp] theorem State.setWarp_cur (w : WarpId) (f : Warp → Warp) : (s.setWarp w f).cur = s.cur := rfl
@[simp] theorem State.setWarp_tick (w : WarpId) (f : Warp → Warp) : (s.setWarp w f).tick = s.tick := rfl
@[simp] theorem State.setWarp_fresh (w : WarpId) (f : Warp → Warp) : (s.setWarp w f).fresh = s.fresh := rfl
@[simp] theorem State.setWarp_cores (w : WarpId) (f : Warp → Warp) : (s.setWarp w f).cores = s.cores := rfl
@[simp] theorem State.setWarp_l1 (w : WarpId) (f : Warp → Warp) : (s.setWarp w f).l1 = s.l1 := rfl
@[simp] theorem State.setWarp_l2 (w : WarpId) (f : Warp → Warp) : (s.setWarp w f).l2 = s.l2 := rfl
@[simp] theorem State.setWarp_mer (w : WarpId) (f : Warp → Warp) : (s.setWarp w f).mer = s.mer := rfl
@[simp] theorem State.setWarp_mem (w : WarpId) (f : Warp → Warp) : (s.setWarp w f).mem = s.mem := rfl
@[simp] theorem State.setWarp_tlb2 (w : WarpId) (f : Warp → Warp) : (s.setWarp w f).tlb2 = s.tlb2 := rfl
@[simp] theorem State.setWarp_past (w : WarpId) (f : Warp → Warp) : (s.setWarp w f).past = s.past := rfl
@[simp] theorem State.setWarp_errs (w : WarpId) (f : Warp → Warp) : (s.setWarp w f).errs = s.errs := rfl
@[simp] theorem State.setWarp_reloads (w : WarpId) (f : Warp → Warp) : (s.setWarp w f).reloads = s.reloads := rfl
@[simp] theorem State.setWarp_poison (w : WarpId) (f : Warp → Warp) : (s.setWarp w f).poison = s.poison := rfl
@[simp] theorem State.setWarp_lost (w : WarpId) (f : Warp → Warp) : (s.setWarp w f).lost = s.lost := rfl
@[simp] theorem State.setWarp_lags (w : WarpId) (f : Warp → Warp) : (s.setWarp w f).lags = s.lags := rfl
@[simp] theorem State.setWarp_seen (w : WarpId) (f : Warp → Warp) : (s.setWarp w f).seen = s.seen := rfl
@[simp] theorem State.setWarp_teams (w : WarpId) (f : Warp → Warp) : (s.setWarp w f).teams = s.teams := rfl
@[simp] theorem State.setWarp_refs (w : WarpId) (f : Warp → Warp) : (s.setWarp w f).refs = s.refs := rfl
@[simp] theorem State.setWarp_copies (w : WarpId) (f : Warp → Warp) : (s.setWarp w f).copies = s.copies := rfl
@[simp] theorem State.setWarp_mmas (w : WarpId) (f : Warp → Warp) : (s.setWarp w f).mmas = s.mmas := rfl
@[simp] theorem State.setWarp_takes (w : WarpId) (f : Warp → Warp) : (s.setWarp w f).takes = s.takes := rfl
@[simp] theorem State.setWarp_recalls (w : WarpId) (f : Warp → Warp) : (s.setWarp w f).recalls = s.recalls := rfl
@[simp] theorem State.setWarp_flights (w : WarpId) (f : Warp → Warp) : (s.setWarp w f).flights = s.flights := rfl
@[simp] theorem State.setWarp_replies (w : WarpId) (f : Warp → Warp) : (s.setWarp w f).replies = s.replies := rfl
@[simp] theorem State.setWarp_faultQ (w : WarpId) (f : Warp → Warp) : (s.setWarp w f).faultQ = s.faultQ := rfl
@[simp] theorem State.setWarp_msgs (w : WarpId) (f : Warp → Warp) : (s.setWarp w f).msgs = s.msgs := rfl
@[simp] theorem State.setWarp_toks (w : WarpId) (f : Warp → Warp) : (s.setWarp w f).toks = s.toks := rfl
@[simp] theorem State.setWarp_colls (w : WarpId) (f : Warp → Warp) : (s.setWarp w f).colls = s.colls := rfl
@[simp] theorem State.setWarp_ctxs (w : WarpId) (f : Warp → Warp) : (s.setWarp w f).ctxs = s.ctxs := rfl
@[simp] theorem State.setWarp_launches (w : WarpId) (f : Warp → Warp) : (s.setWarp w f).launches = s.launches := rfl
@[simp] theorem State.setWarp_parts (w : WarpId) (f : Warp → Warp) : (s.setWarp w f).parts = s.parts := rfl
@[simp] theorem State.setWarp_raised (w : WarpId) (f : Warp → Warp) : (s.setWarp w f).raised = s.raised := rfl
@[simp] theorem State.setWarp_frozen (w : WarpId) (f : Warp → Warp) : (s.setWarp w f).frozen = s.frozen := rfl
@[simp] theorem State.setWarp_fw (w : WarpId) (f : Warp → Warp) : (s.setWarp w f).fw = s.fw := rfl
@[simp] theorem State.setWarp_host (w : WarpId) (f : Warp → Warp) : (s.setWarp w f).host = s.host := rfl
@[simp] theorem State.setWarp_regs (w : WarpId) (f : Warp → Warp) : (s.setWarp w f).regs = s.regs := rfl
@[simp] theorem State.setWarp_nextId (w : WarpId) (f : Warp → Warp) : (s.setWarp w f).nextId = s.nextId := rfl
@[simp] theorem State.setWarp_order (w : WarpId) (f : Warp → Warp) : (s.setWarp w f).order = s.order := rfl
@[simp] theorem State.setWarp_now (w : WarpId) (f : Warp → Warp) : (s.setWarp w f).now = s.now := rfl

@[simp] theorem State.setRun_agenda (w : WarpId) (f : Run → Run) : (s.setRun w f).agenda = s.agenda := rfl
@[simp] theorem State.setRun_issue (w : WarpId) (f : Run → Run) : (s.setRun w f).issue = s.issue := rfl
@[simp] theorem State.setRun_cur (w : WarpId) (f : Run → Run) : (s.setRun w f).cur = s.cur := rfl
@[simp] theorem State.setRun_tick (w : WarpId) (f : Run → Run) : (s.setRun w f).tick = s.tick := rfl
@[simp] theorem State.setRun_fresh (w : WarpId) (f : Run → Run) : (s.setRun w f).fresh = s.fresh := rfl
@[simp] theorem State.setRun_cores (w : WarpId) (f : Run → Run) : (s.setRun w f).cores = s.cores := rfl
@[simp] theorem State.setRun_l1 (w : WarpId) (f : Run → Run) : (s.setRun w f).l1 = s.l1 := rfl
@[simp] theorem State.setRun_l2 (w : WarpId) (f : Run → Run) : (s.setRun w f).l2 = s.l2 := rfl
@[simp] theorem State.setRun_mer (w : WarpId) (f : Run → Run) : (s.setRun w f).mer = s.mer := rfl
@[simp] theorem State.setRun_mem (w : WarpId) (f : Run → Run) : (s.setRun w f).mem = s.mem := rfl
@[simp] theorem State.setRun_tlb2 (w : WarpId) (f : Run → Run) : (s.setRun w f).tlb2 = s.tlb2 := rfl
@[simp] theorem State.setRun_past (w : WarpId) (f : Run → Run) : (s.setRun w f).past = s.past := rfl
@[simp] theorem State.setRun_errs (w : WarpId) (f : Run → Run) : (s.setRun w f).errs = s.errs := rfl
@[simp] theorem State.setRun_reloads (w : WarpId) (f : Run → Run) : (s.setRun w f).reloads = s.reloads := rfl
@[simp] theorem State.setRun_poison (w : WarpId) (f : Run → Run) : (s.setRun w f).poison = s.poison := rfl
@[simp] theorem State.setRun_lost (w : WarpId) (f : Run → Run) : (s.setRun w f).lost = s.lost := rfl
@[simp] theorem State.setRun_lags (w : WarpId) (f : Run → Run) : (s.setRun w f).lags = s.lags := rfl
@[simp] theorem State.setRun_seen (w : WarpId) (f : Run → Run) : (s.setRun w f).seen = s.seen := rfl
@[simp] theorem State.setRun_teams (w : WarpId) (f : Run → Run) : (s.setRun w f).teams = s.teams := rfl
@[simp] theorem State.setRun_refs (w : WarpId) (f : Run → Run) : (s.setRun w f).refs = s.refs := rfl
@[simp] theorem State.setRun_copies (w : WarpId) (f : Run → Run) : (s.setRun w f).copies = s.copies := rfl
@[simp] theorem State.setRun_mmas (w : WarpId) (f : Run → Run) : (s.setRun w f).mmas = s.mmas := rfl
@[simp] theorem State.setRun_takes (w : WarpId) (f : Run → Run) : (s.setRun w f).takes = s.takes := rfl
@[simp] theorem State.setRun_recalls (w : WarpId) (f : Run → Run) : (s.setRun w f).recalls = s.recalls := rfl
@[simp] theorem State.setRun_flights (w : WarpId) (f : Run → Run) : (s.setRun w f).flights = s.flights := rfl
@[simp] theorem State.setRun_replies (w : WarpId) (f : Run → Run) : (s.setRun w f).replies = s.replies := rfl
@[simp] theorem State.setRun_faultQ (w : WarpId) (f : Run → Run) : (s.setRun w f).faultQ = s.faultQ := rfl
@[simp] theorem State.setRun_msgs (w : WarpId) (f : Run → Run) : (s.setRun w f).msgs = s.msgs := rfl
@[simp] theorem State.setRun_toks (w : WarpId) (f : Run → Run) : (s.setRun w f).toks = s.toks := rfl
@[simp] theorem State.setRun_colls (w : WarpId) (f : Run → Run) : (s.setRun w f).colls = s.colls := rfl
@[simp] theorem State.setRun_ctxs (w : WarpId) (f : Run → Run) : (s.setRun w f).ctxs = s.ctxs := rfl
@[simp] theorem State.setRun_launches (w : WarpId) (f : Run → Run) : (s.setRun w f).launches = s.launches := rfl
@[simp] theorem State.setRun_parts (w : WarpId) (f : Run → Run) : (s.setRun w f).parts = s.parts := rfl
@[simp] theorem State.setRun_raised (w : WarpId) (f : Run → Run) : (s.setRun w f).raised = s.raised := rfl
@[simp] theorem State.setRun_frozen (w : WarpId) (f : Run → Run) : (s.setRun w f).frozen = s.frozen := rfl
@[simp] theorem State.setRun_fw (w : WarpId) (f : Run → Run) : (s.setRun w f).fw = s.fw := rfl
@[simp] theorem State.setRun_host (w : WarpId) (f : Run → Run) : (s.setRun w f).host = s.host := rfl
@[simp] theorem State.setRun_regs (w : WarpId) (f : Run → Run) : (s.setRun w f).regs = s.regs := rfl
@[simp] theorem State.setRun_nextId (w : WarpId) (f : Run → Run) : (s.setRun w f).nextId = s.nextId := rfl
@[simp] theorem State.setRun_order (w : WarpId) (f : Run → Run) : (s.setRun w f).order = s.order := rfl
@[simp] theorem State.setRun_now (w : WarpId) (f : Run → Run) : (s.setRun w f).now = s.now := rfl

@[simp] theorem State.setTeam_agenda (t : TeamId) (f : Team → Team) : (s.setTeam t f).agenda = s.agenda := rfl
@[simp] theorem State.setTeam_issue (t : TeamId) (f : Team → Team) : (s.setTeam t f).issue = s.issue := rfl
@[simp] theorem State.setTeam_cur (t : TeamId) (f : Team → Team) : (s.setTeam t f).cur = s.cur := rfl
@[simp] theorem State.setTeam_tick (t : TeamId) (f : Team → Team) : (s.setTeam t f).tick = s.tick := rfl
@[simp] theorem State.setTeam_fresh (t : TeamId) (f : Team → Team) : (s.setTeam t f).fresh = s.fresh := rfl
@[simp] theorem State.setTeam_cores (t : TeamId) (f : Team → Team) : (s.setTeam t f).cores = s.cores := rfl
@[simp] theorem State.setTeam_l1 (t : TeamId) (f : Team → Team) : (s.setTeam t f).l1 = s.l1 := rfl
@[simp] theorem State.setTeam_l2 (t : TeamId) (f : Team → Team) : (s.setTeam t f).l2 = s.l2 := rfl
@[simp] theorem State.setTeam_mer (t : TeamId) (f : Team → Team) : (s.setTeam t f).mer = s.mer := rfl
@[simp] theorem State.setTeam_mem (t : TeamId) (f : Team → Team) : (s.setTeam t f).mem = s.mem := rfl
@[simp] theorem State.setTeam_tlb2 (t : TeamId) (f : Team → Team) : (s.setTeam t f).tlb2 = s.tlb2 := rfl
@[simp] theorem State.setTeam_past (t : TeamId) (f : Team → Team) : (s.setTeam t f).past = s.past := rfl
@[simp] theorem State.setTeam_errs (t : TeamId) (f : Team → Team) : (s.setTeam t f).errs = s.errs := rfl
@[simp] theorem State.setTeam_reloads (t : TeamId) (f : Team → Team) : (s.setTeam t f).reloads = s.reloads := rfl
@[simp] theorem State.setTeam_poison (t : TeamId) (f : Team → Team) : (s.setTeam t f).poison = s.poison := rfl
@[simp] theorem State.setTeam_lost (t : TeamId) (f : Team → Team) : (s.setTeam t f).lost = s.lost := rfl
@[simp] theorem State.setTeam_lags (t : TeamId) (f : Team → Team) : (s.setTeam t f).lags = s.lags := rfl
@[simp] theorem State.setTeam_seen (t : TeamId) (f : Team → Team) : (s.setTeam t f).seen = s.seen := rfl
@[simp] theorem State.setTeam_warps (t : TeamId) (f : Team → Team) : (s.setTeam t f).warps = s.warps := rfl
@[simp] theorem State.setTeam_refs (t : TeamId) (f : Team → Team) : (s.setTeam t f).refs = s.refs := rfl
@[simp] theorem State.setTeam_copies (t : TeamId) (f : Team → Team) : (s.setTeam t f).copies = s.copies := rfl
@[simp] theorem State.setTeam_mmas (t : TeamId) (f : Team → Team) : (s.setTeam t f).mmas = s.mmas := rfl
@[simp] theorem State.setTeam_takes (t : TeamId) (f : Team → Team) : (s.setTeam t f).takes = s.takes := rfl
@[simp] theorem State.setTeam_recalls (t : TeamId) (f : Team → Team) : (s.setTeam t f).recalls = s.recalls := rfl
@[simp] theorem State.setTeam_flights (t : TeamId) (f : Team → Team) : (s.setTeam t f).flights = s.flights := rfl
@[simp] theorem State.setTeam_replies (t : TeamId) (f : Team → Team) : (s.setTeam t f).replies = s.replies := rfl
@[simp] theorem State.setTeam_faultQ (t : TeamId) (f : Team → Team) : (s.setTeam t f).faultQ = s.faultQ := rfl
@[simp] theorem State.setTeam_msgs (t : TeamId) (f : Team → Team) : (s.setTeam t f).msgs = s.msgs := rfl
@[simp] theorem State.setTeam_toks (t : TeamId) (f : Team → Team) : (s.setTeam t f).toks = s.toks := rfl
@[simp] theorem State.setTeam_colls (t : TeamId) (f : Team → Team) : (s.setTeam t f).colls = s.colls := rfl
@[simp] theorem State.setTeam_ctxs (t : TeamId) (f : Team → Team) : (s.setTeam t f).ctxs = s.ctxs := rfl
@[simp] theorem State.setTeam_launches (t : TeamId) (f : Team → Team) : (s.setTeam t f).launches = s.launches := rfl
@[simp] theorem State.setTeam_parts (t : TeamId) (f : Team → Team) : (s.setTeam t f).parts = s.parts := rfl
@[simp] theorem State.setTeam_raised (t : TeamId) (f : Team → Team) : (s.setTeam t f).raised = s.raised := rfl
@[simp] theorem State.setTeam_frozen (t : TeamId) (f : Team → Team) : (s.setTeam t f).frozen = s.frozen := rfl
@[simp] theorem State.setTeam_fw (t : TeamId) (f : Team → Team) : (s.setTeam t f).fw = s.fw := rfl
@[simp] theorem State.setTeam_host (t : TeamId) (f : Team → Team) : (s.setTeam t f).host = s.host := rfl
@[simp] theorem State.setTeam_regs (t : TeamId) (f : Team → Team) : (s.setTeam t f).regs = s.regs := rfl
@[simp] theorem State.setTeam_nextId (t : TeamId) (f : Team → Team) : (s.setTeam t f).nextId = s.nextId := rfl
@[simp] theorem State.setTeam_order (t : TeamId) (f : Team → Team) : (s.setTeam t f).order = s.order := rfl
@[simp] theorem State.setTeam_now (t : TeamId) (f : Team → Team) : (s.setTeam t f).now = s.now := rfl

@[simp] theorem State.setLaunch_agenda (l : LaunchId) (f : Launch → Launch) : (s.setLaunch l f).agenda = s.agenda := rfl
@[simp] theorem State.setLaunch_issue (l : LaunchId) (f : Launch → Launch) : (s.setLaunch l f).issue = s.issue := rfl
@[simp] theorem State.setLaunch_cur (l : LaunchId) (f : Launch → Launch) : (s.setLaunch l f).cur = s.cur := rfl
@[simp] theorem State.setLaunch_tick (l : LaunchId) (f : Launch → Launch) : (s.setLaunch l f).tick = s.tick := rfl
@[simp] theorem State.setLaunch_fresh (l : LaunchId) (f : Launch → Launch) : (s.setLaunch l f).fresh = s.fresh := rfl
@[simp] theorem State.setLaunch_cores (l : LaunchId) (f : Launch → Launch) : (s.setLaunch l f).cores = s.cores := rfl
@[simp] theorem State.setLaunch_l1 (l : LaunchId) (f : Launch → Launch) : (s.setLaunch l f).l1 = s.l1 := rfl
@[simp] theorem State.setLaunch_l2 (l : LaunchId) (f : Launch → Launch) : (s.setLaunch l f).l2 = s.l2 := rfl
@[simp] theorem State.setLaunch_mer (l : LaunchId) (f : Launch → Launch) : (s.setLaunch l f).mer = s.mer := rfl
@[simp] theorem State.setLaunch_mem (l : LaunchId) (f : Launch → Launch) : (s.setLaunch l f).mem = s.mem := rfl
@[simp] theorem State.setLaunch_tlb2 (l : LaunchId) (f : Launch → Launch) : (s.setLaunch l f).tlb2 = s.tlb2 := rfl
@[simp] theorem State.setLaunch_past (l : LaunchId) (f : Launch → Launch) : (s.setLaunch l f).past = s.past := rfl
@[simp] theorem State.setLaunch_errs (l : LaunchId) (f : Launch → Launch) : (s.setLaunch l f).errs = s.errs := rfl
@[simp] theorem State.setLaunch_reloads (l : LaunchId) (f : Launch → Launch) : (s.setLaunch l f).reloads = s.reloads := rfl
@[simp] theorem State.setLaunch_poison (l : LaunchId) (f : Launch → Launch) : (s.setLaunch l f).poison = s.poison := rfl
@[simp] theorem State.setLaunch_lost (l : LaunchId) (f : Launch → Launch) : (s.setLaunch l f).lost = s.lost := rfl
@[simp] theorem State.setLaunch_lags (l : LaunchId) (f : Launch → Launch) : (s.setLaunch l f).lags = s.lags := rfl
@[simp] theorem State.setLaunch_seen (l : LaunchId) (f : Launch → Launch) : (s.setLaunch l f).seen = s.seen := rfl
@[simp] theorem State.setLaunch_teams (l : LaunchId) (f : Launch → Launch) : (s.setLaunch l f).teams = s.teams := rfl
@[simp] theorem State.setLaunch_warps (l : LaunchId) (f : Launch → Launch) : (s.setLaunch l f).warps = s.warps := rfl
@[simp] theorem State.setLaunch_refs (l : LaunchId) (f : Launch → Launch) : (s.setLaunch l f).refs = s.refs := rfl
@[simp] theorem State.setLaunch_copies (l : LaunchId) (f : Launch → Launch) : (s.setLaunch l f).copies = s.copies := rfl
@[simp] theorem State.setLaunch_mmas (l : LaunchId) (f : Launch → Launch) : (s.setLaunch l f).mmas = s.mmas := rfl
@[simp] theorem State.setLaunch_takes (l : LaunchId) (f : Launch → Launch) : (s.setLaunch l f).takes = s.takes := rfl
@[simp] theorem State.setLaunch_recalls (l : LaunchId) (f : Launch → Launch) : (s.setLaunch l f).recalls = s.recalls := rfl
@[simp] theorem State.setLaunch_flights (l : LaunchId) (f : Launch → Launch) : (s.setLaunch l f).flights = s.flights := rfl
@[simp] theorem State.setLaunch_replies (l : LaunchId) (f : Launch → Launch) : (s.setLaunch l f).replies = s.replies := rfl
@[simp] theorem State.setLaunch_faultQ (l : LaunchId) (f : Launch → Launch) : (s.setLaunch l f).faultQ = s.faultQ := rfl
@[simp] theorem State.setLaunch_msgs (l : LaunchId) (f : Launch → Launch) : (s.setLaunch l f).msgs = s.msgs := rfl
@[simp] theorem State.setLaunch_toks (l : LaunchId) (f : Launch → Launch) : (s.setLaunch l f).toks = s.toks := rfl
@[simp] theorem State.setLaunch_colls (l : LaunchId) (f : Launch → Launch) : (s.setLaunch l f).colls = s.colls := rfl
@[simp] theorem State.setLaunch_ctxs (l : LaunchId) (f : Launch → Launch) : (s.setLaunch l f).ctxs = s.ctxs := rfl
@[simp] theorem State.setLaunch_parts (l : LaunchId) (f : Launch → Launch) : (s.setLaunch l f).parts = s.parts := rfl
@[simp] theorem State.setLaunch_raised (l : LaunchId) (f : Launch → Launch) : (s.setLaunch l f).raised = s.raised := rfl
@[simp] theorem State.setLaunch_frozen (l : LaunchId) (f : Launch → Launch) : (s.setLaunch l f).frozen = s.frozen := rfl
@[simp] theorem State.setLaunch_fw (l : LaunchId) (f : Launch → Launch) : (s.setLaunch l f).fw = s.fw := rfl
@[simp] theorem State.setLaunch_host (l : LaunchId) (f : Launch → Launch) : (s.setLaunch l f).host = s.host := rfl
@[simp] theorem State.setLaunch_regs (l : LaunchId) (f : Launch → Launch) : (s.setLaunch l f).regs = s.regs := rfl
@[simp] theorem State.setLaunch_nextId (l : LaunchId) (f : Launch → Launch) : (s.setLaunch l f).nextId = s.nextId := rfl
@[simp] theorem State.setLaunch_order (l : LaunchId) (f : Launch → Launch) : (s.setLaunch l f).order = s.order := rfl
@[simp] theorem State.setLaunch_now (l : LaunchId) (f : Launch → Launch) : (s.setLaunch l f).now = s.now := rfl

@[simp] theorem State.setCtx_agenda (c : Nat) (f : Ctx → Ctx) : (s.setCtx c f).agenda = s.agenda := rfl
@[simp] theorem State.setCtx_issue (c : Nat) (f : Ctx → Ctx) : (s.setCtx c f).issue = s.issue := rfl
@[simp] theorem State.setCtx_cur (c : Nat) (f : Ctx → Ctx) : (s.setCtx c f).cur = s.cur := rfl
@[simp] theorem State.setCtx_tick (c : Nat) (f : Ctx → Ctx) : (s.setCtx c f).tick = s.tick := rfl
@[simp] theorem State.setCtx_fresh (c : Nat) (f : Ctx → Ctx) : (s.setCtx c f).fresh = s.fresh := rfl
@[simp] theorem State.setCtx_cores (c : Nat) (f : Ctx → Ctx) : (s.setCtx c f).cores = s.cores := rfl
@[simp] theorem State.setCtx_l1 (c : Nat) (f : Ctx → Ctx) : (s.setCtx c f).l1 = s.l1 := rfl
@[simp] theorem State.setCtx_l2 (c : Nat) (f : Ctx → Ctx) : (s.setCtx c f).l2 = s.l2 := rfl
@[simp] theorem State.setCtx_mer (c : Nat) (f : Ctx → Ctx) : (s.setCtx c f).mer = s.mer := rfl
@[simp] theorem State.setCtx_mem (c : Nat) (f : Ctx → Ctx) : (s.setCtx c f).mem = s.mem := rfl
@[simp] theorem State.setCtx_tlb2 (c : Nat) (f : Ctx → Ctx) : (s.setCtx c f).tlb2 = s.tlb2 := rfl
@[simp] theorem State.setCtx_past (c : Nat) (f : Ctx → Ctx) : (s.setCtx c f).past = s.past := rfl
@[simp] theorem State.setCtx_errs (c : Nat) (f : Ctx → Ctx) : (s.setCtx c f).errs = s.errs := rfl
@[simp] theorem State.setCtx_reloads (c : Nat) (f : Ctx → Ctx) : (s.setCtx c f).reloads = s.reloads := rfl
@[simp] theorem State.setCtx_poison (c : Nat) (f : Ctx → Ctx) : (s.setCtx c f).poison = s.poison := rfl
@[simp] theorem State.setCtx_lost (c : Nat) (f : Ctx → Ctx) : (s.setCtx c f).lost = s.lost := rfl
@[simp] theorem State.setCtx_lags (c : Nat) (f : Ctx → Ctx) : (s.setCtx c f).lags = s.lags := rfl
@[simp] theorem State.setCtx_seen (c : Nat) (f : Ctx → Ctx) : (s.setCtx c f).seen = s.seen := rfl
@[simp] theorem State.setCtx_teams (c : Nat) (f : Ctx → Ctx) : (s.setCtx c f).teams = s.teams := rfl
@[simp] theorem State.setCtx_warps (c : Nat) (f : Ctx → Ctx) : (s.setCtx c f).warps = s.warps := rfl
@[simp] theorem State.setCtx_refs (c : Nat) (f : Ctx → Ctx) : (s.setCtx c f).refs = s.refs := rfl
@[simp] theorem State.setCtx_copies (c : Nat) (f : Ctx → Ctx) : (s.setCtx c f).copies = s.copies := rfl
@[simp] theorem State.setCtx_mmas (c : Nat) (f : Ctx → Ctx) : (s.setCtx c f).mmas = s.mmas := rfl
@[simp] theorem State.setCtx_takes (c : Nat) (f : Ctx → Ctx) : (s.setCtx c f).takes = s.takes := rfl
@[simp] theorem State.setCtx_recalls (c : Nat) (f : Ctx → Ctx) : (s.setCtx c f).recalls = s.recalls := rfl
@[simp] theorem State.setCtx_flights (c : Nat) (f : Ctx → Ctx) : (s.setCtx c f).flights = s.flights := rfl
@[simp] theorem State.setCtx_replies (c : Nat) (f : Ctx → Ctx) : (s.setCtx c f).replies = s.replies := rfl
@[simp] theorem State.setCtx_faultQ (c : Nat) (f : Ctx → Ctx) : (s.setCtx c f).faultQ = s.faultQ := rfl
@[simp] theorem State.setCtx_msgs (c : Nat) (f : Ctx → Ctx) : (s.setCtx c f).msgs = s.msgs := rfl
@[simp] theorem State.setCtx_toks (c : Nat) (f : Ctx → Ctx) : (s.setCtx c f).toks = s.toks := rfl
@[simp] theorem State.setCtx_colls (c : Nat) (f : Ctx → Ctx) : (s.setCtx c f).colls = s.colls := rfl
@[simp] theorem State.setCtx_launches (c : Nat) (f : Ctx → Ctx) : (s.setCtx c f).launches = s.launches := rfl
@[simp] theorem State.setCtx_parts (c : Nat) (f : Ctx → Ctx) : (s.setCtx c f).parts = s.parts := rfl
@[simp] theorem State.setCtx_raised (c : Nat) (f : Ctx → Ctx) : (s.setCtx c f).raised = s.raised := rfl
@[simp] theorem State.setCtx_frozen (c : Nat) (f : Ctx → Ctx) : (s.setCtx c f).frozen = s.frozen := rfl
@[simp] theorem State.setCtx_fw (c : Nat) (f : Ctx → Ctx) : (s.setCtx c f).fw = s.fw := rfl
@[simp] theorem State.setCtx_host (c : Nat) (f : Ctx → Ctx) : (s.setCtx c f).host = s.host := rfl
@[simp] theorem State.setCtx_regs (c : Nat) (f : Ctx → Ctx) : (s.setCtx c f).regs = s.regs := rfl
@[simp] theorem State.setCtx_nextId (c : Nat) (f : Ctx → Ctx) : (s.setCtx c f).nextId = s.nextId := rfl
@[simp] theorem State.setCtx_order (c : Nat) (f : Ctx → Ctx) : (s.setCtx c f).order = s.order := rfl
@[simp] theorem State.setCtx_now (c : Nat) (f : Ctx → Ctx) : (s.setCtx c f).now = s.now := rfl

@[simp] theorem State.setCore_agenda (c : Nat) (f : Core → Core) : (s.setCore c f).agenda = s.agenda := rfl
@[simp] theorem State.setCore_issue (c : Nat) (f : Core → Core) : (s.setCore c f).issue = s.issue := rfl
@[simp] theorem State.setCore_cur (c : Nat) (f : Core → Core) : (s.setCore c f).cur = s.cur := rfl
@[simp] theorem State.setCore_tick (c : Nat) (f : Core → Core) : (s.setCore c f).tick = s.tick := rfl
@[simp] theorem State.setCore_fresh (c : Nat) (f : Core → Core) : (s.setCore c f).fresh = s.fresh := rfl
@[simp] theorem State.setCore_l1 (c : Nat) (f : Core → Core) : (s.setCore c f).l1 = s.l1 := rfl
@[simp] theorem State.setCore_l2 (c : Nat) (f : Core → Core) : (s.setCore c f).l2 = s.l2 := rfl
@[simp] theorem State.setCore_mer (c : Nat) (f : Core → Core) : (s.setCore c f).mer = s.mer := rfl
@[simp] theorem State.setCore_mem (c : Nat) (f : Core → Core) : (s.setCore c f).mem = s.mem := rfl
@[simp] theorem State.setCore_tlb2 (c : Nat) (f : Core → Core) : (s.setCore c f).tlb2 = s.tlb2 := rfl
@[simp] theorem State.setCore_past (c : Nat) (f : Core → Core) : (s.setCore c f).past = s.past := rfl
@[simp] theorem State.setCore_errs (c : Nat) (f : Core → Core) : (s.setCore c f).errs = s.errs := rfl
@[simp] theorem State.setCore_reloads (c : Nat) (f : Core → Core) : (s.setCore c f).reloads = s.reloads := rfl
@[simp] theorem State.setCore_poison (c : Nat) (f : Core → Core) : (s.setCore c f).poison = s.poison := rfl
@[simp] theorem State.setCore_lost (c : Nat) (f : Core → Core) : (s.setCore c f).lost = s.lost := rfl
@[simp] theorem State.setCore_lags (c : Nat) (f : Core → Core) : (s.setCore c f).lags = s.lags := rfl
@[simp] theorem State.setCore_seen (c : Nat) (f : Core → Core) : (s.setCore c f).seen = s.seen := rfl
@[simp] theorem State.setCore_teams (c : Nat) (f : Core → Core) : (s.setCore c f).teams = s.teams := rfl
@[simp] theorem State.setCore_warps (c : Nat) (f : Core → Core) : (s.setCore c f).warps = s.warps := rfl
@[simp] theorem State.setCore_refs (c : Nat) (f : Core → Core) : (s.setCore c f).refs = s.refs := rfl
@[simp] theorem State.setCore_copies (c : Nat) (f : Core → Core) : (s.setCore c f).copies = s.copies := rfl
@[simp] theorem State.setCore_mmas (c : Nat) (f : Core → Core) : (s.setCore c f).mmas = s.mmas := rfl
@[simp] theorem State.setCore_takes (c : Nat) (f : Core → Core) : (s.setCore c f).takes = s.takes := rfl
@[simp] theorem State.setCore_recalls (c : Nat) (f : Core → Core) : (s.setCore c f).recalls = s.recalls := rfl
@[simp] theorem State.setCore_flights (c : Nat) (f : Core → Core) : (s.setCore c f).flights = s.flights := rfl
@[simp] theorem State.setCore_replies (c : Nat) (f : Core → Core) : (s.setCore c f).replies = s.replies := rfl
@[simp] theorem State.setCore_faultQ (c : Nat) (f : Core → Core) : (s.setCore c f).faultQ = s.faultQ := rfl
@[simp] theorem State.setCore_msgs (c : Nat) (f : Core → Core) : (s.setCore c f).msgs = s.msgs := rfl
@[simp] theorem State.setCore_toks (c : Nat) (f : Core → Core) : (s.setCore c f).toks = s.toks := rfl
@[simp] theorem State.setCore_colls (c : Nat) (f : Core → Core) : (s.setCore c f).colls = s.colls := rfl
@[simp] theorem State.setCore_ctxs (c : Nat) (f : Core → Core) : (s.setCore c f).ctxs = s.ctxs := rfl
@[simp] theorem State.setCore_launches (c : Nat) (f : Core → Core) : (s.setCore c f).launches = s.launches := rfl
@[simp] theorem State.setCore_parts (c : Nat) (f : Core → Core) : (s.setCore c f).parts = s.parts := rfl
@[simp] theorem State.setCore_raised (c : Nat) (f : Core → Core) : (s.setCore c f).raised = s.raised := rfl
@[simp] theorem State.setCore_frozen (c : Nat) (f : Core → Core) : (s.setCore c f).frozen = s.frozen := rfl
@[simp] theorem State.setCore_fw (c : Nat) (f : Core → Core) : (s.setCore c f).fw = s.fw := rfl
@[simp] theorem State.setCore_host (c : Nat) (f : Core → Core) : (s.setCore c f).host = s.host := rfl
@[simp] theorem State.setCore_regs (c : Nat) (f : Core → Core) : (s.setCore c f).regs = s.regs := rfl
@[simp] theorem State.setCore_nextId (c : Nat) (f : Core → Core) : (s.setCore c f).nextId = s.nextId := rfl
@[simp] theorem State.setCore_order (c : Nat) (f : Core → Core) : (s.setCore c f).order = s.order := rfl
@[simp] theorem State.setCore_now (c : Nat) (f : Core → Core) : (s.setCore c f).now = s.now := rfl

@[simp] theorem State.setCopy_agenda (id : Nat) (f : Copy → Copy) : (s.setCopy id f).agenda = s.agenda := rfl
@[simp] theorem State.setCopy_issue (id : Nat) (f : Copy → Copy) : (s.setCopy id f).issue = s.issue := rfl
@[simp] theorem State.setCopy_cur (id : Nat) (f : Copy → Copy) : (s.setCopy id f).cur = s.cur := rfl
@[simp] theorem State.setCopy_tick (id : Nat) (f : Copy → Copy) : (s.setCopy id f).tick = s.tick := rfl
@[simp] theorem State.setCopy_fresh (id : Nat) (f : Copy → Copy) : (s.setCopy id f).fresh = s.fresh := rfl
@[simp] theorem State.setCopy_cores (id : Nat) (f : Copy → Copy) : (s.setCopy id f).cores = s.cores := rfl
@[simp] theorem State.setCopy_l1 (id : Nat) (f : Copy → Copy) : (s.setCopy id f).l1 = s.l1 := rfl
@[simp] theorem State.setCopy_l2 (id : Nat) (f : Copy → Copy) : (s.setCopy id f).l2 = s.l2 := rfl
@[simp] theorem State.setCopy_mer (id : Nat) (f : Copy → Copy) : (s.setCopy id f).mer = s.mer := rfl
@[simp] theorem State.setCopy_mem (id : Nat) (f : Copy → Copy) : (s.setCopy id f).mem = s.mem := rfl
@[simp] theorem State.setCopy_tlb2 (id : Nat) (f : Copy → Copy) : (s.setCopy id f).tlb2 = s.tlb2 := rfl
@[simp] theorem State.setCopy_past (id : Nat) (f : Copy → Copy) : (s.setCopy id f).past = s.past := rfl
@[simp] theorem State.setCopy_errs (id : Nat) (f : Copy → Copy) : (s.setCopy id f).errs = s.errs := rfl
@[simp] theorem State.setCopy_reloads (id : Nat) (f : Copy → Copy) : (s.setCopy id f).reloads = s.reloads := rfl
@[simp] theorem State.setCopy_poison (id : Nat) (f : Copy → Copy) : (s.setCopy id f).poison = s.poison := rfl
@[simp] theorem State.setCopy_lost (id : Nat) (f : Copy → Copy) : (s.setCopy id f).lost = s.lost := rfl
@[simp] theorem State.setCopy_lags (id : Nat) (f : Copy → Copy) : (s.setCopy id f).lags = s.lags := rfl
@[simp] theorem State.setCopy_seen (id : Nat) (f : Copy → Copy) : (s.setCopy id f).seen = s.seen := rfl
@[simp] theorem State.setCopy_teams (id : Nat) (f : Copy → Copy) : (s.setCopy id f).teams = s.teams := rfl
@[simp] theorem State.setCopy_warps (id : Nat) (f : Copy → Copy) : (s.setCopy id f).warps = s.warps := rfl
@[simp] theorem State.setCopy_refs (id : Nat) (f : Copy → Copy) : (s.setCopy id f).refs = s.refs := rfl
@[simp] theorem State.setCopy_mmas (id : Nat) (f : Copy → Copy) : (s.setCopy id f).mmas = s.mmas := rfl
@[simp] theorem State.setCopy_takes (id : Nat) (f : Copy → Copy) : (s.setCopy id f).takes = s.takes := rfl
@[simp] theorem State.setCopy_recalls (id : Nat) (f : Copy → Copy) : (s.setCopy id f).recalls = s.recalls := rfl
@[simp] theorem State.setCopy_flights (id : Nat) (f : Copy → Copy) : (s.setCopy id f).flights = s.flights := rfl
@[simp] theorem State.setCopy_replies (id : Nat) (f : Copy → Copy) : (s.setCopy id f).replies = s.replies := rfl
@[simp] theorem State.setCopy_faultQ (id : Nat) (f : Copy → Copy) : (s.setCopy id f).faultQ = s.faultQ := rfl
@[simp] theorem State.setCopy_msgs (id : Nat) (f : Copy → Copy) : (s.setCopy id f).msgs = s.msgs := rfl
@[simp] theorem State.setCopy_toks (id : Nat) (f : Copy → Copy) : (s.setCopy id f).toks = s.toks := rfl
@[simp] theorem State.setCopy_colls (id : Nat) (f : Copy → Copy) : (s.setCopy id f).colls = s.colls := rfl
@[simp] theorem State.setCopy_ctxs (id : Nat) (f : Copy → Copy) : (s.setCopy id f).ctxs = s.ctxs := rfl
@[simp] theorem State.setCopy_launches (id : Nat) (f : Copy → Copy) : (s.setCopy id f).launches = s.launches := rfl
@[simp] theorem State.setCopy_parts (id : Nat) (f : Copy → Copy) : (s.setCopy id f).parts = s.parts := rfl
@[simp] theorem State.setCopy_raised (id : Nat) (f : Copy → Copy) : (s.setCopy id f).raised = s.raised := rfl
@[simp] theorem State.setCopy_frozen (id : Nat) (f : Copy → Copy) : (s.setCopy id f).frozen = s.frozen := rfl
@[simp] theorem State.setCopy_fw (id : Nat) (f : Copy → Copy) : (s.setCopy id f).fw = s.fw := rfl
@[simp] theorem State.setCopy_host (id : Nat) (f : Copy → Copy) : (s.setCopy id f).host = s.host := rfl
@[simp] theorem State.setCopy_regs (id : Nat) (f : Copy → Copy) : (s.setCopy id f).regs = s.regs := rfl
@[simp] theorem State.setCopy_nextId (id : Nat) (f : Copy → Copy) : (s.setCopy id f).nextId = s.nextId := rfl
@[simp] theorem State.setCopy_order (id : Nat) (f : Copy → Copy) : (s.setCopy id f).order = s.order := rfl
@[simp] theorem State.setCopy_now (id : Nat) (f : Copy → Copy) : (s.setCopy id f).now = s.now := rfl

@[simp] theorem State.setMsg_agenda (id : Nat) (f : Msg → Msg) : (s.setMsg id f).agenda = s.agenda := rfl
@[simp] theorem State.setMsg_issue (id : Nat) (f : Msg → Msg) : (s.setMsg id f).issue = s.issue := rfl
@[simp] theorem State.setMsg_cur (id : Nat) (f : Msg → Msg) : (s.setMsg id f).cur = s.cur := rfl
@[simp] theorem State.setMsg_tick (id : Nat) (f : Msg → Msg) : (s.setMsg id f).tick = s.tick := rfl
@[simp] theorem State.setMsg_fresh (id : Nat) (f : Msg → Msg) : (s.setMsg id f).fresh = s.fresh := rfl
@[simp] theorem State.setMsg_cores (id : Nat) (f : Msg → Msg) : (s.setMsg id f).cores = s.cores := rfl
@[simp] theorem State.setMsg_l1 (id : Nat) (f : Msg → Msg) : (s.setMsg id f).l1 = s.l1 := rfl
@[simp] theorem State.setMsg_l2 (id : Nat) (f : Msg → Msg) : (s.setMsg id f).l2 = s.l2 := rfl
@[simp] theorem State.setMsg_mer (id : Nat) (f : Msg → Msg) : (s.setMsg id f).mer = s.mer := rfl
@[simp] theorem State.setMsg_mem (id : Nat) (f : Msg → Msg) : (s.setMsg id f).mem = s.mem := rfl
@[simp] theorem State.setMsg_tlb2 (id : Nat) (f : Msg → Msg) : (s.setMsg id f).tlb2 = s.tlb2 := rfl
@[simp] theorem State.setMsg_past (id : Nat) (f : Msg → Msg) : (s.setMsg id f).past = s.past := rfl
@[simp] theorem State.setMsg_errs (id : Nat) (f : Msg → Msg) : (s.setMsg id f).errs = s.errs := rfl
@[simp] theorem State.setMsg_reloads (id : Nat) (f : Msg → Msg) : (s.setMsg id f).reloads = s.reloads := rfl
@[simp] theorem State.setMsg_poison (id : Nat) (f : Msg → Msg) : (s.setMsg id f).poison = s.poison := rfl
@[simp] theorem State.setMsg_lost (id : Nat) (f : Msg → Msg) : (s.setMsg id f).lost = s.lost := rfl
@[simp] theorem State.setMsg_lags (id : Nat) (f : Msg → Msg) : (s.setMsg id f).lags = s.lags := rfl
@[simp] theorem State.setMsg_seen (id : Nat) (f : Msg → Msg) : (s.setMsg id f).seen = s.seen := rfl
@[simp] theorem State.setMsg_teams (id : Nat) (f : Msg → Msg) : (s.setMsg id f).teams = s.teams := rfl
@[simp] theorem State.setMsg_warps (id : Nat) (f : Msg → Msg) : (s.setMsg id f).warps = s.warps := rfl
@[simp] theorem State.setMsg_refs (id : Nat) (f : Msg → Msg) : (s.setMsg id f).refs = s.refs := rfl
@[simp] theorem State.setMsg_copies (id : Nat) (f : Msg → Msg) : (s.setMsg id f).copies = s.copies := rfl
@[simp] theorem State.setMsg_mmas (id : Nat) (f : Msg → Msg) : (s.setMsg id f).mmas = s.mmas := rfl
@[simp] theorem State.setMsg_takes (id : Nat) (f : Msg → Msg) : (s.setMsg id f).takes = s.takes := rfl
@[simp] theorem State.setMsg_recalls (id : Nat) (f : Msg → Msg) : (s.setMsg id f).recalls = s.recalls := rfl
@[simp] theorem State.setMsg_flights (id : Nat) (f : Msg → Msg) : (s.setMsg id f).flights = s.flights := rfl
@[simp] theorem State.setMsg_replies (id : Nat) (f : Msg → Msg) : (s.setMsg id f).replies = s.replies := rfl
@[simp] theorem State.setMsg_faultQ (id : Nat) (f : Msg → Msg) : (s.setMsg id f).faultQ = s.faultQ := rfl
@[simp] theorem State.setMsg_toks (id : Nat) (f : Msg → Msg) : (s.setMsg id f).toks = s.toks := rfl
@[simp] theorem State.setMsg_colls (id : Nat) (f : Msg → Msg) : (s.setMsg id f).colls = s.colls := rfl
@[simp] theorem State.setMsg_ctxs (id : Nat) (f : Msg → Msg) : (s.setMsg id f).ctxs = s.ctxs := rfl
@[simp] theorem State.setMsg_launches (id : Nat) (f : Msg → Msg) : (s.setMsg id f).launches = s.launches := rfl
@[simp] theorem State.setMsg_parts (id : Nat) (f : Msg → Msg) : (s.setMsg id f).parts = s.parts := rfl
@[simp] theorem State.setMsg_raised (id : Nat) (f : Msg → Msg) : (s.setMsg id f).raised = s.raised := rfl
@[simp] theorem State.setMsg_frozen (id : Nat) (f : Msg → Msg) : (s.setMsg id f).frozen = s.frozen := rfl
@[simp] theorem State.setMsg_fw (id : Nat) (f : Msg → Msg) : (s.setMsg id f).fw = s.fw := rfl
@[simp] theorem State.setMsg_host (id : Nat) (f : Msg → Msg) : (s.setMsg id f).host = s.host := rfl
@[simp] theorem State.setMsg_regs (id : Nat) (f : Msg → Msg) : (s.setMsg id f).regs = s.regs := rfl
@[simp] theorem State.setMsg_nextId (id : Nat) (f : Msg → Msg) : (s.setMsg id f).nextId = s.nextId := rfl
@[simp] theorem State.setMsg_order (id : Nat) (f : Msg → Msg) : (s.setMsg id f).order = s.order := rfl
@[simp] theorem State.setMsg_now (id : Nat) (f : Msg → Msg) : (s.setMsg id f).now = s.now := rfl

@[simp] theorem State.setMma_agenda (id : Nat) (f : Mma → Mma) : (s.setMma id f).agenda = s.agenda := rfl
@[simp] theorem State.setMma_issue (id : Nat) (f : Mma → Mma) : (s.setMma id f).issue = s.issue := rfl
@[simp] theorem State.setMma_cur (id : Nat) (f : Mma → Mma) : (s.setMma id f).cur = s.cur := rfl
@[simp] theorem State.setMma_tick (id : Nat) (f : Mma → Mma) : (s.setMma id f).tick = s.tick := rfl
@[simp] theorem State.setMma_fresh (id : Nat) (f : Mma → Mma) : (s.setMma id f).fresh = s.fresh := rfl
@[simp] theorem State.setMma_cores (id : Nat) (f : Mma → Mma) : (s.setMma id f).cores = s.cores := rfl
@[simp] theorem State.setMma_l1 (id : Nat) (f : Mma → Mma) : (s.setMma id f).l1 = s.l1 := rfl
@[simp] theorem State.setMma_l2 (id : Nat) (f : Mma → Mma) : (s.setMma id f).l2 = s.l2 := rfl
@[simp] theorem State.setMma_mer (id : Nat) (f : Mma → Mma) : (s.setMma id f).mer = s.mer := rfl
@[simp] theorem State.setMma_mem (id : Nat) (f : Mma → Mma) : (s.setMma id f).mem = s.mem := rfl
@[simp] theorem State.setMma_tlb2 (id : Nat) (f : Mma → Mma) : (s.setMma id f).tlb2 = s.tlb2 := rfl
@[simp] theorem State.setMma_past (id : Nat) (f : Mma → Mma) : (s.setMma id f).past = s.past := rfl
@[simp] theorem State.setMma_errs (id : Nat) (f : Mma → Mma) : (s.setMma id f).errs = s.errs := rfl
@[simp] theorem State.setMma_reloads (id : Nat) (f : Mma → Mma) : (s.setMma id f).reloads = s.reloads := rfl
@[simp] theorem State.setMma_poison (id : Nat) (f : Mma → Mma) : (s.setMma id f).poison = s.poison := rfl
@[simp] theorem State.setMma_lost (id : Nat) (f : Mma → Mma) : (s.setMma id f).lost = s.lost := rfl
@[simp] theorem State.setMma_lags (id : Nat) (f : Mma → Mma) : (s.setMma id f).lags = s.lags := rfl
@[simp] theorem State.setMma_seen (id : Nat) (f : Mma → Mma) : (s.setMma id f).seen = s.seen := rfl
@[simp] theorem State.setMma_teams (id : Nat) (f : Mma → Mma) : (s.setMma id f).teams = s.teams := rfl
@[simp] theorem State.setMma_warps (id : Nat) (f : Mma → Mma) : (s.setMma id f).warps = s.warps := rfl
@[simp] theorem State.setMma_refs (id : Nat) (f : Mma → Mma) : (s.setMma id f).refs = s.refs := rfl
@[simp] theorem State.setMma_copies (id : Nat) (f : Mma → Mma) : (s.setMma id f).copies = s.copies := rfl
@[simp] theorem State.setMma_takes (id : Nat) (f : Mma → Mma) : (s.setMma id f).takes = s.takes := rfl
@[simp] theorem State.setMma_recalls (id : Nat) (f : Mma → Mma) : (s.setMma id f).recalls = s.recalls := rfl
@[simp] theorem State.setMma_flights (id : Nat) (f : Mma → Mma) : (s.setMma id f).flights = s.flights := rfl
@[simp] theorem State.setMma_replies (id : Nat) (f : Mma → Mma) : (s.setMma id f).replies = s.replies := rfl
@[simp] theorem State.setMma_faultQ (id : Nat) (f : Mma → Mma) : (s.setMma id f).faultQ = s.faultQ := rfl
@[simp] theorem State.setMma_msgs (id : Nat) (f : Mma → Mma) : (s.setMma id f).msgs = s.msgs := rfl
@[simp] theorem State.setMma_toks (id : Nat) (f : Mma → Mma) : (s.setMma id f).toks = s.toks := rfl
@[simp] theorem State.setMma_colls (id : Nat) (f : Mma → Mma) : (s.setMma id f).colls = s.colls := rfl
@[simp] theorem State.setMma_ctxs (id : Nat) (f : Mma → Mma) : (s.setMma id f).ctxs = s.ctxs := rfl
@[simp] theorem State.setMma_launches (id : Nat) (f : Mma → Mma) : (s.setMma id f).launches = s.launches := rfl
@[simp] theorem State.setMma_parts (id : Nat) (f : Mma → Mma) : (s.setMma id f).parts = s.parts := rfl
@[simp] theorem State.setMma_raised (id : Nat) (f : Mma → Mma) : (s.setMma id f).raised = s.raised := rfl
@[simp] theorem State.setMma_frozen (id : Nat) (f : Mma → Mma) : (s.setMma id f).frozen = s.frozen := rfl
@[simp] theorem State.setMma_fw (id : Nat) (f : Mma → Mma) : (s.setMma id f).fw = s.fw := rfl
@[simp] theorem State.setMma_host (id : Nat) (f : Mma → Mma) : (s.setMma id f).host = s.host := rfl
@[simp] theorem State.setMma_regs (id : Nat) (f : Mma → Mma) : (s.setMma id f).regs = s.regs := rfl
@[simp] theorem State.setMma_nextId (id : Nat) (f : Mma → Mma) : (s.setMma id f).nextId = s.nextId := rfl
@[simp] theorem State.setMma_order (id : Nat) (f : Mma → Mma) : (s.setMma id f).order = s.order := rfl
@[simp] theorem State.setMma_now (id : Nat) (f : Mma → Mma) : (s.setMma id f).now = s.now := rfl

@[simp] theorem State.setPart_agenda (p : Nat) (f : Part → Part) : (s.setPart p f).agenda = s.agenda := rfl
@[simp] theorem State.setPart_issue (p : Nat) (f : Part → Part) : (s.setPart p f).issue = s.issue := rfl
@[simp] theorem State.setPart_cur (p : Nat) (f : Part → Part) : (s.setPart p f).cur = s.cur := rfl
@[simp] theorem State.setPart_tick (p : Nat) (f : Part → Part) : (s.setPart p f).tick = s.tick := rfl
@[simp] theorem State.setPart_fresh (p : Nat) (f : Part → Part) : (s.setPart p f).fresh = s.fresh := rfl
@[simp] theorem State.setPart_cores (p : Nat) (f : Part → Part) : (s.setPart p f).cores = s.cores := rfl
@[simp] theorem State.setPart_l1 (p : Nat) (f : Part → Part) : (s.setPart p f).l1 = s.l1 := rfl
@[simp] theorem State.setPart_l2 (p : Nat) (f : Part → Part) : (s.setPart p f).l2 = s.l2 := rfl
@[simp] theorem State.setPart_mer (p : Nat) (f : Part → Part) : (s.setPart p f).mer = s.mer := rfl
@[simp] theorem State.setPart_mem (p : Nat) (f : Part → Part) : (s.setPart p f).mem = s.mem := rfl
@[simp] theorem State.setPart_tlb2 (p : Nat) (f : Part → Part) : (s.setPart p f).tlb2 = s.tlb2 := rfl
@[simp] theorem State.setPart_past (p : Nat) (f : Part → Part) : (s.setPart p f).past = s.past := rfl
@[simp] theorem State.setPart_errs (p : Nat) (f : Part → Part) : (s.setPart p f).errs = s.errs := rfl
@[simp] theorem State.setPart_reloads (p : Nat) (f : Part → Part) : (s.setPart p f).reloads = s.reloads := rfl
@[simp] theorem State.setPart_poison (p : Nat) (f : Part → Part) : (s.setPart p f).poison = s.poison := rfl
@[simp] theorem State.setPart_lost (p : Nat) (f : Part → Part) : (s.setPart p f).lost = s.lost := rfl
@[simp] theorem State.setPart_lags (p : Nat) (f : Part → Part) : (s.setPart p f).lags = s.lags := rfl
@[simp] theorem State.setPart_seen (p : Nat) (f : Part → Part) : (s.setPart p f).seen = s.seen := rfl
@[simp] theorem State.setPart_teams (p : Nat) (f : Part → Part) : (s.setPart p f).teams = s.teams := rfl
@[simp] theorem State.setPart_warps (p : Nat) (f : Part → Part) : (s.setPart p f).warps = s.warps := rfl
@[simp] theorem State.setPart_refs (p : Nat) (f : Part → Part) : (s.setPart p f).refs = s.refs := rfl
@[simp] theorem State.setPart_copies (p : Nat) (f : Part → Part) : (s.setPart p f).copies = s.copies := rfl
@[simp] theorem State.setPart_mmas (p : Nat) (f : Part → Part) : (s.setPart p f).mmas = s.mmas := rfl
@[simp] theorem State.setPart_takes (p : Nat) (f : Part → Part) : (s.setPart p f).takes = s.takes := rfl
@[simp] theorem State.setPart_recalls (p : Nat) (f : Part → Part) : (s.setPart p f).recalls = s.recalls := rfl
@[simp] theorem State.setPart_flights (p : Nat) (f : Part → Part) : (s.setPart p f).flights = s.flights := rfl
@[simp] theorem State.setPart_replies (p : Nat) (f : Part → Part) : (s.setPart p f).replies = s.replies := rfl
@[simp] theorem State.setPart_faultQ (p : Nat) (f : Part → Part) : (s.setPart p f).faultQ = s.faultQ := rfl
@[simp] theorem State.setPart_msgs (p : Nat) (f : Part → Part) : (s.setPart p f).msgs = s.msgs := rfl
@[simp] theorem State.setPart_toks (p : Nat) (f : Part → Part) : (s.setPart p f).toks = s.toks := rfl
@[simp] theorem State.setPart_colls (p : Nat) (f : Part → Part) : (s.setPart p f).colls = s.colls := rfl
@[simp] theorem State.setPart_ctxs (p : Nat) (f : Part → Part) : (s.setPart p f).ctxs = s.ctxs := rfl
@[simp] theorem State.setPart_launches (p : Nat) (f : Part → Part) : (s.setPart p f).launches = s.launches := rfl
@[simp] theorem State.setPart_raised (p : Nat) (f : Part → Part) : (s.setPart p f).raised = s.raised := rfl
@[simp] theorem State.setPart_frozen (p : Nat) (f : Part → Part) : (s.setPart p f).frozen = s.frozen := rfl
@[simp] theorem State.setPart_fw (p : Nat) (f : Part → Part) : (s.setPart p f).fw = s.fw := rfl
@[simp] theorem State.setPart_host (p : Nat) (f : Part → Part) : (s.setPart p f).host = s.host := rfl
@[simp] theorem State.setPart_regs (p : Nat) (f : Part → Part) : (s.setPart p f).regs = s.regs := rfl
@[simp] theorem State.setPart_nextId (p : Nat) (f : Part → Part) : (s.setPart p f).nextId = s.nextId := rfl
@[simp] theorem State.setPart_order (p : Nat) (f : Part → Part) : (s.setPart p f).order = s.order := rfl
@[simp] theorem State.setPart_now (p : Nat) (f : Part → Part) : (s.setPart p f).now = s.now := rfl

@[simp] theorem State.setQueue_agenda (c q : Nat) (f : Queue → Queue) : (s.setQueue c q f).agenda = s.agenda := rfl
@[simp] theorem State.setQueue_issue (c q : Nat) (f : Queue → Queue) : (s.setQueue c q f).issue = s.issue := rfl
@[simp] theorem State.setQueue_cur (c q : Nat) (f : Queue → Queue) : (s.setQueue c q f).cur = s.cur := rfl
@[simp] theorem State.setQueue_tick (c q : Nat) (f : Queue → Queue) : (s.setQueue c q f).tick = s.tick := rfl
@[simp] theorem State.setQueue_fresh (c q : Nat) (f : Queue → Queue) : (s.setQueue c q f).fresh = s.fresh := rfl
@[simp] theorem State.setQueue_cores (c q : Nat) (f : Queue → Queue) : (s.setQueue c q f).cores = s.cores := rfl
@[simp] theorem State.setQueue_l1 (c q : Nat) (f : Queue → Queue) : (s.setQueue c q f).l1 = s.l1 := rfl
@[simp] theorem State.setQueue_l2 (c q : Nat) (f : Queue → Queue) : (s.setQueue c q f).l2 = s.l2 := rfl
@[simp] theorem State.setQueue_mer (c q : Nat) (f : Queue → Queue) : (s.setQueue c q f).mer = s.mer := rfl
@[simp] theorem State.setQueue_mem (c q : Nat) (f : Queue → Queue) : (s.setQueue c q f).mem = s.mem := rfl
@[simp] theorem State.setQueue_tlb2 (c q : Nat) (f : Queue → Queue) : (s.setQueue c q f).tlb2 = s.tlb2 := rfl
@[simp] theorem State.setQueue_past (c q : Nat) (f : Queue → Queue) : (s.setQueue c q f).past = s.past := rfl
@[simp] theorem State.setQueue_errs (c q : Nat) (f : Queue → Queue) : (s.setQueue c q f).errs = s.errs := rfl
@[simp] theorem State.setQueue_reloads (c q : Nat) (f : Queue → Queue) : (s.setQueue c q f).reloads = s.reloads := rfl
@[simp] theorem State.setQueue_poison (c q : Nat) (f : Queue → Queue) : (s.setQueue c q f).poison = s.poison := rfl
@[simp] theorem State.setQueue_lost (c q : Nat) (f : Queue → Queue) : (s.setQueue c q f).lost = s.lost := rfl
@[simp] theorem State.setQueue_lags (c q : Nat) (f : Queue → Queue) : (s.setQueue c q f).lags = s.lags := rfl
@[simp] theorem State.setQueue_seen (c q : Nat) (f : Queue → Queue) : (s.setQueue c q f).seen = s.seen := rfl
@[simp] theorem State.setQueue_teams (c q : Nat) (f : Queue → Queue) : (s.setQueue c q f).teams = s.teams := rfl
@[simp] theorem State.setQueue_warps (c q : Nat) (f : Queue → Queue) : (s.setQueue c q f).warps = s.warps := rfl
@[simp] theorem State.setQueue_refs (c q : Nat) (f : Queue → Queue) : (s.setQueue c q f).refs = s.refs := rfl
@[simp] theorem State.setQueue_copies (c q : Nat) (f : Queue → Queue) : (s.setQueue c q f).copies = s.copies := rfl
@[simp] theorem State.setQueue_mmas (c q : Nat) (f : Queue → Queue) : (s.setQueue c q f).mmas = s.mmas := rfl
@[simp] theorem State.setQueue_takes (c q : Nat) (f : Queue → Queue) : (s.setQueue c q f).takes = s.takes := rfl
@[simp] theorem State.setQueue_recalls (c q : Nat) (f : Queue → Queue) : (s.setQueue c q f).recalls = s.recalls := rfl
@[simp] theorem State.setQueue_flights (c q : Nat) (f : Queue → Queue) : (s.setQueue c q f).flights = s.flights := rfl
@[simp] theorem State.setQueue_replies (c q : Nat) (f : Queue → Queue) : (s.setQueue c q f).replies = s.replies := rfl
@[simp] theorem State.setQueue_faultQ (c q : Nat) (f : Queue → Queue) : (s.setQueue c q f).faultQ = s.faultQ := rfl
@[simp] theorem State.setQueue_msgs (c q : Nat) (f : Queue → Queue) : (s.setQueue c q f).msgs = s.msgs := rfl
@[simp] theorem State.setQueue_toks (c q : Nat) (f : Queue → Queue) : (s.setQueue c q f).toks = s.toks := rfl
@[simp] theorem State.setQueue_colls (c q : Nat) (f : Queue → Queue) : (s.setQueue c q f).colls = s.colls := rfl
@[simp] theorem State.setQueue_launches (c q : Nat) (f : Queue → Queue) : (s.setQueue c q f).launches = s.launches := rfl
@[simp] theorem State.setQueue_parts (c q : Nat) (f : Queue → Queue) : (s.setQueue c q f).parts = s.parts := rfl
@[simp] theorem State.setQueue_raised (c q : Nat) (f : Queue → Queue) : (s.setQueue c q f).raised = s.raised := rfl
@[simp] theorem State.setQueue_frozen (c q : Nat) (f : Queue → Queue) : (s.setQueue c q f).frozen = s.frozen := rfl
@[simp] theorem State.setQueue_fw (c q : Nat) (f : Queue → Queue) : (s.setQueue c q f).fw = s.fw := rfl
@[simp] theorem State.setQueue_host (c q : Nat) (f : Queue → Queue) : (s.setQueue c q f).host = s.host := rfl
@[simp] theorem State.setQueue_regs (c q : Nat) (f : Queue → Queue) : (s.setQueue c q f).regs = s.regs := rfl
@[simp] theorem State.setQueue_nextId (c q : Nat) (f : Queue → Queue) : (s.setQueue c q f).nextId = s.nextId := rfl
@[simp] theorem State.setQueue_order (c q : Nat) (f : Queue → Queue) : (s.setQueue c q f).order = s.order := rfl
@[simp] theorem State.setQueue_now (c q : Nat) (f : Queue → Queue) : (s.setQueue c q f).now = s.now := rfl

@[simp] theorem State.raise_agenda (f : Stop) : (s.raise f).agenda = s.agenda := rfl
@[simp] theorem State.raise_issue (f : Stop) : (s.raise f).issue = s.issue := rfl
@[simp] theorem State.raise_cur (f : Stop) : (s.raise f).cur = s.cur := rfl
@[simp] theorem State.raise_tick (f : Stop) : (s.raise f).tick = s.tick := rfl
@[simp] theorem State.raise_fresh (f : Stop) : (s.raise f).fresh = s.fresh := rfl
@[simp] theorem State.raise_cores (f : Stop) : (s.raise f).cores = s.cores := rfl
@[simp] theorem State.raise_l1 (f : Stop) : (s.raise f).l1 = s.l1 := rfl
@[simp] theorem State.raise_l2 (f : Stop) : (s.raise f).l2 = s.l2 := rfl
@[simp] theorem State.raise_mer (f : Stop) : (s.raise f).mer = s.mer := rfl
@[simp] theorem State.raise_mem (f : Stop) : (s.raise f).mem = s.mem := rfl
@[simp] theorem State.raise_tlb2 (f : Stop) : (s.raise f).tlb2 = s.tlb2 := rfl
@[simp] theorem State.raise_past (f : Stop) : (s.raise f).past = s.past := rfl
@[simp] theorem State.raise_errs (f : Stop) : (s.raise f).errs = s.errs := rfl
@[simp] theorem State.raise_reloads (f : Stop) : (s.raise f).reloads = s.reloads := rfl
@[simp] theorem State.raise_poison (f : Stop) : (s.raise f).poison = s.poison := rfl
@[simp] theorem State.raise_lost (f : Stop) : (s.raise f).lost = s.lost := rfl
@[simp] theorem State.raise_lags (f : Stop) : (s.raise f).lags = s.lags := rfl
@[simp] theorem State.raise_seen (f : Stop) : (s.raise f).seen = s.seen := rfl
@[simp] theorem State.raise_teams (f : Stop) : (s.raise f).teams = s.teams := rfl
@[simp] theorem State.raise_warps (f : Stop) : (s.raise f).warps = s.warps := rfl
@[simp] theorem State.raise_refs (f : Stop) : (s.raise f).refs = s.refs := rfl
@[simp] theorem State.raise_copies (f : Stop) : (s.raise f).copies = s.copies := rfl
@[simp] theorem State.raise_mmas (f : Stop) : (s.raise f).mmas = s.mmas := rfl
@[simp] theorem State.raise_takes (f : Stop) : (s.raise f).takes = s.takes := rfl
@[simp] theorem State.raise_recalls (f : Stop) : (s.raise f).recalls = s.recalls := rfl
@[simp] theorem State.raise_flights (f : Stop) : (s.raise f).flights = s.flights := rfl
@[simp] theorem State.raise_replies (f : Stop) : (s.raise f).replies = s.replies := rfl
@[simp] theorem State.raise_faultQ (f : Stop) : (s.raise f).faultQ = s.faultQ := rfl
@[simp] theorem State.raise_msgs (f : Stop) : (s.raise f).msgs = s.msgs := rfl
@[simp] theorem State.raise_toks (f : Stop) : (s.raise f).toks = s.toks := rfl
@[simp] theorem State.raise_colls (f : Stop) : (s.raise f).colls = s.colls := rfl
@[simp] theorem State.raise_ctxs (f : Stop) : (s.raise f).ctxs = s.ctxs := rfl
@[simp] theorem State.raise_launches (f : Stop) : (s.raise f).launches = s.launches := rfl
@[simp] theorem State.raise_parts (f : Stop) : (s.raise f).parts = s.parts := rfl
@[simp] theorem State.raise_frozen (f : Stop) : (s.raise f).frozen = s.frozen := rfl
@[simp] theorem State.raise_host (f : Stop) : (s.raise f).host = s.host := rfl
@[simp] theorem State.raise_regs (f : Stop) : (s.raise f).regs = s.regs := rfl
@[simp] theorem State.raise_nextId (f : Stop) : (s.raise f).nextId = s.nextId := rfl
@[simp] theorem State.raise_order (f : Stop) : (s.raise f).order = s.order := rfl
@[simp] theorem State.raise_now (f : Stop) : (s.raise f).now = s.now := rfl

@[simp] theorem State.event_agenda (e : Evt) : (s.event e).agenda = s.agenda := rfl
@[simp] theorem State.event_issue (e : Evt) : (s.event e).issue = s.issue := rfl
@[simp] theorem State.event_cur (e : Evt) : (s.event e).cur = s.cur := rfl
@[simp] theorem State.event_tick (e : Evt) : (s.event e).tick = s.tick := rfl
@[simp] theorem State.event_fresh (e : Evt) : (s.event e).fresh = s.fresh := rfl
@[simp] theorem State.event_cores (e : Evt) : (s.event e).cores = s.cores := rfl
@[simp] theorem State.event_l1 (e : Evt) : (s.event e).l1 = s.l1 := rfl
@[simp] theorem State.event_l2 (e : Evt) : (s.event e).l2 = s.l2 := rfl
@[simp] theorem State.event_mer (e : Evt) : (s.event e).mer = s.mer := rfl
@[simp] theorem State.event_mem (e : Evt) : (s.event e).mem = s.mem := rfl
@[simp] theorem State.event_tlb2 (e : Evt) : (s.event e).tlb2 = s.tlb2 := rfl
@[simp] theorem State.event_past (e : Evt) : (s.event e).past = s.past := rfl
@[simp] theorem State.event_errs (e : Evt) : (s.event e).errs = s.errs := rfl
@[simp] theorem State.event_reloads (e : Evt) : (s.event e).reloads = s.reloads := rfl
@[simp] theorem State.event_poison (e : Evt) : (s.event e).poison = s.poison := rfl
@[simp] theorem State.event_lost (e : Evt) : (s.event e).lost = s.lost := rfl
@[simp] theorem State.event_lags (e : Evt) : (s.event e).lags = s.lags := rfl
@[simp] theorem State.event_seen (e : Evt) : (s.event e).seen = s.seen := rfl
@[simp] theorem State.event_teams (e : Evt) : (s.event e).teams = s.teams := rfl
@[simp] theorem State.event_warps (e : Evt) : (s.event e).warps = s.warps := rfl
@[simp] theorem State.event_refs (e : Evt) : (s.event e).refs = s.refs := rfl
@[simp] theorem State.event_copies (e : Evt) : (s.event e).copies = s.copies := rfl
@[simp] theorem State.event_mmas (e : Evt) : (s.event e).mmas = s.mmas := rfl
@[simp] theorem State.event_takes (e : Evt) : (s.event e).takes = s.takes := rfl
@[simp] theorem State.event_recalls (e : Evt) : (s.event e).recalls = s.recalls := rfl
@[simp] theorem State.event_flights (e : Evt) : (s.event e).flights = s.flights := rfl
@[simp] theorem State.event_replies (e : Evt) : (s.event e).replies = s.replies := rfl
@[simp] theorem State.event_faultQ (e : Evt) : (s.event e).faultQ = s.faultQ := rfl
@[simp] theorem State.event_msgs (e : Evt) : (s.event e).msgs = s.msgs := rfl
@[simp] theorem State.event_toks (e : Evt) : (s.event e).toks = s.toks := rfl
@[simp] theorem State.event_colls (e : Evt) : (s.event e).colls = s.colls := rfl
@[simp] theorem State.event_ctxs (e : Evt) : (s.event e).ctxs = s.ctxs := rfl
@[simp] theorem State.event_launches (e : Evt) : (s.event e).launches = s.launches := rfl
@[simp] theorem State.event_parts (e : Evt) : (s.event e).parts = s.parts := rfl
@[simp] theorem State.event_raised (e : Evt) : (s.event e).raised = s.raised := rfl
@[simp] theorem State.event_frozen (e : Evt) : (s.event e).frozen = s.frozen := rfl
@[simp] theorem State.event_host (e : Evt) : (s.event e).host = s.host := rfl
@[simp] theorem State.event_regs (e : Evt) : (s.event e).regs = s.regs := rfl
@[simp] theorem State.event_nextId (e : Evt) : (s.event e).nextId = s.nextId := rfl
@[simp] theorem State.event_order (e : Evt) : (s.event e).order = s.order := rfl
@[simp] theorem State.event_now (e : Evt) : (s.event e).now = s.now := rfl

@[simp] theorem State.takeRef_agenda (o : RefOwner) (t : TeamId) (k : Nat) (w : Bool) : (s.takeRef o t k w).agenda = s.agenda := rfl
@[simp] theorem State.takeRef_issue (o : RefOwner) (t : TeamId) (k : Nat) (w : Bool) : (s.takeRef o t k w).issue = s.issue := rfl
@[simp] theorem State.takeRef_cur (o : RefOwner) (t : TeamId) (k : Nat) (w : Bool) : (s.takeRef o t k w).cur = s.cur := rfl
@[simp] theorem State.takeRef_tick (o : RefOwner) (t : TeamId) (k : Nat) (w : Bool) : (s.takeRef o t k w).tick = s.tick := rfl
@[simp] theorem State.takeRef_fresh (o : RefOwner) (t : TeamId) (k : Nat) (w : Bool) : (s.takeRef o t k w).fresh = s.fresh := rfl
@[simp] theorem State.takeRef_cores (o : RefOwner) (t : TeamId) (k : Nat) (w : Bool) : (s.takeRef o t k w).cores = s.cores := rfl
@[simp] theorem State.takeRef_l1 (o : RefOwner) (t : TeamId) (k : Nat) (w : Bool) : (s.takeRef o t k w).l1 = s.l1 := rfl
@[simp] theorem State.takeRef_l2 (o : RefOwner) (t : TeamId) (k : Nat) (w : Bool) : (s.takeRef o t k w).l2 = s.l2 := rfl
@[simp] theorem State.takeRef_mer (o : RefOwner) (t : TeamId) (k : Nat) (w : Bool) : (s.takeRef o t k w).mer = s.mer := rfl
@[simp] theorem State.takeRef_mem (o : RefOwner) (t : TeamId) (k : Nat) (w : Bool) : (s.takeRef o t k w).mem = s.mem := rfl
@[simp] theorem State.takeRef_tlb2 (o : RefOwner) (t : TeamId) (k : Nat) (w : Bool) : (s.takeRef o t k w).tlb2 = s.tlb2 := rfl
@[simp] theorem State.takeRef_past (o : RefOwner) (t : TeamId) (k : Nat) (w : Bool) : (s.takeRef o t k w).past = s.past := rfl
@[simp] theorem State.takeRef_errs (o : RefOwner) (t : TeamId) (k : Nat) (w : Bool) : (s.takeRef o t k w).errs = s.errs := rfl
@[simp] theorem State.takeRef_reloads (o : RefOwner) (t : TeamId) (k : Nat) (w : Bool) : (s.takeRef o t k w).reloads = s.reloads := rfl
@[simp] theorem State.takeRef_poison (o : RefOwner) (t : TeamId) (k : Nat) (w : Bool) : (s.takeRef o t k w).poison = s.poison := rfl
@[simp] theorem State.takeRef_lost (o : RefOwner) (t : TeamId) (k : Nat) (w : Bool) : (s.takeRef o t k w).lost = s.lost := rfl
@[simp] theorem State.takeRef_lags (o : RefOwner) (t : TeamId) (k : Nat) (w : Bool) : (s.takeRef o t k w).lags = s.lags := rfl
@[simp] theorem State.takeRef_seen (o : RefOwner) (t : TeamId) (k : Nat) (w : Bool) : (s.takeRef o t k w).seen = s.seen := rfl
@[simp] theorem State.takeRef_teams (o : RefOwner) (t : TeamId) (k : Nat) (w : Bool) : (s.takeRef o t k w).teams = s.teams := rfl
@[simp] theorem State.takeRef_warps (o : RefOwner) (t : TeamId) (k : Nat) (w : Bool) : (s.takeRef o t k w).warps = s.warps := rfl
@[simp] theorem State.takeRef_copies (o : RefOwner) (t : TeamId) (k : Nat) (w : Bool) : (s.takeRef o t k w).copies = s.copies := rfl
@[simp] theorem State.takeRef_mmas (o : RefOwner) (t : TeamId) (k : Nat) (w : Bool) : (s.takeRef o t k w).mmas = s.mmas := rfl
@[simp] theorem State.takeRef_takes (o : RefOwner) (t : TeamId) (k : Nat) (w : Bool) : (s.takeRef o t k w).takes = s.takes := rfl
@[simp] theorem State.takeRef_recalls (o : RefOwner) (t : TeamId) (k : Nat) (w : Bool) : (s.takeRef o t k w).recalls = s.recalls := rfl
@[simp] theorem State.takeRef_flights (o : RefOwner) (t : TeamId) (k : Nat) (w : Bool) : (s.takeRef o t k w).flights = s.flights := rfl
@[simp] theorem State.takeRef_replies (o : RefOwner) (t : TeamId) (k : Nat) (w : Bool) : (s.takeRef o t k w).replies = s.replies := rfl
@[simp] theorem State.takeRef_faultQ (o : RefOwner) (t : TeamId) (k : Nat) (w : Bool) : (s.takeRef o t k w).faultQ = s.faultQ := rfl
@[simp] theorem State.takeRef_msgs (o : RefOwner) (t : TeamId) (k : Nat) (w : Bool) : (s.takeRef o t k w).msgs = s.msgs := rfl
@[simp] theorem State.takeRef_toks (o : RefOwner) (t : TeamId) (k : Nat) (w : Bool) : (s.takeRef o t k w).toks = s.toks := rfl
@[simp] theorem State.takeRef_colls (o : RefOwner) (t : TeamId) (k : Nat) (w : Bool) : (s.takeRef o t k w).colls = s.colls := rfl
@[simp] theorem State.takeRef_ctxs (o : RefOwner) (t : TeamId) (k : Nat) (w : Bool) : (s.takeRef o t k w).ctxs = s.ctxs := rfl
@[simp] theorem State.takeRef_launches (o : RefOwner) (t : TeamId) (k : Nat) (w : Bool) : (s.takeRef o t k w).launches = s.launches := rfl
@[simp] theorem State.takeRef_parts (o : RefOwner) (t : TeamId) (k : Nat) (w : Bool) : (s.takeRef o t k w).parts = s.parts := rfl
@[simp] theorem State.takeRef_raised (o : RefOwner) (t : TeamId) (k : Nat) (w : Bool) : (s.takeRef o t k w).raised = s.raised := rfl
@[simp] theorem State.takeRef_frozen (o : RefOwner) (t : TeamId) (k : Nat) (w : Bool) : (s.takeRef o t k w).frozen = s.frozen := rfl
@[simp] theorem State.takeRef_fw (o : RefOwner) (t : TeamId) (k : Nat) (w : Bool) : (s.takeRef o t k w).fw = s.fw := rfl
@[simp] theorem State.takeRef_host (o : RefOwner) (t : TeamId) (k : Nat) (w : Bool) : (s.takeRef o t k w).host = s.host := rfl
@[simp] theorem State.takeRef_regs (o : RefOwner) (t : TeamId) (k : Nat) (w : Bool) : (s.takeRef o t k w).regs = s.regs := rfl
@[simp] theorem State.takeRef_nextId (o : RefOwner) (t : TeamId) (k : Nat) (w : Bool) : (s.takeRef o t k w).nextId = s.nextId := rfl
@[simp] theorem State.takeRef_order (o : RefOwner) (t : TeamId) (k : Nat) (w : Bool) : (s.takeRef o t k w).order = s.order := rfl
@[simp] theorem State.takeRef_now (o : RefOwner) (t : TeamId) (k : Nat) (w : Bool) : (s.takeRef o t k w).now = s.now := rfl

@[simp] theorem State.takeRegion_agenda (o : RefOwner) (c lo hi : Nat) : (s.takeRegion o c lo hi).agenda = s.agenda := rfl
@[simp] theorem State.takeRegion_issue (o : RefOwner) (c lo hi : Nat) : (s.takeRegion o c lo hi).issue = s.issue := rfl
@[simp] theorem State.takeRegion_cur (o : RefOwner) (c lo hi : Nat) : (s.takeRegion o c lo hi).cur = s.cur := rfl
@[simp] theorem State.takeRegion_tick (o : RefOwner) (c lo hi : Nat) : (s.takeRegion o c lo hi).tick = s.tick := rfl
@[simp] theorem State.takeRegion_fresh (o : RefOwner) (c lo hi : Nat) : (s.takeRegion o c lo hi).fresh = s.fresh := rfl
@[simp] theorem State.takeRegion_cores (o : RefOwner) (c lo hi : Nat) : (s.takeRegion o c lo hi).cores = s.cores := rfl
@[simp] theorem State.takeRegion_l1 (o : RefOwner) (c lo hi : Nat) : (s.takeRegion o c lo hi).l1 = s.l1 := rfl
@[simp] theorem State.takeRegion_l2 (o : RefOwner) (c lo hi : Nat) : (s.takeRegion o c lo hi).l2 = s.l2 := rfl
@[simp] theorem State.takeRegion_mer (o : RefOwner) (c lo hi : Nat) : (s.takeRegion o c lo hi).mer = s.mer := rfl
@[simp] theorem State.takeRegion_mem (o : RefOwner) (c lo hi : Nat) : (s.takeRegion o c lo hi).mem = s.mem := rfl
@[simp] theorem State.takeRegion_tlb2 (o : RefOwner) (c lo hi : Nat) : (s.takeRegion o c lo hi).tlb2 = s.tlb2 := rfl
@[simp] theorem State.takeRegion_past (o : RefOwner) (c lo hi : Nat) : (s.takeRegion o c lo hi).past = s.past := rfl
@[simp] theorem State.takeRegion_errs (o : RefOwner) (c lo hi : Nat) : (s.takeRegion o c lo hi).errs = s.errs := rfl
@[simp] theorem State.takeRegion_reloads (o : RefOwner) (c lo hi : Nat) : (s.takeRegion o c lo hi).reloads = s.reloads := rfl
@[simp] theorem State.takeRegion_poison (o : RefOwner) (c lo hi : Nat) : (s.takeRegion o c lo hi).poison = s.poison := rfl
@[simp] theorem State.takeRegion_lost (o : RefOwner) (c lo hi : Nat) : (s.takeRegion o c lo hi).lost = s.lost := rfl
@[simp] theorem State.takeRegion_lags (o : RefOwner) (c lo hi : Nat) : (s.takeRegion o c lo hi).lags = s.lags := rfl
@[simp] theorem State.takeRegion_seen (o : RefOwner) (c lo hi : Nat) : (s.takeRegion o c lo hi).seen = s.seen := rfl
@[simp] theorem State.takeRegion_teams (o : RefOwner) (c lo hi : Nat) : (s.takeRegion o c lo hi).teams = s.teams := rfl
@[simp] theorem State.takeRegion_warps (o : RefOwner) (c lo hi : Nat) : (s.takeRegion o c lo hi).warps = s.warps := rfl
@[simp] theorem State.takeRegion_copies (o : RefOwner) (c lo hi : Nat) : (s.takeRegion o c lo hi).copies = s.copies := rfl
@[simp] theorem State.takeRegion_mmas (o : RefOwner) (c lo hi : Nat) : (s.takeRegion o c lo hi).mmas = s.mmas := rfl
@[simp] theorem State.takeRegion_takes (o : RefOwner) (c lo hi : Nat) : (s.takeRegion o c lo hi).takes = s.takes := rfl
@[simp] theorem State.takeRegion_recalls (o : RefOwner) (c lo hi : Nat) : (s.takeRegion o c lo hi).recalls = s.recalls := rfl
@[simp] theorem State.takeRegion_flights (o : RefOwner) (c lo hi : Nat) : (s.takeRegion o c lo hi).flights = s.flights := rfl
@[simp] theorem State.takeRegion_replies (o : RefOwner) (c lo hi : Nat) : (s.takeRegion o c lo hi).replies = s.replies := rfl
@[simp] theorem State.takeRegion_faultQ (o : RefOwner) (c lo hi : Nat) : (s.takeRegion o c lo hi).faultQ = s.faultQ := rfl
@[simp] theorem State.takeRegion_msgs (o : RefOwner) (c lo hi : Nat) : (s.takeRegion o c lo hi).msgs = s.msgs := rfl
@[simp] theorem State.takeRegion_toks (o : RefOwner) (c lo hi : Nat) : (s.takeRegion o c lo hi).toks = s.toks := rfl
@[simp] theorem State.takeRegion_colls (o : RefOwner) (c lo hi : Nat) : (s.takeRegion o c lo hi).colls = s.colls := rfl
@[simp] theorem State.takeRegion_ctxs (o : RefOwner) (c lo hi : Nat) : (s.takeRegion o c lo hi).ctxs = s.ctxs := rfl
@[simp] theorem State.takeRegion_launches (o : RefOwner) (c lo hi : Nat) : (s.takeRegion o c lo hi).launches = s.launches := rfl
@[simp] theorem State.takeRegion_parts (o : RefOwner) (c lo hi : Nat) : (s.takeRegion o c lo hi).parts = s.parts := rfl
@[simp] theorem State.takeRegion_raised (o : RefOwner) (c lo hi : Nat) : (s.takeRegion o c lo hi).raised = s.raised := rfl
@[simp] theorem State.takeRegion_frozen (o : RefOwner) (c lo hi : Nat) : (s.takeRegion o c lo hi).frozen = s.frozen := rfl
@[simp] theorem State.takeRegion_fw (o : RefOwner) (c lo hi : Nat) : (s.takeRegion o c lo hi).fw = s.fw := rfl
@[simp] theorem State.takeRegion_host (o : RefOwner) (c lo hi : Nat) : (s.takeRegion o c lo hi).host = s.host := rfl
@[simp] theorem State.takeRegion_regs (o : RefOwner) (c lo hi : Nat) : (s.takeRegion o c lo hi).regs = s.regs := rfl
@[simp] theorem State.takeRegion_nextId (o : RefOwner) (c lo hi : Nat) : (s.takeRegion o c lo hi).nextId = s.nextId := rfl
@[simp] theorem State.takeRegion_order (o : RefOwner) (c lo hi : Nat) : (s.takeRegion o c lo hi).order = s.order := rfl
@[simp] theorem State.takeRegion_now (o : RefOwner) (c lo hi : Nat) : (s.takeRegion o c lo hi).now = s.now := rfl

@[simp] theorem State.answer_agenda (st : W8) : (s.answer st).agenda = s.agenda := rfl
@[simp] theorem State.answer_issue (st : W8) : (s.answer st).issue = s.issue := rfl
@[simp] theorem State.answer_cur (st : W8) : (s.answer st).cur = s.cur := rfl
@[simp] theorem State.answer_tick (st : W8) : (s.answer st).tick = s.tick := rfl
@[simp] theorem State.answer_fresh (st : W8) : (s.answer st).fresh = s.fresh := rfl
@[simp] theorem State.answer_cores (st : W8) : (s.answer st).cores = s.cores := rfl
@[simp] theorem State.answer_l1 (st : W8) : (s.answer st).l1 = s.l1 := rfl
@[simp] theorem State.answer_l2 (st : W8) : (s.answer st).l2 = s.l2 := rfl
@[simp] theorem State.answer_mer (st : W8) : (s.answer st).mer = s.mer := rfl
@[simp] theorem State.answer_mem (st : W8) : (s.answer st).mem = s.mem := rfl
@[simp] theorem State.answer_tlb2 (st : W8) : (s.answer st).tlb2 = s.tlb2 := rfl
@[simp] theorem State.answer_past (st : W8) : (s.answer st).past = s.past := rfl
@[simp] theorem State.answer_errs (st : W8) : (s.answer st).errs = s.errs := rfl
@[simp] theorem State.answer_reloads (st : W8) : (s.answer st).reloads = s.reloads := rfl
@[simp] theorem State.answer_poison (st : W8) : (s.answer st).poison = s.poison := rfl
@[simp] theorem State.answer_lost (st : W8) : (s.answer st).lost = s.lost := rfl
@[simp] theorem State.answer_lags (st : W8) : (s.answer st).lags = s.lags := rfl
@[simp] theorem State.answer_seen (st : W8) : (s.answer st).seen = s.seen := rfl
@[simp] theorem State.answer_teams (st : W8) : (s.answer st).teams = s.teams := rfl
@[simp] theorem State.answer_warps (st : W8) : (s.answer st).warps = s.warps := rfl
@[simp] theorem State.answer_refs (st : W8) : (s.answer st).refs = s.refs := rfl
@[simp] theorem State.answer_copies (st : W8) : (s.answer st).copies = s.copies := rfl
@[simp] theorem State.answer_mmas (st : W8) : (s.answer st).mmas = s.mmas := rfl
@[simp] theorem State.answer_takes (st : W8) : (s.answer st).takes = s.takes := rfl
@[simp] theorem State.answer_recalls (st : W8) : (s.answer st).recalls = s.recalls := rfl
@[simp] theorem State.answer_flights (st : W8) : (s.answer st).flights = s.flights := rfl
@[simp] theorem State.answer_replies (st : W8) : (s.answer st).replies = s.replies := rfl
@[simp] theorem State.answer_faultQ (st : W8) : (s.answer st).faultQ = s.faultQ := rfl
@[simp] theorem State.answer_msgs (st : W8) : (s.answer st).msgs = s.msgs := rfl
@[simp] theorem State.answer_toks (st : W8) : (s.answer st).toks = s.toks := rfl
@[simp] theorem State.answer_colls (st : W8) : (s.answer st).colls = s.colls := rfl
@[simp] theorem State.answer_ctxs (st : W8) : (s.answer st).ctxs = s.ctxs := rfl
@[simp] theorem State.answer_launches (st : W8) : (s.answer st).launches = s.launches := rfl
@[simp] theorem State.answer_parts (st : W8) : (s.answer st).parts = s.parts := rfl
@[simp] theorem State.answer_raised (st : W8) : (s.answer st).raised = s.raised := rfl
@[simp] theorem State.answer_frozen (st : W8) : (s.answer st).frozen = s.frozen := rfl
@[simp] theorem State.answer_regs (st : W8) : (s.answer st).regs = s.regs := rfl
@[simp] theorem State.answer_nextId (st : W8) : (s.answer st).nextId = s.nextId := rfl
@[simp] theorem State.answer_order (st : W8) : (s.answer st).order = s.order := rfl
@[simp] theorem State.answer_now (st : W8) : (s.answer st).now = s.now := rfl

@[simp] theorem State.completion_agenda (c : Completion) : (s.completion c).agenda = s.agenda := rfl
@[simp] theorem State.completion_issue (c : Completion) : (s.completion c).issue = s.issue := rfl
@[simp] theorem State.completion_cur (c : Completion) : (s.completion c).cur = s.cur := rfl
@[simp] theorem State.completion_tick (c : Completion) : (s.completion c).tick = s.tick := rfl
@[simp] theorem State.completion_fresh (c : Completion) : (s.completion c).fresh = s.fresh := rfl
@[simp] theorem State.completion_cores (c : Completion) : (s.completion c).cores = s.cores := rfl
@[simp] theorem State.completion_l1 (c : Completion) : (s.completion c).l1 = s.l1 := rfl
@[simp] theorem State.completion_l2 (c : Completion) : (s.completion c).l2 = s.l2 := rfl
@[simp] theorem State.completion_mer (c : Completion) : (s.completion c).mer = s.mer := rfl
@[simp] theorem State.completion_mem (c : Completion) : (s.completion c).mem = s.mem := rfl
@[simp] theorem State.completion_tlb2 (c : Completion) : (s.completion c).tlb2 = s.tlb2 := rfl
@[simp] theorem State.completion_past (c : Completion) : (s.completion c).past = s.past := rfl
@[simp] theorem State.completion_errs (c : Completion) : (s.completion c).errs = s.errs := rfl
@[simp] theorem State.completion_reloads (c : Completion) : (s.completion c).reloads = s.reloads := rfl
@[simp] theorem State.completion_poison (c : Completion) : (s.completion c).poison = s.poison := rfl
@[simp] theorem State.completion_lost (c : Completion) : (s.completion c).lost = s.lost := rfl
@[simp] theorem State.completion_lags (c : Completion) : (s.completion c).lags = s.lags := rfl
@[simp] theorem State.completion_seen (c : Completion) : (s.completion c).seen = s.seen := rfl
@[simp] theorem State.completion_teams (c : Completion) : (s.completion c).teams = s.teams := rfl
@[simp] theorem State.completion_warps (c : Completion) : (s.completion c).warps = s.warps := rfl
@[simp] theorem State.completion_refs (c : Completion) : (s.completion c).refs = s.refs := rfl
@[simp] theorem State.completion_copies (c : Completion) : (s.completion c).copies = s.copies := rfl
@[simp] theorem State.completion_mmas (c : Completion) : (s.completion c).mmas = s.mmas := rfl
@[simp] theorem State.completion_takes (c : Completion) : (s.completion c).takes = s.takes := rfl
@[simp] theorem State.completion_recalls (c : Completion) : (s.completion c).recalls = s.recalls := rfl
@[simp] theorem State.completion_flights (c : Completion) : (s.completion c).flights = s.flights := rfl
@[simp] theorem State.completion_replies (c : Completion) : (s.completion c).replies = s.replies := rfl
@[simp] theorem State.completion_faultQ (c : Completion) : (s.completion c).faultQ = s.faultQ := rfl
@[simp] theorem State.completion_msgs (c : Completion) : (s.completion c).msgs = s.msgs := rfl
@[simp] theorem State.completion_toks (c : Completion) : (s.completion c).toks = s.toks := rfl
@[simp] theorem State.completion_colls (c : Completion) : (s.completion c).colls = s.colls := rfl
@[simp] theorem State.completion_ctxs (c : Completion) : (s.completion c).ctxs = s.ctxs := rfl
@[simp] theorem State.completion_launches (c : Completion) : (s.completion c).launches = s.launches := rfl
@[simp] theorem State.completion_parts (c : Completion) : (s.completion c).parts = s.parts := rfl
@[simp] theorem State.completion_raised (c : Completion) : (s.completion c).raised = s.raised := rfl
@[simp] theorem State.completion_frozen (c : Completion) : (s.completion c).frozen = s.frozen := rfl
@[simp] theorem State.completion_fw (c : Completion) : (s.completion c).fw = s.fw := rfl
@[simp] theorem State.completion_regs (c : Completion) : (s.completion c).regs = s.regs := rfl
@[simp] theorem State.completion_nextId (c : Completion) : (s.completion c).nextId = s.nextId := rfl
@[simp] theorem State.completion_order (c : Completion) : (s.completion c).order = s.order := rfl
@[simp] theorem State.completion_now (c : Completion) : (s.completion c).now = s.now := rfl

@[simp] theorem State.newId_agenda : s.newId.1.agenda = s.agenda := rfl
@[simp] theorem State.newId_issue : s.newId.1.issue = s.issue := rfl
@[simp] theorem State.newId_cur : s.newId.1.cur = s.cur := rfl
@[simp] theorem State.newId_tick : s.newId.1.tick = s.tick := rfl
@[simp] theorem State.newId_fresh : s.newId.1.fresh = s.fresh := rfl
@[simp] theorem State.newId_cores : s.newId.1.cores = s.cores := rfl
@[simp] theorem State.newId_l1 : s.newId.1.l1 = s.l1 := rfl
@[simp] theorem State.newId_l2 : s.newId.1.l2 = s.l2 := rfl
@[simp] theorem State.newId_mer : s.newId.1.mer = s.mer := rfl
@[simp] theorem State.newId_mem : s.newId.1.mem = s.mem := rfl
@[simp] theorem State.newId_tlb2 : s.newId.1.tlb2 = s.tlb2 := rfl
@[simp] theorem State.newId_past : s.newId.1.past = s.past := rfl
@[simp] theorem State.newId_errs : s.newId.1.errs = s.errs := rfl
@[simp] theorem State.newId_reloads : s.newId.1.reloads = s.reloads := rfl
@[simp] theorem State.newId_poison : s.newId.1.poison = s.poison := rfl
@[simp] theorem State.newId_lost : s.newId.1.lost = s.lost := rfl
@[simp] theorem State.newId_lags : s.newId.1.lags = s.lags := rfl
@[simp] theorem State.newId_seen : s.newId.1.seen = s.seen := rfl
@[simp] theorem State.newId_teams : s.newId.1.teams = s.teams := rfl
@[simp] theorem State.newId_warps : s.newId.1.warps = s.warps := rfl
@[simp] theorem State.newId_refs : s.newId.1.refs = s.refs := rfl
@[simp] theorem State.newId_copies : s.newId.1.copies = s.copies := rfl
@[simp] theorem State.newId_mmas : s.newId.1.mmas = s.mmas := rfl
@[simp] theorem State.newId_takes : s.newId.1.takes = s.takes := rfl
@[simp] theorem State.newId_recalls : s.newId.1.recalls = s.recalls := rfl
@[simp] theorem State.newId_flights : s.newId.1.flights = s.flights := rfl
@[simp] theorem State.newId_replies : s.newId.1.replies = s.replies := rfl
@[simp] theorem State.newId_faultQ : s.newId.1.faultQ = s.faultQ := rfl
@[simp] theorem State.newId_msgs : s.newId.1.msgs = s.msgs := rfl
@[simp] theorem State.newId_toks : s.newId.1.toks = s.toks := rfl
@[simp] theorem State.newId_colls : s.newId.1.colls = s.colls := rfl
@[simp] theorem State.newId_ctxs : s.newId.1.ctxs = s.ctxs := rfl
@[simp] theorem State.newId_launches : s.newId.1.launches = s.launches := rfl
@[simp] theorem State.newId_parts : s.newId.1.parts = s.parts := rfl
@[simp] theorem State.newId_raised : s.newId.1.raised = s.raised := rfl
@[simp] theorem State.newId_frozen : s.newId.1.frozen = s.frozen := rfl
@[simp] theorem State.newId_fw : s.newId.1.fw = s.fw := rfl
@[simp] theorem State.newId_host : s.newId.1.host = s.host := rfl
@[simp] theorem State.newId_regs : s.newId.1.regs = s.regs := rfl
@[simp] theorem State.newId_order : s.newId.1.order = s.order := rfl
@[simp] theorem State.newId_now : s.newId.1.now = s.now := rfl
@[simp] theorem State.newId_nextId : s.newId.1.nextId = s.nextId + 1 := rfl
@[simp] theorem State.newId_snd : s.newId.2 = s.nextId := rfl

@[simp] theorem State.newOrder_agenda : s.newOrder.1.agenda = s.agenda := rfl
@[simp] theorem State.newOrder_issue : s.newOrder.1.issue = s.issue := rfl
@[simp] theorem State.newOrder_cur : s.newOrder.1.cur = s.cur := rfl
@[simp] theorem State.newOrder_tick : s.newOrder.1.tick = s.tick := rfl
@[simp] theorem State.newOrder_fresh : s.newOrder.1.fresh = s.fresh := rfl
@[simp] theorem State.newOrder_cores : s.newOrder.1.cores = s.cores := rfl
@[simp] theorem State.newOrder_l1 : s.newOrder.1.l1 = s.l1 := rfl
@[simp] theorem State.newOrder_l2 : s.newOrder.1.l2 = s.l2 := rfl
@[simp] theorem State.newOrder_mer : s.newOrder.1.mer = s.mer := rfl
@[simp] theorem State.newOrder_mem : s.newOrder.1.mem = s.mem := rfl
@[simp] theorem State.newOrder_tlb2 : s.newOrder.1.tlb2 = s.tlb2 := rfl
@[simp] theorem State.newOrder_past : s.newOrder.1.past = s.past := rfl
@[simp] theorem State.newOrder_errs : s.newOrder.1.errs = s.errs := rfl
@[simp] theorem State.newOrder_reloads : s.newOrder.1.reloads = s.reloads := rfl
@[simp] theorem State.newOrder_poison : s.newOrder.1.poison = s.poison := rfl
@[simp] theorem State.newOrder_lost : s.newOrder.1.lost = s.lost := rfl
@[simp] theorem State.newOrder_lags : s.newOrder.1.lags = s.lags := rfl
@[simp] theorem State.newOrder_seen : s.newOrder.1.seen = s.seen := rfl
@[simp] theorem State.newOrder_teams : s.newOrder.1.teams = s.teams := rfl
@[simp] theorem State.newOrder_warps : s.newOrder.1.warps = s.warps := rfl
@[simp] theorem State.newOrder_refs : s.newOrder.1.refs = s.refs := rfl
@[simp] theorem State.newOrder_copies : s.newOrder.1.copies = s.copies := rfl
@[simp] theorem State.newOrder_mmas : s.newOrder.1.mmas = s.mmas := rfl
@[simp] theorem State.newOrder_takes : s.newOrder.1.takes = s.takes := rfl
@[simp] theorem State.newOrder_recalls : s.newOrder.1.recalls = s.recalls := rfl
@[simp] theorem State.newOrder_flights : s.newOrder.1.flights = s.flights := rfl
@[simp] theorem State.newOrder_replies : s.newOrder.1.replies = s.replies := rfl
@[simp] theorem State.newOrder_faultQ : s.newOrder.1.faultQ = s.faultQ := rfl
@[simp] theorem State.newOrder_msgs : s.newOrder.1.msgs = s.msgs := rfl
@[simp] theorem State.newOrder_toks : s.newOrder.1.toks = s.toks := rfl
@[simp] theorem State.newOrder_colls : s.newOrder.1.colls = s.colls := rfl
@[simp] theorem State.newOrder_ctxs : s.newOrder.1.ctxs = s.ctxs := rfl
@[simp] theorem State.newOrder_launches : s.newOrder.1.launches = s.launches := rfl
@[simp] theorem State.newOrder_parts : s.newOrder.1.parts = s.parts := rfl
@[simp] theorem State.newOrder_raised : s.newOrder.1.raised = s.raised := rfl
@[simp] theorem State.newOrder_frozen : s.newOrder.1.frozen = s.frozen := rfl
@[simp] theorem State.newOrder_fw : s.newOrder.1.fw = s.fw := rfl
@[simp] theorem State.newOrder_host : s.newOrder.1.host = s.host := rfl
@[simp] theorem State.newOrder_regs : s.newOrder.1.regs = s.regs := rfl
@[simp] theorem State.newOrder_nextId : s.newOrder.1.nextId = s.nextId := rfl
@[simp] theorem State.newOrder_now : s.newOrder.1.now = s.now := rfl
@[simp] theorem State.newOrder_order : s.newOrder.1.order = s.order + 1 := rfl
@[simp] theorem State.newOrder_snd : s.newOrder.2 = s.order := rfl

/-! ### What the updates change -/

theorem State.setWarp_warps (w : WarpId) (f : Warp → Warp) :
    (s.setWarp w f).warps = s.warps.map fun x => if x.id == w then f x else x := rfl
theorem State.setTeam_teams (t : TeamId) (f : Team → Team) :
    (s.setTeam t f).teams = s.teams.map fun x => if x.id == t then f x else x := rfl
theorem State.setLaunch_launches (l : LaunchId) (f : Launch → Launch) :
    (s.setLaunch l f).launches = s.launches.map fun x => if x.id == l then f x else x := rfl
@[simp] theorem State.raise_raised (f : Stop) : (s.raise f).raised = s.raised ++ [f] := rfl
@[simp] theorem State.answer_status (st : W8) : (s.answer st).host.status = st := rfl
@[simp] theorem State.answer_ring (st : W8) : (s.answer st).host.ring = 0 := rfl

/-- Finding in a list changed at one key, by a function that keeps keys. -/
theorem find?_map_key {α κ : Type} [BEq κ] [LawfulBEq κ] (key : α → κ) (k j : κ) (f : α → α) (hf : ∀ a, key (f a) = key a) (l : List α) :
    (l.map fun a => if key a == k then f a else a).find? (fun a => key a == j) =
      (l.find? fun a => key a == j).map fun a => if j == k then f a else a := by
  induction l with
  | nil => rfl
  | cons a l ih =>
    rw [List.map_cons, List.find?_cons, List.find?_cons]
    have hk : key (if key a == k then f a else a) = key a := by split <;> simp [hf]
    rw [hk]
    by_cases h : (key a == j) = true
    · have hj : key a = j := eq_of_beq h
      subst hj
      simp
    · simp only [h]
      exact ih

/-- A warp after an update that keeps ids. -/
theorem State.setWarp_warp? (w v : WarpId) (f : Warp → Warp) (hf : ∀ x, (f x).id = x.id) :
    (s.setWarp w f).warp? v = (s.warp? v).map fun x => if v == w then f x else x :=
  find?_map_key Warp.id w v f hf s.warps

/-- A warp after a change of a warp's block. -/
theorem State.setRun_warp? (w v : WarpId) (f : Run → Run) :
    (s.setRun w f).warp? v = (s.warp? v).map fun x => if v == w then { x with run := x.run.map f } else x :=
  s.setWarp_warp? w v _ fun _ => rfl

/-- A team after an update that keeps ids. -/
theorem State.setTeam_team? (t u : TeamId) (f : Team → Team) (hf : ∀ x, (f x).id = x.id) :
    (s.setTeam t f).team? u = (s.team? u).map fun x => if u == t then f x else x :=
  find?_map_key Team.id t u f hf s.teams

/-- A launch after an update that keeps ids. -/
theorem State.setLaunch_launch? (l k : LaunchId) (f : Launch → Launch) (hf : ∀ x, (f x).id = x.id) :
    (s.setLaunch l f).launch? k = (s.launch? k).map fun x => if k == l then f x else x :=
  find?_map_key Launch.id l k f hf s.launches

/-- A context after an update that keeps numbers. -/
theorem State.setCtx_ctx? (c k : Nat) (f : Ctx → Ctx) (hf : ∀ x, (f x).num = x.num) :
    (s.setCtx c f).ctx? k = (s.ctx? k).map fun x => if k == c then f x else x :=
  find?_map_key Ctx.num c k f hf s.ctxs

/-- A message after an update that keeps ids. -/
theorem State.setMsg_msg? (id k : Nat) (f : Msg → Msg) (hf : ∀ x, (f x).id = x.id) :
    (s.setMsg id f).msg? k = (s.msg? k).map fun x => if k == id then f x else x :=
  find?_map_key Msg.id id k f hf s.msgs

/-- Two changes of one block are one. -/
theorem State.setRun_setRun (w : WarpId) (f g : Run → Run) : (s.setRun w f).setRun w g = s.setRun w fun r => g (f r) := by
  simp only [State.setRun, State.setWarp, List.map_map, State.mk.injEq, true_and, and_true]
  apply List.map_congr_left
  intro x _
  by_cases h : x.id = w
  · have hw : (x.id == w) = true := beq_iff_eq.mpr h
    simp only [Function.comp_def, hw, if_true, Option.map_map]
  · simp [h]

/-- A found warp has the id it was sought by. -/
theorem State.warp?_id {s : State} {w : WarpId} {x : Warp} (h : s.warp? w = some x) : x.id = w := by
  simpa using List.find?_some h

/-- A found team has the id it was sought by. -/
theorem State.team?_id {s : State} {t : TeamId} {x : Team} (h : s.team? t = some x) : x.id = t := by
  simpa using List.find?_some h

/-- Each step of a fold keeps what every function of it keeps. -/
theorem foldl_keeps {α β : Type} (P : β → Prop) (f : β → α → β) (h : ∀ b a, P b → P (f b a)) (l : List α) (b : β) (hb : P b) :
    P (l.foldl f b) := by
  induction l generalizing b with
  | nil => exact hb
  | cons a l ih => exact ih _ (h b a hb)

end Sys2Proof.Machine
end

