-- ==== Sys2Proof/Laws/Cache.lean ====
section
/-! SUPPORT. Everything an access to memory can change: the caches, memory, its errors and poison, with memory's form kept. -/
namespace Sys2Proof.Machine

/-- The machine but for its caches, memory, errors and poison, what engines have seen, and the counters and choices these use. -/
def State.rest (s : State) : State :=
  { s with l1 := [], l2 := [], mer := [], mem := [], poison := [], errs := [], lost := [], lags := [], seen := [], fresh := 0
           regs := { s.regs with counters := [] } }

/-- `t` differs from `s` in those at most, and its memory is in canonical form if that of `s` is. -/
def CacheStep (s t : State) : Prop := t.rest = s.rest ∧ (s.mem.wf = true → t.mem.wf = true)

theorem CacheStep.refl (s : State) : CacheStep s s := ⟨rfl, id⟩

theorem CacheStep.trans {s t u : State} (h : CacheStep s t) (k : CacheStep t u) : CacheStep s u :=
  ⟨k.1.trans h.1, fun w => k.2 (h.2 w)⟩

/-- What does not touch the memory system is the same after a cache step. -/
theorem CacheStep.same {s t : State} (h : CacheStep s t) {α : Type} (f : State → α) (hf : ∀ x : State, f x = f x.rest) : f t = f s := by
  rw [hf t, hf s, h.1]

theorem CacheStep.foldl {α : Type} {f : State → α → State} (h : ∀ s a, CacheStep s (f s a)) (l : List α) (s : State) :
    CacheStep s (l.foldl f s) :=
  foldl_keeps (CacheStep s) f (fun _ a hb => hb.trans (h _ a)) l s (.refl s)

/-! ### Errors and poison -/

theorem State.bump_step (s : State) (off bits : Nat) : CacheStep s (s.bump off bits) := ⟨rfl, id⟩

theorem State.correct_step (s : State) (gs : List Granule) : CacheStep s (s.correct gs) := by
  unfold State.correct
  split
  · exact .refl s
  · refine CacheStep.foldl (fun s g => ?_) _ s
    split
    · exact ⟨rfl, id⟩
    · exact .refl s

theorem State.fix_step (s : State) (p : Place) (pa n : Nat) : CacheStep s (s.fix p pa n) := by
  unfold State.fix
  split
  · exact .refl s
  · exact s.correct_step _

theorem State.replaced_step (s : State) (p : Place) (pa n : Nat) : CacheStep s (s.replaced p pa n) := by
  unfold State.replaced
  split
  · exact .refl s
  · exact ⟨rfl, id⟩

theorem State.carry_step (s : State) (src dst : Place) (ln : Nat) (m : LineMask) : CacheStep s (s.carry src dst ln m) := by
  unfold State.carry
  split
  · exact .refl s
  · exact ⟨rfl, id⟩

theorem State.forget_step (s : State) (p : Place) (ln : Nat) : CacheStep s (s.forget p ln) := s.replaced_step _ _ _

theorem State.mark_step (s : State) (p : Place) (pa code : Nat) : CacheStep s (s.mark p pa code) := by
  unfold State.mark
  split
  · exact .refl s
  · exact ⟨rfl, id⟩

/-! ### Copies of a line -/

theorem State.dirtyHome_step (s : State) (ln : Nat) : CacheStep s (s.dirtyHome ln) := ⟨rfl, id⟩

theorem State.dropLags_step (s : State) (pa n : Nat) : CacheStep s (s.dropLags pa n) := by
  unfold State.dropLags
  split
  · exact .refl s
  · exact ⟨rfl, id⟩

theorem State.unsee_step (s : State) (die ln : Nat) : CacheStep s (s.unsee die ln) := by
  unfold State.unsee
  split
  · exact .refl s
  · exact ⟨rfl, id⟩

theorem State.seeAt_step (s : State) (die owner ln : Nat) : CacheStep s (s.seeAt die owner ln) := by
  unfold State.seeAt
  split
  · exact .refl s
  · exact ⟨rfl, id⟩

theorem State.homeWrite_step (s : State) (ln : Nat) (d : Line) (m : LineMask) : CacheStep s (s.homeWrite ln d m) := by
  refine ⟨rfl, fun h => ?_⟩
  refine foldl_keeps (fun a : Mem => a.wf = true) _ (fun a j ha => ?_) _ _ h
  split
  · exact Mem.wf_cset ha _ _
  · exact ha

theorem State.putL1_step (s : State) (x : L1Line) : CacheStep s (s.putL1 x) := ⟨rfl, id⟩
theorem State.putL2_step (s : State) (x : L2Line) : CacheStep s (s.putL2 x) := ⟨rfl, id⟩
theorem State.dropL1_step (s : State) (c ln : Nat) : CacheStep s (s.dropL1 c ln) := (s.forget_step (.l1 c) ln).trans ⟨rfl, id⟩
theorem State.dropL2_step (s : State) (d ln : Nat) : CacheStep s (s.dropL2 d ln) :=
  ((s.forget_step (.l2 d) ln).trans (State.unsee_step _ d ln)).trans ⟨rfl, id⟩

theorem State.sendHome_step (s : State) (x : L2Line) (m : LineMask) : CacheStep s (s.sendHome x m) :=
  (((s.fix_step _ _ _).trans (State.homeWrite_step _ _ _ _)).trans (State.carry_step _ _ _ _ _)).trans (State.unsee_step _ _ _)

theorem State.writeBackL1_step (s : State) (core ln : Nat) : CacheStep s (s.writeBackL1 core ln) := by
  unfold State.writeBackL1
  split
  · exact .refl s
  · split
    · exact .refl s
    · exact (((s.fix_step _ _ _).trans (State.carry_step _ _ _ _ _)).trans (State.putL1_step _ _)).trans (State.putL2_step _ _)

theorem State.recallL1s_step (s : State) (die ln : Nat) (drop : Bool) : CacheStep s (s.recallL1s die ln drop) := by
  refine CacheStep.foldl (fun s c => ?_) _ s
  simp only
  split
  · exact (s.writeBackL1_step c ln).trans (State.dropL1_step _ _ _)
  · exact s.writeBackL1_step c ln

theorem State.mergeMarks_step (s : State) (die ln : Nat) : CacheStep s (s.mergeMarks die ln) := by
  unfold State.mergeMarks
  split
  · exact .refl s
  · split
    · exact .refl s
    · dsimp only
      split
      · split
        · exact s.putL2_step _
        · split
          · exact (((((s.putL2_step _).trans (State.recallL1s_step _ _ _ _)).trans (State.fix_step _ _ _ _)).trans
              (State.carry_step _ _ _ _ _)).trans (State.seeAt_step _ _ _ _)).trans (State.putL2_step _ _)
          · exact (s.putL2_step _).trans (State.recallL1s_step _ _ _ _)
      · exact (s.putL2_step _).trans (State.sendHome_step _ _ _)

theorem State.loseLine_step (s : State) (die ln : Nat) : CacheStep s (s.loseLine die ln) := by
  unfold State.loseLine
  refine (s.recallL1s_step die ln true).trans ?_
  dsimp only
  split
  · exact .refl _
  · split
    · exact (State.sendHome_step _ _ _).trans (State.dropL2_step _ _ _)
    · exact (State.mergeMarks_step _ _ _).trans (State.dropL2_step _ _ _)

theorem State.push_step (s : State) (die ln : Nat) : CacheStep s (s.push die ln) := by
  unfold State.push
  split
  · exact .refl s
  · split
    · exact .refl s
    · have h := (s.mergeMarks_step die ln).trans (CacheStep.foldl (fun s d => s.loseLine_step d ln)
        (((s.mergeMarks die ln).holders ln).filter fun d => d != die && some d != (s.mergeMarks die ln).owner? ln) (s.mergeMarks die ln))
      dsimp only
      split
      · exact s.mergeMarks_step die ln
      · split
        · exact h
        · have k := h.trans (State.recallL1s_step _ die ln true)
          split
          · exact (k.trans (State.carry_step _ _ _ _ _)).trans (State.putL2_step _ _)
          · exact k

theorem State.evictLine_step (s : State) (die ln : Nat) : CacheStep s (s.evictLine die ln) :=
  ((s.recallL1s_step die ln true).trans (State.push_step _ _ _)).trans (State.loseLine_step _ _ _)

theorem State.recallAll_step (s : State) (ln : Nat) : CacheStep s (s.recallAll ln) := by
  unfold State.recallAll
  have h := CacheStep.foldl (fun s d => s.loseLine_step d ln) ((s.holders ln).filter fun d => some d != s.owner? ln) s
  dsimp only
  split
  · exact h.trans (State.loseLine_step _ _ _)
  · exact h

/-! ### Room -/

theorem State.merBack_step (d : Bool) (s : State) (ln : Nat) :
    CacheStep s (if d then (s.fix .mer (128 * ln) 128).carry .mer .hbm ln wholeLine else s) := by
  cases d
  · exact .refl s
  · exact (s.fix_step _ _ _).trans (State.carry_step _ _ _ _ _)

theorem State.merGone_step (s : State) (ln : Nat) (f : State → List MerLine) : CacheStep s { s.forget .mer ln with mer := f s } :=
  (s.forget_step .mer ln).trans ⟨rfl, id⟩

theorem State.merEvict_step (s : State) (ln : Nat) : CacheStep s (s.merEvict ln) := by
  unfold State.merEvict
  refine (s.recallAll_step ln).trans ?_
  generalize s.recallAll ln = u
  dsimp only
  split
  · exact .refl _
  · rename_i e _
    generalize u.lost ++ _ = g
    have h : CacheStep u { u with lost := g } := ⟨rfl, id⟩
    exact (h.trans (State.merBack_step e.dirty _ ln)).trans (State.merGone_step _ ln fun s => s.mer.filter fun e => e.line != ln)

theorem State.addMer_step (s : State) (part : Option Nat) (ln way : Nat) (first : Bool) : CacheStep s (s.addMer part ln way first) := by
  unfold State.addMer
  exact ((s.fix_step _ _ _).trans (State.forget_step _ _ _)).trans (CacheStep.trans ⟨rfl, id⟩ (State.carry_step _ _ _ _ _))

theorem State.homeUse_step (s : State) (part : Option Nat) (ln : Nat) (first : Bool) : CacheStep s (s.homeUse part ln first) := by
  unfold State.homeUse
  split
  · exact .refl s
  · dsimp only
    split
    · exact s.addMer_step _ _ _ _
    · split
      · exact (CacheStep.trans (t := { s with fresh := s.fresh + 1 }) ⟨rfl, id⟩ (State.merEvict_step _ _)).trans (State.addMer_step _ _ _ _ _)
      · exact .refl s

theorem State.roomL2_step (s : State) (die ln : Nat) : CacheStep s (s.roomL2 die ln) := by
  unfold State.roomL2
  dsimp only
  split
  · exact .refl s
  · split
    · exact CacheStep.trans (t := { s with fresh := s.fresh + 1 }) ⟨rfl, id⟩ (State.evictLine_step _ _ _)
    · exact .refl s

theorem State.spareL1_step (s : State) (core : Nat) (ls : List L1Line) : CacheStep s (s.spareL1 core ls) := by
  unfold State.spareL1
  split
  · exact (CacheStep.trans (t := { s with fresh := s.fresh + 1 }) ⟨rfl, id⟩ (State.writeBackL1_step _ _ _)).trans (State.dropL1_step _ _ _)
  · exact .refl s

theorem State.roomL1_step (s : State) (core ln : Nat) : CacheStep s (s.roomL1 core ln) := by
  unfold State.roomL1
  split
  · exact .refl s
  · dsimp only
    split
    · exact s.spareL1_step _ _
    · split
      · exact s.spareL1_step _ _
      · exact .refl s

theorem State.roomHint_step (s : State) (core ln : Nat) (hint : BitVec 2) : CacheStep s (s.roomHint core ln hint) := by
  unfold State.roomHint
  split
  · exact .refl s
  · exact s.roomL1_step _ _

theorem State.trimL1_step (s : State) (core : Nat) : CacheStep s (s.trimL1 core) :=
  CacheStep.foldl (fun s _ => s.spareL1_step core _) _ s

theorem State.makeRoom_step (s : State) (die ln : Nat) : CacheStep s (s.makeRoom die ln) :=
  (s.roomL2_step die ln).trans (State.homeUse_step _ _ _ _)

/-! ### Grants -/

theorem State.supply_step (s : State) (die ln : Nat) : CacheStep s (s.supply die ln) := by
  refine CacheStep.foldl (fun s d => ?_) _ s
  split
  · exact .refl s
  · split
    · split
      · dsimp only
        have h := (s.recallL1s_step d ln false).trans (State.push_step _ d ln)
        split
        · exact h.trans (State.putL2_step _ _)
        · exact h
      · split
        · exact s.recallL1s_step _ _ _
        · split
          · dsimp only
            have h := (s.recallL1s_step d ln false).trans (State.mergeMarks_step _ d ln)
            split
            · exact h.trans (State.putL2_step _ _)
            · exact h
          · exact .refl s
    · exact .refl s

theorem State.takeLine_step (s : State) (die ln : Nat) (st : Moes) : CacheStep s (s.takeLine die ln st) := by
  unfold State.takeLine
  dsimp only
  refine CacheStep.trans ?_ ((State.dropLags_step _ _ _).trans (State.putL2_step _ _))
  split
  · exact .refl s
  · exact ((s.fix_step _ _ _).trans (State.forget_step _ _ _)).trans (State.carry_step _ _ _ _ _)

theorem State.grant_step (s : State) (die ln : Nat) (w : Want) : CacheStep s (s.grant die ln w) := by
  unfold State.grant
  split
  · split
    · split
      · exact .refl s
      · split
        · dsimp only
          split
          · exact (s.push_step _ _).trans (State.putL2_step _ _)
          · exact s.push_step _ _
        · exact (((s.recallL1s_step _ _ _).trans (State.push_step _ _ _)).trans
            (CacheStep.foldl (fun s d => s.loseLine_step d ln) _ _)).trans (State.takeLine_step _ _ _ _)
    · exact ((s.makeRoom_step _ _).trans (State.recallAll_step _ _)).trans (State.takeLine_step _ _ _ _)
  · exact .refl s
  · exact ((s.makeRoom_step _ _).trans (State.supply_step _ _ _)).trans (State.takeLine_step _ _ _ _)

/-! ### Loads and stores -/

theorem State.loadLine_step (s : State) (who : WarpId) (core ln : Nat) (sc : Scope) (hint : BitVec 2) :
    CacheStep s (s.loadLine who core ln sc hint).1 := by
  unfold State.loadLine
  split
  · exact s.putL1_step _
  · have h := ((((s.grant_step (dieOf core) ln (if sc.devUp then .loadDev else .shared)).trans (State.roomHint_step _ core ln hint)).trans
      (State.fix_step _ (.l2 (dieOf core)) (128 * ln) 128)).trans (State.forget_step _ (.l1 core) ln)).trans
      (State.carry_step _ (.l2 (dieOf core)) (.l1 core) ln wholeLine)
    dsimp only
    split
    · exact (((h.trans (State.fix_step _ _ _ _)).trans (State.carry_step _ _ _ _ _)).trans (State.putL1_step _ _)).trans (State.putL1_step _ _)
    · exact h.trans (State.putL1_step _ _)

theorem State.storeLine_step (s : State) (who : WarpId) (core ln : Nat) (sc : Scope) (hint : BitVec 2) (off : Nat)
    (bs : List W8) : CacheStep s (s.storeLine who core ln sc hint off bs) := by
  unfold State.storeLine
  have h := fun l => ((s.grant_step (dieOf core) ln (if sc.devUp then .storeDev else .shared)).trans (State.roomHint_step _ core ln hint)).trans
    (CacheStep.foldl (f := fun s c => (s.writeBackL1 c ln).dropL1 c ln)
      (fun s c => (s.writeBackL1_step c ln).trans (State.dropL1_step _ _ _)) l _)
  exact (((((h _).trans (State.fix_step _ _ _ _)).trans (State.carry_step _ _ _ _ _)).trans (State.replaced_step _ _ _ _)).trans
    (State.putL1_step _ _))

theorem State.atHome_step (s : State) (part : Option Nat) (pa n : Nat) : CacheStep s (s.atHome part pa n) := by
  unfold State.atHome
  split
  · exact CacheStep.foldl (fun s ln => ((s.homeUse_step _ _ _).trans (State.recallAll_step _ _)).trans (State.fix_step _ _ _ _)) _ s
  · exact .refl s

theorem State.setHome_step (s : State) (pa : Nat) (bs : List W8) : CacheStep s (s.setHome pa bs) := by
  unfold State.setHome
  exact (CacheStep.foldl (f := fun s ln => (s.replaced (s.homeAt ln) pa bs.length).dirtyHome ln)
    (fun s ln => (s.replaced_step _ _ _).trans (State.dirtyHome_step _ _)) _ s).trans ⟨rfl, fun h => Mem.wf_wrBytes h _ _⟩

theorem State.homeStore_step (s : State) (part : Option Nat) (pa : Nat) (bs : List W8) : CacheStep s (s.homeStore part pa bs) :=
  ((s.atHome_step _ _ _).trans (State.dropLags_step _ _ _)).trans (State.setHome_step _ _ _)

theorem State.sysWrite_step (s : State) (pa : Nat) (bs : List W8) : CacheStep s (s.sysWrite pa bs) := s.homeStore_step none pa bs

theorem State.coreRead_step (s : State) (who : WarpId) (core : Nat) (nc : Bool) (sc : Scope) (hint : BitVec 2) (pa n : Nat) :
    CacheStep s (s.coreRead who core nc sc hint pa n).1 := by
  have h := (s.fix_step (.l1 core) pa n).trans (State.loadLine_step _ who core (pa / 128) sc hint)
  unfold State.coreRead
  dsimp only
  split
  · exact (s.atHome_step _ _ _).trans (State.dropLags_step _ _ _)
  · dsimp only
    split
    · exact h.trans (State.dropL1_step _ _ _)
    · exact h

theorem State.coreStore_step (s : State) (who : WarpId) (core : Nat) (nc : Bool) (sc : Scope) (hint : BitVec 2) (pa : Nat)
    (bs : List W8) : CacheStep s (s.coreStore who core nc sc hint pa bs) := by
  have h := s.storeLine_step who core (pa / 128) sc hint (pa % 128) bs
  unfold State.coreStore
  split
  · exact ((s.atHome_step _ _ _).trans (State.dropLags_step _ _ _)).trans (State.setHome_step _ _ _)
  · dsimp only
    split
    · exact (h.trans (State.writeBackL1_step _ _ _)).trans (State.dropL1_step _ _ _)
    · exact h

theorem State.sysFix_step (s : State) (pa n : Nat) : CacheStep s (s.sysFix pa n) := by
  unfold State.sysFix
  split
  · exact .refl s
  · refine CacheStep.foldl (fun s ln => ?_) _ s
    split
    · exact (s.recallL1s_step _ _ _).trans (State.fix_step _ _ _ _)
    · exact s.fix_step _ _ _

/-! ### Engines, releases and atomics -/

theorem State.noteRead_step (s : State) (u : Master) (pa : Nat) (x : Source) : CacheStep s (s.noteRead u pa x) := by
  unfold State.noteRead
  dsimp only
  generalize s.lags.map _ = g
  have h : CacheStep s (if s.lags.isEmpty then s else { s with lags := g }) := by
    split
    · exact .refl s
    · exact ⟨rfl, id⟩
  revert h
  generalize (if s.lags.isEmpty then s else { s with lags := g } : State) = u
  intro h
  split
  · split
    · exact h
    · exact h.trans ⟨rfl, id⟩
  · exact h

theorem State.engineRead_step (u : Master) (k : Nat) : ∀ (s : State) (pa : Nat), CacheStep s (s.engineRead u pa k).1 := by
  induction k with
  | zero => exact fun s _ => .refl s
  | succ k ih =>
    intro s pa
    unfold State.engineRead
    split
    · exact .refl s
    · exact ((CacheStep.trans (t := { s with fresh := s.fresh + 1 }) ⟨rfl, id⟩
        (CacheStep.foldl (fun s p => s.fix_step p pa 4) _ _)).trans (State.noteRead_step _ _ _ _)).trans (ih _ _)

theorem State.allocRead_step (s : State) (u : Master) (part : Option Nat) (pol : Nat) (nc : Bool) (pa : Nat) :
    CacheStep s (s.allocRead u part pol nc pa) := by
  unfold State.allocRead
  dsimp only
  split
  · exact .refl s
  · split
    · exact s.homeUse_step _ _ _
    · exact s.homeUse_step _ _ _
    · split
      · exact .refl s
      · have h := fun b d => (s.homeUse_step part (pa / 128) b).trans (State.grant_step _ d (pa / 128) .shared)
        split
        · split
          · exact (h _ _).trans (State.putL2_step _ _)
          · exact h _ _
        · exact h _ _

theorem State.flushL1_step (s : State) (core : Nat) : CacheStep s (s.flushL1 core) :=
  CacheStep.foldl (fun s ln => s.writeBackL1_step core ln) _ s

theorem State.dropStale_step (s : State) (die : Nat) : CacheStep s (s.dropStale die) :=
  CacheStep.foldl (fun s _ => s.evictLine_step _ _) _ s

theorem State.flushL2_step (s : State) (die : Nat) : CacheStep s (s.flushL2 die) :=
  (CacheStep.foldl (fun s ln => s.push_step die ln) _ s).trans (State.dropStale_step _ _)

theorem State.release_step (s : State) (core : Nat) (sc : Scope) : CacheStep s (s.release core sc) := by
  unfold State.release
  cases sc.dieUp <;> cases sc.devUp
  · exact .refl s
  · exact s.flushL2_step _
  · exact s.flushL1_step _
  · exact (s.flushL1_step _).trans (State.flushL2_step _ _)

theorem State.homeOwned_step (s : State) : CacheStep s s.homeOwned :=
  (CacheStep.foldl (fun s _ => s.sendHome_step _ _) _ s).trans ⟨rfl, id⟩

theorem State.flushDies_step (s : State) (ds : List Nat) : CacheStep s (s.flushDies ds) :=
  ((CacheStep.foldl (fun s c => s.flushL1_step c) _ s).trans (CacheStep.foldl (fun s d => s.flushL2_step d) _ _)).trans
    (State.homeOwned_step _)

theorem State.atomicAt_step (s : State) (core : Nat) (nc : Bool) (sc : Scope) (pa n : Nat) (f : List W8 → Option (List W8)) :
    CacheStep s (s.atomicAt core nc sc pa n f).1 := by
  have far : ∀ s : State, CacheStep s
      (match f (rdBytes (s.atHome (s.partNo (dieOf core)) pa n).mem pa n) with
        | some b => (s.atHome (s.partNo (dieOf core)) pa n).setHome pa b
        | none => s.atHome (s.partNo (dieOf core)) pa n) := by
    intro s
    split
    · exact (s.atHome_step _ _ _).trans (State.setHome_step _ _ _)
    · exact s.atHome_step _ _ _
  have near : ∀ (s : State) (mark : Bool), CacheStep s
      (if mark then (s.recallL1s (dieOf core) (pa / 128) true).fix (.l2 (dieOf core)) pa n
        else ((s.recallL1s (dieOf core) (pa / 128) true).fix (.l2 (dieOf core)) pa n).push (dieOf core) (pa / 128)) := by
    intro s mark
    have h := (s.recallL1s_step (dieOf core) (pa / 128) true).trans (State.fix_step _ (.l2 (dieOf core)) pa n)
    cases mark
    · exact h.trans (State.push_step _ _ _)
    · exact h
  have done : ∀ (u : State) (g : L2Line → L2Line) (a : L2Line → List W8), CacheStep u
      (match u.l2? (dieOf core) (pa / 128) with
        | some x => (u.putL2 (g x), a x, false)
        | none => (u, [], false)).1 := by
    intro u g a
    split
    · exact u.putL2_step _
    · exact .refl u
  unfold State.atomicAt
  dsimp only
  split
  · exact far s
  · split
    · exact (s.grant_step (dieOf core) (pa / 128) .shared).trans ((near _ true).trans (done _ _ _))
    · split
      · split
        · exact (near s false).trans (done _ _ _)
        · exact far s
      · exact far s

end Sys2Proof.Machine
end

