-- ==== Sys2Proof/Laws/Encoding.lean ====
section
/-! SUPPORT. Fields of a word and their codes: what was laid out reads back. -/
namespace Sys2Proof

/-- Two fields side by side as a number. -/
theorem append_toNat {n m : Nat} (a : BitVec n) (b : BitVec m) : (a ++ b).toNat = a.toNat * 2 ^ m + b.toNat := by
  rw [BitVec.toNat_append, ← Nat.shiftLeft_add_eq_or_of_lt b.isLt, Nat.shiftLeft_eq]

/-- A field of a word as a number. -/
theorem slice_toNat {n : Nat} (a : BitVec n) (s k : Nat) : (a.extractLsb' s k).toNat = a.toNat / 2 ^ s % 2 ^ k := by
  rw [BitVec.extractLsb'_toNat, Nat.shiftRight_eq_div_pow]

/-- A field wholly in the high part. -/
theorem slice_high {n m : Nat} (a : BitVec n) (b : BitVec m) (s k : Nat) (h : m ≤ s) :
    (a ++ b).extractLsb' s k = a.extractLsb' (s - m) k := by
  apply BitVec.eq_of_getLsbD_eq
  intro i hi
  simp only [BitVec.getLsbD_extractLsb', BitVec.getLsbD_append]
  rw [if_neg (by omega)]
  simp only [hi, decide_true, Bool.true_and]
  congr 1
  omega

/-- A field wholly in the low part. -/
theorem slice_low {n m : Nat} (a : BitVec n) (b : BitVec m) (s k : Nat) (h : s + k ≤ m) :
    (a ++ b).extractLsb' s k = b.extractLsb' s k := by
  apply BitVec.eq_of_getLsbD_eq
  intro i hi
  simp only [BitVec.getLsbD_extractLsb', BitVec.getLsbD_append]
  rw [if_pos (by omega)]

/-- The word of the fields as a number. -/
theorem Raw.toWord_toNat (r : Raw) : r.toWord.toNat =
    ((((((((r.op.toNat * 2 ^ 6 + r.fn.toNat) * 2 ^ 3 + r.ty.toNat) * 2 ^ 2 + r.pr.toNat) * 2 ^ 1 + r.u.toNat) * 2 ^ 4 +
      r.q.toNat) * 2 ^ 8 + r.t0.toNat) * 2 ^ 8 + r.t1.toNat) * 2 ^ 24 + r.low.toNat) := by
  simp only [← append_toNat]; rfl

/-- The fields of the word of the fields. -/
theorem Raw.ofWord_toWord (r : Raw) : Raw.ofWord r.toWord = r := by
  have e := r.toWord_toNat
  have := r.fn.isLt; have := r.ty.isLt; have := r.pr.isLt; have := r.u.isLt; have := r.q.isLt; have := r.t0.isLt
  have := r.t1.isLt; have := r.low.isLt; have := r.op.isLt
  obtain ⟨op, fn, ty, pr, u, q, t0, t1, low⟩ := r
  simp only [Raw.ofWord, Raw.mk.injEq]
  refine ⟨?_, ?_, ?_, ?_, ?_, ?_, ?_, ?_, ?_⟩ <;> apply BitVec.eq_of_toNat_eq <;>
    rw [slice_toNat, e] <;> simp only [Nat.reducePow] at * <;> omega

/-! ### Codes -/

@[simp] theorem Ty.ofBits_bits (x : Ty) : Ty.ofBits x.bits = x := by cases x <;> rfl
@[simp] theorem Pr.ofBits_bits (x : Pr) : Pr.ofBits x.bits = x := by cases x <;> rfl
@[simp] theorem Rm.ofBits_bits (x : Rm) : Rm.ofBits x.bits = x := by cases x <;> rfl
@[simp] theorem Scope.ofBits_bits (x : Scope) : Scope.ofBits x.bits = some x := by cases x <;> rfl
@[simp] theorem Ord.ofBits_bits (x : Ord) : Ord.ofBits x.bits = x := by cases x <;> rfl
@[simp] theorem Am.ofBits_bits (x : Am) : Am.ofBits x.bits = x := by cases x <;> rfl
@[simp] theorem Width.ofBits_bits (x : Width) : Width.ofBits x.bits = some x := by cases x <;> rfl
@[simp] theorem Cond.ofBits_bits (x : Cond) : Cond.ofBits x.bits = some x := by cases x <;> rfl
@[simp] theorem HopOp.ofBits_bits (x : HopOp) : HopOp.ofBits x.bits = some x := by cases x <;> rfl
@[simp] theorem Sub.ofBits_bits (x : Sub) : Sub.ofBits x.bits = x := by cases x <;> rfl
@[simp] theorem FmaOp.ofBits_bits (x : FmaOp) : FmaOp.ofBits x.bits = some x := by cases x <;> rfl
@[simp] theorem SgnOp.ofBits_bits (x : SgnOp) : SgnOp.ofBits x.bits = some x := by cases x <;> rfl
@[simp] theorem FCond.ofBits_bits (x : FCond) : FCond.ofBits x.bits = some x := by cases x <;> rfl
@[simp] theorem Trn.ofBits_bits (x : Trn) : Trn.ofBits x.bits = some x := by cases x <;> rfl
@[simp] theorem Fop2Op.ofBits_bits (x : Fop2Op) : Fop2Op.ofBits x.bits = some x := by cases x <;> rfl
@[simp] theorem FmtCode.ofBits_bits (x : FmtCode) : FmtCode.ofBits x.bits = some x := by cases x <;> rfl
@[simp] theorem QFmt.ofBits_bits (x : QFmt) : QFmt.ofBits x.bits = some x := by cases x <;> rfl
@[simp] theorem ShflOp.ofBits_bits (x : ShflOp) : ShflOp.ofBits x.bits = some x := by cases x <;> rfl
@[simp] theorem VoteOp.ofBits_bits (x : VoteOp) : VoteOp.ofBits x.bits = some x := by cases x <;> rfl
@[simp] theorem Cmb.ofBits_bits (x : Cmb) : Cmb.ofBits x.bits = some x := by cases x <;> rfl
@[simp] theorem Aop.ofBits_bits (x : Aop) : Aop.ofBits x.bits = x := by cases x <;> rfl
@[simp] theorem PrefLvl.ofBits_bits (x : PrefLvl) : PrefLvl.ofBits x.bits = some x := by cases x <;> rfl
@[simp] theorem CctlOp.ofBits_bits (x : CctlOp) : CctlOp.ofBits x.bits = x := by cases x <;> rfl
@[simp] theorem RegQ.ofBits_bits (x : RegQ) : RegQ.ofBits x.bits = some x := by cases x <;> rfl
@[simp] theorem TakeCls.ofBits_bits (x : TakeCls) : TakeCls.ofBits x.bits = some x := by cases x <;> rfl
@[simp] theorem DrainMode.ofBits_bits (x : DrainMode) : DrainMode.ofBits x.bits = some x := by cases x <;> rfl
@[simp] theorem MsgOp.ofBits_bits (x : MsgOp) : MsgOp.ofBits x.bits = some x := by cases x <;> rfl
@[simp] theorem bit_eq_one (b : Bool) : (bit b == 1) = b := by cases b <;> rfl

/-- A predicate's code is never 11. -/
theorem Pr.bits_ne (p : Pr) : (p.bits == 3) = false := by cases p <;> rfl

/-- A target's byte names it, is one R43 accepts, and is 0xFF for no target only. -/
theorem Tgt.ofByte_byte (t : Tgt) : Tgt.ofByte t.byte = t ∧ tgtByteOk t.byte = true ∧ (t.byte = 0xFF ↔ t = .none) := by
  match t with
  | .none => decide
  | .to .left i => revert i; decide
  | .to .right i => revert i; decide
  | .to .third i => revert i; decide
  | .wr n => revert n; decide

/-- A well-formed instruction whose fields decode, with targets in order, is what its word decodes to. -/
theorem decodeRaw_of {i : Instr} {r : Raw} (h : i.wellFormed = true) (hf : r.fields = .ok i) (hp : (r.pr == 3) = false)
    (ht : r.targetsOk i = true) : decodeRaw r = .ok i := by
  simp only [Instr.wellFormed, Bool.and_eq_true] at h
  have hp : ¬ r.pr = 3#2 := by simpa using hp
  simp only [decodeRaw, hf]
  simp [h.1.1.2, h.1.2, hp, ht]

/-- Two targets in order have bytes that R43 and R45 accept. -/
theorem bytes_inOrder {a b : Tgt} (h : tgtsInOrder [a, b] = true) :
    ([a.byte, b.byte].all tgtByteOk && inOrder [a.byte, b.byte]) = true := by
  have hb (t : Tgt) : (t.byte == 0xFF) = (t == .none) := by
    have := t.ofByte_byte.2.2
    by_cases h : t = .none
    · subst h; rfl
    · have h2 : ¬ t.byte = 255#8 := fun e => h (this.1 e)
      simp [h, h2]
  simp only [tgtsInOrder] at h
  simp only [List.all_cons, a.ofByte_byte.2.1, b.ofByte_byte.2.1, inOrder, bne, hb, List.all_nil, Bool.and_true, Bool.true_and]
  simpa [bne] using h

end Sys2Proof
end

