-- ==== Sys2Proof/Laws/Exec.lean ====
section
/-! SUPPORT. What exec calls for each instruction, one lemma for each constructor. -/
namespace Sys2Proof.Machine

variable (s : State)

theorem exec_br (pr : Pr) (off : BitVec 24) : exec (.br pr off) s = execBr pr off s := rfl
theorem exec_brc (pr : Pr) (nz : BitVec 24) (z : BitVec 16) : exec (.brc pr nz z) s = execBrc pr nz z s := rfl
theorem exec_brx (pr : Pr) : exec (.brx pr) s = execBrx pr s := rfl
theorem exec_call (pr : Pr) (callee : BitVec 24) (back : BitVec 16) : exec (.call pr callee back) s = execCall pr callee back s := rfl
theorem exec_ret (pr : Pr) : exec (.ret pr) s = execRet pr s := rfl
theorem exec_exit (pr : Pr) : exec (.exit pr) s = execExit pr s := rfl
theorem exec_yield (pr : Pr) (off : BitVec 24) : exec (.yield pr off) s = execYield pr off s := rfl
theorem exec_trap (pr : Pr) (code : BitVec 16) : exec (.trap pr code) s = execTrap pr code s := rfl
theorem exec_bkpt (pr : Pr) (code : BitVec 16) : exec (.bkpt pr code) s = execBkpt pr code s := rfl
theorem exec_null (u : Bool) (t0 : Tgt) (t1 : Tgt) : exec (.null u t0 t1) s = execNull u t0 t1 s := rfl
theorem exec_nullSlot (u : Bool) (ss : BitVec 5) : exec (.nullSlot u ss) s = execNullSlot u ss s := rfl
theorem exec_mov (f : MovF) : exec (.mov f) s = execMov f s := rfl
theorem exec_movi (ty : Ty) (pr : Pr) (u : Bool) (t0 : Tgt) (imm : BitVec 32) : exec (.movi ty pr u t0 imm) s = execMovi ty pr u t0 imm s := rfl
theorem exec_getsr (ty : Ty) (pr : Pr) (u : Bool) (id : BitVec 8) (t0 : Tgt) (t1 : Tgt) : exec (.getsr ty pr u id t0 t1) s = execGetsr ty pr u id t0 t1 s := rfl
theorem exec_sel (f : IntF) : exec (.sel f) s = execSel f s := rfl
theorem exec_add (f : IntF) : exec (.add f) s =
    s.int2 (.add f) f f.ty.wide (ivAdd f.ty f.sat) := rfl
theorem exec_sub (f : IntF) : exec (.sub f) s =
    s.int2 (.sub f) f f.ty.wide (ivSub f.ty f.sat) := rfl
theorem exec_mul (f : IntF) : exec (.mul f) s =
    s.int2 (.mul f) f f.ty.wide (ivMul f.ty f.sat) := rfl
theorem exec_mulh (f : IntF) : exec (.mulh f) s =
    s.int2 (.mulh f) f f.ty.wide (ivMulh f.ty) := rfl
theorem exec_mad (f : IntF) : exec (.mad f) s =
    s.int3 (.mad f) f f.ty.wide (ivMad f.ty f.sat) := rfl
theorem exec_div (f : IntF) : exec (.div f) s =
    s.int2 (.div f) f f.ty.wide (ivDiv f.ty f.sat) := rfl
theorem exec_rem (f : IntF) : exec (.rem f) s =
    s.int2 (.rem f) f f.ty.wide (ivRem f.ty) := rfl
theorem exec_min (f : IntF) : exec (.min f) s =
    s.int2 (.min f) f f.ty.wide (ivMin f.ty) := rfl
theorem exec_max (f : IntF) : exec (.max f) s =
    s.int2 (.max f) f f.ty.wide (ivMax f.ty) := rfl
theorem exec_abs (f : IntF) : exec (.abs f) s =
    s.int1 (.abs f) f f.ty.wide (ivAbs f.ty f.sat) := rfl
theorem exec_neg (f : IntF) : exec (.neg f) s =
    s.int1 (.neg f) f f.ty.wide (ivNeg f.ty f.sat) := rfl
theorem exec_and (f : IntF) : exec (.and f) s =
    s.int2 (.and f) f f.ty.wide (fun a b => a &&& b) := rfl
theorem exec_or (f : IntF) : exec (.or f) s =
    s.int2 (.or f) f f.ty.wide (fun a b => a ||| b) := rfl
theorem exec_xor (f : IntF) : exec (.xor f) s =
    s.int2 (.xor f) f f.ty.wide (fun a b => a ^^^ b) := rfl
theorem exec_andn (f : IntF) : exec (.andn f) s =
    s.int2 (.andn f) f f.ty.wide (fun a b => a &&& ~~~b) := rfl
theorem exec_not (f : IntF) : exec (.not f) s =
    s.int1 (.not f) f f.ty.wide (fun a => f.ty.cut (~~~a)) := rfl
theorem exec_shl (f : IntF) : exec (.shl f) s =
    s.int2 (.shl f) f f.ty.wide (ivShl f.ty f.sat) := rfl
theorem exec_shr (f : IntF) : exec (.shr f) s =
    s.int2 (.shr f) f f.ty.wide (ivShr f.ty) := rfl
theorem exec_sar (f : IntF) : exec (.sar f) s =
    s.int2 (.sar f) f f.ty.wide (ivSar f.ty) := rfl
theorem exec_rol (f : IntF) : exec (.rol f) s =
    s.int2 (.rol f) f f.ty.wide (ivRol f.ty) := rfl
theorem exec_clz (f : IntF) : exec (.clz f) s =
    s.int1 (.clz f) f false (ivClz f.ty) := rfl
theorem exec_popc (f : IntF) : exec (.popc f) s =
    s.int1 (.popc f) f false (ivPopc f.ty) := rfl
theorem exec_brev (f : IntF) : exec (.brev f) s =
    s.int1 (.brev f) f f.ty.wide (ivBrev f.ty) := rfl
theorem exec_bfx (f : IntF) : exec (.bfx f) s =
    s.int2 (.bfx f) f f.ty.wide (ivBfx f.ty) := rfl
theorem exec_bfi (f : IntF) : exec (.bfi f) s =
    s.int3 (.bfi f) f f.ty.wide (ivBfi f.ty) := rfl
theorem exec_cmp (c : Cond) (f : IntF) : exec (.cmp c f) s =
    s.int2 (.cmp c f) f false (ivCmp c f.ty) := rfl
theorem exec_lea (shift : BitVec 3) (f : IntF) : exec (.lea shift f) s =
    s.int2 (.lea shift f) f f.ty.wide (ivLea f.ty shift) := rfl
theorem exec_pk2 (f : IntF) : exec (.pk2 f) s =
    s.int2 (.pk2 f) f f.ty.wide (ivPk2 f.ty) := rfl
theorem exec_exh (half : Bool) (f : IntF) : exec (.exh half f) s =
    s.intOp (.exh half f) f false fun o l => ivExh half f.ty (o.left.to64 f.ty.signed l) := rfl
theorem exec_hop (signed : Bool) (op : HopOp) (f : IntF) : exec (.hop signed op f) s =
    s.int2 (.hop signed op f) f false (ivHop signed op f.sat) := rfl
theorem exec_dp4 (ls : Bool) (rs : Bool) (f : IntF) : exec (.dp4 ls rs f) s =
    s.int3 (.dp4 ls rs f) f false (ivDp4 ls rs f.sat) := rfl
theorem exec_ld (f : MemF) : exec (.ld f) s = execLd f s := rfl
theorem exec_st (f : MemF) : exec (.st f) s = execSt f s := rfl
theorem exec_lds (f : MemF) : exec (.lds f) s = execLds f s := rfl
theorem exec_sts (f : MemF) : exec (.sts f) s = execSts f s := rfl
theorem exec_ldk (f : MemF) : exec (.ldk f) s = execLdk f s := rfl
theorem exec_modset (pr : Pr) (m : BitVec 3) (imm : Option (BitVec 24)) : exec (.modset pr m imm) s = execModset pr m imm s := rfl
theorem exec_fadd (f : FloatF) : exec (.fadd f) s =
    s.float2 (.fadd f) f (fvAdd f) := rfl
theorem exec_fsub (f : FloatF) : exec (.fsub f) s =
    s.float2 (.fsub f) f (fvSub f) := rfl
theorem exec_fmul (f : FloatF) : exec (.fmul f) s =
    s.float2 (.fmul f) f (fvMul f) := rfl
theorem exec_ffma (op : FmaOp) (f : FloatF) : exec (.ffma op f) s =
    s.flagOp (.ffma op f) f.t0 f.t1 false fun o l => fvFma f op (f.opnd o.left l) (f.bBits o l) (f.ty.fbits (o.third.val l)) := rfl
theorem exec_fmin (nan : Bool) (f : FloatF) : exec (.fmin nan f) s =
    s.float2 (.fmin nan f) f (fvMin f nan) := rfl
theorem exec_fmax (nan : Bool) (f : FloatF) : exec (.fmax nan f) s =
    s.float2 (.fmax nan f) f (fvMax f nan) := rfl
theorem exec_fsgn (op : SgnOp) (f : FloatF) : exec (.fsgn op f) s =
    s.flagOp (.fsgn op f) f.t0 f.t1 false fun o l => fvSgn f op (f.opnd o.left l) (f.bSign o l) := rfl
theorem exec_fcmp (c : FCond) (f : FloatF) : exec (.fcmp c f) s =
    s.float2 (.fcmp c f) f (fvCmp c f.ty.fmt) := rfl
theorem exec_frcp (f : FloatF) : exec (.frcp f) s =
    s.float1 (.frcp f) f (fvRcp f) := rfl
theorem exec_frsq (f : FloatF) : exec (.frsq f) s =
    s.float1 (.frsq f) f (fvRsq f) := rfl
theorem exec_ftrn (fn : Trn) (f : FloatF) : exec (.ftrn fn f) s =
    s.float1 (.ftrn fn f) f fun a => fres (Sys2Proof.ftrn fn f.ty.fmt a) := rfl
theorem exec_fscl (f : FloatF) : exec (.fscl f) s =
    s.flagOp (.fscl f) f.t0 f.t1 false fun o l => fvScl f (f.opnd o.left l) (match f.imm with | some v => v.toInt | none => (o.right.val32 l).toInt) := rfl
theorem exec_fcls (src : FmtCode) (pr : Pr) (u : Bool) (mask : Option (BitVec 24)) (t0 : Tgt) (t1 : Tgt) : exec (.fcls src pr u mask t0 t1) s =
    s.flagOp (.fcls src pr u mask t0 t1) t0 t1 false fun o l => (fvCls src mask (o.left.val l), 0) := rfl
theorem exec_cvt (src : FmtCode) (dst : FmtCode) (f : FloatF) : exec (.cvt src dst f) s =
    s.flagOp (.cvt src dst f) f.t0 f.t1 (dst == .int && f.ty.wide) fun o l => fvCvt src dst f (if src == .int then o.left.atTy f.ty l else o.left.val l) := rfl
theorem exec_fdiv (f : FloatF) : exec (.fdiv f) s =
    s.float2 (.fdiv f) f (fvDiv f) := rfl
theorem exec_fop2 (bf : Bool) (op : Fop2Op) (f : FloatF) : exec (.fop2 bf op f) s =
    s.flagOp (.fop2 bf op f) f.t0 f.t1 false fun o l => fvFop2 bf op f (o.left.val l) (o.right.val l) (o.third.val l) := rfl
theorem exec_qmax (f : QuantF) : exec (.qmax f) s = execQmax f s := rfl
theorem exec_qcvt (f : QuantF) : exec (.qcvt f) s = execQcvt f s := rfl
theorem exec_dqcv (f : QuantF) : exec (.dqcv f) s = execDqcv f s := rfl
theorem exec_shfl (op : ShflOp) (f : IntF) : exec (.shfl op f) s = execShfl op f s := rfl
theorem exec_vote (op : VoteOp) (f : IntF) : exec (.vote op f) s = execVote op f s := rfl
theorem exec_bcst (f : IntF) : exec (.bcst f) s = execBcst f s := rfl
theorem exec_scan (ex : Bool) (f : ScanF) : exec (.scan ex f) s = execScan ex f s := rfl
theorem exec_wred (f : ScanF) : exec (.wred f) s = execWred f s := rfl
theorem exec_fsend (pv : Bool) (pr : Pr) (rel : Bool) : exec (.fsend pv pr rel) s = execFsend pv pr rel s := rfl
theorem exec_frecv (pv : Bool) (pr : Pr) (acq : Bool) (t0 : Tgt) (t1 : Tgt) : exec (.frecv pv pr acq t0 t1) s = execFrecv pv pr acq t0 t1 s := rfl
theorem exec_fpeek (pv : Bool) (pr : Pr) (t0 : Tgt) (t1 : Tgt) : exec (.fpeek pv pr t0 t1) s = execFpeek pv pr t0 t1 s := rfl
theorem exec_atom (f : AtomF) : exec (.atom f) s = execAtom f s := rfl
theorem exec_fence (pr : Pr) (sc : Scope) (ord : Ord) : exec (.fence pr sc ord) s = execFence pr sc ord s := rfl
theorem exec_fencex (pr : Pr) (from' : BitVec 5) (to' : BitVec 5) : exec (.fencex pr from' to') s = execFencex pr from' to' s := rfl
theorem exec_pref (pr : Pr) (lvl : PrefLvl) (sc : Scope) (imm : BitVec 14) : exec (.pref pr lvl sc imm) s = execPref pr lvl sc imm s := rfl
theorem exec_cctl (pr : Pr) (op : CctlOp) (imm : BitVec 14) : exec (.cctl pr op imm) s = execCctl pr op imm s := rfl
theorem exec_regrel (pr : Pr) (first : BitVec 8) (cntm : BitVec 8) : exec (.regrel pr first cntm) s = execRegrel pr first cntm s := rfl
theorem exec_regclm (pr : Pr) (t0 : Tgt) (t1 : Tgt) : exec (.regclm pr t0 t1) s = execRegclm pr t0 t1 s := rfl
theorem exec_regqry (pr : Pr) (q : RegQ) (t0 : Tgt) (t1 : Tgt) : exec (.regqry pr q t0 t1) s = execRegqry pr q t0 t1 s := rfl
theorem exec_bararv (pr : Pr) (bar : BitVec 5) (cntm : BitVec 5) : exec (.bararv pr bar cntm) s = execBararv pr bar cntm s := rfl
theorem exec_barwt (pr : Pr) (bar : BitVec 5) : exec (.barwt pr bar) s = execBarwt pr bar s := rfl
theorem exec_barsyn (pr : Pr) (bar : BitVec 5) (cntm : BitVec 5) : exec (.barsyn pr bar cntm) s = execBarsyn pr bar cntm s := rfl
theorem exec_ttake (f : TakeF) : exec (.ttake f) s = execTtake f s := rfl
theorem exec_tgive (pr : Pr) (tid : BitVec 6) : exec (.tgive pr tid) s = execTgive pr tid s := rfl
theorem exec_sdone (pr : Pr) (sum : Bool) (tid : BitVec 6) : exec (.sdone pr sum tid) s = execSdone pr sum tid s := rfl
theorem exec_srefu (pr : Pr) (tid : BitVec 6) : exec (.srefu pr tid) s = execSrefu pr tid s := rfl
theorem exec_tarm (pr : Pr) (tid : BitVec 6) (count : BitVec 16) : exec (.tarm pr tid count) s = execTarm pr tid count s := rfl
theorem exec_tstat (pr : Pr) (tid : BitVec 6) (t0 : Tgt) (t1 : Tgt) : exec (.tstat pr tid t0 t1) s = execTstat pr tid t0 t1 s := rfl
theorem exec_tclr (pr : Pr) (tid : BitVec 6) : exec (.tclr pr tid) s = execTclr pr tid s := rfl
theorem exec_mma (f : MmaF) : exec (.mma f) s = execMma f s := rfl
theorem exec_azero (pr : Pr) (spl : Bool) (tid : BitVec 6) : exec (.azero pr spl tid) s = execAzero pr spl tid s := rfl
theorem exec_adrn (f : DrainF) : exec (.adrn f) s = execAdrn f s := rfl
theorem exec_aload (pr : Pr) (img : Bool) (tid : BitVec 6) (tds : BitVec 6) : exec (.aload pr img tid tds) s = execAload pr img tid tds s := rfl
theorem exec_agset (pr : Pr) (nb : Bool) (ag : BitVec 2) : exec (.agset pr nb ag) s = execAgset pr nb ag s := rfl
theorem exec_gang (pr : Pr) (base : BitVec 5) (mask : BitVec 24) : exec (.gang pr base mask) s = execGang pr base mask s := rfl
theorem exec_tdset (pr : Pr) (idx : BitVec 6) : exec (.tdset pr idx) s = execTdset pr idx s := rfl
theorem exec_tdget (pr : Pr) (idx : BitVec 6) (t0 : Tgt) (t1 : Tgt) : exec (.tdget pr idx t0 t1) s = execTdget pr idx t0 t1 s := rfl
theorem exec_send (pr : Pr) (msg : MsgOp) (lp : Bool) : exec (.send pr msg lp) s = execSend pr msg lp s := rfl
theorem exec_waitr (pr : Pr) (spad : Bool) (t0 : Tgt) (t1 : Tgt) : exec (.waitr pr spad t0 t1) s = execWaitr pr spad t0 t1 s := rfl
theorem exec_pollr (pr : Pr) (spad : Bool) (t0 : Tgt) (t1 : Tgt) : exec (.pollr pr spad t0 t1) s = execPollr pr spad t0 t1 s := rfl
theorem exec_blockStart (w : WarpId) : exec (.blockStart w) s = execBlockStart w s := rfl
theorem exec_prefetchBlock (w : WarpId) (va : W64) : exec (.prefetchBlock w va) s = execPrefetchBlock w va s := rfl
theorem exec_blockCommit (w : WarpId) : exec (.blockCommit w) s = execBlockCommit w s := rfl
theorem exec_rowReturn (w : WarpId) (reg : Nat) : exec (.rowReturn w reg) s = execRowReturn w reg s := rfl
theorem exec_stopRequest (core : Nat) (l : LaunchId) : exec (.stopRequest core l) s = execStopRequest core l s := rfl
theorem exec_copyBegin (id : Nat) : exec (.copyBegin id) s = execCopyBegin id s := rfl
theorem exec_copyComplete (id : Nat) : exec (.copyComplete id) s = execCopyComplete id s := rfl
theorem exec_overlayFillBegin (id : Nat) : exec (.overlayFillBegin id) s = execOverlayFillBegin id s := rfl
theorem exec_overlayFillComplete (id : Nat) : exec (.overlayFillComplete id) s = execOverlayFillComplete id s := rfl
theorem exec_mmaComplete (id : Nat) : exec (.mmaComplete id) s = execMmaComplete id s := rfl
theorem exec_mmaStart (id : Nat) : exec (.mmaStart id) s = execMmaStart id s := rfl
theorem exec_powerRateSet (core : Nat) (quarters : Nat) (depth : Nat) : exec (.powerRateSet core quarters depth) s = execPowerRateSet core quarters depth s := rfl
theorem exec_neighbourEntryArrive (id : Nat) : exec (.neighbourEntryArrive id) s = execNeighbourEntryArrive id s := rfl
theorem exec_atomicReply (id : Nat) : exec (.atomicReply id) s = execAtomicReply id s := rfl
theorem exec_issueClock (core : Nat) : exec (.issueClock core) s = execIssueClock core s := rfl
theorem exec_urgencyEvaluation (t : TeamId) : exec (.urgencyEvaluation t) s = execUrgencyEvaluation t s := rfl
theorem exec_poolScrub (w : WarpId) (reg : Nat) : exec (.poolScrub w reg) s = execPoolScrub w reg s := rfl
theorem exec_codeRegionReload (g : Granule) : exec (.codeRegionReload g) s = execCodeRegionReload g s := rfl
theorem exec_flitReplay (port : Nat) (fails : Nat) (pa : Nat) : exec (.flitReplay port fails pa) s = execFlitReplay port fails pa s := rfl
theorem exec_frozenMaster (m : Master) : exec (.frozenMaster m) s = execFrozenMaster m s := rfl
theorem exec_lineEviction (die : Nat) (core : Option Nat) (line : Nat) : exec (.lineEviction die core line) s = execLineEviction die core line s := rfl
theorem exec_pushApply (die : Nat) (line : Nat) : exec (.pushApply die line) s = execPushApply die line s := rfl
theorem exec_sparseTokenArrive (id : Nat) (pick : Nat) : exec (.sparseTokenArrive id pick) s = execSparseTokenArrive id pick s := rfl
theorem exec_copyMessage (id : Nat) : exec (.copyMessage id) s = execCopyMessage id s := rfl
theorem exec_copym (id : Nat) (team : Nat) : exec (.copym id team) s = execCopym id team s := rfl
theorem exec_copymShareAbandon (id : Nat) (team : Nat) : exec (.copymShareAbandon id team) s = execCopymShareAbandon id team s := rfl
theorem exec_fillb (id : Nat) : exec (.fillb id) s = execFillb id s := rfl
theorem exec_scatr (id : Nat) : exec (.scatr id) s = execScatr id s := rfl
theorem exec_gathr (id : Nat) : exec (.gathr id) s = execGathr id s := rfl
theorem exec_coll (id : Nat) : exec (.coll id) s = execColl id s := rfl
theorem exec_collTimeout (id : Nat) : exec (.collTimeout id) s = execCollTimeout id s := rfl
theorem exec_messageComplete (id : Nat) : exec (.messageComplete id) s = execMessageComplete id s := rfl
theorem exec_replyMatch (w : WarpId) (idx : Nat) : exec (.replyMatch w idx) s = execReplyMatch w idx s := rfl
theorem exec_teamPlace (l : LaunchId) (core : Nat) : exec (.teamPlace l core) s = execTeamPlace l core s := rfl
theorem exec_teamRetire (t : TeamId) : exec (.teamRetire t) s = execTeamRetire t s := rfl
theorem exec_launchComplete (l : LaunchId) : exec (.launchComplete l) s = execLaunchComplete l s := rfl
theorem exec_recallQueued (core : Nat) : exec (.recallQueued core) s = execRecallQueued core s := rfl
theorem exec_surrenderRoutineStart (w : WarpId) : exec (.surrenderRoutineStart w) s = execSurrenderRoutineStart w s := rfl
theorem exec_routineForcedEnd (w : WarpId) : exec (.routineForcedEnd w) s = execRoutineForcedEnd w s := rfl
theorem exec_launchPacket (p : PktId) : exec (.launchPacket p) s = execLaunchPacket p s := rfl
theorem exec_yieldDeadlineExpiry (l : LaunchId) : exec (.yieldDeadlineExpiry l) s = execYieldDeadlineExpiry l s := rfl
theorem exec_checkpointSave (l : LaunchId) : exec (.checkpointSave l) s = execCheckpointSave l s := rfl
theorem exec_launchResume (l : LaunchId) (core : Nat) : exec (.launchResume l core) s = execLaunchResume l core s := rfl
theorem exec_copyPacket (p : PktId) : exec (.copyPacket p) s = execCopyPacket p s := rfl
theorem exec_writemem (p : PktId) : exec (.writemem p) s = execWritemem p s := rfl
theorem exec_waitmem (p : PktId) : exec (.waitmem p) s = execWaitmem p s := rfl
theorem exec_waitmemReread (p : PktId) : exec (.waitmemReread p) s = execWaitmemReread p s := rfl
theorem exec_tokenPacket (p : PktId) : exec (.tokenPacket p) s = execTokenPacket p s := rfl
theorem exec_fencePacket (p : PktId) : exec (.fencePacket p) s = execFencePacket p s := rfl
theorem exec_packetPop (ctx : Nat) (queue : Nat) : exec (.packetPop ctx queue) s = execPacketPop ctx queue s := rfl
theorem exec_packetComplete (p : PktId) : exec (.packetComplete p) s = execPacketComplete p s := rfl
theorem exec_firmwareEventTake (fw : Nat) : exec (.firmwareEventTake fw) s = execFirmwareEventTake fw s := rfl
theorem exec_doorbell (ctx : Nat) (queue : Nat) (off : W64) : exec (.doorbell ctx queue off) s = execDoorbell ctx queue off s := rfl
theorem exec_hostPostedWrite (off : Nat) (bytes : List W8) (attr : TlpAttr) : exec (.hostPostedWrite off bytes attr) s = execHostPostedWrite off bytes attr s := rfl
theorem exec_routeAcknowledge (id : Nat) (die : Nat) : exec (.routeAcknowledge id die) s = execRouteAcknowledge id die s := rfl
theorem exec_hostRead (off : Nat) (len : Nat) : exec (.hostRead off len) s = execHostRead off len s := rfl
theorem exec_hostAtomicop (op : HostAop) (wide : Bool) (off : Nat) (a : W64) (b : W64) : exec (.hostAtomicop op wide off a b) s = execHostAtomicop op wide off a b s := rfl
theorem exec_functionLevelReset : exec .functionLevelReset s = execFunctionLevelReset s := rfl
theorem exec_counterRead (off : Nat) : exec (.counterRead off) s = execCounterRead off s := rfl
theorem exec_registerWrite (off : Nat) (val : W64) : exec (.registerWrite off val) s = execRegisterWrite off val s := rfl
theorem exec_ctxset : exec .ctxset s = execCtxset s := rfl
theorem exec_qset : exec .qset s = execQset s := rfl
theorem exec_qreset : exec .qreset s = execQreset s := rfl
theorem exec_qresume : exec .qresume s = execQresume s := rfl
theorem exec_tlbinv : exec .tlbinv s = execTlbinv s := rfl
theorem exec_fresume : exec .fresume s = execFresume s := rfl
theorem exec_fdeny : exec .fdeny s = execFdeny s := rfl
theorem exec_codeinv : exec .codeinv s = execCodeinv s := rfl
theorem exec_haltrel : exec .haltrel s = execHaltrel s := rfl
theorem exec_partset : exec .partset s = execPartset s := rfl
theorem exec_partreset : exec .partreset s = execPartreset s := rfl
theorem exec_activate : exec .activate s = execActivate s := rfl
theorem exec_service : exec .service s = execService s := rfl
theorem exec_deviceReset : exec .deviceReset s = execDeviceReset s := rfl
theorem exec_haltRaise : exec .haltRaise s = execHaltRaise s := rfl
theorem exec_unitStop (part : Nat) (m : Master) : exec (.unitStop part m) s = execUnitStop part m s := rfl
theorem exec_haltFlush (part : Nat) : exec (.haltFlush part) s = execHaltFlush part s := rfl
theorem exec_softError (g : Granule) (double : Bool) : exec (.softError g double) s = execSoftError g double s := rfl
theorem exec_memoryTrainingComplete : exec .memoryTrainingComplete s = execMemoryTrainingComplete s := rfl
theorem exec_linkEqualisationComplete : exec .linkEqualisationComplete s = execLinkEqualisationComplete s := rfl
theorem exec_collectiveMemberJoin (ctx : Nat) (grp : Nat) (k : Nat) (rank : Nat) (op : W32) (count : Nat) (data : List W32) : exec (.collectiveMemberJoin ctx grp k rank op count data) s = execCollectiveMemberJoin ctx grp k rank op count data s := rfl
theorem exec_nativeCodeCacheEviction (core : Nat) (ctx : Nat) (va : W64) : exec (.nativeCodeCacheEviction core ctx va) s = execNativeCodeCacheEviction core ctx va s := rfl

end Sys2Proof.Machine
end

