-- ==== Sys2Proof/Laws/Firing.lean ====
section
/-! SUPPORT. What an instruction that may fire does: one lemma for each shape of a meaning. -/
namespace Sys2Proof.Machine

/-- The issue of an instruction that may fire is found. -/
theorem issuing_of_fires {s : State} {i : Instr} {x : Issue} (h : Fires s i x) : s.issuing i = some x := by
  obtain ⟨hc, hw, hr, hf, hd, ha⟩ := h
  unfold State.issuing
  simp only [hc, hw, hr, hf, ha, Bool.true_and, Bool.not_false, Bool.and_true]
  rw [if_pos (by simpa using hd)]

/-- Only an instruction that may fire is found. -/
theorem fires_of_issuing {s : State} {i : Instr} {x : Issue} (h : s.issuing i = some x) : Fires s i x := by
  unfold State.issuing at h
  split at h
  · rename_i w k hc
    split at h
    · rename_i y hw
      split at h
      · rename_i r hr
        split at h
        · rename_i hg
          simp only [Option.some.injEq] at h
          subst h
          have hid : y.id = w := by
            have := List.find?_some hw
            simpa using this
          simp only [Bool.and_eq_true, bne_iff_ne, ne_eq, Bool.not_eq_true'] at hg
          exact ⟨by simp [hid, hc], by simpa [hid] using hw, hr, hg.1.1, hg.1.2, hg.2⟩
        · cases h
      · cases h
    · cases h
  · cases h

/-- A meaning over `firing` acts where its instruction may fire. -/
theorem firing_eq {s : State} {i : Instr} {x : Issue} (h : Fires s i x) (f : Issue → State) : s.firing i f = .next (f x) := by
  simp [State.firing, issuing_of_fires h]

/-- Where its instruction may not fire, a meaning over `firing` changes nothing. -/
theorem firing_none {s : State} {i : Instr} (h : s.issuing i = none) (f : Issue → State) : s.firing i f = .next s := by
  simp [State.firing, h]

/-- A meaning over `firing` always answers a next state. -/
theorem firing_next (s : State) (i : Instr) (f : Issue → State) : ∃ t, s.firing i f = .next t := by
  unfold State.firing
  split <;> exact ⟨_, rfl⟩

/-- An instruction of values only delivers its token. -/
theorem pure_delivers {s : State} {i : Instr} {x : Issue} {ts : List Tgt} {f : Issue → Token × Flags}
    (he : exec i s = s.pure i ts f) (h : Fires s i x) : Delivers s i x ts (f x).1 (f x).2 := by
  unfold Delivers
  rw [he, State.pure, firing_eq h]
  rfl

/-- An integer instruction completes with the value of its function on each lane. -/
theorem intOp_completes {s : State} {i : Instr} {f : IntF} {wide : Bool} {g : Opnds → Nat → W64} {P : Issue → Nat → W64 → Prop}
    (he : exec i s = s.intOp i f wide g) (hp : ∀ x l, P x l (g x.o l)) : IntCompletes s i f wide P := by
  intro x h
  exact ⟨g x.o, pure_delivers he h, hp x⟩

/-- An integer instruction of one operand completes with the value of its function. -/
theorem int1_completes {s : State} {i : Instr} {f : IntF} {wide : Bool} {g : W64 → W64} {P : Issue → Nat → W64 → Prop}
    (he : exec i s = s.int1 i f wide g) (hp : ∀ x l, P x l (g (x.o.left.atTy f.ty l))) : IntCompletes s i f wide P := by
  intro x h
  exact ⟨fun l => g (x.o.left.atTy f.ty l), pure_delivers he h, hp x⟩

/-- An integer instruction of two operands completes with the value of its function. -/
theorem int2_completes {s : State} {i : Instr} {f : IntF} {wide : Bool} {g : W64 → W64 → W64} {P : Issue → Nat → W64 → Prop}
    (he : exec i s = s.int2 i f wide g) (hp : ∀ x l, P x l (g (x.o.left.atTy f.ty l) (f.b x.o l))) :
    IntCompletes s i f wide P := by
  intro x h
  exact ⟨fun l => g (x.o.left.atTy f.ty l) (f.b x.o l), pure_delivers he h, hp x⟩

/-- An integer instruction of three operands completes with the value of its function. -/
theorem int3_completes {s : State} {i : Instr} {f : IntF} {wide : Bool} {g : W64 → W64 → W64 → W64}
    {P : Issue → Nat → W64 → Prop} (he : exec i s = s.int3 i f wide g)
    (hp : ∀ x l, P x l (g (x.o.left.atTy f.ty l) (f.b x.o l) (x.o.third.atTy f.ty l))) : IntCompletes s i f wide P := by
  intro x h
  exact ⟨fun l => g (x.o.left.atTy f.ty l) (f.b x.o l) (x.o.third.atTy f.ty l), pure_delivers he h, hp x⟩

/-- A float instruction of one operand completes with the value and flags of its function. -/
theorem float1_completes {s : State} {i : Instr} {f : FloatF} {g : Nat → FRes} (he : exec i s = s.float1 i f g) :
    FloatCompletes s i f.t0 f.t1 false (fun x l => g (f.opnd x.o.left l)) := by
  intro x h
  exact pure_delivers he h

/-- A float instruction of two operands completes with the value and flags of its function. -/
theorem float2_completes {s : State} {i : Instr} {f : FloatF} {g : Nat → Nat → FRes} (he : exec i s = s.float2 i f g) :
    FloatCompletes s i f.t0 f.t1 false (fun x l => g (f.opnd x.o.left l) (f.bBits x.o l)) := by
  intro x h
  exact pure_delivers he h

/-- A float instruction completes with the value and flags of its function. -/
theorem flagOp_completes {s : State} {i : Instr} {t0 t1 : Tgt} {wide : Bool} {g : Opnds → Nat → FRes}
    (he : exec i s = s.flagOp i t0 t1 wide g) : FloatCompletes s i t0 t1 wide (fun x l => g x.o l) := by
  intro x h
  exact pure_delivers he h

/-- A meaning that leaves an effect where its instruction may fire. -/
theorem leaves_of {s : State} {i : Instr} {x : Issue} {e : Eff} {f : Issue → State} (he : exec i s = s.firing i f)
    (h : Fires s i x) (hf : f x = s.leave x e) : Leaves s i x e := by
  unfold Leaves
  rw [he, firing_eq h, hf]
  rfl

end Sys2Proof.Machine
end

