-- ==== Sys2Proof/Laws/Shared.lean ====
section
/-! SUPPORT. What the operations that several meanings share can do: a read made for a context, the order of a block's effects, the
restart of the firmware. -/
namespace Sys2Proof.Machine

/-- A read for a context that meets no poison corrects what it reads and nothing more. -/
theorem State.readFor_clean {s : State} {ctx kind inst pa n : Nat} (h : s.sysMark pa n = none) :
    s.readFor ctx kind inst pa n = s.sysFix pa n := by
  simp [State.readFor, h]

/-- One that meets poison is its context's fault, unless that poison has been raised in the halt already. -/
theorem State.readFor_poison {s : State} {ctx kind inst pa n code : Nat} (h : s.sysMark pa n = some code) :
    s.readFor ctx kind inst pa n =
      if s.toldOf ctx pa then s.sysFix pa n else ((s.sysFix pa n).tell ctx pa).raise (unitStop ctx kind inst code pa) := by
  simp [State.readFor, h]

/-- Ordering a block's effects loses none and adds none. -/
theorem State.effOrder_perm (s : State) (es : List (Nat × Eff)) : (s.effOrder es).Perm es :=
  List.mergeSort_perm _ _

@[simp] theorem State.restart_mem (s : State) (iver : W32) (readable writes : W16) : (s.restart iver readable writes).mem = s.mem := rfl
@[simp] theorem State.restart_teams (s : State) (iver : W32) (readable writes : W16) : (s.restart iver readable writes).teams = s.teams := rfl
@[simp] theorem State.restart_held (s : State) (iver : W32) (readable writes : W16) :
    (s.restart iver readable writes).fw.held = List.replicate 12 none := rfl

end Sys2Proof.Machine
end

