-- ==== Sys2Proof/Safety.lean ====
section
/-! DEFINITION. What counts as a safe run, in the terms claims use. -/
namespace Sys2Proof.Machine

/-- A step that goes on. -/
def Steps (s t : State) : Prop := step s = .next t

/-- A state a run from `s` reaches. -/
inductive Reaches (s : State) : State → Prop where
  | refl : Reaches s s
  | next {t u : State} : Reaches s t → Steps t u → Reaches s u

/-- No machine stop is reachable: faults of the manual are states, so a run goes on. -/
def Safe (s : State) : Prop := ∀ t, Reaches s t → ∃ u, Steps t u

end Sys2Proof.Machine
end

