-- ==== Sys2Proof/Tests/Slice0.lean ====
section
/-! SUPPORT. The model's own tests: words of the manual, ill-formed terms, small single steps worked by hand from the rules, and
for every statement a state and operands that meet its hypotheses. -/
namespace Sys2Proof.Tests

open Sys2Proof Sys2Proof.Machine

set_option Elab.async false

/-! ### Decoding: words the manual writes out -/

def dec (w : W64) : Option Instr := (decode w).toOption

/-- R99's example of a getsr word. -/
theorem test_decode_getsr : dec 0x0D008001FF000000 = some (.getsr .n32 .always false 0 (.to .left 1) .none) := by decide +kernel
theorem test_decode_add : dec 0x100018C2FF000080 = some
    (.add { ty := .i32, pr := .always, u := true, imm := some 128, sat := false, t0 := .wr 2, t1 := .none }) := by decide +kernel
theorem test_decode_call : dec 0x0400000008000020 = some (.call .always 0x20 8) := by decide +kernel
theorem test_decode_st : dec 0x51408CFFFF000000 = some
    (.st { ty := .n32, pr := .always, am := .indexed, width := .b4, sx := false, hint := 0, sc := .warp, ord := .relaxed, ss := 0
           imm := 0, t0 := .none, t1 := .none }) := by decide +kernel
theorem test_decode_ld : dec 0x50408003FF680010 = some
    (.ld { ty := .n32, pr := .always, am := .base, width := .b4, sx := false, hint := 0, sc := .device, ord := .acquire, ss := 0
           imm := 16, t0 := .to .left 3, t1 := .none }) := by decide +kernel
theorem test_decode_fcmp : dec 0x370A0084FF000000 = some
    (.fcmp .lt { sub := .asTy, ty := .f32, pr := .always, u := false, imm := none, sat := false, rm := .rne, t0 := .to .third 4
                 t1 := .none }) := by decide +kernel
theorem test_decode_cvt : dec 0x3D1800C0FF000000 = some
    (.cvt .f32 .int { sub := .asTy, ty := .i32, pr := .always, u := false, imm := none, sat := false, rm := .rne, t0 := .wr 0
                      t1 := .none }) := by decide +kernel
theorem test_decode_qmax : dec 0x402200C2FF000000 = some
    (.qmax { ue5m3 := true, tgt := .e4m3, ty := .f32, pr := .always, u := false, sat := false, rm := .rne, t0 := .wr 2, t1 := .none }) := by
  decide +kernel
theorem test_decode_shfl : dec 0x440C88C0FFFFFFFF = some
    (.shfl .slide { ty := .n32, pr := .always, u := false, imm := some (-1), sat := false, t0 := .wr 0, t1 := .none }) := by
  decide +kernel
theorem test_decode_fsend : dec 0x4C0080FFFF500000 = some (.fsend false .always true) := by decide +kernel
theorem test_decode_frecv : dec 0x4D048001FF480000 = some (.frecv true .always true (.to .left 1) .none) := by decide +kernel
theorem test_decode_cas : dec 0x55E080C0FF680000 = some
    (.atom { aop := .cas, ty := .n32, pr := .always, indexed := false, sc := .device, ord := .acquire, ss := 0, imm := 0
             t0 := .wr 0, t1 := .none }) := by decide +kernel
theorem test_decode_fence : dec 0x560010FFFF700000 = some (.fence .always .device .release) := by decide +kernel
theorem test_decode_fencex : dec 0x570010FFFF000041 = some (.fencex .always 2 1) := by decide +kernel
theorem test_decode_regrel : dec 0x600090FFFF00401B = some (.regrel .always 64 27) := by decide +kernel
theorem test_decode_barsyn : dec 0x650090FFFF000201 = some (.barsyn .always 2 1) := by decide +kernel
theorem test_decode_tarm : dec 0x6A0010FFFF0C0004 = some (.tarm .always 3 4) := by decide +kernel
theorem test_decode_mma : dec 0x70001CFFFF800040 = some
    (.mma { pr := .always, spl := true, gng := true, ks := false, tid := 32, tda := 0, tdb := 1 }) := by decide +kernel
theorem test_decode_adrn : dec 0x720C90FFFF802000 = some
    (.adrn { pr := .always, mode := .gate, tid := 32, tdo := 2, ag := 0, t0 := .none, t1 := .none }) := by decide +kernel
theorem test_decode_gang : dec 0x751098FFFF000007 = some (.gang .always 4 7) := by decide +kernel
theorem test_decode_tdget : dec 0x77008003FF040000 = some (.tdget .always 1 (.to .left 3) .none) := by decide +kernel
theorem test_decode_modset : dec 0x5A0898FFFF001000 = some (.modset .always 2 (some 4096)) := by decide +kernel

/-- An all-zero word has the unassigned opcode 0x00 (R56). -/
theorem test_decode_zero : decode 0 = .error .opcode := by rfl
/-- PR 11 is cause 0x0B (R61). -/
theorem test_decode_pr : decode (0x100018C2FF000080 ||| 0x600000000000) = .error .pred := by rfl
/-- A target byte of kind 11 with an index of 16 is cause 0x0C (R43, R61). -/
theorem test_decode_target : decode 0x100018D0FF000080 = .error .target := by rfl

/-- What `decodeTableWord` reads is what the decoder reads from the word. -/
theorem test_table_word : decodeTableWord 64 0x650090FFFF000201 = some (.barsyn .always 2 1) := by decide +kernel

/-! ### Ill-formed terms, one for each check -/

def gInt : IntF := { ty := .i32, pr := .always, u := false, imm := none, sat := false, t0 := .wr 0, t1 := .none }

/-- A step of the device is no body word. -/
theorem test_wf_step : Instr.wellFormed .deviceReset = false := by decide
/-- AND accepts no SAT (R101). -/
theorem test_wf_field : Instr.wellFormed (.and { gInt with sat := true }) = false := by decide
/-- The third slot of MAD is an operand, so it has no predicate (R44). -/
theorem test_wf_pred : Instr.wellFormed (.mad { gInt with pr := .ifZero }) = false := by decide
/-- No second target without a first (R45). -/
theorem test_wf_order : Instr.wellFormed (.add { gInt with t0 := .none, t1 := .wr 1 }) = false := by decide
/-- An atomic's targets are write slots (R71). -/
theorem test_wf_atom : Instr.wellFormed (.atom { aop := .add, ty := .n32, pr := .always, indexed := false, sc := .device, ord := .relaxed
                                                 ss := 0, imm := 0, t0 := .to .left 1, t1 := .none }) = false := by decide
/-- A base-addressed ST has no target (R45). -/
theorem test_wf_st : Instr.wellFormed (.st { ty := .n32, pr := .always, am := .base, width := .b4, sx := false, hint := 0, sc := .warp
                                             ord := .relaxed, ss := 0, imm := 0, t0 := .wr 0, t1 := .none }) = false := by decide
/-- GANG lists from two to six warps, or none (R216). -/
theorem test_wf_gang : Instr.wellFormed (.gang .always 0 1) = false := by decide
theorem test_wf_good : Instr.wellFormed (.add gInt) = true := by decide

/-! ### A small state -/

def lid : LaunchId := { ctx := 0, num := 0 }
def tid : TeamId := { launch := lid, team := 0 }

/-- Operands: the same 64-bit value on every lane of each slot. -/
def tok (v : W64) : Token := Token.uniform true true v

/-- A block in flight at 0x1000 with one instruction, its slots filled. -/
def run (a b c : Token) : Run :=
  { Run.ofWord 0 with
    va := 0x1000
    nodes := [{ left := some a, right := some b, third := some c, st := .idle, since := 0 }]
    wslots := [{ k := false, reg := 3, tok := none, deferred := false }]
    sslots := [.unfired] }

/-- Its warp, on core 0 with a row limit of 8. -/
def warp (a b c : Token) : Warp :=
  { Warp.begin fetchWarp 0 8 (List.replicate 64 0) 0x1000 with phase := .running, run := some (run a b c) }

/-- A tile of 1 KiB. -/
def tile (n : Nat) (st : TileSt) : Tile := { tid := n, st := st, cnt := 1, off := 1024 * n, size := 1024, lost := false, status := 0 }

/-- A team on core 0: scratchpad tiles 0 empty, 1 ready, 2 draining, an accumulator pair, two barriers. -/
def team : Team :=
  { id := tid, core := 0, spadAt := 0, spad := [(8, 5)]
    tiles := [tile 0 .empty, tile 1 .ready, tile 2 .draining, { tile 32 .ready with off := 0 }, { tile 33 .ready with off := 0 }]
    taken := [], acc := [(32, []), (33, [])], counts := [(0, []), (1, [])]
    bars := List.replicate 2 { phase := false, arrived := 0, count := none, pending := 0 }
    ag := List.replicate 4 { theta := 0, kappa := 0, nb := false }, credit := 16, claims := [], placedAt := 0, ran := 0, gone := [], owed := [] }

/-- A launch of two teams of two warps, chain-placed, one stage, a row limit of 8, 8 KiB of scratchpad. -/
def launch : Launch :=
  { Launch.none with id := lid, desc := [0x80, 0x0004000701000001, 2, 8], placed := 2 }

/-- A context with its rings, tables and a queue in memory. -/
def queue : Queue :=
  { num := 0, base := 0x200000, size := 4096, status := 0x300000, wr := 0, rd := 0, pops := 0, frozen := false, tokens := 0, window := [], evals := 0, eval := 0 }
def ctx : Ctx :=
  { num := 0, part := 0, legend := 0x400000, root := 0x500000, save := 0x600000, saveSize := 0x100000, saveUsed := 0
    fring := { base := 0x700000, log := 4 }, sring := { base := 0x710000, log := 4 }, oring := { base := 0x720000, log := 4 }
    surr := { base := 0x730000, log := 4 }, groups := 0x740000, rlim := 2, dthr := 0, ydl := 0, fseq := 0, sseq := 0, launches := 1, era := 0
    told := [], colls := [], queues := [queue] }

/-- A page of 64 KiB at address 0, read and write, in the TLBs of core 0 and of the memory side. -/
def page : TlbEnt := { ctx := 0, va := 0, bits := 16, pa := 0, w := true, x := true, nc := false }

/-- The state: that warp's instruction issuing on a device in service. -/
def st (a b c : Token) : State :=
  { State.reset with
    cur := some (fetchWarp, 0), warps := [warp a b c], teams := [team], launches := [launch], ctxs := [ctx]
    cores := { Core.reset with tlb := [page] } :: List.replicate 255 Core.reset
    tlb2 := [(4, page)], fw := { State.reset.fw with bringUp := false }, now := 100 }

/-- The issue of its instruction. -/
def iss (a b c : Token) : Issue := { warp := warp a b c, k := 0, run := run a b c }

/-- Every instruction may fire there: each of its three slots holds a token. -/
theorem fires (i : Instr) (a b c : Token) : Fires (st a b c) i (iss a b c) := by
  have no : (run a b c).instr 0 = none := by
    show (decode 0).toOption = none
    rfl
  refine ⟨rfl, rfl, rfl, ?_, fun h => NodeSt.noConfusion h, ?_⟩
  rotate_left
  · show (run a b c).held 0 = false
    simp [Run.held, no]
  show List.all _ _ = true
  rw [List.all_eq_true]
  intro sl _
  cases sl <;> rfl

/-- The token an instruction of that state puts in its write slot. -/
def res (i : Instr) (a b c : Token) : Option Token :=
  match exec i (st a b c) with
  | .next s => ((s.warps.head?.bind fun x => x.run).bind fun r => r.wslots.head?).bind fun w => w.tok
  | _ => none

/-- Its value on a lane, where it is valid there. -/
def out (i : Instr) (a b c : W64) (l : Nat := 0) : Option W64 :=
  (res i (tok a) (tok b) (tok c)).bind fun t => if t.ok (BitVec.allOnes 32) l then some (t.val l) else none

/-- The flags its block holds afterwards. -/
def flagsOf (i : Instr) (a b c : W64) : Option Flags :=
  match exec i (st (tok a) (tok b) (tok c)) with
  | .next s => (s.warps.head?.bind fun x => x.run).map fun r => r.flags
  | _ => none

/-! ### Values worked by hand from the rules -/

theorem test_add_wraps : out (.add gInt) 0x7FFFFFFF 1 0 = some 0x80000000 := by decide +kernel
theorem test_add_sat : out (.add { gInt with sat := true }) 0x7FFFFFFF 1 0 = some 0x7FFFFFFF := by decide +kernel
theorem test_sub : out (.sub gInt) 3 5 0 = some 0xFFFFFFFE := by decide +kernel
theorem test_mulh_signed : out (.mulh gInt) 0xFFFFFFFF 2 0 = some 0xFFFFFFFF := by decide +kernel
theorem test_mad : out (.mad gInt) 3 5 7 = some 22 := by decide +kernel
theorem test_div_truncates : out (.div gInt) 0xFFFFFFF9 2 0 = some 0xFFFFFFFD := by decide +kernel
theorem test_div_zero : out (.div gInt) 7 0 0 = some 0xFFFFFFFF := by decide +kernel
theorem test_rem : out (.rem gInt) 0xFFFFFFF9 2 0 = some 0xFFFFFFFF := by decide +kernel
theorem test_min_signed : out (.min gInt) 0xFFFFFFFF 1 0 = some 0xFFFFFFFF := by decide +kernel
theorem test_max_unsigned : out (.max { gInt with ty := .n32 }) 0xFFFFFFFF 1 0 = some 0xFFFFFFFF := by decide +kernel
theorem test_abs_most_negative : out (.abs gInt) 0x80000000 0 0 = some 0x80000000 := by decide +kernel
theorem test_neg : out (.neg gInt) 1 0 0 = some 0xFFFFFFFF := by decide +kernel
theorem test_andn : out (.andn gInt) 0xF0F0 0xFF00 0 = some 0xF0 := by decide +kernel
theorem test_shl_whole_count : out (.shl gInt) 1 32 0 = some 0 := by decide +kernel
theorem test_sar_whole_count : out (.sar gInt) 0x80000000 40 0 = some 0xFFFFFFFF := by decide +kernel
theorem test_rol : out (.rol gInt) 0x80000001 33 0 = some 3 := by decide +kernel
theorem test_clz : out (.clz gInt) 0x00010000 0 0 = some 15 := by decide +kernel
theorem test_popc : out (.popc gInt) 0xF00F 0 0 = some 8 := by decide +kernel
theorem test_brev : out (.brev gInt) 1 0 0 = some 0x80000000 := by decide +kernel
theorem test_bfx_signed : out (.bfx gInt) 0xABCD 0x0804 0 = some 0xFFFFFFBC := by decide +kernel
theorem test_bfi : out (.bfi gInt) 0xFFFFFFFF 0 0x0804 = some 0xFFFFF00F := by decide +kernel
theorem test_cmp_signed : out (.cmp .lt gInt) 0xFFFFFFFF 0 0 = some 1 := by decide +kernel
theorem test_lea : out (.lea 3 gInt) 100 5 0 = some 140 := by decide +kernel
theorem test_pk2 : out (.pk2 { gInt with ty := .x16 }) 0x1234 0x5678 0 = some 0x56781234 := by decide +kernel
theorem test_exh : out (.exh false { gInt with ty := .n32 }) 0x1234567890 0 0 = some 0x12 := by decide +kernel
theorem test_hop_sat : out (.hop true .add { gInt with ty := .x16, sat := true }) 0x7FFF0001 0x00010001 0 = some 0x7FFF0002 := by
  decide +kernel
theorem test_dp4 : out (.dp4 true false gInt) 0xFF 0xFF 1000 = some 745 := by decide +kernel
theorem test_sel : out (.sel gInt) 1 2 0 = some 2 := by decide +kernel
theorem test_movi_n64 : out (.movi .n64 .always false (.wr 0) 0xFFFFFFFF) 0 0 0 = some 0xFFFFFFFF := by decide +kernel
theorem test_movi_i64 : out (.movi .i64 .always false (.wr 0) 0xFFFFFFFF) 0 0 0 = some 0xFFFFFFFFFFFFFFFF := by decide +kernel
theorem test_getsr_lane : out (.getsr .n32 .always false 0 (.wr 0) .none) 0 0 0 31 = some 31 := by decide +kernel
/-- A predicate that is zero leaves every lane invalid (R67). -/
theorem test_predicate : out (.add { gInt with pr := .ifNonzero }) 1 2 0 = none := by decide +kernel

def gFl : FloatF :=
  { sub := .asTy, ty := .f32, pr := .always, u := false, imm := none, sat := false, rm := .rne, t0 := .wr 0, t1 := .none }

theorem test_fadd : out (.fadd gFl) 0x3F800000 0x40000000 0 = some 0x40400000 := by decide +kernel
theorem test_fadd_opposed : out (.fadd gFl) 0x7F800000 0xFF800000 0 = some 0x7FC00000 ∧
    flagsOf (.fadd gFl) 0x7F800000 0xFF800000 0 = some .nv := by decide +kernel
theorem test_fmul : out (.fmul gFl) 0x40000000 0xC0400000 0 = some 0xC0C00000 := by decide +kernel
theorem test_ffma_once : out (.ffma .pos gFl) 0x3F800001 0x3F800001 0xBF800002 = some 0x28800000 := by decide +kernel
theorem test_fdiv_zero : out (.fdiv gFl) 0x3F800000 0x80000000 0 = some 0xFF800000 ∧
    flagsOf (.fdiv gFl) 0x3F800000 0x80000000 0 = some .dz := by decide +kernel
theorem test_fdiv_third : out (.fdiv gFl) 0x3F800000 0x40400000 0 = some 0x3EAAAAAB := by decide +kernel
theorem test_fmin_nan : out (.fmin false gFl) 0x7FC00000 0x3F800000 0 = some 0x3F800000 := by decide +kernel
theorem test_fsgn : out (.fsgn .ncopy gFl) 0x3F800000 0x40000000 0 = some 0xBF800000 := by decide +kernel
theorem test_fcmp_unordered : out (.fcmp .lt gFl) 0x7FC00000 0 0 = some 0 ∧ flagsOf (.fcmp .lt gFl) 0x7FC00000 0 0 = some .nv := by
  decide +kernel
theorem test_frcp : out (.frcp gFl) 0x40000000 0 0 = some 0x3F000000 := by decide +kernel
theorem test_frsq : out (.frsq gFl) 0x40800000 0 0 = some 0x3F000000 := by decide +kernel
theorem test_fscl : out (.fscl gFl) 0x3F800000 3 0 = some 0x41000000 := by decide +kernel
theorem test_cvt_int : out (.cvt .int .f32 { gFl with ty := .i32 }) 0xFFFFFFFF 0 0 = some 0xBF800000 := by decide +kernel
theorem test_fop2 : out (.fop2 true .add { gFl with ty := .x16 }) 0x3F804000 0x3F803F80 0 = some 0x40004040 := by decide +kernel

theorem test_shfl_slide : (res (.shfl .slide { gInt with ty := .n32, imm := some (-1) }) (Token.lanes false (BitVec.allOnes 32) fun l =>
    BitVec.ofNat 64 (l + 10)) (tok 0) (tok 0)).map (fun t => [t.val 0, t.val 1, t.val 31]) = some [10, 10, 40] := by decide +kernel
theorem test_vote_count : (res (.vote .cnt { gInt with ty := .n32 }) (Token.lanes false 0xFF fun l => BitVec.ofNat 64 (l % 2))
    (tok 0) (tok 0)).map (fun t => (t.uni, t.val 0)) = some (true, 4) := by decide +kernel
theorem test_bcst : (res (.bcst { gInt with ty := .n32, imm := some 5 }) (Token.lanes false (BitVec.allOnes 32) fun l =>
    BitVec.ofNat 64 (l * l)) (tok 0) (tok 0)).map (fun t => (t.uni, t.val 9)) = some (true, 25) := by decide +kernel
theorem test_scan_add : (res (.scan false { cmb := .add, ty := .n32, pr := .always, sat := false, rm := .rne, t0 := .wr 0, t1 := .none })
    (tok 2) (tok 0) (tok 0)).map (fun t => [t.val 0, t.val 31]) = some [2, 64] := by decide +kernel

/-! ### Witnesses: for each statement, a state and operands that meet its hypotheses -/

theorem witness_DecodesOnlyWellFormed_unassigned : ((0 : W64).extractLsb' 56 8).toNat = 0x00 ∧
    0x83 ≤ ((0x8300000000000000 : W64).extractLsb' 56 8).toNat ∧ 0x83 ≤ ((0xFFFFFFFFFFFFFFFF : W64).extractLsb' 56 8).toNat := by decide
theorem witness_DecodesOnlyWellFormed : decode 0x0400000008000020 = .ok (.call .always 0x20 8) := by rfl
theorem witness_DecodesWhatItEncodes : Instr.wellFormed (.add { gInt with imm := some 0x800000, t1 := .to .third 63 }) = true := by decide

/-- A reset device with ADD's word of R119's kind issuing next, and one with a step in its agenda. -/
theorem witness_StepRunsTheDecodedInstruction :
    (∃ (x : Warp) (r : Run) (i : Instr), let s := State.reset.withFetchWord 64 0x100018C2FF000080
      s.issue = [(fetchWarp, 0)] ∧ s.warp? fetchWarp = some x ∧ x.run = some r ∧ 0 ≤ r.ni ∧
        decode (r.words.getD (r.bodyAt + 0) 0) = .ok i) ∧
    (let s := { State.reset with agenda := [.deviceReset] }
     s.issue = [] ∧ s.agenda = .deviceReset :: [] ∧ Instr.isBody .deviceReset = false) :=
  ⟨⟨_, _, _, rfl, rfl, rfl, Nat.le_refl 0, rfl⟩, rfl, rfl, rfl⟩

/-- A block whose ADD has its slots full: the tests of a wait leave its warp alone. -/
def addRun : Run := { run (tok 1) (tok 2) Token.empty with words := [0x100018C2FF000080] }
theorem witness_StepRunsTheDecodedInstruction_tested :
    (addRun.node 0).st = .idle ∧ addRun.instr 0 = some (.add { gInt with imm := some 128, u := true, t0 := .wr 2 }) ∧ 0 ≤ addRun.ni ∧
    (addRun.node 0).full (.add { gInt with imm := some 128, u := true, t0 := .wr 2 }) = true ∧ addRun.held 0 = false ∧
    (({ st (tok 1) (tok 2) Token.empty with warps := [{ warp (tok 1) (tok 2) Token.empty with run := some addRun }] } : State).warp?
      fetchWarp).isSome = true := by decide +kernel

theorem witness_ResultValidity : 0 < 32 ∧ 31 < 32 := by decide
theorem witness_TokensGoToTheirTargets : (0 : BitVec 6).toNat < (run (tok 0) (tok 0) (tok 0)).nodes.length ∧
    (0 : BitVec 4).toNat < (run (tok 0) (tok 0) (tok 0)).wslots.length := by decide
theorem witness_BlockChangeFrame : (st (tok 0) (tok 0) (tok 0)).warp? fetchWarp = some (warp (tok 0) (tok 0) (tok 0)) ∧
    ({ fetchWarp with warp := 1 } : WarpId) ≠ fetchWarp := by decide +kernel

def s0 : State := st (tok 0x100) (tok 0) (tok 0)
def i0 : Issue := iss (tok 0x100) (tok 0) (tok 0)

/-- Every statement whose hypothesis is that its instruction may fire, whatever its operands: PlainValuesComplete,
IntegerArithmeticCompletes, LogicAndShiftsComplete, BitFieldsComplete, ComparisonsAndPackedComplete, ControlCompletes,
FloatArithmeticCompletes, FloatFunctionsComplete, FloatSelectionCompletes, QuantisationCompletes, CrossLaneCompletes, ScansComplete. -/
theorem witness_fires : ∀ i, Fires s0 i i0 := fun i => fires i _ _ _

/-- The second warp of a launch of one stage of two: its stage is 0, its index within the stage 1. -/
theorem witness_PlainValuesComplete_special : (1 < launch.stageWarps 0 ∧ ((List.range 0).map launch.stageWarps).sum + 1 = 1) ∧
    (s0.ctx? fetchWarp.team.launch.ctx).isSome = true ∧ s0.launch? (warp (tok 0x100) (tok 0) (tok 0)).id.team.launch = some launch ∧ launch.plc = 2 ∧
    ({ launch with desc := [] } : Launch).plc ≠ 2 := by decide +kernel
/-- Values that meet the special cases of the functions: classes, scalings, conversions; R158's functions answer an exact value and a near one. -/
theorem witness_FloatFunctionsComplete :
    (Fmt.f32.decode 0xFF800000 = .inf true ∧ Fmt.f32.decode 0x80000000 = .fin true 0 (-149) ∧ Fmt.f32.decode 1 = .fin false 1 (-149) ∧
      2 ^ Fmt.f32.fbits ≤ 0x800000 ∧ Fmt.f32.decode 0x3F800000 = .fin false 0x800000 (-23)) ∧
    trnV .exp2 (Fmt.f32.decode 0x3F800000) = .exact (.rat false 1 1 1) 0 ∧ (-1000 : Int) ≤ 3 ∧ (3 : Int) ≤ 1000 ∧
    (match trnV .exp2 (Fmt.f32.decode 0x3F000000) with
      | .near _ n _ _ => n != 0
      | .exact _ _ => false) = true := by decide +kernel
theorem witness_FloatArithmeticCompletes : (1 : Nat) ≠ 0 ∧ Fmt.f32 ∈ [Fmt.f32, .f16, .bf16, .e4m3, .e5m2, .ue5m3] ∧
    Fmt.ue5m3.signed = false ∧ Fmt.f32.signed = true := by decide

/-- The rounding law's two sides: 2^128 - 2^103 is halfway above the largest value and overflows, what is below it does not (R138, R140). -/
theorem test_round_at_the_largest :
    Fmt.f32.round .rne false (.rat false (2 ^ 25 - 1) 1 103) = (0x7F800000, .of ||| .nx) ∧
    Fmt.f32.round .rne false (.rat false (2 ^ 26 - 3) 1 102) = (0x7F7FFFFF, .nx) := by decide +kernel
theorem witness_FloatSelectionCompletes : Fmt.f32.decode 0x7FC00000 = .nan ∧ Fmt.f32.decode 0x3F800000 ≠ .nan := by decide +kernel
theorem witness_CrossLaneCompletes :
    (let p : List (Nat × W64) := [(0, 0), (31, 1)]
     p.length ≤ 32 ∧ (∀ q ∈ p, q.1 < 32) ∧ (p.map (·.1)).Pairwise (· < ·)) ∧
    (let p : List (Nat × W64) := []
     p.length ≤ 32 ∧ (∀ q ∈ p, q.1 < 32) ∧ (p.map (·.1)).Pairwise (· < ·)) := by decide

/-- Values to scale and scales to divide by, dequantised values, and thirty-two values of a TY to add. -/
theorem witness_QuantisationCompletes :
    2 ^ 1 ≤ 3 ∧ 3 < 2 ^ (1 + 1) ∧ (3 : Nat) ≠ 0 ∧ (∀ x ∈ [Fp.fin false 3 0, .fin true 0 5], ∃ n m e, x = Fp.fin n m e) ∧
    QFmt.int8.fmt = none ∧ QFmt.e4m3.fmt = some .e4m3 ∧ dqVal .int8 0xFF = .fin true 1 0 := by
  refine ⟨by decide, by decide, by decide, ?_, by decide, by decide, by decide +kernel⟩
  intro x hx
  rcases List.mem_cons.mp hx with h | h
  · exact ⟨false, 3, 0, h⟩
  · exact ⟨true, 0, 5, List.mem_singleton.mp h⟩

theorem witness_ScansComplete : let f : ScanF := { cmb := .add, ty := .n32, pr := .always, sat := false, rm := .rne, t0 := .wr 0, t1 := .none }
    f.ty.isInt = true ∧ f.cmb = .add ∧ f.sat = false ∧ (List.replicate 32 (3 : W64)).length = 32 ∧
    (∀ x ∈ List.replicate 32 (3 : W64), x.toNat < 2 ^ f.ty.bitsW) ∧ 31 < 32 := by
  refine ⟨rfl, rfl, rfl, List.length_replicate, fun x hx => ?_, by omega⟩
  rw [List.eq_of_mem_replicate hx]
  show 3 < 2 ^ 32
  omega

/-- The checks of an access, where none of its lanes fails. -/
theorem clean {s : State} {x : Issue} {acc width : Nat} {h : Bool} {ls : List (Nat × W64)}
    (hc : (s.checkLanes x.warp.core x.w.team.launch.ctx acc width h ls).2.absent = none ∧
      (s.checkLanes x.warp.core x.w.team.launch.ctx acc width h ls).2.bad = none ∧
      (s.checkLanes x.warp.core x.w.team.launch.ctx acc width h ls).2.walk = none) :
    Clean s x acc width h ls (s.checkLanes x.warp.core x.w.team.launch.ctx acc width h ls).1
      (s.checkLanes x.warp.core x.w.team.launch.ctx acc width h ls).2.accs := by
  unfold Clean
  generalize s.checkLanes x.warp.core x.w.team.launch.ctx acc width h ls = c at hc
  obtain ⟨t, as, a, b, w⟩ := c
  obtain ⟨h1, h2, h3⟩ := hc
  simp only at h1 h2 h3
  subst h1; subst h2; subst h3
  rfl

def gMem : MemF :=
  { ty := .n32, pr := .always, am := .base, width := .b4, sx := false, hint := 0, sc := .warp, ord := .relaxed, ss := 0, imm := 0
    t0 := .wr 0, t1 := .none }

/-- The reads of an access on which no lane meets poison. -/
theorem reads {s : State} {w : WarpId} {core : Nat} {sc : Scope} {h : BitVec 2} {n : Nat} {as : List LaneAcc} (h' : (s.readLanes w core sc h n as).2.2 = []) :
    ∃ u got, s.readLanes w core sc h n as = (u, got, []) :=
  ⟨_, _, Prod.ext rfl (Prod.ext rfl h')⟩

theorem witness_LoadsAndStoresComplete :
    (∃ t as, Clean s0 i0 0 4 false (memAddrs (.ld gMem) gMem false i0.o) t as ∧
      ∃ u got, t.readLanes i0.w i0.warp.core gMem.sc gMem.hint gMem.width.bytes as = (u, got, [])) ∧
    (∃ t as, Clean s0 i0 0 4 false (memAddrs (.ldk gMem) gMem false i0.o) t as ∧
      ∃ u got, t.readLanes i0.w i0.warp.core gMem.sc gMem.hint gMem.width.bytes as = (u, got, [])) ∧
    ∃ t as, Clean s0 i0 1 4 false (memAddrs (.st gMem) gMem false i0.o) t as := by
  exact ⟨⟨_, _, clean (by decide +kernel), reads (by decide +kernel)⟩, ⟨_, _, clean (by decide +kernel), reads (by decide +kernel)⟩,
    _, _, clean (by decide +kernel)⟩

theorem named (s : State) (x : Issue) (k : Nat) (h : ((s.team? x.w.team).map fun t => t.mayName x.w.warp k) = some true) : Named s x k := by
  rcases ht : s.team? x.w.team with _ | t
  · simp [ht] at h
  · exact ⟨t, ht, by simpa [ht] using h⟩

def sSpad (at' : W64) : State := st (tok at') (tok 0) (tok 0)
def iSpad (at' : W64) : Issue := iss (tok at') (tok 0) (tok 0)

/-- An LDS of the last word of the ready tile, an STS of the first of the empty one. -/
theorem witness_ScratchpadAccessesComplete :
    ((sSpad 2044).errs = [] ∧ SpadClean (sSpad 2044) (iSpad 2044) false 4 (memAddrs (.lds gMem) gMem true (iSpad 2044).o)) ∧
    (sSpad 0).errs = [] ∧ SpadClean (sSpad 0) (iSpad 0) true 4 (memAddrs (.sts gMem) gMem true (iSpad 0).o) := by
  have h1 : touched (sSpad 2044) (iSpad 2044) 4 (memAddrs (.lds gMem) gMem true (iSpad 2044).o) = [1] := by decide +kernel
  have h2 : touched (sSpad 0) (iSpad 0) 4 (memAddrs (.sts gMem) gMem true (iSpad 0).o) = [0] := by decide +kernel
  refine ⟨⟨rfl, by decide +kernel, ?_⟩, rfl, by decide +kernel, ?_⟩
  · rw [h1]
    intro k hk
    rw [List.mem_singleton] at hk
    subst hk
    exact ⟨named _ _ _ (by decide +kernel), by decide +kernel⟩
  · rw [h2]
    intro k hk
    rw [List.mem_singleton] at hk
    subst hk
    exact ⟨named _ _ _ (by decide +kernel), by decide +kernel⟩

/-- Accesses that fail: a misaligned one, one whose page no table gives, one beyond the address space; in the scratchpad a misaligned
one and one beyond SPAD. -/
theorem witness_FaultsAtIssue_checks :
    (let x := iss (tok 0x102) (tok 0) (tok 0)
     let s := st (tok 0x102) (tok 0) (tok 0)
     (s.checkLanes 0 0 0 4 false (memAddrs (.ld gMem) gMem false x.o)).2.bad = some (5, 0, 0x102) ∧
       (s.checkLanes 0 0 1 4 false (memAddrs (.st gMem) gMem false x.o)).2.bad = some (5, 0, 0x102)) ∧
    (let x := iss (tok 0x7000000) (tok 0) (tok 0)
     let c := ((st (tok 0x7000000) (tok 0) (tok 0)).checkLanes 0 0 0 4 false (memAddrs (.ld gMem) gMem false x.o)).2
     c.bad = none ∧ c.walk = none ∧ c.absent = some (0, 0x7000000)) ∧
    (let x := iss (tok 0x40000000000000) (tok 0) (tok 0)
     ((st (tok 0x40000000000000) (tok 0) (tok 0)).checkLanes 0 0 0 4 false (memAddrs (.ld gMem) gMem false x.o)).2.bad = some (1, 0, 0x40000000000000)) ∧
    (let x := iss (tok 0x102) (tok 0) (tok 0)
     spadBad (((st (tok 0x102) (tok 0) (tok 0)).launchOf x.w).spad * 1024) 4 (memAddrs (.lds gMem) gMem true x.o) = some (5, 0, 0x102)) ∧
    (let x := iss (tok 0x2000) (tok 0) (tok 0)
     spadBad (((st (tok 0x2000) (tok 0) (tok 0)).launchOf x.w).spad * 1024) 4 (memAddrs (.lds gMem) gMem true x.o) = some (6, 0, 0x2000)) := by
  decide +kernel

/-- One lane's check, where it is misaligned, absent, in a page without W, an atomic on a window, and where it passes. -/
theorem witness_FaultsAtIssue_lane :
    let ok (pa : Nat) (w : Bool) (va : W64) : Bool :=
      match (({ s0 with cores := { Core.reset with tlb := [{ page with pa := pa, w := w }] } :: List.replicate 255 Core.reset } :
        State).translate (some 0) 0 va).2 with
      | .page p w' _ _ => p == pa + va.toNat && w' == w
      | _ => false
    (0x102 : W64).toNat % 4 ≠ 0 ∧ (0x104 : W64).toNat % 4 = 0 ∧ ok 0 true 0x104 = true ∧ ok 0 false 0x104 = true ∧
    ok 0x8000000000000 true 0x104 = true ∧ isHost (0x8000000000000 + 0x104) = true ∧ (s0.translate (some 0) 0 0x7000000).2 = .absent ∧
    (s0.translate (some 0) 0 0x40000000000000).2 = .bad 1 := by decide +kernel

/-- The first team of a chain, which has none before it; a tile nobody took; no routine; a split unit the block does not declare; a
tile the team does not hold. -/
theorem witness_FaultsAtIssue :
    (s0.neighbour i0.w.team true = none ∧ okLanes (.fsend true .always false) i0.o ≠ 0 ∧
      okLanes (.frecv true .always false .none .none) i0.o ≠ 0 ∧ uniOk (.fpeek true .always .none .none) i0.o = true) ∧
    (uniOk (.tgive .always 0) i0.o = true ∧ s0.team? i0.w.team = some team ∧
      team.taken.find? (fun u => u.tid == (0 : BitVec 6).toNat) = none ∧ i0.inRoutine (0 : BitVec 6).toNat = false ∧
      uniOk (.sdone .always true 0) i0.o = true ∧ uniOk (.srefu .always 0) i0.o = true) ∧
    (let u : Taken := { tid := 34, spl := true, cls := .neg, holder := 0, sharers := 1, routine := 0x2000, bound := 3, save := none
                        refusals := 0, order := 0 }
     let t : Team := { team with taken := [u] }
     let q : Routine := { tid := 34, bound := 3, done := 3, pc := 0x3000, am := BitVec.allOnes 32, stack := [], popped := none, rejoin := none
                          parked := none, lines := [] }
     let x : Issue := { i0 with warp := { i0.warp with routine := some q } }
     t.taken.find? (fun u => u.tid == (34 : BitVec 6).toNat) = some u ∧ u.heldBy i0.w.warp = true ∧ u.heldBy 7 = false ∧
       i0.declares u = false ∧ x.inRoutine (34 : BitVec 6).toNat = true ∧ uniOk (.sdone .always true 34) x.o = true ∧
       uniOk (.srefu .always 34) x.o = true) ∧
    uniOk (.tclr .always 63) i0.o = true ∧ ¬ Named s0 i0 (63 : BitVec 6).toNat := by
  refine ⟨?chain, ?own, ?split, ?clear, ?_⟩
  all_goals try decide +kernel
  rintro ⟨t, h, hn⟩
  have ht : s0.team? i0.w.team = some team := by decide +kernel
  rw [ht] at h
  simp only [Option.some.injEq] at h
  subst h
  exact absurd hn (by decide +kernel)

theorem witness_FaultsLeaveNoTrace :
    let op (m : BitVec 32) (ph : Nat) : Mma :=
      { id := 7, team := tid, core := 0, f := { pr := .always, spl := false, gng := true, ks := false, tid := 32, tda := 0, tdb := 1 }, gang := m
        members := [], kb := 0, ka := 32, a := [], b := [], meta' := [], cost := 4, phase := ph, outP := [], outN := [], outCp := [], outCm := []
        flags := 0 }
    let s := { s0 with mmas := [op 6 0, op 3 2] }
    s.warp? i0.warp.id = some i0.warp ∧ s.ctx? i0.warp.id.team.launch.ctx = some ctx ∧
      ∀ m ∈ s.mmas, m.team = i0.warp.id.team → m.gang.getLsbD i0.warp.id.warp = true → m.phase ≠ 0 := by decide +kernel

theorem witness_AddressingModes : (tok 0).wide = true ∧
    ([((0x100 : W32), (0 : W32))]).getD ((5 : BitVec 14).extractLsb' 11 3).toNat (0, 0) = (0x100, 0) ∧
    ([((0x100 : W32), (16 : W32))]).getD ((0x7FF : BitVec 14).extractLsb' 11 3).toNat (0, 0) = (0x100, 16) ∧ (16 : W32) ≠ 0 := by decide

theorem witness_AddressingModes_delivered : i0.o.left.wide = true ∧
    (okLanes (.ld { gMem with am := .modulo, t1 := .wr 1 }) i0.o).getLsbD 31 = true := by decide +kernel

def gAtom : AtomF :=
  { aop := .add, ty := .n32, pr := .always, indexed := false, sc := .device, ord := .relaxed, ss := 0, imm := 0, t0 := .wr 0, t1 := .none }

theorem witness_AtomicsAndFencesComplete :
    (∃ t as, Clean s0 i0 2 gAtom.bytes (hostCarries gAtom)
        ((okList (.atom gAtom) i0.o).map fun l => (l, laneAddr false .base gAtom.imm gAtom.bytes i0.o l)) t as ∧
      ∀ a ∈ as, t.coreMark i0.w i0.warp.core a.nc gAtom.sc a.pa gAtom.bytes = none) ∧
    uniOk (.fence .always .device .release) i0.o = true ∧ uniOk (.fencex .always 1 2) i0.o = true := by
  exact ⟨⟨_, _, clean (by decide +kernel), by decide +kernel⟩, by decide +kernel, by decide +kernel⟩

theorem witness_AtomicValues : gAtom.ty.isInt = true ∧ gAtom.aop = .add ∧ ({ gAtom with aop := .cas } : AtomF).aop = .cas ∧
    Ty.n32.cut 5 = Ty.n32.cut 5 ∧ Ty.n32.cut 5 ≠ Ty.n32.cut 6 := by decide

/-- An f32 atomic: 1.0 and 1.0, a NaN with a number, two NaNs, equal and different bits. -/
theorem witness_AtomicValues_float :
    ({ gAtom with ty := .f32 } : AtomF).ty = .f32 ∧ (0x3F800000 : W64).toNat < 2 ^ 32 ∧ (0x7FC00000 : W64).toNat < 2 ^ 32 ∧
    Fmt.f32.decode 0x7FC00000 = .nan ∧ Fmt.f32.decode 0x7F800001 = .nan ∧ Fmt.f32.decode 0x3F800000 ≠ .nan := by decide +kernel
/-- 1.0 + 2^-24 is a tie and stays at 1.0, inexact (R138, R288). -/
theorem test_atom_float_add : atomVal { gAtom with ty := .f32 } 0x3F800000 0x33800000 0 = (some 0x3F800000, .nx) := by decide +kernel

/-- Translation: an address beyond the space; a walk through the table at 0x500000 to a leaf of 1 GiB in its second level, to an absent
entry, to a malformed one; the page in the TLBs; a page without X; an engine's line parked. -/
def sWalk : State :=
  { s0 with cores := List.replicate 256 Core.reset, tlb2 := []
            mem := wrBytes (wrBytes [] 0x500000 (leBytes 8 0x501001)) 0x501000 (leBytes 8 0x0F) }

theorem witness_TranslationsAndTheirFaults :
    2 ^ 54 ≤ ((2 ^ 54 : Nat) : W64).toNat ∧ s0.sysMark 0x500000 8 = none ∧
    (sWalk.walkFrom 0x1234 4 0 0x500000).1 = .page 0x1234 true true false ∧
    (sWalk.walkFrom (2 ^ 30) 4 0 0x500000).1 = .absent ∧ pteBad 0 0x503 = true ∧ pteBad 1 0x0F = false ∧
    (sWalk.ctx? 0 = some ctx ∧ (∀ e ∈ (sWalk.core 0).tlb, e.covers 0 0x1234 = false) ∧
      ∀ p ∈ sWalk.tlb2, p.1 = dieOf 0 → p.2.covers 0 0x1234 = false) ∧
    (s0.translate (some 0) 0 0x104).2 = .page 0x104 true true false ∧
    (({ s0 with cores := { Core.reset with tlb := [{ page with x := false }] } :: List.replicate 255 Core.reset } :
      State).translate (some 0) 0 0x1000).2 = .page 0x1000 true false false ∧
    s0.faultQ = [] ∧ (s0.translate none 0 0x7000000).2 = .absent := by decide +kernel

/-- A message whose one range passes the end of the address space, and one whose range ends there. -/
theorem witness_TranslationsAndTheirFaults_engine :
    let m (hi : W32) : Msg := { id := 6, warp := fetchWarp, core := 0, op := .copym, lp := false
                                packet := [7, 0x300, 0, 0, 0xFFFFFFF0, hi, 32, 0, 0, 1], payload := [], order := 0, since := 0, phase := 0
                                lo := 0, len := 0, got := [], done := 0, status := 0, flags := 0, shares := [] }
    (m 0x3FFFFF).ranges 0 = [(0x3FFFFFFFFFFFF0, 32)] ∧ 2 ^ 54 < (0x3FFFFFFFFFFFF0 : W64).toNat + 32 ∧
      (0x3FFFFFFFFFFFF0 : W64).toNat < 2 ^ 54 ∧ (m 0).ranges 0 = [(0xFFFFFFF0, 32)] ∧ (0xFFFFFFF0 : W64).toNat + 32 ≤ 2 ^ 54 := by
  decide +kernel

/-- A chain's first team sending on, with an entry in its next queue. -/
def sChain : State := s0.setCore 0 fun c => { c with next := [{ id := 9, words := [7], mask := 1, by' := none }] }

theorem witness_NeighboursComplete : sChain.neighbour i0.w.team false = some { tid with team := 1 } ∧
    okLanes (.fsend false .always false) i0.o ≠ 0 ∧ sChain.placeFree i0.w.team false = true ∧
    okLanes (.frecv false .always false .none .none) i0.o ≠ 0 ∧ sChain.earlierRecv i0 false = false ∧
    ((sChain.core i0.warp.core).queue false).find? (fun e => e.by'.isNone) = some { id := 9, words := [7], mask := 1, by' := none } ∧
    uniOk (.fpeek false .always .none .none) i0.o = true := by decide +kernel

/-- A claim as large as the credit. -/
theorem witness_RegisterPoolCompletes :
    (let x := iss (tok 16) (tok 0) (tok 0)
     uniOk (.regrel .always 0 0) x.o = true ∧ uniOk (.regclm .always .none .none) x.o = true ∧ team.claims = [] ∧
       0 < min (x.o.left.val32 0).toNat (256 - x.warp.limit) ∧ min (x.o.left.val32 0).toNat (256 - x.warp.limit) ≤ team.credit) ∧
    s0.team? i0.w.team = some team ∧ s0.warp? i0.warp.id = some i0.warp ∧
    ((s0.commitEff i0.warp 0 0 (.regrel 0 8)).team? i0.warp.id.team).isSome = true := by decide +kernel

/-- Both warps of a team: the second arrival of two completes the phase, the first does not. -/
theorem witness_BarriersComplete :
    (s0.team? i0.w.team = some team ∧ uniOk (.bararv .always 1 1) i0.o = true ∧
      team.barCause (1 : BitVec 5).toNat (some ((1 : BitVec 5).toNat + 1)) = none ∧ team.pendingAt (1 : BitVec 5).toNat i0.w.warp = false ∧
      uniOk (.barwt .always 0) i0.o = true ∧ team.barCause (0 : BitVec 5).toNat none = none ∧
      uniOk (.barsyn .always 0 0) i0.o = true ∧ team.barCause (0 : BitVec 5).toNat (some ((0 : BitVec 5).toNat + 1)) = none) ∧
    (let b : Bar := { phase := false, arrived := 1, count := some 2, pending := 1 }
     1 < 32 ∧ b.arrived + 1 = b.count.getD 2 ∧ ({ b with arrived := 0 } : Bar).arrived + 1 ≠ b.count.getD 2) := by decide +kernel

theorem witness_TileInstructionsComplete :
    (uniOk (.tarm .always 0 4) i0.o = true ∧ Named s0 i0 (0 : BitVec 6).toNat ∧ s0.tileSt i0.w.team (0 : BitVec 6).toNat = .empty ∧
      s0.tileSt i0.w.team (1 : BitVec 6).toNat = .ready) ∧
    (uniOk (.tclr .always 2) i0.o = true ∧ Named s0 i0 (2 : BitVec 6).toNat) ∧
    uniOk (.tstat .always 2 .none .none) i0.o = true ∧ s0.team? i0.w.team = some team ∧ (team.tile? (2 : BitVec 6).toNat).isSome = true :=
  ⟨⟨by decide +kernel, named _ _ _ (by decide +kernel), by decide +kernel⟩,
    ⟨by decide +kernel, named _ _ _ (by decide +kernel)⟩, by decide +kernel⟩

theorem witness_TileStates :
    ((tile 0 .empty).st = .empty ∧ (tile 1 .ready).st = .ready ∧ (tile 2 .draining).st = .draining ∧ (tile 2 .draining).cnt ≤ 1 ∧
      1 < ({ tile 2 .draining with cnt := 2 } : Tile).cnt) ∧
    (let r : Ref := { owner := .msg 5, obj := .tile tid 1, write := true, consumer := false }
     let s := { s0 with refs := [r] }
     r ∈ s.refs ∧ r.obj = .tile tid 1 ∧ s.oneBlock (.block fetchWarp) r.owner = false ∧ r.write = true ∧
       ∀ id, r.owner ≠ .gang id) ∧
    ((∀ r ∈ s0.refs, r.obj ≠ .tile tid 0) ∧ s0.tileSt tid 0 ∈ [TileSt.empty] ∧ s0.tileSt tid 1 = .ready) := by
  refine ⟨by decide +kernel, ⟨List.mem_singleton_self _, rfl, by decide +kernel, rfl, fun _ h => by cases h⟩, by decide +kernel⟩

def gTake : TakeF := { pr := .always, sv := false, spl := false, cls := .neg, tid := 1, bnd := 3, roff := 8, t0 := .wr 0, t1 := .none }
def taken : Taken :=
  { tid := 1, spl := false, cls := .neg, holder := 0, sharers := 1, routine := 0x2000, bound := 3, save := none, refusals := 0, order := 0 }
def routine : Routine :=
  { tid := 1, bound := 3, done := 3, pc := 0x3000, am := BitVec.allOnes 32, stack := [], popped := none, rejoin := none, parked := none
    lines := [] }

/-- A take that is met; a unit the warp holds; its routine, with refusals left. -/
theorem witness_TakesComplete :
    (let k : Take := { warp := fetchWarp, idx := 0, f := gTake, core := 0, res := some 1, bind := [], waited := false }
     uniOk (.ttake gTake) i0.o = true ∧ ({ s0 with takes := [k] } : State).take? i0 = some k ∧ k.res = some 1 ∧
       ({ gTake with sv := true } : TakeF).sv = true ∧ ((iss (tok 0x20) (tok 0) (tok 0)).o.left.full 0).toNat % 64 ≠ 0) ∧
    (let t : Team := { team with taken := [taken] }
     let s := { s0 with teams := [t] }
     uniOk (.tgive .always 1) i0.o = true ∧ s.team? i0.w.team = some t ∧
       t.taken.find? (fun u => u.tid == (1 : BitVec 6).toNat) = some taken ∧ taken.heldBy i0.w.warp = true ∧ i0.declares taken = true) ∧
    (let x : Issue := { i0 with warp := { i0.warp with routine := some routine } }
     let t : Team := { team with taken := [taken] }
     let s := { s0 with teams := [t], warps := [x.warp] }
     x.warp.routine = some routine ∧ routine.tid = (1 : BitVec 6).toNat ∧ t.taken.find? (fun u => u.tid == (1 : BitVec 6).toNat) = some taken ∧
       taken.heldBy x.w.warp = true ∧ x.declares taken = true ∧ uniOk (.sdone .always false 1) x.o = true ∧
       uniOk (.sdone .always true 1) x.o = true ∧ uniOk (.srefu .always 1) x.o = true ∧ s.team? x.w.team = some t ∧
       taken.refusals < s.refusalLimit x.w.team.launch.ctx ∧ s.issuing (.sdone .always false 1) = some x) := by decide +kernel

/-- The Legend entries the matrix witnesses read: bf16 activations of 16 rows by 32 at 1 KiB of the scratchpad, bf16 weights of 32 rows
at 0 of the Overlay, and f32 rows of 128 in memory at 0x1000. -/
def entA : List W64 := [0x1200000000000000, 0x00000000000F001F, 0x400, 0]
def entB : List W64 := [0x6200000000000000, 0x00000000001F007F, 0, 0]
def entO : List W64 := [0x8000000000000000, 0x00000000000F007F, 0x1000, 0]

/-- A block that declares tile 1 for reading, on a core with those entries cached. -/
def mxRun (a b c : Token) : Run := { run a b c with tiles := [(1, true, false), (32, true, true)] }
def mxIss (a b c : Token) : Issue := { warp := { warp a b c with run := some (mxRun a b c) }, k := 0, run := mxRun a b c }
def mxSt (a b c : Token) : State :=
  let s := (st a b c).setCore 0 fun k => { k with legend := [⟨0, 0, entA⟩, ⟨0, 1, entB⟩, ⟨0, 2, entO⟩] }
  { s with warps := [(mxIss a b c).warp] }

/-- A Legend entry that is cached and not poisoned is read. -/
theorem legendReads {s : State} {x : Issue} {idx : Nat}
    (h : let u := s.findRegion (.legend x.warp.core x.w.team.launch.ctx)
      u.legendFrozen x.warp.core x.w.team.launch.ctx = false ∧ u.legendMark x.warp.core x.w.team.launch.ctx idx = none) :
    LegendReads s x idx ((s.findRegion (.legend x.warp.core x.w.team.launch.ctx)).legendWords x.warp.core x.w.team.launch.ctx idx).1
      ((s.findRegion (.legend x.warp.core x.w.team.launch.ctx)).legendWords x.warp.core x.w.team.launch.ctx idx).2 :=
  ⟨h.1, h.2, rfl⟩

theorem witness_SettingsComplete :
    (uniOk (.agset .always false 3) i0.o = true ∧ uniOk (.gang .always 0 3) i0.o = true ∧ uniOk (.modset .always 7 none) i0.o = true ∧
      uniOk (.modset .ifZero 7 none) (iss (tok 1) (tok 1) Token.empty).o = false) ∧
    ∃ t ws, LegendReads (mxSt (tok 0) (tok 0) (tok 0)) (mxIss (tok 0) (tok 0) (tok 0)) (2 : BitVec 6).toNat t ws :=
  ⟨by decide +kernel, _, _, legendReads (by decide +kernel)⟩

def gMma : MmaF := { pr := .always, spl := false, gng := false, ks := false, tid := 32, tda := 0, tdb := 1 }
def gDrain : DrainF := { pr := .always, mode := .raw, tid := 32, tdo := 2, ag := 0, t0 := .wr 0, t1 := .none }

/-- An MMA of all sixteen rows. -/
theorem witness_MatrixOperationsComplete_mma :
    let s := mxSt (tok 0) (tok 16) (tok 0)
    let x := mxIss (tok 0) (tok 16) (tok 0)
    ∃ t u aw bw tm, uniOk (.mma gMma) x.o = true ∧ gMma.gng = false ∧ (x.run.node x.k).st = .idle ∧
      s.accBad x gMma.tid.toNat gMma.spl = none ∧ LegendReads s x gMma.tda.toNat t aw ∧ LegendReads t x gMma.tdb.toNat u bw ∧
      (parseEntry bw).spn = 0 ∧ u.fw.bringUp = false ∧ u.team? x.w.team = some tm ∧
      tm.mmaBad x.run gMma (x.o.left.val32 0).toNat (x.o.right.val32 0).toNat (mmaOrigin gMma x.o) (parseEntry aw) (parseEntry bw)
        (parseEntry []) = none ∧
      u.unnamed? x (tm.mmaSources x.run (parseEntry aw) (parseEntry bw) (parseEntry []) (mmaOrigin gMma x.o) (x.o.left.val32 0).toNat
        (x.o.right.val32 0).toNat) = none :=
  ⟨_, _, _, _, team, by decide +kernel, rfl, rfl, by decide +kernel, legendReads (by decide +kernel), legendReads (by decide +kernel),
    by decide +kernel⟩

/-- An AZERO alone in its block. -/
def azIss : Issue :=
  let r : Run := { run (tok 0) (tok 0) (tok 0) with words := [0x710010FFFF800000] }
  { warp := { warp (tok 0) (tok 0) (tok 0) with run := some r }, k := 0, run := r }

theorem witness_MatrixOperationsComplete_azero :
    uniOk (.azero .always false 32) azIss.o = true ∧ ({ s0 with warps := [azIss.warp] } : State).accBad azIss (32 : BitVec 6).toNat false = none ∧
    azIss.run.restDone = true ∧ ({ s0 with warps := [azIss.warp] } : State).drainDue azIss.w [(32 : BitVec 6).toNat] = false ∧
    ∀ k ∈ [(32 : BitVec 6).toNat], ({ s0 with warps := [azIss.warp] } : State).canWrite (.block azIss.w) azIss.w.team k [.empty, .ready] =
      true := by decide +kernel

/-- A drain of one row to memory, and a load of it. -/
theorem witness_MatrixOperationsComplete_rows :
    let s := mxSt (tok 127) (tok 15) (tok 1)
    let x := mxIss (tok 127) (tok 15) (tok 1)
    ∃ t ew, LegendReads s x gDrain.tdo.toNat t ew ∧ t.team? x.w.team = some team ∧ (parseEntry ew).space ≠ 1 ∧
      (uniOk (.adrn gDrain) x.o = true ∧ s.accBad x gDrain.tid.toNat (gDrain.mode != .raw) = none ∧
        rowsOk (parseEntry ew) (gDrain.mode == .img) false (x.o.left.val32 0).toNat (x.o.right.val32 0).toNat (x.o.third.val32 0).toNat = true ∧
        t.fw.bringUp = false ∧ ∀ k ∈ unitTiles gDrain.tid.toNat (gDrain.mode != .raw), t.canRead (.block x.w) x.w.team k = true) ∧
      (uniOk (.aload .always false 32 2) x.o = true ∧ s.accBad x (32 : BitVec 6).toNat false = none ∧
        rowsOk (parseEntry ew) false true (x.o.left.val32 0).toNat (x.o.right.val32 0).toNat (x.o.third.val32 0).toNat = true ∧
        ∀ k ∈ unitTiles (32 : BitVec 6).toNat false, t.canWrite (.block x.w) x.w.team k [.empty, .ready] = true) :=
  ⟨_, _, legendReads (by decide +kernel), by decide +kernel⟩

/-- A reply record at 0x100 that matches tag 0, and the accesses of a POLLR there. -/
def sMsg : State := { s0 with mem := [(0x100, 1)] }

theorem witness_MessagesComplete :
    (laneOk (.send .always .copy false) i0.o 0 = true ∧ s0.msgPlace i0.warp.core = true) ∧
    (uniOk (.pollr .always false .none .none) i0.o = true ∧ uniOk (.waitr .always false .none .none) i0.o = true) ∧
    ∃ t u acc bs, Clean sMsg i0 0 8 false [(0, i0.o.left.full 0)] t [acc] ∧
      t.coreRead i0.w i0.warp.core acc.nc .device 0 acc.pa 8 = (u, bs, none) ∧
      (let w0 : W64 := BitVec.ofNat 64 (leNat bs)
       (if w0.getLsbD 0 ∧ w0.extractLsb' 32 32 = i0.o.right.val32 0 then ((w0.extractLsb' 8 8).setWidth 32 : W32) * 256 + 1 else 0) ≠ 0) := by
  refine ⟨by decide +kernel, by decide +kernel, (sMsg.checkLanes 0 0 0 8 false [(0, i0.o.left.full 0)]).1, _,
    { lane := 0, va := 0x100, pa := 0x100, nc := false }, _, Prod.ext rfl (by decide +kernel),
    Prod.ext rfl (Prod.ext rfl (by decide +kernel)), by decide +kernel⟩

/-! ### Blocks -/

/-- The manual's filt_b in full: two header reads, one write, SUB and BR. -/
def filtB : List W64 :=
  [0x1044100000000000, 0x80A07F8000007F80, 0x0000000000000100, 0, 0x110000C0FF000000, 0x0100000000000004, 0, 0]

/-- It passes every check of R61. -/
theorem test_block_valid : blockFault filtB false = none := by decide +kernel
/-- With VER 2 it fails at its first word, with cause 0x01 (R61). -/
theorem test_block_version : blockFault (0x2044100000000000 :: filtB.drop 1) false = some (0, 1) := by decide +kernel

def idle : Warp := { warp (tok 0) (tok 0) (tok 0) with run := none, phase := .ready }
def sIdle : State :=
  { (s0.setCore 0 fun k => { k with code := [{ ctx := 0, va := 0x1000, words := filtB, bad := none }] }) with warps := [idle] }

theorem witness_BlocksStart_start :
    let h := Hdr.of (filtB.headD 0)
    sIdle.warp? idle.id = some idle ∧ sIdle.coreRuns idle.core = true ∧ idle.rejoin = none ∧ sIdle.startable idle = true ∧
    sIdle.hasPlace idle = true ∧ idle.popped = none ∧ h.sr = idle.entering ∧
    (∀ e ∈ idle.stack, e.join = true → e.cp = true → e.addr ≠ idle.pc) ∧
    (sIdle.fetchBlock idle.core idle.id.team.launch.ctx idle.pc).2 = .block filtB none ∧
    (let t := (sIdle.fetchBlock idle.core idle.id.team.launch.ctx idle.pc).1
     (({ t with order := t.order + 1 } : State).issueCopies idle (h.copies filtB) none t.order).2 = none) := by decide +kernel

/-- A block that branches to 0x1040, and a spilled register. -/
def vreg (n : Nat) (row : Row) : VReg := { num := n, lanes := List.replicate 32 5, row := row, used := 0 }
def branching : Warp :=
  { warp (tok 0) (tok 0) (tok 0) with
    v := [vreg 3 (.saved 0 false)], run := some { run (tok 0) (tok 0) (tok 0) with words := [0x0100000000000002], np := false } }
def sBranch : State := { s0 with warps := [branching] }

theorem witness_BlocksStart_prefetch :
    (∃ r, branching.run = some r ∧ r.np = false ∧ 0x1040 ∈ r.names) ∧ sBranch.warp? branching.id = some branching ∧
    sBranch.coreRuns branching.core = true ∧ branching.phase ≠ .retired ∧ branching.vreg? 3 = some (vreg 3 (.saved 0 false)) ∧
    (vreg 3 (.saved 0 false)).row ≠ .pool ∧ branching.resident < branching.limit ∧ 0 < sBranch.freeRows branching.core := by
  refine ⟨⟨_, rfl, by decide +kernel⟩, by decide +kernel⟩

theorem witness_BlocksStart_read :
    let e (k : Bool) : ReadEnt := { k := k, reg := 3, ta := 0, tb := 0xFF, low := 0, word := 1 }
    s0.warp? i0.warp.id = some i0.warp ∧ i0.warp.run = some i0.run ∧ s0.pendingReg i0.warp.id (e true) = false ∧
    s0.pendingReg i0.warp.id (e false) = false ∧ s0.errs = [] ∧ (e true).k = true ∧ (e false).k = false := by decide +kernel

theorem witness_CommitWritesRegisters :
    let sl (k ok : Bool) : WSlot := { k := k, reg := 63, tok := some (Token.uniform false ok 7), deferred := false }
    s0.warp? i0.warp.id = some i0.warp ∧ s0.errs = [] ∧ (sl true true).k = true ∧ (Token.uniform false true 7).mask.getLsbD 0 = true ∧
    (Token.uniform false false 7).mask.getLsbD 0 = false ∧ (sl false true).k = false ∧ (sl false true).deferred = false ∧ 31 < 32 ∧
    (let z : Warp := { i0.warp with id := { fetchWarp with warp := 1 } }
     ({ s0 with warps := [i0.warp, z] } : State).warp? z.id = some z ∧ z.id ≠ i0.warp.id) := by decide +kernel

/-- A block whose one instruction has finished, every lane exited; and a stop of the one warp of a launch on a core, whose block
cannot commit. -/
def done : Run :=
  { run (tok 0) (tok 0) (tok 0) with
    words := [0x0600000000000000], nodes := [{ left := none, right := none, third := none, st := .done, since := 0 }], wslots := []
    sslots := [], succs := allLanes.map fun l => { idx := 0, lane := l, kind := .exit } }
def atEnd : Warp := { warp (tok 0) (tok 0) (tok 0) with run := some done }
def sEnd : State := { s0 with warps := [atEnd] }
def sKill : State := { s0 with launches := [{ launch with phase := .killing }] }
/-- A warp parked on its rejoin fetch that owes the reissue of an ended routine. -/
theorem witness_BlocksStart_parked :
    let x : Warp := { idle with phase := .parked 3 1 0x1040, rejoin := some { join := some (0x1040, 7), wrote := [], before := [3] } }
    ({ s0 with warps := [x] } : State).warp? x.id = some x ∧ ({ s0 with warps := [x] } : State).coreRuns x.core = true ∧
      ∃ n l a q, x.phase = .parked n l a ∧ x.rejoin = some q ∧ q.before ≠ [] :=
  ⟨by decide +kernel, by decide +kernel, _, _, _, _, rfl, rfl, by decide⟩
/-- Two warps of a launch that is killed. -/
theorem witness_BlocksCommitAndStop_two :
    let y : Warp := { i0.warp with id := { fetchWarp with warp := 1 } }
    let s := { sKill with warps := [i0.warp, y] }
    s.warp? i0.warp.id = some i0.warp ∧ s.coreRuns i0.warp.core = true ∧ y.id ≠ i0.warp.id ∧
      (s.launch? i0.warp.id.team.launch).map (·.phase) = some .killing ∧
      (s.warps.filter fun z => z.core == i0.warp.core && z.id.team.launch == i0.warp.id.team.launch) = [i0.warp, y] := by decide +kernel

theorem witness_BlocksCommitAndStop :
    (sEnd.warp? atEnd.id = some atEnd ∧ sEnd.coreRuns atEnd.core = true ∧ atEnd.run = some done ∧ atEnd.phase = .running ∧
      done.finished = true ∧ sEnd.fillHeld atEnd done = false ∧ sEnd.together atEnd.id = [atEnd.id] ∧ atEnd.exitFault done = none ∧
      sEnd.findFills [atEnd.id] = sEnd) ∧
    (sKill.warp? i0.warp.id = some i0.warp ∧ sKill.coreRuns i0.warp.core = true ∧ i0.warp.id.warp < 32 ∧ sKill.errs = [] ∧
      sKill.runMeets Run.complete i0.warp.id = false ∧ i0.warp.phase = .running ∧
      (sKill.warps.filter fun y => y.core == i0.warp.core && y.id.team.launch == i0.warp.id.team.launch) = [i0.warp] ∧
      (sKill.launch? i0.warp.id.team.launch).map (·.phase) = some .killing) := by decide +kernel

/-- A warp with a step 6 still to be made, which a stop of its launch and a YIELD that its commit noted wait for. -/
def owing : Warp := { idle with rejoin := some { join := none, wrote := [3], before := [] } }
theorem witness_BlocksCommitAndStop_step6 :
    (let s := { sKill with warps := [owing] }
     s.warp? owing.id = some owing ∧ s.coreRuns owing.core = true ∧ owing.id.warp < 32 ∧ s.errs = [] ∧ s.runMeets Run.complete owing.id = false ∧
       owing.phase = .ready ∧ owing.rejoin ≠ none ∧ (s.launch? owing.id.team.launch).map (·.phase) = some .killing ∧
       (s.warps.filter fun y => y.core == owing.core && y.id.team.launch == owing.id.team.launch) = [owing]) ∧
    (let l := { launch with phase := .yielding 100, yielded := [owing.id] }
     let s := { s0 with launches := [l], warps := [owing] }
     let u := { s with warps := [idle] }
     s.warp? owing.id = some owing ∧ s.launch? owing.id.team.launch = some l ∧ l.phase = .yielding 100 ∧ owing.routine = none ∧
       u.warp? idle.id = some idle ∧ u.coreRuns idle.core = true ∧ idle.phase = .ready ∧ idle.rejoin = none ∧ idle.id ∈ l.yielded) := by
  decide +kernel

/-- A store to the scratchpad, one to a line that the core's L1 and its die's L2 hold, one to an uncached page whose line Meridian
holds, one lane's atomic. -/
def l1Line : L1Line := { core := 0, line := 2, st := .e, data := 0, dirty := 0, user := fetchWarp, hint := 0 }
def l2Line : L2Line := { die := 0, line := 2, st := .e, data := 0, marked := 0, first := false }
theorem witness_CommitsStore :
    (s0.team? i0.warp.id.team = some team ∧ cwf team.spad = true) ∧
    (0x104 % 128 + [(1 : W8), 2].length ≤ 128 ∧ Scope.die.devUp = false) ∧
    (let s := { s0 with l1 := [l1Line], l2 := [l2Line] }
     s.l1? i0.warp.core (0x104 / 128) = some l1Line ∧ s.l2? (dieOf i0.warp.core) (0x104 / 128) = some l2Line ∧
       ∀ z ∈ s.l1, z.line = 0x104 / 128 → dieOf z.core = dieOf i0.warp.core → z.core = i0.warp.core) ∧
    (let s := { s0 with mer := [{ line := 2, way := 0, part := none, dirty := false, first := false }] }
     s.inMer (0x104 / 128) = true ∧ ∀ y ∈ s.l2, y.line ≠ 0x104 / 128) ∧ isHbm 0x8000000000000 = false := by decide +kernel

/-- A line that no L1 holds, under each hint. -/
theorem witness_CommitsStore_hints :
    s0.passesL1 0 2 0 = false ∧ s0.passesL1 0 2 3 = false ∧ s0.passesL1 0 2 2 = true ∧ (s0.l1? 0 2).isNone = true ∧ s0.l1? 0 2 = none ∧
    ({ s0 with l1 := [l1Line] } : State).passesL1 0 2 2 = false ∧ 0 < [(1 : W8)].length := by decide +kernel

/-- An atomic at the die's copy in die scope, in device scope where the die holds the line alone, at the home where it holds it
shared; one whose old bytes make it write, a compare that fails. -/
theorem witness_CommitsStore_atoms :
    let s := { s0 with l2 := [l2Line] }
    let u := { s0 with l2 := [{ l2Line with st := .s }] }
    0x104 % 128 + gAtom.bytes ≤ 128 ∧ isHbm 0x104 = true ∧ Scope.die.devUp = false ∧ gAtom.sc.devUp = true ∧
    s.l2? (dieOf i0.warp.core) (0x104 / 128) = some l2Line ∧ l2Line.st = .e ∧
    (((s.grant 0 2 .shared).recallL1s 0 2 true).l2? 0 2).isSome = true ∧
    ((((s.recallL1s 0 2 true).fix (.l2 0) 0x104 4).push 0 2).l2? 0 2).isSome = true ∧
    (u.l2? 0 2).map (fun c => (c.st != .e, c.st != .m)) = some (true, true) ∧ (s0.l2? 0 2).isNone = true ∧
    (atomVal gAtom 0 1 0).1 = some 1 ∧ (atomVal { gAtom with aop := .cas } 0 1 5).1 = none := by decide +kernel

/-- What leaves a block: one successor, none over an empty stack, two without and with a rejoin block, a call. -/
def goes (rj : Int) (ks : List (Nat × SuccKind)) : Run :=
  { done with rj := rj, succs := ks.map fun k => { idx := 0, lane := k.1, kind := k.2 } }
def atBr : Warp := { atEnd with run := some (goes 0 (allLanes.map fun l => (l, .block 0x1040))) }

theorem witness_CommitsMoveOn :
    (let s := { s0 with warps := [atBr] }
     s.warp? atBr.id = some atBr ∧ (goes 0 []).wslots = []) ∧
    (let r := goes 0 (allLanes.map fun l => (l, .block 0x1040))
     r.lanesTo (fun k => k == .routineEnd) = 0 ∧ r.call? = none ∧ r.groups.length ≤ 1 ∧
       (r.groups.filter fun g => some g.1 != topJoin []) = [(0x1040, BitVec.allOnes 32)]) ∧
    (let r := goes 0 (allLanes.map fun l => (l, .exit))
     r.lanesTo (fun k => k == .routineEnd) = 0 ∧ r.call? = none ∧ r.groups = []) ∧
    (let r := goes 0 [(0, .block 0x1040), (1, .block 0x1080)]
     r.call? = none ∧ r.rj = 0 ∧ (r.groups.filter fun g => some g.1 != topJoin []) = [(0x1040, 1), (0x1080, 2)]) ∧
    (let r := goes 8 [(0, .block 0x1040), (1, .block 0x1080)]
     r.call? = none ∧ 1 < r.groups.length ∧ r.rj ≠ 0 ∧ (r.groups.filter fun g => g.1 != r.va + 32 * BitVec.ofInt 64 r.rj) =
       (0x1040, 1) :: [(0x1080, 2)]) ∧
    (let r := goes 0 (allLanes.map fun l => (l, .call 0x2000 0x1040))
     r.lanesTo (fun k => k == .routineEnd) = 0 ∧ r.call? = some (BitVec.allOnes 32, 0x2000, 0x1040) ∧ r.groups = []) := by decide +kernel

/-- Two GANGs and an AZERO under two numberings. -/
theorem witness_CommitsMoveOn_order :
    let es : List (Nat × Eff) := [(0, .azero 32 false), (1, .gang 3), (2, .gang 5)]
    let fs : List (Nat × Eff) := [(0, .gang 5), (1, .azero 32 false), (2, .gang 3)]
    (es.map (·.2)).isPerm (fs.map (·.2)) = true ∧ (es.map fun e => s0.effKey e.2).Nodup := by decide +kernel

/-- A warp at its boundary that goes on, and one with nothing left. -/
theorem witness_CommitsMoveOn_leave :
    let s := { s0 with warps := [idle] }
    let r := goes 0 (allLanes.map fun l => (l, .block 0x1040))
    let lv := idle.leaving r 0 1
    s.warp? idle.id = some idle ∧ idle.phase = .ready ∧ r.trapped = none ∧ lv.ends = false ∧ (s.launchOf idle.id).phase = .running ∧
    lv.next = some { pc := 0x1040, am := BitVec.allOnes 32, popped := none } ∧ lv.join = none ∧ r.wrote = [] ∧
    (idle.leaving (goes 0 (allLanes.map fun l => (l, .exit))) 0 1).next = none := by decide +kernel

/-! ### Copies and the matrix machine -/

/-- A copy of sixteen bytes at 0x200 into tile 0, or over Legend entry 1's region. -/
def copy (ovl : Bool) (ph : CopyPh) : Copy :=
  { id := 4, warp := fetchWarp, core := 0, ovl := ovl, dst := if ovl then 1 else 0, src := 0, va := 0x200, len := 16, pol := 0, lo := 0
    phase := ph, pend := none, run := 0, got := [] }
def sCopy (ovl : Bool) (ph : CopyPh) : State := { s0 with copies := [copy ovl ph] }
/-- Tile 0 while the copy fills it. -/
def sFill : State := { sCopy false .writing with teams := [{ team with tiles := [tile 0 .filling] }] }

theorem witness_CopiesComplete_begin :
    ((sCopy false .waiting).copies.find? fun y => y.id == 4 && y.ovl == false) = some (copy false .waiting) ∧
    (sCopy false .waiting).unitRuns (dieOf 0) (copy false .waiting).unit = true ∧
    (sCopy false .waiting).tileFree tid 0 4 = true ∧
    ((sCopy true .waiting).copies.find? fun y => y.id == 4 && y.ovl == true) = some (copy true .waiting) ∧
    (sCopy true .waiting).unitRuns (dieOf 0) (copy true .waiting).unit = true ∧ (sCopy true .waiting).fillReady 0 4 0 (0 + 16) = true := by
  decide +kernel

/-- A copy whose register names an address that R42 refuses. -/
theorem witness_CopiesComplete_reissue :
    let x : Warp := { idle with k := [8] }
    let c := { copy false .writing with pol := 8 }
    (s0.checkCopy x { dk := c.ovl, dst := c.dst, src := c.src, len := c.len, pol := c.pol } (x.k.getD c.src 0)).2 = .bad 0 := by
  decide +kernel

theorem witness_CopiesComplete_end :
    (sFill.copies.find? fun y => y.id == 4 && y.ovl == false) = some (copy false .writing) ∧ (∀ r ∈ sFill.refs, r.obj ≠ .tile tid 0) ∧
    (let t := (lineParts (0x200 : W64).toNat 16).foldl (fun s p => s.copyLine 4 p) sFill
     ((t.copies.find? fun y => y.id == 4).map fun y => (y.whole, y.ovl)) = some (true, false) ∧
       (((t.team? tid).bind fun x => x.tile? 0)).isSome = true) ∧
    (let t := (lineParts (0x200 : W64).toNat 16).foldl (fun s p => s.copyLine 4 p) (sCopy true .writing)
     ((t.copies.find? fun y => y.id == 4).map fun y => (y.whole, y.ovl)) = some (true, true)) := by decide +kernel

def op (ph : Nat) : Mma :=
  { id := 7, team := tid, core := 0, f := gMma, gang := 1, members := [(0, 0, 0, 1)], kb := 0, ka := 32, a := entA, b := entB, meta' := []
    cost := 4, phase := ph, outP := [], outN := [], outCp := [], outCm := [], flags := 0 }

theorem witness_MatrixMachineCompletes :
    (let s := { s0 with mmas := [op 2] }
     (s.mmas.find? fun y => y.id == (op 2).id) = some (op 2) ∧ s.coreRuns (op 2).core = true ∧ (op 2).phase = 2 ∧ 0 < (s.core (op 2).core).level) ∧
    (let s := { s0 with mmas := [op 3] }
     (s.mmas.find? fun y => y.id == (op 3).id && y.phase == 3) = some (op 3) ∧ s.coreRuns (op 3).core = true ∧ s.team? (op 3).team = some team ∧
       (op 3).members = (0, 0, 0, 1) :: [] ∧ s.errs = [] ∧ (parseEntry (op 3).b).spn = 0) := by decide +kernel

/-- Two joint operations of one gang of two, both met; a write reference that another gang's operation holds. -/
def joint (id tda : Nat) : Mma :=
  { op 1 with id := id, gang := 3, members := [(0, 0, 0, 1), (1, 0, 0, 1)], f := { gMma with gng := true, tda := BitVec.ofNat 6 tda } }
theorem witness_TileStates_joint :
    let r : Ref := { owner := .gang 7, obj := .tile tid 1, write := true, consumer := false }
    let s := { s0 with mmas := [joint 7 0, joint 8 1], refs := [r] }
    (∀ m ∈ s.mmas, m.f.gng = true ∧ m.phase ≠ 0 ∧ (∃ p ∈ m.members, p.1 = 0) ∧ (∃ p ∈ m.members, p.1 = 1) ∧ m.team = tid) ∧
    joint 7 0 ≠ joint 8 1 ∧ r ∈ s.refs ∧ (∀ id, r.owner = .gang id → s.oneBlock (.block { team := tid, warp := 2 }) r.owner = false) := by
  refine ⟨by decide +kernel, by decide +kernel, List.mem_singleton_self _, fun id h => ?_⟩
  cases h
  decide +kernel

/-! ### What moves by itself, clocks and errors -/

def flight : Flight := { id := 3, dest := tid, prev := true, entry := { id := 3, words := [], mask := 0, by' := none } }
def reply : Reply := { id := 2, warp := fetchWarp, regs := [(false, 3)], mask := 1, vals := [9], flags := 0 }

theorem witness_ArrivalsComplete :
    (let s := { s0 with flights := [flight] }
     (s.flights.find? fun g => g.id == flight.id) = some flight ∧
       (s.flights.find? fun g => g.dest == flight.dest && g.prev == flight.prev) = some flight ∧ s.team? flight.dest = some team) ∧
    (let s := { s0 with replies := [reply] }
     (s.replies.find? fun q => q.id == reply.id) = some reply) ∧
    (let x : L1Line := { l1Line with dirty := 1 }
     let s := { s0 with l1 := [x], l2 := [l2Line] }
     255 < 256 ∧ s.l1? 0 2 = some x ∧ x.dirty ≠ 0 ∧ x.dirty.getLsbD 0 = true ∧ s.mayChoose 0 2 = true ∧
       (let y : L1Line := { l1Line with line := 130, user := { fetchWarp with warp := 9 } }
        ({ s0 with l1 := [x, y], warps := [{ i0.warp with urgent := true }] } : State).mayChoose 0 2 = false)) ∧
    (let x : L2Line := { l2Line with st := .o, marked := 1 }
     let s := { s0 with l2 := [x] }
     3 < 4 ∧ 0 < 4 ∧ s.l2? 0 2 = some x ∧ (∀ y ∈ s.l2, y.line = 2 → y.die = 0) ∧ (∀ y ∈ s.l1, y.line = 2 → dieOf y.core ≠ 0) ∧
       Mem.wf s.mem = true ∧ (x.st = .o) ∧ ({ x with st := .e } : L2Line).marked.getLsbD 0 = true) ∧
    (let e : MerLine := { line := 2, way := 0, part := some 0, dirty := false, first := false }
     let s := { s0 with mer := [e], poison := [{ place := .mer, gran := 16, code := 5 }] }
     s.owner? 2 = none ∧ ((s.recallAll 2).mer.find? fun e => e.line == 2) = some e ∧ s.partsWith 2 = [0] ∧
       ((s.recallAll 2).marksAt .mer (128 * 2) 128).head? = some { place := .mer, gran := 16, code := 5 }) := by decide +kernel

/-- Two lines of one set: a `.strm` one goes first, a `.keep` one after the others, an urgent warp's last. -/
theorem witness_ArrivalsComplete_order :
    let y : L1Line := { l1Line with line := 130, user := { fetchWarp with warp := 9 } }
    let s (a b : BitVec 2) : State := { s0 with l1 := [{ l1Line with hint := a }, { y with hint := b }] }
    (s 0 1).mayChoose 0 2 = false ∧ (s 0 1).mayChoose 0 130 = true ∧ (s 0 3).mayChoose 0 2 = true ∧ (s 0 3).mayChoose 0 130 = false ∧
    ({ s 0 3 with warps := [{ i0.warp with urgent := true }] } : State).mayChoose 0 2 = false := by decide +kernel

theorem witness_ClocksComplete :
    255 < s0.cores.length ∧ s0.coreRuns 255 = true ∧
    ({ s0 with parts := s0.parts.map fun p => { p with dies := [0, 1, 2, 3], up := true, stopped := p.units } } : State).coreRuns 0 = false ∧
    (1 ≤ 1 ∧ 1 ≤ 32 ∧ 256 ≤ 256 ∧ 256 ≤ 65535) ∧ (1 ≤ 32 ∧ 32 ≤ 32 ∧ 256 ≤ 65535 ∧ 65535 ≤ 65535) ∧
    ([] : List Warp).length < 2 ∧ 2 ≤ [i0.warp, i0.warp].length ∧
    (let x : Warp := { warp (tok 1) (tok 2) Token.empty with run := some addRun }
     let s := { st (tok 1) (tok 2) Token.empty with warps := [x] }
     x ∈ s.warpsOn 0 ∧ x.phase = .running ∧ x.run = some addRun ∧ 0 ≤ addRun.ni ∧ (addRun.node 0).st = .idle) ∧
    (let c : Cand := { w := fetchWarp, k := 0, age := 48, urgent := false, order := 0, slot := 0 }
     48 ≤ c.age ∧ (∀ a ∈ [c], ∀ b ∈ [c], a.w = b.w → a.age = b.age ∧ a.slot = b.slot) ∧
       (∀ d ∈ [c], 48 ≤ d.age → d.older c = true → d.w = c.w ∨ d.w ∈ ([] : List WarpId)) ∧
       ∀ d ∈ [{ c with age := 3 }], d.age < 48) := by decide +kernel

def bound : Warp := { i0.warp with v := [vreg 3 .pool] }

theorem witness_ErrorEventsComplete :
    (let s := { s0 with warps := [bound], errs := [(.pool fetchWarp 3 31, false)] }
     s.warp? bound.id = some bound ∧ bound.vreg? 3 = some (vreg 3 .pool) ∧
       ∀ l, l < 32 → (Granule.pool bound.id 3 l, true) ∉ (s.correct (allLanes.map fun l => Granule.pool bound.id 3 l)).errs) ∧
    (let s := { s0 with warps := [bound], errs := [(.pool fetchWarp 3 31, true)] }
     s.coreRuns bound.core = true ∧ bound.phase ≠ .faulted ∧
       (Granule.pool bound.id 3 31, true) ∈ (s.correct (allLanes.map fun l => Granule.pool bound.id 3 l)).errs) ∧
    (let s := { s0 with reloads := [.code 0 0 0, .legend 0 0], errs := [(.code 0 0 0, true)] }
     Granule.code 0 0 0 ∈ s.reloads ∧ (Granule.code 0 0 0, true) ∈ s.errs ∧ Granule.legend 0 0 ∈ s.reloads ∧
       (Granule.legend 0 0, true) ∉ s.errs ∧ (Granule.code 0 0 0, true) ∉ s0.errs) ∧
    (({ s0 with l1 := [{ l1Line with dirty := wholeLine }] } : State).l1? 0 (0x100 / 128) = some { l1Line with dirty := wholeLine } ∧
      ({ s0 with l1 := [l1Line] } : State).l1? 0 (0x100 / 128) = some l1Line ∧ isHbm 0x100 = true) ∧
    (4 < 5 ∧ 8 ≤ 8 ∧ 8 < 9) ∧ (5 ≤ 12 ∧ 12 < 13 ∧ 8 < 9) ∧ Master.coll ∉ s0.frozen ∧
    (s0.holdsData (granuleOf (.spad tid 4)) = true ∧ ∀ e ∈ s0.errs, e.1 ≠ granuleOf (.spad tid 4)) ∧
    s0.holdsData (.spad tid (7 / 4 * 4)) = true ∧ 255 < s0.cores.length := by
  refine ⟨?pool, ?struck, ?reload, ?lines, ?rest⟩
  case rest => refine ⟨?_, ?_, ?_⟩ <;> decide +kernel
  all_goals decide +kernel

/-! ### Engine messages -/

def msg (op : MsgOp) (packet : List W32) (ph : Nat) : Msg :=
  { id := 6, warp := fetchWarp, core := 0, op := op, lp := false, packet := packet, payload := [], order := 0, since := 0, phase := ph
    lo := 0, len := 16, got := [], done := 0, status := 0, flags := 0
    shares := if op == .copym then [{ team := 0, since := 0, st := 0 }] else [] }
def sWith (m : Msg) : State := { s0 with msgs := [m] }
def given (m : Msg) : Prop := (sWith m).msg? m.id = some m ∧ m.phase < 2 ∧ (sWith m).unitRuns (dieOf m.core) m.master = true

/-- A COPY of sixteen bytes from tile 1, and a GATHR that has performed; what a read of memory gives is left free (R282). -/
def copyMsg : Msg := msg .copy [7, 0x300, 0, 0, 1, 0x40000000, 0x180, 0, 16] 0
def gathrMsg : Msg :=
  { msg .gathr [7, 0x300, 0, 0, 0x100, 0, 2, 0x180, 0] 0 with lp := true, payload := [5, 6], got := [(0, []), (4, [])] }
def fillMsg : Msg := msg .fillb [7, 0x300, 0, 0, 0x100, 0, 1] 1
def scatrMsg : Msg := msg .scatr [7, 0x300, 0, 0, 0x100, 0, 8, 2, 0x200, 0, 0x280, 0] 0
def copymMsg : Msg := msg .copym [7, 0x300, 0, 0, 0x100, 0, 16, 0, 0, 1] 0

theorem witness_EngineMessagesComplete_given : given copyMsg ∧ given gathrMsg ∧ given fillMsg ∧ given scatrMsg ∧ given copymMsg := by
  unfold given
  decide +kernel

theorem witness_EngineMessagesComplete_copy :
    (((sWith copyMsg).beginMsg copyMsg).msg? 6).map (fun a => (a.phase,
      ((((sWith copyMsg).beginMsg copyMsg).eachPart 6 (fun p => p.1) a.copyParts State.copyPart).msg? 6).map fun y =>
        (a.copyParts.all fun p => y.has p.1, y.destTile))) = some (1, some (true, none)) := by decide +kernel

theorem witness_EngineMessagesComplete_gathr :
    (((sWith gathrMsg).beginMsg gathrMsg).msg? 6).map (fun a =>
      let t := ((sWith gathrMsg).beginMsg gathrMsg).eachPart 6 (fun p => p.2.2) a.indexParts State.arrayPart
      (a.phase, (t.msg? 6).map fun b =>
        let es := (List.range b.size).zip b.indices
        (b.indexParts.all fun p => b.has p.2.2, ((t.eachPart 6 (fun p => p.1 * b.gathWidth) es State.gatherPart).msg? 6).map fun y =>
          (es.all fun p => y.has (p.1 * b.gathWidth), y.destTile)))) = some (1, some (true, some (true, none))) := by decide +kernel

theorem witness_EngineMessagesComplete_arrays :
    (((sWith fillMsg).eachPart 6 (fun p => p.2.2) (arrayParts (fillMsg.addr 4) fillMsg.len 0) State.arrayPart).msg? 6).map (fun y =>
      (arrayParts (fillMsg.addr 4) fillMsg.len 0).all fun p => y.has p.2.2) = some true ∧
    (let ps := scatrMsg.indexParts ++ scatrMsg.operandParts
     (((sWith scatrMsg).eachPart 6 (fun p => p.2.2) ps State.arrayPart).msg? 6).map (fun y =>
      (ps.all fun p => y.has p.2.2, y.size)) = some (true, 2)) := by decide +kernel

theorem witness_EngineMessagesComplete_fill :
    (s0.team? tid).bind (fun y => y.tile? 1) = some (tile 1 .ready) ∧ cwf team.spad = true ∧
    fillMsg.phase = 1 ∧ (sWith { fillMsg with phase := 0 }).fillReady 0 6 0 (0 + 16) = true ∧
    (∀ r ∈ fillMsg.ranges 0, r.2 = 0 ∨ r.1.toNat + r.2 ≤ 2 ^ 54) ∧ (∀ r ∈ scatrMsg.ranges 0, r.2 = 0 ∨ r.1.toNat + r.2 ≤ 2 ^ 54) := by
  decide +kernel

theorem witness_EngineMessagesComplete_copym :
    let h : Share := { team := 0, since := 0, st := 0 }
    (copymMsg.shares.find? fun z => z.team == h.team) = some h ∧
    (((sWith copymMsg).beginShare copymMsg h).msg? 6).map (fun a => a.shares) = some [{ h with st := 1 }] ∧
    (copymMsg.shares.find? fun z => z.team == h.team && z.st == 0) = some h ∧
    copymMsg.stallLimit < ({ sWith copymMsg with now := 2 ^ 20 + 1 } : State).now - h.since := by decide +kernel

/-- A message that has performed and consumes a draining tile. -/
theorem witness_RepliesComplete_refs :
    let m : Msg := { copyMsg with phase := 2 }
    let r : Ref := { owner := .msg 6, obj := .tile tid 2, write := false, consumer := true }
    let s := { sWith m with refs := [r] }
    s.msg? m.id = some m ∧ m.phase = 2 ∧ m.shares = [] ∧ (s.refs.filter fun r => r.owner == .msg m.id) = [r] ∧
      (s.team? tid).bind (·.tile? 2) = some (tile 2 .draining) ∧ ((tile 2 .draining).consume 1).st = .empty := by decide +kernel

def doneMsg (spad : Bool) : Msg := { copyMsg with phase := 2, packet := if spad then [7, 16, 0, 0x80000000] else copyMsg.packet }

/-- A WAITR of the scratchpad record at offset 16, waiting, with its reply there. -/
def waitRun : Run :=
  { run (tok 16) (tok 0) (tok 0) with
    words := [0x810090FFFF080000]
    nodes := [{ left := some (tok 16), right := some (tok 0), third := some (tok 0), st := .waiting .reply, since := 0 }] }
def waiter : Issue := { warp := { i0.warp with run := some waitRun }, k := 0, run := waitRun }
def sReply : State := { s0 with warps := [waiter.warp], teams := [{ team with spad := [(16, 1)] }] }

theorem witness_RepliesComplete :
    ((sWith (doneMsg false)).msg? (doneMsg false).id = some (doneMsg false) ∧ (doneMsg false).phase = 2 ∧
      (sWith (doneMsg false)).unitRuns 0 (doneMsg false).master = true ∧ (doneMsg false).inSpad = false ∧
      ((sWith (doneMsg false)).lineAt 0 2 1 (.msg (doneMsg false).id) (doneMsg false).reply 0 0).2 = .page 0x300 false) ∧
    ((sWith (doneMsg true)).msg? (doneMsg true).id = some (doneMsg true) ∧ (doneMsg true).inSpad = true ∧
      (sWith (doneMsg true)).unitRuns 0 (doneMsg true).master = true) ∧
    (let i : Instr := .waitr .always true .none .none
     ({ sReply with cur := some (waiter.w, waiter.k) } : State).issuing i = some waiter ∧ (waiter.run.node 0).st = .waiting .reply ∧
       waiter.run.instr 0 = some i ∧ sReply.coreRuns 0 = true ∧ uniOk i waiter.o = true ∧ sReply.errs = [] ∧
       (let w0 : W64 := BitVec.ofNat 64 (leNat (sReply.spadRead waiter.w.team (laneBase true waiter.o 0).toNat 8))
        w0.getLsbD 0 = true ∧ w0.extractLsb' 32 32 = waiter.o.right.val32 0)) := by decide +kernel

/-! ### Collectives and sparse updates -/

def collMsg : Msg := msg .coll [7, 0x300, 0, 0, 0x100, 0x100, 0, 0x180, 0, 2] 1
def mem1 : Member := { rank := 0, op := 0x100, count := 2, data := [1, 2], msg := some 6 }
def coll (ms : List Member) : Collect := { ctx := 0, grp := 0, k := 1, since := 0, late := false, members := ms }
/-- A group of two devices, this one of rank 0. -/
def sColl (ms : List Member) : State := { sWith collMsg with mem := [(0x740000, 2)], colls := [coll ms], now := 2 ^ 30 + 1 }

/-- The device after the unit's read of the group's entry. -/
def readColl (ms : List Member) : State := (sColl ms).sysFix ((sColl ms).groupAt 0 (collMsg.bits 4 7 0)) 16

theorem witness_CollectivesAndSparseComplete_coll :
    let two : List Member := [mem1, { mem1 with rank := 1, msg := none }]
    let odd : List Member := [mem1, { mem1 with rank := 1, count := 3, msg := none }]
    ((sColl two).msg? collMsg.id = some collMsg ∧ collMsg.phase = 1 ∧ (sColl two).unitRuns 0 collMsg.master = true ∧
      (sColl two).fw.bringUp = false ∧ (sColl two).sysMark ((sColl two).groupAt 0 (collMsg.bits 4 7 0)) 16 = none ∧
      (readColl two).collOf collMsg.id = some (coll two) ∧
      (two.find? fun y => y.msg == some collMsg.id) = some mem1 ∧ ((readColl two).group 0 0).1 ≤ two.length ∧
      (∀ y ∈ two, collShape y.op = collShape mem1.op ∧ y.count = mem1.count) ∧ mem1.needs ((readColl two).group 0 0).1 ≤ mem1.data.length) ∧
    (let s := { sColl two with poison := [{ place := .hbm, gran := 0x740000 / 16, code := 5 }] }
     s.sysMark (s.groupAt 0 (collMsg.bits 4 7 0)) 16 = some 5) ∧
    ((readColl odd).collOf collMsg.id = some (coll odd) ∧ ∃ y ∈ odd, y.count ≠ mem1.count) ∧
    ((readColl [mem1]).collOf collMsg.id = some (coll [mem1]) ∧ [mem1].length < ((readColl [mem1]).group 0 0).1 ∧
      2 ^ 30 < (readColl [mem1]).now - (coll [mem1]).since) ∧
    (let c : Collect := { coll two with late := true }
     let s := { sColl two with colls := [c] }
     (s.sysFix (s.groupAt 0 0) 16).collOf collMsg.id = some c ∧ c.late = true ∧ ∃ y ∈ c.members, y.msg = some collMsg.id) ∧
    (((sColl [mem1]).colls.find? fun d => d.ctx == 0 && d.grp == 0 && d.k == 1) = some (coll [mem1]) ∧ ∀ z ∈ [mem1], z.rank ≠ 1) ∧
    (((sColl two).ctx? 0).isSome = true ∧ (readColl two).fw.bringUp = false ∧ 1 < ((readColl two).group 0 0).1 ∧
      1 ≠ ((readColl two).group 0 0).2.1 ∧ (sColl two).unitRunsFor 0 .coll = true) ∧
    (collKind mem1.op = 0 ∨ collKind mem1.op = 1 ∨ collKind mem1.op = 2 ∨ collKind mem1.op = 3) ∧
    (two.find? fun y => y.rank == collRoot mem1.op) = some mem1 ∧
    (∀ y ∈ two, y.data.length = mem1.count) := by decide +kernel

def sparse (pa : Option Nat) : SparseTok :=
  { id := 8, updates := [(6, 0x100)], pa := pa, aop := .add, ty := .n32, val := 3, ord := false }
def sSparse (pa : Option Nat) : State := { sWith { scatrMsg with phase := 1 } with toks := [sparse pa] }

theorem witness_CollectivesAndSparseComplete_sparse :
    (((sSparse none).toks.find? fun y => y.id == 8 && y.pa.isNone) = some (sparse none) ∧
      ((sparse none).msgs.head?).bind (sSparse none).msg? = some { scatrMsg with phase := 1 } ∧
      ((sSparse none).lineAt 0 2 2 (.token 8) 0x100 0 0).2 = .page 0x100 false ∧
      (sSparse none).unitRuns 0 (.sparse (sliceOf 0x100)) = true ∧ ((sSparse none).window (sliceOf 0x100)).length < 64) ∧
    (((sSparse (some 0x100)).toks.find? fun y => y.id == 8 && y.pa.isNone) = none ∧
      ((sSparse (some 0x100)).toks.find? fun y => y.id == 8) = some (sparse (some 0x100)) ∧
      (sSparse (some 0x100)).unitRuns ((sSparse (some 0x100)).tokDie (sparse (some 0x100))) (.sparse (sliceOf 0x100)) = true ∧
      (sSparse (some 0x100)).errs = [] ∧ (sSparse (some 0x100)).poison = [] ∧
      (atomVal (sparse none).fields (BitVec.ofNat 64 (leNat (rdBytes ((sSparse (some 0x100)).recallAll (0x100 / 128)).mem 0x100 4))) 3 0).1 =
        some 3) := by decide +kernel

/-! ### Teams, launches, surrender, checkpoints -/

/-- A free-placed launch of one team of one warp, nothing of it placed yet. -/
def free : Launch := { launch with id := { ctx := 0, num := 1 }, desc := [0x80, 0x0000000700000000, 1, 8], placed := 0 }
def sFree : State := { s0 with teams := [], warps := [], launches := [free] }
/-- A chain of two, nothing of it placed, and a launch that was saved. -/
def chained : Launch := { free with desc := launch.desc }
def savedLaunch : Launch :=
  { free with placed := 1, phase := .saved, saved := [{ team := { team with id := { launch := free.id, team := 0 } }, warps := [], prev := [],
                                                         next := [], at' := 0, len := 0, warpsAt := 0 }] }
def sLaunch (l : Launch) : State := { sFree with launches := [l] }

theorem witness_TeamsAndLaunchesComplete :
    ((sFree.launch? free.id = some free ∧ sFree.served free = true ∧ free.saved = [] ∧ free.chain = false ∧ free.cor = false ∧
      free.placed < free.teams ∧ 63 ∈ sFree.allowed free ∧ (sFree.admits free none 63).isSome = true)) ∧
    ((sLaunch chained).launch? chained.id = some chained ∧ (sLaunch chained).served chained = true ∧ chained.saved = [] ∧
      ((sLaunch chained).placeTeams chained ((sLaunch chained).nextTeams chained 0)).isSome = true) ∧
    ((sLaunch savedLaunch).launch? savedLaunch.id = some savedLaunch ∧ (sLaunch savedLaunch).served savedLaunch = true ∧
      savedLaunch.saved ≠ [] ∧ (sLaunch savedLaunch).faulty 0 = false ∧
      (let s := { sLaunch savedLaunch with fw := { (sLaunch savedLaunch).fw with readable := 1 } }
       let reads := s.resumeReads savedLaunch 0
       let r := reads.foldl (fun s p => s.sysFix p.1 p.2) s
       (∀ p ∈ reads, r.markIn p.1 p.2 = none) ∧ (∀ p ∈ reads, s.fw.readable.getLsbD (leNat (s.sysRead (p.1 + 6) 2)) = true) ∧
         (let u := { s with mem := [(7, 1)] }
          ∃ p ∈ u.resumeReads savedLaunch 0, u.fw.readable.getLsbD (leNat (u.sysRead (p.1 + 6) 2)) = false))) ∧
    (let s := { sLaunch savedLaunch with poison := [{ place := .hbm, gran := 0, code := 5 }] }
     ((s.resumeReads savedLaunch 0).findSome? fun p => s.markIn p.1 p.2) = some (0, 5)) ∧
    (let s := { s0 with warps := [{ i0.warp with phase := .retired, run := none }] }
     s.team? team.id = some team ∧ s.live team.id = [] ∧ (∀ m ∈ s.msgs, m.warp.team ≠ team.id) ∧ s.coreRuns team.core = true ∧
       s.eventRoom = true) ∧
    (let l := { free with retired := 1, placed := 1 }
     let s := { sLaunch l with fw := { s0.fw with held := some (.retired { launch := l.id, team := 0 }) :: List.replicate 11 none } }
     s.launch? l.id = some l ∧ s.eventRoom = true ∧ s.handles l.id.ctx l.queue = true ∧ l.phase ≠ .killing ∧ l.retired = l.teams ∧
       l.saved = []) ∧
    (let l := { free with phase := .killing }
     (sLaunch l).launch? l.id = some l ∧ l.phase = .killing ∧ (∀ m ∈ (sLaunch l).msgs, m.warp.team.launch ≠ l.id) ∧
       ∀ x ∈ (sLaunch l).warps, x.id.team.launch = l.id → x.rested = true) ∧
    1 < launch.warps ∧ 63 < 64 := by decide +kernel

/-- A launch that one of higher PRIO, or one that became ready before it in another queue, holds back; two saved teams that ask for different
accumulators. -/
theorem witness_TeamsAndLaunchesComplete_order :
    (let n : Launch := { free with id := { ctx := 0, num := 2 }, queue := 1 }
     let l : Launch := { free with since := 1 }
     let s := { sFree with launches := [l, n] }
     s.launch? l.id = some l ∧ n ∈ s.launches ∧ s.samePart n.id l.id = true ∧ s.mayPlace n = true ∧ s.canPlace n = true ∧ n.prio = l.prio ∧
       n.since < l.since ∧ n.queue ≠ l.queue ∧ l.prio < ({ n with desc := [0x80, 0x0000010700000000, 1, 8] } : Launch).prio) ∧
    (let t (n : Nat) : Option SavedTeam := some { team := { team with id := { launch := free.id, team := n }, counts := List.replicate (2 * n) (0, []) },
                                                  warps := [], prev := [], next := [], at' := 0, len := 0, warpsAt := 0 }
     let a := sFree.admits free (t 0) 63
     free.asks (t 1) ≠ free.asks (t 0) ∧ a.isSome = true ∧ ((sFree.placeTeam free 0 (t 0) 63 (a.getD 0)).admits free (t 1) 62).isSome = true) := by
  decide +kernel

def oneRecall (q : Bool) : Recall := { team := tid, tid := 1, core := 0, sched := true, queued := q, again := false }
/-- The holder of a negotiated tile at its boundary, and in its routine with the bound used. -/
def holder (r : Option Routine) : Warp := { idle with routine := r }
def sHold (r : Option Routine) (q : Bool) : State :=
  { s0 with warps := [holder r], teams := [{ team with taken := [taken] }], recalls := [oneRecall q] }

theorem witness_SurrendersAndCheckpointsComplete :
    ((sHold none false).recalls.find? (fun r => r.core == 0 && !r.queued) = some (oneRecall false) ∧
      ((sHold none false).recalls.filter fun r => r.core == 0 && r.queued).length < 16 ∧ (0 : Nat) < 12) ∧
    (let more := (List.range 13).map fun k => ({ oneRecall true with tid := k + 2, sched := k < 2 } : Recall)
     let s := { sHold none false with recalls := more ++ [{ oneRecall false with sched := false }] }
     (more.filter fun r => !r.sched).length = 11 ∧ (s.recalls.filter fun r => r.core == 0 && r.queued).length = 13 ∧ 13 < 16 ∧
       (s.recalls.find? fun r => r.core == 0 && !r.queued) = some { oneRecall false with sched := false }) ∧
    ((sHold none true).warp? (holder none).id = some (holder none) ∧ (holder none).run = none ∧ (holder none).phase = .ready ∧
      (sHold none true).coreRuns 0 = true ∧ ((sHold none true).launchOf (holder none).id).phase ≠ .killing ∧
      (sHold none true).nextRecall (holder none) = some (oneRecall true) ∧
      (sHold none true).team? (holder none).id.team = some { team with taken := [taken] } ∧
      (({ team with taken := [taken] } : Team).taken.find? fun u => u.tid == (oneRecall true).tid) = some taken) ∧
    (let x := holder (some routine)
     (sHold (some routine) true).warp? x.id = some x ∧ x.routine = some routine ∧ (sHold (some routine) true).coreRuns 0 = true ∧
       routine.bound ≤ routine.done ∧ x.run = none ∧ x.phase = .ready ∧ taken.save = none ∧ (sHold (some routine) true).errs = []) ∧
    (let twelve := (List.range 12).map fun k => ({ oneRecall true with tid := k + 2, sched := false } : Recall)
     let s := { sHold none false with recalls := oneRecall false :: twelve }
     12 ≤ (twelve.filter fun r => !r.sched).length ∧ (s.recalls.filter fun r => r.core == 0 && r.queued).length < 16 ∧
       (s.recalls.find? fun r => r.core == 0 && !r.queued && r.sched) = some (oneRecall false)) ∧
    (let s := { sHold none true with warps := [{ idle with phase := .parked 3 1 0x100 }] }
     (s.warp? idle.id).map (·.phase) = some (.parked 3 1 0x100) ∧ (s.nextRecall { idle with phase := .parked 3 1 0x100 }) = some (oneRecall true)) ∧
    (let u : Taken := { taken with save := some 0x8000 }
     let x := holder (some routine)
     let t : Team := { team with taken := [u] }
     let s := { sHold (some routine) true with teams := [t] }
     let ps := lineParts (0x8000 : W64).toNat (t.saveRecord u x.id).length
     let v := ps.foldl (fun s p => s.saveLine x 0x8000 (t.saveRecord u x.id) p) s
     (s.errs.any fun e => t.unitWord u e.1) = false ∧ (v.warp? x.id).map (fun y => (y.phase != .faulted,
       (y.routine.map fun r => ps.all fun p => r.lines.contains p.1))) = some (true, some true)) ∧
    team.unitWord taken (.acc tid 33 0) = false ∧
    (let l := { launch with phase := .yielding 100 }
     ({ s0 with launches := [l] } : State).launch? l.id = some l ∧ l.phase = .yielding 100 ∧ 100 ≤ s0.now) ∧
    (let l := { launch with phase := .stopping, desc := [0x80, 0, 1, 0] }
     let t := { team with spad := [], tiles := [], acc := [], counts := [], bars := [], ag := [] }
     let s := { s0 with launches := [l], teams := [t], warps := [{ idle with phase := .stopped }] }
     s.launch? l.id = some l ∧ s.ctx? l.id.ctx = some ctx ∧ s.saveReady l.id = true ∧ s.saveErr l.id = none ∧
       s.saveUsed l ctx + s.saveSize l ≤ ctx.saveSize ∧
       ({ s with warps := [{ idle with phase := .stopped, v := [vreg 3 .pool] }], errs := [(.pool idle.id 3 0, true)] } : State).saveErr l.id =
         some (.pool idle.id 3 0)) := by decide +kernel

/-- A warp with a register row, a stack entry and its modulo registers. -/
theorem witness_SurrendersAndCheckpointsComplete_record :
    let x : Warp := { idle with v := [vreg 3 .pool, vreg 1 .pool], stack := [{ join := true, addr := 0x1040, cp := true, mask := 5, key := 9 }] }
    x.m.length = 8 ∧ (∀ e ∈ x.stack, e.addr.toNat % 32 = 0 ∧ e.addr.toNat < 2 ^ 54) ∧ (x.v.map fun r => r.num).Nodup ∧
    (∀ r ∈ x.v, r.num < 256 ∧ r.lanes.length = 32) ∧ x.id.warp < 32 ∧ x.pc.toNat % 32 = 0 ∧ x.pc.toNat < 2 ^ 54 ∧ x.stack.length < 2 ^ 11 ∧
    x.limit < 2 ^ 24 ∧ x.fstat.toNat < 2 ^ 8 ∧ x.k.length = 64 := by decide +kernel

/-- A routine at its bound whose unit is gone, and one while the die's copy unit is frozen, and while it runs. -/
theorem witness_SurrendersAndCheckpointsComplete_unit :
    (team.taken.find? fun u => u.tid == routine.tid && u.cls == .neg && u.holder == idle.id.warp) = none ∧
    ([taken].find? fun u => u.tid == routine.tid && u.cls == .neg && u.holder == idle.id.warp) = some taken ∧
    (let s := sHold (some routine) true
     s.unitRuns (dieOf idle.core) (.copy (dieOf idle.core)) = true ∧
       ({ s with frozen := [.copy 0] } : State).unitRuns (dieOf idle.core) (.copy (dieOf idle.core)) = false ∧
       ({ s with frozen := [.copy 0] } : State).coreRuns 0 = true) ∧
    (holder none).phase = .ready ∧ (holder none).rejoin = none ∧ (holder none).owes = false ∧ ({ idle with phase := .stopped } : Warp).owes = false ∧
    ({ idle with phase := .parked 3 1 0x100 } : Warp).owes = false ∧
    (let x : Warp := { owing with routine := some routine }
     let s := { sHold (some routine) true with warps := [x] }
     s.warp? x.id = some x ∧ x.routine = some routine ∧ s.coreRuns x.core = true ∧ routine.bound ≤ routine.done ∧ x.run = none ∧
       x.phase = .ready ∧ x.rejoin ≠ none) := by decide +kernel

/-! ### Packets -/

def pktId : PktId := { ctx := 0, queue := 0, pos := 0 }
def pkt (q0 : W64) (body : List W64) (ph : PktPh) : Pkt := { pos := 0, q := [q0, 0, 1, 0], body := body, ph := ph, got := [], since := 0, eval := 0 }
def sPkt (k : Pkt) : State := { s0 with ctxs := [{ ctx with queues := [{ queue with window := [k] }] }] }
def launchPkt : Pkt := pkt 0x1400001500000000 free.desc .waiting
def copyPkt : Pkt := { pkt 0x2000000300000000 [0x100, 0x200, 16] .waiting with got := [0] }
def writePkt : Pkt := pkt 0x3000000200000000 [0x100, 0xFFFFFFFF] .waiting
/-- WAITMEM for equality with 0, which empty memory reads as. -/
def waitPkt (ph : PktPh) : Pkt := pkt 0x4000000200000000 [0x100, 0] ph
def tokenPkt : Pkt := pkt 0x5000000100000000 [1] .waiting
def fencePkt : Pkt := pkt 0x6000000000000000 [] .waiting

/-- A packet in its queue's window, which may act: a firmware core handles an event of the queue. -/
def sHeld (k : Pkt) : State :=
  { sPkt k with fw := { (sPkt k).fw with held := some (.packet pktId) :: List.replicate 11 none } }
def may (k : Pkt) : Prop := (sHeld k).queue? 0 0 = some { queue with window := [k] } ∧ (sHeld k).pkt? pktId = some k ∧
  (sHeld k).eventRoom = true ∧ (sHeld k).faulty 0 = false ∧ (sHeld k).handles 0 0 = true

theorem witness_PacketsComplete_may : may launchPkt ∧ may copyPkt ∧ may writePkt ∧ may (waitPkt .waiting) ∧ may (waitPkt .started) ∧
    may tokenPkt ∧ may fencePkt ∧ may (pkt 0x6000000000000000 [] .done) := by
  unfold may
  decide +kernel

theorem witness_PacketsComplete :
    let starts (k : Pkt) : Bool := ({ queue with window := [k] } : Queue).turn false k
    let u (k : Pkt) : State := (sHeld k).turnPkt pktId k .started
    (starts launchPkt = true ∧ launchPkt.type = 1 ∧ (sHeld launchPkt).dispatchHeld = false ∧ ((u launchPkt).ctx? 0).isSome = true ∧
      (u launchPkt).descOk (launchOf pktId 1 0 launchPkt) = true ∧ launchPkt.npr = true ∧
      (u launchPkt).descOk (launchOf pktId 1 0 { launchPkt with body := [] }) = false) ∧
    (starts copyPkt = true ∧ copyPkt.type = 2 ∧ (copyPkt.word 0).toNat < 2 ^ 54 ∧ (copyPkt.word 1).toNat < 2 ^ 54 ∧
      (copyPkt.word 0).toNat % 16 = 0 ∧ (copyPkt.word 1).toNat % 16 = 0 ∧
      (copyPkt.word 2).toNat % 16 = 0 ∧ 16 ≤ (copyPkt.word 2).toNat ∧ (copyPkt.word 2).toNat ≤ 2 ^ 30 ∧
      ((copyPkt.copyParts.foldl (fun s x => s.pktPart pktId x) (u copyPkt)).pkt? pktId).map (fun y =>
        copyPkt.copyParts.all fun x => y.got.contains x.1) = some true) ∧
    (starts writePkt = true ∧ writePkt.type = 3 ∧ (writePkt.word 0).toNat % 4 = 0 ∧ (writePkt.word 1).toNat < 2 ^ 32 ∧
      ((u writePkt).lineAt 0 2 1 (.packet pktId) (writePkt.word 0) 0 0).2 = .page 0x100 false) ∧
    (let k := waitPkt .waiting
     starts k = true ∧ k.type = 4 ∧ (k.word 0).toNat % 4 = 0 ∧ (k.word 1).toNat < 2 ^ 34 ∧
       (let t := (((u k).setPkt pktId fun y => { y with got := [0] }).lineAt 0 2 0 (.packet pktId) (k.word 0) 0 0)
        t.2 = .page 0x100 false ∧ t.1.sysMark 0x100 4 = none ∧
          waitCond ((k.word 1).toNat / 2 ^ 32) (leNat ((t.1.sysFix 0x100 4).sysRead 0x100 4)) ((k.word 1).toNat % 2 ^ 32) = true)) ∧
    (let k := waitPkt .started
     let s := { sHeld k with fw := { (sHeld k).fw with held := some (.reread pktId) :: List.replicate 11 none } }
     k.ph = .started ∧ s.rereads pktId = true ∧ s.pkt? pktId = some k ∧
       (let t := ((s.setPkt pktId fun y => { y with got := [0] }).lineAt 0 2 0 (.packet pktId) (k.word 0) 0 0)
        t.2 = .page 0x100 false ∧ t.1.sysMark 0x100 4 = none ∧
          waitCond ((k.word 1).toNat / 2 ^ 32) (leNat ((t.1.sysFix 0x100 4).sysRead 0x100 4)) ((k.word 1).toNat % 2 ^ 32) = true)) ∧
    (starts tokenPkt = true ∧ tokenPkt.type = 5) ∧ (starts fencePkt = true ∧ fencePkt.type = 6) := by decide +kernel

/-- A LAUNCH with CLR whose turn comes while an ACTIVATE holds the dispatcher; and one that became ready then. -/
theorem witness_PacketsComplete_held :
    let k (ph : PktPh) : Pkt := { launchPkt with ph := ph }
    let s (ph : PktPh) : State := { sHeld (k ph) with host := { s0.host with ring := 1, cmd := [0x0C00000000000000, 0, 0, 0] } }
    (s .waiting).dispatchHeld = true ∧ (k .waiting).type = 1 ∧ ({ queue with window := [k .waiting] } : Queue).turn true (k .waiting) = true ∧
    (s .waiting).handles 0 0 = true ∧ (k .ready).ph = .ready ∧ ({ queue with window := [k .ready] } : Queue).turn false (k .ready) = true ∧
    (let c : Pkt := { pkt 0x5800000100000000 [1] .waiting with q := [0x5800000100000000, 1, 1, 0] }
     c.ph = .waiting ∧ c.clr = true ∧ c.wait ≠ 0) := by decide +kernel

/-- Pre-emption: a context of thresholds that let a launch drain, be asked to yield, stop or be killed, and a launch that waits. -/
theorem witness_PacketsComplete_preemption :
    (ctx.dthr ≠ 2 ^ 64 - 1 ∧ ctx.ydl ≠ 2 ^ 64 - 1 ∧ s0.ctx? launch.id.ctx = some ctx ∧ ctx.dthr ≤ s0.remaining launch ∧
      launch.ckp = false ∧ ctx.ydl = 0 ∧ 0 < ({ ctx with ydl := 5 } : Ctx).ydl ∧ s0.remaining launch < ({ ctx with dthr := 10 ^ 6 } : Ctx).dthr) ∧
    (let v : Launch := { launch with phase := .killing }
     let n : Launch := { launch with id := { ctx := 0, num := 1 }, placed := 0, waits := [v.id] }
     let s := { s0 with launches := [v, n] }
     s.launch? n.id = some n ∧ v.id ∈ n.waits ∧ s.launch? v.id = some v ∧ v.phase = .killing) := by decide +kernel

/-- A ring that holds the token packet whole, one that holds a word of an undefined type, and the firmware's events. -/
def sRing (q0 : Nat) : State :=
  { s0 with mem := wrBytes (wrBytes [] 0x200000 (leBytes 8 q0)) 0x200020 (leBytes 8 1), ctxs := [{ ctx with queues := [{ queue with wr := 40 }] }] }

theorem witness_PacketsArePoppedAndEventsTaken :
    (let s := { sRing 0x5000000100000000 with fw := { s0.fw with held := some (.doorbell 0 0) :: List.replicate 11 none } }
     let q : Queue := { queue with wr := 40 }
     let head := s.ringWords q 0 4
     s.queue? 0 0 = some q ∧ s.eventRoom = true ∧ s.faulty 0 = false ∧ s.handles 0 0 = true ∧ q.num = 0 ∧ q.frozen = false ∧
       q.window.length < 32 ∧ (∀ k ∈ q.window, k.type ≠ 6) ∧ 32 ≤ (q.wr + q.size - q.rd) % q.size ∧ headerOk head = true ∧
       32 + 8 * ((head.headD 0).toNat / 2 ^ 32 % 256) ≤ (q.wr + q.size - q.rd) % q.size ∧
       ∀ i, i < 4 + (head.headD 0).toNat / 2 ^ 32 % 256 → s.sysMark (q.wordAt i) 8 = none) ∧
    (let s := sRing 0xF000000000000000
     headerOk (s.ringWords { queue with wr := 40 } 0 4) = false) ∧
    (let s := { sRing 0x5000000100000000 with poison := [{ place := .hbm, gran := 0x200000 / 16, code := 5 }] }
     s.sysMark (({ queue with wr := 40 } : Queue).wordAt 0) 8 = some 5) ∧
    (let s := { s0 with fw := { s0.fw with
       held := some (.doorbell 0 0) :: List.replicate 11 none, events := [.tokens 0 0, .command, .packet { ctx := 0, queue := 1, pos := 0 }] } }
     11 < 12 ∧ s.fw.events = [.tokens 0 0] ++ .command :: [.packet { ctx := 0, queue := 1, pos := 0 }] ∧ s.fw.held.getD 11 none = none ∧
       (s.evtQueue (.tokens 0 0)).isSome = true ∧ s.evtQueue (.doorbell 0 0) = s.evtQueue (.tokens 0 0) ∧ s.evtQueue .command = none ∧
       s.badCommand = false ∧ s.fw.held.length = 12) ∧
    (let s := { sRing 0x5000000100000000 with fw := { s0.fw with held := some (.doorbell 0 0) :: List.replicate 11 none } }
     s.fw.held.getD 0 none = some (.doorbell 0 0) ∧ s.unfinished (.doorbell 0 0) = true) := by decide +kernel

/-- A doorbell that waits for room, and a full event queue. -/
theorem witness_PacketsArePoppedAndEventsTaken_bell :
    let y : Posted := { id := 5, op := .bell 0 0 64, ro := false, entered := false, routes := [] }
    let s := { s0 with host := { s0.host with posted := [y] } }
    s.host.posted = [y] ∧ y.entered = false ∧ y.op = .bell 0 0 64 ∧ s.eventRoom = true ∧ s0.host.posted = [] ∧
      ({ s with fw := { s.fw with events := List.replicate 4096 (.tokens 0 1) } } : State).eventRoom = false := by decide +kernel

/-- A queue whose window holds a packet that has finished, while the event queue is full; and QRESUME of that queue, whose lock it holds. -/
theorem witness_PacketsArePoppedAndEventsTaken_lock :
    (let q : Queue := { queue with window := [pkt 0x6000000000000000 [] .done] }
     let s := { s0 with ctxs := [{ ctx with queues := [q] }], fw := { s0.fw with
       held := some (.doorbell 0 0) :: List.replicate 11 none, events := List.replicate 4096 (.tokens 0 1) } }
     s.queue? 0 0 = some q ∧ (∃ k ∈ q.window, k.ph = .done) ∧ s.eventRoom = false ∧ s.unfinished (.doorbell 0 0) = true) ∧
    (let s := { s0 with host := { s0.host with ring := 1, cmd := [0x0404050000000000, 0, 0, 0] } }
     (s.host.cmd.headD 0).toNat / 2 ^ 56 = 4 ∧ (s.host.cmd.headD 0).toNat / 2 ^ 50 % 64 = 1 ∧ (s.host.cmd.headD 0).toNat / 2 ^ 40 % 256 = 5) := by
  decide +kernel

/-! ### The host and its commands -/

theorem witness_HostAccessesComplete :
    s0.host.frozen = false ∧ s0.host.posted = [] ∧ s0.eventRoom = true ∧ s0.host.ring = 0 ∧
    (s0.queue? 0 0 = some queue ∧ (64 : W64).toNat % 8 = 0 ∧ (64 : W64).toNat % queue.size ≠ queue.rd ∧ queue.wr = queue.rd) ∧
    (2 ^ 39 - 1 + [(1 : W8)].length ≤ 2 ^ 39 ∧ [(1 : W8)].length ≤ 512 ∧ [(1 : W8)] ≠ []) ∧
    (let w : Posted := { id := 5, op := .write 0 [1] false, ro := false, entered := true, routes := [0] }
     ({ s0 with host := { s0.host with posted := [w] } } : State).host.posted = [w]) ∧
    (0 + 8 ≤ 2 ^ 39 ∧ 0 % 8 = 0 ∧ 4 + 4 ≤ 2 ^ 39 ∧ 4 % 4 = 0 ∧ 2 ^ 39 < 2 ^ 39 + 4) ∧ (counterBytes 0x10300).isSome = true ∧ 3 < 4 ∧
    ({ s0 with host := { s0.host with frozen := true } } : State).host.frozen = true ∧
    (let u := (s0.atHome none 0x100 4).dropLags 0x100 4
     leNat (rdBytes u.mem 0x100 4) = (0 : W64).toNat % 2 ^ 32 ∧ leNat (rdBytes u.mem 0x100 4) ≠ (1 : W64).toNat % 2 ^ 32) := by
  decide +kernel

/-- The mailbox with a command of an operation, for context 0, queue 0 and partition 0, and its arguments. -/
def sCmd (op : Nat) (a b c : W64) : State :=
  { s0 with host := { s0.host with ring := 1, cmd := [BitVec.ofNat 64 (op * 2 ^ 56), a, b, c] }
            fw := { s0.fw with held := some .command :: List.replicate 11 none } }
def cmdGiven (op : Nat) (s : State) : Prop := CommandGiven s op

theorem witness_CommandsGiven : ∀ op, op < 14 → cmdGiven op (sCmd op 0 0 0) := by
  unfold cmdGiven CommandGiven
  decide +kernel

/-- A configuration block at 0x1000. -/
def ctxBlock : Mem := wrBytes [] 0x1000 ([0x400000, 0x500000, 0x600000, 0x100000, 0x700004, 0x710004, 0x720004, 0x730004, 0x740000, 2].flatMap
  (leBytes 8))

theorem witness_ContextCommandsComplete :
    (let s := { sCmd 1 0x1000 0 0 with teams := [], warps := [], launches := [], ctxs := [], mem := ctxBlock }
     placed (s.mail 1) 128 = true ∧ s.sysMark (s.mail 1) 128 = none ∧
       blockOk (fun i => leNat ((s.sysFix (s.mail 1) 128).sysRead (s.mail 1 + 8 * i) 8)) = true ∧ s.partDies s.cmdPart ≠ [] ∧
       (∀ l ∈ ({ s with launches := [{ launch with placed := 0 }] } : State).launches, l.id.ctx = s.cmdCtx →
         ({ s with launches := [{ launch with placed := 0 }] } : State).resident l.id = false ∧ l.phase ≠ .saved ∧ l.saved = []) ∧
       ∃ l ∈ (sCmd 1 0x1000 0 0).launches, l.id.ctx = s.cmdCtx ∧ (sCmd 1 0x1000 0 0).resident l.id = true) ∧
    (let s := { sCmd 2 0x200000 4096 0x300000 with ctxs := [{ ctx with queues := [] }] }
     s.mail 1 % 4096 = 0 ∧ s.mail 3 % 64 = 0 ∧ s.mail 2 = 2 ^ (12 + 0) ∧ placed (s.mail 1) (s.mail 2) = true ∧ placed (s.mail 3) 64 = true ∧
       (s.ctx? s.cmdCtx).isSome = true ∧ s.queue? s.cmdCtx s.cmdQueue = none) ∧
    (let s := { sCmd 3 0 0 0 with ctxs := [{ ctx with queues := [{ queue with frozen := true }] }] }
     s.queue? s.cmdCtx s.cmdQueue = some { queue with frozen := true }) ∧
    (∀ a ∈ (sCmd 5 0 0 0).heldAt 0, False) ∧
    (let w : LaneStore := { space := .mem, hint := 0, va := 0x100, addr := 0x100, bytes := [1] }
     let s := { sCmd 5 0 0x10000 0 with
       warps := [{ i0.warp with run := some { i0.run with sslots := [.stores .warp .relaxed [w]] } }] }
     s.heldAt s.cmdCtx = [0x100] ∧ 0x100 / 65536 * 65536 < s.mail 1 + s.mail 2 ∧ s.mail 1 < (0x100 / 65536 + 1) * 65536) ∧
    (∀ l ∈ (sCmd 8 0 0 0).launches, l.id.ctx = (sCmd 8 0 0 0).cmdCtx →
      (sCmd 8 0 0 0).usesCode l ((sCmd 8 0 0 0).mail 1) ((sCmd 8 0 0 0).mail 2) = false) := by decide +kernel

theorem witness_DeviceCommandsComplete :
    (let p : Part := { Part.reset [0] with up := true, flushed := true }
     let s := { sCmd 9 0 0 0 with parts := [p] }
     s.parts[s.cmdPart]? = some p ∧ p.up = true ∧ p.flushed = true ∧ (∀ f ∈ s.raised, s.partOf f.ctx ≠ s.cmdPart) ∧
       (∀ y ∈ s.lost, y.1 ≠ s.cmdPart) ∧ ({ p with flushed := false } : Part).flushed = false) ∧
    (let s := { sCmd 10 0xE4 0xFFFFFFFFFFFFFFFF 0 with teams := [] }
     s.fw.bringUp = false ∧ s.teams = [] ∧ ∀ d ∈ dies, BitVec.ofNat 16 (s.mail 2 / 2 ^ (16 * (s.mail 1 / 4 ^ d % 4))) ≠ 0) ∧
    ((sCmd 11 0 0 0).parts[(sCmd 11 0 0 0).cmdPart]? = some (Part.reset [0])) ∧
    (let s := { sCmd 12 0x100000 64 0 with teams := [], launches := [savedLaunch], mem := wrBytes [] 0x100000 (leBytes 8 0x4F58465700000001) }
     let u := s.sysFix (s.mail 1) (s.mail 2)
     placed (s.mail 1) (s.mail 2) = true ∧ (∀ l ∈ s.launches, l.phase ≠ .stopping ∧ l.phase ≠ .yielding 0) ∧
       s.sysMark (s.mail 1) (s.mail 2) = none ∧ leNat (u.sysRead (s.mail 1 + 0) 8) = 0x4F58465700000001 ∧ s.teams = [] ∧
       u.saveWords = [(0, 0), (0, 0)] ∧ (∀ p ∈ u.saveWords, u.sysMark p.2 8 = none) ∧
       (∀ p ∈ u.saveWords, (1 : W16).getLsbD (leNat (u.sysRead (p.2 + 6) 2)) = true ∧ (2 : W16).getLsbD (leNat (u.sysRead (p.2 + 6) 2)) = false) ∧
       (sCmd 12 0x100000 64 0).teams ≠ []) ∧
    (let s := { sCmd 13 0 0 0 with teams := [], fw := { s0.fw with bringUp := true, trained := true, equalised := true } }
     s.fw.bringUp = true ∧ s.teams = [] ∧ (∀ l ∈ s.launches, l.phase ≠ .saved ∧ l.saved = []) ∧ s.fw.trained = true ∧
       s.fw.equalised = true) := by decide +kernel

/-- SERVICE while a team is resident, a launch saved, training incomplete; a halted context's queue that has a packet to start. -/
theorem witness_DeviceCommandsComplete_refused :
    (sCmd 13 0 0 0).teams ≠ [] ∧ (∃ l ∈ ({ sCmd 13 0 0 0 with launches := [savedLaunch] } : State).launches, l.phase = .saved ∨ l.saved ≠ []) ∧
    ({ sCmd 13 0 0 0 with fw := { s0.fw with trained := false } } : State).fw.trained = false ∧
    (let s := sPkt fencePkt
     (s.queue? 0 0).isSome = true ∧ (s.setCtx 0 fun x => { x with told := [] }).queueWork 0 0 = true) := by decide +kernel

theorem witness_HaltsComplete :
    (let f : Stop := s0.stopOf fetchWarp 0x0A 5 1 0x102 []
     let s := { s0 with raised := [f] }
     s.raiseLost.raised = f :: [] ∧ s.raiseLost.ctx? f.ctx = some ctx ∧ s.raiseLost.parts[ctx.part]? = some (Part.reset [0]) ∧ s.lost = [] ∧
       (f.cls < 2 ^ 8 ∧ f.cause < 2 ^ 8 ∧ f.ctx < 2 ^ 6 ∧ f.core.getD 0 < 2 ^ 8 ∧ f.ekind < 2 ^ 4 ∧ f.einst < 2 ^ 11 ∧
         f.payload.length < 2 ^ 16 ∧ f.launch < 2 ^ 32 ∧ f.team < 2 ^ 24 ∧ f.warp < 2 ^ 8)) ∧
    ({ s0 with lost := [(0, 0x100, 5)] } : State).lost = [(0, 0x100, 5)] ∧
    (let p : Part := { Part.reset [0] with up := true }
     let s := { s0 with parts := [p] }
     s.parts[0]? = some p ∧ p.up = true ∧ Master.core 63 ∈ p.units ∧ Master.core 63 ∉ p.stopped) ∧
    (let p : Part := { Part.reset [0] with up := true, stopped := ({ Part.reset [0] with up := true } : Part).units }
     let s := { s0 with parts := [p] }
     s.parts[0]? = some p ∧ p.up = true ∧ p.flushed = false ∧ (∀ m ∈ p.units, m ∈ p.stopped) ∧ (∀ f ∈ s.raised, s.partOf f.ctx ≠ 0) ∧
       ∀ x ∈ s.lost, x.1 ≠ 0) ∧
    (let s := { s0 with l1 := [{ l1Line with dirty := 1 }], l2 := [{ l2Line with st := .o, marked := 1 }] }
     (∀ x ∈ s.l1, s.l1? x.core x.line = some x) ∧ (∀ x ∈ s.l2, x.die = 0 ∧ s.l2? x.die x.line = some x) ∧ Mem.wf s.mem = true ∧
       ∀ x ∈ s.l2, (x.st = .m ∨ x.st = .o) ∧ ∀ y ∈ s.l2, y.line = x.line → (y.st = .m ∨ y.st = .o) → y = x) := by decide +kernel

/-! ### Memory -/

theorem witness_MemoryLaws : Mem.wf [(0, 1), (5, 2)] = true ∧ (4 : Nat) ≠ 5 ∧ Mem.wf [] = true := by decide

/-- Reset keeps the form, and the step that follows it with RESET in the agenda answers a state. -/
theorem witness_StepsKeepMemoryForm : State.reset.mem.wf = true ∧
    ∃ t, step { State.reset with agenda := [.deviceReset] } = .next t := ⟨rfl, _, rfl⟩

end Sys2Proof.Tests
end

section
/-! SUPPORT. The stage of a warp (R13). -/
namespace Sys2Proof.Machine

/-- The search for a warp's stage passes over each stage that ends before the warp, and stops in the one that holds it (R13). -/
theorem Launch.stageOf_go (l : Launch) (n s d i : Nat) (hd : d ≤ n) (hi : i < l.stageWarps (s + d)) :
    Launch.stageOf.go l n s (((List.range' s d).map l.stageWarps).sum + i) = (s + d, i) := by
  induction d generalizing n s with
  | zero =>
    cases n with
    | zero => simp [Launch.stageOf.go]
    | succ n =>
      have : i < l.stageWarps s := by simpa using hi
      simp [Launch.stageOf.go, this]
  | succ d ih =>
    obtain ⟨n, rfl⟩ : ∃ m, n = m + 1 := ⟨n - 1, by omega⟩
    have hs : s + (d + 1) = s + 1 + d := by omega
    rw [List.range'_succ, List.map_cons, List.sum_cons, Launch.stageOf.go, if_neg (by omega), Nat.add_assoc, Nat.add_sub_cancel_left,
      ih n (s + 1) (by omega) (by rwa [← hs]), hs]

/-- A warp that stands at place `i` of stage `g`, behind every warp of the stages before it, is of that stage (R13). -/
theorem Launch.stageOf_before (l : Launch) {g i : Nat} (hg : g < 8) (hi : i < l.stageWarps g) :
    l.stageOf (((List.range g).map l.stageWarps).sum + i) = (g, i) := by
  have h := l.stageOf_go 7 0 g i (by omega) (by simpa using hi)
  simpa [Launch.stageOf, List.range_eq_range'] using h

/-- The launch of a warp that a launch holds. -/
theorem State.launchOf_eq {s : State} {w : WarpId} {l : Launch} (h : s.launch? w.team.launch = some l) : s.launchOf w = l := by
  simp [State.launchOf, h]

/-- NULL's token, uniform or not, is valid on no lane (R96). -/
theorem nullToken_ok (u : Bool) (am : Lanes) (l : Nat) :
    (if u then Token.uniform false false 0 else Token.empty).ok am l = false := by
  cases u <;> simp [Token.ok, Token.uniform, Token.empty]

/-- NULL with FN 0 delivers a token of its kind that is valid nowhere (R96). -/
theorem null_completes {s : State} {x : Issue} {u : Bool} {a b : Tgt} (h : Fires s (.null u a b) x) :
    ∃ tok : Token, tok.uni = u ∧ (∀ l, tok.ok x.o.am l = false) ∧ Delivers s (.null u a b) x [a, b] tok 0 :=
  ⟨if u then Token.uniform false false 0 else Token.empty, by cases u <;> rfl, nullToken_ok u x.o.am,
    pure_delivers (exec_null s u a b) h⟩

/-- MOVI delivers its immediate, sign-extended for I64 alone (R98). -/
theorem moviVal_eq (ty : Ty) (imm : BitVec 32) : moviVal ty imm = if ty = .i64 then imm.signExtend 64 else imm.setWidth 64 := by
  simp [moviVal]

/-- MOV delivers its operand at TY's width to its two targets and to those of a second word (R97). -/
theorem mov_completes {s : State} {x : Issue} {f : MovF} (h : Fires s (.mov f) x) :
    Delivers s (.mov f) x ([f.t0, f.t1] ++ (f.more.map fun p => [p.1, p.2]).getD [])
      (resultTok (.mov f) x.o f.ty.wide fun l => x.o.left.atTy f.ty l) 0 := by
  have hd := pure_delivers (exec_mov s f) h
  cases hm : f.more with
  | none => simpa [hm] using hd
  | some p => simpa [hm] using hd

/-- GETSR delivers the register, cut to TY's width (R99). -/
theorem getsr_completes {s : State} {x : Issue} {ty : Ty} {pr : Pr} {u : Bool} {id : BitVec 8} {a b : Tgt}
    (h : Fires s (.getsr ty pr u id a b) x) :
    Delivers s (.getsr ty pr u id a b) x [a, b] (resultTok (.getsr ty pr u id a b) x.o ty.wide fun l =>
      if ty.wide then s.special x.warp x.run.am id.toNat l
      else ((s.special x.warp x.run.am id.toNat l).setWidth 32).setWidth 64) 0 := by
  have hd := pure_delivers (exec_getsr s ty pr u id a b) h
  simpa only [Ty.cut] using hd

/-- SEL delivers the left operand where its selector is not zero, and the right one where it is (R100). -/
theorem sel_completes {s : State} {x : Issue} {f : IntF} (h : Fires s (.sel f) x) :
    Delivers s (.sel f) x [f.t0, f.t1] (resultTok (.sel f) x.o f.ty.wide fun l =>
      if x.o.third.full l = 0 then f.b x.o l else x.o.left.atTy f.ty l) 0 := by
  have hd := pure_delivers (exec_sel s f) h
  simpa only [bne_iff_ne, ne_eq, ite_not] using hd

/-- What stage registers 3 and 14 read (R13, R29). -/
theorem State.special_stage {s : State} {x : Warp} {l : Launch} (h : s.launch? x.id.team.launch = some l) (am : Lanes) (lane : Nat)
    {g i : Nat} (hg : g < 8) (hi : i < l.stageWarps g) (hw : x.id.warp = ((List.range g).map l.stageWarps).sum + i) :
    s.special x am 3 lane = BitVec.ofNat 64 g ∧ s.special x am 14 lane = BitVec.ofNat 64 i := by
  simp [State.special, State.launchOf_eq h, hw, l.stageOf_before hg hi]

/-- What the chain register reads: the team's place in a chain launch, and all ones in every other (R29). -/
theorem State.special_chain {s : State} {x : Warp} {l : Launch} (h : s.launch? x.id.team.launch = some l) (am : Lanes) (lane : Nat) :
    s.special x am 12 lane = if l.plc = 2 then BitVec.ofNat 64 x.id.team.team else 0xFFFFFFFF := by
  simp [State.special, State.launchOf_eq h, Launch.chain]

/-- Settles O9: each instruction delivers by its shape, and a special register is read off its definition but for the stage. -/
theorem plainValuesComplete : Obligations.PlainValuesComplete := by
  unfold Obligations.PlainValuesComplete
  refine ⟨fun s x => ⟨fun u a b h => null_completes h, fun u ss h => ?_, fun f h => mov_completes h, fun ty pr u a imm h => ?_,
    fun ty pr u id a b h => getsr_completes h, fun f h => sel_completes h⟩, ?_⟩
  · rw [exec_nullSlot, execNullSlot, firing_eq h]
  · simpa only [moviVal_eq] using pure_delivers (exec_movi s ty pr u a imm) h
  · intro s x l am lane hl
    have hlaunch := State.launchOf_eq hl
    refine ⟨rfl, rfl, rfl, fun g i hg hi hw => State.special_stage hl am lane hg hi hw, ?_, ?_, rfl, rfl, rfl, rfl, rfl, rfl,
      fun hp => ?_, fun hp => ?_, rfl, ?_, fun c hc => ?_⟩
    · rw [← hlaunch]; rfl
    · rw [← hlaunch]; rfl
    · rw [State.special_chain hl, if_neg hp]
    · rw [State.special_chain hl, if_pos hp]
    · rw [← hlaunch]; rfl
    · simp [State.special, hc]

end Sys2Proof.Machine
end

section
/-! SUPPORT. The state after reset. -/
namespace Sys2Proof.Machine

/-- Every core of the machine after reset is a core as reset leaves it. -/
theorem eq_reset_of_mem_cores {c : Core} (h : c ∈ State.reset.cores) : c = Core.reset := List.eq_of_mem_replicate h

/-- Settles O5: the fields of the state after reset as they stand, its cores and partitions one by one. -/
theorem resetState : Obligations.ResetState := by
  unfold Obligations.ResetState
  have hcores : ∀ c ∈ State.reset.cores, c.cycles = 0 ∧ c.ovl = [] ∧ c.ovlCtx = none ∧ c.prev = [] ∧ c.next = [] ∧ c.code = [] ∧
      c.legend = [] ∧ c.tlb = [] := by
    intro c hc
    rw [eq_reset_of_mem_cores hc]
    exact ⟨rfl, rfl, rfl, rfl, rfl, rfl, rfl, rfl⟩
  have hparts : ∀ p ∈ State.reset.parts, p.up = false ∧ p.ways = 0xFFFF := by
    intro p hp
    rcases List.mem_cons.mp hp with rfl | hp
    · exact ⟨rfl, rfl⟩
    · rw [List.eq_of_mem_replicate hp]
      exact ⟨rfl, rfl⟩
  refine ⟨rfl, rfl, rfl, rfl, List.length_replicate, hcores, rfl, rfl, rfl, rfl, rfl, rfl, rfl, rfl, rfl, rfl, rfl, rfl, rfl, rfl,
    hparts, rfl, rfl, rfl, rfl, Mem.wf_empty, rfl, rfl, rfl, rfl⟩

end Sys2Proof.Machine
end

section
/-! SUPPORT. Placing a launch's teams (R22, R342, R350), and how a new team's warps begin (R19). -/
namespace Sys2Proof.Machine

variable {s : State} {l n : Launch}

/-! ### Which teams come next, and where they go -/

/-- A launch that is placed free or die-affine, with no team saved, has one next team: the first that has not been placed, for the named
core where the launch's mode allows it. -/
theorem State.nextTeams_one (core : Nat) (hs : l.saved = []) (hc : l.chain = false) (hr : l.cor = false) (hp : l.placed < l.teams) :
    s.nextTeams l core = [(l.placed, none, (s.allowed l).filter fun c => c == core)] := by
  obtain ⟨k, hk⟩ : ∃ k, l.teams - l.placed = k + 1 := ⟨l.teams - l.placed - 1, by omega⟩
  simp [State.nextTeams, hs, hc, hr, hk, List.range_succ_eq_map]

/-- One team that a core of its list admits is placed. -/
theorem State.placeTeams_one_isSome (t : Nat × Option SavedTeam × List Nat) {c a : Nat} (hc : c ∈ t.2.2)
    (ha : s.admits l t.2.1 c = some a) : (s.placeTeams l [t]).isSome = true := by
  have hfound : (t.2.2.findSome? fun c => (s.admits l t.2.1 c).map fun a => (c, a)).isSome = true :=
    List.findSome?_isSome_iff.mpr ⟨c, hc, by simp [ha]⟩
  obtain ⟨p, hp⟩ := Option.isSome_iff_exists.mp hfound
  simp [State.placeTeams, hp]

/-- A team whose only core admits it is placed there. -/
theorem State.placeTeams_one (i : Nat) (t : Option SavedTeam) {cs : List Nat} {core a : Nat} (hne : cs ≠ [])
    (hcs : ∀ c ∈ cs, c = core) (ha : s.admits l t core = some a) :
    s.placeTeams l [(i, t, cs)] = some (s.placeTeam l i t core a) := by
  obtain ⟨c, cs, rfl⟩ := List.exists_cons_of_ne_nil hne
  have : c = core := hcs c (by simp)
  simp [State.placeTeams, this, ha]

/-- Two teams that ask for different things are placed together where one choice of cores takes both (R22). -/
theorem State.placeTeams_two_isSome (t u : Nat × Option SavedTeam × List Nat) {c d a b : Nat} (hask : l.asks u.2.1 ≠ l.asks t.2.1)
    (hc : c ∈ t.2.2) (ha : s.admits l t.2.1 c = some a) (hd : d ∈ u.2.2)
    (hb : (s.placeTeam l t.1 t.2.1 c a).admits l u.2.1 d = some b) : (s.placeTeams l [t, u]).isSome = true := by
  have hall : ([u].all fun u => l.asks u.2.1 == l.asks t.2.1) = false := by simpa using hask
  rw [State.placeTeams, hall, if_neg Bool.false_ne_true, List.findSome?_isSome_iff]
  refine ⟨c, hc, ?_⟩
  simpa [ha] using State.placeTeams_one_isSome u hd hb

/-! ### Which launch is served (R342) -/

/-- A launch is not served while one that comes before it may be placed. -/
theorem State.served_false (hn : n ∈ s.launches) (hp : s.samePart n.id l.id = true) (hm : s.mayPlace n = true) (hc : s.canPlace n = true)
    (hb : l.prio < n.prio ∨ (n.prio = l.prio ∧ n.before l = true)) : s.served l = false := by
  have hfirst : n ∈ s.launches.filter fun n => s.samePart n.id l.id && (l.prio < n.prio || (n.prio == l.prio && n.before l)) := by
    simpa [hn, hp] using hb
  have hall : ((s.launches.filter fun n => s.samePart n.id l.id && (l.prio < n.prio || (n.prio == l.prio && n.before l))).all
      fun n => !(s.mayPlace n && s.canPlace n)) = false :=
    List.all_eq_false.mpr ⟨n, hfirst, by simp [hm, hc]⟩
  simp only [State.served, hall, Bool.and_false]

/-- Ready earlier, and not in one evaluation of one queue. -/
theorem Launch.before_of (hs : n.since < l.since) (hne : n.id.ctx ≠ l.id.ctx ∨ n.queue ≠ l.queue ∨ n.eval ≠ l.eval) :
    n.before l = true := by
  simp only [Launch.before, hs, decide_true, Bool.true_and, Bool.not_eq_true', Bool.and_eq_false_iff, beq_eq_false_iff_ne]
  tauto

/-! ### TEAM_PLACE and LAUNCH_RESUME -/

/-- TEAM_PLACE of a launch that is served, with no team saved. -/
theorem execTeamPlace_served (hl : s.launch? l.id = some l) (core : Nat) (hserved : s.served l = true) (hs : l.saved = []) :
    exec (.teamPlace l.id core) s = .next ((s.placeTeams l (s.nextTeams l core)).getD s) := by
  rw [exec_teamPlace, execTeamPlace, hl]
  simp [hserved, hs]

/-- TEAM_PLACE of a launch that is not served places nothing. -/
theorem execTeamPlace_unserved (hl : s.launch? l.id = some l) (core : Nat) (hserved : s.served l = false) :
    exec (.teamPlace l.id core) s = .next s := by
  rw [exec_teamPlace, execTeamPlace, hl]
  simp [hserved]

/-- LAUNCH_RESUME of a launch that is not served places nothing. -/
theorem execLaunchResume_unserved (hl : s.launch? l.id = some l) (core : Nat) (hserved : s.served l = false) :
    exec (.launchResume l.id core) s = .next s := by
  rw [exec_launchResume, execLaunchResume, hl]
  simp [hserved]

/-- The records of a launch's next resumption, corrected. -/
def State.resumeFixed (s : State) (l : Launch) (core : Nat) : State :=
  (s.resumeReads l core).foldl (fun s p => s.sysFix p.1 p.2) s

/-- Nothing holds back the resumption of a saved launch that is served and whose context has no fault. -/
theorem resume_goesOn (hserved : s.served l = true) (hs : l.saved ≠ []) (hf : s.faulty l.id.ctx = false) :
    (l.saved.isEmpty || !s.served l || s.faulty l.id.ctx) = false := by
  simp [hserved, hs, hf]

/-- The versions of the records that a resumption reads, record by record. -/
theorem resumeVers_all (reads : List (Nat × Nat)) :
    ((s.resumeVers reads).all fun v => s.fw.readable.getLsbD v) =
      reads.all fun p => s.fw.readable.getLsbD (leNat (s.sysRead (p.1 + 6) 2)) := by
  simp [State.resumeVers, List.all_map, Function.comp_def]

section Resume

variable (hl : s.launch? l.id = some l) (core : Nat) (hserved : s.served l = true) (hs : l.saved ≠ []) (hf : s.faulty l.id.ctx = false)

include hl hserved hs hf

/-- LAUNCH_RESUME that reads poison raises its fault (R362). -/
theorem execLaunchResume_poisoned {pa code : Nat}
    (hbad : ((s.resumeReads l core).findSome? fun p => (s.resumeFixed l core).markIn p.1 p.2) = some (pa, code)) :
    exec (.launchResume l.id core) s = .next ((s.resumeFixed l core).resumeFault l pa code) := by
  unfold State.resumeFixed at *
  rw [exec_launchResume, execLaunchResume, hl]
  simp only [resume_goesOn hserved hs hf, hbad, Bool.false_eq_true, if_false]

/-- LAUNCH_RESUME that meets a record of a version which is not listed reads none (R351). -/
theorem execLaunchResume_unlisted (hclean : ∀ p ∈ s.resumeReads l core, (s.resumeFixed l core).markIn p.1 p.2 = none)
    (hun : ∃ p ∈ s.resumeReads l core, s.fw.readable.getLsbD (leNat (s.sysRead (p.1 + 6) 2)) = false) :
    exec (.launchResume l.id core) s = .next s := by
  have hnone := List.findSome?_eq_none_iff.mpr hclean
  have hall : ((s.resumeReads l core).all fun p => s.fw.readable.getLsbD (leNat (s.sysRead (p.1 + 6) 2))) = false := by
    simpa using hun
  unfold State.resumeFixed at *
  rw [exec_launchResume, execLaunchResume, hl]
  simp only [resume_goesOn hserved hs hf, hnone, resumeVers_all, hall, Bool.false_eq_true, if_false, Bool.not_false, if_true]

/-- LAUNCH_RESUME places the launch that its records name (R350, R351). -/
theorem execLaunchResume_placed (hclean : ∀ p ∈ s.resumeReads l core, (s.resumeFixed l core).markIn p.1 p.2 = none)
    (hlisted : ∀ p ∈ s.resumeReads l core, s.fw.readable.getLsbD (leNat (s.sysRead (p.1 + 6) 2)) = true) {t : State}
    (ht : ((s.resumeFixed l core).spendKeys.setLaunch l.id fun _ => (s.resumeFixed l core).readSave l core).placeTeams
      ((s.resumeFixed l core).readSave l core)
      (((s.resumeFixed l core).spendKeys.setLaunch l.id fun _ => (s.resumeFixed l core).readSave l core).nextTeams
        ((s.resumeFixed l core).readSave l core) core) = some t) :
    exec (.launchResume l.id core) s = .next t := by
  have hnone := List.findSome?_eq_none_iff.mpr hclean
  have hall := List.all_eq_true.mpr hlisted
  unfold State.resumeFixed at *
  rw [exec_launchResume, execLaunchResume, hl]
  simp only [resume_goesOn hserved hs hf, hnone, resumeVers_all, hall, Bool.false_eq_true, if_false, Bool.not_true]
  rw [ht, Option.getD_some]

end Resume

/-! ### The ends of teams and launches (R26, R27, R347) -/

/-- TEAM_RETIRE of a team whose warps have retired and whose messages are complete, on a core that runs, the event queue having room. -/
theorem execTeamRetire_done {t : Team} (ht : s.team? t.id = some t) (hlive : s.live t.id = []) (hmsgs : ∀ m ∈ s.msgs, m.warp.team ≠ t.id)
    (hrun : s.coreRuns t.core = true) (hroom : s.eventRoom = true) :
    exec (.teamRetire t.id) s = .next (((s.removeTeam t.id 4).setLaunch t.id.launch fun l =>
      { l with retired := l.retired + 1 }).event (.retired t.id)) := by
  have hany : (s.msgs.any fun m => m.warp.team == t.id) = false := List.any_eq_false.mpr fun m hm => by simpa using hmsgs m hm
  rw [exec_teamRetire, execTeamRetire, ht]
  simp [hlive, hany, hrun, hroom]

/-- LAUNCH_COMPLETE of a launch whose teams have all retired, by a core that handles an event of its queue. -/
theorem execLaunchComplete_done (hl : s.launch? l.id = some l) (hh : s.handles l.id.ctx l.queue = true) (hk : l.phase ≠ .killing)
    (hr : l.retired = l.teams) (hs : l.saved = []) :
    exec (.launchComplete l.id) s =
      .next (((s.flushDies ((l.used.map dieOf).eraseDups)).dropLaunch l.id).donePkt l.pkt) := by
  rw [exec_launchComplete, execLaunchComplete, hl]
  simp [hh, hk, hr, hs]

/-- LAUNCH_COMPLETE of a killed launch whose messages are complete and whose warps rest. -/
theorem execLaunchComplete_killed (hl : s.launch? l.id = some l) (hk : l.phase = .killing)
    (hmsgs : ∀ m ∈ s.msgs, m.warp.team.launch ≠ l.id) (hrest : ∀ x ∈ s.warps, x.id.team.launch = l.id → x.rested = true) :
    exec (.launchComplete l.id) s =
      .next ((((s.teamsOf l.id).foldl (fun s t => s.removeTeam t 4) s).dropLaunch l.id).freezePkt l.pkt 5 0) := by
  have hany : (s.msgs.any fun m => m.warp.team.launch == l.id) = false := List.any_eq_false.mpr fun m hm => by simpa using hmsgs m hm
  have hwarps : (s.warps.any fun x => x.id.team.launch == l.id && !x.rested) = false :=
    List.any_eq_false.mpr fun x hx => by simpa using hrest x hx
  rw [exec_launchComplete, execLaunchComplete, hl]
  simp [hk, State.endKill, hany, hwarps]

/-! ### How a new team's warps begin (R19) -/

/-- A warp of a new team: at the entry, every lane active, the launch's parameters in its first uniform registers, nothing bound. -/
theorem Launch.newWarps_getElem? (l : Launch) (i core order w : Nat) (hw : w < l.warps) :
    (l.newWarps i core order)[w]? = some { Warp.begin { team := { launch := l.id, team := i }, warp := w } core l.rows
      ((List.range 64).map fun j => if j < l.npar then l.par j else 0) l.entry with order := order + w } := by
  simp [Launch.newWarps, hw]

/-- A list made by a function over a range reads as the function. -/
theorem getD_map_range {α : Type} (f : Nat → α) (d : α) {n j : Nat} (hj : j < n) : ((List.range n).map f).getD j d = f j := by
  simp [List.getD_eq_getElem?_getD, hj]

/-- Settles O51: each step by its own equation, a launch that another comes before by `State.served_false`. -/
theorem teamsAndLaunchesComplete : Obligations.TeamsAndLaunchesComplete := by
  unfold Obligations.TeamsAndLaunchesComplete
  refine ⟨fun s l hl => ⟨?_, ?_, ?_, ?_, ?_, ?_, ?_, ?_⟩, fun l i core order w hw => ?_⟩
  · intro core a hserved hs hc hr hp hmem ha
    have hplace : s.placeTeams l (s.nextTeams l core) = some (s.putTeam l l.placed core a) := by
      rw [State.nextTeams_one core hs hc hr hp]
      exact State.placeTeams_one l.placed none (List.ne_nil_of_mem (List.mem_filter.mpr ⟨hmem, beq_self_eq_true core⟩))
        (fun c hc => by simpa using (List.mem_filter.mp hc).2) ha
    rw [execTeamPlace_served hl core hserved hs, hplace, Option.getD_some]
  · intro core t hserved hs ht
    rw [execTeamPlace_served hl core hserved hs, ht, Option.getD_some]
  · intro core n hn hp hm hc hb
    have hserved : s.served l = false :=
      State.served_false hn hp hm hc (hb.imp_right fun ⟨hprio, hsince, hne⟩ => ⟨hprio, Launch.before_of hsince hne⟩)
    exact ⟨execTeamPlace_unserved hl core hserved, execLaunchResume_unserved hl core hserved⟩
  · intro t u c d a b hask hc ha hd hb
    exact State.placeTeams_two_isSome t u hask hc ha hd hb
  · intro core hserved hs hf
    exact ⟨fun pa code hbad => execLaunchResume_poisoned hl core hserved hs hf hbad, fun hclean =>
      ⟨fun hun => execLaunchResume_unlisted hl core hserved hs hf hclean hun,
        fun t hlisted ht => execLaunchResume_placed hl core hserved hs hf hclean hlisted ht⟩⟩
  · intro t ht hlive hmsgs hrun hroom
    exact execTeamRetire_done ht hlive hmsgs hrun hroom
  · intro hh hk hr hs
    exact execLaunchComplete_done hl hh hk hr hs
  · intro hk hmsgs hrest
    exact execLaunchComplete_killed hl hk hmsgs hrest
  · refine ⟨_, l.newWarps_getElem? i core order w hw, rfl, rfl, rfl, rfl, rfl, rfl, rfl, rfl, rfl, rfl, rfl, rfl, by simp [Warp.begin],
      fun j hj => ?_⟩
    exact getD_map_range (fun j => if j < l.npar then l.par j else 0) 1 hj

end Sys2Proof.Machine
end

section
/-! SUPPORT. The clock of a core: its candidates, R344's orders, the picks, urgency and the power rate. -/
namespace Sys2Proof.Machine

/-! ### Lists -/

/-- The pairs of a list with the places of its elements. -/
theorem mem_range_zip {α : Type} {xs : List α} {p : Nat × α} : p ∈ (List.range xs.length).zip xs ↔ xs[p.1]? = some p.2 := by
  rw [List.mem_iff_getElem?]
  constructor
  · rintro ⟨i, hi⟩
    obtain ⟨h1, h2⟩ := List.getElem?_zip_eq_some.mp hi
    obtain ⟨_, h1⟩ := List.getElem?_eq_some_iff.mp h1
    rw [List.getElem_range] at h1
    rwa [← h1]
  · intro h
    obtain ⟨hlt, _⟩ := List.getElem?_eq_some_iff.mp h
    exact ⟨p.1, List.getElem?_zip_eq_some.mpr ⟨by simp [hlt], h⟩⟩

/-- In a list sorted by `R`, the key of an element that at most `n` other keys come before is among the first `n + 1` keys. -/
theorem mem_take_eraseDups {α κ : Type} [BEq κ] [LawfulBEq κ] (key : α → κ) {R : α → α → Prop} (n : Nat) {l : List α} {ks : List κ} {c : α}
    (hl : l.Pairwise R) (hc : c ∈ l) (hks : ks.length ≤ n) (hR : ∀ d ∈ l, R d c → key d = key c ∨ key d ∈ ks) :
    key c ∈ ((l.map key).eraseDups).take (n + 1) := by
  induction n generalizing l ks with
  | zero =>
    obtain rfl := List.eq_nil_of_length_eq_zero (Nat.le_zero.mp hks)
    cases l with
    | nil => simp at hc
    | cons e l =>
      have he : key e = key c := by
        rcases List.mem_cons.mp hc with rfl | hc
        · rfl
        · simpa using hR e (by simp) (List.rel_of_pairwise_cons hl hc)
      simp [List.eraseDups_cons, he]
  | succ n ih =>
    cases l with
    | nil => simp at hc
    | cons e l =>
      rw [List.map_cons, List.eraseDups_cons, List.take_succ_cons, List.mem_cons]
      by_cases he : key c = key e
      · exact .inl he
      · right
        have hc : c ∈ l := (List.mem_cons.mp hc).resolve_left fun h => he (by rw [h])
        have hmem : key e ∈ ks := (hR e (by simp) (List.rel_of_pairwise_cons hl hc)).resolve_left fun h => he h.symm
        have hlen : (ks.erase (key e)).length ≤ n := by
          rw [List.length_erase_of_mem hmem]
          omega
        have hfilter : ((l.map key).filter fun b => !b == key e) = (l.filter fun d => !key d == key e).map key := by
          rw [List.filter_map]
          rfl
        rw [hfilter]
        refine ih ((List.pairwise_cons.mp hl).2.filter _) (by simp [hc, he]) hlen fun d hd hRd => ?_
        obtain ⟨hd, hne⟩ := List.mem_filter.mp hd
        have hne : key d ≠ key e := by simpa using hne
        exact (hR d (List.mem_cons_of_mem e hd) hRd).imp_right fun h => (List.mem_erase_of_ne hne).mpr h

/-! ### The candidates (R68, R344) -/

/-- An instruction that may issue: idle, its slots full, held back by nothing. -/
theorem Run.mem_fireable {r : Run} {k : Nat} : k ∈ r.fireable ↔
    k ≤ r.ni ∧ (r.node k).st = .idle ∧ ∃ i, r.instr k = some i ∧ (r.node k).full i = true ∧ r.held k = false := by
  simp only [Run.fireable, List.mem_filter, List.mem_range, Nat.lt_succ_iff, Bool.and_eq_true, beq_iff_eq]
  refine and_congr_right fun _ => and_congr_right fun _ => ?_
  cases r.instr k <;> simp

/-- The candidate that an instruction of a warp in a slot is. -/
def candOf (n : Nat) (x : Warp) (r : Run) (k : Nat) : Cand :=
  { w := x.id, k := k, slot := n, age := x.age, urgent := x.urgent, order := r.order }

/-- A core's candidates are the fireable instructions of the running blocks of its warps. -/
theorem State.mem_cands {s : State} {core : Nat} {c : Cand} : c ∈ s.cands core ↔
    ∃ n x r k, (s.warpsOn core)[n]? = some x ∧ x.phase = .running ∧ x.run = some r ∧ k ∈ r.fireable ∧ c = candOf n x r k := by
  simp only [State.cands, List.mem_flatMap]
  constructor
  · rintro ⟨⟨n, x⟩, hx, hc⟩
    have hx := mem_range_zip.mp hx
    dsimp only at hc
    split at hc
    next r hp hr =>
      obtain ⟨k, hk, rfl⟩ := List.mem_map.mp hc
      exact ⟨n, x, r, k, hx, hp, hr, hk, rfl⟩
    next => simp at hc
  · rintro ⟨n, x, r, k, hx, hp, hr, hk, rfl⟩
    refine ⟨(n, x), mem_range_zip.mpr hx, ?_⟩
    simp only [hp, hr]
    exact List.mem_map.mpr ⟨k, hk, rfl⟩

/-! ### The orders of R344 -/

/-- Urgency first, then the older block, the lower index, the lower slot. -/
theorem Cand.before_iff (a b : Cand) : a.before b = true ↔ (a.urgent = true ∧ b.urgent = false) ∨ (a.urgent = b.urgent ∧
    (a.order < b.order ∨ (a.order = b.order ∧ (a.k < b.k ∨ (a.k = b.k ∧ a.slot ≤ b.slot))))) := by
  unfold Cand.before
  by_cases hu : a.urgent = b.urgent
  · by_cases ho : a.order = b.order
    · by_cases hk : a.k = b.k
      · simp [hu, ho, hk]
      · simp [hu, ho, hk]
    · simp [hu, ho]
  · cases ha : a.urgent <;> cases hb : b.urgent <;> simp_all

/-- The greater age first, then the lower slot. -/
theorem Cand.older_iff (a b : Cand) : a.older b = true ↔ b.age < a.age ∨ (a.age = b.age ∧ a.slot ≤ b.slot) := by
  unfold Cand.older
  by_cases h : a.age = b.age <;> simp [h]

theorem Cand.before_total (a b : Cand) : (a.before b || b.before a) = true := by
  rw [Bool.or_eq_true, before_iff, before_iff]
  cases a.urgent <;> cases b.urgent <;> simp <;> omega

theorem Cand.before_trans (a b c : Cand) (hab : a.before b = true) (hbc : b.before c = true) : a.before c = true := by
  rw [before_iff] at *
  rcases hab with ⟨ha, hb⟩ | ⟨hu, hab⟩
  · rcases hbc with ⟨hb', _⟩ | ⟨hu', _⟩
    · simp [hb] at hb'
    · exact .inl ⟨ha, by rw [← hu', hb]⟩
  · rcases hbc with ⟨hb', hc⟩ | ⟨hu', hbc⟩
    · exact .inl ⟨by rw [hu, hb'], hc⟩
    · exact .inr ⟨hu.trans hu', by omega⟩

theorem Cand.older_total (a b : Cand) : (a.older b || b.older a) = true := by
  rw [Bool.or_eq_true, older_iff, older_iff]
  omega

theorem Cand.older_trans (a b c : Cand) (hab : a.older b = true) (hbc : b.older c = true) : a.older c = true := by
  rw [older_iff] at *
  omega

/-- The first of some candidates by R344's order comes before each of them. -/
theorem head_before {cs : List Cand} {p : Cand} (h : (cs.mergeSort Cand.before).head? = some p) : p ∈ cs ∧ ∀ d ∈ cs, p.before d = true := by
  have hsorted := List.pairwise_mergeSort Cand.before_trans Cand.before_total cs
  have hperm := List.mergeSort_perm cs Cand.before
  obtain ⟨l, hl⟩ := List.head?_eq_some_iff.mp h
  rw [hl] at hsorted hperm
  refine ⟨hperm.mem_iff.mp (by simp), fun d hd => ?_⟩
  rcases List.mem_cons.mp (hperm.mem_iff.mpr hd) with rfl | hd
  · simpa using Cand.before_total d d
  · exact List.rel_of_pairwise_cons hsorted hd

/-! ### The picks (R344) -/

/-- Candidates beside the aged picks, in R344's order. -/
def restOf (cs : List Cand) : List Cand := (cs.filter fun c => !(agedPicks cs).contains c).mergeSort Cand.before

theorem picks_eq (cs : List Cand) : picks cs = agedPicks cs ++ (restOf cs).take (4 - (agedPicks cs).length) := rfl

theorem mem_restOf {cs : List Cand} {c : Cand} : c ∈ restOf cs ↔ c ∈ cs ∧ c ∉ agedPicks cs := by
  simp [restOf, List.mem_mergeSort]

/-- At most four warps have an aged pick. -/
theorem agedPicks_length (cs : List Cand) : (agedPicks cs).length ≤ 4 :=
  (List.length_filterMap_le _ _).trans (by rw [List.length_take]; omega)

/-- An aged pick is a candidate. -/
theorem mem_of_mem_agedPicks {cs : List Cand} {c : Cand} (h : c ∈ agedPicks cs) : c ∈ cs := by
  obtain ⟨w, _, hc⟩ := List.mem_filterMap.mp h
  exact (List.mem_filter.mp (head_before hc).1).1

/-- Where no candidate is aged there is no aged pick. -/
theorem agedPicks_eq_nil {cs : List Cand} (h : ∀ c ∈ cs, c.age < 48) : agedPicks cs = [] := by
  have hnone : (cs.filter fun c => 48 ≤ c.age) = [] := List.filter_eq_nil_iff.mpr fun c hc => by simpa using h c hc
  simp [agedPicks, hnone]

/-- At most four issue. -/
theorem picks_length (cs : List Cand) : (picks cs).length ≤ 4 := by
  have := agedPicks_length cs
  rw [picks_eq, List.length_append, List.length_take]
  omega

/-- What issues is a candidate. -/
theorem mem_of_mem_picks {cs : List Cand} {c : Cand} (h : c ∈ picks cs) : c ∈ cs := by
  rcases List.mem_append.mp h with h | h
  · exact mem_of_mem_agedPicks h
  · exact (mem_restOf.mp (List.mem_of_mem_take h)).1

/-- While there is room every candidate issues. -/
theorem mem_picks_of_room {cs : List Cand} (hroom : (picks cs).length < 4) {c : Cand} (hc : c ∈ cs) : c ∈ picks cs := by
  rw [picks_eq, List.length_append, List.length_take] at hroom
  rw [picks_eq, List.mem_append, List.take_of_length_le (by omega)]
  by_cases ha : c ∈ agedPicks cs
  · exact .inl ha
  · exact .inr (mem_restOf.mpr ⟨hc, ha⟩)

/-- Where no warp is aged, what issues comes before what does not. -/
theorem picks_before {cs : List Cand} (hage : ∀ c ∈ cs, c.age < 48) {c d : Cand} (hc : c ∈ picks cs) (hd : d ∈ cs) (hn : d ∉ picks cs) :
    c.before d = true := by
  have hpicks : picks cs = (restOf cs).take 4 := by simp [picks_eq, agedPicks_eq_nil hage]
  have hsorted : (restOf cs).Pairwise fun a b => a.before b = true :=
    List.pairwise_mergeSort Cand.before_trans Cand.before_total _
  rw [hpicks] at hc hn
  have hd : d ∈ restOf cs := mem_restOf.mpr ⟨hd, by simp [agedPicks_eq_nil hage]⟩
  rw [← List.take_append_drop 4 (restOf cs)] at hsorted hd
  exact (List.pairwise_append.mp hsorted).2.2 c hc d ((List.mem_append.mp hd).resolve_left hn)

/-- An aged warp with fewer than four older aged warps has a pick, the first of its candidates. -/
theorem exists_agedPick {cs : List Cand} {c : Cand} (hc : c ∈ cs) (hage : 48 ≤ c.age) {ws : List WarpId} (hws : ws.length ≤ 3)
    (hold : ∀ d ∈ cs, 48 ≤ d.age → d.older c = true → d.w = c.w ∨ d.w ∈ ws) :
    ∃ p ∈ picks cs, p.w = c.w ∧ ∀ d ∈ cs, d.w = c.w → p.before d = true := by
  have hmem : c.w ∈ ((((cs.filter fun c => 48 ≤ c.age).mergeSort Cand.older).map fun c => c.w).eraseDups).take 4 := by
    refine mem_take_eraseDups (fun c : Cand => c.w) 3 (List.pairwise_mergeSort Cand.older_trans Cand.older_total _) ?_ hws ?_
    · simp [List.mem_mergeSort, hc, hage]
    · intro d hd hdc
      obtain ⟨hd, hdage⟩ := List.mem_filter.mp (List.mem_mergeSort.mp hd)
      exact hold d hd (by simpa using hdage) hdc
  have hne : ((cs.filter fun d => d.w == c.w).mergeSort Cand.before) ≠ [] :=
    List.ne_nil_of_mem (List.mem_mergeSort.mpr (List.mem_filter.mpr ⟨hc, beq_self_eq_true c.w⟩))
  obtain ⟨p, l, hp⟩ := List.exists_cons_of_ne_nil hne
  have hp : ((cs.filter fun d => d.w == c.w).mergeSort Cand.before).head? = some p := by rw [hp, List.head?_cons]
  obtain ⟨hpmem, hpfirst⟩ := head_before hp
  refine ⟨p, List.mem_append_left _ (List.mem_filterMap.mpr ⟨c.w, hmem, hp⟩), ?_, fun d hd hdw => ?_⟩
  · simpa using (List.mem_filter.mp hpmem).2
  · exact hpfirst d (List.mem_filter.mpr ⟨hd, by simpa using hdw⟩)

/-! ### Urgency (R345) -/

/-- Fewer blocks since the last barrier phase, or as many and no greater index. -/
def Warp.urges (x y : Warp) : Prop := x.since < y.since ∨ (x.since = y.since ∧ x.id.warp ≤ y.id.warp)

/-- The more urgent of the warp found so far and the next. -/
def moreUrgent (b : Option Warp) (x : Warp) : Option Warp :=
  match b with
  | none => some x
  | some b => if x.since < b.since || (x.since == b.since && x.id.warp < b.id.warp) then some x else some b

theorem urgentOf_eq (xs : List Warp) : urgentOf xs = if xs.length < 2 then none else xs.foldl moreUrgent none := rfl

/-- Of two warps the one kept is one of them and urges before both. -/
theorem moreUrgent_some (b x : Warp) : ∃ z, moreUrgent (some b) x = some z ∧ (z = b ∨ z = x) ∧ z.urges b ∧ z.urges x := by
  unfold moreUrgent Warp.urges
  by_cases h : x.since < b.since ∨ (x.since = b.since ∧ x.id.warp < b.id.warp)
  · exact ⟨x, if_pos (by simpa using h), .inr rfl, by omega, by omega⟩
  · exact ⟨b, if_neg (by simpa using h), .inl rfl, by omega, by omega⟩

/-- Of some warps the one kept is one of them and urges before all. -/
theorem foldl_moreUrgent (xs : List Warp) (b : Warp) :
    ∃ z, xs.foldl moreUrgent (some b) = some z ∧ z ∈ b :: xs ∧ ∀ y ∈ b :: xs, z.urges y := by
  induction xs generalizing b with
  | nil => exact ⟨b, rfl, by simp, by simp [Warp.urges]⟩
  | cons x xs ih =>
    obtain ⟨c, hc, hcmem, hcb, hcx⟩ := moreUrgent_some b x
    obtain ⟨z, hz, hzmem, hzall⟩ := ih c
    have htrans {y : Warp} (h : c.urges y) : z.urges y := by
      have := hzall c (by simp)
      unfold Warp.urges at *
      omega
    refine ⟨z, by rw [List.foldl_cons, hc, hz], ?_, fun y hy => ?_⟩
    · rcases List.mem_cons.mp hzmem with rfl | h
      · rcases hcmem with rfl | rfl <;> simp
      · simp [h]
    · rcases List.mem_cons.mp hy with rfl | hy
      · exact htrans hcb
      · rcases List.mem_cons.mp hy with rfl | hy
        · exact htrans hcx
        · exact hzall y (List.mem_cons_of_mem c hy)

/-- In a stage of two live warps or more, one is urgent, and it urges before all. -/
theorem urgentOf_some {xs : List Warp} (h : 2 ≤ xs.length) : ∃ x ∈ xs, urgentOf xs = some x ∧ ∀ y ∈ xs, x.urges y := by
  cases xs with
  | nil => simp at h
  | cons b xs =>
    obtain ⟨z, hz, hmem, hall⟩ := foldl_moreUrgent xs b
    refine ⟨z, hmem, ?_, hall⟩
    rw [urgentOf_eq, if_neg (by omega), List.foldl_cons]
    exact hz

/-! ### ISSUE_CLOCK, URGENCY_EVALUATION, POWER_RATE_SET -/

/-- A core read after it was changed. -/
theorem State.core_setCore {s : State} {core : Nat} (h : core < s.cores.length) (f : Core → Core) :
    (s.setCore core f).core core = f (s.core core) := by
  simp [State.core, State.setCore, h]

/-- The state after a core's count and bucket have moved on. -/
def State.clocked (s : State) (core : Nat) : State :=
  { s.setCore core Core.clock with now := max s.now ((s.core core).cycles + 1).toNat }

/-- Ages after a clock: back to 0 for a warp that issued or had nothing to issue. -/
theorem State.ageWarps_eq (s : State) (core : Nat) (cs ps : List Cand) : s.ageWarps core cs ps =
    { s with warps := s.warps.map fun x => if x.core = core then
      { x with age := if x.id ∈ ps.map (·.w) ∨ x.id ∉ cs.map (·.w) then 0 else x.age + 1 } else x } := by
  unfold State.ageWarps
  dsimp only
  congr 1
  apply List.map_congr_left
  intro x _
  have hcond : ((ps.any fun p => p.w == x.id) || !(cs.any fun c => c.w == x.id)) =
      decide (x.id ∈ ps.map (·.w) ∨ x.id ∉ cs.map (·.w)) := by
    rw [Bool.eq_iff_iff]
    simp
  by_cases hx : x.core = core
  · rw [hcond, if_neg (by simpa using hx), if_pos hx]
    by_cases ha : x.id ∈ ps.map (·.w) ∨ x.id ∉ cs.map (·.w)
    · simp only [ha, decide_true, if_true]
    · simp only [ha, decide_false, Bool.false_eq_true, if_false]
  · simp [hx]

/-- ISSUE_CLOCK: the clock of the core, and on one that runs what waits is served and the picks issue (R344). -/
theorem execIssueClock_eq {s : State} {core : Nat} (h : core < s.cores.length) : exec (.issueClock core) s = .next (
    if s.coreRuns core then
      let a := (s.clocked core).serveTakes core 0
      let d := (a.mmas.filter fun m => m.core == core).foldl (fun s m => s.mmaRefs m) a
      { d.ageWarps core (d.cands core) (picks (d.cands core)) with
        issue := d.retries core ++ inWarpOrder (picks (d.cands core)) }
    else s.clocked core) := by
  have hnow : ({ s.setCore core Core.clock with now := max s.now ((s.setCore core Core.clock).core core).cycles.toNat } : State) =
      s.clocked core := by
    rw [State.core_setCore h]
    rfl
  rw [exec_issueClock, execIssueClock]
  simp only [State.setCore_now, hnow]
  rw [show (s.clocked core).coreRuns core = s.coreRuns core from rfl]
  cases s.coreRuns core <;> rfl

/-- The urgent warps of a team: of each stage the one that urges. -/
theorem execUrgencyEvaluation_eq (s : State) (t : TeamId) :
    exec (.urgencyEvaluation t) s = .next { s with warps := s.warps.map fun x =>
      if x.id.team = t then { x with urgent := (List.range 8).any fun g =>
        ((urgentOf ((s.live t).filter fun y => ((s.launchOf y.id).stageOf y.id.warp).1 == g)).map (·.id)) == some x.id } else x } := by
  rw [exec_urgencyEvaluation, execUrgencyEvaluation]
  dsimp only
  congr 2
  apply List.map_congr_left
  intro x _
  by_cases hx : x.id.team = t
  · simp only [hx, beq_self_eq_true, if_true]
    congr 1
    rw [Bool.eq_iff_iff]
    simp
  · simp [hx]

/-- POWER_RATE_SET within the ranges of R217. -/
theorem execPowerRateSet_eq (s : State) (core : Nat) {quarters depth : Nat} (h1 : 1 ≤ quarters) (h2 : quarters ≤ 32) (h3 : 256 ≤ depth)
    (h4 : depth ≤ 65535) :
    let t := s.setCore core fun c => { c with rate := quarters, depth := depth, level := min c.level (4 * depth) }
    exec (.powerRateSet core quarters depth) s = .next { t with regs := { t.regs with throttle := t.throttled } } := by
  rw [exec_powerRateSet, execPowerRateSet]
  simp [h1, h2, h3, h4]

/-- Settles O46: the clock by its equation, the candidates by `State.mem_cands`, the picks by R344's orders. -/
theorem clocksComplete : Obligations.ClocksComplete := by
  unfold Obligations.ClocksComplete
  intro s
  refine ⟨fun core hcore => ⟨fun hrun => ?_, fun hrun => ?_⟩, fun a b => ⟨a.before_iff b, a.older_iff b⟩, fun core => ⟨?_, ?_⟩,
    fun cs => ⟨picks_length cs, fun c hc => mem_of_mem_picks hc, fun hroom c hc => mem_picks_of_room hroom hc,
      fun hage c hc d hd hn => picks_before hage hc hd hn,
      fun c hc hage _ ⟨ws, hws, hold⟩ => exists_agedPick hc hage hws hold⟩,
    execUrgencyEvaluation_eq s, fun xs => ⟨fun hlen => by rw [urgentOf_eq, if_pos hlen], fun hlen => urgentOf_some hlen⟩,
    fun core quarters depth h1 h2 h3 h4 => execPowerRateSet_eq s core h1 h2 h3 h4⟩
  · rw [execIssueClock_eq hcore, if_neg (by simp [hrun])]
    rfl
  · rw [execIssueClock_eq hcore, if_pos hrun]
    simp only [State.ageWarps_eq]
    rfl
  · intro c hc
    obtain ⟨n, x, r, k, hx, _, hr, _, rfl⟩ := State.mem_cands.mp hc
    exact ⟨x, r, hx, hr, rfl, rfl, rfl, rfl⟩
  · intro w k
    constructor
    · rintro ⟨c, hc, rfl, rfl⟩
      obtain ⟨n, x, r, k, hx, hp, hr, hk, rfl⟩ := State.mem_cands.mp hc
      obtain ⟨hle, hidle, i, hi, hfull, hheld⟩ := Run.mem_fireable.mp hk
      exact ⟨x, List.mem_of_getElem? hx, r, i, rfl, hp, hr, hle, hidle, hi, hfull, hheld⟩
    · rintro ⟨x, hx, r, i, rfl, hp, hr, hle, hidle, hi, hfull, hheld⟩
      obtain ⟨n, hn⟩ := List.mem_iff_getElem?.mp hx
      have hk : k ∈ r.fireable := Run.mem_fireable.mpr ⟨hle, hidle, i, hi, hfull, hheld⟩
      exact ⟨candOf n x r k, State.mem_cands.mpr ⟨n, x, r, k, hn, hp, hr, hk, rfl⟩, rfl, rfl⟩

end Sys2Proof.Machine
end

section
/-! SUPPORT. Retirement and the takes that wait: a state in which a warp's retirement faults the warp that retires. -/
namespace Sys2Proof.Machine

/-! The states are those of no run that begins at reset: warp 0 has committed its block while a take of that block still waits.
`Obligations.CommitsMoveOn` quantifies over every state, so its last part must hold of these too. -/

/-- The team of the retiring warp. -/
def retiringTeam : TeamId := { launch := { ctx := 0, num := 0 }, team := 0 }

/-- Warp `w` of that team on core 0, at a boundary. -/
def warpAtBoundary (w : Nat) : Warp := Warp.begin { team := retiringTeam, warp := w } 0 8 (List.replicate 64 0) 0x1000

/-- Scratchpad tile `tid` as a unit that warp 0 alone shares. -/
def unitOfWarp0 (tid : Nat) : Taken :=
  { tid := tid, spl := false, cls := .shr, holder := 0, sharers := 1, routine := 0, bound := 1, save := none, refusals := 0, order := 0 }

/-- A take of tile 2 by warp 0, which shares that tile already: when it is served its warp faults (R321). -/
def takeOfWarp0 : Take :=
  { warp := (warpAtBoundary 0).id, idx := 0, core := 0, res := none, bind := [], waited := true
    f := { pr := .always, sv := false, spl := false, cls := .own, tid := 2, bnd := 0, roff := 0, t0 := .none, t1 := .none } }

/-- Two live warps, the first sharing tiles 1 and 2 with no other, and its take of tile 2 in the queue of their core. -/
def retiringState : State :=
  { State.reset with
    warps := [warpAtBoundary 0, warpAtBoundary 1]
    takes := [takeOfWarp0]
    teams := [{ id := retiringTeam, core := 0, spadAt := 0, spad := [], tiles := [], taken := [unitOfWarp0 1, unitOfWarp0 2], acc := []
                counts := [], bars := [], ag := [], credit := 0, claims := [], placedAt := 0, ran := 0, gone := [], owed := [] }] }

/-- A step 5 after which nothing of the warp is left: no lane goes on and its stack is empty (R25, R81). -/
def nothingLeft : Leaving :=
  { stack := [], leave := 0, next := none, join := none, gone := [], ends := false, yields := false }

/-- The retiring warp gives back its share of tile 1, the takes of its core are served, and its own finds it the holder of tile 2: the
fault of R321 comes last. -/
theorem commitLeave_faults_retiring :
    ((retiringState.commitLeave (warpAtBoundary 0) (Run.ofWord 0) nothingLeft).warp? (warpAtBoundary 0).id).map (·.phase) =
      some .faulted := by
  decide +kernel

/-- Refutes O42, in its last part: a warp with nothing left need not come to rest as retired. In `retiringState` its retirement gives back
a share, which serves the takes of its core, and a take of its own that waits there faults it. -/
theorem not_commitsMoveOn : ¬ Obligations.CommitsMoveOn := by
  unfold Obligations.CommitsMoveOn
  intro h
  obtain ⟨_, _, _, _, _, _, hleave⟩ := h
  have hwarp : retiringState.warp? (warpAtBoundary 0).id = some (warpAtBoundary 0) := by decide +kernel
  have htrap : (Run.ofWord 0).trapped = none := by decide +kernel
  obtain ⟨y, hy, hphase, _⟩ := (hleave retiringState (warpAtBoundary 0) (warpAtBoundary 0) (Run.ofWord 0) nothingLeft hwarp rfl htrap rfl
    rfl).2 rfl
  have hfault := commitLeave_faults_retiring
  rw [hy, Option.map_some, hphase] at hfault
  cases hfault

end Sys2Proof.Machine
end

section
/-! SUPPORT. Where a result is valid (R66, R67), the frame of a change of one block, and a step of the device. -/
namespace Sys2Proof

/-- The lane predicate passes, as R67 lists the ways. -/
theorem predLane_iff (i : Instr) (o : Opnds) (l : Nat) : predLane i o l = true ↔
    i.thirdOperand = true ∨ i.pr = .always ∨ (i.pr = .ifNonzero ∧ o.third.ok o.am l = true ∧ o.third.full l ≠ 0) ∨
      (i.pr = .ifZero ∧ o.third.ok o.am l = true ∧ o.third.full l = 0) := by
  cases h : i.pr <;> simp [predLane, h]

/-- The uniform predicate passes, as R67 lists the ways. -/
theorem predUni_iff (i : Instr) (o : Opnds) : predUni i o = true ↔
    i.thirdOperand = true ∨ i.pr = .always ∨ (o.third.mask.getLsbD 0 = true ∧
      ((i.pr = .ifNonzero ∧ o.third.full 0 ≠ 0) ∨ (i.pr = .ifZero ∧ o.third.full 0 = 0))) := by
  cases h : i.pr <;> simp [predUni, h]

/-- The valid lanes of a lane instruction: its operands valid there, the lane active, the predicate passed (R67). -/
theorem laneOk_iff (i : Instr) (o : Opnds) (l : Nat) : laneOk i o l = true ↔
    (∀ sl ∈ i.dataSlots, (o.slot sl).ok o.am l = true) ∧ o.am.getLsbD l = true ∧ predLane i o l = true := by
  simp only [laneOk, Bool.and_eq_true, List.all_eq_true]
  tauto

/-- A uniform instruction's result is valid where its operands are and the predicate passes (R67). -/
theorem uniOk_iff (i : Instr) (o : Opnds) : uniOk i o = true ↔
    (∀ sl ∈ i.dataSlots, (o.slot sl).mask.getLsbD 0 = true) ∧ predUni i o = true := by
  simp [uniOk]

/-- The lanes from which flags, saturation and faults come (R67). -/
theorem mem_okList (i : Instr) (o : Opnds) (l : Nat) :
    l ∈ okList i o ↔ if i.uniform = true then l = 0 ∧ uniOk i o = true else l < 32 ∧ laneOk i o l = true := by
  unfold okList
  split
  · cases uniOk i o <;> simp
  · simp [allLanes]

namespace Token

/-- A uniform token is valid on the active lanes where its bit is valid (R66). -/
@[simp] theorem uniform_ok (wide b : Bool) (v : W64) (am : Lanes) (l : Nat) : (uniform wide b v).ok am l = (b && am.getLsbD l) := by
  cases b <;> simp [ok, uniform]

/-- A uniform token has its one value on every lane (R66). -/
@[simp] theorem uniform_val (wide b : Bool) (v : W64) (l : Nat) : (uniform wide b v).val l = v := rfl

/-- A lane token is valid where its mask says so. -/
@[simp] theorem lanes_ok (wide : Bool) (m : Lanes) (f : Nat → W64) (am : Lanes) (l : Nat) : (lanes wide m f).ok am l = m.getLsbD l := rfl

/-- A lane token's value on a valid lane. -/
theorem lanes_val (wide : Bool) {m : Lanes} (f : Nat → W64) {l : Nat} (hl : l < 32) (hm : m.getLsbD l = true) :
    (lanes wide m f).val l = f l := by
  simp [val, lanes, allLanes, hl, hm]

end Token

/-- Settles O6: the predicates and the validity of R67 case by case, and R66's spread of a uniform token. -/
theorem resultValidity : Obligations.ResultValidity := by
  unfold Obligations.ResultValidity
  refine ⟨fun i o l hl => ?_, fun i o => ⟨?_, mem_okList i o, fun wide f l hl => ⟨fun hu => ?_, fun hu => ?_⟩⟩, fun wide b v am l _ => ?_⟩
  · rw [okLanes_getLsbD, decide_eq_true hl, Bool.true_and, laneOk_iff, predLane_iff]
  · rw [uniOk_iff, predUni_iff]
  · rw [resultTok, if_pos hu]
    exact ⟨Token.uniform_ok .., fun hv => by rw [Token.uniform_val, if_pos hv]⟩
  · have hok : (okLanes i o).getLsbD l = laneOk i o l := by rw [okLanes_getLsbD, decide_eq_true hl, Bool.true_and]
    rw [resultTok, if_neg (by simp [hu])]
    exact ⟨hok, fun hv => Token.lanes_val wide f hl (hok.trans hv)⟩
  · exact ⟨Token.uniform_ok .., Token.uniform_val ..⟩

end Sys2Proof

namespace Sys2Proof.Machine

/-- Settles O8: the block of the one warp is all that differs. -/
theorem blockChangeFrame : Obligations.BlockChangeFrame := by
  unfold Obligations.BlockChangeFrame
  refine fun s w f => ⟨rfl, fun v hv => ?_, fun x hx => ?_⟩
  · rw [s.setRun_warp?]
    simp [hv]
  · rw [s.setRun_warp?, hx]
    simp

/-- An issue slot whose block is in flight names the instruction its word decodes to (R68). -/
theorem State.fetch_eq {s : State} {w : WarpId} {k : Nat} {x : Warp} {r : Run} {i : Instr} (hx : s.warp? w = some x) (hr : x.run = some r)
    (hk : k ≤ r.ni) (hi : decode (r.words.getD (r.bodyAt + k) 0) = .ok i) : s.fetch w k = some i := by
  simp only [State.fetch, hx, hr, hk, if_true, Run.instr, Run.word, hi]
  rfl

/-- An instruction that has not fired, its slots full and no acquire before it, can fire. -/
theorem Run.canFire_of {r : Run} {k : Nat} {i : Instr} (hk : k ≤ r.ni) (hst : (r.node k).st = .idle) (hi : r.instr k = some i)
    (hf : (r.node k).full i = true) (hh : r.held k = false) : r.canFire = true := by
  refine List.any_eq_true.mpr ⟨k, List.mem_range.mpr (by omega), ?_⟩
  simp [hst, hi, hf, hh]

/-- The tests after an instruction do nothing while one of its block can fire (log 47). -/
theorem State.tested_of_canFire {t : State} {w : WarpId} {x : Warp} {r : Run} (hx : t.warp? w = some x) (hr : x.run = some r)
    (hc : r.canFire = true) : t.tested w = t := by
  simp [State.tested, hx, hr, hc]

/-- Settles O4: the branches of a step, an issue slot first. -/
theorem stepRunsTheDecodedInstruction : Obligations.StepRunsTheDecodedInstruction := by
  unfold Obligations.StepRunsTheDecodedInstruction
  refine ⟨fun s w k rest x r i hs hx hr hk hi => ?_, fun w t => rfl, fun w t x r k i hx hr hk hst hi hf hh => ?_,
    fun s i rest hs ha hi => ?_⟩
  · simp only [step, hs, State.fetch_eq hx hr hk hi]
  · exact State.tested_of_canFire hx hr (Run.canFire_of hk hst hi hf hh)
  · simp [step, hs, ha, runEvent, hi]

end Sys2Proof.Machine
end

section
/-! SUPPORT. What a memory instruction does at issue, its lanes past their checks: loads, stores, atomics, fences, prefetches. -/
namespace Sys2Proof.Machine

variable {s t u : State} {x : Issue} {as : List LaneAcc}

/-- An access whose lanes pass every check goes on with its translations (R124, R263). -/
theorem State.access_clean {acc width : Nat} {hostOk : Bool} {ls : List (Nat × W64)} (h : Clean s x acc width hostOk ls t as) (i : Instr)
    (k : State → List LaneAcc → State) : s.access x i acc width hostOk ls k = k t as := by
  unfold Clean at h
  simp only [State.access, h, State.afterCheck]

/-- A load that meets no poison finishes with the bytes it read (R121). -/
theorem State.memLoad_clean {i : Instr} {f : MemF} {got : List (Nat × List W8)}
    (h : Clean s x 0 f.width.bytes false (memAddrs i f false x.o) t as)
    (hread : t.readLanes x.w x.warp.core f.sc f.hint f.width.bytes as = (u, got, [])) :
    s.memLoad x i f = u.loaded x i f false got := by
  simp only [State.memLoad, State.access_clean h, hread]

/-- Settles O21: the access goes on past its checks, a load with the bytes it reads, a store with its slot fired. -/
theorem loadsAndStoresComplete : Obligations.LoadsAndStoresComplete := by
  unfold Obligations.LoadsAndStoresComplete
  refine fun s f x t u as got => ⟨fun hf hc hr => ?_, fun hf hc hr => ?_, fun hf hc => ?_⟩
  · rw [exec_ld, execLd, firing_eq hf, State.memLoad_clean hc hr]
    rfl
  · rw [exec_ldk, execLdk, firing_eq hf, State.memLoad_clean hc hr]
    rfl
  · rw [exec_st, execSt, firing_eq hf, State.access_clean hc]
    rfl

/-- One lane's atomic as ATOM holds it, from its translated access (R287, R290). -/
def LaneAcc.atomic (a : LaneAcc) (f : AtomF) (o : Opnds) : LaneAtom :=
  { lane := a.lane, nc := a.nc, va := a.va, addr := a.pa
    b := (if f.indexed then o.third else o.right).atTy f.ty a.lane, c := o.third.atTy f.ty a.lane }

/-- No lane's atomic meets poison where no lane's access does. -/
theorem find?_poisoned_none (f : AtomF) (o : Opnds) {mark : Bool → Nat → Option Nat} (h : ∀ a ∈ as, mark a.nc a.pa = none) :
    (as.map fun a => a.atomic f o).find? (fun a => (mark a.nc a.addr).isSome) = none := by
  refine List.find?_eq_none.mpr fun b hb => ?_
  obtain ⟨a, ha, rfl⟩ := List.mem_map.mp hb
  simp [LaneAcc.atomic, h a ha]

/-- ATOM whose lanes pass their checks and meet no poison: its atomics are held in its slot, its write slots wait for the reply (R71, R290). -/
theorem atom_completes {f : AtomF} (hf : Fires s (.atom f) x)
    (hc : Clean s x 2 f.bytes (hostCarries f)
      ((okList (.atom f) x.o).map fun l => (l, laneAddr false (if f.indexed then .indexed else .base) f.imm f.bytes x.o l)) t as)
    (hm : ∀ a ∈ as, t.coreMark x.w x.warp.core a.nc f.sc a.pa f.bytes = none) :
    exec (.atom f) s = .next (t.setRun x.w fun r =>
      let d : Run := (r.deferSlot (okLanes (.atom f) x.o) f.t0).deferSlot (okLanes (.atom f) x.o) f.t1
      { d.finish x.k with sslots := d.sslots.set f.ss.toNat (.atoms f (as.map fun a => a.atomic f x.o)) }) := by
  have hnone := find?_poisoned_none f x.o (mark := fun nc pa => t.coreMark x.w x.warp.core nc f.sc pa f.bytes) hm
  rw [exec_atom, execAtom]
  simp only [firing_eq hf, State.access_clean hc]
  unfold LaneAcc.atomic at hnone ⊢
  rw [hnone]
  rfl

/-- Settles O26: ATOM by its own lemma, the fences and CCTL by the effect each leaves, PREF by its requests in lane order. -/
theorem atomicsAndFencesComplete : Obligations.AtomicsAndFencesComplete := by
  unfold Obligations.AtomicsAndFencesComplete
  refine fun s x pr => ⟨fun f t as hf hc hm => atom_completes hf hc hm, fun sc o hf hu => ?_, fun a b hf hu => ?_,
    fun lvl sc imm hf => ?_, fun op imm hf => ?_⟩
  · exact leaves_of (exec_fence s pr sc o) hf (if_pos hu)
  · exact leaves_of (exec_fencex s pr a b) hf (if_pos hu)
  · rw [exec_pref, execPref]
    simp only [firing_eq hf]
    rfl
  · exact leaves_of (exec_cctl s pr op imm) hf rfl

end Sys2Proof.Machine
end

section
/-! SUPPORT. Starting a block (R65, R75, R83, R172), and a state of two blocks under one warp id. -/
namespace Sys2Proof.Machine

variable {s t u : State} {x : Warp}

/-- With no soft error in the device, a reader corrects none. -/
theorem State.correct_of_errs (h : s.errs = []) (gs : List Granule) : s.correct gs = s := by
  simp [State.correct, h]

/-- With no soft error in the device, a write clears none. -/
theorem State.clearErrs_of_errs (h : s.errs = []) (gs : List Granule) : s.clearErrs gs = s := by
  simp [State.clearErrs, h]

/-- A mask of a test that fails on every lane is empty. -/
theorem lanesOf_false {p : Nat → Bool} (h : ∀ l, p l = false) : lanesOf p = 0 := by
  obtain rfl : p = fun _ => false := funext h
  decide

/-! ### BLOCK_START -/

/-- A warp whose next block could start owes nothing of step 6 (R75, R325). -/
theorem owes_of_startable (h : s.startable x = true) : x.owes = false := by
  simp only [State.startable, Bool.and_eq_true, beq_iff_eq, Option.isNone_iff_eq_none] at h
  obtain ⟨⟨⟨⟨hphase, _⟩, hrejoin⟩, _⟩, _⟩ := h
  simp [Warp.owes, hphase, hrejoin]

/-- BLOCK_START of a warp that holds a place opens its next block (R65, R343). -/
theorem execBlockStart_opens (hx : s.warp? x.id = some x) (hrun : s.coreRuns x.core = true) (hs : s.startable x = true)
    (hp : s.hasPlace x = true) : exec (.blockStart x.id) s = .next (s.openBlock x) := by
  rw [exec_blockStart, execBlockStart, hx]
  simp [hrun, owes_of_startable hs, hs, hp]

/-- BLOCK_START makes a step 6 that is owed first, and then a stop that waited for it (R75). -/
theorem execBlockStart_owes (hx : s.warp? x.id = some x) (hrun : s.coreRuns x.core = true) (ho : x.owes = true) :
    exec (.blockStart x.id) s = .next ((s.step6 x.id).atBoundary x.id) := by
  rw [exec_blockStart, execBlockStart, hx]
  simp [hrun, ho]

/-- A warp ready with its step 6 to be made, or parked with a reissue that waits for no fetch, owes it (R75). -/
theorem owes_of_rejoin (h : (x.phase = .ready ∧ x.rejoin ≠ none) ∨
    (∃ n l a q, x.phase = .parked n l a ∧ x.rejoin = some q ∧ q.before ≠ [])) : x.owes = true := by
  rcases h with ⟨hphase, hrejoin⟩ | ⟨n, l, a, q, hphase, hrejoin, hbefore⟩
  · simpa [Warp.owes, hphase, Option.isSome_iff_ne_none] using hrejoin
  · simpa [Warp.owes, hphase, hrejoin] using hbefore

/-- A valid block that is fetched enters, its SR as the warp enters it (R35). -/
theorem State.openBlock_enters {ws : List W64} (hf : s.fetchBlock x.core x.id.team.launch.ctx x.pc = (t, .block ws none))
    (hsr : (Hdr.of (ws.headD 0)).sr = x.entering) : s.openBlock x = t.enterBlock x ws := by
  simp only [State.openBlock, hf, hsr, bne_self_eq_false, Bool.false_eq_true, if_false, Option.toList_none, List.append_nil, lowest]

/-- A block that is no popped join, and whose copies no join entry has out, issues them and begins, nothing fired; its header reads
deliver (R6, R65, R85). -/
theorem State.enterBlock_begins {ws : List W64} (hpop : x.popped = none)
    (hjoin : ∀ e ∈ x.stack, e.join = true → e.cp = true → e.addr ≠ x.pc)
    (hcopies : ({ s with order := s.order + 1 } : State).issueCopies x ((Hdr.of (ws.headD 0)).copies ws) none s.order = (u, none)) :
    s.enterBlock x ws = ((Hdr.of (ws.headD 0)).reads ws).foldl (fun s e => s.readHeader x.id e)
      ((u.setLaunch x.id.team.launch fun l => if l.started.contains x.pc then l else { l with started := x.pc :: l.started }).setWarp
        x.id fun y => { y with run := some (Run.fresh x.pc ws x.am s.order none), phase := .running }) := by
  have htook : (x.stack.find? fun e => e.join && e.cp && e.addr == x.pc) = none := by
    refine List.find?_eq_none.mpr fun e he => ?_
    simpa using hjoin e he
  unfold State.enterBlock
  generalize Hdr.of (ws.headD 0) = h at hcopies ⊢
  simp [State.newOrder, hpop, htook, Warp.copiesOut, outOf, hcopies]

/-- BLOCK_START of a warp that holds a place, its block valid and its copies issued: the block begins and its header reads deliver (R65,
R343). -/
theorem execBlockStart_begins {ws : List W64} (hx : s.warp? x.id = some x) (hrun : s.coreRuns x.core = true)
    (hs : s.startable x = true) (hp : s.hasPlace x = true) (hpop : x.popped = none)
    (hf : s.fetchBlock x.core x.id.team.launch.ctx x.pc = (t, .block ws none)) (hsr : (Hdr.of (ws.headD 0)).sr = x.entering)
    (hjoin : ∀ e ∈ x.stack, e.join = true → e.cp = true → e.addr ≠ x.pc)
    (hcopies : ({ t with order := t.order + 1 } : State).issueCopies x ((Hdr.of (ws.headD 0)).copies ws) none t.order = (u, none)) :
    exec (.blockStart x.id) s = .next (((Hdr.of (ws.headD 0)).reads ws).foldl (fun s e => s.readHeader x.id e)
      ((u.setLaunch x.id.team.launch fun l => if l.started.contains x.pc then l else { l with started := x.pc :: l.started }).setWarp
        x.id fun y => { y with run := some (Run.fresh x.pc ws x.am t.order none), phase := .running })) := by
  rw [execBlockStart_opens hx hrun hs hp, State.openBlock_enters hf hsr, State.enterBlock_begins hpop hjoin hcopies]

/-- A block that starts has nothing in its slots, and nothing of it fired (R65). -/
theorem Run.fresh_node (va : W64) (ws : List W64) (am : Lanes) (order : Nat) (took : Option Nat) {k : Nat}
    (hk : k ≤ (Hdr.of (ws.headD 0)).ni) :
    (Run.fresh va ws am order took).node k = { left := none, right := none, third := none, st := .idle, since := 0 } := by
  unfold Run.fresh
  generalize Hdr.of (ws.headD 0) = h at hk ⊢
  simp [Run.node, Nat.lt_succ_of_le hk]

/-- A block that starts has nothing in its write slots (R65). -/
theorem Run.fresh_wslots (va : W64) (ws : List W64) (am : Lanes) (order : Nat) (took : Option Nat) :
    ∀ w ∈ (Run.fresh va ws am order took).wslots, w.tok = none := by
  intro w hw
  obtain ⟨e, _, rfl⟩ := List.mem_map.mp hw
  rfl

/-! ### Prefetch, rows, header reads -/

/-- PREFETCH_BLOCK fetches a block that the block in flight or a stack entry names (R83). -/
theorem execPrefetchBlock_named {r : Run} {va : W64} (hx : s.warp? x.id = some x) (hrun : s.coreRuns x.core = true) (hr : x.run = some r)
    (hnp : r.np = false) (hva : va ∈ r.names ∨ ∃ e ∈ x.stack, e.addr = va) :
    exec (.prefetchBlock x.id va) s = .next (s.fetchBlock x.core x.id.team.launch.ctx va).1 := by
  rw [exec_prefetchBlock, execPrefetchBlock, hx]
  simp only [hr, hrun, hnp, Bool.not_false, Bool.and_self, Bool.true_and, Bool.or_eq_true, List.contains_iff_mem, List.any_eq_true,
    beq_iff_eq, if_pos hva]

/-- A spilled row comes back without another going out where the limit and the pool leave room for it (R172). -/
theorem State.makeResident_room {n : Nat} {v : VReg} (hx : s.warp? x.id = some x) (hv : x.vreg? n = some v) (hrow : v.row ≠ .pool)
    (hlim : x.resident < x.limit) (hfree : 0 < s.freeRows x.core) :
    s.makeResident x.id n = ({ s with order := s.order + 1 } : State).setWarp x.id fun y =>
      y.setVReg n fun q => { q with row := .pool, used := s.order } := by
  have hres : v.resident = false := by simpa [VReg.resident] using hrow
  have hfree' : 0 < ({ s with order := s.order + 1 } : State).freeRows x.core := hfree
  simp only [State.makeResident, hx, hv, State.newOrder, hres, Bool.false_eq_true, if_false, if_neg (Nat.not_le.mpr hlim), hfree', if_true]

/-- ROW_RETURN of such a row (R172). -/
theorem execRowReturn_room {n : Nat} {v : VReg} (hx : s.warp? x.id = some x) (hrun : s.coreRuns x.core = true)
    (hphase : x.phase ≠ .retired) (hv : x.vreg? n = some v) (hrow : v.row ≠ .pool) (hlim : x.resident < x.limit)
    (hfree : 0 < s.freeRows x.core) :
    exec (.rowReturn x.id n) s = .next (({ s with order := s.order + 1 } : State).setWarp x.id fun y =>
      y.setVReg n fun q => { q with row := .pool, used := s.order }) := by
  rw [exec_rowReturn, execRowReturn, hx]
  simp [hrun, hphase, State.makeResident_room hx hv hrow hlim hfree]

/-- A header read that waits for no reply delivers (R65): a uniform register's word, or a lane register's words on the lanes active in the
block that receives them. -/
theorem State.readHeader_delivers {r : Run} {e : ReadEnt} (hx : s.warp? x.id = some x) (hr : x.run = some r)
    (hp : s.pendingReg x.id e = false) (he : s.errs = []) :
    s.readHeader x.id e =
      if e.k then s.setRun x.id fun r => r.putAll (([e.ta, e.tb].filter (· != 0xFF)).map Tgt.ofByte)
        (Token.uniform false true ((x.k.getD e.reg 0).setWidth 64))
      else (s.makeResident x.id e.reg).setRun x.id fun r => r.putAll (([e.ta, e.tb].filter (· != 0xFF)).map Tgt.ofByte)
        (Token.lanes false r.am fun l => ((x.lanesOf e.reg).getD l 0).setWidth 64) := by
  have hbad : lanesOf (fun l => r.am.getLsbD l && s.errs.contains (.pool x.id e.reg l, true)) = 0 :=
    lanesOf_false fun l => by simp [he]
  simp only [State.readHeader, hx, hr, hp, Bool.false_eq_true, if_false, State.correct_of_errs he, hbad, bne_self_eq_false, Token.uni32]

/-! ### Header reads of two blocks under one id -/

/-- A warp in the middle of a block whose one instruction has an empty slot, with some active lanes. -/
def readingWarp (am : Lanes) : Warp :=
  { Warp.begin fetchWarp 0 8 [] 0x1000 with phase := .running, run := some { Run.ofWord 0 with am := am } }

/-- Two such warps of one id, the second with no lane active: a state of no run that begins at reset. -/
def twinState : State := { State.reset with warps := [readingWarp (BitVec.allOnes 32), readingWarp 0] }

/-- A read of lane register 0 for the left slot of instruction 0. -/
def readOfLane0 : ReadEnt := { k := false, reg := 0, ta := 0, tb := 0xFF, low := 0, word := 1 }

/-- The masks of the tokens in the left slots of every block in flight. -/
def State.leftMasks (s : State) : List (Option (List (Option Lanes))) :=
  s.warps.map fun y => y.run.map fun r => r.nodes.map fun n => n.left.map (·.mask)

/-- Each of the two blocks receives the words on its own active lanes. -/
theorem leftMasks_readHeader : (twinState.readHeader fetchWarp readOfLane0).leftMasks =
    [some [some (BitVec.allOnes 32)], some [some 0]] := by decide +kernel

/-- Refutes O38, in its clause on header reads: the words are valid on the lanes active in the block that receives them, which where two
warps have one id need not be the lanes active in the block that is found by it. -/
theorem not_blocksStart : ¬ Obligations.BlocksStart := by
  unfold Obligations.BlocksStart
  rintro ⟨_, hreads⟩
  obtain ⟨_, hlane⟩ := hreads twinState (readingWarp (BitVec.allOnes 32)) _ readOfLane0 rfl rfl rfl rfl
  have hmasks := leftMasks_readHeader
  rw [show fetchWarp = (readingWarp (BitVec.allOnes 32)).id from rfl, hlane rfl] at hmasks
  revert hmasks
  decide +kernel

end Sys2Proof.Machine
end

section
/-! SUPPORT. What the discard of a block leaves as it was (R77), and faults and page faults, which discard one (R264, R354). -/
namespace Sys2Proof.Machine

variable {s t u : State} {w : WarpId} {x : Warp}

/-! ### The discard of a block -/

/-- A warp but for its block in flight, its phase, its place among those that wait, and the copies its stack entries have out. -/
def Warp.resting (x : Warp) : Warp :=
  { x with run := none, phase := .ready, order := 0, stack := x.stack.map fun e => { e with cp := false } }

/-- The machine but for what the discard of a block can change outside its warp: references, claims, reservations, copies, takes, matrix
operations and the order of waiting. -/
def State.still (s : State) : State :=
  { s with cores := [], teams := [], refs := [], copies := [], mmas := [], takes := [], faultQ := [], order := 0 }

/-- The machine but for what the discard of a block can change. -/
def State.atRest (s : State) : State := { s.still with warps := s.warps.map Warp.resting }

/-- Warps alike at rest have the same registers, settings, stack and place in the program. -/
theorem Warp.fields_of_resting {x y : Warp} (h : y.resting = x.resting) :
    y.v = x.v ∧ y.k = x.k ∧ y.m = x.m ∧ y.fstat = x.fstat ∧ y.limit = x.limit ∧ y.gang = x.gang ∧ y.pc = x.pc ∧ y.am = x.am ∧
      y.exited = x.exited ∧ y.stack.map (fun e => (e.addr, e.mask)) = x.stack.map fun e => (e.addr, e.mask) := by
  have field {α : Type} (f : Warp → α) : f y.resting = f x.resting := congrArg f h
  have hstack := field fun z => z.stack.map fun e => (e.addr, e.mask)
  simp only [Warp.resting, List.map_map, Function.comp_def] at hstack
  exact ⟨field Warp.v, field Warp.k, field Warp.m, field Warp.fstat, field Warp.limit, field Warp.gang, field Warp.pc, field Warp.am,
    field Warp.exited, hstack⟩

/-- Machines alike in the still fields hold the same warps. -/
theorem State.warps_of_still (h : t.still = s.still) : t.warps = s.warps := by
  have hwarps : t.still.warps = s.still.warps := congrArg State.warps h
  exact hwarps

/-- Machines alike in the still fields are alike at rest. -/
theorem State.atRest_of_still (h : t.still = s.still) : t.atRest = s.atRest := by
  rw [State.atRest, State.atRest, h, State.warps_of_still h]

/-- The warp found in a machine at rest. -/
theorem State.atRest_warp? (s : State) (w : WarpId) : s.atRest.warp? w = (s.warp? w).map Warp.resting := by
  simp only [State.warp?, State.atRest, List.find?_map]
  rfl

/-- Machines alike at rest hold the same warps, each alike at rest. -/
theorem State.warp?_of_atRest (h : t.atRest = s.atRest) (hx : s.warp? w = some x) : ∃ y, t.warp? w = some y ∧ y.resting = x.resting := by
  have hmap := congrArg (fun u => State.warp? u w) h
  simp only [State.atRest_warp?, hx, Option.map_some] at hmap
  exact Option.map_eq_some_iff.mp hmap

/-- A warp changed only in what a discard can change. -/
theorem State.setWarp_atRest (s : State) (w : WarpId) (f : Warp → Warp) (hf : ∀ x, (f x).resting = x.resting) :
    (s.setWarp w f).atRest = s.atRest := by
  have hmap : (s.setWarp w f).warps.map Warp.resting = s.warps.map Warp.resting := by
    rw [State.setWarp_warps, List.map_map]
    refine List.map_congr_left fun x _ => ?_
    rw [Function.comp_apply, apply_ite Warp.resting, hf, ite_self]
  unfold State.atRest
  rw [hmap]
  rfl

/-- A copy is cancelled. -/
theorem State.cancelCopy_still (s : State) (id : Nat) : (s.cancelCopy id).still = s.still := by
  unfold State.cancelCopy
  split
  · rfl
  · dsimp only
    split <;> rfl

/-- Copies are cancelled. -/
theorem State.cancelCopies_still (ids : List Nat) (s : State) : (ids.foldl (fun s id => s.cancelCopy id) s).still = s.still :=
  foldl_keeps (fun t => t.still = s.still) _ (fun t id ht => (t.cancelCopy_still id).trans ht) ids s rfl

/-- A warp at rest after the discard of its block: no block in flight, ready, its stack entries' copies perhaps its own again. -/
def Warp.discarded (r : Run) (ord : Nat) (x : Warp) : Warp :=
  { x with run := none, phase := .ready, order := ord, stack := x.stack.map fun e => if r.took == some e.key then { e with cp := true } else e }

theorem Warp.discarded_resting (r : Run) (ord : Nat) (x : Warp) : (x.discarded r ord).resting = x.resting := by
  have hstack : (x.discarded r ord).stack.map (fun e => { e with cp := false }) = x.stack.map fun e => { e with cp := false } := by
    rw [Warp.discarded, List.map_map]
    refine List.map_congr_left fun e _ => ?_
    simp only [Function.comp_apply]
    split <;> rfl
  unfold Warp.resting
  rw [hstack]
  rfl

/-- A warp of a machine in which one was discarded. -/
theorem State.setWarp_discarded_warp? (s : State) (w v : WarpId) (r : Run) (ord : Nat) :
    (s.setWarp w (Warp.discarded r ord)).warp? v = (s.warp? v).map fun x => if v == w then x.discarded r ord else x :=
  s.setWarp_warp? w v _ fun _ => rfl

/-- The discard of one warp's block undoes what the block holds, no warp changed, and then the warp rests. -/
theorem State.discardOne_eq {r : Run} (hr : (s.warp? w).bind (·.run) = some r) :
    ∃ (u : State) (ord : Nat), u.still = s.still ∧ s.discardOne w = u.setWarp w (Warp.discarded r ord) := by
  unfold State.discardOne
  rw [hr]
  refine ⟨_, _, ?_, rfl⟩
  refine Eq.trans (State.cancelCopies_still _ _) ?_
  dsimp only
  split <;> rfl

/-- The discard of one warp's block leaves the machine at rest as it was. -/
theorem State.discardOne_atRest (s : State) (w : WarpId) : (s.discardOne w).atRest = s.atRest := by
  cases hr : (s.warp? w).bind (·.run) with
  | none => rw [State.discardOne, hr]
  | some r =>
    obtain ⟨u, ord, hu, h⟩ := State.discardOne_eq hr
    rw [h, State.setWarp_atRest _ _ _ (Warp.discarded_resting r ord), State.atRest_of_still hu]

/-- A warp has no block in flight once it has been discarded. -/
theorem State.discardOne_run_none (s : State) (w : WarpId) : ((s.discardOne w).warp? w).bind (·.run) = none := by
  cases hr : (s.warp? w).bind (·.run) with
  | none => rw [State.discardOne, hr, hr]
  | some r =>
    obtain ⟨u, ord, _, h⟩ := State.discardOne_eq hr
    rw [h, State.setWarp_discarded_warp?]
    cases u.warp? w <;> simp [Warp.discarded]

/-- A warp with no block in flight has none after the discard of another's. -/
theorem State.discardOne_keeps_run_none (v : WarpId) (h : (s.warp? w).bind (·.run) = none) :
    ((s.discardOne v).warp? w).bind (·.run) = none := by
  cases hr : (s.warp? v).bind (·.run) with
  | none => rwa [State.discardOne, hr]
  | some r =>
    obtain ⟨u, ord, hu, heq⟩ := State.discardOne_eq hr
    rw [heq, State.setWarp_discarded_warp?, State.warp?, State.warps_of_still hu, ← State.warp?]
    cases hx : s.warp? w with
    | none => rfl
    | some x =>
      rw [hx] at h
      rw [Option.map_some, Option.bind_some]
      split
      · rfl
      · exact h

/-- Every block that a discard takes along: the warp's own first, and those of its gang (R205). -/
theorem State.discard_eq (s : State) (w : WarpId) : ∃ (u : State) (ps : List Nat), u.still = s.still ∧
    s.discard w = ps.foldl (fun s p => s.discardOne { team := w.team, warp := p }) (u.discardOne w) := by
  have hdrop (ids : List Nat) : (ids.foldl (fun s id => s.dropRefs (.gang id) false) s).still = s.still :=
    foldl_keeps (fun t : State => t.still = s.still) (fun s id => s.dropRefs (.gang id) false) (fun _ _ ht => ht) ids s rfl
  unfold State.discard
  simp only [List.eraseDups_cons, List.foldl_cons]
  refine ⟨_, _, ?_, rfl⟩
  exact hdrop _

/-- A discard leaves the machine at rest as it was. -/
theorem State.discard_atRest (s : State) (w : WarpId) : (s.discard w).atRest = s.atRest := by
  obtain ⟨u, ps, hu, h⟩ := s.discard_eq w
  rw [h]
  exact foldl_keeps (fun t : State => t.atRest = s.atRest) _ (fun t p ht => (t.discardOne_atRest _).trans ht) ps _
    ((u.discardOne_atRest w).trans (State.atRest_of_still hu))

/-- A warp has no block in flight after the discard of its gang's blocks. -/
theorem State.discard_run_none (s : State) (w : WarpId) : ((s.discard w).warp? w).bind (·.run) = none := by
  obtain ⟨u, ps, _, h⟩ := s.discard_eq w
  rw [h]
  exact foldl_keeps (fun t : State => (t.warp? w).bind (·.run) = none) _ (fun t p ht => State.discardOne_keeps_run_none _ ht) ps _
    (u.discardOne_run_none w)

/-- The warp after a discard: no block in flight, at rest as it was. -/
theorem State.discard_warp? (hx : s.warp? w = some x) : ∃ y, (s.discard w).warp? w = some y ∧ y.run = none ∧ y.resting = x.resting := by
  obtain ⟨y, hy, hrest⟩ := State.warp?_of_atRest (s.discard_atRest w) hx
  have hnone := s.discard_run_none w
  rw [hy] at hnone
  exact ⟨y, hy, hnone, hrest⟩

/-! ### Faults and page faults -/

/-- A warp that is put in a phase. -/
theorem State.setPhase_warp? (hx : s.warp? w = some x) (p : WPhase) :
    (s.setWarp w fun y => { y with phase := p }).warp? w = some { x with phase := p } :=
  (s.setWarp_warp? w w (fun y => { y with phase := p }) fun _ => rfl).trans (by simp [hx])

/-- No gang that waits at its latch is broken where the warp belongs to none (R204). -/
theorem State.breakGangs_none (h : ∀ m ∈ s.mmas, m.team = w.team → m.gang.getLsbD w.warp = true → m.phase ≠ 0) : s.breakGangs w = s := by
  have hnone : (s.mmas.filter fun m => m.team == w.team && m.gang.getLsbD w.warp && m.phase == 0) = [] := by
    refine List.filter_eq_nil_iff.mpr fun m hm => ?_
    simpa using h m hm
  rw [State.breakGangs, hnone]
  rfl

/-- A fault of a warp of no waiting gang: raised, its block discarded, the warp stopped (R354, R356). -/
theorem State.fault_eq (h : ∀ m ∈ s.mmas, m.team = w.team → m.gang.getLsbD w.warp = true → m.phase ≠ 0) (f : Stop) :
    s.fault w f = ((s.raise f).discard w).setWarp w fun x => { x with phase := .faulted } := by
  have hbreak : (s.raise f).breakGangs w = s.raise f := State.breakGangs_none h
  rw [State.fault, hbreak]

/-- A unit's read for a context touches no warp. -/
theorem State.readFor_warps (s : State) (ctx kind inst pa n : Nat) : (s.readFor ctx kind inst pa n).warps = s.warps := by
  have hfix : (s.sysFix pa n).warps = s.warps := (s.sysFix_step pa n).same State.warps fun _ => rfl
  unfold State.readFor
  split
  · split
    · exact hfix
    · exact hfix
  · exact hfix

/-- The counts of a ring are read with no warp touched. -/
theorem State.readCounts_warps (s : State) (ctx kind inst : Nat) (r : Ring) : (s.readCounts ctx kind inst r).warps = s.warps := by
  unfold State.readCounts
  dsimp only
  split
  · rw [State.readFor_warps, State.readFor_warps]
  · rw [State.readFor_warps]

/-- A record is appended to a ring with no warp touched. -/
theorem State.ringWrite_warps (s : State) (r : Ring) (head size : Nat) (rec : List W8) : (s.ringWrite r head size rec).warps = s.warps := by
  have hwrite (u : State) (pa : Nat) (bs : List W8) : (u.sysWrite pa bs).warps = u.warps :=
    (u.sysWrite_step pa bs).same State.warps fun _ => rfl
  unfold State.ringWrite
  split
  · rw [hwrite]
  · rw [hwrite, hwrite]

/-- A record of the fault ring touches no warp. -/
theorem State.faultRecord_warps (s : State) (ctx src acc : Nat) (va : W64) (core warp : Nat) :
    (s.faultRecord ctx src acc va core warp).1.warps = s.warps := by
  unfold State.faultRecord
  split
  · rfl
  · simp only [State.ringAppend, State.ringWrite_warps, State.readCounts_warps]
    rfl

/-- The record of a page fault carries the context's next SEQ (R266). -/
theorem State.faultRecord_seq {c : Ctx} {ctx : Nat} (h : s.ctx? ctx = some c) (src acc : Nat) (va : W64) (core warp : Nat) :
    (s.faultRecord ctx src acc va core warp).2 = c.fseq + 1 := by
  simp only [State.faultRecord, h]

/-- A page fault parks its warp on its record, its block discarded (R264). -/
theorem State.park_warp? {c : Ctx} (hx : s.warp? w = some x) (hc : s.ctx? w.team.launch.ctx = some c) (src acc : Nat) (lanes : Lanes)
    (va : W64) : ∃ y, (s.park w src acc lanes va).warp? w = some y ∧ y.phase = .parked (c.fseq + 1) lanes va ∧
      y.run = none ∧ y.resting = x.resting := by
  obtain ⟨y, hy, hrun, hrest⟩ := State.discard_warp? hx
  have hctx : (s.discard w).ctx? w.team.launch.ctx = some c :=
    (congrArg (fun t : State => t.ctx? w.team.launch.ctx) (s.discard_atRest w)).trans hc
  refine ⟨{ y with phase := .parked (c.fseq + 1) lanes va }, ?_, rfl, hrun, hrest⟩
  simp only [State.park, State.faultRecord_seq hctx]
  refine State.setPhase_warp? ?_ _
  rw [State.warp?, State.faultRecord_warps]
  exact hy

/-- A parked warp that is resumed is ready, at rest as it was (R267). -/
theorem State.unpark_warp? {n : Nat} {l : Lanes} {va : W64} (hx : s.warp? w = some x) (hp : x.phase = .parked n l va) :
    (s.unpark w).warp? w = some { x with phase := .ready, order := s.order } := by
  unfold State.unpark
  rw [State.setWarp_warp?, show s.newOrder.1.warp? w = some x from hx]
  · simp [hp]
  · intro y
    split <;> rfl

/-- Settles O24: what a fault and a page fault leave of the warp is what the discard of its block leaves. -/
theorem faultsLeaveNoTrace : Obligations.FaultsLeaveNoTrace := by
  unfold Obligations.FaultsLeaveNoTrace
  intro s x hx hgang kept
  have kept_of {t : State} {y : Warp} (ht : t.warp? x.id = some y) (hrun : y.run = none) (hrest : y.resting = x.resting) : kept t y :=
    ⟨ht, hrun, Warp.fields_of_resting hrest⟩
  refine ⟨fun f => ?_, fun c src acc lanes va hc => ?_⟩
  · have hraise : (s.raise f).warp? x.id = some x := hx
    obtain ⟨y, hy, hrun, hrest⟩ := State.discard_warp? hraise
    have same {α : Type} (g : State → α) : g ((s.raise f).discard x.id).atRest = g (s.raise f).atRest :=
      congrArg g ((s.raise f).discard_atRest x.id)
    rw [State.fault_eq hgang]
    refine ⟨⟨{ y with phase := .faulted }, kept_of (State.setPhase_warp? hy _) hrun hrest, rfl⟩, same State.raised, same State.mem, same State.l1,
      same State.l2⟩
  · obtain ⟨y, hy, hphase, hrun, hrest⟩ := State.park_warp? hx hc src acc lanes va
    exact ⟨y, kept_of hy hrun hrest, hphase, _, kept_of (State.unpark_warp? hy hphase) hrun hrest, rfl⟩

end Sys2Proof.Machine
end

section
/-! SUPPORT. Lane registers under a commit's write: their words, and where the rows lie (R69, R171, R172). -/
namespace Sys2Proof.Machine

variable {s t u : State} {x y z : Warp} {n : Nat}

/-! ### Registers of a warp -/

/-- A register after a change of one that keeps numbers. -/
theorem Warp.setVReg_vreg? (x : Warp) (n k : Nat) (f : VReg → VReg) (hf : ∀ r, (f r).num = r.num) :
    (x.setVReg n f).vreg? k = (x.vreg? k).map fun r => if k == n then f r else r :=
  find?_map_key VReg.num n k f hf x.v

/-- A change of a register that keeps its words keeps what every register reads. -/
theorem Warp.setVReg_lanesOf (x : Warp) (n k : Nat) (f : VReg → VReg) (hn : ∀ r, (f r).num = r.num) (hl : ∀ r, (f r).lanes = r.lanes) :
    (x.setVReg n f).lanesOf k = x.lanesOf k := by
  rw [Warp.lanesOf, Warp.setVReg_vreg? x n k f hn, Warp.lanesOf]
  cases x.vreg? k with
  | none => rfl
  | some r => by_cases h : k = n <;> simp [h, hl]

/-- The words of a register after its own change. -/
theorem Warp.setVReg_lanesOf_same {r : VReg} {f : VReg → VReg} (h : x.vreg? n = some r) (hn : ∀ r, (f r).num = r.num) :
    (x.setVReg n f).lanesOf n = (f r).lanes := by
  rw [Warp.lanesOf, Warp.setVReg_vreg? x n n f hn, h]
  simp

/-- The words of a register after another's change. -/
theorem Warp.setVReg_lanesOf_ne {k : Nat} {f : VReg → VReg} (hk : k ≠ n) (hn : ∀ r, (f r).num = r.num) :
    (x.setVReg n f).lanesOf k = x.lanesOf k := by
  rw [Warp.lanesOf, Warp.setVReg_vreg? x n k f hn, Warp.lanesOf]
  cases x.vreg? k <;> simp [hk]

/-! ### Rows -/

/-- `z` is `x` but for where the rows of its registers lie and when they were used: the same registers, each with its words. -/
def Warp.SameWords (x z : Warp) : Prop := { z with v := x.v } = x ∧ z.v.map (·.num) = x.v.map (·.num) ∧ ∀ n, z.lanesOf n = x.lanesOf n

theorem Warp.SameWords.refl (x : Warp) : x.SameWords x := ⟨rfl, rfl, fun _ => rfl⟩

theorem Warp.SameWords.trans (h : x.SameWords y) (k : y.SameWords z) : x.SameWords z := by
  refine ⟨?_, k.2.1.trans h.2.1, fun n => (k.2.2 n).trans (h.2.2 n)⟩
  have hz : { z with v := x.v } = { y with v := x.v } := congrArg (fun w : Warp => { w with v := x.v }) k.1
  exact hz.trans h.1

/-- A change of one register's row. -/
theorem Warp.SameWords.setVReg (x : Warp) (n : Nat) {f : VReg → VReg} (hn : ∀ r, (f r).num = r.num) (hl : ∀ r, (f r).lanes = r.lanes) :
    x.SameWords (x.setVReg n f) := by
  refine ⟨rfl, ?_, fun k => x.setVReg_lanesOf n k f hn hl⟩
  rw [Warp.setVReg, List.map_map]
  refine List.map_congr_left fun r _ => ?_
  rw [Function.comp_apply, apply_ite VReg.num, hn, ite_self]

/-- `t` is `s` but for where rows lie and the order in which they were used. -/
def RowStep (s t : State) : Prop :=
  { t with warps := s.warps, order := s.order } = s ∧ ∀ v x, s.warp? v = some x → ∃ z, t.warp? v = some z ∧ x.SameWords z

theorem RowStep.refl (s : State) : RowStep s s := ⟨rfl, fun _ x hx => ⟨x, hx, .refl x⟩⟩

theorem RowStep.trans (h : RowStep s t) (k : RowStep t u) : RowStep s u := by
  refine ⟨?_, fun v x hx => ?_⟩
  · have hu : { u with warps := s.warps, order := s.order } = { t with warps := s.warps, order := s.order } :=
      congrArg (fun w : State => { w with warps := s.warps, order := s.order }) k.1
    exact hu.trans h.1
  · obtain ⟨y, hy, hxy⟩ := h.2 v x hx
    obtain ⟨z, hz, hyz⟩ := k.2 v y hy
    exact ⟨z, hz, hxy.trans hyz⟩

/-- The order of use moves on. -/
theorem RowStep.newOrder (s : State) : RowStep s s.newOrder.1 := ⟨rfl, fun _ x hx => ⟨x, hx, .refl x⟩⟩

/-- One register's row is moved or used. -/
theorem RowStep.setVReg (s : State) (w : WarpId) (n : Nat) {f : VReg → VReg} (hn : ∀ r, (f r).num = r.num)
    (hl : ∀ r, (f r).lanes = r.lanes) : RowStep s (s.setWarp w fun x => x.setVReg n f) := by
  refine ⟨rfl, fun v x hx => ?_⟩
  rw [s.setWarp_warp? w v (fun x => x.setVReg n f) fun _ => rfl, hx, Option.map_some]
  refine ⟨_, rfl, ?_⟩
  split
  · exact .setVReg x n hn hl
  · exact .refl x

/-- A row is spilled with no soft error in the device. -/
theorem State.spill_step (h : s.errs = []) (w : WarpId) (n : Nat) : RowStep s (s.spill w n) := by
  unfold State.spill
  split
  · exact .refl s
  · simp only [State.correct_of_errs h, h, List.contains_nil, List.filter_false, List.isEmpty_nil, Bool.not_true, Bool.false_eq_true,
      if_false]
    exact .setVReg s w n (fun _ => rfl) fun _ => rfl

/-- A register becomes resident, with no soft error in the device. -/
theorem State.makeResident_step (h : s.errs = []) (w : WarpId) (n : Nat) : RowStep s (s.makeResident w n) := by
  unfold State.makeResident
  split
  · exact .refl s
  · split
    · exact .refl s
    · dsimp only
      refine (RowStep.newOrder s).trans ?_
      split
      · exact .setVReg _ w n (fun _ => rfl) fun _ => rfl
      · refine RowStep.trans ?_ (.setVReg _ w n (fun _ => rfl) fun _ => rfl)
        split
        · exact State.spill_step (s := s.newOrder.1) h _ _
        · exact .refl _

/-! ### A commit's write (R69) -/

/-- A lane register's words with those of some lanes replaced. -/
def replacedWords (old : List W32) (m : Lanes) (f : Nat → W32) : List W32 :=
  allLanes.map fun l => if m.getLsbD l then f l else old.getD l 0

/-- The warp with its register bound and written. -/
def Warp.writeV (x : Warp) (n : Nat) (m : Lanes) (f : Nat → W32) : Warp :=
  match x.vreg? n with
  | some _ => x.setVReg n fun r => { r with lanes := replacedWords (x.lanesOf n) m f }
  | none => { x with v := x.v ++ [{ num := n, lanes := replacedWords (x.lanesOf n) m f, row := .saved 0 false, used := 0 }] }

/-- A write of some lane is the warp's own, and then its row becomes resident. -/
theorem State.writeV_eq (h : s.errs = []) (w : WarpId) (n : Nat) {m : Lanes} (hm : m ≠ 0) (f : Nat → W32) :
    s.writeV w n m f = (s.setWarp w fun x => x.writeV n m f).makeResident w n := by
  simp only [State.writeV, beq_iff_eq, hm, if_false]
  rw [State.clearErrs_of_errs (by exact h)]
  rfl

/-- A write changes of its warp the lane registers alone. -/
theorem Warp.writeV_frame (x : Warp) (n : Nat) (m : Lanes) (f : Nat → W32) : { x.writeV n m f with v := x.v } = x := by
  unfold Warp.writeV
  split <;> rfl

@[simp] theorem Warp.writeV_id (x : Warp) (n : Nat) (m : Lanes) (f : Nat → W32) : (x.writeV n m f).id = x.id := by
  unfold Warp.writeV
  split <;> rfl

/-- The register written. -/
theorem Warp.writeV_lanesOf_same (x : Warp) (n : Nat) (m : Lanes) (f : Nat → W32) :
    (x.writeV n m f).lanesOf n = replacedWords (x.lanesOf n) m f := by
  unfold Warp.writeV
  split
  · rename_i r hr
    exact Warp.setVReg_lanesOf_same hr fun _ => rfl
  · rename_i hr
    have hnone : x.v.find? (fun r => r.num == n) = none := hr
    simp [Warp.lanesOf, Warp.vreg?, hnone]

/-- Every other register. -/
theorem Warp.writeV_lanesOf_ne (x : Warp) {n k : Nat} (hk : k ≠ n) (m : Lanes) (f : Nat → W32) : (x.writeV n m f).lanesOf k = x.lanesOf k := by
  unfold Warp.writeV
  split
  · exact Warp.setVReg_lanesOf_ne hk fun _ => rfl
  · simp [Warp.lanesOf, Warp.vreg?, hk.symm]

/-- What a lane-register slot's commit leaves: the token's words on its valid lanes, everything else but the places of rows as it was. -/
theorem State.writeV_commits (he : s.errs = []) (hx : s.warp? x.id = some x) (n : Nat) (m : Lanes) (f : Nat → W32) :
    ∃ y, (s.writeV x.id n m f).warp? x.id = some y ∧
      (∀ l, l < 32 → (y.lanesOf n).getD l 0 = if m.getLsbD l then f l else (x.lanesOf n).getD l 0) ∧
      (∀ k, k ≠ n → y.lanesOf k = x.lanesOf k) ∧ { y with v := x.v } = x ∧
      (∀ v z, v ≠ x.id → s.warp? v = some z → ∃ z', (s.writeV x.id n m f).warp? v = some z' ∧ z.SameWords z') ∧
      { s.writeV x.id n m f with warps := s.warps, order := s.order } = s := by
  by_cases hm : m = 0
  · have hwrite : s.writeV x.id n m f = s := by simp [State.writeV, hm]
    rw [hwrite]
    exact ⟨x, hx, fun l _ => by simp [hm], fun _ _ => rfl, rfl, fun v z _ hz => ⟨z, hz, .refl z⟩, rfl⟩
  · rw [State.writeV_eq he x.id n hm f]
    have hset (v : WarpId) := s.setWarp_warp? x.id v (fun y => y.writeV n m f) fun y => y.writeV_id n m f
    obtain ⟨hframe, hrows⟩ := State.makeResident_step (s := s.setWarp x.id fun y => y.writeV n m f) he x.id n
    obtain ⟨y, hy, hself, _, hwords⟩ := hrows x.id (x.writeV n m f) (by simp [hset, hx])
    refine ⟨y, hy, fun l hl => ?_, fun k hk => ?_, ?_, fun v z hv hz => hrows v z (by simp [hset, hz, hv]), ?_⟩
    · rw [hwords, Warp.writeV_lanesOf_same, replacedWords, allLanes, getD_map_range _ _ hl]
    · rw [hwords, Warp.writeV_lanesOf_ne x hk]
    · have hy' : { y with v := x.v } = { x.writeV n m f with v := x.v } := congrArg (fun z : Warp => { z with v := x.v }) hself
      exact hy'.trans (x.writeV_frame n m f)
    · exact congrArg (fun t : State => { t with warps := s.warps }) hframe

/-- Settles O39: a uniform register by the two cases of its token, a lane register by `State.writeV_commits`. -/
theorem commitWritesRegisters : Obligations.CommitWritesRegisters := by
  unfold Obligations.CommitWritesRegisters
  intro s x am sl t hx ht hd
  refine ⟨fun hk hv => ?_, fun hk hv => ?_, fun hk he => ?_⟩
  · simp only [State.commitSlot, ht, hd, hk, hv, Bool.false_eq_true, if_false, if_true]
  · simp only [State.commitSlot, ht, hd, hk, hv, Bool.false_eq_true, if_false, if_true]
  · have hslot : s.commitSlot x.id am sl = s.writeV x.id sl.reg (lanesOf (t.ok am)) t.val32 := by simp [State.commitSlot, ht, hd, hk]
    rw [hslot]
    obtain ⟨y, hy, hwords, hothers, hself, hwarps, hframe⟩ := State.writeV_commits he hx sl.reg (lanesOf (t.ok am)) t.val32
    refine ⟨y, hy, fun l hl => ?_, hothers, hself, hwarps, hframe⟩
    rw [hwords l hl, lanesOf_getLsbD, decide_eq_true hl, Bool.true_and]

end Sys2Proof.Machine
end

section
/-! SUPPORT. Blocks that meet the conditions of a commit, stop requests, and yields (R75, R76, R93, R236, R348). -/
namespace Sys2Proof.Machine

variable {s : State} {x : Warp}

/-! ### BLOCK_COMMIT -/

/-- A block in flight that meets a test, its FILLB's Legend not frozen, meets the conditions given by it. -/
theorem State.runMeets_of {r : Run} {p : Run → Bool} (hx : s.warp? x.id = some x) (hr : x.run = some r) (hphase : x.phase = .running)
    (hp : p r = true) (hfill : s.fillHeld x r = false) : s.runMeets p x.id = true := by
  simp [State.runMeets, hx, hr, hphase, hp, hfill]

/-- A block that waits in no BARSYN counts no arrival. -/
theorem State.countBarsyn_none {r : Run} (hx : s.warp? x.id = some x) (hr : x.run = some r) (hb : r.barsyn?.isNone = true)
    (rel : List WarpId) : State.countBarsyn (s, rel) x.id = (s, rel) := by
  rw [Option.isNone_iff_eq_none] at hb
  simp [State.countBarsyn, hx, hr, hb]

/-- A block that commits alone, then those that it released. -/
theorem State.commitAll_alone (n : Nat) (htog : s.together x.id = [x.id]) (hmeets : s.runMeets Run.finished x.id = true) :
    s.commitAll (n + 1) [x.id] = (s.commitOne x.id).1.commitAll n (s.commitOne x.id).2 := by
  simp [State.commitAll, htog, hmeets]

/-- A block that meets every condition, alone and with no exit fault, commits, and then those that it released (R75, R236). -/
theorem State.tryCommit_alone {r : Run} (hx : s.warp? x.id = some x) (hr : x.run = some r) (hphase : x.phase = .running)
    (hfin : r.finished = true) (hfill : s.fillHeld x r = false) (htog : s.together x.id = [x.id]) (hexit : x.exitFault r = none)
    (hfind : s.findFills [x.id] = s) :
    s.tryCommit x.id = (s.commitOne x.id).1.commitAll 255 (s.commitOne x.id).2 := by
  obtain ⟨hcomplete, hbarsyn⟩ : r.complete = true ∧ r.barsyn?.isNone = true := by simpa [Run.finished] using hfin
  have hmeets : s.runMeets Run.complete x.id = true := State.runMeets_of hx hr hphase hcomplete hfill
  have hfinished : s.runMeets Run.finished x.id = true := State.runMeets_of hx hr hphase hfin hfill
  simp [State.tryCommit, htog, hfind, hmeets, hx, hr, hexit, State.countBarsyn_none hx hr hbarsyn, State.commitAll_alone 255 htog hfinished]

/-! ### Stop requests -/

/-- With no soft error in the device, no error of a region is found. -/
theorem State.findRegion_of_errs (h : s.errs = []) (g : Granule) : s.findRegion g = s := by
  simp [State.findRegion, h, State.correct_of_errs h]

/-- With no soft error in the device, no error of a Legend that a FILLB reads is found. -/
theorem State.findFills_of_errs (h : s.errs = []) (ws : List WarpId) : s.findFills ws = s := by
  induction ws with
  | nil => rfl
  | cons w ws ih =>
    have hone : s.findFills [w] = s := by
      simp only [State.findFills, List.foldl_cons, List.foldl_nil, State.findRegion_of_errs h, ite_self]
      split <;> rfl
    have hcons : s.findFills (w :: ws) = (s.findFills [w]).findFills ws := rfl
    rw [hcons, hone, ih]

/-- A warp's own block is among those that commit with it. -/
theorem State.mem_together (s : State) {w : WarpId} (hw : w.warp < 32) : w ∈ s.together w := by
  simp only [State.together, List.mem_filterMap, List.mem_range]
  exact ⟨w.warp, hw, by simp⟩

/-- A block that does not meet the conditions does not commit. -/
theorem State.tryCommit_unmet {w : WarpId} (hw : w.warp < 32) (he : s.errs = []) (hm : s.runMeets Run.complete w = false) :
    s.tryCommit w = s := by
  have hall : ((s.together w).all fun v => s.runMeets Run.complete v) = false :=
    List.all_eq_false.mpr ⟨w, s.mem_together hw, by simp [hm]⟩
  simp [State.tryCommit, State.findFills_of_errs he, hall]

/-- The warps of a launch on a core that a stop request acts on (R76, R335). -/
def State.asked (s : State) (core : Nat) (l : LaunchId) : List WarpId :=
  ((s.warps.filter fun y => y.core == core && y.id.team.launch == l).filter fun y =>
    (s.launch? l).map (·.phase) == some .killing || (s.stopsHere y && y.phase != .stopped)).map (·.id)

/-- STOP_REQUEST on a core that runs: every block that can commit does, then each warp stops (R76, R236). -/
theorem execStopRequest_eq {core : Nat} (hrun : s.coreRuns core = true) (l : LaunchId) :
    exec (.stopRequest core l) s = .next ((s.asked core l).foldl (fun s w => s.stopWarp w) (s.commitMet (s.asked core l))) := by
  rw [exec_stopRequest, execStopRequest, State.asked, List.filter_filter]
  simp only [hrun, if_true, Bool.and_comm, Bool.and_assoc]

/-- A warp with no step 6 to be made owes nothing of it. -/
theorem owes_of_rejoin_none (h : x.rejoin = none) : x.owes = false := by
  unfold Warp.owes
  split <;> simp [h]

/-- A warp that stands ready with nothing owed of step 6, or runs, is stopped at its boundary, its block discarded (R76). -/
theorem State.stopWarp_unowed (hx : s.warp? x.id = some x) (hrejoin : x.rejoin = none) :
    s.stopWarp x.id = ((if x.phase = .running then s.discard x.id else s).setWarp x.id fun y =>
      if y.phase = .ready then { y with phase := .stopped } else y).recallHeld x.id := by
  have hdiscard : s.discardRunning x.id = if x.phase = .running then s.discard x.id else s := by
    rw [State.discardRunning, hx, Option.map_some]
    split
    · rename_i h
      rw [if_pos (Option.some.inj h)]
    · rename_i h
      rw [if_neg fun hp => h (congrArg some hp)]
  have hwarp : (((s.discardRunning x.id).warp? x.id).map (·.owes)).getD false = false := by
    rw [hdiscard]
    split
    · obtain ⟨y, hy, _, hrest⟩ := State.discard_warp? hx
      have hy' : y.resting.rejoin = x.resting.rejoin := congrArg Warp.rejoin hrest
      have hnone : y.owes = false := owes_of_rejoin_none (hy'.trans hrejoin)
      simp [hy, hnone]
    · simp [hx, owes_of_rejoin_none hrejoin]
  rw [← hdiscard]
  simp only [State.stopWarp, hwarp, Bool.false_eq_true, if_false, beq_iff_eq]

/-- A warp whose commit has step 6 still to be made stops after it (R75). -/
theorem State.stopWarp_owes (hx : s.warp? x.id = some x) (hphase : x.phase = .ready) (hrejoin : x.rejoin ≠ none) :
    s.stopWarp x.id = s := by
  have howes : x.owes = true := owes_of_rejoin (.inl ⟨hphase, hrejoin⟩)
  have hdiscard : s.discardRunning x.id = s := by simp [State.discardRunning, hx, hphase]
  simp [State.stopWarp, hdiscard, hx, howes]

/-- STOP_REQUEST of the one warp of a launch on a core, its block not fit to commit: the warp stops (R76). -/
theorem execStopRequest_one (hrun : s.coreRuns x.core = true) (hw : x.id.warp < 32) (he : s.errs = [])
    (hm : s.runMeets Run.complete x.id = false) (hphase : x.phase = .ready ∨ x.phase = .running)
    (hone : (s.warps.filter fun y => y.core == x.core && y.id.team.launch == x.id.team.launch) = [x])
    (hstop : (s.launch? x.id.team.launch).map (·.phase) = some .killing ∨ s.stopsHere x = true) :
    exec (.stopRequest x.core x.id.team.launch) s = .next (s.stopWarp x.id) := by
  have hnot : x.phase ≠ .stopped := by rcases hphase with h | h <;> simp [h]
  have hasked : s.asked x.core x.id.team.launch = [x.id] := by
    rw [State.asked, hone]
    rcases hstop with h | h <;> simp [h, hnot]
  rw [execStopRequest_eq hrun, hasked]
  simp [State.commitMet, State.tryCommit_unmet hw he hm]

/-! ### Yields -/

/-- Under a yield request, the YIELD of a warp that runs no routine is noted as its block commits (R93, R348). -/
theorem State.noteYield_yielding {l : Launch} {d : Nat} (hx : s.warp? x.id = some x) (hl : s.launch? x.id.team.launch = some l)
    (hphase : l.phase = .yielding d) (hr : x.routine = none) :
    s.noteYield x.id true = s.setLaunch x.id.team.launch fun l => { l with yielded := x.id :: l.yielded } := by
  have hyields : s.yieldsHere x = true := by simp [State.yieldsHere, State.launchOf_eq hl, hphase, hr]
  simp [State.noteYield, hx, hyields]

/-- No stop observes the boundary of a warp that owes step 6 (R75). -/
theorem State.atBoundary_owes (hx : s.warp? x.id = some x) (ho : x.owes = true) : s.atBoundary x.id = s := by
  simp [State.atBoundary, hx, ho]

/-- A warp that has yielded stops at its boundary (R348). -/
theorem State.atBoundary_yielded {l : Launch} {d : Nat} (hx : s.warp? x.id = some x) (hl : s.launch? x.id.team.launch = some l)
    (hphase : l.phase = .yielding d) (hr : x.routine = none) (hready : x.phase = .ready) (hrejoin : x.rejoin = none)
    (hy : x.id ∈ l.yielded) :
    s.atBoundary x.id = (s.setWarp x.id fun y => { y with phase := .stopped }).recallHeld x.id := by
  have howes : x.owes = false := owes_of_rejoin_none hrejoin
  have hrests : s.rests x = true := by simp [State.rests, State.launchOf_eq hl, hphase, hr, hy]
  simp [State.atBoundary, hx, hready, howes, hrests]

/-- Settles O40: the commit of one block alone, the stop of one warp and of two, and the boundary of a warp that yields. -/
theorem blocksCommitAndStop : Obligations.BlocksCommitAndStop := by
  unfold Obligations.BlocksCommitAndStop
  refine fun s x hx hrun => ⟨fun r hr hphase hfin hfill htog hexit hfind => ?_, fun hw he hm hphase hone hstop => ⟨fun hrejoin => ?_,
    fun hrejoin hready => ?_⟩, fun l y hl hkill _ htwo => ?_, fun l d hl hyield hr hready => ⟨State.noteYield_yielding hx hl hyield hr,
    fun hrejoin => State.atBoundary_owes hx (owes_of_rejoin (.inl ⟨hready, hrejoin⟩)),
    fun hrejoin hy => State.atBoundary_yielded hx hl hyield hr hready hrejoin hy⟩⟩
  · rw [exec_blockCommit, execBlockCommit, hx]
    simp [hrun, State.tryCommit_alone hx hr hphase hfin hfill htog hexit hfind]
  · rw [execStopRequest_one hrun hw he hm hphase hone hstop, State.stopWarp_unowed hx hrejoin]
  · rw [execStopRequest_one hrun hw he hm hphase hone hstop, State.stopWarp_owes hx hready hrejoin]
  · have hasked : s.asked x.core x.id.team.launch = [x.id, y.id] := by
      rw [State.asked, htwo]
      simp [hl, hkill]
    rw [execStopRequest_eq hrun, hasked]
    rfl

end Sys2Proof.Machine
end

section
/-! SUPPORT. Bytes of a line, masks of its bytes, and bytes as numbers (R4, R245). -/
namespace Sys2Proof

/-! ### Digits -/

/-- A number of digits below a base is below the base's power. -/
theorem foldr_digits_lt {b : Nat} {g : Nat → Nat} (hg : ∀ j, g j < b) (n s : Nat) :
    (List.range' s n).foldr (fun j a => a * b + g j) 0 < b ^ n := by
  induction n generalizing s with
  | zero => simp
  | succ n ih =>
    rw [List.range'_succ, List.foldr_cons, Nat.pow_succ]
    have hdigit := hg s
    have hrest : (List.range' (s + 1) n).foldr (fun j a => a * b + g j) 0 + 1 ≤ b ^ n := ih (s + 1)
    have := Nat.mul_le_mul_right b hrest
    rw [Nat.add_mul, Nat.one_mul] at this
    omega

/-- The digits of a number made from them, the lowest first. -/
theorem foldr_digits {b : Nat} {g : Nat → Nat} (hg : ∀ j, g j < b) {n j : Nat} (s : Nat) (hj : j < n) :
    (List.range' s n).foldr (fun j a => a * b + g j) 0 / b ^ j % b = g (s + j) := by
  induction n generalizing s j with
  | zero => omega
  | succ n ih =>
    have hb : 0 < b := Nat.lt_of_le_of_lt (Nat.zero_le _) (hg 0)
    rw [List.range'_succ, List.foldr_cons]
    cases j with
    | zero => rw [Nat.pow_zero, Nat.div_one, Nat.mul_add_mod_self_right, Nat.mod_eq_of_lt (hg s), Nat.add_zero]
    | succ j =>
      rw [Nat.pow_succ', ← Nat.div_div_eq_div_mul, Nat.add_comm, Nat.add_mul_div_right _ _ hb, Nat.div_eq_of_lt (hg s), Nat.zero_add,
        ih (s + 1) (by omega), Nat.add_right_comm, Nat.add_assoc]

/-- A number that fits a word is that word's value. -/
theorem toNat_ofNat_of_lt {n v : Nat} (h : v < 2 ^ n) : (BitVec.ofNat n v).toNat = v := by
  rw [BitVec.toNat_ofNat, Nat.mod_eq_of_lt h]

/-! ### Bytes of a line -/

/-- The bytes of a line made from them. -/
theorem Line.byte_ofFn (f : Nat → W8) {j : Nat} (hj : j < 128) : (Line.ofFn f).byte j = f j := by
  have hbyte (j : Nat) : (f j).toNat < 256 := (f j).isLt
  have hlt := foldr_digits_lt hbyte 128 0
  have hdigit := foldr_digits hbyte 0 hj
  have hpow (n : Nat) : 256 ^ n = 2 ^ (8 * n) := (Nat.pow_mul 2 8 n).symm
  rw [← List.range_eq_range', hpow, show 8 * 128 = 1024 from rfl] at hlt
  rw [← List.range_eq_range', hpow, Nat.zero_add] at hdigit
  apply BitVec.eq_of_toNat_eq
  rw [Line.byte, Line.ofFn, slice_toNat, toNat_ofNat_of_lt hlt]
  exact hdigit

/-- A mask made from a test of each byte. -/
theorem LineMask.getLsbD_ofFn (f : Nat → Bool) {j : Nat} (hj : j < 128) : (LineMask.ofFn f).getLsbD j = f j := by
  have hbit (j : Nat) : (if f j then 1 else 0) < 2 := by split <;> omega
  have hlt := foldr_digits_lt hbit 128 0
  have hdigit := foldr_digits hbit 0 hj
  rw [← List.range_eq_range'] at hlt hdigit
  simp only [Nat.mul_comm _ 2, Nat.zero_add] at hlt hdigit
  rw [LineMask.ofFn, BitVec.getLsbD_ofNat, decide_eq_true hj, Bool.true_and, Nat.testBit_eq_decide_div_mod_eq, hdigit]
  cases f j <;> rfl

/-- A merge takes the source's byte where the mask is set, and keeps the other elsewhere. -/
theorem Line.byte_merge (dst src : Line) (m : LineMask) {j : Nat} (hj : j < 128) :
    (dst.merge src m).byte j = if m.getLsbD j then src.byte j else dst.byte j := Line.byte_ofFn _ hj

/-- A line with bytes written from an offset on. -/
theorem Line.byte_write (l : Line) (off : Nat) (bs : List W8) {j : Nat} (hj : j < 128) :
    (l.write off bs).byte j = if off ≤ j ∧ j < off + bs.length then bs.getD (j - off) 0 else l.byte j := by
  rw [Line.write, Line.byte_ofFn _ hj]
  simp only [Bool.and_eq_true, decide_eq_true_eq]

/-- The mask of some bytes. -/
theorem spanMask_getLsbD (off n : Nat) {j : Nat} (hj : j < 128) :
    (spanMask off n).getLsbD j = (decide (off ≤ j) && decide (j < off + n)) := LineMask.getLsbD_ofFn _ hj

/-- The mask of every byte. -/
theorem wholeLine_getLsbD {j : Nat} (hj : j < 128) : Machine.wholeLine.getLsbD j = true := by
  rw [Machine.wholeLine, BitVec.getLsbD_allOnes, decide_eq_true hj]

/-- Bytes written within a line are read back. -/
theorem Line.bytes_write (l : Line) {off : Nat} {bs : List W8} (h : off + bs.length ≤ 128) : (l.write off bs).bytes off bs.length = bs := by
  refine List.ext_getElem (by simp [Line.bytes]) fun j _ hj => ?_
  simp only [Line.bytes, List.getElem_map, List.getElem_range]
  rw [Line.byte_write l off bs (by omega), if_pos ⟨by omega, by omega⟩]
  simp [hj]

/-- A mask with a byte set is not empty. -/
theorem LineMask.ne_zero_of_getLsbD {m : LineMask} {j : Nat} (h : m.getLsbD j = true) : m ≠ 0 := by
  rintro rfl
  simp at h

end Sys2Proof

namespace Sys2Proof.Machine

/-- A number as bytes has as many as are asked for. -/
@[simp] theorem leBytes_length (n v : Nat) : (leBytes n v).length = n := by
  induction n generalizing v with
  | zero => rfl
  | succ n ih => rw [leBytes, List.length_cons, ih]

end Sys2Proof.Machine
end

section
/-! SUPPORT. Copies of lines (R244 to R252): what finding one answers after each change, which changes leave memory and the copies as they
were, and that no push or grant brings a line into an L1. -/
namespace Sys2Proof.Machine

variable {s t u : State}

/-! ### Finding a copy -/

/-- Looking through a filter that lets through all that is sought. -/
theorem find?_filter_of_imp {α : Type} {p q : α → Bool} (h : ∀ a, p a = true → q a = true) (l : List α) :
    (l.filter q).find? p = l.find? p := by
  rw [List.find?_filter]
  congr 1
  funext a
  cases hp : p a <;> simp_all

/-- Looking through a filter that lets through nothing that is sought. -/
theorem find?_filter_none {α : Type} {p q : α → Bool} (h : ∀ a, p a = true → q a = false) (l : List α) : (l.filter q).find? p = none := by
  rw [List.find?_filter, List.find?_eq_none]
  intro a _
  cases hp : p a <;> simp_all

/-- A found L1 copy is the core's, of the line. -/
theorem State.l1?_keys {c ln : Nat} {x : L1Line} (h : s.l1? c ln = some x) : x.core = c ∧ x.line = ln := by
  simpa using List.find?_some h

/-- A found L2 copy is the die's, of the line. -/
theorem State.l2?_keys {d ln : Nat} {x : L2Line} (h : s.l2? d ln = some x) : x.die = d ∧ x.line = ln := by
  simpa using List.find?_some h

/-- An L1 copy put in its place is found there. -/
theorem State.putL1_l1?_same (s : State) {x : L1Line} {c ln : Nat} (hc : x.core = c) (hl : x.line = ln) : (s.putL1 x).l1? c ln = some x := by
  simp [State.putL1, State.l1?, hc, hl]

/-- An L1 copy put in its place hides no other. -/
theorem State.putL1_l1?_ne (s : State) {x : L1Line} {c ln : Nat} (h : x.core ≠ c ∨ x.line ≠ ln) : (s.putL1 x).l1? c ln = s.l1? c ln := by
  have hx : (x.core == c && x.line == ln) = false := by
    rcases h with h | h <;> simp [h]
  simp only [State.putL1, State.l1?, List.find?_cons, hx]
  refine find?_filter_of_imp (fun y hy => ?_) _
  simp only [Bool.and_eq_true, beq_iff_eq] at hy
  rcases h with h | h <;> simp [hy.1, hy.2, h.symm]

/-- An L2 copy put in its place is found there. -/
theorem State.putL2_l2?_same (s : State) {x : L2Line} {d ln : Nat} (hd : x.die = d) (hl : x.line = ln) : (s.putL2 x).l2? d ln = some x := by
  simp [State.putL2, State.l2?, hd, hl]

/-! ### Errors and poison apart -/

/-- The machine but for its errors, its poison and the counters of both. -/
def State.bare (s : State) : State := { s with errs := [], poison := [], regs := { s.regs with counters := [] } }

/-- Machines alike but for errors and poison agree in everything else. -/
theorem State.same_of_bare (h : t.bare = s.bare) {α : Type} (f : State → α) (hf : ∀ x : State, f x = f x.bare) : f t = f s := by
  rw [hf t, hf s, h]

theorem State.correct_bare (s : State) (gs : List Granule) : (s.correct gs).bare = s.bare := by
  unfold State.correct
  split
  · rfl
  · refine foldl_keeps (fun t : State => t.bare = s.bare) _ (fun t g ht => ?_) gs s rfl
    split
    · exact ht
    · exact ht

theorem State.fix_bare (s : State) (p : Place) (pa n : Nat) : (s.fix p pa n).bare = s.bare := by
  unfold State.fix
  split
  · rfl
  · exact s.correct_bare _

theorem State.carry_bare (s : State) (src dst : Place) (ln : Nat) (m : LineMask) : (s.carry src dst ln m).bare = s.bare := by
  unfold State.carry
  split <;> rfl

theorem State.replaced_bare (s : State) (p : Place) (pa n : Nat) : (s.replaced p pa n).bare = s.bare := by
  unfold State.replaced
  split <;> rfl

theorem State.forget_bare (s : State) (p : Place) (ln : Nat) : (s.forget p ln).bare = s.bare := s.replaced_bare _ _ _

/-! ### Dropping a copy -/

/-- The L2s after a copy is dropped from an L1. -/
@[simp] theorem State.dropL1_l2 (s : State) (c ln : Nat) : (s.dropL1 c ln).l2 = s.l2 :=
  State.same_of_bare (s.forget_bare (.l1 c) ln) State.l2 fun _ => rfl

/-- Memory after a copy is dropped from an L1. -/
@[simp] theorem State.dropL1_mem (s : State) (c ln : Nat) : (s.dropL1 c ln).mem = s.mem :=
  State.same_of_bare (s.forget_bare (.l1 c) ln) State.mem fun _ => rfl

/-- A dropped L1 copy is found no more. -/
theorem State.dropL1_l1?_same (s : State) (c ln : Nat) : (s.dropL1 c ln).l1? c ln = none :=
  find?_filter_none (fun y hy => by simpa using hy) s.l1

/-- What is at work of a die's copies apart, the machine after a line's marks are forgotten. -/
theorem State.unsee_eq (s : State) (d ln : Nat) : ∃ g, s.unsee d ln = { s with seen := g } := by
  unfold State.unsee
  split
  · exact ⟨s.seen, rfl⟩
  · exact ⟨_, rfl⟩

/-- Memory after a copy is dropped from an L2. -/
@[simp] theorem State.dropL2_mem (s : State) (d ln : Nat) : (s.dropL2 d ln).mem = s.mem := by
  obtain ⟨g, hg⟩ := (s.forget (.l2 d) ln).unsee_eq d ln
  rw [State.dropL2, hg]
  exact State.same_of_bare (s.forget_bare (.l2 d) ln) State.mem fun _ => rfl

/-- A dropped L2 copy is found no more. -/
theorem State.dropL2_l2?_same (s : State) (d ln : Nat) : (s.dropL2 d ln).l2? d ln = none :=
  find?_filter_none (fun y hy => by simpa using hy) s.l2

/-! ### No line comes into an L1 by a push, a recall or a grant -/

/-- `t` has no line in an L1 that `s` has not there. -/
def L1Fewer (s t : State) : Prop := ∀ c ln, s.l1? c ln = none → t.l1? c ln = none

theorem L1Fewer.refl (s : State) : L1Fewer s s := fun _ _ h => h

theorem L1Fewer.trans (h : L1Fewer s t) (k : L1Fewer t u) : L1Fewer s u := fun c ln hs => k c ln (h c ln hs)

theorem L1Fewer.of_l1 (h : t.l1 = s.l1) : L1Fewer s t := fun c ln hs => by rwa [State.l1?, h]

/-- `t` is reached from `s` by recalls and pushes: no line comes into an L1, and no poison is lost with a line's owner unknown. -/
def Recalls (s t : State) : Prop := t.lost = s.lost ∧ L1Fewer s t

theorem Recalls.refl (s : State) : Recalls s s := ⟨rfl, .refl s⟩

theorem Recalls.trans (h : Recalls s t) (k : Recalls t u) : Recalls s u := ⟨k.1.trans h.1, h.2.trans k.2⟩

theorem Recalls.of_l1 (hl : t.lost = s.lost) (h : t.l1 = s.l1) : Recalls s t := ⟨hl, .of_l1 h⟩

theorem Recalls.of_bare (h : t.bare = s.bare) : Recalls s t :=
  .of_l1 (State.same_of_bare h State.lost fun _ => rfl) (State.same_of_bare h State.l1 fun _ => rfl)

theorem Recalls.foldl {α : Type} {f : State → α → State} (h : ∀ s a, Recalls s (f s a)) (l : List α) (s : State) : Recalls s (l.foldl f s) :=
  foldl_keeps (Recalls s) f (fun _ a hb => hb.trans (h _ a)) l s (.refl s)

theorem L1Fewer.foldl {α : Type} {f : State → α → State} (h : ∀ s a, L1Fewer s (f s a)) (l : List α) (s : State) : L1Fewer s (l.foldl f s) :=
  foldl_keeps (L1Fewer s) f (fun _ a hb => hb.trans (h _ a)) l s (.refl s)

theorem State.fix_recalls (s : State) (p : Place) (pa n : Nat) : Recalls s (s.fix p pa n) := .of_bare (s.fix_bare p pa n)

theorem State.carry_recalls (s : State) (src dst : Place) (ln : Nat) (m : LineMask) : Recalls s (s.carry src dst ln m) :=
  .of_bare (s.carry_bare src dst ln m)

theorem State.forget_recalls (s : State) (p : Place) (ln : Nat) : Recalls s (s.forget p ln) := .of_bare (s.forget_bare p ln)

theorem State.homeWrite_recalls (s : State) (ln : Nat) (d : Line) (m : LineMask) : Recalls s (s.homeWrite ln d m) := .of_l1 rfl rfl

theorem State.putL2_recalls (s : State) (x : L2Line) : Recalls s (s.putL2 x) := .of_l1 rfl rfl

theorem State.unsee_recalls (s : State) (d ln : Nat) : Recalls s (s.unsee d ln) := by
  obtain ⟨g, hg⟩ := s.unsee_eq d ln
  rw [hg]
  exact .of_l1 rfl rfl

theorem State.seeAt_recalls (s : State) (d o ln : Nat) : Recalls s (s.seeAt d o ln) := by
  unfold State.seeAt
  split
  · exact .refl s
  · exact .of_l1 rfl rfl

theorem State.dropLags_recalls (s : State) (pa n : Nat) : Recalls s (s.dropLags pa n) := by
  unfold State.dropLags
  split
  · exact .refl s
  · exact .of_l1 rfl rfl

theorem State.dropL1_recalls (s : State) (c ln : Nat) : Recalls s (s.dropL1 c ln) := by
  refine ⟨State.same_of_bare (s.forget_bare (.l1 c) ln) State.lost fun _ => rfl, fun k l hs => ?_⟩
  rw [State.l1?, List.find?_eq_none] at hs ⊢
  exact fun y hy => hs y (List.mem_of_mem_filter hy)

theorem State.dropL2_recalls (s : State) (d ln : Nat) : Recalls s (s.dropL2 d ln) :=
  ((s.forget_recalls (.l2 d) ln).trans (State.unsee_recalls _ d ln)).trans (.of_l1 rfl rfl)

theorem State.sendHome_recalls (s : State) (x : L2Line) (m : LineMask) : Recalls s (s.sendHome x m) :=
  (((s.fix_recalls _ _ _).trans (State.homeWrite_recalls _ _ _ _)).trans (State.carry_recalls _ _ _ _ _)).trans (State.unsee_recalls _ _ _)

/-- A copy that is in an L1 already is put there changed. -/
theorem State.putL1_recalls {x y : L1Line} (hx : s.l1? x.core x.line = some y) : Recalls s (s.putL1 x) := by
  refine ⟨rfl, fun c ln hs => ?_⟩
  have hne : x.core ≠ c ∨ x.line ≠ ln := by
    by_contra hcon
    obtain ⟨rfl, rfl⟩ : x.core = c ∧ x.line = ln := by simpa [not_or] using hcon
    rw [hx] at hs
    cases hs
  rw [s.putL1_l1?_ne hne, hs]

theorem State.writeBackL1_recalls (s : State) (c ln : Nat) : Recalls s (s.writeBackL1 c ln) := by
  unfold State.writeBackL1
  split
  · exact .refl s
  · rename_i x hx
    split
    · exact .refl s
    · have hbare : (((s.fix (.l1 c) (128 * ln) 128).carry (.l1 c) (.l2 (dieOf c)) ln x.dirty)).bare = s.bare :=
        (State.carry_bare _ _ _ _ _).trans (s.fix_bare _ _ _)
      obtain ⟨hc, hl⟩ := State.l1?_keys hx
      refine (Recalls.of_bare hbare).trans ((State.putL1_recalls (y := x) ?_).trans (.of_l1 rfl rfl))
      exact (State.same_of_bare hbare (fun t => t.l1? x.core x.line) fun _ => rfl).trans (by rw [hc, hl, hx])

theorem State.recallL1s_recalls (s : State) (d ln : Nat) (drop : Bool) : Recalls s (s.recallL1s d ln drop) := by
  refine Recalls.foldl (fun s c => ?_) _ s
  dsimp only
  split
  · exact (s.writeBackL1_recalls c ln).trans (State.dropL1_recalls _ _ _)
  · exact s.writeBackL1_recalls c ln

theorem State.mergeMarks_recalls (s : State) (d ln : Nat) : Recalls s (s.mergeMarks d ln) := by
  unfold State.mergeMarks
  split
  · exact .refl s
  · split
    · exact .refl s
    · dsimp only
      split
      · split
        · exact s.putL2_recalls _
        · have h := fun x o => (s.putL2_recalls x).trans (State.recallL1s_recalls _ o ln true)
          split
          · exact ((((h _ _).trans (State.fix_recalls _ _ _ _)).trans (State.carry_recalls _ _ _ _ _)).trans
              (State.seeAt_recalls _ _ _ _)).trans (State.putL2_recalls _ _)
          · exact h _ _
      · exact (s.putL2_recalls _).trans (State.sendHome_recalls _ _ _)

theorem State.loseLine_recalls (s : State) (d ln : Nat) : Recalls s (s.loseLine d ln) := by
  unfold State.loseLine
  refine (s.recallL1s_recalls d ln true).trans ?_
  dsimp only
  split
  · exact .refl _
  · split
    · exact (State.sendHome_recalls _ _ _).trans (State.dropL2_recalls _ _ _)
    · exact (State.mergeMarks_recalls _ _ _).trans (State.dropL2_recalls _ _ _)

/-- Some dies lose a line, one after another. -/
theorem State.loseAll_recalls (s : State) (ds : List Nat) (ln : Nat) : Recalls s (ds.foldl (fun s d => s.loseLine d ln) s) :=
  Recalls.foldl (fun s d => s.loseLine_recalls d ln) ds s

theorem State.push_recalls (s : State) (d ln : Nat) : Recalls s (s.push d ln) := by
  unfold State.push
  split
  · exact .refl s
  · split
    · exact .refl s
    · have h := fun ds => (s.mergeMarks_recalls d ln).trans (State.loseAll_recalls _ ds ln)
      dsimp only
      split
      · exact s.mergeMarks_recalls d ln
      · split
        · exact h _
        · have k := fun ds => (h ds).trans (State.recallL1s_recalls _ d ln true)
          split
          · exact ((k _).trans (State.carry_recalls _ _ _ _ _)).trans (State.putL2_recalls _ _)
          · exact k _

theorem State.evictLine_recalls (s : State) (d ln : Nat) : Recalls s (s.evictLine d ln) :=
  ((s.recallL1s_recalls d ln true).trans (State.push_recalls _ _ _)).trans (State.loseLine_recalls _ _ _)

theorem State.recallAll_recalls (s : State) (ln : Nat) : Recalls s (s.recallAll ln) := by
  unfold State.recallAll
  dsimp only
  have h := s.loseAll_recalls ((s.holders ln).filter fun d => some d != s.owner? ln) ln
  split
  · exact h.trans (State.loseLine_recalls _ _ _)
  · exact h

/-! ### Room and grants -/

/-- What a recall or a push leaves of the L1s. -/
theorem Recalls.fewer (h : Recalls s t) : L1Fewer s t := h.2

/-- The next free choice is numbered. -/
theorem State.fresh_fewer (s : State) : L1Fewer s { s with fresh := s.fresh + 1 } := .of_l1 rfl

theorem State.merBack_fewer (s : State) (dirty : Bool) (ln : Nat) :
    L1Fewer s (if dirty then (s.fix .mer (128 * ln) 128).carry .mer .hbm ln wholeLine else s) := by
  cases dirty
  · exact .refl s
  · exact ((s.fix_recalls _ _ _).trans (State.carry_recalls _ _ _ _ _)).fewer

theorem State.merGone_fewer (s : State) (ln : Nat) (f : State → List MerLine) : L1Fewer s { s.forget .mer ln with mer := f s } :=
  (s.forget_recalls .mer ln).fewer.trans (.of_l1 rfl)

theorem State.merEvict_fewer (s : State) (ln : Nat) : L1Fewer s (s.merEvict ln) := by
  unfold State.merEvict
  refine (s.recallAll_recalls ln).fewer.trans ?_
  generalize s.recallAll ln = u
  dsimp only
  split
  · exact .refl _
  · rename_i e _
    generalize u.lost ++ _ = g
    have h : L1Fewer u { u with lost := g } := .of_l1 rfl
    exact (h.trans (State.merBack_fewer _ e.dirty ln)).trans (State.merGone_fewer _ ln fun s => s.mer.filter fun e => e.line != ln)

theorem State.addMer_fewer (s : State) (part : Option Nat) (ln way : Nat) (first : Bool) : L1Fewer s (s.addMer part ln way first) := by
  have h := ((s.fix_recalls .hbm (128 * ln) 128).trans (State.forget_recalls _ .mer ln)).fewer
  unfold State.addMer
  generalize (s.fix .hbm (128 * ln) 128).forget .mer ln = u at h ⊢
  exact h.trans (L1Fewer.trans (t := { u with mer := { line := ln, way := way, part := part, dirty := false, first := first } :: u.mer })
    (.of_l1 rfl) (State.carry_recalls _ _ _ _ _).fewer)

theorem State.homeUse_fewer (s : State) (part : Option Nat) (ln : Nat) (first : Bool) : L1Fewer s (s.homeUse part ln first) := by
  unfold State.homeUse
  split
  · exact .refl s
  · dsimp only
    split
    · exact s.addMer_fewer _ _ _ _
    · split
      · exact (s.fresh_fewer.trans (State.merEvict_fewer _ _)).trans (State.addMer_fewer _ _ _ _ _)
      · exact .refl s

theorem State.roomL2_fewer (s : State) (d ln : Nat) : L1Fewer s (s.roomL2 d ln) := by
  unfold State.roomL2
  dsimp only
  split
  · exact .refl s
  · split
    · exact s.fresh_fewer.trans (State.evictLine_recalls _ _ _).fewer
    · exact .refl s

theorem State.spareL1_fewer (s : State) (core : Nat) (ls : List L1Line) : L1Fewer s (s.spareL1 core ls) := by
  unfold State.spareL1
  split
  · exact s.fresh_fewer.trans ((State.writeBackL1_recalls _ _ _).trans (State.dropL1_recalls _ _ _)).fewer
  · exact .refl s

theorem State.roomHint_fewer (s : State) (core ln : Nat) (hint : BitVec 2) : L1Fewer s (s.roomHint core ln hint) := by
  unfold State.roomHint State.roomL1
  split
  · exact .refl s
  · split
    · exact .refl s
    · dsimp only
      split
      · exact s.spareL1_fewer _ _
      · split
        · exact s.spareL1_fewer _ _
        · exact .refl s

theorem State.makeRoom_fewer (s : State) (d ln : Nat) : L1Fewer s (s.makeRoom d ln) := (s.roomL2_fewer d ln).trans (State.homeUse_fewer _ _ _ _)

theorem State.supply_recalls (s : State) (d ln : Nat) : Recalls s (s.supply d ln) := by
  refine Recalls.foldl (fun s e => ?_) _ s
  split
  · exact .refl s
  · split
    · split
      · have h := (s.recallL1s_recalls e ln false).trans (State.push_recalls _ e ln)
        dsimp only
        split
        · exact h.trans (State.putL2_recalls _ _)
        · exact h
      · split
        · exact s.recallL1s_recalls _ _ _
        · split
          · have h := (s.recallL1s_recalls e ln false).trans (State.mergeMarks_recalls _ e ln)
            dsimp only
            split
            · exact h.trans (State.putL2_recalls _ _)
            · exact h
          · exact .refl s
    · exact .refl s

theorem State.takeLine_recalls (s : State) (d ln : Nat) (st : Moes) : Recalls s (s.takeLine d ln st) := by
  unfold State.takeLine
  dsimp only
  refine Recalls.trans ?_ ((State.dropLags_recalls _ _ _).trans (State.putL2_recalls _ _))
  split
  · exact .refl s
  · exact ((s.fix_recalls _ _ _).trans (State.forget_recalls _ _ _)).trans (State.carry_recalls _ _ _ _ _)

/-- A grant brings no line into an L1 (R250). -/
theorem State.grant_fewer (s : State) (d ln : Nat) (w : Want) : L1Fewer s (s.grant d ln w) := by
  unfold State.grant
  split
  · split
    · split
      · exact .refl s
      · split
        · dsimp only
          split
          · exact ((s.push_recalls _ _).trans (State.putL2_recalls _ _)).fewer
          · exact (s.push_recalls _ _).fewer
        · exact ((((s.recallL1s_recalls _ _ _).trans (State.push_recalls _ _ _)).trans (State.loseAll_recalls _ _ _)).trans
            (State.takeLine_recalls _ _ _ _)).fewer
    · exact (s.makeRoom_fewer _ _).trans ((State.recallAll_recalls _ _).trans (State.takeLine_recalls _ _ _ _)).fewer
  · exact .refl s
  · exact (s.makeRoom_fewer _ _).trans ((State.supply_recalls _ _ _).trans (State.takeLine_recalls _ _ _ _)).fewer

end Sys2Proof.Machine
end

section
/-! SUPPORT. What a line's home and its copies hold after a write-back, a push, an eviction and Meridian's eviction (R248, R249, R252). -/
namespace Sys2Proof.Machine

variable {s : State} {die ln : Nat}

/-! ### Bytes written at the home -/

/-- Some bytes of a line set in memory, byte after byte. -/
def setBytes (ln : Nat) (d : Line) (m : LineMask) (js : List Nat) (a : Mem) : Mem :=
  js.foldl (fun a j => if m.getLsbD j then cset a (128 * ln + j) (d.byte j) else a) a

/-- Bytes set in memory leave what is at another address. -/
theorem cget_setBytes_other (d : Line) (m : LineMask) {a : Mem} (ha : a.wf = true) {b : Nat} (js : List Nat) (h : ∀ j ∈ js, b ≠ 128 * ln + j) :
    cget (setBytes ln d m js a) b = cget a b ∧ Mem.wf (setBytes ln d m js a) = true := by
  induction js generalizing a with
  | nil => exact ⟨rfl, ha⟩
  | cons j js ih =>
    rw [setBytes, List.foldl_cons]
    have hrest := fun k hk => h k (List.mem_cons_of_mem _ hk)
    split
    · obtain ⟨hget, hwf⟩ := ih (Mem.wf_cset ha (128 * ln + j) (d.byte j)) hrest
      exact ⟨hget.trans (cget_cset_ne _ ha (h j (by simp))), hwf⟩
    · exact ih ha hrest

/-- A byte set in memory is what is there, whatever is set after it. -/
theorem cget_setBytes_mem (d : Line) (m : LineMask) {a : Mem} (ha : a.wf = true) {j : Nat} {js : List Nat} (hn : js.Nodup) (hj : j ∈ js) :
    cget (setBytes ln d m js a) (128 * ln + j) = if m.getLsbD j then d.byte j else cget a (128 * ln + j) := by
  induction js generalizing a with
  | nil => cases hj
  | cons i js ih =>
    obtain ⟨hi, hn⟩ := List.nodup_cons.1 hn
    rw [setBytes, List.foldl_cons]
    change cget (setBytes ln d m js (if m.getLsbD i then cset a (128 * ln + i) (d.byte i) else a)) _ = _
    have hwf : Mem.wf (if m.getLsbD i then cset a (128 * ln + i) (d.byte i) else a) = true := by
      split
      · exact Mem.wf_cset ha _ _
      · exact ha
    by_cases hji : j = i
    · obtain rfl := hji
      rw [(cget_setBytes_other d m hwf js fun k hk he => hi ((Nat.add_left_cancel he : j = k) ▸ hk)).1]
      split
      · exact cget_cset_same _ _ ha
      · rfl
    · rw [ih hwf hn ((List.mem_cons.1 hj).resolve_left hji)]
      split
      · rfl
      · split
        · exact cget_cset_ne _ ha (by omega)
        · rfl

/-- Memory after bytes of a line are written at its home. -/
theorem State.homeWrite_mem (s : State) (ln : Nat) (d : Line) (m : LineMask) :
    (s.homeWrite ln d m).mem = setBytes ln d m (List.range 128) s.mem := by
  unfold State.homeWrite setBytes
  rfl

/-- A byte of a line after a write at its home. -/
theorem State.homeWrite_byte (hw : s.mem.wf = true) (d : Line) (m : LineMask) {j : Nat} (hj : j < 128) :
    cget (s.homeWrite ln d m).mem (128 * ln + j) = if m.getLsbD j then d.byte j else cget s.mem (128 * ln + j) := by
  rw [State.homeWrite_mem]
  exact cget_setBytes_mem d m hw List.nodup_range (List.mem_range.2 hj)

/-- A write at a line's home leaves the other lines. -/
theorem State.homeWrite_other (hw : s.mem.wf = true) (d : Line) (m : LineMask) {a : Nat} (ha : a / 128 ≠ ln) :
    cget (s.homeWrite ln d m).mem a = cget s.mem a := by
  rw [State.homeWrite_mem]
  exact (cget_setBytes_other d m hw _ fun j hj => by have := List.mem_range.1 hj; omega).1

/-- Bytes sent home are a write at the home, but for errors, poison and what engines have seen. -/
theorem State.sendHome_eq (s : State) (x : L2Line) (m : LineMask) :
    ∃ (t : State) (g : List Seen), s.sendHome x m = { t with seen := g } ∧ t.bare = (s.homeWrite x.line x.data m).bare := by
  have hhome : ((s.fix (.l2 x.die) (128 * x.line) 128).homeWrite x.line x.data m).bare = (s.homeWrite x.line x.data m).bare :=
    State.same_of_bare (s.fix_bare _ _ _) (fun t => (t.homeWrite x.line x.data m).bare) fun _ => rfl
  obtain ⟨g, hg⟩ := State.unsee_eq (((s.fix (.l2 x.die) (128 * x.line) 128).homeWrite x.line x.data m).carry (.l2 x.die) (s.homeAt x.line) x.line m)
    x.die x.line
  exact ⟨_, g, hg, (State.carry_bare _ _ _ _ _).trans hhome⟩

/-- Memory after a die's bytes are sent home. -/
theorem State.sendHome_mem (s : State) (x : L2Line) (m : LineMask) : (s.sendHome x m).mem = (s.homeWrite x.line x.data m).mem := by
  obtain ⟨t, g, hsend, ht⟩ := s.sendHome_eq x m
  rw [hsend]
  exact State.same_of_bare ht State.mem fun _ => rfl

/-- The L2s after a die's bytes are sent home. -/
theorem State.sendHome_l2 (s : State) (x : L2Line) (m : LineMask) : (s.sendHome x m).l2 = s.l2 := by
  obtain ⟨t, g, hsend, ht⟩ := s.sendHome_eq x m
  rw [hsend]
  exact State.same_of_bare ht State.l2 fun _ => rfl

/-- The L1s after a die's bytes are sent home. -/
theorem State.sendHome_l1 (s : State) (x : L2Line) (m : LineMask) : (s.sendHome x m).l1 = s.l1 := by
  obtain ⟨t, g, hsend, ht⟩ := s.sendHome_eq x m
  rw [hsend]
  exact State.same_of_bare ht State.l1 fun _ => rfl

/-- A byte of a line after a die's bytes are sent home. -/
theorem State.sendHome_byte (hw : s.mem.wf = true) (x : L2Line) (m : LineMask) (hl : x.line = ln) {j : Nat} (hj : j < 128) :
    cget (s.sendHome x m).mem (128 * ln + j) = if m.getLsbD j then x.data.byte j else cget s.mem (128 * ln + j) := by
  rw [State.sendHome_mem, hl, State.homeWrite_byte hw _ _ hj]

/-- Bytes sent home leave the other lines. -/
theorem State.sendHome_other (hw : s.mem.wf = true) (x : L2Line) (m : LineMask) {a : Nat} (ha : a / 128 ≠ x.line) :
    cget (s.sendHome x m).mem a = cget s.mem a := by
  rw [State.sendHome_mem, State.homeWrite_other hw _ _ ha]

/-! ### Write-backs of an L1 -/

/-- A write-back of an L1's line in its two cases: nothing dirty, or the dirty bytes marked in the die's L2. -/
theorem State.writeBackL1_cases (s : State) (c ln : Nat) :
    (s.writeBackL1 c ln = s ∧ ∀ x, s.l1? c ln = some x → x.dirty = 0) ∨
    ∃ (x : L1Line) (y : L2Line) (u : State), s.l1? c ln = some x ∧ u.bare = s.bare ∧ y.die = dieOf c ∧ y.line = ln ∧
      s.writeBackL1 c ln = (u.putL1 { x with dirty := 0 }).putL2
        { y with data := y.data.merge x.data x.dirty, marked := y.marked ||| x.dirty } := by
  unfold State.writeBackL1
  split
  · rename_i hx
    exact .inl ⟨rfl, fun x h => by rw [hx] at h; cases h⟩
  · rename_i x hx
    split
    · rename_i hd
      refine .inl ⟨rfl, fun z h => ?_⟩
      rw [hx] at h
      cases h
      simpa using hd
    · refine .inr ⟨x, _, _, hx, (State.carry_bare _ _ _ _ _).trans (s.fix_bare _ _ _), ?_, ?_, rfl⟩
      · cases hy : s.l2? (dieOf c) ln with
        | none => rfl
        | some y => exact (State.l2?_keys hy).1
      · cases hy : s.l2? (dieOf c) ln with
        | none => rfl
        | some y => exact (State.l2?_keys hy).2

/-- A write-back leaves memory: the bytes are marked in the die's L2. -/
@[simp] theorem State.writeBackL1_mem (s : State) (c ln : Nat) : (s.writeBackL1 c ln).mem = s.mem := by
  obtain ⟨h, -⟩ | ⟨x, y, u, -, hu, -, -, h⟩ := s.writeBackL1_cases c ln <;> rw [h]
  exact State.same_of_bare hu State.mem fun _ => rfl

/-- A dirty L1 line's bytes after its write-back: in the die's L2, marked (R248, R251). -/
theorem State.writeBackL1_dirty {c : Nat} {x : L1Line} (hx : s.l1? c ln = some x) (hd : x.dirty ≠ 0) :
    ∃ y, (s.writeBackL1 c ln).l2? (dieOf c) ln = some y ∧
      ∀ j, j < 128 → x.dirty.getLsbD j = true → y.data.byte j = x.data.byte j ∧ y.marked.getLsbD j = true := by
  obtain ⟨-, h⟩ | ⟨z, y, u, hz, -, hyd, hyl, h⟩ := s.writeBackL1_cases c ln
  · exact absurd (h x hx) hd
  · obtain rfl : z = x := by rw [hx] at hz; exact (Option.some.inj hz).symm
    refine ⟨_, by rw [h]; exact State.putL2_l2?_same _ hyd hyl, fun j hj hm => ⟨?_, ?_⟩⟩
    · rw [Line.byte_merge _ _ _ hj, if_pos hm]
    · rw [BitVec.getLsbD_or, hm, Bool.or_true]

/-! ### A line that only one die's L2 holds -/

/-- No other die than `die` holds a line. -/
def State.onlyIn (s : State) (die ln : Nat) : Prop := ∀ y ∈ s.l2, y.line = ln → y.die = die

/-- No L1 of a die holds a line. -/
def State.noL1 (s : State) (die ln : Nat) : Prop := ∀ y ∈ s.l1, y.line = ln → dieOf y.core ≠ die

theorem State.onlyIn.putL2 {x : L2Line} (h : s.onlyIn die ln) (hx : x.die = die) : (s.putL2 x).onlyIn die ln := by
  intro y hy hl
  rcases List.mem_cons.1 hy with rfl | hy
  · exact hx
  · exact h y (List.mem_of_mem_filter hy) hl

/-- The owner of a line that one die holds is that die. -/
theorem State.onlyIn.owner {o : Nat} (h : s.onlyIn die ln) (ho : s.owner? ln = some o) : o = die := by
  obtain ⟨y, hy, rfl⟩ := Option.map_eq_some_iff.1 ho
  have hp := List.find?_some hy
  simp only [Bool.and_eq_true, beq_iff_eq] at hp
  exact h y (List.mem_of_find?_eq_some hy) hp.1

/-- The other dies do not hold a line that one die holds. -/
theorem State.onlyIn.others (h : s.onlyIn die ln) (o : Option Nat) : ((s.holders ln).filter fun d => d != die && some d != o) = [] := by
  refine List.filter_eq_nil_iff.2 fun d hd hne => ?_
  obtain ⟨y, hy⟩ := Option.isSome_iff_exists.1 (List.mem_filter.1 hd).2
  obtain ⟨hyd, hyl⟩ := State.l2?_keys hy
  have := h y (List.mem_of_find?_eq_some hy) hyl
  simp_all

/-- The owner after the copy of the one die that holds a line is put in its place: that die, if it holds the line M or O. -/
theorem State.onlyIn.putL2_owner {x : L2Line} (h : s.onlyIn die ln) (hd : x.die = die) (hl : x.line = ln) :
    (s.putL2 x).owner? ln = if x.st = .m ∨ x.st = .o then some die else none := by
  have hrest : ((s.l2.filter fun y => !(y.die == x.die && y.line == x.line)).find? fun y => y.line == ln && (y.st == .m || y.st == .o)) = none := by
    refine List.find?_eq_none.2 fun y hy hp => ?_
    obtain ⟨hy, hne⟩ := List.mem_filter.1 hy
    simp only [Bool.and_eq_true, beq_iff_eq] at hp
    simp [hd, hl, hp.1, h y hy hp.1] at hne
  rw [State.owner?, State.putL2, List.find?_cons, hrest, hl]
  by_cases hst : x.st = .m ∨ x.st = .o
  · have hown : (x.st == .m || x.st == .o) = true := by simpa using hst
    simp [hst, hown, hd]
  · have hown : (x.st == .m || x.st == .o) = false := by simpa using hst
    simp [hst, hown]

/-- No copy is recalled where no L1 of the die holds the line. -/
theorem State.noL1.recall (h : s.noL1 die ln) (drop : Bool) : s.recallL1s die ln drop = s := by
  have hnone : s.l1Cores die ln = [] := by
    refine List.map_eq_nil_iff.2 (List.filter_eq_nil_iff.2 fun y hy hp => ?_)
    simp only [Bool.and_eq_true, beq_iff_eq] at hp
    exact h y hy hp.2 hp.1
  rw [State.recallL1s, hnone]
  rfl

/-- A copy with nothing marked has nothing to merge. -/
theorem State.mergeMarks_clear {x : L2Line} (hx : s.l2? die ln = some x) (hm : x.marked = 0) : s.mergeMarks die ln = s := by
  simp [State.mergeMarks, hx, hm]

/-- The owner's own marks are cleared and nothing else. -/
theorem State.onlyIn.merge_owned {x : L2Line} (h : s.onlyIn die ln) (hx : s.l2? die ln = some x) (hm : x.marked ≠ 0)
    (hst : x.st = .m ∨ x.st = .o) : s.mergeMarks die ln = s.putL2 { x with marked := 0 } := by
  obtain ⟨hd, hl⟩ := State.l2?_keys hx
  have ho := h.putL2_owner (x := { x with marked := 0 }) hd hl
  rw [if_pos hst] at ho
  unfold State.mergeMarks
  rw [hx]
  dsimp only
  rw [if_neg (by simpa using hm), ho]
  simp

/-- The marks of the one die that holds a line, not its owner, go home. -/
theorem State.onlyIn.merge_shared {x : L2Line} (h : s.onlyIn die ln) (hx : s.l2? die ln = some x) (hm : x.marked ≠ 0)
    (hst : ¬ (x.st = .m ∨ x.st = .o)) : s.mergeMarks die ln = (s.putL2 { x with marked := 0 }).sendHome x x.marked := by
  obtain ⟨hd, hl⟩ := State.l2?_keys hx
  have ho := h.putL2_owner (x := { x with marked := 0 }) hd hl
  rw [if_neg hst] at ho
  unfold State.mergeMarks
  rw [hx]
  dsimp only
  rw [if_neg (by simpa using hm), ho]

/-- What merging the marks of the one die that holds a line leaves: its copy with nothing marked, no other copy, and at the home the marked
bytes, unless the die owns the line (R252). -/
structure Merged (s t : State) (die ln : Nat) (x : L2Line) : Prop where
  copy : t.l2? die ln = some { x with marked := 0 }
  only : t.onlyIn die ln
  l1 : t.l1 = s.l1
  wf : t.mem.wf = true
  home : ∀ j, j < 128 → x.st ≠ .m → x.st ≠ .o → x.marked.getLsbD j = true → cget t.mem (128 * ln + j) = x.data.byte j
  else' : ∀ a, a / 128 ≠ ln → cget t.mem a = cget s.mem a

theorem State.onlyIn.merged {x : L2Line} (h : s.onlyIn die ln) (hx : s.l2? die ln = some x) (hw : s.mem.wf = true) :
    Merged s (s.mergeMarks die ln) die ln x := by
  obtain ⟨hd, hl⟩ := State.l2?_keys hx
  by_cases hm : x.marked = 0
  · rw [State.mergeMarks_clear hx hm]
    refine ⟨by rw [hx, ← hm], h, rfl, hw, fun j _ _ _ hj => ?_, fun _ _ => rfl⟩
    simp [hm] at hj
  · by_cases hst : x.st = .m ∨ x.st = .o
    · rw [h.merge_owned hx hm hst]
      exact ⟨s.putL2_l2?_same hd hl, h.putL2 hd, rfl, hw, fun j _ hnm hno _ => absurd hst (not_or.2 ⟨hnm, hno⟩), fun _ _ => rfl⟩
    · rw [h.merge_shared hx hm hst]
      have hw' : (s.putL2 { x with marked := 0 }).mem.wf = true := hw
      have hl2 := (s.putL2 { x with marked := 0 }).sendHome_l2 x x.marked
      refine ⟨?_, ?_, State.sendHome_l1 _ _ _, (State.sendHome_step _ _ _).2 hw, fun j hj _ _ hmj => ?_, fun a ha => ?_⟩
      · rw [State.l2?, hl2]
        exact s.putL2_l2?_same hd hl
      · rw [State.onlyIn, hl2]
        exact h.putL2 hd
      · rw [State.sendHome_byte hw' _ _ hl hj, if_pos hmj]
      · exact State.sendHome_other hw' _ _ (hl ▸ ha)

/-- A push by the one die that holds a line merges its marks and no more. -/
theorem State.onlyIn.push {x : L2Line} (h : s.onlyIn die ln) (hx : s.l2? die ln = some x) (hw : s.mem.wf = true) :
    s.push die ln = s.mergeMarks die ln := by
  have hall := h.merged hx hw
  unfold State.push
  rw [hx]
  dsimp only
  split
  · rename_i hm
    rw [State.mergeMarks_clear hx (by simpa using hm)]
  · split
    · rfl
    · rw [hall.only.others]
      rfl

/-- A die whose L1s do not hold a line loses it: an owner's bytes go home, another's marks are merged. -/
theorem State.noL1.loseLine {x : L2Line} (hn : s.noL1 die ln) (hx : s.l2? die ln = some x) :
    s.loseLine die ln = if x.st = .m ∨ x.st = .o then (s.sendHome x wholeLine).dropL2 die ln else (s.mergeMarks die ln).dropL2 die ln := by
  unfold State.loseLine
  simp only [hn.recall, hx, Bool.or_eq_true, beq_iff_eq]

/-- An L2's eviction of a line that only it holds: all bytes of an owner, and the marked ones of another, are at the home (R249, R252). -/
theorem State.onlyIn.evicted {x : L2Line} (h : s.onlyIn die ln) (hx : s.l2? die ln = some x) (hw : s.mem.wf = true) (hn : s.noL1 die ln) :
    (s.evictLine die ln).l2? die ln = none ∧
    (∀ j, j < 128 → (x.st = .m ∨ x.st = .o ∨ x.marked.getLsbD j = true) → cget (s.evictLine die ln).mem (128 * ln + j) = x.data.byte j) ∧
    ∀ a, a / 128 ≠ ln → cget (s.evictLine die ln).mem a = cget s.mem a := by
  have hmerged := h.merged hx hw
  have hl := (State.l2?_keys hx).2
  have hn' : (s.mergeMarks die ln).noL1 die ln := by rw [State.noL1, hmerged.l1]; exact hn
  rw [State.evictLine, hn.recall, h.push hx hw, hn'.loseLine hmerged.copy]
  by_cases hst : x.st = .m ∨ x.st = .o
  · rw [if_pos hst]
    refine ⟨State.dropL2_l2?_same _ _ _, fun j hj _ => ?_, fun a ha => ?_⟩
    · rw [State.dropL2_mem, State.sendHome_byte hmerged.wf { x with marked := 0 } wholeLine hl hj, if_pos (wholeLine_getLsbD hj)]
    · rw [State.dropL2_mem, State.sendHome_other hmerged.wf _ _ (by rw [hl]; exact ha), hmerged.else' a ha]
  · rw [if_neg hst, State.mergeMarks_clear hmerged.copy rfl]
    refine ⟨State.dropL2_l2?_same _ _ _, fun j hj hany => ?_, fun a ha => ?_⟩
    · rw [State.dropL2_mem]
      rw [not_or] at hst
      refine hmerged.home j hj hst.1 hst.2 ?_
      simpa [hst.1, hst.2] using hany
    · rw [State.dropL2_mem, hmerged.else' a ha]

/-! ### Meridian's eviction -/

/-- Meridian's eviction of a line, which every die has lost (R249); a mark with no owner known is a loss of the partitions that hold the
line (R363). -/
theorem State.merEvict_evicts (s : State) (ln : Nat) :
    (s.merEvict ln).inMer ln = false ∧ (s.merEvict ln).mem = (s.recallAll ln).mem ∧
    ∀ e k, s.owner? ln = none → ((s.recallAll ln).mer.find? fun e => e.line == ln) = some e →
      ((s.recallAll ln).marksAt .mer (128 * ln) 128).head? = some k →
      (s.merEvict ln).lost = s.lost ++ (s.partsWith ln).map fun p => (p, 16 * k.gran, k.code) := by
  have hlost := (s.recallAll_recalls ln).1
  unfold State.merEvict
  generalize s.recallAll ln = u at hlost ⊢
  dsimp only
  split
  · rename_i hnone
    refine ⟨?_, rfl, fun e k _ he _ => by rw [hnone] at he; cases he⟩
    rw [List.find?_eq_none] at hnone
    exact List.any_eq_false.2 hnone
  · rename_i e he
    generalize hgone : u.lost ++ _ = gone
    have hbare (d : Bool) (t : State) : (if d = true then (t.fix .mer (128 * ln) 128).carry .mer .hbm ln wholeLine else t).bare = t.bare := by
      cases d
      · rfl
      · exact (State.carry_bare _ _ _ _ _).trans (t.fix_bare _ _ _)
    have hall := (State.forget_bare _ .mer ln).trans (hbare e.dirty { u with lost := gone })
    refine ⟨?_, State.same_of_bare hall State.mem fun _ => rfl, fun _ k ho _ hk => ?_⟩
    · simp [State.inMer]
    · refine (State.same_of_bare hall State.lost fun _ => rfl).trans ?_
      have hbad : (u.marksAt .mer (128 * ln) 128).take 1 = [k] := by
        rw [List.take_one, hk]
        rfl
      rw [← hgone, ho, hbad, hlost, List.map_eq_flatMap]
      rfl

end Sys2Proof.Machine
end

section
/-! What moves by itself: entries, replies, evictions and pushes (O45). -/
namespace Sys2Proof.Machine

variable {s : State}

/-- A line may be chosen exactly where no line of its set goes before it. -/
theorem State.mayChoose_iff {c line : Nat} {x : L1Line} (hx : s.l1? c line = some x) :
    s.mayChoose c line = true ↔ ∀ y ∈ s.l1, y.core = c → y.line % 128 = line % 128 → s.spareRank x ≤ s.spareRank y := by
  simp only [State.mayChoose, hx, Option.map_some, Option.getD_some, List.all_eq_true, List.mem_filter, Bool.and_eq_true, beq_iff_eq,
    decide_eq_true_eq, and_imp]

/-- An L1's eviction of a line it may choose. -/
theorem exec_lineEviction_l1 (die : Nat) {c line : Nat} (hc : c < 256) (h : s.mayChoose c line = true) :
    exec (.lineEviction die (some c) line) s = .next ((s.writeBackL1 c line).dropL1 c line) := by
  simp [exec_lineEviction, execLineEviction, hc, h]

/-- A neighbour entry that is first on its way joins its queue. -/
theorem exec_neighbourEntryArrive_first {f : Flight} {t : Team} (hf : (s.flights.find? fun g => g.id == f.id) = some f)
    (hfirst : (s.flights.find? fun g => g.dest == f.dest && g.prev == f.prev) = some f) (ht : s.team? f.dest = some t) :
    exec (.neighbourEntryArrive f.id) s = .next (({ s with flights := s.flights.filter fun g => g.id != f.id } : State).setCore t.core
      fun c => c.setQueue f.prev fun q => q ++ [f.entry]) := by
  have ht' : ({ s with flights := s.flights.filter fun g => g.id != f.id } : State).team? f.dest = some t := ht
  rw [exec_neighbourEntryArrive, execNeighbourEntryArrive, hf]
  dsimp only
  rw [hfirst, if_neg (by simp), ht']

/-- Settles O45: the arrivals are the model's own steps; an L1's dirty bytes by their write-back, an L2's bytes by the push of the one die that
holds the line, Meridian's by the recall from every die. -/
theorem arrivalsComplete : Obligations.ArrivalsComplete := by
  unfold Obligations.ArrivalsComplete
  intro s
  refine ⟨fun f t hf hfirst ht => exec_neighbourEntryArrive_first hf hfirst ht, fun p hp => ?_, fun c line x hx => ⟨State.mayChoose_iff hx, ?_⟩,
    fun c die line hc hno => ?_, fun c die line hc hmay => ⟨_, exec_lineEviction_l1 die hc hmay, ?_, ?_, fun x hx hd => ?_⟩,
    fun die line x hdie hx honly hl1 hwf => ⟨⟨s.evictLine die line, ?_, State.onlyIn.evicted honly hx hwf hl1⟩, ?_⟩,
    fun line => ⟨s.merEvict line, rfl, s.merEvict_evicts line⟩, fun die line => rfl⟩
  · rw [exec_atomicReply, execAtomicReply, hp]
    rfl
  · simp [State.spareRank]
  · simp [exec_lineEviction, execLineEviction, hno]
  · exact State.dropL1_l1?_same _ _ _
  · rw [State.dropL1_mem, State.writeBackL1_mem]
  · obtain ⟨y, hy, hbytes⟩ := State.writeBackL1_dirty hx hd
    exact ⟨y, by rwa [State.l2?, State.dropL1_l2], hbytes⟩
  · simp [exec_lineEviction, execLineEviction, hdie]
  · have hmerged := State.onlyIn.merged honly hx hwf
    exact ⟨_, { x with marked := 0 }, by rw [exec_pushApply, execPushApply, State.onlyIn.push honly hx hwf], hmerged.copy, rfl, rfl, hmerged.home⟩

end Sys2Proof.Machine
end

section
/-! SUPPORT. A core's stores and loads of a line, in its L1 (R116, R248). -/
namespace Sys2Proof.Machine

variable {s : State} {die ln core : Nat}

/-! ### A store to a line -/

/-- The machine with a line granted to a core's die, room made for it in the L1, and no other L1 of the die holding it. -/
def State.storeReady (s : State) (core ln : Nat) (sc : Scope) (hint : BitVec 2) : State :=
  let t := (s.grant (dieOf core) ln (if sc.devUp then .storeDev else .shared)).roomHint core ln hint
  ((t.l1Cores (dieOf core) ln).filter (· != core)).foldl (fun s c => (s.writeBackL1 c ln).dropL1 c ln) t

/-- A line's bytes in the die's L2, else at its home. -/
def State.baseLine (s : State) (die ln : Nat) : Line := ((s.l2? die ln).map (·.data)).getD (s.homeLine ln)

/-- A core's L1 copy, or one it takes in M for a store. -/
def State.ownLine (s : State) (who : WarpId) (core ln : Nat) (hint : BitVec 2) : L1Line :=
  (s.l1? core ln).getD { core := core, line := ln, st := .m, data := s.baseLine (dieOf core) ln, dirty := 0, user := who, hint := hint }

/-- A core's L1 copy of a line with some bytes stored. -/
def State.storedLine (s : State) (who : WarpId) (core ln : Nat) (hint : BitVec 2) (off : Nat) (bs : List W8) : L1Line :=
  let x := s.ownLine who core ln hint
  { x with st := .m, data := ((s.baseLine (dieOf core) ln).merge x.data x.dirty).write off bs
           dirty := x.dirty ||| spanMask off bs.length, user := who }

/-- A store to a line puts the stored copy into the core's L1; beyond that only errors and poison change. -/
theorem State.storeLine_eq (s : State) (who : WarpId) (core ln : Nat) (sc : Scope) (hint : BitVec 2) (off : Nat) (bs : List W8) :
    ∃ u : State, u.bare = (s.storeReady core ln sc hint).bare ∧
      s.storeLine who core ln sc hint off bs = u.putL1 ((s.storeReady core ln sc hint).storedLine who core ln hint off bs) :=
  ⟨_, (State.replaced_bare _ _ _ _).trans ((State.carry_bare _ _ _ _ _).trans (State.fix_bare _ _ _ _)), rfl⟩

theorem State.ownLine_keys (s : State) (who : WarpId) (core ln : Nat) (hint : BitVec 2) :
    (s.ownLine who core ln hint).core = core ∧ (s.ownLine who core ln hint).line = ln := by
  unfold State.ownLine
  cases hx : s.l1? core ln with
  | none => exact ⟨rfl, rfl⟩
  | some x => exact State.l1?_keys hx

theorem State.storedLine_keys (s : State) (who : WarpId) (core ln : Nat) (hint : BitVec 2) (off : Nat) (bs : List W8) :
    (s.storedLine who core ln hint off bs).core = core ∧ (s.storedLine who core ln hint off bs).line = ln := s.ownLine_keys who core ln hint

/-- The stored copy is found in the core's L1. -/
theorem State.storeLine_l1? (s : State) (who : WarpId) (core ln : Nat) (sc : Scope) (hint : BitVec 2) (off : Nat) (bs : List W8) :
    (s.storeLine who core ln sc hint off bs).l1? core ln = some ((s.storeReady core ln sc hint).storedLine who core ln hint off bs) := by
  obtain ⟨u, -, hu⟩ := s.storeLine_eq who core ln sc hint off bs
  obtain ⟨hc, hl⟩ := (s.storeReady core ln sc hint).storedLine_keys who core ln hint off bs
  rw [hu, State.putL1_l1?_same _ hc hl]

/-- Making ready for a store brings no line into an L1. -/
theorem State.storeReady_fewer (s : State) (core ln : Nat) (sc : Scope) (hint : BitVec 2) : L1Fewer s (s.storeReady core ln sc hint) :=
  ((s.grant_fewer _ _ _).trans (State.roomHint_fewer _ _ _ _)).trans
    (L1Fewer.foldl (fun s c => ((s.writeBackL1_recalls c ln).trans (State.dropL1_recalls _ _ _)).fewer) _ _)

/-- A line that a store brings in keeps the store's hint (R116). -/
theorem State.storedLine_hint (who : WarpId) (sc : Scope) (hint : BitVec 2) (off : Nat) (bs : List W8) (h : s.l1? core ln = none) :
    ((s.storeReady core ln sc hint).storedLine who core ln hint off bs).hint = hint := by
  change ((s.storeReady core ln sc hint).ownLine who core ln hint).hint = hint
  rw [State.ownLine, s.storeReady_fewer core ln sc hint core ln h]
  rfl

/-- The stored bytes, read in the stored copy. -/
theorem State.storedLine_bytes (s : State) (who : WarpId) (core ln : Nat) (hint : BitVec 2) {off : Nat} {bs : List W8}
    (h : off + bs.length ≤ 128) : (s.storedLine who core ln hint off bs).data.bytes off bs.length = bs := Line.bytes_write _ h

/-- A stored byte, in the stored copy. -/
theorem State.storedLine_byte (s : State) (who : WarpId) (core ln : Nat) (hint : BitVec 2) {off : Nat} {bs : List W8}
    (h : off + bs.length ≤ 128) {j : Nat} (hj : j < bs.length) :
    (s.storedLine who core ln hint off bs).data.byte (off + j) = bs.getD j 0 ∧
    (s.storedLine who core ln hint off bs).dirty.getLsbD (off + j) = true := by
  constructor
  · refine (Line.byte_write _ off bs (by omega)).trans ?_
    rw [if_pos ⟨by omega, by omega⟩, Nat.add_sub_cancel_left]
  · change (_ ||| spanMask off bs.length).getLsbD (off + j) = true
    rw [BitVec.getLsbD_or, spanMask_getLsbD _ _ (by omega)]
    simp [hj]

/-! ### A store to a line that the core's L1 and its die's L2 hold -/

/-- Nothing is to be made ready for a store within the die to a line held in both caches, by no other core of the die. -/
theorem State.storeReady_held {sc : Scope} {c : L1Line} {y : L2Line} (hint : BitVec 2) (hsc : sc.devUp = false)
    (hc : s.l1? core ln = some c) (hy : s.l2? (dieOf core) ln = some y)
    (hself : ∀ z ∈ s.l1, z.line = ln → dieOf z.core = dieOf core → z.core = core) : s.storeReady core ln sc hint = s := by
  have hroom : s.roomHint core ln hint = s := by
    rw [State.roomHint, State.roomL1, hc]
    simp
  have hcores : (s.l1Cores (dieOf core) ln).filter (· != core) = [] := by
    refine List.filter_eq_nil_iff.2 fun k hk hne => ?_
    obtain ⟨z, hz, rfl⟩ := List.mem_map.1 hk
    obtain ⟨hz, hkeys⟩ := List.mem_filter.1 hz
    simp only [Bool.and_eq_true, beq_iff_eq] at hkeys
    simp [hself z hz hkeys.2 hkeys.1] at hne
  have hgrant : s.grant (dieOf core) ln .shared = s := by
    simp [State.grant, hy]
  rw [State.storeReady, hsc, if_neg (by decide), hgrant, hroom, hcores]
  rfl

/-- A byte of the stored copy of a line held in both caches: a stored one, else a dirty one of the L1, else the L2's. -/
theorem State.storedLine_held {c : L1Line} {y : L2Line} (who : WarpId) (hint : BitVec 2) (off : Nat) (bs : List W8)
    (hc : s.l1? core ln = some c) (hy : s.l2? (dieOf core) ln = some y) {j : Nat} (hj : j < 128) :
    (s.storedLine who core ln hint off bs).dirty.getLsbD j = (c.dirty.getLsbD j || (decide (off ≤ j) && decide (j < off + bs.length))) ∧
    (s.storedLine who core ln hint off bs).data.byte j = if off ≤ j ∧ j < off + bs.length then bs.getD (j - off) 0
      else if c.dirty.getLsbD j then c.data.byte j else y.data.byte j := by
  have hown : s.ownLine who core ln hint = c := by rw [State.ownLine, hc]; rfl
  have hbase : s.baseLine (dieOf core) ln = y.data := by rw [State.baseLine, hy]; rfl
  constructor
  · change ((s.ownLine who core ln hint).dirty ||| _).getLsbD j = _
    rw [hown, BitVec.getLsbD_or, spanMask_getLsbD _ _ hj]
  · change (((s.baseLine (dieOf core) ln).merge (s.ownLine who core ln hint).data (s.ownLine who core ln hint).dirty).write off bs).byte j = _
    rw [hown, hbase, Line.byte_write _ _ _ hj, Line.byte_merge _ _ _ hj]

/-! ### Loads -/

/-- A load of a line that the core's L1 holds answers the copy's bytes. -/
theorem State.loadLine_hit {x : L1Line} (who : WarpId) (sc : Scope) (hint : BitVec 2) (h : s.l1? core ln = some x) :
    (s.loadLine who core ln sc hint).2 = x.data := by
  rw [State.loadLine, h]

/-- A load of a line that the core's L1 does not hold brings it in under the load's hint (R116). -/
theorem State.loadLine_miss (who : WarpId) (sc : Scope) (hint : BitVec 2) (h : s.l1? core ln = none) :
    ∃ d, (s.loadLine who core ln sc hint).1.l1? core ln = some d ∧ d.hint = hint := by
  unfold State.loadLine
  rw [h]
  dsimp only
  split
  · exact ⟨_, State.putL1_l1?_same _ rfl rfl, rfl⟩
  · exact ⟨_, State.putL1_l1?_same _ rfl rfl, rfl⟩

end Sys2Proof.Machine
end

section
/-! SUPPORT. Accesses at a line's home, and where an atomic reads and writes (R251, R255, R256). -/
namespace Sys2Proof.Machine

variable {s : State} {pa n : Nat}

/-! ### The home -/

/-- The lines of some bytes that lie within one. -/
theorem mem_linesOf {ln : Nat} (h : pa % 128 + n ≤ 128) (hln : ln ∈ linesOf pa n) : ln = pa / 128 := by
  obtain ⟨j, -, hj⟩ := List.mem_filterMap.1 hln
  split at hj
  · cases hj
    omega
  · cases hj

/-- No die loses a line that none holds. -/
theorem State.recallAll_of_none {ln : Nat} (h : ∀ y ∈ s.l2, y.line ≠ ln) : s.recallAll ln = s := by
  have howner : s.owner? ln = none := by
    refine Option.map_eq_none_iff.2 (List.find?_eq_none.2 fun y hy => ?_)
    simp [h y hy]
  have hholders : s.holders ln = [] := by
    refine List.filter_eq_nil_iff.2 fun d _ hd => ?_
    obtain ⟨y, hy⟩ := Option.isSome_iff_exists.1 hd
    exact h y (List.mem_of_find?_eq_some hy) (State.l2?_keys hy).2
  rw [State.recallAll, howner, hholders]
  rfl

/-- Nothing is to be brought home for bytes of one line that Meridian holds or that is not HBM's, and that no die holds. -/
theorem State.atHome_bare (part : Option Nat) (h : pa % 128 + n ≤ 128) (hm : s.inMer (pa / 128) = true ∨ isHbm pa = false)
    (hd : ∀ y ∈ s.l2, y.line ≠ pa / 128) : (s.atHome part pa n).bare = s.bare := by
  unfold State.atHome
  split
  · rename_i hhbm
    have hin : s.inMer (pa / 128) = true := hm.resolve_right (by simp [hhbm])
    refine List.foldlRecOn (motive := fun t : State => t.bare = s.bare) _ _ rfl fun t ht ln hln => ?_
    obtain rfl := mem_linesOf h hln
    have huse : t.homeUse part (pa / 128) false = t := by
      rw [State.homeUse, State.same_of_bare ht (fun u => u.inMer (pa / 128)) fun _ => rfl, hin]
      rfl
    rw [huse, State.recallAll_of_none (State.same_of_bare ht State.l2 (fun _ => rfl) ▸ hd)]
    exact (t.fix_bare _ _ _).trans ht
  · rfl

/-- A write at the home: memory holds the bytes, the caches of the dies stand. -/
theorem State.setHome_eq (s : State) (pa : Nat) (bs : List W8) : (s.setHome pa bs).mem = wrBytes s.mem pa bs ∧
    (s.setHome pa bs).l1 = s.l1 ∧ (s.setHome pa bs).l2 = s.l2 := by
  have hkept : ∀ ls : List Nat, let t := ls.foldl (fun s ln => (s.replaced (s.homeAt ln) pa bs.length).dirtyHome ln) s
      t.mem = s.mem ∧ t.l1 = s.l1 ∧ t.l2 = s.l2 := by
    intro ls
    refine foldl_keeps (fun t : State => t.mem = s.mem ∧ t.l1 = s.l1 ∧ t.l2 = s.l2) _ (fun t ln ht => ?_) ls s ⟨rfl, rfl, rfl⟩
    have hbare := t.replaced_bare (t.homeAt ln) pa bs.length
    obtain ⟨hm, h1, h2⟩ := ht
    exact ⟨(State.same_of_bare hbare State.mem fun _ => rfl).trans hm, (State.same_of_bare hbare State.l1 fun _ => rfl).trans h1,
      (State.same_of_bare hbare State.l2 fun _ => rfl).trans h2⟩
  obtain ⟨hm, h1, h2⟩ := hkept (linesOf pa bs.length)
  exact ⟨congrArg (wrBytes · pa bs) hm, h1, h2⟩

/-- Old values that can be read no more leave memory and the copies. -/
theorem State.dropLags_eq (s : State) (pa n : Nat) : ∃ g, s.dropLags pa n = { s with lags := g } := by
  unfold State.dropLags
  split
  · exact ⟨s.lags, rfl⟩
  · exact ⟨_, rfl⟩

/-! ### Atomics -/

/-- A die's copy of a line after an atomic in it: `new` are the bytes it writes, if any; they are marked, or else the line is M. -/
def L2Line.performed (c : L2Line) (mark : Bool) (off n : Nat) (new : Option (List W8)) : L2Line :=
  { c with data := match new with | some b => c.data.write off b | none => c.data
           st := if mark then c.st else .m
           marked := if mark then c.marked ||| spanMask off n else c.marked }

/-- An atomic within the die performs in the die's copy, with the L1s' bytes in it (R251, R256). -/
theorem State.atomicAt_die {core : Nat} {sc : Scope} {c : L2Line} (f : List W8 → Option (List W8)) (hpa : isHbm pa = true) (hsc : sc.devUp = false)
    (hc : ((s.grant (dieOf core) (pa / 128) .shared).recallL1s (dieOf core) (pa / 128) true).l2? (dieOf core) (pa / 128) = some c) :
    (s.atomicAt core false sc pa n f).2.1 = c.data.bytes (pa % 128) n ∧
    (s.atomicAt core false sc pa n f).1.l2? (dieOf core) (pa / 128) =
      some (c.performed true (pa % 128) n (f (c.data.bytes (pa % 128) n))) := by
  obtain ⟨hd, hl⟩ := State.l2?_keys hc
  have hfix := State.same_of_bare (State.fix_bare ((s.grant (dieOf core) (pa / 128) .shared).recallL1s (dieOf core) (pa / 128) true)
    (.l2 (dieOf core)) pa n) (fun t => t.l2? (dieOf core) (pa / 128)) fun _ => rfl
  simp only [State.atomicAt, hpa, hsc, Bool.not_true, Bool.not_false, Bool.or_false, if_false, if_true, hfix, hc, Bool.false_eq_true]
  exact ⟨trivial, State.putL2_l2?_same _ hd hl⟩

/-- An atomic of device scope on a line that its die holds E or M performs in the die's copy, pushed first (R251, R256). -/
theorem State.atomicAt_device {core : Nat} {sc : Scope} {x c : L2Line} (f : List W8 → Option (List W8)) (hpa : isHbm pa = true)
    (hsc : sc.devUp = true) (hx : s.l2? (dieOf core) (pa / 128) = some x) (hst : x.st = .e ∨ x.st = .m)
    (hc : (((s.recallL1s (dieOf core) (pa / 128) true).fix (.l2 (dieOf core)) pa n).push (dieOf core) (pa / 128)).l2? (dieOf core) (pa / 128) =
      some c) :
    (s.atomicAt core false sc pa n f).2.1 = c.data.bytes (pa % 128) n ∧
    (s.atomicAt core false sc pa n f).1.l2? (dieOf core) (pa / 128) =
      some (c.performed false (pa % 128) n (f (c.data.bytes (pa % 128) n))) := by
  obtain ⟨hd, hl⟩ := State.l2?_keys hc
  have hown : (x.st == .e || x.st == .m) = true := by simpa using hst
  simp only [State.atomicAt, hpa, hsc, Bool.not_true, Bool.or_false, if_false, if_true, hx, hown, hc, Bool.false_eq_true]
  exact ⟨trivial, State.putL2_l2?_same _ hd hl⟩

/-- A line's home after an atomic there: `new` are the bytes it writes, if any. -/
def State.performHome (s : State) (pa : Nat) (new : Option (List W8)) : State :=
  match new with
  | some b => s.setHome pa b
  | none => s

/-- An atomic on an uncached page, outside HBM, or of device scope on a line that its die does not hold alone performs at the home, once every
die has lost the line (R255, R256). -/
theorem State.atomicAt_far {core : Nat} {nc : Bool} {sc : Scope} (f : List W8 → Option (List W8))
    (h : nc = true ∨ isHbm pa = false ∨ (sc.devUp = true ∧ ∀ c, s.l2? (dieOf core) (pa / 128) = some c → c.st ≠ .e ∧ c.st ≠ .m)) :
    let u := s.atHome (s.partNo (dieOf core)) pa n
    s.atomicAt core nc sc pa n f = (u.performHome pa (f (rdBytes u.mem pa n)), rdBytes u.mem pa n, true) := by
  unfold State.atomicAt
  dsimp only
  split
  · rfl
  · rename_i hnc
    simp only [Bool.or_eq_true, Bool.not_eq_true', not_or, Bool.not_eq_true, Bool.not_eq_false] at hnc
    obtain ⟨hdev, hst⟩ : sc.devUp = true ∧ ∀ c, s.l2? (dieOf core) (pa / 128) = some c → c.st ≠ .e ∧ c.st ≠ .m := by
      simpa [hnc.1, hnc.2] using h
    rw [if_neg (by simp [hdev])]
    split
    · rename_i x hx
      rw [if_neg (by simpa using hst x hx)]
      rfl
    · rfl

end Sys2Proof.Machine
end

section
/-! A commit's stores and atomics (O41). -/
namespace Sys2Proof.Machine

variable {s : State}

/-! ### The scratchpad -/

/-- Bytes written are read back. -/
theorem rdBytes_wrBytes {m : Mem} (h : m.wf = true) (a : Nat) (bs : List W8) : rdBytes (wrBytes m a bs) a bs.length = bs := by
  refine List.ext_getElem (by simp [rdBytes]) fun j _ hj => ?_
  simp only [rdBytes, List.getElem_map, List.getElem_range]
  rw [cget_wrBytes_in h a bs j hj, List.getD_eq_getElem _ _ hj]

/-- A write that clears errors changes nothing else by that. -/
theorem State.clearErrs_eq (s : State) (gs : List Granule) : ∃ e, s.clearErrs gs = { s with errs := e } := by
  unfold State.clearErrs
  split
  · exact ⟨s.errs, rfl⟩
  · exact ⟨_, rfl⟩

/-- A team after a write to a team's scratchpad. -/
theorem State.spadWrite_team? (s : State) (v w : TeamId) (a : Nat) (bs : List W8) :
    (s.spadWrite v a bs).team? w = (s.team? w).map fun t => if w == v then { t with spad := wrBytes t.spad a bs } else t := by
  obtain ⟨e, he⟩ := s.clearErrs_eq (spadWhole v a bs.length)
  have hset := (s.clearErrs (spadWhole v a bs.length)).setTeam_team? v w (fun t => { t with spad := wrBytes t.spad a bs }) fun _ => rfl
  rw [State.spadWrite, hset, he]
  rfl

/-- Beyond teams and errors a write to a scratchpad changes nothing. -/
theorem State.spadWrite_frame (s : State) (v : TeamId) (a : Nat) (bs : List W8) :
    ({ s.spadWrite v a bs with teams := s.teams, errs := s.errs } : State) = s := by
  obtain ⟨e, he⟩ := s.clearErrs_eq (spadWhole v a bs.length)
  rw [State.spadWrite, he]
  rfl

/-- A store to the scratchpad: its bytes and no other. -/
theorem State.put_spad {x : Warp} {t : Team} (sc : Scope) (h : BitVec 2) (a : Nat) (bs : List W8) (ht : s.team? x.id.team = some t)
    (hw : cwf t.spad = true) :
    let u := s.put x sc h .spad a bs
    u.spadRead x.id.team a bs.length = bs ∧
    (∀ b, (b < a ∨ a + bs.length ≤ b) → u.spadRead x.id.team b 1 = s.spadRead x.id.team b 1) ∧
    (∀ v, v ≠ x.id.team → u.team? v = s.team? v) ∧ { u with teams := s.teams, errs := s.errs } = s := by
  have hu : (s.spadWrite x.id.team a bs).team? x.id.team = some { t with spad := wrBytes t.spad a bs } := by
    rw [State.spadWrite_team?, ht, Option.map_some, if_pos (beq_self_eq_true _)]
  refine ⟨?_, fun b hb => ?_, fun v hv => by simp [State.put, State.spadWrite_team?, hv], s.spadWrite_frame _ a bs⟩
  · rw [State.put, State.spadRead, hu]
    exact rdBytes_wrBytes hw a bs
  · rw [State.put, State.spadRead, State.spadRead, hu, ht]
    change [cget (wrBytes t.spad a bs) (b + 0)] = [cget t.spad (b + 0)]
    rw [Nat.add_zero, cget_wrBytes_other hw bs hb]

/-! ### Cached memory -/

/-- A store that leaves its line in the core's L1. -/
theorem State.put_mem_kept {x : Warp} {h : BitVec 2} {pa : Nat} (sc : Scope) (bs : List W8) (hp : s.passesL1 x.core (pa / 128) h = false) :
    s.put x sc h .mem pa bs = s.storeLine x.id x.core (pa / 128) sc h (pa % 128) bs := by
  simp [State.put, State.coreStore, hp]

/-- A store that passes the core's L1 is written back at once. -/
theorem State.put_mem_passed {x : Warp} {h : BitVec 2} {pa : Nat} (sc : Scope) (bs : List W8) (hp : s.passesL1 x.core (pa / 128) h = true) :
    s.put x sc h .mem pa bs =
      ((s.storeLine x.id x.core (pa / 128) sc h (pa % 128) bs).writeBackL1 x.core (pa / 128)).dropL1 x.core (pa / 128) := by
  simp [State.put, State.coreStore, hp]

/-- A cached load of a line that the core's L1 holds reads that copy. -/
theorem State.coreRead_hit {core pa : Nat} {d : L1Line} (who : WarpId) (sc : Scope) (hint : BitVec 2) (n : Nat)
    (h : s.l1? core (pa / 128) = some d) : (s.coreRead who core false sc hint pa n).2.1 = d.data.bytes (pa % 128) n := by
  have hfix : (s.fix (.l1 core) pa n).l1? core (pa / 128) = some d :=
    (State.same_of_bare (s.fix_bare _ _ _) (fun t => t.l1? core (pa / 128)) fun _ => rfl).trans h
  rw [State.coreRead, if_neg (by decide)]
  exact congrArg (fun l => Line.bytes l (pa % 128) n) (State.loadLine_hit who sc hint hfix)

/-- A cached load of a line that the core's L1 does not hold: under `.nol1` it leaves no copy, else one that keeps the hint. -/
theorem State.coreRead_miss {core pa : Nat} (who : WarpId) (sc : Scope) (hint : BitVec 2) (n : Nat) (h : s.l1? core (pa / 128) = none) :
    (hint = 2 → (s.coreRead who core false sc hint pa n).1.l1? core (pa / 128) = none) ∧
    (hint ≠ 2 → ∃ d, (s.coreRead who core false sc hint pa n).1.l1? core (pa / 128) = some d ∧ d.hint = hint) := by
  have hfix : (s.fix (.l1 core) pa n).l1? core (pa / 128) = none :=
    (State.same_of_bare (s.fix_bare _ _ _) (fun t => t.l1? core (pa / 128)) fun _ => rfl).trans h
  have hread : (s.coreRead who core false sc hint pa n).1 = if s.passesL1 core (pa / 128) hint then
      ((s.fix (.l1 core) pa n).loadLine who core (pa / 128) sc hint).1.dropL1 core (pa / 128)
    else ((s.fix (.l1 core) pa n).loadLine who core (pa / 128) sc hint).1 := rfl
  rw [hread, State.passesL1, h]
  constructor
  · rintro rfl
    exact State.dropL1_l1?_same _ _ _
  · intro hne
    rw [if_neg (by simpa using hne)]
    exact State.loadLine_miss who sc hint hfix

/-- A store that the core reads back: the line is in its L1, and keeps the hint if the store brought it in. -/
theorem State.put_mem_reads {x : Warp} {h : BitVec 2} {pa : Nat} (sc sc' : Scope) (h' : BitVec 2) {bs : List W8}
    (hspan : pa % 128 + bs.length ≤ 128) (hp : s.passesL1 x.core (pa / 128) h = false) :
    ((s.put x sc h .mem pa bs).coreRead x.id x.core false sc' h' pa bs.length).2.1 = bs ∧
    ((s.l1? x.core (pa / 128)).isNone = true → ∃ d, (s.put x sc h .mem pa bs).l1? x.core (pa / 128) = some d ∧ d.hint = h) := by
  have hl1 := s.storeLine_l1? x.id x.core (pa / 128) sc h (pa % 128) bs
  rw [State.put_mem_kept sc bs hp]
  refine ⟨(State.coreRead_hit x.id sc' h' bs.length hl1).trans (State.storedLine_bytes _ x.id x.core (pa / 128) h hspan), fun hnone => ?_⟩
  exact ⟨_, hl1, State.storedLine_hint x.id sc h _ bs (Option.isNone_iff_eq_none.1 hnone)⟩

/-- A store that passes the L1: no copy stays there, the die's L2 holds the bytes, marked (log 128). -/
theorem State.put_mem_marks {x : Warp} {h : BitVec 2} {pa : Nat} (sc : Scope) {bs : List W8} (hspan : pa % 128 + bs.length ≤ 128)
    (hp : s.passesL1 x.core (pa / 128) h = true) (hlen : 0 < bs.length) :
    (s.put x sc h .mem pa bs).l1? x.core (pa / 128) = none ∧
    ∃ y, (s.put x sc h .mem pa bs).l2? (dieOf x.core) (pa / 128) = some y ∧ ∀ j, j < bs.length →
      y.data.byte (pa % 128 + j) = bs.getD j 0 ∧ y.marked.getLsbD (pa % 128 + j) = true := by
  have hl1 := s.storeLine_l1? x.id x.core (pa / 128) sc h (pa % 128) bs
  have hstored {j : Nat} (hj : j < bs.length) := (s.storeReady x.core (pa / 128) sc h).storedLine_byte x.id x.core (pa / 128) h hspan hj
  obtain ⟨y, hy, hbytes⟩ := State.writeBackL1_dirty hl1 (LineMask.ne_zero_of_getLsbD (hstored hlen).2)
  rw [State.put_mem_passed sc bs hp]
  refine ⟨State.dropL1_l1?_same _ _ _, y, by rwa [State.l2?, State.dropL1_l2], fun j hj => ?_⟩
  obtain ⟨hdata, hdirty⟩ := hstored hj
  obtain ⟨hy1, hy2⟩ := hbytes (pa % 128 + j) (by omega) hdirty
  exact ⟨hy1.trans hdata, hy2⟩

/-- A store within the die to a line that its L1 and L2 hold, for no other core of the die: only that L1 copy changes. -/
theorem State.put_mem_held {x : Warp} {sc : Scope} {pa : Nat} {c : L1Line} {y : L2Line} (h : BitVec 2) (bs : List W8) (hsc : sc.devUp = false)
    (hc : s.l1? x.core (pa / 128) = some c) (hy : s.l2? (dieOf x.core) (pa / 128) = some y)
    (hself : ∀ z ∈ s.l1, z.line = pa / 128 → dieOf z.core = dieOf x.core → z.core = x.core) :
    ∃ u : State, u.bare = s.bare ∧ s.put x sc h .mem pa bs = u.putL1 (s.storedLine x.id x.core (pa / 128) h (pa % 128) bs) := by
  rw [State.put_mem_kept sc bs (by simp [State.passesL1, hc])]
  obtain ⟨u, hu, hput⟩ := s.storeLine_eq x.id x.core (pa / 128) sc h (pa % 128) bs
  rw [State.storeReady_held h hsc hc hy hself] at hu hput
  exact ⟨u, hu, hput⟩

/-! ### An uncached page -/

/-- A store to an uncached page whose line no die holds: memory at the address, and no copy. -/
theorem State.put_uncached {x : Warp} {pa : Nat} {bs : List W8} (sc : Scope) (h : BitVec 2) (hspan : pa % 128 + bs.length ≤ 128)
    (hm : s.inMer (pa / 128) = true ∨ isHbm pa = false) (hd : ∀ y ∈ s.l2, y.line ≠ pa / 128) :
    (s.put x sc h .uncached pa bs).mem = wrBytes s.mem pa bs ∧ (s.put x sc h .uncached pa bs).l1 = s.l1 ∧
    (s.put x sc h .uncached pa bs).l2 = s.l2 := by
  have hbare := State.atHome_bare (s.partNo (dieOf x.core)) hspan hm hd
  obtain ⟨g, hg⟩ := (s.atHome (s.partNo (dieOf x.core)) pa bs.length).dropLags_eq pa bs.length
  have hput : s.put x sc h .uncached pa bs =
      ({ s.atHome (s.partNo (dieOf x.core)) pa bs.length with lags := g } : State).setHome pa bs := by
    rw [← hg]
    rfl
  obtain ⟨hmem, hl1, hl2⟩ := ({ s.atHome (s.partNo (dieOf x.core)) pa bs.length with lags := g } : State).setHome_eq pa bs
  rw [hput, hmem, hl1, hl2]
  exact ⟨congrArg (wrBytes · pa bs) (State.same_of_bare hbare State.mem fun _ => rfl), State.same_of_bare hbare State.l1 fun _ => rfl,
    State.same_of_bare hbare State.l2 fun _ => rfl⟩

/-! ### Atomics -/

/-- The bytes that an atomic of a lane writes over some old ones, if any. -/
def LaneAtom.writes (a : LaneAtom) (f : AtomF) (bs : List W8) : Option (List W8) :=
  (atomVal f (BitVec.ofNat 64 (leNat bs)) a.b a.c).1.map fun v => leBytes f.bytes v.toNat

/-- One lane's atomic: its old value, with memory and the L2s as the access leaves them. -/
theorem State.atomLane_eq (s : State) (who : WarpId) (core reply : Nat) (f : AtomF) (a : LaneAtom) :
    (s.atomLane who core reply f a).2.1 = BitVec.ofNat 64 (leNat (s.atomicAt core a.nc f.sc a.addr f.bytes (a.writes f)).2.1) ∧
    (s.atomLane who core reply f a).1.l2 = (s.atomicAt core a.nc f.sc a.addr f.bytes (a.writes f)).1.l2 ∧
    (s.atomLane who core reply f a).1.mem = (s.atomicAt core a.nc f.sc a.addr f.bytes (a.writes f)).1.mem := by
  refine ⟨rfl, ?_, ?_⟩ <;> unfold State.atomLane <;> dsimp only <;> split <;> rfl

/-- A near atomic's copy, byte by byte: the write of R288 in its place, the marks with those of its bytes in die scope (R251). -/
theorem L2Line.performed_byte (c : L2Line) (mark : Bool) (f : AtomF) (a : LaneAtom) (off : Nat) {j : Nat} (hj : j < 128) :
    let val := (atomVal f (BitVec.ofNat 64 (leNat (c.data.bytes off f.bytes))) a.b a.c).1
    let y := c.performed mark off f.bytes (a.writes f (c.data.bytes off f.bytes))
    let hit := off ≤ j ∧ j < off + f.bytes
    (¬ hit → y.data.byte j = c.data.byte j) ∧ (val = none → y.data.byte j = c.data.byte j) ∧
    (∀ v, hit → val = some v → y.data.byte j = (leBytes f.bytes v.toNat).getD (j - off) 0) ∧
    (y.marked.getLsbD j = (c.marked.getLsbD j || (mark && decide hit))) := by
  intro val y hit
  have hmarks : y.marked.getLsbD j = (c.marked.getLsbD j || (mark && decide hit)) := by
    cases mark
    · exact (Bool.or_false _).symm
    · change (c.marked ||| spanMask off f.bytes).getLsbD j = _
      rw [BitVec.getLsbD_or, spanMask_getLsbD _ _ hj, Bool.true_and, Bool.decide_and]
  cases hval : val with
  | none =>
    have hdata : y.data = c.data := by
      simp only [y, L2Line.performed, LaneAtom.writes]
      rw [show (atomVal f _ a.b a.c).1 = none from hval]
      rfl
    exact ⟨fun _ => by rw [hdata], fun _ => by rw [hdata], fun v _ h => (nomatch h), hmarks⟩
  | some v =>
    have hdata : y.data = c.data.write off (leBytes f.bytes v.toNat) := by
      simp only [y, L2Line.performed, LaneAtom.writes]
      rw [show (atomVal f _ a.b a.c).1 = some v from hval]
      rfl
    have hbyte := Line.byte_write c.data off (leBytes f.bytes v.toNat) hj
    rw [leBytes_length] at hbyte
    refine ⟨fun hno => ?_, fun h => (nomatch h), fun w hhit hw => ?_, hmarks⟩
    · rw [hdata, hbyte, if_neg hno]
    · cases hw
      rw [hdata, hbyte, if_pos hhit]

end Sys2Proof.Machine
end

section
/-! What a commit stores, and what its atomics write (O41). -/
namespace Sys2Proof.Machine

variable {s : State}

/-- One lane's atomic that performed in a die's copy `c`: its old value is read there and its write stands there (R251, R288). -/
theorem State.atomLane_near {who : WarpId} {core reply : Nat} {f : AtomF} {a : LaneAtom} {c : L2Line} {mark : Bool}
    (hat : (s.atomicAt core a.nc f.sc a.addr f.bytes (a.writes f)).2.1 = c.data.bytes (a.addr % 128) f.bytes ∧
      (s.atomicAt core a.nc f.sc a.addr f.bytes (a.writes f)).1.l2? (dieOf core) (a.addr / 128) =
        some (c.performed mark (a.addr % 128) f.bytes (a.writes f (c.data.bytes (a.addr % 128) f.bytes)))) :
    (s.atomLane who core reply f a).2.1 = BitVec.ofNat 64 (leNat (c.data.bytes (a.addr % 128) f.bytes)) ∧
    ∃ y, (s.atomLane who core reply f a).1.l2? (dieOf core) (a.addr / 128) = some y ∧ (mark = false → y.st = .m) ∧ ∀ j, j < 128 →
      let val := (atomVal f (BitVec.ofNat 64 (leNat (c.data.bytes (a.addr % 128) f.bytes))) a.b a.c).1
      let hit := a.addr % 128 ≤ j ∧ j < a.addr % 128 + f.bytes
      (¬ hit → y.data.byte j = c.data.byte j) ∧ (val = none → y.data.byte j = c.data.byte j) ∧
      (∀ v, hit → val = some v → y.data.byte j = (leBytes f.bytes v.toNat).getD (j - a.addr % 128) 0) ∧
      (y.marked.getLsbD j = (c.marked.getLsbD j || (mark && decide hit))) := by
  obtain ⟨hval, hl2, -⟩ := s.atomLane_eq who core reply f a
  obtain ⟨hold, hcopy⟩ := hat
  refine ⟨by rw [hval, hold], _, by rw [State.l2?, hl2]; exact hcopy, ?_, fun j hj => c.performed_byte mark f a _ hj⟩
  rintro rfl
  rfl

/-- One lane's atomic that performed at the home: its old value is read there and its write stands there (R256, R288). -/
theorem State.atomLane_far {who : WarpId} {core reply : Nat} {f : AtomF} {a : LaneAtom} {u : State}
    (hat : s.atomicAt core a.nc f.sc a.addr f.bytes (a.writes f) =
      (u.performHome a.addr (a.writes f (rdBytes u.mem a.addr f.bytes)), rdBytes u.mem a.addr f.bytes, true)) :
    let val := (atomVal f (BitVec.ofNat 64 (leNat (rdBytes u.mem a.addr f.bytes))) a.b a.c).1
    (s.atomLane who core reply f a).2.1 = BitVec.ofNat 64 (leNat (rdBytes u.mem a.addr f.bytes)) ∧
    (val = none → (s.atomLane who core reply f a).1.mem = u.mem) ∧
    ∀ v, val = some v → (s.atomLane who core reply f a).1.mem = wrBytes u.mem a.addr (leBytes f.bytes v.toNat) := by
  obtain ⟨hval, -, hmem⟩ := s.atomLane_eq who core reply f a
  rw [hat] at hval hmem
  refine ⟨hval, fun hnone => ?_, fun v hv => ?_⟩
  · rw [hmem, LaneAtom.writes, hnone]
    rfl
  · rw [hmem, LaneAtom.writes, hv]
    exact (u.setHome_eq _ _).1

/-- A release precedes an access that carries one. -/
theorem State.releaseFor_eq (s : State) (core : Nat) (sc : Scope) (o : Ord) :
    s.releaseFor core sc o = if o = .release ∨ o = .acqRel then s.release core sc else s := by
  simp only [State.releaseFor, Bool.or_eq_true, beq_iff_eq]

/-- One lane's atomic leaves one reply with its old value (R71). -/
theorem State.commitAtoms_one (s : State) (x : Warp) (r : Run) (f : AtomF) (a : LaneAtom) :
    let p := ({ s with nextId := s.nextId + 1 } : State).atomLane x.id x.core s.nextId f a
    s.commitAtoms x r f [a] = { p.1 with replies := p.1.replies ++ [{
      id := s.nextId, warp := x.id, regs := r.replyRegs f, mask := lanesOf fun l => a.lane == l
      vals := (List.replicate 32 0).set a.lane p.2.1, flags := 0 ||| p.2.2 }] } := by
  have hmask : (fun l => [a].any fun b => b.lane == l) = fun l => a.lane == l := by
    funext l
    exact Bool.or_false _
  rw [State.commitAtoms, hmask]
  rfl

/-- Settles O41: a store to the scratchpad by the bytes of memory, one to a line by the stored copy, one to an uncached page and a far atomic
by the home's bytes, a near atomic by the die's copy. -/
theorem commitsStore : Obligations.CommitsStore := by
  unfold Obligations.CommitsStore
  refine ⟨fun s x r => ⟨rfl, fun sc o ws w => ?_, fun sc o => s.releaseFor_eq x.core sc o⟩,
    fun s x sc h a bs t ht hw => State.put_spad sc h a bs ht hw,
    fun s x sc sc' h h' pa bs hspan => ⟨fun hp => State.put_mem_reads sc sc' h' hspan hp, fun hp hlen => State.put_mem_marks sc hspan hp hlen,
      fun hnone => State.coreRead_miss x.id sc h bs.length hnone⟩,
    fun s x sc h pa bs c y hsc hspan hc hy hself => ?_, fun s x sc h pa bs hspan hm hd => ?_,
    fun s x reply f a hspan => ⟨fun hnc hpa hsc c hc => ?_, fun c0 hnc hpa hsc hc0 hst c hc => ?_, fun hfar => ?_⟩,
    fun s x r f a => s.commitAtoms_one x r f a⟩
  · simp only [State.commitStore, List.foldl_append]
    rfl
  · obtain ⟨u, hu, hput⟩ := State.put_mem_held h bs hsc hc hy hself
    obtain ⟨hkc, hkl⟩ := s.storedLine_keys x.id x.core (pa / 128) h (pa % 128) bs
    rw [hput]
    refine ⟨State.same_of_bare hu State.mem fun _ => rfl, State.same_of_bare hu State.l2 fun _ => rfl, State.same_of_bare hu State.mer fun _ => rfl,
      State.same_of_bare hu State.teams fun _ => rfl, State.same_of_bare hu State.warps fun _ => rfl, fun k l hne => ?_,
      _, u.putL1_l1?_same hkc hkl, fun j hj => s.storedLine_held x.id h (pa % 128) bs hc hy hj⟩
    rw [u.putL1_l1?_ne (by rw [hkc, hkl]; exact hne.imp Ne.symm Ne.symm)]
    exact State.same_of_bare hu (fun t => t.l1? k l) fun _ => rfl
  · have hstep := s.coreStore_step x.id x.core true sc h pa bs
    obtain ⟨hmem, hl1, hl2⟩ := State.put_uncached sc h hspan hm hd
    exact ⟨hmem, hl1, hl2, hstep.same State.teams fun _ => rfl, hstep.same State.warps fun _ => rfl⟩
  · refine State.atomLane_near ?_
    rw [hnc]
    exact State.atomicAt_die _ hpa hsc hc
  · refine State.atomLane_near ?_
    rw [hnc]
    exact State.atomicAt_device _ hpa hsc hc0 hst hc
  · exact State.atomLane_far (State.atomicAt_far _ hfar)

end Sys2Proof.Machine
end

section
/-! SUPPORT. The words the manual writes out, decoded. -/
namespace Sys2Proof

/-- Settles O1: each word, decoded, is the instruction the manual writes beside it. -/
theorem decodesExampleWords : Obligations.DecodesExampleWords := by
  unfold Obligations.DecodesExampleWords
  exact ⟨rfl, rfl, rfl, rfl, rfl, rfl, rfl, rfl, rfl, rfl⟩

end Sys2Proof
end

section
/-! SUPPORT. The control instructions, and the settings that a block leaves for its commit (R88 to R94, R119, R191, R215, R216). -/
namespace Sys2Proof.Machine

variable {s : State} {x : Issue}

/-- A lane within a result's mask is one on which the result is valid (R67). -/
theorem okLanes_getLsbD_of_mem (i : Instr) (o : Opnds) {l : Nat} (h : l ∈ allLanes) : (okLanes i o).getLsbD l = laneOk i o l := by
  rw [okLanes_getLsbD, decide_eq_true (List.mem_range.mp h), Bool.true_and]

/-- A control instruction gives each lane of its valid result the successor of its function (R73, R88). -/
theorem control_gives {i : Instr} {f : Issue → Nat → Option SuccKind} (he : exec i s = s.control i f) (h : Fires s i x) :
    Gives s i x (f x) := by
  have hlanes : (allLanes.filter fun l => (okLanes i x.o).getLsbD l) = allLanes.filter fun l => laneOk i x.o l :=
    List.filter_congr fun l hl => okLanes_getLsbD_of_mem i x.o hl
  rw [Gives, he, State.control, firing_eq h, State.giveSuccs, hlanes]

/-- Settles O14: each control instruction gives the successor of its function, BRC's two offsets by its condition. -/
theorem controlCompletes : Obligations.ControlCompletes := by
  unfold Obligations.ControlCompletes
  refine fun s x => ⟨fun pr off h => ?_, fun pr nz z h => ?_, fun pr h => ?_, fun pr callee back h => ?_, fun pr h => ?_, fun pr h => ?_,
    fun pr off h => ?_, fun pr code h => ?_, fun pr code h => ?_⟩
  · exact control_gives (exec_br s pr off) h
  · have hg := control_gives (exec_brc s pr nz z) h
    simpa only [bne_iff_ne, ne_eq, ite_not, branchTo] using hg
  · exact control_gives (exec_brx s pr) h
  · exact control_gives (exec_call s pr callee back) h
  · exact control_gives (exec_ret s pr) h
  · exact control_gives (exec_exit s pr) h
  · exact control_gives (exec_yield s pr off) h
  · exact control_gives (exec_trap s pr code) h
  · exact control_gives (exec_bkpt s pr code) h

/-- A Legend entry that reads hands its words on (R190). -/
theorem State.readLegend_reads {idx : Nat} {t : State} {ws : List W64} (h : LegendReads s x idx t ws) (k : State → List W64 → State) :
    s.readLegend x idx k = k t ws := by
  obtain ⟨hfrozen, hmark, hwords⟩ := h
  simp only [State.readLegend, hfrozen, hmark, hwords, Bool.false_eq_true, if_false]

/-- Settles O35: each setting leaves its effect, TDGET reads its entry; MODSET with an invalid operand finishes and leaves nothing. -/
theorem settingsComplete : Obligations.SettingsComplete := by
  unfold Obligations.SettingsComplete
  refine ⟨fun s x pr => ⟨fun nb ag h hu => ?_, fun base m h hu => ?_, fun idx h => ?_, fun idx a b t ws h hr => ?_, fun va k m => rfl⟩,
    fun s pr m imm x h => ⟨fun hu => ?_, fun hu => ?_, fun va k => rfl⟩⟩
  · exact leaves_of (exec_agset s pr nb ag) h (if_pos hu)
  · exact leaves_of (exec_gang s pr base m) h (if_pos hu)
  · exact leaves_of (exec_tdset s pr idx) h rfl
  · rw [exec_tdget, execTdget, firing_eq h, State.readLegend_reads hr]
    rfl
  · refine leaves_of (exec_modset s pr m imm) h ?_
    rw [if_pos hu]
    cases imm <;> rfl
  · rw [exec_modset, execModset, firing_eq h, if_neg (by simp [hu])]
    rfl

end Sys2Proof.Machine
end

section
/-! SUPPORT. Accesses of the scratchpad whose offsets and tiles permit them (R122, R183). -/
namespace Sys2Proof.Machine

variable {s : State} {x : Issue} {write : Bool} {width : Nat} {ls : List (Nat × W64)}

/-- References taken leave the device's soft errors and its teams. -/
theorem refsTaken_frame (s : State) (x : Issue) (write : Bool) (width : Nat) (ls : List (Nat × W64)) :
    (refsTaken s x write width ls).errs = s.errs ∧ (refsTaken s x write width ls).teams = s.teams := by
  have hfold (ts : List Nat) : ∀ u : State,
      (ts.foldl (fun s tid => s.takeRef (.block x.w) x.w.team tid write) u).errs = u.errs ∧
      (ts.foldl (fun s tid => s.takeRef (.block x.w) x.w.team tid write) u).teams = u.teams := by
    induction ts with
    | nil => exact fun u => ⟨rfl, rfl⟩
    | cons tid ts ih => exact fun u => ih _
  exact hfold _ s

/-- References taken leave the bytes of every scratchpad. -/
theorem refsTaken_spadRead (t : TeamId) (off n : Nat) : (refsTaken s x write width ls).spadRead t off n = s.spadRead t off n := by
  simp only [State.spadRead, State.team?, (refsTaken_frame s x write width ls).2]

/-- With no soft error in the device, none is among what is read. -/
theorem State.badOf_of_errs (h : s.errs = []) (gs : List Granule) : s.badOf gs = [] := by
  simp [State.badOf, h]

/-- A warp may name a tile where its team says so (R319). -/
theorem Named.mayName {tid : Nat} (h : Named s x tid) : ((s.team? x.w.team).map fun t => t.mayName x.w.warp tid).getD false = true := by
  obtain ⟨t, ht, hn⟩ := h
  simp [ht, hn]

/-- A scratchpad access that passes its checks goes on once it has taken the references of the tiles it touches. -/
theorem State.spadAccess_clean (h : SpadClean s x write width ls) (k : State → State) :
    s.spadAccess x false write width ls k = k (refsTaken s x write width ls) := by
  obtain ⟨hoff, htiles⟩ := h
  have hnamed : (touched s x width ls).find? (fun tid => !(((s.team? x.w.team).map fun t => t.mayName x.w.warp tid).getD false)) = none :=
    List.find?_eq_none.mpr fun tid ht => by simp [(htiles tid ht).1.mayName]
  have hready : ((touched s x width ls).all fun tid =>
      if write then s.canWrite (.block x.w) x.w.team tid [.empty, .ready] else s.canRead (.block x.w) x.w.team tid) = true :=
    List.all_eq_true.mpr fun tid ht => by simpa using (htiles tid ht).2
  unfold touched at hnamed hready
  unfold State.spadAccess
  simp only [hoff, hnamed, hready, if_true]
  rfl

/-- Settles O22: the access goes on past its checks, and with no error in the scratchpad LDS finishes with the bytes it reads. -/
theorem scratchpadAccessesComplete : Obligations.ScratchpadAccessesComplete := by
  unfold Obligations.ScratchpadAccessesComplete
  refine fun s f x he => ⟨fun h hc => ?_, fun h hc => ?_⟩
  · have hno := (refsTaken_frame s x false f.width.bytes (memAddrs (.lds f) f true x.o)).1.trans he
    rw [exec_lds, execLds, firing_eq h, State.spadAccess_clean hc]
    simp only [State.correct_of_errs hno, State.badOf_of_errs hno, refsTaken_spadRead]
    rfl
  · rw [exec_sts, execSts, firing_eq h, State.spadAccess_clean hc]
    rfl

end Sys2Proof.Machine
end

section
/-! SUPPORT. The values of the integer instructions (R101 to R114): operands of TY's width, results bit by bit and as exact integers. -/
namespace Sys2Proof

variable {t : Ty} {v a b : W64} {p : Nat → Bool}

/-! ### Values of TY's width (R86, R101) -/

/-- A value of TY's width: its bits from that width on are 0 (R86). -/
def Ty.Fits (t : Ty) (v : W64) : Prop := v.toNat < 2 ^ t.bitsW

/-- The two widths of TY (R86). -/
theorem Ty.bitsW_wide (h : t.wide = true) : t.bitsW = 64 := by simp [Ty.bitsW, h]

theorem Ty.bitsW_narrow (h : t.wide = false) : t.bitsW = 32 := by simp [Ty.bitsW, h]

theorem Ty.bitsW_le (t : Ty) : t.bitsW ≤ 64 := by
  unfold Ty.bitsW
  split <;> omega

/-- Beyond TY's width a value of that width has no bit. -/
theorem Ty.Fits.high (h : t.Fits v) {k : Nat} (hk : t.bitsW ≤ k) : v.getLsbD k = false :=
  Nat.testBit_lt_two_pow (lt_of_lt_of_le h (Nat.pow_le_pow_right (by omega) hk))

/-- A 32-bit value fits every TY. -/
theorem Ty.fits_setWidth (t : Ty) (w : W32) : t.Fits (w.setWidth 64) := by
  have hw : 2 ^ 32 ≤ 2 ^ t.bitsW := Nat.pow_le_pow_right (by omega) (by unfold Ty.bitsW; split <;> omega)
  simp only [Ty.Fits, BitVec.toNat_setWidth]
  omega

/-- Every value fits a 64-bit TY. -/
theorem Ty.fits_wide (h : t.wide = true) (v : W64) : t.Fits v := by
  simpa [Ty.Fits, Ty.bitsW_wide h] using v.isLt

/-- An operand taken at TY's width is of that width. -/
theorem Token.atTy_fits (k : Token) (t : Ty) (l : Nat) : t.Fits (k.atTy t l) := by
  unfold Token.atTy
  split
  case isTrue h => exact t.fits_wide h _
  case isFalse => exact t.fits_setWidth _

/-- The right operand of an integer instruction, slot or immediate, is of TY's width (R49, R101). -/
theorem IntF.b_fits (f : IntF) (o : Opnds) (l : Nat) : f.ty.Fits (f.b o l) := by
  unfold IntF.b immTy
  split
  · split
    case isTrue h => exact f.ty.fits_wide h _
    case isFalse => exact f.ty.fits_setWidth _
  · exact o.right.atTy_fits f.ty l

/-- A value of TY's width and its integer agree modulo 2^w (R102). -/
theorem Ty.Fits.int_modEq (h : t.Fits v) : t.int v ≡ (v.toNat : Int) [ZMOD (2 ^ t.bitsW : Nat)] := by
  have hlt := v.isLt
  unfold Int.ModEq
  cases t <;> simp only [Ty.Fits, Ty.int, Ty.bitsW, Ty.wide, Bool.false_eq_true, ↓reduceIte, BitVec.toInt_eq_toNat_bmod,
    BitVec.toNat_setWidth, Nat.reducePow, Int.bmod] at * <;> omega

/-- Cutting a value of TY's width to that width leaves it (R106). -/
theorem Ty.Fits.cut (h : t.Fits v) : t.cut v = v := by
  unfold Ty.cut
  split
  · rfl
  case isFalse hw =>
    rw [Ty.Fits, Ty.bitsW_narrow (by simpa using hw)] at h
    apply BitVec.eq_of_toNat_eq
    simp only [BitVec.toNat_setWidth]
    omega

/-! ### Results bit by bit -/

/-- A value of TY's width is given by its bits below that width. -/
theorem Ty.Fits.bitsAre (h : t.Fits v) (hp : ∀ k < t.bitsW, v.getLsbD k = p k) : BitsAre t v p := by
  intro k
  by_cases hk : k < t.bitsW
  · simp [hk, hp k hk]
  · simp [hk, h.high (Nat.le_of_not_lt hk)]

/-- A result computed at either width of TY is given by its bits below that width. -/
theorem bitsAre_ite {y : W64} {z : W32} (hwide : t.wide = true → ∀ k < 64, y.getLsbD k = p k)
    (hnarrow : t.wide = false → ∀ k < 32, z.getLsbD k = p k) : BitsAre t (if t.wide then y else z.setWidth 64) p := by
  cases h : t.wide
  · refine (t.fits_setWidth z).bitsAre fun k hk => ?_
    rw [Ty.bitsW_narrow h] at hk
    rw [BitVec.getLsbD_setWidth, hnarrow h k hk]
    simp [show k < 64 by omega]
  · refine (t.fits_wide h y).bitsAre fun k hk => hwide h k (by rwa [Ty.bitsW_wide h] at hk)

/-- The bits of an exact result that is a natural number, wrapped (R102). -/
theorem bitsAre_of_fitsTo {n : Nat} {x : Int} (h : FitsTo t false x v) (hx : x ≡ (n : Int) [ZMOD (2 ^ t.bitsW : Nat)]) :
    BitsAre t v n.testBit := by
  have hv : v.toNat = n % 2 ^ t.bitsW := by
    have := h.2
    rw [if_neg Bool.false_ne_true, hx] at this
    exact_mod_cast this
  intro k
  rw [BitVec.getLsbD, hv, Nat.testBit_mod_two_pow]

/-- The bits of a natural number below 2^w. -/
theorem bitsAre_ofNat {n : Nat} (h : n < 2 ^ t.bitsW) : BitsAre t (BitVec.ofNat 64 n) n.testBit := by
  have hn : n < 2 ^ 64 := lt_of_lt_of_le h (Nat.pow_le_pow_right (by omega) t.bitsW_le)
  have hv : (BitVec.ofNat 64 n).toNat = n := by simpa using Nat.mod_eq_of_lt hn
  refine Ty.Fits.bitsAre (by rwa [Ty.Fits, hv]) fun k _ => ?_
  rw [BitVec.getLsbD, hv]

/-- Bits that agree below the width are the same result. -/
theorem BitsAre.congr {q : Nat → Bool} (h : BitsAre t v p) (hpq : ∀ k < t.bitsW, p k = q k) : BitsAre t v q := by
  intro k
  rw [h k]
  by_cases hk : k < t.bitsW
  · rw [hpq k hk]
  · simp [hk]

/-! ### Arithmetic (R103 to R105) -/

/-- The quotient where b is 0, all ones, and elsewhere the one truncated toward zero, fitted (R104). -/
theorem ivDiv_value (t : Ty) (sat : Bool) (a b : W64) :
    (t.int b = 0 → (ivDiv t sat a b).toNat = 2 ^ t.bitsW - 1) ∧
    (t.int b ≠ 0 → FitsTo t sat ((t.int a).tdiv (t.int b)) (ivDiv t sat a b)) := by
  unfold ivDiv
  refine ⟨fun h => ?_, fun h => ?_⟩
  · rw [if_pos (by simpa using h)]
    have hpos : 0 < 2 ^ t.bitsW := Nat.two_pow_pos _
    have hmod : (-1 : Int) % (2 ^ t.bitsW : Nat) = (2 ^ t.bitsW : Nat) - 1 := by
      rw [← Int.add_emod_right, Int.emod_eq_of_lt] <;> omega
    have := t.wrap_toNat (-1)
    omega
  · rw [if_neg (by simpa using h)]
    exact t.fit_fits sat _

/-- The remainder where b is 0, a itself, and elsewhere a less b times the quotient (R104). -/
theorem ivRem_value (t : Ty) (a b : W64) :
    (t.int b = 0 → FitsTo t false (t.int a) (ivRem t a b)) ∧
    (t.int b ≠ 0 → FitsTo t false (t.int a - t.int b * (t.int a).tdiv (t.int b)) (ivRem t a b)) := by
  unfold ivRem
  refine ⟨fun h => ?_, fun h => ?_⟩
  · rw [if_pos (by simpa using h)]
    exact t.fit_fits false _
  · rw [if_neg (by simpa using h), ← Int.tmod_def]
    exact t.fit_fits false _

/-- The lesser of two operands is one of them (R105). -/
theorem ivMin_value (t : Ty) (a b : W64) :
    t.int (ivMin t a b) = min (t.int a) (t.int b) ∧ (ivMin t a b = a ∨ ivMin t a b = b) := by
  unfold ivMin
  split
  case isTrue h => exact ⟨(min_eq_left h).symm, .inl rfl⟩
  case isFalse h => exact ⟨(min_eq_right (by omega)).symm, .inr rfl⟩

/-- The greater of two operands is one of them (R105). -/
theorem ivMax_value (t : Ty) (a b : W64) :
    t.int (ivMax t a b) = max (t.int a) (t.int b) ∧ (ivMax t a b = a ∨ ivMax t a b = b) := by
  unfold ivMax
  split
  case isTrue h => exact ⟨(max_eq_right h).symm, .inr rfl⟩
  case isFalse h => exact ⟨(max_eq_left (by omega)).symm, .inl rfl⟩

end Sys2Proof

namespace Sys2Proof.Machine

/-- Settles O10: each instruction computes the exact integer of its rule and fits it; MIN and MAX choose an operand. -/
theorem integerArithmeticCompletes : Obligations.IntegerArithmeticCompletes := by
  unfold Obligations.IntegerArithmeticCompletes
  intro s f
  refine ⟨int2_completes (exec_add s f) fun x l => f.ty.fit_fits f.sat _, int2_completes (exec_sub s f) fun x l => f.ty.fit_fits f.sat _,
    int2_completes (exec_mul s f) fun x l => f.ty.fit_fits f.sat _, int3_completes (exec_mad s f) fun x l => f.ty.fit_fits f.sat _,
    int2_completes (exec_mulh s f) fun x l => f.ty.fit_fits false _, int2_completes (exec_div s f) fun x l => ivDiv_value ..,
    int2_completes (exec_rem s f) fun x l => ivRem_value .., int2_completes (exec_min s f) fun x l => ivMin_value ..,
    int2_completes (exec_max s f) fun x l => ivMax_value .., int1_completes (exec_neg s f) fun x l => f.ty.fit_fits f.sat _,
    int1_completes (exec_abs s f) fun x l => f.ty.fit_fits f.sat _⟩

end Sys2Proof.Machine
end

section
/-! SUPPORT. Logic, shifts and bit counts (R106 to R108). -/
namespace Sys2Proof

variable {t : Ty} {v a b : W64}

/-! ### Shifts (R107) -/

/-- SHL without SAT moves each bit up by the whole count (R107). -/
theorem ivShl_bits (ha : t.Fits a) (b : W64) :
    BitsAre t (ivShl t false a b) fun k => decide (b.toNat ≤ k) && a.getLsbD (k - b.toNat) := by
  have hprod : t.int a * (2 ^ min b.toNat t.bitsW : Nat) ≡ ((a.toNat <<< min b.toNat t.bitsW : Nat) : Int) [ZMOD (2 ^ t.bitsW : Nat)] := by
    rw [Nat.shiftLeft_eq, Nat.cast_mul]
    exact ha.int_modEq.mul_right _
  refine (bitsAre_of_fitsTo (t.fit_fits false _) hprod).congr fun k hk => ?_
  rw [Nat.testBit_shiftLeft]
  by_cases hb : b.toNat ≤ k
  · simp [hb, show min b.toNat t.bitsW = b.toNat by omega, BitVec.getLsbD]
  · simp [hb, hk]

/-- SHL under SAT is the exact product, clamped (R107). -/
theorem ivShl_sat (t : Ty) (a b : W64) : FitsTo t true (t.int a * 2 ^ min b.toNat t.bitsW) (ivShl t true a b) := by
  have h := t.fit_fits true (t.int a * (2 ^ min b.toNat t.bitsW : Nat))
  rw [← ivShl, Nat.cast_pow, Nat.cast_ofNat] at h
  exact h

/-- SHR moves each bit down by the whole count (R107). -/
theorem ivShr_bits (ha : t.Fits a) (b : W64) : BitsAre t (ivShr t a b) fun k => a.getLsbD (k + b.toNat) := by
  intro k
  unfold ivShr
  rw [ha.cut]
  have hhigh : t.bitsW ≤ k + b.toNat → a.getLsbD (k + b.toNat) = false := ha.high
  split
  case isTrue h => simp [hhigh (by omega)]
  case isFalse h =>
    simp only [BitVec.getLsbD_ushiftRight, Nat.add_comm b.toNat]
    by_cases hk : k < t.bitsW
    · simp [hk]
    · simp [hk, hhigh (by omega)]

/-- An arithmetic shift right copies the top bit. -/
theorem sshiftRight_getLsbD_min {w : Nat} (x : BitVec w) (n : Nat) {k : Nat} (hk : k < w) :
    (x.sshiftRight (min n (w - 1))).getLsbD k = x.getLsbD (min (k + n) (w - 1)) := by
  rw [BitVec.getLsbD_sshiftRight, BitVec.msb_eq_getLsbD_last]
  have hle : decide (w ≤ k) = false := by simpa using hk
  rw [hle, Bool.not_false, Bool.true_and]
  split
  · congr 1
    omega
  · congr 1
    omega

/-- SAR moves each bit down by the whole count, with copies of the top bit (R107). -/
theorem ivSar_bits (t : Ty) (a b : W64) : BitsAre t (ivSar t a b) fun k => a.getLsbD (min (k + b.toNat) (t.bitsW - 1)) := by
  unfold ivSar
  refine bitsAre_ite (fun h k hk => ?_) fun h k hk => ?_
  · rw [Ty.bitsW_wide h, sshiftRight_getLsbD_min a _ hk]
  · rw [Ty.bitsW_narrow h, sshiftRight_getLsbD_min _ _ hk, BitVec.getLsbD_setWidth, decide_eq_true (by omega), Bool.true_and]

/-- A rotation takes each bit from `n` places below, around the width. -/
theorem rotateLeft_getLsbD_mod {w : Nat} (x : BitVec w) {n k : Nat} (hn : n < w) (hk : k < w) :
    (x.rotateLeft n).getLsbD k = x.getLsbD ((k + (w - n)) % w) := by
  rw [BitVec.getLsbD_rotateLeft, Nat.mod_eq_of_lt hn]
  by_cases h : k < n
  · rw [decide_eq_true h, cond_true, Nat.mod_eq_of_lt (by omega), Nat.add_comm]
  · rw [decide_eq_false h, cond_false, decide_eq_true hk, Bool.true_and, show k + (w - n) = k - n + w by omega,
      Nat.add_mod_right, Nat.mod_eq_of_lt (by omega)]

/-- ROL turns by the count modulo the width (R107). -/
theorem ivRol_bits (t : Ty) (a b : W64) :
    BitsAre t (ivRol t a b) fun k => a.getLsbD ((k + (t.bitsW - b.toNat % t.bitsW)) % t.bitsW) := by
  unfold ivRol
  refine bitsAre_ite (fun h k hk => ?_) fun h k hk => ?_
  · rw [Ty.bitsW_wide h, rotateLeft_getLsbD_mod a (Nat.mod_lt _ (by omega)) hk]
  · rw [Ty.bitsW_narrow h, rotateLeft_getLsbD_mod _ (Nat.mod_lt _ (by omega)) hk, BitVec.getLsbD_setWidth,
      decide_eq_true (by omega), Bool.true_and]

/-! ### Bitwise logic (R106) -/

/-- AND of two operands, bit by bit. -/
theorem and_bits (ha : t.Fits a) (b : W64) : BitsAre t (a &&& b) fun k => a.getLsbD k && b.getLsbD k :=
  Ty.Fits.bitsAre (lt_of_le_of_lt (by simpa using Nat.and_le_left) ha) fun k _ => BitVec.getLsbD_and

/-- OR of two operands, bit by bit. -/
theorem or_bits (ha : t.Fits a) (hb : t.Fits b) : BitsAre t (a ||| b) fun k => a.getLsbD k || b.getLsbD k :=
  Ty.Fits.bitsAre (by simpa [Ty.Fits] using Nat.or_lt_two_pow ha hb) fun k _ => BitVec.getLsbD_or

/-- XOR of two operands, bit by bit. -/
theorem xor_bits (ha : t.Fits a) (hb : t.Fits b) : BitsAre t (a ^^^ b) fun k => a.getLsbD k != b.getLsbD k :=
  Ty.Fits.bitsAre (by simpa [Ty.Fits] using Nat.xor_lt_two_pow ha hb) fun k _ => BitVec.getLsbD_xor

/-- ANDN: a where b has no bit. -/
theorem andn_bits (ha : t.Fits a) (b : W64) : BitsAre t (a &&& ~~~b) fun k => a.getLsbD k && !b.getLsbD k :=
  (and_bits ha (~~~b)).congr fun k hk => by
    have := t.bitsW_le
    simp [show k < 64 by omega]

/-- NOT turns every bit below the width. -/
theorem not_bits (t : Ty) (a : W64) : BitsAre t (t.cut (~~~a)) fun k => !a.getLsbD k := by
  refine bitsAre_ite (fun _ k hk => ?_) fun _ k hk => ?_
  · simp [hk]
  · simp [hk, show k < 64 by omega]

/-! ### Counts (R108) -/

/-- One term of a sum of powers of two, at the bits a test passes. -/
def addBit (p : Nat → Bool) (s j : Nat) : Nat := if p j then s + 2 ^ j else s

/-- The order of two terms does not show. -/
theorem addBit_comm (p : Nat → Bool) (s i j : Nat) : addBit p (addBit p s i) j = addBit p (addBit p s j) i := by
  unfold addBit
  split <;> split <;> omega

/-- A sum of powers of two counted down from the top is the sum of the reversed bits. -/
theorem foldl_pow_reverse (p : Nat → Bool) (n : Nat) :
    (List.range n).foldl (fun s k => if p k then s + 2 ^ (n - 1 - k) else s) 0 =
      (List.range n).foldl (addBit fun j => p (n - 1 - j)) 0 := by
  have hrev : (List.range n).map (n - 1 - ·) = (List.range n).reverse := List.ext_getElem (by simp) (by simp)
  calc (List.range n).foldl (fun s k => if p k then s + 2 ^ (n - 1 - k) else s) 0
      = (List.range n).foldl (fun s k => addBit (fun j => p (n - 1 - j)) s (n - 1 - k)) 0 := by
        refine List.foldl_ext _ _ _ fun s k hk => ?_
        rw [List.mem_range] at hk
        rw [addBit, show n - 1 - (n - 1 - k) = k by omega]
    _ = ((List.range n).map (n - 1 - ·)).foldl (addBit fun j => p (n - 1 - j)) 0 := by rw [List.foldl_map]
    _ = (List.range n).foldl (addBit fun j => p (n - 1 - j)) 0 := by
        rw [hrev]
        exact (List.reverse_perm _).foldl_eq' (fun i _ j _ s => addBit_comm _ s i j) 0

/-- BREV turns the bits around (R108). -/
theorem ivBrev_bits (t : Ty) (a : W64) : BitsAre t (ivBrev t a) fun k => a.getLsbD (t.bitsW - 1 - k) := by
  unfold ivBrev
  rw [foldl_pow_reverse]
  refine (bitsAre_ofNat (foldl_pow_lt _ _)).congr fun k hk => ?_
  rw [foldl_pow_testBit, decide_eq_true hk, Bool.true_and]

/-- CLZ counts the zero bits above the highest one bit (R108). -/
theorem ivClz_value (ha : t.Fits a) : (ivClz t a).toNat ≤ t.bitsW ∧
    (∀ k, t.bitsW - (ivClz t a).toNat ≤ k → k < t.bitsW → a.getLsbD k = false) ∧
    ((ivClz t a).toNat < t.bitsW → a.getLsbD (t.bitsW - 1 - (ivClz t a).toNat) = true) := by
  have hw := t.bitsW_le
  unfold ivClz
  rw [ha.cut]
  by_cases h0 : a.toNat = 0
  · have hv : (BitVec.ofNat 64 (if (a.toNat == 0) = true then t.bitsW else t.bitsW - 1 - Nat.log2 a.toNat)).toNat = t.bitsW := by
      simp [h0]
      omega
    rw [hv]
    exact ⟨le_rfl, fun k _ _ => by simp [BitVec.getLsbD, h0], fun h => absurd h (by omega)⟩
  · have hlog : Nat.log2 a.toNat < t.bitsW := (Nat.log2_lt h0).mpr ha
    have hv : (BitVec.ofNat 64 (if (a.toNat == 0) = true then t.bitsW else t.bitsW - 1 - Nat.log2 a.toNat)).toNat =
        t.bitsW - 1 - Nat.log2 a.toNat := by
      simp [h0]
      omega
    rw [hv]
    refine ⟨by omega, fun k hk _ => Nat.testBit_lt_two_pow (lt_of_lt_of_le Nat.lt_log2_self (Nat.pow_le_pow_right (by omega) (by omega))),
      fun _ => ?_⟩
    rw [show t.bitsW - 1 - (t.bitsW - 1 - Nat.log2 a.toNat) = Nat.log2 a.toNat by omega]
    exact Nat.testBit_log2 h0

/-- POPC counts the one bits (R108). -/
theorem ivPopc_value (ha : t.Fits a) : (ivPopc t a).toNat = ((List.range t.bitsW).filter fun k => a.getLsbD k).length := by
  have hsplit : List.range 64 = List.range t.bitsW ++ (List.range (64 - t.bitsW)).map (t.bitsW + ·) := by
    rw [← List.range_add, Nat.add_sub_cancel' t.bitsW_le]
  have hhigh : ((List.range (64 - t.bitsW)).map (t.bitsW + ·)).filter (fun k => a.getLsbD k) = [] :=
    List.filter_eq_nil_iff.mpr fun k hk => by
      obtain ⟨j, _, rfl⟩ := List.mem_map.mp hk
      simp [ha.high (Nat.le_add_right t.bitsW j)]
  have hlen : ((List.range t.bitsW).filter fun k => a.getLsbD k).length ≤ 64 :=
    (List.length_filter_le _ _).trans (by simpa using t.bitsW_le)
  unfold ivPopc
  rw [ha.cut, hsplit, List.filter_append, hhigh, List.append_nil, BitVec.toNat_ofNat, Nat.mod_eq_of_lt (by omega)]

end Sys2Proof

namespace Sys2Proof.Machine

/-- Settles O11: each instruction's value has the bits its rule gives; SHL under SAT is the exact product, clamped. -/
theorem logicAndShiftsComplete : Obligations.LogicAndShiftsComplete := by
  unfold Obligations.LogicAndShiftsComplete
  intro s f
  have ha (x : Issue) (l : Nat) : f.ty.Fits (x.o.left.atTy f.ty l) := x.o.left.atTy_fits f.ty l
  have hb (x : Issue) (l : Nat) : f.ty.Fits (f.b x.o l) := f.b_fits x.o l
  refine ⟨int2_completes (exec_and s f) fun x l => and_bits (ha x l) _, int2_completes (exec_or s f) fun x l => or_bits (ha x l) (hb x l),
    int2_completes (exec_xor s f) fun x l => xor_bits (ha x l) (hb x l), int2_completes (exec_andn s f) fun x l => andn_bits (ha x l) _,
    int1_completes (exec_not s f) fun x l => not_bits f.ty _, int2_completes (exec_shl s f) fun x l => ⟨fun hs => ?_, fun hs => ?_⟩,
    int2_completes (exec_shr s f) fun x l => ivShr_bits (ha x l) _, int2_completes (exec_sar s f) fun x l => ivSar_bits f.ty _ _,
    int2_completes (exec_rol s f) fun x l => ivRol_bits f.ty _ _, int1_completes (exec_brev s f) fun x l => ivBrev_bits f.ty _,
    int1_completes (exec_clz s f) fun x l => ivClz_value (ha x l), int1_completes (exec_popc s f) fun x l => ivPopc_value (ha x l)⟩
  · rw [hs]
    exact ivShl_bits (ha x l) _
  · rw [hs]
    exact ivShl_sat f.ty _ _

end Sys2Proof.Machine
end

section
/-! SUPPORT. Bit fields (R109). -/
namespace Sys2Proof

variable {t : Ty} {v a b : W64}

/-- The position that a control word gives (R109). -/
def ctlPos (c : W64) : Nat := c.toNat % 256

/-- The length that a control word gives, held to the width (R109). -/
def ctlLen (t : Ty) (c : W64) : Nat := min (c.toNat / 256 % 256) t.bitsW

/-- The control word's fields as the model cuts them out. -/
theorem ctlPos_eq (c : W64) : (c.extractLsb' 0 8).toNat = ctlPos c := by
  rw [slice_toNat, Nat.pow_zero, Nat.div_one]
  rfl

theorem ctlLen_eq (t : Ty) (c : W64) : min (c.extractLsb' 8 8).toNat t.bitsW = ctlLen t c := by
  rw [slice_toNat]
  rfl

/-- The field of `len` bits of a value at a position, as a number. -/
def field (a : W64) (pos len : Nat) : Nat := a.toNat >>> pos % 2 ^ len

/-- A field fits its length. -/
theorem field_lt (a : W64) (pos len : Nat) : field a pos len < 2 ^ len := Nat.mod_lt _ (Nat.two_pow_pos _)

/-- The bits of a field. -/
theorem field_testBit (a : W64) (pos len k : Nat) : (field a pos len).testBit k = (decide (k < len) && a.getLsbD (pos + k)) := by
  rw [field, Nat.testBit_mod_two_pow, Nat.testBit_shiftRight]
  rfl

/-- The top bit of a field says whether it reaches half its range. -/
theorem field_top (a : W64) (pos len : Nat) (h : 0 < len) : 2 ^ (len - 1) ≤ field a pos len ↔ a.getLsbD (pos + len - 1) = true := by
  have hlt := field_lt a pos len
  have hbit := field_testBit a pos len (len - 1)
  rw [decide_eq_true (by omega), Bool.true_and, ← Nat.add_sub_assoc h] at hbit
  rw [← hbit]
  constructor
  · intro hle
    rw [show 2 ^ len = 2 * 2 ^ (len - 1) by rw [← Nat.pow_succ', Nat.succ_eq_add_one, Nat.sub_add_cancel h]] at hlt
    rw [Nat.testBit_eq_decide_div_mod_eq, Nat.div_eq_of_lt_le (k := 1) (by omega) (by omega)]
    rfl
  · exact fun ht => Nat.ge_two_pow_of_testBit ht

/-- A negative field, wrapped, has the field's bits and ones above them (R109). -/
theorem wrap_negative_bits {f len : Nat} (hf : f < 2 ^ len) (hlen : len ≤ t.bitsW) :
    BitsAre t (t.wrap ((f : Int) - (2 ^ len : Nat))) fun k => if k < len then f.testBit k else true := by
  have hsplit : 2 ^ t.bitsW = 2 ^ len * 2 ^ (t.bitsW - len) := by rw [← Nat.pow_add, Nat.add_sub_cancel' hlen]
  have hones : (f : Int) - (2 ^ len : Nat) ≡ ((2 ^ len * (2 ^ (t.bitsW - len) - 1) + f : Nat) : Int) [ZMOD (2 ^ t.bitsW : Nat)] := by
    rw [Int.modEq_iff_dvd]
    refine ⟨1, ?_⟩
    have : 0 < 2 ^ (t.bitsW - len) := Nat.two_pow_pos _
    rw [hsplit]
    push_cast [Nat.cast_sub this]
    ring
  refine (bitsAre_of_fitsTo (t.fit_fits false _) hones).congr fun k hk => ?_
  rw [Nat.testBit_two_pow_mul_add _ hf]
  split
  · rfl
  · rw [Nat.testBit_two_pow_sub_one]
    exact decide_eq_true (by omega)

/-- BFX gives the field, under a signed TY with copies of its top bit above it (R109). -/
theorem ivBfx_bits (ha : t.Fits a) (c : W64) : BitsAre t (ivBfx t a c) fun k =>
    if k < ctlLen t c then a.getLsbD (ctlPos c + k)
    else t.signed && decide (0 < ctlLen t c) && a.getLsbD (ctlPos c + ctlLen t c - 1) := by
  have hle : ctlLen t c ≤ t.bitsW := min_le_right _ _
  have hlow (k : Nat) (hk : k < ctlLen t c) : (field a (ctlPos c) (ctlLen t c)).testBit k = a.getLsbD (ctlPos c + k) := by
    rw [field_testBit, decide_eq_true hk, Bool.true_and]
  have heq : ivBfx t a c = if ctlLen t c = 0 then 0
      else if t.signed = true ∧ 2 ^ (ctlLen t c - 1) ≤ field a (ctlPos c) (ctlLen t c) then
        t.wrap ((field a (ctlPos c) (ctlLen t c) : Int) - (2 ^ ctlLen t c : Nat))
      else BitVec.ofNat 64 (field a (ctlPos c) (ctlLen t c)) := by
    simp only [ivBfx, ctlPos_eq, ctlLen_eq, ha.cut, field, beq_iff_eq, Bool.and_eq_true, decide_eq_true_eq]
    rfl
  rw [heq]
  split
  case isTrue h0 =>
    intro k
    simp [h0]
  case isFalse h0 =>
    have htop := field_top a (ctlPos c) (ctlLen t c) (by omega)
    split
    case isTrue hneg =>
      obtain ⟨hs, hge⟩ := hneg
      refine (wrap_negative_bits (field_lt ..) hle).congr fun k _ => ?_
      split
      case isTrue hk => exact hlow k hk
      case isFalse => simp [hs, htop.mp hge, show 0 < ctlLen t c by omega]
    case isFalse hpos =>
      refine (bitsAre_ofNat (lt_of_lt_of_le (field_lt ..) (Nat.pow_le_pow_right (by omega) hle))).congr fun k _ => ?_
      split
      case isTrue hk => exact hlow k hk
      case isFalse hk =>
        rw [field_testBit, decide_eq_false hk, Bool.false_and]
        rw [htop] at hpos
        cases hs : t.signed <;> simp_all

/-- BFI gives a with the field replaced by the low bits of b (R109). -/
theorem ivBfi_bits (t : Ty) (a b c : W64) : BitsAre t (ivBfi t a b c) fun k =>
    if ctlPos c ≤ k ∧ k < ctlPos c + ctlLen t c then b.getLsbD (k - ctlPos c) else a.getLsbD k := by
  unfold ivBfi
  rw [ctlPos_eq, ctlLen_eq]
  refine (bitsAre_ofNat (foldl_pow_lt _ _)).congr fun k hk => ?_
  rw [foldl_pow_testBit, decide_eq_true hk]
  simp

end Sys2Proof

namespace Sys2Proof.Machine

/-- Settles O12: the bits of BFX's field and its extension, and BFI's bits place by place. -/
theorem bitFieldsComplete : Obligations.BitFieldsComplete := by
  unfold Obligations.BitFieldsComplete
  exact fun s f => ⟨int2_completes (exec_bfx s f) fun x l => ivBfx_bits (x.o.left.atTy_fits f.ty l) _,
    int3_completes (exec_bfi s f) fun x l => ivBfi_bits f.ty _ _ _⟩

end Sys2Proof.Machine
end

section
/-! SUPPORT. Comparisons, LEA, and values of packed halves and bytes (R110 to R114). -/
namespace Sys2Proof

/-- The condition of CMP as a proposition (R110). -/
theorem Cond.holds_iff (c : Cond) (a b : Int) : c.holds a b = true ↔ CondHolds c a b := by
  cases c <;> simp [Cond.holds, CondHolds]

/-- CMP gives 1 where its condition holds and 0 where it does not (R110). -/
theorem ivCmp_value (c : Cond) (t : Ty) (a b : W64) :
    (CondHolds c (t.int a) (t.int b) → ivCmp c t a b = 1) ∧ (¬ CondHolds c (t.int a) (t.int b) → ivCmp c t a b = 0) := by
  rw [← Cond.holds_iff]
  refine ⟨fun h => if_pos h, fun h => if_neg h⟩

/-- LEA adds the index, shifted, to the base (R111). -/
theorem ivLea_value (t : Ty) (sh : BitVec 3) (a b : W64) : FitsTo t false (t.int a + t.int b * 2 ^ sh.toNat) (ivLea t sh a b) := by
  have h := t.fit_fits false (t.int a + t.int b * (2 ^ sh.toNat : Nat))
  rw [← ivLea, Nat.cast_pow, Nat.cast_ofNat] at h
  exact h

/-- PK2 sets the low half of b above the low half of a (R112). -/
theorem ivPk2_value (t : Ty) (a b : W64) : (ivPk2 t a b).toNat =
    b.toNat % 2 ^ (t.bitsW / 2) * 2 ^ (t.bitsW / 2) + a.toNat % 2 ^ (t.bitsW / 2) := by
  unfold ivPk2
  cases h : t.wide
  · rw [Ty.bitsW_narrow h, if_neg Bool.false_ne_true, BitVec.toNat_setWidth, append_toNat]
    simp only [BitVec.toNat_setWidth]
    omega
  · rw [Ty.bitsW_wide h, if_pos rfl, append_toNat]
    simp only [BitVec.toNat_setWidth]

/-- EXH of a word gives bits [63:32] (R112). -/
theorem ivExh_word (t : Ty) (a : W64) : (ivExh false t a).toNat = a.toNat / 2 ^ 32 := by
  have := a.isLt
  simp only [ivExh, Bool.false_eq_true, if_false, BitVec.toNat_setWidth, slice_toNat]
  omega

/-- EXH of a half gives bits [31:16], extended as TY's sign asks (R112). -/
theorem ivExh_half (t : Ty) (a : W64) : BitsAre .n32 (ivExh true t a) fun k =>
    if k < 16 then (a.extractLsb' 16 16).getLsbD k else t.signed && (a.extractLsb' 16 16).getLsbD 15 := by
  refine (Ty.n32.fits_setWidth _).bitsAre fun k hk => ?_
  have hk : k < 32 := hk
  rw [BitVec.getLsbD_setWidth, decide_eq_true (by omega), Bool.true_and]
  cases t.signed
  · rw [if_neg Bool.false_ne_true, BitVec.getLsbD_setWidth, decide_eq_true hk, Bool.true_and]
    split
    · rfl
    · rw [Bool.false_and]
      exact BitVec.getLsbD_of_ge _ _ (by omega)
  · rw [if_pos rfl, BitVec.getLsbD_signExtend, decide_eq_true hk, Bool.true_and, BitVec.msb_eq_getLsbD_last, Bool.true_and]

/-- The low half of a value made of two. -/
theorem halves_low (f : W16 → W16 → W16) (a b : W64) :
    (halves f a b).extractLsb' 0 16 = f (a.extractLsb' 0 16) (b.extractLsb' 0 16) := by
  apply BitVec.eq_of_toNat_eq
  rw [slice_toNat, halves, BitVec.toNat_setWidth, append_toNat]
  omega

/-- The high half of a value made of two. -/
theorem halves_high (f : W16 → W16 → W16) (a b : W64) :
    (halves f a b).extractLsb' 16 16 = f (a.extractLsb' 16 16) (b.extractLsb' 16 16) := by
  apply BitVec.eq_of_toNat_eq
  rw [slice_toNat, halves, BitVec.toNat_setWidth, append_toNat]
  omega

/-- A value of two halves has 32 bits. -/
theorem halves_lt (f : W16 → W16 → W16) (a b : W64) : (halves f a b).toNat < 2 ^ 32 := by
  rw [halves, BitVec.toNat_setWidth]
  omega

/-- An integer of a half's range is what its 16 bits read as (R113). -/
theorem halfInt_ofInt (signed : Bool) {i : Int} (h1 : (if signed then -32768 else 0) ≤ i) (h2 : i ≤ if signed then 32767 else 65535) :
    halfInt signed (BitVec.ofInt 16 i) = i := by
  cases signed
  · simp only [halfInt, Bool.false_eq_true, if_false, BitVec.toNat_ofInt] at *
    omega
  · simp only [halfInt, if_true, BitVec.toInt_ofInt, Int.bmod] at *
    omega

/-- A half held to its range reads as the clamped integer (R113). -/
theorem halfInt_clamp (signed : Bool) (i : Int) :
    halfInt signed (BitVec.ofInt 16 (clampInt (if signed then -32768 else 0) (if signed then 32767 else 65535) i)) =
      max (if signed then -32768 else 0) (min (if signed then 32767 else 65535) i) := by
  rw [clampInt_eq _ _ _ (by cases signed <;> decide)]
  refine halfInt_ofInt signed ?_ ?_ <;> cases signed <;> simp

/-- The integer of a half, taken modulo 2^16, is the half (R113). -/
theorem ofInt_halfInt (signed : Bool) (x : W16) : BitVec.ofInt 16 (halfInt signed x) = x := by
  cases signed <;> simp [halfInt]

/-- The distance of two halves fits a half (R113). -/
theorem halfInt_sub_lt (signed : Bool) (x y : W16) : (halfInt signed x - halfInt signed y).natAbs < 2 ^ 16 := by
  have hx := x.isLt
  have hy := y.isLt
  cases signed
  · simp only [halfInt, Bool.false_eq_true, if_false]
    omega
  · simp only [halfInt, if_true, BitVec.toInt_eq_toNat_bmod, Int.bmod]
    omega

/-- One half of HOP, operation by operation (R113). -/
theorem hopHalf_value (signed : Bool) (op : HopOp) (sat : Bool) (x y : W16) : HalfIs signed op sat x y (hopHalf signed op sat x y) := by
  cases op with
  | add =>
    cases sat
    · change BitVec.ofInt 16 (halfInt signed x + halfInt signed y) = x + y
      rw [BitVec.ofInt_add, ofInt_halfInt, ofInt_halfInt]
    · exact halfInt_clamp signed _
  | sub =>
    cases sat
    · change BitVec.ofInt 16 (halfInt signed x - halfInt signed y) = x - y
      rw [Int.sub_eq_add_neg, BitVec.ofInt_add, BitVec.ofInt_neg, ofInt_halfInt, ofInt_halfInt, BitVec.sub_eq_add_neg]
    · exact halfInt_clamp signed _
  | min =>
    change halfInt signed (if halfInt signed x ≤ halfInt signed y then x else y) = min (halfInt signed x) (halfInt signed y)
    split <;> omega
  | max =>
    change halfInt signed (if halfInt signed x ≤ halfInt signed y then y else x) = max (halfInt signed x) (halfInt signed y)
    split <;> omega
  | absd =>
    have := halfInt_sub_lt signed x y
    change (BitVec.ofNat 16 (halfInt signed x - halfInt signed y).natAbs).toNat = (halfInt signed x - halfInt signed y).natAbs
    rw [BitVec.toNat_ofNat, Nat.mod_eq_of_lt this]

/-- HOP computes each half apart (R113). -/
theorem ivHop_value (signed : Bool) (op : HopOp) (sat : Bool) (a b : W64) : (ivHop signed op sat a b).toNat < 2 ^ 32 ∧
    HalfIs signed op sat (a.extractLsb' 0 16) (b.extractLsb' 0 16) ((ivHop signed op sat a b).extractLsb' 0 16) ∧
    HalfIs signed op sat (a.extractLsb' 16 16) (b.extractLsb' 16 16) ((ivHop signed op sat a b).extractLsb' 16 16) := by
  rw [ivHop, halves_low, halves_high]
  exact ⟨halves_lt .., hopHalf_value .., hopHalf_value ..⟩

/-- DP4 adds the four byte products to c, and fits the sum once (R114). -/
theorem ivDp4_value (ls rs sat : Bool) (a b c : W64) : FitsTo .i32 sat (Ty.i32.int c + byteInt ls a 0 * byteInt rs b 0 +
    byteInt ls a 1 * byteInt rs b 1 + byteInt ls a 2 * byteInt rs b 2 + byteInt ls a 3 * byteInt rs b 3) (ivDp4 ls rs sat a b c) :=
  Ty.i32.fit_fits sat _

end Sys2Proof

namespace Sys2Proof.Machine

/-- Settles O13: each instruction's value is the one its rule gives. -/
theorem comparisonsAndPackedComplete : Obligations.ComparisonsAndPackedComplete := by
  unfold Obligations.ComparisonsAndPackedComplete
  intro s f
  exact ⟨fun k => int2_completes (exec_cmp s k f) fun x l => ivCmp_value .., fun sh => int2_completes (exec_lea s sh f) fun x l => ivLea_value ..,
    int2_completes (exec_pk2 s f) fun x l => ivPk2_value .., intOp_completes (exec_exh s false f) fun x l => ivExh_word ..,
    intOp_completes (exec_exh s true f) fun x l => ivExh_half f.ty _, fun sg op => int2_completes (exec_hop s sg op f) fun x l => ivHop_value ..,
    fun ls rs => int3_completes (exec_dp4 s ls rs f) fun x l => ivDp4_value ..⟩

end Sys2Proof.Machine
end

section
/-! SUPPORT. The addresses of the addressing modes, and those they deliver (R115 to R118). -/
namespace Sys2Proof

/-- A 32-bit operand is zero-extended (R115). -/
theorem Token.full_narrow {k : Token} (h : k.wide = false) (l : Nat) : k.full l = (k.val32 l).setWidth 64 := by
  simp [Token.full, h]

/-- A value sign-extended to 64 bits has its own sign extension in the low 32. -/
theorem setWidth_signExtend {n : Nat} (v : BitVec n) : (v.signExtend 64).setWidth 32 = v.signExtend 32 := by
  refine BitVec.eq_of_getLsbD_eq fun k hk => ?_
  rw [BitVec.getLsbD_setWidth, BitVec.getLsbD_signExtend, BitVec.getLsbD_signExtend]
  simp [hk, show k < 64 by omega]

/-- Widened either way, a value's low 32 bits are its own (R86). -/
theorem Token.to64_setWidth (k : Token) (signed : Bool) (l : Nat) : (k.to64 signed l).setWidth 32 = k.val32 l := by
  unfold Token.to64
  split
  · rfl
  · split
    · rw [setWidth_signExtend, BitVec.signExtend_eq]
    · simp

end Sys2Proof

namespace Sys2Proof.Machine

variable (imm : BitVec 14) (n : Nat) (o : Opnds) (l : Nat)

/-- Base and IMM14 in the scratchpad, taken in 32 bits (R115). -/
theorem laneAddr_spad_base : laneAddr true .base imm n o l = (o.left.val32 l + imm.signExtend 32).setWidth 64 := by
  simp [laneAddr, laneBase, BitVec.setWidth_add, setWidth_signExtend]

/-- Base and index times width in the scratchpad, taken in 32 bits (R115, R117). -/
theorem laneAddr_spad_indexed :
    laneAddr true .indexed imm n o l = (o.left.val32 l + o.right.val32 l * BitVec.ofNat 32 n).setWidth 64 := by
  simp [laneAddr, laneBase, BitVec.setWidth_add, BitVec.setWidth_mul, Token.to64_setWidth, BitVec.setWidth_ofNat_of_le]

/-- The operand alone in the scratchpad, under AM 01 and AM 10 (R117). -/
theorem laneAddr_spad_operand {am : Am} (h : am = .postInc ∨ am = .modulo) :
    laneAddr true am imm n o l = (o.left.val32 l).setWidth 64 := by
  rcases h with rfl | rfl <;> simp [laneAddr, laneBase]

variable {imm} {m : List (W32 × W32)} {a : W64} {base len : W32}

/-- Under AM 10 with a LEN, the address delivered lies in the ring, at the remainder of the operand's offset and the increment (R118). -/
theorem nextAddr_ring (hm : m.getD (imm.extractLsb' 11 3).toNat (0, 0) = (base, len)) (hlen : len ≠ 0) :
    ((nextAddr .modulo imm m a).toNat : Int) =
        base.toNat + ((a.toNat : Int) - base.toNat + (imm.extractLsb' 0 11).toInt) % len.toNat ∧
      base.toNat ≤ (nextAddr .modulo imm m a).toNat ∧ (nextAddr .modulo imm m a).toNat < base.toNat + len.toNat := by
  have hpos : (0 : Int) < len.toNat := by
    have : len.toNat ≠ 0 := fun h => hlen (BitVec.eq_of_toNat_eq h)
    omega
  have hlo := Int.emod_nonneg ((a.toNat : Int) - base.toNat + (imm.extractLsb' 0 11).toInt) (ne_of_gt hpos)
  have hhi := Int.emod_lt_of_pos ((a.toNat : Int) - base.toNat + (imm.extractLsb' 0 11).toInt) hpos
  have hb := base.isLt
  have hl := len.isLt
  have hv : ((nextAddr .modulo imm m a).toNat : Int) =
      base.toNat + ((a.toNat : Int) - base.toNat + (imm.extractLsb' 0 11).toInt) % len.toNat := by
    simp only [nextAddr, hm, beq_iff_eq, hlen, if_false, BitVec.toNat_ofInt, Int.fmod_eq_emod_of_nonneg _ hpos.le]
    omega
  exact ⟨hv, by omega, by omega⟩

/-- It is congruent to the operand and the increment, modulo LEN (R118). -/
theorem nextAddr_ring_congr (hm : m.getD (imm.extractLsb' 11 3).toNat (0, 0) = (base, len)) (hlen : len ≠ 0) :
    (((nextAddr .modulo imm m a).toNat : Int) - (a.toNat + (imm.extractLsb' 0 11).toInt)) % len.toNat = 0 := by
  have hv := (nextAddr_ring (a := a) hm hlen).1
  have hdiff : ((nextAddr .modulo imm m a).toNat : Int) - (a.toNat + (imm.extractLsb' 0 11).toInt) =
      ((a.toNat : Int) - base.toNat + (imm.extractLsb' 0 11).toInt) % len.toNat -
        ((a.toNat : Int) - base.toNat + (imm.extractLsb' 0 11).toInt) := by omega
  rw [hdiff, Int.sub_emod, Int.emod_emod, sub_self, Int.zero_emod]

/-- Under AM 10 with LEN 0 the operand is raised by the increment (R118). -/
theorem nextAddr_noRing (hm : m.getD (imm.extractLsb' 11 3).toNat (0, 0) = (base, 0)) :
    nextAddr .modulo imm m a = a + (imm.extractLsb' 0 11).signExtend 64 := by
  simp only [nextAddr, hm]
  rfl

/-- On a lane of the valid result a delivered address is that of its mode, in TY's width or the scratchpad's (R86, R117, log 16). -/
theorem nextTok_val (i : Instr) (f : MemF) (spad : Bool) (x : Issue) {l : Nat} (hl : l < 32) (hok : (okLanes i x.o).getLsbD l = true) :
    (nextTok i f spad x).val l =
      if spad || !f.ty.wide then ((nextAddr f.am f.imm x.warp.m (laneBase spad x.o l)).setWidth 32).setWidth 64
      else nextAddr f.am f.imm x.warp.m (laneBase spad x.o l) :=
  Token.lanes_val _ _ hl hok

/-- Settles O25: the modes one by one; AM 10's ring by the remainder of the integer division. -/
theorem addressingModes : Obligations.AddressingModes := by
  unfold Obligations.AddressingModes
  refine ⟨fun imm n o l => ⟨rfl, rfl, rfl, fun h => ?_, fun h => ?_, fun h => Token.full_narrow h l, laneAddr_spad_base imm n o l,
    laneAddr_spad_operand imm n o l (.inl rfl), laneAddr_spad_operand imm n o l (.inr rfl), laneAddr_spad_indexed imm n o l⟩,
    fun imm m a => rfl, fun imm m a base hm => nextAddr_noRing hm, fun imm m a base len hm hlen => ?_,
    fun i f spad x got h => ?_, fun i f spad x l hl hok => ⟨hok, rfl, fun hs hw => ?_, fun hs hw => ?_, fun hs => ?_⟩⟩
  · simp [laneAddr, laneBase, Token.to64, h]
  · simp [laneAddr, laneBase, Token.to64, h]
  · obtain ⟨_, hlo, hhi⟩ := nextAddr_ring (a := a) hm hlen
    exact ⟨hlo, hhi, nextAddr_ring_congr hm hlen⟩
  · rcases h with h | h <;> simp [loadToks, h]
  · subst hs
    simp [nextTok_val i f false x hl hok, hw, laneBase]
  · subst hs
    simp [Token.val32, nextTok_val i f false x hl hok, hw, laneBase]
  · subst hs
    simp [Token.val32, nextTok_val i f true x hl hok, laneBase]

end Sys2Proof.Machine
end

section
/-! SUPPORT. The page walk and the TLBs (R259 to R262). -/
namespace Sys2Proof.Machine

variable {s : State} {va fuel lvl base : Nat}

/-! ### The walk (R260, R261) -/

/-- Where a walk reads the entry of its level (R260). -/
def entryAt (va lvl base : Nat) : Nat := base + 8 * (va / 2 ^ (levelBits lvl).1 % 2 ^ (levelBits lvl).2)

/-- The entry that it reads there. -/
def State.entry (s : State) (va lvl base : Nat) : Nat := leNat (s.sysRead (entryAt va lvl base) 8)

/-- The address in an entry (R261). -/
def entryAddr (e : Nat) : Nat := e / 256 % 2 ^ 44 * 256

/-- A leaf that maps a peer window under the bring-up service (R378). -/
def State.peerLeaf (s : State) (e : Nat) : Bool := s.fw.bringUp && e.testBit 1 && isPeer (entryAddr e)

/-- A poisoned entry ends the walk (R362, log 58). -/
theorem State.walkFrom_poisoned {k : Nat} (h : s.sysMark (entryAt va lvl base) 8 = some k) :
    s.walkFrom va (fuel + 1) lvl base = (.poisoned (entryAt va lvl base) k, 0) := by
  simp only [entryAt] at h ⊢
  simp only [State.walkFrom, h]

/-- An entry that is not poisoned, by its V bit, its form and its L bit (R261). -/
theorem State.walkFrom_clean (h : s.sysMark (entryAt va lvl base) 8 = none) : s.walkFrom va (fuel + 1) lvl base =
    if !(s.entry va lvl base).testBit 0 then (.absent, 0)
    else if pteBad lvl (s.entry va lvl base) || s.peerLeaf (s.entry va lvl base) then (.bad 2, 0)
    else if (s.entry va lvl base).testBit 1 then
      (.page (entryAddr (s.entry va lvl base) + va % 2 ^ (levelBits lvl).1) ((s.entry va lvl base).testBit 2)
        ((s.entry va lvl base).testBit 3) (s.entry va lvl base / 16 % 4 == 1), (levelBits lvl).1)
    else s.walkFrom va fuel (lvl + 1) (entryAddr (s.entry va lvl base)) := by
  unfold entryAt at h
  simp only [State.walkFrom, h]
  rfl

/-- V = 0: a recoverable page fault (R261, R264). -/
theorem State.walkFrom_absent (h : s.sysMark (entryAt va lvl base) 8 = none) (hv : (s.entry va lvl base).testBit 0 = false) :
    s.walkFrom va (fuel + 1) lvl base = (.absent, 0) := by
  simp [State.walkFrom_clean h, hv]

section Present
variable (h : s.sysMark (entryAt va lvl base) 8 = none) (hv : (s.entry va lvl base).testBit 0 = true)
include h hv

/-- A malformed entry, or a leaf that the bring-up service refuses: cause 2 (R261, R263, R378). -/
theorem State.walkFrom_malformed (hform : pteBad lvl (s.entry va lvl base) = true ∨ s.peerLeaf (s.entry va lvl base) = true) :
    s.walkFrom va (fuel + 1) lvl base = (.bad 2, 0) := by
  simp [State.walkFrom_clean h, hv, hform]

variable (hwell : pteBad lvl (s.entry va lvl base) = false) (hpeer : s.peerLeaf (s.entry va lvl base) = false)
include hwell hpeer

/-- A leaf: its page, with the address bits below its size (R261). -/
theorem State.walkFrom_leaf (hleaf : (s.entry va lvl base).testBit 1 = true) : s.walkFrom va (fuel + 1) lvl base =
    (.page (entryAddr (s.entry va lvl base) + va % 2 ^ (levelBits lvl).1) ((s.entry va lvl base).testBit 2)
      ((s.entry va lvl base).testBit 3) (s.entry va lvl base / 16 % 4 == 1), (levelBits lvl).1) := by
  simp [State.walkFrom_clean h, hv, hwell, hpeer, hleaf]

/-- The next table (R260). -/
theorem State.walkFrom_next (hleaf : (s.entry va lvl base).testBit 1 = false) :
    s.walkFrom va (fuel + 1) lvl base = s.walkFrom va fuel (lvl + 1) (entryAddr (s.entry va lvl base)) := by
  simp [State.walkFrom_clean h, hv, hwell, hpeer, hleaf]

end Present

/-- A leaf of a well-formed entry lies at a multiple of its page's size (R261). -/
theorem pteBad_leaf_aligned {e : Nat} (h : pteBad lvl e = false) (hleaf : e.testBit 1 = true) :
    entryAddr e % 2 ^ (levelBits lvl).1 = 0 := by
  simp only [pteBad, hleaf, if_true, Bool.or_eq_false_iff, bne_eq_false_iff_eq] at h
  exact h.1.2

/-- The page that a walk finds keeps the bits of the address below its size (R261). -/
theorem State.walkFrom_page_offset {pa bits : Nat} {w x nc : Bool} (h : s.walkFrom va fuel lvl base = (.page pa w x nc, bits)) :
    pa % 2 ^ bits = va % 2 ^ bits := by
  induction fuel generalizing lvl base with
  | zero => simp [State.walkFrom] at h
  | succ fuel ih =>
    cases hm : s.sysMark (entryAt va lvl base) 8 with
    | some k => simp [State.walkFrom_poisoned hm] at h
    | none =>
      rw [State.walkFrom_clean hm] at h
      split at h
      · simp at h
      · split at h
        · simp at h
        case isFalse hform =>
          split at h
          case isTrue hleaf =>
            obtain ⟨hpage, rfl⟩ := Prod.mk.inj h
            injection hpage with hpa
            have hbad : pteBad lvl (s.entry va lvl base) = false := (Bool.or_eq_false_iff.mp (Bool.eq_false_iff.mpr hform)).1
            rw [← hpa, Nat.add_mod, pteBad_leaf_aligned hbad hleaf, Nat.zero_add, Nat.mod_mod, Nat.mod_mod]
          case isFalse => exact ih h

/-- A context's walk too. -/
theorem State.walk_page_offset {ctx pa bits : Nat} {w x nc : Bool} (h : s.walk ctx va = (.page pa w x nc, bits)) :
    pa % 2 ^ bits = va % 2 ^ bits := by
  unfold State.walk at h
  split at h
  · exact State.walkFrom_page_offset h
  · simp at h

/-- What makes an entry malformed (R261). -/
theorem pteBad_iff {e : Nat} (hlvl : lvl < 4) : pteBad lvl e = true ↔
    2 ^ 52 ≤ e ∨ e / 64 % 4 ≠ 0 ∨ 2 ≤ e / 16 % 4 ∨ (lvl = 0 ∧ e.testBit 1 = true) ∨ (lvl = 3 ∧ ¬ e.testBit 1 = true) ∨
      (e.testBit 1 = true ∧ entryAddr e % 2 ^ (levelBits lvl).1 ≠ 0) ∨
      (¬ e.testBit 1 = true ∧ entryAddr e % (if lvl = 2 then 256 else 4096) ≠ 0) ∨
      (e.testBit 1 = true ∧ 0x8000000000 ≤ entryAddr e ∧ entryAddr e < 0x4000000000000) ∨
      (e.testBit 1 = true ∧ 0x8000000000 ≤ entryAddr e ∧ e / 16 % 4 = 0) ∨ (¬ e.testBit 1 = true ∧ 0x8000000000 ≤ entryAddr e) := by
  cases hleaf : e.testBit 1
  · interval_cases lvl <;> simp [pteBad, hleaf, isHbm, entryAddr, or_assoc]
  · simp [pteBad, hleaf, isHbm, entryAddr, or_assoc]

/-! ### The TLBs (R262) -/

/-- A core's own entry for an address; the memory side has none. -/
def State.l1Hit (s : State) (core : Option Nat) (ctx va : Nat) : Option TlbEnt :=
  core.bind fun c => (s.core c).tlb.find? fun e => e.covers ctx va

/-- The number of the TLB behind a core's own: its die's, or the memory side's. -/
def tlbDie (core : Option Nat) : Nat := (core.map dieOf).getD 4

/-- An entry for an address in the TLB of a die or of the memory side. -/
def State.l2Hit (s : State) (die ctx va : Nat) : Option (Nat × TlbEnt) := s.tlb2.find? fun p => p.1 == die && p.2.covers ctx va

/-- The entry that caches a leaf. -/
def leafEnt (ctx va pa bits : Nat) (w x nc : Bool) : TlbEnt :=
  { ctx := ctx, va := va / 2 ^ bits * 2 ^ bits, bits := bits, pa := pa / 2 ^ bits * 2 ^ bits, w := w, x := x, nc := nc }

/-- A core with a leaf at the head of its TLB. -/
def Core.withLeaf (e : TlbEnt) (k : Core) : Core := { k with tlb := (e :: k.tlb).take 128 }

/-- A leaf cached in a core's TLB. -/
def State.cacheL1 (s : State) (e : TlbEnt) (c : Nat) : State := (s.setCore c (Core.withLeaf e)).tlbOut ((s.core c).tlb.drop 127)

/-- A leaf cached in the TLB of a die or of the memory side. -/
def State.cacheL2 (s : State) (e : TlbEnt) (die : Nat) : State :=
  let p := s.tlb2.partition fun p => p.1 == die
  ({ s with tlb2 := ((die, e) :: p.1).take 16384 ++ p.2 } : State).tlbOut ((p.1.drop 16383).map fun p => p.2)

/-- A leaf cached on its way to whom it was translated for. -/
def State.cacheLeaf (s : State) (e : TlbEnt) (core : Option Nat) : State := (core.elim s (s.cacheL1 e)).cacheL2 e (tlbDie core)

section Translate
variable {core : Option Nat} {ctx : Nat} {a : W64}

/-- An address with bits [63:54] is refused (R259). -/
theorem State.translate_beyond (h : 2 ^ 54 ≤ a.toNat) : s.translate core ctx a = (s, .bad 1) := by
  unfold State.translate
  exact if_pos h

variable (ha : a.toNat < 2 ^ 54)
include ha

/-- An entry of the core's own TLB translates (R262). -/
theorem State.translate_l1 {e : TlbEnt} (h : s.l1Hit core ctx a.toNat = some e) : s.translate core ctx a = (s, e.xl a.toNat) := by
  unfold State.translate
  simp only [if_neg (Nat.not_le.mpr ha)]
  cases core with
  | none => simp [State.l1Hit] at h
  | some c =>
    have hfind : ((s.core c).tlb.find? fun e => e.covers ctx a.toNat) = some e := h
    simp only [hfind]

variable (h1 : s.l1Hit core ctx a.toNat = none)
include h1

/-- Else an entry of the TLB behind does. -/
theorem State.translate_l2 {p : Nat × TlbEnt} (h : s.l2Hit (tlbDie core) ctx a.toNat = some p) :
    s.translate core ctx a = (s, p.2.xl a.toNat) := by
  unfold State.translate
  simp only [if_neg (Nat.not_le.mpr ha)]
  unfold State.l2Hit tlbDie at h
  cases core with
  | none => simp only [h]
  | some c =>
    have hfind : ((s.core c).tlb.find? fun e => e.covers ctx a.toNat) = none := h1
    simp only [hfind, h]

variable (h2 : s.l2Hit (tlbDie core) ctx a.toNat = none)
include h2

/-- Else the walk does, and a leaf it finds is cached. -/
theorem State.translate_page {pa bits : Nat} {w x nc : Bool} (h : s.walk ctx a.toNat = (.page pa w x nc, bits)) :
    s.translate core ctx a = ((s.walkFix ctx a.toNat).cacheLeaf (leafEnt ctx a.toNat pa bits w x nc) core, .page pa w x nc) := by
  unfold State.translate
  simp only [if_neg (Nat.not_le.mpr ha)]
  unfold State.l2Hit tlbDie at h2
  cases core with
  | none =>
    simp only [h2, h]
    rfl
  | some c =>
    have hfind : ((s.core c).tlb.find? fun e => e.covers ctx a.toNat) = none := h1
    simp only [hfind, h2, h]
    rfl

/-- What it finds, leaf or none, is what the translation gives. -/
theorem State.translate_walk : (s.translate core ctx a).2 = (s.walk ctx a.toNat).1 := by
  rcases hr : s.walk ctx a.toNat with ⟨r, bits⟩
  unfold State.translate
  simp only [if_neg (Nat.not_le.mpr ha)]
  unfold State.l2Hit tlbDie at h2
  cases core with
  | none =>
    simp only [h2, hr]
    cases r <;> rfl
  | some c =>
    have hfind : ((s.core c).tlb.find? fun e => e.covers ctx a.toNat) = none := h1
    simp only [hfind, h2, hr]
    cases r <;> rfl

end Translate

/-! ### A translation made again (R262) -/

section Again
variable {core : Option Nat} {ctx pa bits : Nat} {a : W64} {w x nc : Bool}

/-- Entries given up change no core and no TLB. -/
@[simp] theorem State.tlbOut_cores (s : State) (es : List TlbEnt) : (s.tlbOut es).cores = s.cores := by
  unfold State.tlbOut
  split <;> rfl

@[simp] theorem State.tlbOut_tlb2 (s : State) (es : List TlbEnt) : (s.tlbOut es).tlb2 = s.tlb2 := by
  unfold State.tlbOut
  split <;> rfl

/-- The entry that caches a leaf covers the address translated. -/
theorem leafEnt_covers : (leafEnt ctx va pa bits w x nc).covers ctx va = true := by
  simp [TlbEnt.covers, leafEnt, Nat.div_mul_le_self, Nat.lt_div_mul_add]

/-- It gives the leaf's page (R261). -/
theorem leafEnt_xl (h : pa % 2 ^ bits = va % 2 ^ bits) : (leafEnt ctx va pa bits w x nc).xl va = .page pa w x nc := by
  have hva := Nat.div_add_mod va (2 ^ bits)
  have hpa := Nat.div_add_mod pa (2 ^ bits)
  rw [Nat.mul_comm] at hva hpa
  simp only [TlbEnt.xl, leafEnt, Xl.page.injEq, and_true]
  omega

/-- A core that is none of the machine's has no entry. -/
theorem State.core_none {c : Nat} (h : s.cores.length ≤ c) : s.core c = Core.reset := by
  simp [State.core, h]

/-- A leaf just cached is found first in the core's own TLB, where the core is one of the machine's. -/
theorem State.cacheLeaf_l1Hit {e : TlbEnt} (h : e.covers ctx va = true) :
    (s.cacheLeaf e core).l1Hit core ctx va = some e ∨ (s.cacheLeaf e core).l1Hit core ctx va = none := by
  cases core with
  | none => exact .inr rfl
  | some c =>
    have hcore : (s.cacheLeaf e (some c)).core c = (s.setCore c (Core.withLeaf e)).core c := by
      simp [State.core, State.cacheLeaf, State.cacheL2, State.cacheL1]
    by_cases hc : c < s.cores.length
    · refine .inl ?_
      simp [State.l1Hit, hcore, State.core_setCore hc, Core.withLeaf, h]
    · refine .inr ?_
      have hnone : (s.setCore c (Core.withLeaf e)).core c = Core.reset := State.core_none (by simpa [State.setCore] using hc)
      simp [State.l1Hit, hcore, hnone, Core.reset]

/-- It is found first in the TLB behind. -/
theorem State.cacheLeaf_l2Hit {e : TlbEnt} (h : e.covers ctx va = true) :
    (s.cacheLeaf e core).l2Hit (tlbDie core) ctx va = some (tlbDie core, e) := by
  simp [State.l2Hit, State.cacheLeaf, State.cacheL2, h]

/-- A translation that gives a page gives it again, from a TLB (R262). -/
theorem State.translate_again {t : State} (h : s.translate core ctx a = (t, .page pa w x nc)) :
    t.translate core ctx a = (t, .page pa w x nc) := by
  by_cases ha : a.toNat < 2 ^ 54
  case neg =>
    rw [State.translate_beyond (by omega)] at h
    simp at h
  case pos =>
    cases h1 : s.l1Hit core ctx a.toNat with
    | some e =>
      have he := State.translate_l1 ha h1
      obtain rfl : s = t := congrArg Prod.fst (he.symm.trans h)
      exact h
    | none =>
      cases h2 : s.l2Hit (tlbDie core) ctx a.toNat with
      | some p =>
        have he := State.translate_l2 ha h1 h2
        obtain rfl : s = t := congrArg Prod.fst (he.symm.trans h)
        exact h
      | none =>
        have hw : (s.walk ctx a.toNat).1 = .page pa w x nc := by rw [← State.translate_walk ha h1 h2, h]
        obtain ⟨bits, hwalk⟩ : ∃ bits, s.walk ctx a.toNat = (.page pa w x nc, bits) := ⟨_, Prod.ext hw rfl⟩
        obtain rfl : _ = t := congrArg Prod.fst ((State.translate_page ha h1 h2 hwalk).symm.trans h)
        have hxl := leafEnt_xl (ctx := ctx) (w := w) (x := x) (nc := nc) (State.walk_page_offset hwalk)
        have hcov := leafEnt_covers (ctx := ctx) (va := a.toNat) (pa := pa) (bits := bits) (w := w) (x := x) (nc := nc)
        rcases State.cacheLeaf_l1Hit hcov with hhit | hmiss
        · rw [State.translate_l1 ha hhit, hxl]
        · rw [State.translate_l2 ha hmiss (State.cacheLeaf_l2Hit hcov), hxl]

end Again

end Sys2Proof.Machine
end

section
/-! SUPPORT. What an access makes of its translation: a lane, a fetch, an engine's line, a message's ranges (R124, R259, R263 to R265). -/
namespace Sys2Proof.Machine

variable {s t : State}

/-- An address in HBM is in no window (R246). -/
theorem not_window_of_isHbm {pa : Nat} (h : isHbm pa = true) : (isHost pa || isPeer pa) = false := by
  simp only [isHbm, decide_eq_true_eq] at h
  simp only [isHost, isPeer, Bool.or_eq_false_iff, Bool.and_eq_false_iff, decide_eq_false_iff_not]
  omega

section Lane
variable {core ctx acc width : Nat} {hostOk : Bool} {c : Checked} {l : Nat} {va : W64}

/-- A misaligned lane takes cause 5 before any translation (R124, log 14). -/
theorem State.checkLane_misaligned (hc : c.bad = none) (h : va.toNat % width ≠ 0) :
    s.checkLane core ctx acc width hostOk c (l, va) = (s, { c with bad := some (5, l, va) }) := by
  simp [State.checkLane, h, hc]

variable (h : va.toNat % width = 0)
include h

/-- A lane whose translation is refused takes its cause (R263). -/
theorem State.checkLane_bad {k : Nat} (hc : c.bad = none) (ht : s.translate (some core) ctx va = (t, .bad k)) :
    s.checkLane core ctx acc width hostOk c (l, va) = (t, { c with bad := some (k, l, va) }) := by
  simp [State.checkLane, h, hc, ht]

/-- A lane on an absent page is noted, to park its warp (R264). -/
theorem State.checkLane_absent (hc : c.absent = none) (ht : s.translate (some core) ctx va = (t, .absent)) :
    s.checkLane core ctx acc width hostOk c (l, va) = (t, { c with absent := some (l, va) }) := by
  simp [State.checkLane, h, hc, ht]

variable {pa : Nat} {w x nc : Bool} (ht : s.translate (some core) ctx va = (t, .page pa w x nc))
include ht

/-- A write or an atomic needs a page with W (R263). -/
theorem State.checkLane_unwritable (hc : c.bad = none) (hw : w = false) (hacc : acc ≠ 0) :
    s.checkLane core ctx acc width hostOk c (l, va) = (t, { c with bad := some (3, l, va) }) := by
  simp [State.checkLane, h, hc, ht, hw, hacc]

/-- A lane whose page permits its access is translated (R263, R266). -/
theorem State.checkLane_page (hw : w = true ∨ acc = 0) (hplace : acc ≠ 2 ∨ isHbm pa = true ∨ hostOk = true) :
    s.checkLane core ctx acc width hostOk c (l, va) = (t, { c with accs := c.accs ++ [{ lane := l, va := va, pa := pa, nc := nc }] }) := by
  have hwrite : (acc != 0 && !w) = false := by rcases hw with rfl | rfl <;> simp
  have hwindow : (acc == 2 && (isHost pa || isPeer pa) && !hostOk) = false := by
    rcases hplace with hp | hp | hp
    · simp [hp]
    · simp [not_window_of_isHbm hp]
    · simp [hp]
  simp [State.checkLane, h, ht, hwrite, hwindow]

end Lane

section Line
variable {ctx src acc core warp : Nat} {of' : LineOf} {va : W64}

/-- With no line parked in the device, an engine's line is translated at the memory side (R265). -/
theorem State.lineAt_unparked (hq : s.faultQ = []) : s.isParked of' (va &&& ~~~127) = false ∧ s.unparkLine of' (va &&& ~~~127) = s := by
  simp [State.isParked, State.parked?, State.unparkLine, hq]

variable (hq : s.faultQ = [])
include hq

/-- A line on an absent page parks (R265). -/
theorem State.lineAt_absent (ht : s.translate none ctx va = (t, .absent)) :
    s.lineAt ctx src acc of' va core warp = (t.parkLine ctx src acc of' (va &&& ~~~127) core warp, .parked) := by
  obtain ⟨hparked, hun⟩ := State.lineAt_unparked (of' := of') (va := va) hq
  simp only [State.lineAt, hparked, hun, ht, Bool.false_eq_true, if_false]

/-- A line whose translation is refused fails with its cause (R300). -/
theorem State.lineAt_bad {k : Nat} (ht : s.translate none ctx va = (t, .bad k)) :
    s.lineAt ctx src acc of' va core warp = (t, .bad k) := by
  obtain ⟨hparked, hun⟩ := State.lineAt_unparked (of' := of') (va := va) hq
  simp only [State.lineAt, hparked, hun, ht, Bool.false_eq_true, if_false]

variable {pa : Nat} {w x nc : Bool} (ht : s.translate none ctx va = (t, .page pa w x nc))
include ht

/-- A line's page, by its W bit and its place (R263, R265). -/
theorem State.lineAt_page : s.lineAt ctx src acc of' va core warp =
    if acc != 0 && !w then (t, .bad 3) else if acc == 2 && (isHost pa || isPeer pa) then (t, .bad 7) else (t, .page pa nc) := by
  obtain ⟨hparked, hun⟩ := State.lineAt_unparked (of' := of') (va := va) hq
  simp only [State.lineAt, hparked, hun, ht, Bool.false_eq_true, if_false]

/-- A write or an atomic of a line needs a page with W (R263). -/
theorem State.lineAt_unwritable (hw : w = false) (hacc : acc ≠ 0) : s.lineAt ctx src acc of' va core warp = (t, .bad 3) := by
  simp [State.lineAt_page hq ht, hw, hacc]

/-- A line whose page permits its access is translated. -/
theorem State.lineAt_permitted (hw : w = true ∨ acc = 0) (hplace : acc ≠ 2 ∨ isHbm pa = true) :
    s.lineAt ctx src acc of' va core warp = (t, .page pa nc) := by
  have hwrite : (acc != 0 && !w) = false := by rcases hw with rfl | rfl <;> simp
  have hwindow : (acc == 2 && (isHost pa || isPeer pa)) = false := by
    rcases hplace with hp | hp
    · simp [hp]
    · simp [not_window_of_isHbm hp]
  simp [State.lineAt_page hq ht, hwrite, hwindow]

end Line

/-- A message of one range, no COLL, begins where the range ends within the address space (R259). -/
theorem State.beginning_one {m : Msg} {k : State → State} {r : W64 × Nat} (hop : m.op ≠ .coll) (hr : m.ranges 0 = [r]) :
    s.beginning m k = if 0 < r.2 ∧ 2 ^ 54 < r.1.toNat + r.2 then
      s.msgFault m (.bad 1) (if r.1.toNat < 2 ^ 54 then 0x40000000000000 else r.1) else k s := by
  have hg : (m.op == MsgOp.coll) = false := by simpa using hop
  by_cases h : 0 < r.2 ∧ 2 ^ 54 < r.1.toNat + r.2
  · have hfind : [r].find? (fun r => decide (0 < r.2) && decide (2 ^ 54 < r.1.toNat + r.2)) = some r :=
      List.find?_cons_of_pos (by simpa using h)
    simp only [State.beginning, hg, Bool.false_eq_true, if_false, hr, hfind, if_pos h]
  · have hfind : [r].find? (fun r => decide (0 < r.2) && decide (2 ^ 54 < r.1.toNat + r.2)) = none :=
      List.find?_cons_of_neg (by simpa using h)
    simp only [State.beginning, hg, Bool.false_eq_true, if_false, hr, hfind, if_neg h]

/-- Settles O28: the walk by the entry of its level, the TLBs by the entry just cached, each access by its translation. -/
theorem translationsAndTheirFaults : Obligations.TranslationsAndTheirFaults := by
  unfold Obligations.TranslationsAndTheirFaults
  refine ⟨fun s core ctx va h => State.translate_beyond h, ⟨rfl, rfl, rfl, rfl⟩, fun s va fuel lvl base => ⟨fun k hk => ?_, fun hk => ?_⟩,
    fun lvl e hlvl => pteBad_iff hlvl, fun s t core ctx va pa w x nc h => State.translate_again h, fun s core ctx c va hva hc h1 h2 => ?_,
    fun s t core ctx acc width hostOk c l va r hbad habs => ⟨fun h => State.checkLane_misaligned hbad h, fun h ht => ⟨fun k hr => ?_, fun hr => ?_,
      fun pa w x nc hr => ⟨fun hw hacc => ?_, fun hw hplace => ?_⟩⟩⟩,
    fun s t core ctx va pa w nc => ⟨fun ht => ?_, fun ht hm => ?_⟩,
    fun s t ctx src acc core warp of' va r hq ht => ⟨fun hr => ?_, fun k hr => ?_, fun pa w x nc hr => ⟨fun hw hacc => ?_, fun hw hplace => ?_⟩⟩,
    fun s m k r hop hr => ⟨fun hlen hend hbeg => ?_, fun hend => ?_⟩⟩
  · exact State.walkFrom_poisoned hk
  · exact ⟨fun hv => State.walkFrom_absent hk hv, fun hv hform => State.walkFrom_malformed hk hv hform, fun hv hwell hpeer =>
      ⟨fun hleaf => State.walkFrom_leaf hk hv hwell hpeer hleaf, fun hleaf => State.walkFrom_next hk hv hwell hpeer hleaf⟩⟩
  · have hl1 : s.l1Hit (some core) ctx va.toNat = none := List.find?_eq_none.mpr fun e he => by simp [h1 e he]
    have hl2 : s.l2Hit (tlbDie (some core)) ctx va.toNat = none := List.find?_eq_none.mpr fun p hp hcov => by
      rw [Bool.and_eq_true, beq_iff_eq] at hcov
      simp [h2 p hp hcov.1] at hcov
    rw [State.translate_walk hva hl1 hl2, State.walk, hc]
  · exact State.checkLane_bad h hbad (hr ▸ ht)
  · exact State.checkLane_absent h habs (hr ▸ ht)
  · exact State.checkLane_unwritable h (hr ▸ ht) hbad hw hacc
  · exact State.checkLane_page h (hr ▸ ht) hw hplace
  · simp [State.fetchWord, ht]
  · simp [State.fetchWord, ht, hm]
  · exact State.lineAt_absent hq (hr ▸ ht)
  · exact State.lineAt_bad hq (hr ▸ ht)
  · exact State.lineAt_unwritable hq (hr ▸ ht) hw hacc
  · exact State.lineAt_permitted hq (hr ▸ ht) hw hplace
  · rw [State.beginning_one hop hr, if_pos ⟨hlen, hend⟩, if_pos hbeg]
  · rw [State.beginning_one hop hr, if_neg (by omega)]

end Sys2Proof.Machine
end

section
/-! SUPPORT. The one rounding of R138: exact values, the grid of a format, and the multiple that each mode chooses. -/
namespace Sys2Proof

variable {f : Fmt} {sub neg : Bool} {rm : Rm} {n d m k w : Nat} {e q : Int} {a x y z lo hi : ℚ}

/-! ### Exact values (R133) -/

/-- The sign of a value apart from its magnitude. -/
theorem ratV_true : ratV true n d e = -ratV false n d e := by simp [ratV]

theorem ratV_not : ratV (!neg) n d e = -ratV neg n d e := by cases neg <;> simp [ratV]

theorem ratV_one : ratV false m 1 q = m * 2 ^ q := by simp [ratV]

theorem ratV_zero : ratV neg 0 d e = 0 := by simp [ratV]

theorem ratV_nonneg : 0 ≤ ratV false n d e := by
  simp only [ratV, Bool.false_eq_true, if_false, one_mul]
  positivity

theorem ratV_pos (hn : n ≠ 0) (hd : d ≠ 0) : 0 < ratV false n d e := by
  have hn : (0 : ℚ) < n := by positivity
  have hd : (0 : ℚ) < d := by positivity
  simp only [ratV, Bool.false_eq_true, if_false, one_mul]
  positivity

theorem abs_ratV (neg : Bool) : |ratV neg n d e| = ratV false n d e := by
  cases neg
  · exact abs_of_nonneg ratV_nonneg
  · rw [ratV_true, abs_neg, abs_of_nonneg ratV_nonneg]

/-- Two values of one sign are equal where their magnitudes are. -/
theorem ratV_inj_sign {n' d' : Nat} {e' : Int} : ratV neg n d e = ratV neg n' d' e' ↔ ratV false n d e = ratV false n' d' e' := by
  cases neg
  · rfl
  · rw [ratV_true, ratV_true, neg_inj]

/-- A factor 2^j of the multiple, taken out of the exponent. -/
theorem ratV_shift (j : Nat) : ratV neg m 1 (q + j) = ratV neg (m * 2 ^ j) 1 q := by
  simp only [ratV, zpow_add₀ (two_ne_zero (α := ℚ)), zpow_natCast]
  push_cast
  ring

/-- The multiple that carries into the next binade. -/
theorem ratV_carry {F : Nat} : ratV neg (2 ^ (F + 1)) 1 q = ratV neg (2 ^ F) 1 (q + 1) := (ratV_shift 1).symm

/-- A power of two with an exponent that is a whole number. -/
theorem zpow_toNat (h : 0 ≤ e) : (2 : ℚ) ^ e = ((2 ^ e.toNat : Nat) : ℚ) := by
  obtain ⟨j, rfl⟩ := Int.eq_ofNat_of_zero_le h
  simp

/-- A comparison with d · 2^k as a comparison of whole numbers. -/
theorem mul_zpow_le_of_nonneg {j : Int} (n d : Nat) (h : 0 ≤ j) : (d : ℚ) * 2 ^ j ≤ n ↔ d * 2 ^ j.toNat ≤ n := by
  rw [zpow_toNat h]
  exact_mod_cast Iff.rfl

theorem mul_zpow_le_of_nonpos {j : Int} (n d : Nat) (h : j ≤ 0) : (d : ℚ) * 2 ^ j ≤ n ↔ d ≤ n * 2 ^ (-j).toNat := by
  have hj : (2 : ℚ) ^ j * 2 ^ (-j) = 1 := by rw [← zpow_add₀ two_ne_zero]; simp
  have hp : (0 : ℚ) < 2 ^ (-j) := by positivity
  rw [← mul_le_mul_iff_of_pos_right hp, mul_assoc, hj, mul_one, zpow_toNat (by omega)]
  exact_mod_cast Iff.rfl

/-- The binade of a quotient of positive whole numbers. -/
theorem floorLog2_le_lt (hn : n ≠ 0) (hd : d ≠ 0) :
    (2 : ℚ) ^ floorLog2 n d ≤ (n : ℚ) / d ∧ (n : ℚ) / d < 2 ^ (floorLog2 n d + 1) := by
  have h0 : (2 : ℚ) ≠ 0 := two_ne_zero
  have hd0 : (0 : ℚ) < d := by positivity
  have hn1 : (2 : ℚ) ^ (n.log2 : Int) ≤ n := by exact_mod_cast Nat.log2_self_le hn
  have hn2 : (n : ℚ) < 2 ^ (n.log2 + 1 : Int) := by exact_mod_cast Nat.lt_log2_self
  have hd1 : (2 : ℚ) ^ (d.log2 : Int) ≤ d := by exact_mod_cast Nat.log2_self_le hd
  have hd2 : (d : ℚ) < 2 ^ (d.log2 + 1 : Int) := by exact_mod_cast Nat.lt_log2_self
  rw [le_div_iff₀' hd0, div_lt_iff₀' hd0]
  generalize hk : (n.log2 : Int) - d.log2 = k
  have hge : (if 0 ≤ k then d * 2 ^ k.toNat ≤ n else d ≤ n * 2 ^ (-k).toNat) ↔ (d : ℚ) * 2 ^ k ≤ n := by
    split
    case isTrue h => exact (mul_zpow_le_of_nonneg n d h).symm
    case isFalse h => exact (mul_zpow_le_of_nonpos n d (by omega)).symm
  unfold floorLog2
  simp only [hk, hge]
  split
  case isTrue h =>
    refine ⟨h, hn2.trans_le ?_⟩
    rw [show (n.log2 : Int) + 1 = d.log2 + (k + 1) by omega, zpow_add₀ h0]
    exact mul_le_mul_of_nonneg_right hd1 (by positivity)
  case isFalse h =>
    refine ⟨le_trans ?_ hn1, by simpa using h⟩
    rw [show (n.log2 : Int) = d.log2 + 1 + (k - 1) by omega, zpow_add₀ h0]
    exact mul_le_mul_of_nonneg_right hd2.le (by positivity)

/-- The binade of an exact magnitude. -/
theorem ratV_binade (hn : n ≠ 0) (hd : d ≠ 0) :
    2 ^ (floorLog2 n d + e) ≤ ratV false n d e ∧ ratV false n d e < 2 ^ (floorLog2 n d + e + 1) := by
  obtain ⟨h1, h2⟩ := floorLog2_le_lt hn hd
  have hp : (0 : ℚ) < 2 ^ e := by positivity
  have h0 : (2 : ℚ) ≠ 0 := two_ne_zero
  simp only [ratV, Bool.false_eq_true, if_false, one_mul]
  rw [add_right_comm, zpow_add₀ h0, zpow_add₀ h0 _ e]
  exact ⟨mul_le_mul_of_nonneg_right h1 hp.le, mul_lt_mul_of_pos_right h2 hp⟩

/-- scaleDiv answers the whole part and the remainder of n / d · 2^s. -/
theorem scaleDiv_eq (hd : d ≠ 0) (s : Int) : ∃ w r D : Nat, scaleDiv n d s = (w, r, D) ∧ r < D ∧ (n : ℚ) / d * 2 ^ s = w + (r : ℚ) / D := by
  have parts (a : Nat) {b : Nat} (hb : b ≠ 0) : (a : ℚ) / b = (a / b : Nat) + ((a % b : Nat) : ℚ) / b := by
    have hb : (b : ℚ) ≠ 0 := by positivity
    field_simp
    exact_mod_cast (Nat.div_add_mod a b).symm
  by_cases h : 0 ≤ s
  · refine ⟨_, _, _, by rw [scaleDiv, if_pos h], Nat.mod_lt _ (by omega), ?_⟩
    rw [← parts _ hd, zpow_toNat h, div_mul_eq_mul_div]
    push_cast
    rfl
  · have hD : d * 2 ^ (-s).toNat ≠ 0 := by positivity
    refine ⟨_, _, _, by rw [scaleDiv, if_neg h], Nat.mod_lt _ (by omega), ?_⟩
    rw [← parts _ hD, ← neg_neg s, zpow_neg, zpow_toNat (by omega), ← div_eq_mul_inv, div_div, neg_neg]
    push_cast
    rfl

/-! ### Multiples of a power of two -/

/-- An exact magnitude lies at or above a multiple of 2^q and below the next; roundAt answers one of the two, and whether the value is no
multiple. -/
theorem roundAt_eq (rm : Rm) (neg : Bool) (e q : Int) (hd : d ≠ 0) : ∃ w r D : Nat, r < D ∧ ratV false n d e = (w + (r : ℚ) / D) * 2 ^ q ∧
    roundAt rm neg n d e q = (if roundsUp rm neg w r D then w + 1 else w, r != 0) := by
  obtain ⟨w, r, D, hs, hr, hv⟩ := scaleDiv_eq (n := n) hd (e - q)
  refine ⟨w, r, D, hr, ?_, by rw [roundAt, hs]⟩
  rw [← hv, mul_assoc, ← zpow_add₀ two_ne_zero, sub_add_cancel]
  simp [ratV]

/-- Rounding of a negative value is rounding of its magnitude under the mode mirrored. -/
def Rm.mirror : Rm → Rm
  | .rdn => .rup
  | .rup => .rdn
  | rm => rm

theorem roundsUp_true (rm : Rm) (w r D : Nat) : roundsUp rm true w r D = roundsUp rm.mirror false w r D := by cases rm <;> rfl

/-! ### The grid (R138) -/

/-- A whole multiple of 2^q is on the grid up to the next binade. -/
theorem onGrid_ratV (neg : Bool) (hm : m ≤ 2 ^ (f.fbits + 1)) (hq : sub = true → f.emin - f.fbits ≤ q) : f.OnGrid sub (ratV neg m 1 q) := by
  rcases hm.lt_or_eq with h | rfl
  · exact ⟨neg, m, q, h, hq, rfl⟩
  · exact ⟨neg, 2 ^ f.fbits, q + 1, Nat.pow_lt_pow_right one_lt_two (by omega), fun hs => by have := hq hs; omega, ratV_carry⟩

/-- An even multiple of the grid's spacing has its lowest F bit 0. -/
theorem evenOn_ratV (neg : Bool) (hF : f.fbits ≠ 0) (hm : m ≤ 2 ^ (f.fbits + 1)) (h2 : m % 2 = 0) (hq : sub = true → f.emin - f.fbits ≤ q)
    (hn : 2 ^ f.fbits ≤ m ∨ (sub = true ∧ q = f.emin - f.fbits)) : f.EvenOn sub (ratV neg m 1 q) := by
  rcases hm.lt_or_eq with h | rfl
  · exact ⟨neg, m, q, h, h2, hq, hn, rfl⟩
  · have heven : 2 ^ f.fbits % 2 = 0 := Nat.mod_eq_zero_of_dvd (dvd_pow_self 2 hF)
    exact ⟨neg, 2 ^ f.fbits, q + 1, Nat.pow_lt_pow_right one_lt_two (by omega), heven, fun hs => by have := hq hs; omega, .inl le_rfl,
      ratV_carry⟩

/-- The grid is the same on either side of 0. -/
theorem Fmt.OnGrid.negated (h : f.OnGrid sub z) : f.OnGrid sub (-z) := by
  obtain ⟨neg, k, p, hk, hp, rfl⟩ := h
  exact ⟨!neg, k, p, hk, hp, ratV_not.symm⟩

theorem Fmt.EvenOn.negated (h : f.EvenOn sub z) : f.EvenOn sub (-z) := by
  obtain ⟨neg, k, p, hk, h2, hp, hn, rfl⟩ := h
  exact ⟨!neg, k, p, hk, h2, hp, hn, ratV_not.symm⟩

/-- 2^q is the grid's spacing from w · 2^q on: no point of the grid lies between that multiple and the next. -/
theorem Fmt.OnGrid.gap (h : f.OnGrid sub z) (hn : 2 ^ f.fbits ≤ w ∨ (sub = true ∧ q = f.emin - f.fbits)) :
    |z| ≤ w * 2 ^ q ∨ (w + 1) * 2 ^ q ≤ |z| := by
  obtain ⟨neg, k, p, hk, hp, rfl⟩ := h
  rw [abs_ratV, ratV_one]
  have hq : (0 : ℚ) < 2 ^ q := by positivity
  by_cases hpq : q ≤ p
  · -- a point of a spacing no finer is itself a multiple of 2^q
    obtain ⟨j, rfl⟩ := Int.le.dest hpq
    rw [zpow_add₀ two_ne_zero, mul_comm (2 ^ q : ℚ), ← mul_assoc, mul_le_mul_iff_of_pos_right hq, mul_le_mul_iff_of_pos_right hq,
      zpow_natCast]
    exact_mod_cast (le_or_gt (k * 2 ^ j) w).imp_right Nat.succ_le_of_lt
  · -- a finer spacing belongs to magnitudes below w · 2^q
    left
    have hw : 2 ^ f.fbits ≤ w := hn.resolve_right fun ⟨hs, hq⟩ => hpq (hq ▸ hp hs)
    have hk : (k : ℚ) ≤ 2 ^ (f.fbits + 1) := by exact_mod_cast hk.le
    have hpq : (2 : ℚ) ^ p ≤ 2 ^ (q - 1) := zpow_le_zpow_right₀ one_le_two (by omega)
    calc (k : ℚ) * 2 ^ p ≤ 2 ^ (f.fbits + 1) * 2 ^ (q - 1) := by gcongr
      _ = 2 ^ f.fbits * 2 ^ q := by rw [zpow_sub_one₀ two_ne_zero]; ring
      _ ≤ w * 2 ^ q := by gcongr; exact_mod_cast hw

/-! ### The multiple each mode chooses -/

/-- A rounding mirrored at 0. -/
theorem Fmt.RoundsTo.negated (h : f.RoundsTo sub rm.mirror x y) : f.RoundsTo sub rm (-x) (-y) := by
  obtain ⟨hy, h⟩ := h
  refine ⟨hy.negated, fun z hz => ?_⟩
  have h := h (-z) hz.negated
  have hd (u : ℚ) : |(-u) - (-x)| = |u - x| := by rw [neg_sub_neg, abs_sub_comm]
  cases rm with
  | rne =>
    rw [← neg_neg z, hd, hd]
    exact ⟨h.1, fun he hne => (h.2 he fun hc => hne (by rw [hc])).negated⟩
  | rz => simpa [Rm.mirror] using h
  | rdn => exact ⟨neg_le_neg h.1, fun hz => by have := h.2 (by linarith); linarith⟩
  | rup => exact ⟨neg_le_neg h.1, fun hz => by have := h.2 (by linarith); linarith⟩

section Between

variable (h0 : 0 ≤ lo) (hlo : lo ≤ a) (hhi : a < hi) (hgap : ∀ z, f.OnGrid sub z → |z| ≤ lo ∨ hi ≤ |z|)
include h0 hlo hhi hgap

/-- Of two neighbours on the grid the lower is the value rounded toward zero. -/
theorem Fmt.roundsTo_rz (hg : f.OnGrid sub lo) : f.RoundsTo sub .rz a lo := by
  refine ⟨hg, fun z hz => ⟨?_, by nlinarith, fun hza => ?_⟩⟩
  · rwa [abs_of_nonneg h0, abs_of_nonneg (h0.trans hlo)]
  · rw [abs_of_nonneg (h0.trans hlo)] at hza
    rw [abs_of_nonneg h0]
    exact (hgap z hz).resolve_right (by linarith)

/-- It is the value rounded down. -/
theorem Fmt.roundsTo_rdn (hg : f.OnGrid sub lo) : f.RoundsTo sub .rdn a lo :=
  ⟨hg, fun z hz => ⟨hlo, fun hza => by
    rcases hgap z hz with h | h
    · exact (le_abs_self z).trans h
    · rcases le_abs.mp h with h | h <;> linarith⟩⟩

/-- The upper one is the value rounded up, unless the value is the lower one. -/
theorem Fmt.roundsTo_rup (hne : lo ≠ a) (hg : f.OnGrid sub hi) : f.RoundsTo sub .rup a hi :=
  ⟨hg, fun z hz => ⟨hhi.le, fun hza => by
    have hlt := lt_of_le_of_ne hlo hne
    have := (hgap z hz).resolve_left (by have := le_abs_self z; linarith)
    rwa [abs_of_nonneg (by linarith)] at this⟩⟩

/-- The nearer of the two is the value rounded to nearest, the even one at a tie. -/
theorem Fmt.roundsTo_rne (hy : y = lo ∧ a - lo ≤ hi - a ∨ y = hi ∧ hi - a ≤ a - lo) (heven : hi - a = a - lo → f.EvenOn sub y)
    (hg : f.OnGrid sub y) : f.RoundsTo sub .rne a y := by
  refine ⟨hg, fun z hz => ?_⟩
  have hz : z ≤ lo ∨ hi ≤ z := by
    rcases hgap z hz with h | h
    · exact .inl ((le_abs_self z).trans h)
    · rcases le_abs.mp h with h | h
      · exact .inr h
      · exact .inl (by linarith)
  have hzlo (h : z ≤ lo) : |z - a| = a - z := by rw [abs_of_nonpos (by linarith)]; ring
  have hzhi (h : hi ≤ z) : |z - a| = z - a := abs_of_nonneg (by linarith)
  obtain ⟨rfl, hd⟩ | ⟨rfl, hd⟩ := hy
  · rw [abs_of_nonpos (by linarith : y - a ≤ 0)]
    rcases hz with h | h
    · rw [hzlo h]
      exact ⟨by linarith, fun he hne => absurd (by linarith) hne⟩
    · rw [hzhi h]
      exact ⟨by linarith, fun he _ => heven (by linarith)⟩
  · rw [abs_of_nonneg (by linarith : 0 ≤ y - a)]
    rcases hz with h | h
    · rw [hzlo h]
      exact ⟨by linarith, fun he _ => heven (by linarith)⟩
    · rw [hzhi h]
      exact ⟨by linarith, fun he hne => absurd (by linarith) hne⟩

end Between

/-- A value that is on the grid is its own rounding under every mode. -/
theorem Fmt.roundsTo_self (hg : f.OnGrid sub x) : f.RoundsTo sub rm x x := by
  refine ⟨hg, fun z _ => ?_⟩
  cases rm with
  | rne => exact ⟨by simp, fun h hne => absurd (by simpa [sub_eq_zero, eq_comm] using h) hne⟩
  | rz => exact ⟨le_rfl, mul_self_nonneg x, id⟩
  | rdn => exact ⟨le_rfl, id⟩
  | rup => exact ⟨le_rfl, id⟩

theorem roundAt_true (rm : Rm) : roundAt rm true n d e q = roundAt rm.mirror false n d e q := by simp only [roundAt, roundsUp_true]

/-- a = (w + r / D) · 2^q lies between two neighbours on the grid, w · 2^q and the next multiple of 2^q. -/
structure Fmt.Between (f : Fmt) (sub : Bool) (a : ℚ) (w r D : Nat) (q : Int) : Prop where
  rem_lt : r < D
  eq : a = (w + (r : ℚ) / D) * 2 ^ q
  lt : w < 2 ^ (f.fbits + 1)
  finest : sub = true → f.emin - f.fbits ≤ q
  normal : 2 ^ f.fbits ≤ w ∨ (sub = true ∧ q = f.emin - f.fbits)

theorem rem_div_mem {r D : Nat} (h : r < D) : 0 ≤ (r : ℚ) / D ∧ (r : ℚ) / D < 1 := by
  have hD : (0 : ℚ) < D := by exact_mod_cast Nat.zero_lt_of_lt h
  exact ⟨by positivity, (div_lt_one hD).mpr (by exact_mod_cast h)⟩

section

variable {r D : Nat} (h : f.Between sub a w r D q)
include h

theorem Fmt.Between.lower_le : ratV false w 1 q ≤ a := by
  rw [h.eq, ratV_one]
  exact mul_le_mul_of_nonneg_right (le_add_of_nonneg_right (rem_div_mem h.rem_lt).1) (by positivity)

theorem Fmt.Between.lt_upper : a < ratV false (w + 1) 1 q := by
  rw [h.eq, ratV_one, Nat.cast_add, Nat.cast_one]
  exact mul_lt_mul_of_pos_right (by have := (rem_div_mem h.rem_lt).2; linarith) (by positivity)

theorem Fmt.Between.lower_eq_iff : ratV false w 1 q = a ↔ r = 0 := by
  have hq : (2 : ℚ) ^ q ≠ 0 := by positivity
  have hD : (D : ℚ) ≠ 0 := by exact_mod_cast (Nat.zero_lt_of_lt h.rem_lt).ne'
  rw [h.eq, ratV_one, mul_left_inj' hq, left_eq_add, div_eq_zero_iff, Nat.cast_eq_zero]
  exact or_iff_left hD

theorem Fmt.Between.distances : a - ratV false w 1 q = r / D * 2 ^ q ∧ ratV false (w + 1) 1 q - a = (1 - r / D) * 2 ^ q := by
  rw [h.eq, ratV_one, ratV_one, Nat.cast_add, Nat.cast_one]
  constructor <;> ring

/-- The distances to the two neighbours compare as what the remainder lacks of D and the remainder. -/
theorem Fmt.Between.upper_nearer : ratV false (w + 1) 1 q - a ≤ a - ratV false w 1 q ↔ D ≤ 2 * r := by
  have hD : (0 : ℚ) < D := by exact_mod_cast Nat.zero_lt_of_lt h.rem_lt
  rw [h.distances.1, h.distances.2, mul_le_mul_iff_of_pos_right (by positivity), sub_le_iff_le_add, ← two_mul, ← mul_div_assoc,
    le_div_iff₀ hD, one_mul]
  exact_mod_cast Iff.rfl

theorem Fmt.Between.lower_nearer : a - ratV false w 1 q ≤ ratV false (w + 1) 1 q - a ↔ 2 * r ≤ D := by
  have hD : (0 : ℚ) < D := by exact_mod_cast Nat.zero_lt_of_lt h.rem_lt
  rw [h.distances.1, h.distances.2, mul_le_mul_iff_of_pos_right (by positivity), le_sub_iff_add_le, ← two_mul, ← mul_div_assoc,
    div_le_iff₀ hD, one_mul]
  exact_mod_cast Iff.rfl

theorem Fmt.Between.lower_onGrid : f.OnGrid sub (ratV false w 1 q) := onGrid_ratV false h.lt.le h.finest

theorem Fmt.Between.upper_onGrid : f.OnGrid sub (ratV false (w + 1) 1 q) := onGrid_ratV false h.lt h.finest

theorem Fmt.Between.gap (z : ℚ) (hz : f.OnGrid sub z) : |z| ≤ ratV false w 1 q ∨ ratV false (w + 1) 1 q ≤ |z| := by
  rw [ratV_one, ratV_one, Nat.cast_add, Nat.cast_one]
  exact hz.gap h.normal

/-- To nearest, roundsUp chooses the nearer neighbour, at a tie the even one. -/
theorem Fmt.Between.roundsTo_rne (hF : f.fbits ≠ 0) :
    f.RoundsTo sub .rne a (ratV false (if roundsUp .rne false w r D then w + 1 else w) 1 q) := by
  have hru : roundsUp .rne false w r D = true ↔ D < 2 * r ∨ 2 * r = D ∧ w % 2 = 1 := by simp [roundsUp]
  split
  case isTrue hup =>
    rw [hru] at hup
    refine Fmt.roundsTo_rne ratV_nonneg h.lower_le h.lt_upper h.gap (.inr ⟨rfl, h.upper_nearer.mpr (by omega)⟩) (fun he => ?_) h.upper_onGrid
    have hle := h.lower_nearer.mp he.ge
    exact evenOn_ratV false hF h.lt (by omega) h.finest (h.normal.imp_left Nat.le_succ_of_le)
  case isFalse hdown =>
    rw [hru] at hdown
    refine Fmt.roundsTo_rne ratV_nonneg h.lower_le h.lt_upper h.gap (.inl ⟨rfl, h.lower_nearer.mpr (by omega)⟩) (fun he => ?_) h.lower_onGrid
    have hge := h.upper_nearer.mp he.le
    exact evenOn_ratV false hF h.lt.le (by omega) h.finest h.normal

/-- Between its neighbours a value rounds to the one roundsUp chooses. -/
theorem Fmt.Between.roundsTo (hF : f.fbits ≠ 0) (rm : Rm) :
    f.RoundsTo sub rm a (ratV false (if roundsUp rm false w r D then w + 1 else w) 1 q) := by
  cases rm with
  | rne => exact h.roundsTo_rne hF
  | rz => exact Fmt.roundsTo_rz ratV_nonneg h.lower_le h.lt_upper h.gap h.lower_onGrid
  | rdn => exact Fmt.roundsTo_rdn ratV_nonneg h.lower_le h.lt_upper h.gap h.lower_onGrid
  | rup =>
    by_cases hr : r = 0
    · have hself := Fmt.roundsTo_self (rm := .rup) (h.lower_eq_iff.mpr hr ▸ h.lower_onGrid)
      simpa [roundsUp, hr, h.lower_eq_iff.mpr hr] using hself
    · have hne := mt h.lower_eq_iff.mp hr
      simpa [roundsUp, hr] using Fmt.roundsTo_rup ratV_nonneg h.lower_le h.lt_upper h.gap hne h.upper_onGrid

end

/-- 2^q is the spacing of the grid at the magnitude a. -/
structure Fmt.Spacing (f : Fmt) (sub : Bool) (a : ℚ) (q : Int) : Prop where
  lt : a < 2 ^ (f.fbits + 1 + q)
  finest : sub = true → f.emin - f.fbits ≤ q
  normal : 2 ^ (f.fbits + q) ≤ a ∨ (sub = true ∧ q = f.emin - f.fbits)

/-- The grid's spacing in the binade of a value, the subnormal grid's below the smallest normal. -/
theorem Fmt.spacing_sub (f : Fmt) (e : Int) (hn : n ≠ 0) (hd : d ≠ 0) : f.Spacing true (ratV false n d e)
    ((if floorLog2 n d + e < f.emin then f.emin else floorLog2 n d + e) - f.fbits) := by
  obtain ⟨h1, h2⟩ := ratV_binade (e := e) hn hd
  split
  case isTrue h =>
    exact ⟨h2.trans_le (zpow_le_zpow_right₀ one_le_two (by omega)), fun _ => le_rfl, .inr ⟨rfl, rfl⟩⟩
  case isFalse h =>
    exact ⟨h2.trans_le (zpow_le_zpow_right₀ one_le_two (by omega)), fun _ => by omega, .inl (by rwa [add_sub_cancel])⟩

/-- The spacing of the grid whose exponent is unbounded below. -/
theorem Fmt.spacing_unbounded (f : Fmt) (e : Int) (hn : n ≠ 0) (hd : d ≠ 0) :
    f.Spacing false (ratV false n d e) (floorLog2 n d + e - f.fbits) := by
  obtain ⟨h1, h2⟩ := ratV_binade (e := e) hn hd
  exact ⟨h2.trans_le (zpow_le_zpow_right₀ one_le_two (by omega)), nofun, .inl (by rwa [add_sub_cancel])⟩

section

variable (h : f.Spacing sub (ratV false n d e) q) (rm : Rm) (neg : Bool) (hd : d ≠ 0)
include h hd

/-- A value of the spacing 2^q lies between two neighbours, of which roundAt chooses. -/
theorem Fmt.Spacing.between : ∃ w r D, f.Between sub (ratV false n d e) w r D q ∧
    roundAt rm neg n d e q = (if roundsUp rm neg w r D then w + 1 else w, r != 0) := by
  obtain ⟨hlt, hq, hn⟩ := h
  obtain ⟨w, r, D, hr, ha, hra⟩ := roundAt_eq (n := n) rm neg e q hd
  have hp : (0 : ℚ) < 2 ^ q := by positivity
  obtain ⟨hr0, hr1⟩ := rem_div_mem hr
  refine ⟨w, r, D, ⟨hr, ha, ?_, hq, hn.imp_left fun hn => ?_⟩, hra⟩
  · rw [ha, zpow_add₀ two_ne_zero, mul_lt_mul_iff_of_pos_right hp] at hlt
    have := (le_add_of_nonneg_right hr0).trans_lt hlt
    exact_mod_cast this
  · rw [ha, zpow_add₀ two_ne_zero, mul_le_mul_iff_of_pos_right hp] at hn
    have := hn.trans_lt (by linarith : (w : ℚ) + r / D < w + 1)
    exact Nat.le_of_lt_succ (by exact_mod_cast this)

/-- roundAt rounds on the grid where 2^q is the grid's spacing at the value. -/
theorem Fmt.Spacing.roundsTo (hF : f.fbits ≠ 0) : f.RoundsTo sub rm (ratV neg n d e) (ratV neg (roundAt rm neg n d e q).1 1 q) := by
  have pos (rm : Rm) : f.RoundsTo sub rm (ratV false n d e) (ratV false (roundAt rm false n d e q).1 1 q) := by
    obtain ⟨w, r, D, hb, hra⟩ := h.between rm false hd
    rw [hra]
    exact hb.roundsTo hF rm
  cases neg with
  | false => exact pos rm
  | true =>
    rw [ratV_true, ratV_true, roundAt_true]
    exact (pos rm.mirror).negated

/-- roundAt's multiple stays within the binade or begins the next. -/
theorem Fmt.Spacing.le : (roundAt rm neg n d e q).1 ≤ 2 ^ (f.fbits + 1) := by
  obtain ⟨w, r, D, hb, hra⟩ := h.between rm neg hd
  have := hb.lt
  rw [hra]
  dsimp only
  split <;> omega

/-- Where the value is no subnormal of the grid, neither is roundAt's multiple. -/
theorem Fmt.Spacing.ge : 2 ^ f.fbits ≤ (roundAt rm neg n d e q).1 ∨ (sub = true ∧ q = f.emin - f.fbits) := by
  obtain ⟨w, r, D, hb, hra⟩ := h.between rm neg hd
  rw [hra]
  refine hb.normal.imp_left fun hw => ?_
  dsimp only
  split <;> omega

/-- roundAt says of a value whether it differs from its rounding. -/
theorem Fmt.Spacing.inexact : (roundAt rm neg n d e q).2 = true ↔ ratV neg (roundAt rm neg n d e q).1 1 q ≠ ratV neg n d e := by
  obtain ⟨w, r, D, hb, hra⟩ := h.between rm neg hd
  rw [ne_eq, ratV_inj_sign, hra]
  dsimp only
  by_cases hr : r = 0
  · have hD : 0 ≠ D := (Nat.zero_lt_of_lt hb.rem_lt).ne
    have hru : roundsUp rm neg w 0 D = false := by cases rm <;> simp [roundsUp, hD]
    simp [hr, hru, hb.lower_eq_iff]
  · refine iff_of_true (by simpa using hr) ?_
    split
    · exact hb.lt_upper.ne'
    · exact mt hb.lower_eq_iff.mp hr

end

/-! ### The rounding of a magnitude (R138, R142) -/

/-- A multiple of the grid's spacing as roundMag answers it. -/
structure Fmt.Multiple (f : Fmt) (m : Nat) (q : Int) : Prop where
  le : m ≤ 2 ^ (f.fbits + 1)
  finest : f.emin - f.fbits ≤ q
  normal : 2 ^ f.fbits ≤ m ∨ q = f.emin - f.fbits

section

variable (f : Fmt) (rm : Rm) (neg : Bool) (e : Int) (hn : n ≠ 0) (hd : d ≠ 0)
include hn hd

theorem Fmt.roundMag_roundsTo (hF : f.fbits ≠ 0) :
    f.RoundsTo true rm (ratV neg n d e) (ratV neg (f.roundMag rm neg n d e).1 1 (f.roundMag rm neg n d e).2.1) :=
  (f.spacing_sub e hn hd).roundsTo rm neg hd hF

theorem Fmt.roundMag_inexact : (f.roundMag rm neg n d e).2.2.1 = true ↔
    ratV neg (f.roundMag rm neg n d e).1 1 (f.roundMag rm neg n d e).2.1 ≠ ratV neg n d e :=
  (f.spacing_sub e hn hd).inexact rm neg hd

theorem Fmt.roundMag_multiple : f.Multiple (f.roundMag rm neg n d e).1 (f.roundMag rm neg n d e).2.1 :=
  have h := f.spacing_sub e hn hd
  ⟨h.le rm neg hd, h.finest rfl, (h.ge rm neg hd).imp_right And.right⟩

/-- A result is tiny where its rounding with the exponent unbounded below is under the smallest normal (R142). -/
theorem Fmt.roundMag_tiny (hF : f.fbits ≠ 0) : ∃ y, f.RoundsTo false rm (ratV neg n d e) y ∧
    ((f.roundMag rm neg n d e).2.2.2 = true ↔ |y| < 2 ^ f.emin) := by
  have h := f.spacing_unbounded e hn hd
  have hle := h.le rm neg hd
  have hge := (h.ge rm neg hd).resolve_right (by simp)
  refine ⟨_, h.roundsTo rm neg hd hF, ?_⟩
  rw [abs_ratV, ratV_one]
  simp only [Fmt.roundMag, Bool.and_eq_true, Bool.not_eq_true', Bool.and_eq_false_iff, decide_eq_true_eq, beq_eq_false_iff_ne, ne_eq]
  generalize (roundAt rm neg n d e (floorLog2 n d + e - f.fbits)).1 = m at hle hge
  generalize floorLog2 n d + e = ex
  have hm1 : (2 : ℚ) ^ ex ≤ m * 2 ^ (ex - f.fbits) := by
    calc (2 : ℚ) ^ ex = (2 ^ f.fbits : Nat) * 2 ^ (ex - f.fbits) := by
          rw [Nat.cast_pow, Nat.cast_ofNat, ← zpow_natCast, ← zpow_add₀ two_ne_zero, add_sub_cancel]
      _ ≤ m * 2 ^ (ex - f.fbits) := by gcongr
  have hp : (0 : ℚ) < 2 ^ (ex - f.fbits) := by positivity
  have htop : (2 : ℚ) ^ (ex + 1) = (2 ^ (f.fbits + 1) : Nat) * 2 ^ (ex - f.fbits) := by
    rw [Nat.cast_pow, Nat.cast_ofNat, ← zpow_natCast, ← zpow_add₀ two_ne_zero]
    congr 1
    push_cast
    omega
  have hm2 : m * 2 ^ (ex - f.fbits) ≤ (2 : ℚ) ^ (ex + 1) := by rw [htop]; gcongr
  rcases lt_trichotomy ex (f.emin - 1) with hlt | rfl | hgt
  · exact iff_of_true ⟨by omega, .inl (by omega)⟩ (hm2.trans_lt (zpow_lt_zpow_right₀ one_lt_two (by omega)))
  · rw [sub_add_cancel] at htop
    rw [htop, mul_lt_mul_iff_of_pos_right hp, Nat.cast_lt]
    omega
  · refine iff_of_false (fun hc => by omega) (not_lt.mpr ((zpow_le_zpow_right₀ one_le_two (by omega)).trans hm1))

end

end Sys2Proof
end

section
/-! SUPPORT. Values in a format's bits (R131, R133), and the one rounding with its overflow and flags (R138 to R142). -/
namespace Sys2Proof

variable {f : Fmt} {neg sat : Bool} {rm : Rm} {m n d mag : Nat} {q e : Int}

/-! ### Patterns of finite values (R131) -/

/-- A format with a fraction and at least one normal value, as each of R131 is. -/
structure Fmt.Proper (f : Fmt) : Prop where
  fraction : f.fbits ≠ 0
  normal : 2 ^ f.fbits ≤ f.maxFin

theorem Fmt.proper_of_mem (h : f ∈ [Fmt.f32, .f16, .bf16, .e4m3, .e5m2, .ue5m3]) : f.Proper := by
  have all : ∀ f ∈ [Fmt.f32, .f16, .bf16, .e4m3, .e5m2, .ue5m3], f.fbits ≠ 0 ∧ 2 ^ f.fbits ≤ f.maxFin := by decide
  exact ⟨(all f h).1, (all f h).2⟩

/-- The bits of the largest finite value lie below the sign, and are of no infinity and no NaN. -/
theorem Fmt.Proper.maxFin_lt (h : f.Proper) : f.maxFin < 2 ^ f.magBits ∧ (f.ieee = true → f.maxFin < (2 ^ f.ebits - 1) * 2 ^ f.fbits) ∧
    (f.ieee = false → f.maxFin < 2 ^ f.magBits - 1) := by
  have hn := h.normal
  have hF := Nat.two_pow_pos f.fbits
  have hle : (2 ^ f.ebits - 1) * 2 ^ f.fbits ≤ 2 ^ f.magBits := by
    rw [Fmt.magBits, Nat.pow_add]
    exact Nat.mul_le_mul_right _ (Nat.sub_le ..)
  unfold Fmt.maxFin at *
  generalize (2 ^ f.ebits - 1) * 2 ^ f.fbits = inf at *
  generalize 2 ^ f.magBits = top at *
  cases hi : f.ieee <;> simp only [hi, Bool.false_eq_true, Bool.true_eq_false, if_true, if_false, false_implies, true_implies,
    true_and, and_true] at hn ⊢ <;> omega

/-- A pattern up to the largest finite one has a finite value. -/
theorem Fmt.decode_finite (hp : f.Proper) (hs : neg = true → f.signed = true) (h : mag ≤ f.maxFin) :
    f.decode (f.signBit neg + mag) = if mag < 2 ^ f.fbits then .fin neg mag (f.emin - f.fbits)
      else .fin neg (2 ^ f.fbits + mag % 2 ^ f.fbits) ((mag / 2 ^ f.fbits : Nat) - f.bias - f.fbits) := by
  obtain ⟨h1, h2, h3⟩ := hp.maxFin_lt
  have hlt : mag < 2 ^ f.magBits := h.trans_lt h1
  have hF := Nat.two_pow_pos f.fbits
  have hmag : (f.signBit neg + mag) % 2 ^ f.magBits = mag := by
    unfold Fmt.signBit
    split
    · rw [Nat.add_mod_left, Nat.mod_eq_of_lt hlt]
    · rw [Nat.zero_add, Nat.mod_eq_of_lt hlt]
  have hneg : (f.signed && (f.signBit neg + mag) / 2 ^ f.magBits % 2 == 1) = neg := by
    unfold Fmt.signBit
    cases neg
    · simp [Nat.div_eq_of_lt hlt]
    · simp [hs, Nat.add_div_left, Nat.div_eq_of_lt hlt]
  have hinf : (f.ieee && mag / 2 ^ f.fbits == 2 ^ f.ebits - 1) = false := by
    cases hi : f.ieee
    · rfl
    · have := (Nat.div_lt_iff_lt_mul hF).mpr (h.trans_lt (h2 hi))
      simp [this.ne]
  have hnan : (!f.ieee && mag == 2 ^ f.magBits - 1) = false := by
    cases hi : f.ieee
    · have := h.trans_lt (h3 hi)
      simp [this.ne]
    · rfl
  have hzero : (mag / 2 ^ f.fbits == 0) = decide (mag < 2 ^ f.fbits) := by
    rw [Bool.eq_iff_iff, beq_iff_eq, decide_eq_true_eq, Nat.div_eq_zero_iff_lt hF]
  unfold Fmt.decode
  simp only [hmag, hneg, hinf, hnan, hzero, Bool.false_eq_true, if_false, decide_eq_true_eq]
  split
  case isTrue hm => rw [Nat.mod_eq_of_lt hm]
  case isFalse => rfl

/-- The largest finite value, from its parts (R133). -/
theorem Fmt.largest_eq (hp : f.Proper) : f.largest = ratV false f.maxParts.1 1 f.maxParts.2 := by
  have h := Fmt.decode_finite (neg := false) hp nofun le_rfl
  rw [if_neg (not_lt.mpr hp.normal)] at h
  simp only [Fmt.signBit, Bool.false_and, Bool.false_eq_true, if_false, Nat.zero_add] at h
  rw [Fmt.largest, h]
  rfl

/-- What lies beyond the largest finite value (R140). -/
theorem Fmt.beyond_iff (hp : f.Proper) : f.beyond m q = true ↔ f.largest < ratV false m 1 q := by
  rw [f.largest_eq hp, ratV_one, ratV_one, ← not_le, ← sub_add_cancel q f.maxParts.2, zpow_add₀ two_ne_zero, ← mul_assoc,
    mul_le_mul_iff_of_pos_right (by positivity), sub_add_cancel]
  by_cases h : q ≤ f.maxParts.2
  · rw [mul_zpow_le_of_nonpos _ _ (by omega), not_le, neg_sub]
    simp [Fmt.beyond, h]
  · rw [mul_zpow_le_of_nonneg _ _ (by omega), not_le]
    simp [Fmt.beyond, h]

/-- A multiple that carries into the next binade is encoded there. -/
theorem Fmt.encodeMag_carry (f : Fmt) (q : Int) : f.encodeMag (2 ^ (f.fbits + 1)) q = f.encodeMag (2 ^ f.fbits) (q + 1) := by
  have h : 2 ^ f.fbits ≠ 2 ^ (f.fbits + 1) := by
    have := Nat.two_pow_pos f.fbits
    rw [Nat.pow_succ]
    omega
  simp [Fmt.encodeMag, h]

/-- The pattern of exponent field `k` of a value up to the largest is up to the largest pattern: patterns are in the order of values. -/
theorem Fmt.pattern_le_maxFin (f : Fmt) (hp : f.Proper) {k : Nat} (hk : q + f.fbits + f.bias = k) (h1 : 2 ^ f.fbits ≤ m)
    (h2 : m < 2 ^ f.fbits * 2) (hb : f.beyond m q = false) : k * 2 ^ f.fbits + (m - 2 ^ f.fbits) ≤ f.maxFin := by
  rw [← Bool.not_eq_true, f.beyond_iff hp, f.largest_eq hp, ratV_one, ratV_one, not_lt] at hb
  simp only [Fmt.maxParts] at hb
  have hF := Nat.two_pow_pos f.fbits
  have hM := Nat.div_add_mod' f.maxFin (2 ^ f.fbits)
  have hr := Nat.mod_lt f.maxFin hF
  generalize f.maxFin / 2 ^ f.fbits = E at hb hM
  generalize f.maxFin % 2 ^ f.fbits = fr at hb hM hr
  rw [← hM]
  rcases lt_trichotomy k E with hlt | rfl | hgt
  · have := Nat.mul_le_mul_right (2 ^ f.fbits) (Nat.succ_le_of_lt hlt)
    rw [Nat.succ_mul] at this
    omega
  · rw [show q = k - f.bias - f.fbits by omega, mul_le_mul_iff_of_pos_right (by positivity)] at hb
    have : m ≤ 2 ^ f.fbits + fr := by exact_mod_cast hb
    omega
  · -- a value of a later binade would be above the largest
    exfalso
    have hq : (2 : ℚ) ^ ((E : Int) - f.bias - f.fbits) * 2 ≤ 2 ^ q := by
      rw [← zpow_add_one₀ two_ne_zero]
      exact zpow_le_zpow_right₀ one_le_two (by omega)
    have hp : (0 : ℚ) < 2 ^ ((E : Int) - f.bias - f.fbits) := by positivity
    have hm : ((2 ^ f.fbits : Nat) : ℚ) ≤ m := by exact_mod_cast h1
    have hr : ((2 ^ f.fbits + fr : Nat) : ℚ) < (2 ^ f.fbits : Nat) * 2 := by exact_mod_cast (by omega : 2 ^ f.fbits + fr < 2 ^ f.fbits * 2)
    refine absurd hb (not_le.mpr ?_)
    calc ((2 ^ f.fbits + fr : Nat) : ℚ) * 2 ^ ((E : Int) - f.bias - f.fbits)
        < (2 ^ f.fbits : Nat) * 2 * 2 ^ ((E : Int) - f.bias - f.fbits) := by gcongr
      _ = (2 ^ f.fbits : Nat) * (2 ^ ((E : Int) - f.bias - f.fbits) * 2) := by ring
      _ ≤ m * 2 ^ q := by gcongr

/-- Below the next binade and up to the largest value, the pattern of a multiple decodes to it. -/
theorem Fmt.decode_encodeMag_of_lt (hp : f.Proper) (hs : neg = true → f.signed = true) (h : f.Multiple m q) (hlt : m < 2 ^ (f.fbits + 1))
    (hb : f.beyond m q = false) : f.decode (f.signBit neg + f.encodeMag m q) = .fin neg m q := by
  obtain ⟨-, hq, hn⟩ := h
  have hne : (m == 2 ^ (f.fbits + 1)) = false := by simpa using hlt.ne
  have hF := Nat.two_pow_pos f.fbits
  rw [Nat.pow_succ] at hlt
  simp only [Fmt.encodeMag, hne, Bool.false_eq_true, if_false]
  by_cases hm : m < 2 ^ f.fbits
  · rw [if_pos hm, Fmt.decode_finite hp hs (hm.le.trans hp.normal), if_pos hm, hn.resolve_left (by omega)]
  · obtain ⟨k, hk⟩ := Int.eq_ofNat_of_zero_le (show 0 ≤ q + f.fbits + f.bias by unfold Fmt.emin at hq; omega)
    have hdiv : (k * 2 ^ f.fbits + (m - 2 ^ f.fbits)) / 2 ^ f.fbits = k := by
      rw [Nat.mul_comm, Nat.mul_add_div hF, Nat.div_eq_of_lt (by omega), Nat.add_zero]
    have hmod : (k * 2 ^ f.fbits + (m - 2 ^ f.fbits)) % 2 ^ f.fbits = m - 2 ^ f.fbits := by
      rw [Nat.mul_comm, Nat.mul_add_mod, Nat.mod_eq_of_lt (by omega)]
    have hle : k * 2 ^ f.fbits + (m - 2 ^ f.fbits) ≤ f.maxFin := f.pattern_le_maxFin hp hk (by omega) (by omega) hb
    have hnormal : ¬ k * 2 ^ f.fbits + (m - 2 ^ f.fbits) < 2 ^ f.fbits := by
      have hk : 1 ≤ k := by unfold Fmt.emin at hq; omega
      have := Nat.mul_le_mul_right (2 ^ f.fbits) hk
      omega
    rw [if_neg hm, hk, Int.toNat_natCast, Fmt.decode_finite hp hs hle, if_neg hnormal, hdiv, hmod]
    congr 1 <;> omega

/-- Up to the largest value the pattern of a multiple decodes to its value. -/
theorem Fmt.decode_encodeMag (hp : f.Proper) (hs : neg = true → f.signed = true) (h : f.Multiple m q) (hb : f.beyond m q = false) :
    ∃ k p, f.decode (f.signBit neg + f.encodeMag m q) = .fin neg k p ∧ ratV neg k 1 p = ratV neg m 1 q := by
  rcases h.le.lt_or_eq with hlt | rfl
  · exact ⟨m, q, Fmt.decode_encodeMag_of_lt hp hs h hlt hb, rfl⟩
  · have hb' : f.beyond (2 ^ f.fbits) (q + 1) = false := by
      rw [← Bool.not_eq_true, Fmt.beyond_iff hp] at hb ⊢
      rwa [← ratV_carry]
    have h' : f.Multiple (2 ^ f.fbits) (q + 1) := ⟨Nat.pow_le_pow_right two_pos (by omega), h.finest.trans (by omega), .inl le_rfl⟩
    rw [f.encodeMag_carry]
    exact ⟨_, _, Fmt.decode_encodeMag_of_lt hp hs h' (Nat.pow_lt_pow_right one_lt_two (by omega)) hb', ratV_carry.symm⟩

/-! ### The one rounding (R138 to R142) -/

/-- An overflowed result that is an infinity: SAT, or a format without infinities, decides it (R140, R141). -/
theorem Fmt.infinite_overflow (f : Fmt) (sat neg : Bool) : f.infinite sat neg true =
    (if sat then f.signBit neg + f.maxFin else if f.ieee then f.signBit neg + f.infBits else f.canonNaN, Flags.when sat .sf) := by
  unfold Fmt.infinite
  cases sat
  · cases f.ieee <;> rfl
  · rfl

/-- A result beyond the largest finite value overflows (R140): to an infinity, where the mode rounds away from zero, or to the largest. -/
theorem Fmt.round_beyond (hn : n ≠ 0) (hs : neg = true → f.signed = true)
    (hb : f.beyond (f.roundMag rm neg n d e).1 (f.roundMag rm neg n d e).2.1 = true) :
    let inf : Bool := rm == .rne || (rm == .rdn && neg) || (rm == .rup && !neg)
    f.round rm sat (.rat neg n d e) =
      (if inf && !sat then (if f.ieee then f.signBit neg + f.infBits else f.canonNaN) else f.signBit neg + f.maxFin,
        Flags.when (inf && sat) .sf ||| .of ||| .nx) := by
  intro inf
  obtain ⟨k, rfl⟩ := Nat.exists_eq_succ_of_ne_zero hn
  have hsign : (neg && !f.signed) = false := by cases neg <;> simp_all
  simp only [Fmt.round, hsign, hb, Bool.false_eq_true, if_false, if_true, f.infinite_overflow]
  cases rm with
  | rne => cases sat <;> rfl
  | rz => rfl
  | rdn =>
    cases neg
    · rfl
    · cases sat <;> rfl
  | rup =>
    cases neg
    · cases sat <;> rfl
    · rfl

theorem Fmt.round_within (hn : n ≠ 0) (hs : neg = true → f.signed = true)
    (hb : f.beyond (f.roundMag rm neg n d e).1 (f.roundMag rm neg n d e).2.1 = false) :
    f.round rm sat (.rat neg n d e) = (f.signBit neg + f.encodeMag (f.roundMag rm neg n d e).1 (f.roundMag rm neg n d e).2.1,
      Flags.when (f.roundMag rm neg n d e).2.2.1 .nx |||
        Flags.when ((f.roundMag rm neg n d e).2.2.1 && (f.roundMag rm neg n d e).2.2.2) .uf) := by
  obtain ⟨k, rfl⟩ := Nat.exists_eq_succ_of_ne_zero hn
  have hsign : (neg && !f.signed) = false := by cases neg <;> simp_all
  simp only [Fmt.round, hsign, hb, Bool.false_eq_true, if_false]

/-- A zero rounds to the zero of its sign. -/
theorem Fmt.round_zero (f : Fmt) (rm : Rm) (sat neg : Bool) (d : Nat) (e : Int) : f.round rm sat (.rat neg 0 d e) = (f.signBit neg, 0) := rfl

/-- A format without a sign has no negative result (R140, R141). -/
theorem Fmt.round_unsigned (hn : n ≠ 0) (hneg : neg = true) (hs : f.signed = false) :
    f.round rm sat (.rat neg n d e) = if sat then (0, .sf) else (f.canonNaN, .nv) := by
  obtain ⟨k, rfl⟩ := Nat.exists_eq_succ_of_ne_zero hn
  subst hneg
  simp [Fmt.round, hs]

/-- The one rounding of a nonzero value: y, its rounding on the grid, is the result up to the largest finite value, and overflows beyond;
y', its rounding without subnormals, says whether it is tiny (R138, R140 to R142). -/
theorem Fmt.round_rounds (hp : f.Proper) (rm : Rm) (sat : Bool) (e : Int) (hn : n ≠ 0) (hd : d ≠ 0) (hs : neg = true → f.signed = true) :
    let x := ratV neg n d e
    let out := f.round rm sat (.rat neg n d e)
    ∃ y y', f.RoundsTo true rm x y ∧ f.RoundsTo false rm x y' ∧
      (|y| ≤ f.largest → (∃ k q, f.decode out.1 = .fin neg k q ∧ ratV neg k 1 q = y) ∧
        out.2 = Flags.when (decide (y ≠ x)) .nx ||| Flags.when (decide (y ≠ x ∧ |y'| < 2 ^ f.emin)) .uf) ∧
      (f.largest < |y| →
        let inf : Bool := rm == .rne || (rm == .rdn && neg) || (rm == .rup && !neg)
        let most := f.signBit neg + f.maxFin
        out = (if inf && !sat then (if f.ieee then f.signBit neg + f.infBits else f.canonNaN) else most,
          Flags.when (inf && sat) .sf ||| .of ||| .nx)) := by
  intro x out
  obtain ⟨y', hy', htiny⟩ := f.roundMag_tiny rm neg e hn hd hp.fraction
  have hnx := f.roundMag_inexact rm neg e hn hd
  refine ⟨_, y', f.roundMag_roundsTo rm neg e hn hd hp.fraction, hy', fun hle => ?_, fun hgt => ?_⟩
  · rw [abs_ratV, ← not_lt, ← f.beyond_iff hp, Bool.not_eq_true] at hle
    have hout : out = _ := f.round_within hn hs hle
    rw [hout]
    refine ⟨Fmt.decode_encodeMag hp hs (f.roundMag_multiple rm neg e hn hd) hle, ?_⟩
    rw [Bool.decide_and, decide_eq_decide.mpr hnx.symm, decide_eq_decide.mpr htiny.symm, Bool.decide_coe, Bool.decide_coe]
  · rw [abs_ratV, ← f.beyond_iff hp] at hgt
    exact f.round_beyond hn hs hgt

end Sys2Proof
end

section
/-! SUPPORT. The exact results of the float operations (R134, R153), and what FADD, FSUB, FMUL, FDIV and FFMA complete with. -/
namespace Sys2Proof

variable {n n' n'' minus : Bool} {m m' m'' : Nat} {e e' e'' : Int}

/-- An operation answers the exact value `v` and no flag; a zero has the sign `zero`. -/
def ExactIs (r : Ex × Flags) (v : ℚ) (zero : Bool) : Prop :=
  r.2 = 0 ∧ ∃ k d x, ∃ s : Bool, r.1 = .rat s k d x ∧ d ≠ 0 ∧ ratV s k d x = v ∧ (k = 0 → s = zero)

/-- The sign of a sum that is exactly zero (R134). -/
def zeroSign (rm : Rm) (s t : Bool) : Bool := if s = t then s else decide (rm = .rdn)

theorem ratV_mul : ratV n m 1 e * ratV n' m' 1 e' = ratV (n != n') (m * m') 1 (e + e') := by
  simp only [ratV, zpow_add₀ (two_ne_zero (α := ℚ))]
  push_cast
  cases n <;> cases n' <;> simp <;> ring

theorem ratV_div : ratV n m 1 e / ratV n' m' 1 e' = ratV (n != n') m m' (e - e') := by
  simp only [ratV, zpow_sub₀ (two_ne_zero (α := ℚ))]
  cases n <;> cases n' <;> simp [div_eq_mul_inv] <;> ring

/-- A signed whole multiple of a power of two, taken at a lower power. -/
theorem ratV_align (h : e' ≤ e) : ratV n m 1 e =
    ((if n then -((m * 2 ^ (e - e').toNat : Nat) : Int) else (m * 2 ^ (e - e').toNat : Nat) : Int) : ℚ) * 2 ^ e' := by
  obtain ⟨j, rfl⟩ := Int.le.dest h
  rw [ratV_shift, add_sub_cancel_left, Int.toNat_natCast]
  cases n <;> simp [ratV]

/-- An integer multiple of a power of two, from its sign and magnitude. -/
theorem ratV_natAbs (s : Int) : ratV (decide (s < 0)) s.natAbs 1 e = s * 2 ^ e := by
  have h : ((s.natAbs : Int) : ℚ) = |(s : ℚ)| := by rw [Int.natCast_natAbs, Int.cast_abs]
  rw [Int.cast_natCast] at h
  by_cases hs : s < 0
  · have hq : (s : ℚ) < 0 := by exact_mod_cast hs
    simp [ratV, hs, h, abs_of_neg hq]
  · have hq : 0 ≤ (s : ℚ) := by exact_mod_cast not_lt.mp hs
    simp [ratV, hs, h, abs_of_nonneg hq]

/-- The sum of finite values is exact, its zero signed as R134 says. -/
theorem fpAdd_exactIs (rm : Rm) :
    ExactIs (fpAdd rm (.fin n m e) (.fin n' m' e')) (ratV n m 1 e + ratV n' m' 1 e') (zeroSign rm n n') := by
  refine ⟨rfl, ?_⟩
  simp only [fpAdd, addFin]
  generalize he0 : (if e ≤ e' then e else e') = e0
  have h1 : e0 ≤ e := by rw [← he0]; split <;> omega
  have h2 : e0 ≤ e' := by rw [← he0]; split <;> omega
  rw [ratV_align h1, ratV_align h2, ← add_mul, ← Int.cast_add]
  generalize (if n then -((m * 2 ^ (e - e0).toNat : Nat) : Int) else (m * 2 ^ (e - e0).toNat : Nat)) +
    (if n' then -((m' * 2 ^ (e' - e0).toNat : Nat) : Int) else (m' * 2 ^ (e' - e0).toNat : Nat)) = s
  by_cases hs : s = 0
  · subst hs
    refine ⟨0, 1, 0, _, rfl, one_ne_zero, by simp [ratV_zero], fun _ => ?_⟩
    cases rm <;> cases n <;> cases n' <;> rfl
  · rw [if_neg (by simpa using hs)]
    exact ⟨_, 1, e0, _, rfl, one_ne_zero, ratV_natAbs s, fun h0 => absurd (Int.natAbs_eq_zero.mp h0) hs⟩

theorem fpMul_exactIs : ExactIs (fpMul (.fin n m e) (.fin n' m' e')) (ratV n m 1 e * ratV n' m' 1 e') (n != n') :=
  ⟨rfl, _, 1, _, _, rfl, one_ne_zero, ratV_mul.symm, fun _ => rfl⟩

theorem fpDiv_exactIs (hm : m' ≠ 0) : ExactIs (fpDiv (.fin n m e) (.fin n' m' e')) (ratV n m 1 e / ratV n' m' 1 e') (n != n') := by
  have h : fpDiv (.fin n m e) (.fin n' m' e') = (.rat (n != n') m m' (e - e'), 0) := by simp [fpDiv, hm]
  rw [h]
  exact ⟨rfl, _, _, _, _, rfl, hm, ratV_div.symm, fun _ => rfl⟩

/-- a · b + c is the exact sum of the exact product, its sign inverted under `minus`, and c. -/
theorem fpFma_exactIs (rm : Rm) : ExactIs (fpFma rm minus (.fin n m e) (.fin n' m' e') (.fin n'' m'' e''))
    ((if minus then -(ratV n m 1 e * ratV n' m' 1 e') else ratV n m 1 e * ratV n' m' 1 e') + ratV n'' m'' 1 e'')
    (zeroSign rm ((n != n') != minus) n'') := by
  have hp : fpFma rm minus (.fin n m e) (.fin n' m' e') (.fin n'' m'' e'') =
      fpAdd rm (.fin ((n != n') != minus) (m * m') (e + e')) (.fin n'' m'' e'') := by
    cases minus <;> cases n <;> cases n' <;> rfl
  have hv : (if minus then -(ratV n m 1 e * ratV n' m' 1 e') else ratV n m 1 e * ratV n' m' 1 e') =
      ratV ((n != n') != minus) (m * m') 1 (e + e') := by
    rw [ratV_mul]
    cases minus
    · simp
    · simp [ratV_not]
  rw [hp, hv]
  exact fpAdd_exactIs rm

end Sys2Proof

namespace Sys2Proof.Machine

/-- The special values of R153. -/
theorem special_values (rm : Rm) (n m : Bool) (k : Nat) (e e' : Int) (c : Fp) (hk : k ≠ 0) :
    fpAdd rm (.inf n) (.inf !n) = (.nan, .nv) ∧
    fpMul (.fin n 0 e) (.inf m) = (.nan, .nv) ∧ fpMul (.inf m) (.fin n 0 e) = (.nan, .nv) ∧
    fpFma rm false (.fin n 0 e) (.inf m) c = (.nan, .nv) ∧
    fpDiv (.fin n 0 e) (.fin m 0 e') = (.nan, .nv) ∧ fpDiv (.inf n) (.inf m) = (.nan, .nv) ∧
    fpDiv (.fin n k e) (.fin m 0 e') = (.inf (n != m), .dz) := by
  refine ⟨?_, rfl, rfl, ?_, rfl, rfl, ?_⟩
  · cases n <;> rfl
  · cases c <;> rfl
  · simp [fpDiv, hk]

/-- Settles O15: each operation's exact result by its own lemma, and the one rounding by `round_rounds`. -/
theorem floatArithmeticCompletes : Obligations.FloatArithmeticCompletes := by
  unfold Obligations.FloatArithmeticCompletes
  refine ⟨fun s f => ⟨float2_completes (g := fvAdd f) (exec_fadd s f), float2_completes (g := fvSub f) (exec_fsub s f),
    float2_completes (g := fvMul f) (exec_fmul s f), float2_completes (g := fvDiv f) (exec_fdiv s f), fun op => flagOp_completes
      (g := fun o l => fvFma f op (f.opnd o.left l) (f.bBits o l) (f.ty.fbits (o.third.val l))) (exec_ffma s op f)⟩, fun rm n m k e e' c hk => ?_,
    fun rm n n' n'' minus m m' m'' e e' e'' => ⟨fpAdd_exactIs rm, fpMul_exactIs, fpDiv_exactIs, fpFma_exactIs rm⟩,
    fun f rm sat neg n d e hf hd => ⟨fun hn => ?_, Fmt.round_unsigned, fun hn => Fmt.round_rounds (Fmt.proper_of_mem hf) rm sat e hn hd⟩⟩
  · obtain ⟨h1, h2, h3, h4, h5, h6, h7⟩ := special_values rm n m k e e' c hk
    exact ⟨h1, h2, h3, h4, h5, h6, h7, fun f => rfl⟩
  · subst hn
    exact f.round_zero rm sat neg d e

end Sys2Proof.Machine
end

section
/-! SUPPORT. The float functions (R157 to R161): special values, FTRN's results, scaling, classes and conversions. -/
namespace Sys2Proof

variable {k : Nat}

/-! ### Reciprocals (R157) -/

theorem fpRcp_special (n : Bool) (e : Int) (hk : k ≠ 0) : fpRcp .nan = (.nan, 0) ∧ fpRcp (.fin n 0 e) = (.inf n, .dz) ∧
    fpRcp (.inf n) = (.rat n 0 1 0, 0) ∧ fpRcp (.fin n k e) = (.rat n 1 k (-e), 0) := by
  refine ⟨rfl, rfl, rfl, ?_⟩
  simp [fpRcp, hk]

theorem fpRsq_special (n : Bool) (e : Int) (hk : k ≠ 0) : fpRsq .nan = (.nan, 0) ∧ fpRsq (.fin n 0 e) = (.inf n, .dz) ∧
    fpRsq (.inf false) = (.rat false 0 1 0, 0) ∧ fpRsq (.inf true) = (.nan, .nv) ∧ fpRsq (.fin true k e) = (.nan, .nv) := by
  refine ⟨rfl, rfl, rfl, rfl, ?_⟩
  simp [fpRsq, hk]

/-! ### FTRN (R158) -/

theorem turnOf_zero (n : Bool) (e : Int) : turnOf n 0 e = 0 := by simp [turnOf]

/-- A quarter turn on from 0 the cosine is 1. -/
theorem trnCos_zero (n : Bool) (e : Int) : trnV .cos2pi (.fin n 0 e) = .exact (.rat false 1 1 0) 0 := by
  have hq : 2 ^ (tp - 2) % 2 ^ tp = 2 ^ (tp - 2) := Nat.mod_eq_of_lt (Nat.pow_lt_pow_right one_lt_two (by decide))
  simp only [trnV, trnSin, turnOf_zero, Nat.zero_add, if_true, hq, Nat.mod_self, Nat.div_self (Nat.two_pow_pos (tp - 2))]
  simp

theorem trnExp2_zero (n : Bool) (e : Int) : trnV .exp2 (.fin n 0 e) = .exact (.rat false 1 1 0) 0 := by
  simp [trnV, trnExp2, clampMag]

/-- The values of R158's table at the zeros and, of log2, at negative numbers. -/
theorem trnV_zero (n : Bool) (e : Int) (hk : k ≠ 0) :
    trnV .log2 (.fin n 0 e) = .exact (.inf true) .dz ∧ trnV .log2 (.fin true k e) = .exact .nan .nv ∧
    trnV .tanh (.fin n 0 e) = .exact (.rat n 0 1 0) 0 ∧ trnV .sigm (.fin n 0 e) = .exact (.rat false 1 1 (-1)) 0 ∧
    trnV .sin2pi (.fin n 0 e) = .exact (.rat n 0 1 0) 0 ∧ trnV .cos2pi (.fin n 0 e) = .exact (.rat false 1 1 0) 0 ∧
    trnV .exp2 (.fin n 0 e) = .exact (.rat false 1 1 0) 0 := by
  refine ⟨rfl, ?_, rfl, rfl, rfl, trnCos_zero n e, trnExp2_zero n e⟩
  simp [trnV, trnLog2, hk]

theorem trnV_nan (fn : Trn) : trnV fn .nan = .exact .nan 0 := by cases fn <;> rfl

section

variable {fn : Trn} {m : Fmt} {bits n d : Nat} {neg : Bool} {e : Int}

/-- Where the function's value is exact, it is rounded to nearest. -/
theorem ftrn_exact {x : Ex} {fl : Flags} (h : trnV fn (m.decode bits) = .exact x fl) :
    ftrn fn m bits = ((m.round .rne false x).1, fl ||| (m.round .rne false x).2) := by
  rw [ftrn, h]

variable (hn : n ≠ 0) (h : trnV fn (m.decode bits) = .near neg n d e)
include hn h

/-- Elsewhere the result is the nearest to the value or, in FP32, a free one within the bound of R158 (log 4). -/
theorem ftrn_near : (ftrn fn m bits).1 = (m.round .rne false (.rat neg n d e)).1 ∨
    m = .f32 ∧ ∃ cn cm ce, m.decode (ftrn fn m bits).1 = .fin cn cm ce ∧ (cm = 0 → cn = neg) ∧
      withinBound neg n d e cn cm ce (trnBound fn n d e).1 (trnBound fn n d e).2 = true := by
  obtain ⟨k, rfl⟩ := Nat.exists_eq_succ_of_ne_zero hn
  simp only [ftrn, h]
  split
  case isTrue hfree =>
    split
    case h_1 cn cm ce hdec =>
      split
      case isTrue hin =>
        simp only [Bool.and_eq_true, Bool.or_eq_true, bne_iff_ne, beq_iff_eq] at hfree hin
        exact .inr ⟨hfree.1, cn, cm, ce, hdec, hin.2.neg_resolve_left, hin.1⟩
      case isFalse => exact .inl rfl
    case h_2 => exact .inl rfl
  case isFalse => exact .inl rfl

/-- Such a result is inexact. -/
theorem ftrn_near_inexact : (ftrn fn m bits).2 ||| Flags.nx = (ftrn fn m bits).2 := by
  obtain ⟨k, rfl⟩ := Nat.exists_eq_succ_of_ne_zero hn
  have hfl : (ftrn fn m bits).2 = (m.round .rne false (.rat neg (k + 1) d e)).2 ||| .nx |||
      .when (m.roundMag .rne neg (k + 1) d e).2.2.2 .uf := by
    simp only [ftrn, h]
    split
    · split
      · split <;> rfl
      · rfl
    · rfl
  rw [hfl, BitVec.or_assoc, BitVec.or_assoc, BitVec.or_comm _ Flags.nx, ← BitVec.or_assoc Flags.nx, BitVec.or_self, BitVec.or_assoc]

end

/-! ### FSCL and FCLS (R159, R160) -/

/-- FSCL adds n to the exponent before the one rounding (R159). -/
theorem fvScl_values (f : FloatF) (a : Nat) (n : Int) :
    (f.ty.fmt.decode a = .nan → fvScl f a n = f.out (.nan, 0)) ∧
    (∀ b, f.ty.fmt.decode a = .inf b → fvScl f a n = f.out (.inf b, 0)) ∧
    (∀ b k e, f.ty.fmt.decode a = .fin b k e → -1000 ≤ n → n ≤ 1000 → fvScl f a n = f.out (.rat b k 1 (e + n), 0)) := by
  refine ⟨fun h => ?_, fun b h => ?_, fun b k e h h1 h2 => ?_⟩
  · rw [fvScl, h]
    rfl
  · rw [fvScl, h]
    rfl
  · have hc : clampExp n = n := by rw [clampExp, if_neg (by omega), if_neg (by omega)]
    simp only [fvScl, h, hc]

/-- The nine classes of R160. -/
theorem classWord_values (m : Fmt) (b k : Nat) (e : Int) :
    (m.decode b = .inf true → classWord m b = 2 ^ 0) ∧
    (m.decode b = .fin true k e → 2 ^ m.fbits ≤ k → classWord m b = 2 ^ 1) ∧
    (m.decode b = .fin true k e → 0 < k → k < 2 ^ m.fbits → classWord m b = 2 ^ 2) ∧
    (m.decode b = .fin true 0 e → classWord m b = 2 ^ 3) ∧
    (m.decode b = .fin false 0 e → classWord m b = 2 ^ 4) ∧
    (m.decode b = .fin false k e → 0 < k → k < 2 ^ m.fbits → classWord m b = 2 ^ 5) ∧
    (m.decode b = .fin false k e → 2 ^ m.fbits ≤ k → classWord m b = 2 ^ 6) ∧
    (m.decode b = .inf false → classWord m b = 2 ^ 7) ∧
    (m.decode b = .nan → classWord m b = 2 ^ 8) := by
  have hp := Nat.two_pow_pos m.fbits
  have normal (s : Bool) (h : m.decode b = .fin s k e) (hk : 2 ^ m.fbits ≤ k) : classWord m b = if s then 2 else 64 := by
    have h0 : k ≠ 0 := by omega
    simp [classWord, h, h0, hk]
  have subnormal (s : Bool) (h : m.decode b = .fin s k e) (h0 : 0 < k) (hk : k < 2 ^ m.fbits) : classWord m b = if s then 4 else 32 := by
    simp [classWord, h, h0.ne', hk]
  refine ⟨fun h => ?_, normal true, subnormal true, fun h => ?_, fun h => ?_, subnormal false, normal false, fun h => ?_, fun h => ?_⟩ <;>
    simp [classWord, h]

/-- FCLS tests its class word against the nine bits of its mask (R160). -/
theorem fvCls_mask (src : FmtCode) (x : W64) (mask : BitVec 24) : fvCls src (some mask) x = 1 ↔
    ∃ j, j < 9 ∧ (classWord src.fmt (x.toNat % 2 ^ src.width)).testBit j = true ∧ mask.getLsbD j = true := by
  generalize hc : classWord src.fmt (x.toNat % 2 ^ src.width) = c
  have hbit (j : Nat) : (c &&& mask.toNat % 512).testBit j = (c.testBit j && (decide (j < 9) && mask.getLsbD j)) := by
    rw [Nat.testBit_and, show 512 = 2 ^ 9 from rfl, Nat.testBit_mod_two_pow]
    rfl
  have hw : fvCls src (some mask) x = 1 ↔ c &&& mask.toNat % 512 ≠ 0 := by
    rw [fvCls, hc, boolW]
    split <;> simp_all
  rw [hw]
  refine ⟨fun h0 => ?_, fun ⟨j, hj, h1, h2⟩ h0 => ?_⟩
  · obtain ⟨j, hj⟩ := Nat.exists_testBit_of_ne_zero h0
    simp only [hbit, Bool.and_eq_true, decide_eq_true_eq] at hj
    exact ⟨j, hj.2.1, hj.1, hj.2.2⟩
  · have := hbit j
    simp [h0, h1, h2, hj] at this

/-! ### CVT (R161) -/

section

variable {src dst : FmtCode} {f : FloatF} {x : W64} {n : Bool} {e : Int}

/-- CVT of a float to another float format is the one rounding (R161). -/
theorem fvCvt_float (hs8 : src ≠ .i8) (hsi : src ≠ .int) (hd8 : dst ≠ .i8) (hdi : dst ≠ .int) (hne : src ≠ dst) :
    fvCvt src dst f x = fres (dst.fmt.round f.rm f.sat (src.fmt.decode (x.toNat % 2 ^ src.width)).ex) := by
  have hb : (src == dst) = false := by simpa using hne
  cases src with
  | i8 => exact absurd rfl hs8
  | int => exact absurd rfl hsi
  | _ =>
    cases dst with
    | i8 => exact absurd rfl hd8
    | int => exact absurd rfl hdi
    | _ => simp only [fvCvt, fres, hb, Bool.false_eq_true, if_false]

theorem fvCvt_of_int (hd8 : dst ≠ .i8) (hdi : dst ≠ .int) :
    fvCvt .int dst f x = fres (dst.fmt.round f.rm f.sat (intFp (f.ty.int x)).ex) := by
  cases dst with
  | i8 => exact absurd rfl hd8
  | int => exact absurd rfl hdi
  | _ => rfl

/-- CVT of a float to TY's integers is R139's conversion, in TY's width. -/
theorem fvCvt_to_int (hs8 : src ≠ .i8) (hsi : src ≠ .int) : fvCvt src .int f x =
    (f.ty.wrap (fpToInt f.rm f.ty.lo f.ty.hi (src.fmt.decode (x.toNat % 2 ^ src.width))).1,
      (fpToInt f.rm f.ty.lo f.ty.hi (src.fmt.decode (x.toNat % 2 ^ src.width))).2) := by
  cases src with
  | i8 => exact absurd rfl hs8
  | int => exact absurd rfl hsi
  | _ => rfl

theorem fpToInt_nan (rm : Rm) (lo hi : Int) : fpToInt rm lo hi .nan = (0, .nv) := rfl

theorem Ty.wrap_zero (t : Ty) : t.wrap 0 = 0 := by cases t <;> rfl

/-- An integer clamped to TY's range is what its wrapped value reads as. -/
theorem Ty.int_wrap_clamp (t : Ty) (i : Int) : t.int (t.wrap (clampInt t.lo t.hi i)) = max t.lo (min t.hi i) := by
  have h := t.lo_le_hi
  rw [clampInt_eq _ _ _ h]
  exact t.int_wrap _ (by omega) (by omega)

/-- An infinity converts to the end of TY's range, a finite value to its rounding, clamped (R139). -/
theorem fvCvt_to_int_values (hs8 : src ≠ .i8) (hsi : src ≠ .int) :
    let v := src.fmt.decode (x.toNat % 2 ^ src.width)
    (v = .nan → fvCvt src .int f x = (0, .nv)) ∧
    (v = .inf n → f.ty.int (fvCvt src .int f x).1 = (if n then f.ty.lo else f.ty.hi) ∧ (fvCvt src .int f x).2 = .nv) ∧
    (v = .fin n k e → f.ty.int (fvCvt src .int f x).1 = max f.ty.lo (min f.ty.hi (roundToInt f.rm n k 1 e).1)) := by
  intro v
  have hv := fvCvt_to_int (f := f) (x := x) hs8 hsi
  have hr := f.ty.lo_le_hi
  refine ⟨fun h => ?_, fun h => ?_, fun h => ?_⟩ <;> rw [hv, show src.fmt.decode (x.toNat % 2 ^ src.width) = _ from h]
  · rw [fpToInt_nan, Ty.wrap_zero]
  · refine ⟨?_, rfl⟩
    cases n
    · exact f.ty.int_wrap _ hr le_rfl
    · exact f.ty.int_wrap _ le_rfl hr
  · exact f.ty.int_wrap_clamp _

/-- An INT8 value is clamped to TY's range (log 96). -/
theorem fvCvt_i8_int : f.ty.int (fvCvt .i8 .int f x).1 = max f.ty.lo (min f.ty.hi (x.setWidth 8 : W8).toInt) := f.ty.int_wrap_clamp _

end

end Sys2Proof

namespace Sys2Proof.Machine

/-- FSCL's n is its immediate or its right operand (R159). -/
theorem fscl_completes (s : State) (f : FloatF) : FloatCompletes s (.fscl f) f.t0 f.t1 false (fun x l =>
    fvScl f (f.opnd x.o.left l) ((f.imm.map fun v => v.toInt).getD (x.o.right.val32 l).toInt)) := by
  have h := flagOp_completes (exec_fscl s f)
  cases hi : f.imm <;> simpa [hi] using h

/-- Settles O16: each function by the lemmas of its values. -/
theorem floatFunctionsComplete : Obligations.FloatFunctionsComplete := by
  unfold Obligations.FloatFunctionsComplete
  refine ⟨fun s f => ⟨float1_completes (g := fvRcp f) (exec_frcp s f), float1_completes (g := fvRsq f) (exec_frsq s f),
    fun fn => float1_completes (g := fun a => fres (ftrn fn f.ty.fmt a)) (exec_ftrn s fn f), fscl_completes s f,
    fun src pr u mask a b => flagOp_completes (g := fun o l => (fvCls src mask (o.left.val l), 0)) (exec_fcls s src pr u mask a b),
    fun src dst => flagOp_completes (g := fun o l => fvCvt src dst f (if src == .int then o.left.atTy f.ty l else o.left.val l)) (exec_cvt s src dst f),
    fun bf op => flagOp_completes (g := fun o l => fvFop2 bf op f (o.left.val l) (o.right.val l) (o.third.val l)) (exec_fop2 s bf op f)⟩,
    fun n k e hk => ?_, ⟨rfl, rfl, rfl, rfl, fun n => ⟨rfl, rfl, rfl⟩, rfl, rfl, trnV_nan⟩,
    fun fn m bits => ⟨fun x fl => ftrn_exact, fun neg n d e hn h => ⟨fun hm => ?_, fun _ => ?_, ftrn_near_inexact hn h⟩⟩,
    fvScl_values, classWord_values, fun src x mask => ⟨rfl, fvCls_mask src x mask⟩,
    fun src dst f x => ⟨fvCvt_float, fvCvt_of_int, fun hs8 hsi => ?_, fun n _ hs8 hsi => ?_, fun n k e _ hs8 hsi => ?_, fun _ => fvCvt_i8_int⟩⟩
  · obtain ⟨h1, h2, h3, h4⟩ := fpRcp_special n e hk
    obtain ⟨h5, h6, h7, h8, h9⟩ := fpRsq_special n e hk
    exact ⟨h1, h2, h3, h4, h5, h6, h7, h8, h9, trnV_zero n e hk⟩
  · exact (ftrn_near hn h).resolve_right fun h => hm h.1
  · exact (ftrn_near hn h).imp_right And.right
  · exact (fvCvt_to_int_values (n := false) (k := 0) (e := 0) hs8 hsi).1
  · exact (fvCvt_to_int_values (n := n) (k := 0) (e := 0) hs8 hsi).2.1
  · exact (fvCvt_to_int_values hs8 hsi).2.2

end Sys2Proof.Machine
end

section
/-! SUPPORT. Quantisation (R147, R148, R164 to R166): the scale of QMAX, the quotient of QCVT and the product of DQCV. -/
namespace Sys2Proof

variable {n s u : Bool} {m sm k : Nat} {e se : Int} {x : Fp} {xs : List Fp} {t : QFmt} {f : QuantF}

/-! ### The largest magnitude -/

/-- Magnitudes compare as their values do. -/
theorem fpLt_magnitudes (m m' : Nat) (e e' : Int) : fpLt (.fin false m e) (.fin false m' e') = true ↔ ratV false m 1 e < ratV false m' 1 e' := by
  simp only [fpLt, Bool.false_eq_true, if_false, decide_eq_true_eq]
  generalize he0 : (if e ≤ e' then e else e') = e0
  have h1 : e0 ≤ e := by rw [← he0]; split <;> omega
  have h2 : e0 ≤ e' := by rw [← he0]; split <;> omega
  rw [ratV_align h1, ratV_align h2, mul_lt_mul_iff_of_pos_right (by positivity), Int.cast_lt]
  rfl

/-- qmaxScale's step: the greater of a magnitude and a value's. -/
def amaxStep (a : Nat × Int) (x : Fp) : Nat × Int :=
  match x with
  | .fin _ m e => if fpLt (.fin false a.1 a.2) (.fin false m e) then (m, e) else a
  | _ => a

/-- R147's largest magnitude, 0 of no value. -/
def amax (xs : List Fp) : Nat × Int := xs.foldl amaxStep (0, 0)

/-- The scale of a largest magnitude (R147). -/
def scaleOf (u : Bool) (t : QFmt) (a : Nat × Int) : Nat × Flags :=
  if a.1 == 0 then (if u then 0x78 else 0x7F, 0)
  else if u then
    let r := Fmt.ue5m3.roundMag .rup false a.1 t.fmax a.2
    if Fmt.ue5m3.beyond r.1 r.2.1 then (Fmt.ue5m3.maxFin, .sf) else (Fmt.ue5m3.encodeMag r.1 r.2.1, 0)
  else
    let e := floorLog2 a.1 1 + a.2 - t.emax
    ((clampInt (-127) 127 e + 127).toNat, .when (clampInt (-127) 127 e != e) .sf)

/-- A NaN or an infinity. -/
def Fp.special : Fp → Bool
  | .fin .. => false
  | _ => true

/-- All values of a list are finite. -/
def AllFin (xs : List Fp) : Prop := ∀ x ∈ xs, ∃ n m e, x = .fin n m e

/-- QMAX's scale is 0xFF of a special value, elsewhere that of the largest magnitude (R147). -/
theorem qmaxScale_eq (u : Bool) (t : QFmt) (xs : List Fp) :
    qmaxScale u t xs = if xs.any Fp.special then (0xFF, .nv) else scaleOf u t (amax xs) := rfl

theorem qmaxScale_special (h : ∃ x ∈ xs, x = .nan ∨ ∃ n, x = .inf n) : qmaxScale u t xs = (0xFF, .nv) := by
  obtain ⟨x, hx, h⟩ := h
  rw [qmaxScale_eq, if_pos]
  refine List.any_eq_true.mpr ⟨x, hx, ?_⟩
  rcases h with rfl | ⟨n, rfl⟩ <;> rfl

theorem qmaxScale_finite (h : AllFin xs) : qmaxScale u t xs = scaleOf u t (amax xs) := by
  have hfin : xs.any Fp.special = false := List.any_eq_false.mpr fun x hx => by
    obtain ⟨n, m, e, rfl⟩ := h x hx
    exact Bool.false_ne_true
  rw [qmaxScale_eq, hfin]
  rfl

/-- Zeros leave no magnitude but 0. -/
theorem amax_zeros (h : ∀ x ∈ xs, ∃ n e, x = .fin n 0 e) : amax xs = (0, 0) := by
  unfold amax
  induction xs with
  | nil => rfl
  | cons x xs ih =>
    obtain ⟨n, e, rfl⟩ := h x List.mem_cons_self
    have hstep : amaxStep (0, 0) (.fin n 0 e) = (0, 0) := if_neg (by rw [fpLt_magnitudes, ratV_zero, ratV_zero]; exact lt_irrefl 0)
    rw [List.foldl_cons, hstep]
    exact ih fun x hx => h x (List.mem_cons_of_mem _ hx)

/-- amaxStep answers the greater of two magnitudes. -/
theorem amaxStep_fin (a : Nat × Int) (n : Bool) (m : Nat) (e : Int) :
    (amaxStep a (.fin n m e) = a ∨ amaxStep a (.fin n m e) = (m, e)) ∧
    ratV false a.1 1 a.2 ≤ ratV false (amaxStep a (.fin n m e)).1 1 (amaxStep a (.fin n m e)).2 ∧
    ratV false m 1 e ≤ ratV false (amaxStep a (.fin n m e)).1 1 (amaxStep a (.fin n m e)).2 := by
  simp only [amaxStep]
  split
  case isTrue h => exact ⟨.inr rfl, ((fpLt_magnitudes ..).mp h).le, le_rfl⟩
  case isFalse h => exact ⟨.inl rfl, le_rfl, not_lt.mp fun hlt => h ((fpLt_magnitudes ..).mpr hlt)⟩

/-- The fold of amaxStep answers its start or a magnitude of the list, and none is above it. -/
theorem foldl_amaxStep (h : AllFin xs) (a : Nat × Int) :
    let r := xs.foldl amaxStep a
    (r = a ∨ ∃ n, Fp.fin n r.1 r.2 ∈ xs) ∧ ratV false a.1 1 a.2 ≤ ratV false r.1 1 r.2 ∧
    ∀ n m e, Fp.fin n m e ∈ xs → ratV false m 1 e ≤ ratV false r.1 1 r.2 := by
  induction xs generalizing a with
  | nil => exact ⟨.inl rfl, le_rfl, fun _ _ _ h => absurd h List.not_mem_nil⟩
  | cons x xs ih =>
    obtain ⟨n, m, e, rfl⟩ := h x List.mem_cons_self
    obtain ⟨hfrom, hstart, hall⟩ := ih (fun x hx => h x (List.mem_cons_of_mem _ hx)) (amaxStep a (.fin n m e))
    obtain ⟨hone, ha, hm⟩ := amaxStep_fin a n m e
    refine ⟨?_, ha.trans hstart, fun n' m' e' hmem => ?_⟩
    · rw [List.foldl_cons]
      rcases hfrom with hr | ⟨n', hr⟩
      · rw [hr]
        exact hone.imp_right fun he => ⟨n, by rw [he]; exact List.mem_cons_self⟩
      · exact .inr ⟨n', List.mem_cons_of_mem _ hr⟩
    · rcases List.mem_cons.mp hmem with heq | hmem
      · cases heq
        exact hm.trans hstart
      · exact hall n' m' e' hmem

/-- The scale of one value is that of its magnitude. -/
theorem qmaxScale_one (u : Bool) (t : QFmt) (n : Bool) (m : Nat) (e : Int) : qmaxScale u t [.fin n m e] = scaleOf u t (m, e) := by
  rw [qmaxScale_finite fun x hx => ⟨n, m, e, List.mem_singleton.mp hx⟩]
  by_cases hm : m = 0
  · subst hm
    rw [amax_zeros fun x hx => ⟨n, e, List.mem_singleton.mp hx⟩]
    rfl
  · have hstep : amax [.fin n m e] = (m, e) :=
      if_pos ((fpLt_magnitudes ..).mpr (by rw [ratV_zero]; exact ratV_pos hm one_ne_zero))
    rw [hstep]

/-- The scale of finite values is that of one of them whose magnitude none is above. -/
theorem qmaxScale_largest (h : AllFin xs) (hne : xs ≠ []) : ∃ n m e, Fp.fin n m e ∈ xs ∧
    (∀ a b c, Fp.fin a b c ∈ xs → fpLt (.fin false m e) (.fin false b c) = false) ∧
    qmaxScale u t xs = qmaxScale u t [.fin n m e] := by
  obtain ⟨hfrom, -, hall⟩ := foldl_amaxStep h (0, 0)
  have hnot {m e b c} (hle : ratV false b 1 c ≤ ratV false m 1 e) : fpLt (.fin false m e) (.fin false b c) = false := by
    rw [← Bool.not_eq_true, fpLt_magnitudes]
    exact not_lt.mpr hle
  simp only [qmaxScale_one, qmaxScale_finite h]
  rcases hfrom with hzero | ⟨n, hmem⟩
  · -- no magnitude above 0: the first value is a zero
    obtain ⟨x, xs, rfl⟩ := List.exists_cons_of_ne_nil hne
    obtain ⟨n, m, e, rfl⟩ := h x List.mem_cons_self
    rw [hzero] at hall
    simp only [ratV_zero] at hall
    have hm : m = 0 := by
      by_contra hm
      exact absurd (hall n m e List.mem_cons_self) (not_le.mpr (ratV_pos hm one_ne_zero))
    subst hm
    refine ⟨n, 0, e, List.mem_cons_self, fun a b c hmem => hnot ?_, ?_⟩
    · rw [ratV_zero]
      exact hall a b c hmem
    · rw [amax, hzero]
      rfl
  · exact ⟨n, _, _, hmem, fun a b c hb => hnot (hall a b c hb), rfl⟩

theorem qmaxScale_zeros (h : ∀ x ∈ xs, ∃ n e, x = .fin n 0 e) : qmaxScale u t xs = (if u then 0x78 else 0x7F, 0) := by
  rw [qmaxScale_finite fun x hx => by obtain ⟨n, e, hx⟩ := h x hx; exact ⟨n, 0, e, hx⟩, amax_zeros h]
  rfl

/-! ### The scale's two forms (R147) -/

theorem floorLog2_one (h1 : 2 ^ k ≤ m) (h2 : m < 2 ^ (k + 1)) : floorLog2 m 1 = k := by
  have hm : m ≠ 0 := by
    have := Nat.two_pow_pos k
    omega
  have hk : m.log2 = k := (Nat.log2_eq_iff hm).mpr ⟨h1, h2⟩
  have h1' : Nat.log2 1 = 0 := rfl
  simp [floorLog2, hk, h1', h1]

/-- E8M0's exponent is that of the largest magnitude less the target's, held from −127 to 127. -/
theorem scaleOf_e8m0 (t : QFmt) (e : Int) (h1 : 2 ^ k ≤ m) (h2 : m < 2 ^ (k + 1)) :
    let x : Int := k + e - t.emax
    ((scaleOf false t (m, e)).1 : Int) = max (-127) (min 127 x) + 127 ∧
    (scaleOf false t (m, e)).2 = Flags.when (decide (x < -127 ∨ 127 < x)) .sf := by
  intro x
  have hm : (m == 0) = false := by
    have := Nat.two_pow_pos k
    simp only [beq_eq_false_iff_ne]
    omega
  have hs : scaleOf false t (m, e) = ((clampInt (-127) 127 x + 127).toNat, .when (clampInt (-127) 127 x != x) .sf) := by
    simp only [scaleOf, hm, Bool.false_eq_true, if_false, floorLog2_one h1 h2]
    rfl
  rw [hs, clampInt_eq _ _ _ (by omega)]
  refine ⟨Int.toNat_of_nonneg (by omega), congrArg (Flags.when · .sf) ?_⟩
  rw [Bool.eq_iff_iff, bne_iff_ne, decide_eq_true_eq]
  omega

theorem scaleOf_ue5m3 (t : QFmt) (e : Int) (hm : m ≠ 0) :
    let r := Fmt.ue5m3.roundMag .rup false m t.fmax e
    scaleOf true t (m, e) = if Fmt.ue5m3.beyond r.1 r.2.1 then (Fmt.ue5m3.maxFin, .sf) else (Fmt.ue5m3.encodeMag r.1 r.2.1, 0) :=
  if_neg (by simpa using hm)

/-! ### QCVT and DQCV (R148) -/

/-- The NaN of a target, 0 of an integer. -/
def QFmt.nan (t : QFmt) : Nat := (t.fmt.map (·.canonNaN)).getD 0

/-- What R148 says of NaNs, infinities and zero scales. -/
theorem qcvtVal_nan (f : QuantF) (x : Fp) :
    qcvtVal f .nan x = (BitVec.ofNat 64 f.tgt.nan, .nv) ∧ qcvtVal f x .nan = (BitVec.ofNat 64 f.tgt.nan, .nv) := by
  cases h : f.tgt.fmt <;> cases x <;> simp [qcvtVal, fres, QFmt.nan, h]

theorem qcvtVal_inf (f : QuantF) (n : Bool) (hx : x ≠ .nan) : qcvtVal f (.inf n) x = (BitVec.ofNat 64 (qClamp f.tgt n), .sf) := by
  cases x with
  | nan => exact absurd rfl hx
  | _ => rfl

theorem qcvtVal_zero_scale (f : QuantF) (n s : Bool) (e se : Int) (hm : m ≠ 0) :
    qcvtVal f (.fin n m e) (.fin s 0 se) = (BitVec.ofNat 64 (qClamp f.tgt n), .sf ||| .dz) ∧
    qcvtVal f (.fin n 0 e) (.fin s 0 se) = (BitVec.ofNat 64 f.tgt.nan, .nv) := by
  refine ⟨?_, ?_⟩
  · simp [qcvtVal, fres, hm]
  · cases h : f.tgt.fmt <;> simp [qcvtVal, fres, QFmt.nan, h]

/-- The quotient of an integer target is clamped beyond its range, and within it is the rounded integer. -/
theorem qcvtVal_int (n s : Bool) (m : Nat) (e se : Int) (hs : sm ≠ 0) (ht : f.tgt.fmt = none) :
    let i := (roundToInt f.rm n m sm (e - se)).1
    (i < -(f.tgt.fmax : Int) - 1 ∨ (f.tgt.fmax : Int) < i →
      qcvtVal f (.fin n m e) (.fin s sm se) = (BitVec.ofNat 64 (qClamp f.tgt n), .sf ||| .nx)) ∧
    (-(f.tgt.fmax : Int) - 1 ≤ i → i ≤ f.tgt.fmax → (qcvtVal f (.fin n m e) (.fin s sm se)).1 = BitVec.ofNat 64 (intBits 8 i)) := by
  intro i
  refine ⟨fun h => ?_, fun h1 h2 => ?_⟩
  · simp [qcvtVal, fres, hs, ht, h, i]
  · simp [qcvtVal, fres, hs, ht, not_lt.mpr h1, not_lt.mpr h2, i]

/-- The quotient of a float target is clamped where its rounding is beyond the largest value, and elsewhere is the rounding. -/
theorem qcvtVal_float {g : Fmt} (n s : Bool) (e se : Int) (hm : m ≠ 0) (hs : sm ≠ 0) (ht : f.tgt.fmt = some g) :
    let r := g.roundMag f.rm n m sm (e - se)
    (g.beyond r.1 r.2.1 = true → qcvtVal f (.fin n m e) (.fin s sm se) = (BitVec.ofNat 64 (qClamp f.tgt n), .sf ||| .nx)) ∧
    (g.beyond r.1 r.2.1 = false → (qcvtVal f (.fin n m e) (.fin s sm se)).1 = BitVec.ofNat 64 (g.signBit n + g.encodeMag r.1 r.2.1)) := by
  intro r
  refine ⟨fun h => ?_, fun h => ?_⟩
  · simp [qcvtVal, fres, hm, hs, ht, h, r]
  · simp [qcvtVal, fres, hm, hs, ht, h, r]

/-- DQCV rounds the exact product once. -/
theorem dqcvVal_product (f : QuantF) (q : W64) (s : Bool) (sm : Nat) (se : Int) (h : dqVal f.tgt q = .fin n m e) :
    dqcvVal f q (.fin s sm se) = fres (f.ty.fmt.round f.rm f.sat (.rat (n != s) (m * sm) 1 (e + se))) := by
  simp [dqcvVal, fres, h, fpMulV, Fp.ex]

end Sys2Proof

namespace Sys2Proof.Machine

/-- QMAX delivers its scale as a uniform token that is always valid (R164). -/
theorem qmax_delivers {s : State} {f : QuantF} {x : Issue} (h : Fires s (.qmax f) x) :
    let r := qmaxScale f.ue5m3 f.tgt
      ((allLanes.filter (laneOk (.qmax f) x.o)).map fun l => f.ty.fmt.decode (f.ty.fbits (x.o.left.val l)))
    Delivers s (.qmax f) x [f.t0, f.t1] (Token.uniform false true (BitVec.ofNat 64 r.1)) r.2 := pure_delivers (exec_qmax s f) h

theorem qcvt_completes (s : State) (f : QuantF) : FloatCompletes s (.qcvt f) f.t0 f.t1 false (fun x l =>
    qcvtVal f (f.ty.fmt.decode (f.ty.fbits (x.o.left.val l))) (scaleVal f.ue5m3 ((x.o.right.val l).setWidth 8).toNat)) :=
  flagOp_completes (g := fun o l =>
    qcvtVal f (f.ty.fmt.decode (f.ty.fbits (o.left.val l))) (scaleVal f.ue5m3 ((o.right.val l).setWidth 8).toNat)) (exec_qcvt s f)

theorem dqcv_completes (s : State) (f : QuantF) : FloatCompletes s (.dqcv f) f.t0 f.t1 false (fun x l =>
    dqcvVal f (x.o.left.val l) (scaleVal f.ue5m3 ((x.o.right.val l).setWidth 8).toNat)) :=
  flagOp_completes (g := fun o l =>
    dqcvVal f (o.left.val l) (scaleVal f.ue5m3 ((o.right.val l).setWidth 8).toNat)) (exec_dqcv s f)

/-- Settles O18: the scale from the largest magnitude, the quotient and the product each by its own lemma. -/
theorem quantisationCompletes : Obligations.QuantisationCompletes := by
  unfold Obligations.QuantisationCompletes
  refine ⟨fun s f x => ⟨qmax_delivers, qcvt_completes s f, dqcv_completes s f⟩,
    fun u t xs => ⟨qmaxScale_special, qmaxScale_zeros, qmaxScale_largest⟩, fun t n m e k h1 h2 => ?_, fun t n m e hm => ?_,
    fun f n m e x hm => ⟨(qcvtVal_nan f x).1, (qcvtVal_nan f x).2, qcvtVal_inf f n, fun s se => qcvtVal_zero_scale f n s e se hm,
      fun s sm se hs ht => qcvtVal_int n s m e se hs ht, fun g s sm se hs ht => qcvtVal_float n s e se hm hs ht⟩,
    fun f q n s m sm e se h => dqcvVal_product f q s sm se h⟩
  · rw [qmaxScale_one]
    exact scaleOf_e8m0 t e h1 h2
  · rw [qmaxScale_one]
    exact scaleOf_ue5m3 t e hm

end Sys2Proof.Machine
end

section
/-! SUPPORT. Values of FMIN, FMAX, FSGN and FCMP (R154 to R156). -/
namespace Sys2Proof

variable {m : Fmt} {a b : Nat}

/-! ### FMIN and FMAX (R154) -/

/-- A NaN gives way to the other operand or, under `.nan`, wins as the canonical NaN. -/
theorem minMaxBits_nan (m : Fmt) (max nan : Bool) (a b : Nat) :
    (m.decode a = .nan → m.decode b = .nan → minMaxBits m max nan a b = m.canonNaN) ∧
    (m.decode a = .nan → m.decode b ≠ .nan → minMaxBits m max nan a b = if nan then m.canonNaN else b) ∧
    (m.decode a ≠ .nan → m.decode b = .nan → minMaxBits m max nan a b = if nan then m.canonNaN else a) := by
  refine ⟨fun ha hb => ?_, fun ha hb => ?_, fun ha hb => ?_⟩
  · rw [minMaxBits, ha, hb]
  · rw [minMaxBits, ha]
    cases h : m.decode b with
    | nan => exact absurd h hb
    | _ => rfl
  · rw [minMaxBits, hb]
    cases h : m.decode a with
    | nan => exact absurd h ha
    | _ => rfl

/-- Of two numbers the second is chosen where it is strictly beyond the first, −0 below +0. -/
theorem minMaxBits_numbers (max nan : Bool) (ha : m.decode a ≠ .nan) (hb : m.decode b ≠ .nan) : minMaxBits m max nan a b =
    if max then (if fpBelow (m.decode a) (m.decode b) then b else a) else (if fpBelow (m.decode b) (m.decode a) then b else a) := by
  unfold minMaxBits
  split
  case h_1 => exact absurd ‹m.decode a = .nan› ha
  case h_2 => exact absurd ‹m.decode a = .nan› ha
  case h_3 => exact absurd ‹m.decode b = .nan› hb
  case h_4 => rfl

/-! ### FSGN (R155) -/

/-- The sign FSGN gives, from the signs of its operands. -/
def SgnOp.sign (op : SgnOp) (sa sb : Bool) : Bool :=
  match op with
  | .copy => sb
  | .ncopy => !sb
  | .xor => sa != sb
  | .abs => false
  | .neg => !sa

/-- The bits FSGN gives. -/
def sgnBits (m : Fmt) (op : SgnOp) (a : Nat) (sb : Bool) : Nat :=
  if m.decode a = .nan then m.canonNaN else m.signBit (op.sign (a.testBit m.magBits) sb) + a % 2 ^ m.magBits

theorem fvSgn_eq (f : FloatF) (op : SgnOp) (a : Nat) (sb : Bool) : fvSgn f op a sb = (BitVec.ofNat 64 (sgnBits f.ty.fmt op a sb), 0) := by
  rw [sgnBits]
  split
  case isTrue h => exact if_pos (beq_iff_eq.mpr h)
  case isFalse h => exact if_neg (mt beq_iff_eq.mp h)

/-- Each float layout of TY has a sign. -/
theorem Ty.fmt_signed (t : Ty) : t.fmt.signed = true := by cases t <;> rfl

/-- A sign set above a magnitude leaves the magnitude's bits. -/
theorem signBit_add_testBit (hm : m.signed = true) (s : Bool) (a : Nat) :
    (∀ k, k < m.magBits → (m.signBit s + a % 2 ^ m.magBits).testBit k = a.testBit k) ∧
    (m.signBit s + a % 2 ^ m.magBits).testBit m.magBits = s := by
  have hlow (k : Nat) (hk : k < m.magBits) : (a % 2 ^ m.magBits).testBit k = a.testBit k := by
    rw [Nat.testBit_mod_two_pow, decide_eq_true hk, Bool.true_and]
  have htop : (a % 2 ^ m.magBits).testBit m.magBits = false := by
    rw [Nat.testBit_mod_two_pow, decide_eq_false (lt_irrefl _), Bool.false_and]
  cases s
  · have h0 : m.signBit false = 0 := rfl
    rw [h0, Nat.zero_add]
    exact ⟨hlow, htop⟩
  · have h1 : m.signBit true = 2 ^ m.magBits := if_pos hm
    rw [h1]
    exact ⟨fun k hk => (Nat.testBit_two_pow_add_gt hk _).trans (hlow k hk), by rw [Nat.testBit_two_pow_add_eq, htop]; rfl⟩

/-- FSGN gives the canonical NaN of a NaN, and elsewhere its sign above the operand's magnitude. -/
theorem sgnBits_value (hm : m.signed = true) (op : SgnOp) (a : Nat) (sb : Bool) :
    (m.decode a = .nan → sgnBits m op a sb = m.canonNaN) ∧
    (m.decode a ≠ .nan → (∀ k, k < m.magBits → (sgnBits m op a sb).testBit k = a.testBit k) ∧
      (sgnBits m op a sb).testBit m.magBits = op.sign (a.testBit m.magBits) sb) := by
  refine ⟨fun h => if_pos h, fun h => ?_⟩
  rw [sgnBits, if_neg h]
  exact signBit_add_testBit hm _ a

/-! ### FCMP (R156) -/

theorem fpLt_nan_left (x : Fp) : fpLt .nan x = false := rfl

theorem fpLt_nan_right (x : Fp) : fpLt x .nan = false := by cases x <;> rfl

/-- Of an unordered pair `.ne` and `.uo` alone hold, and the four orderings raise NV. -/
theorem fvCmp_unordered (c : FCond) (h : m.decode a = .nan ∨ m.decode b = .nan) : fvCmp c m a b =
    (if c = .ne ∨ c = .uo then 1 else 0, if c = .lt ∨ c = .le ∨ c = .gt ∨ c = .ge then Flags.nv else 0) := by
  have huo : (m.decode a == .nan || m.decode b == .nan) = true := by simpa using h
  have hlt : fpLt (m.decode a) (m.decode b) = false := by
    rcases h with h | h <;> rw [h]
    · exact fpLt_nan_left _
    · exact fpLt_nan_right _
  have hgt : fpLt (m.decode b) (m.decode a) = false := by
    rcases h with h | h <;> rw [h]
    · exact fpLt_nan_right _
    · exact fpLt_nan_left _
  unfold fvCmp
  simp only [huo, hlt, hgt]
  cases c <;> rfl

/-- The truth of FCMP's condition on two numbers. -/
def FCond.numHolds (c : FCond) (x y : Fp) : W64 :=
  match c with
  | .eq => boolW (!fpLt x y && !fpLt y x)
  | .ne => boolW (fpLt x y || fpLt y x)
  | .lt => boolW (fpLt x y)
  | .le => boolW (!fpLt y x)
  | .gt => boolW (fpLt y x)
  | .ge => boolW (!fpLt x y)
  | .uo => 0
  | .ord => 1

/-- Of two numbers FCMP gives the truth of its condition, with no flag. -/
theorem fvCmp_numbers (c : FCond) (ha : m.decode a ≠ .nan) (hb : m.decode b ≠ .nan) :
    fvCmp c m a b = (c.numHolds (m.decode a) (m.decode b), 0) := by
  have hna : (m.decode a == .nan) = false := beq_eq_false_iff_ne.mpr ha
  have hnb : (m.decode b == .nan) = false := beq_eq_false_iff_ne.mpr hb
  have heq : fpEq (m.decode a) (m.decode b) = (!fpLt (m.decode a) (m.decode b) && !fpLt (m.decode b) (m.decode a)) := by
    rw [fpEq, bne_iff_ne.mpr ha, bne_iff_ne.mpr hb, Bool.true_and, Bool.true_and]
  unfold fvCmp
  simp only [hna, hnb, heq]
  cases c with
  | ne => simp [FCond.numHolds, Flags.when]
  | _ => rfl

end Sys2Proof

namespace Sys2Proof.Machine

theorem fsgn_completes (s : State) (f : FloatF) (op : SgnOp) : FloatCompletes s (.fsgn op f) f.t0 f.t1 false
    (fun x l => (BitVec.ofNat 64 (sgnBits f.ty.fmt op (f.opnd x.o.left l) (f.bSign x.o l)), 0)) := by
  have h := flagOp_completes (exec_fsgn s op f)
  simpa only [fvSgn_eq] using h

/-- Settles O17: the choice of FMIN and FMAX, the bits of FSGN, and FCMP's condition on numbers and with a NaN. -/
theorem floatSelectionCompletes : Obligations.FloatSelectionCompletes := by
  unfold Obligations.FloatSelectionCompletes
  refine ⟨fun s f nan => ⟨⟨_, float2_completes (g := fvMin f nan) (exec_fmin s nan f), fun x l => ⟨minMaxBits_nan .., minMaxBits_numbers false nan⟩⟩,
    ⟨_, float2_completes (g := fvMax f nan) (exec_fmax s nan f), fun x l => ⟨minMaxBits_nan .., minMaxBits_numbers true nan⟩⟩⟩,
    fun s f op => ⟨_, fsgn_completes s f op, fun x l => sgnBits_value f.ty.fmt_signed op _ _⟩,
    fun s f c => ⟨_, float2_completes (g := fvCmp c f.ty.fmt) (exec_fcmp s c f), fun x l => ⟨fvCmp_unordered c, fvCmp_numbers c⟩⟩⟩

end Sys2Proof.Machine
end

section
/-! SUPPORT. The source lanes of SHFL and the counts of VOTE (R168, R169). -/
namespace Sys2Proof.Machine

/-! ### SHFL (R168) -/

/-- `.swz` takes the lane's own number XOR the offset's low five bits. -/
theorem shflSrc_swz (b : W32) {l : Nat} (hl : l < 32) : shflSrc .swz b l = l ^^^ (b.toNat % 32) := by
  simp only [shflSrc, BitVec.toNat_xor, BitVec.toNat_ofNat]
  rw [Nat.mod_eq_of_lt (show l < 2 ^ 5 from hl)]

/-- `.slide` takes the lane the signed offset away, or its own where there is none. -/
theorem shflSrc_slide (b : W32) (l : Nat) : shflSrc .slide b l =
    if 0 ≤ (l : Int) + b.toInt ∧ (l : Int) + b.toInt < 32 then ((l : Int) + b.toInt).toNat else l := by
  have hlt : (l : Int) + b.toInt ≤ 31 ↔ (l : Int) + b.toInt < 32 := Int.lt_add_one_iff.symm
  simp only [shflSrc, Bool.and_eq_true, decide_eq_true_eq, hlt]

/-- The source lanes of SHFL. -/
theorem shflSrc_eq (op : ShflOp) (b : W32) {l : Nat} (hl : l < 32) : shflSrc op b l = match op with
    | .lane => b.toNat % 32
    | .swz => l ^^^ (b.toNat % 32)
    | .rot => (l + b.toNat) % 32
    | .slide => if 0 ≤ (l : Int) + b.toInt ∧ (l : Int) + b.toInt < 32 then ((l : Int) + b.toInt).toNat else l := by
  cases op with
  | lane => rfl
  | swz => exact shflSrc_swz b hl
  | rot => rfl
  | slide => exact shflSrc_slide b l

/-- SHFL's result is valid on an active lane whose offset and predicate are good and whose source lane's operand is valid. -/
theorem shflOk_iff (op : ShflOp) (f : IntF) (o : Opnds) (l : Nat) : shflOk op f o l = true ↔
    o.am.getLsbD l = true ∧ (f.imm.isSome = true ∨ o.right.ok o.am l = true) ∧ predLane (.shfl op f) o l = true ∧
      o.left.ok o.am (shflSrc op (shflB f o l) l) = true := by
  simp only [shflOk, Bool.and_eq_true, Bool.or_eq_true, and_assoc]

/-- The token SHFL delivers. -/
def shflTok (op : ShflOp) (f : IntF) (o : Opnds) : Token :=
  Token.lanes f.ty.wide (lanesOf (shflOk op f o)) fun l => o.left.atTy f.ty (shflSrc op (shflB f o l) l)

theorem shfl_delivers {s : State} {op : ShflOp} {f : IntF} {x : Issue} (h : Fires s (.shfl op f) x) :
    Delivers s (.shfl op f) x [f.t0, f.t1] (shflTok op f x.o) 0 := pure_delivers (exec_shfl s op f) h

theorem shflTok_mask (op : ShflOp) (f : IntF) (o : Opnds) {l : Nat} (hl : l < 32) :
    (shflTok op f o).mask.getLsbD l = shflOk op f o l := by
  rw [shflTok, Token.lanes, lanesOf_getLsbD, decide_eq_true hl, Bool.true_and]

/-! ### VOTE (R169) -/

variable {p : List (Nat × W64)}

/-- The participating lanes with a nonzero value. -/
def hits (p : List (Nat × W64)) : List (Nat × W64) := p.filter fun q => q.2 != 0

theorem mem_hits {q : Nat × W64} : q ∈ hits p ↔ q ∈ p ∧ q.2 ≠ 0 := by simp [hits]

theorem hits_length_le : (hits p).length ≤ p.length := List.length_filter_le ..

/-- A vote of yes or no is 1 where its test holds. -/
theorem ite_one_iff (c : Prop) [Decidable c] : (if c then (1 : W32) else 0) = 1 ↔ c := by
  split <;> simp_all

theorem voteVal_cnt (h : p.length ≤ 32) : (voteVal .cnt p).toNat = (hits p).length := by
  have hle := hits_length_le (p := p)
  have hlt : (hits p).length < 2 ^ 32 := by omega
  exact (BitVec.toNat_ofNat ..).trans (Nat.mod_eq_of_lt hlt)

theorem voteVal_hit : voteVal .hit p = 1 ↔ ∃ q ∈ p, q.2 ≠ 0 := by
  have hv : voteVal .hit p = if hits p ≠ [] then 1 else 0 := by
    rw [voteVal, ← hits]
    cases hits p <;> rfl
  rw [hv, ite_one_iff]
  refine ⟨fun h => ?_, fun ⟨q, hq⟩ => List.ne_nil_of_mem (mem_hits.mpr hq)⟩
  obtain ⟨q, hq⟩ := List.exists_mem_of_ne_nil _ h
  exact ⟨q, mem_hits.mp hq⟩

theorem voteVal_full : voteVal .full p = 1 ↔ ∀ q ∈ p, q.2 ≠ 0 := by
  have hv : voteVal .full p = if (hits p).length == p.length then 1 else 0 := rfl
  rw [hv, ite_one_iff, beq_iff_eq, hits, List.length_filter_eq_length_iff]
  simp only [bne_iff_ne]

/-- All values are the first one's where any two agree. -/
theorem voteVal_same : voteVal .same p = 1 ↔ ∀ q ∈ p, ∀ r ∈ p, q.2 = r.2 := by
  rw [voteVal, ite_one_iff, List.all_eq_true]
  cases p with
  | nil => simp
  | cons y ys =>
    simp only [List.head?_cons, Option.map_some, beq_iff_eq, Option.some.injEq]
    exact ⟨fun h q hq r hr => (h q hq).trans (h r hr).symm, fun h q hq => h q hq y List.mem_cons_self⟩

/-- `.first` is the number of the first hit, 32 where there is none. -/
theorem voteVal_first (h : ∀ q ∈ p, q.1 < 32) : (voteVal .first p).toNat = ((hits p).map (·.1)).headD 32 := by
  have hv : (voteVal .first p).toNat = (((hits p).head?.map (·.1)).getD 32) % 2 ^ 32 := BitVec.toNat_ofNat ..
  rw [hv]
  cases hh : hits p with
  | nil => rfl
  | cons y ys =>
    have hy : y.1 < 32 := h y (mem_hits.mp (hh ▸ List.mem_cons_self)).1
    exact Nat.mod_eq_of_lt (hy.trans (by decide))

/-- A mask made from the lanes of a list has a bit where the list has the lane. -/
theorem lanesOf_any (p : List (Nat × W64)) {l : Nat} (hl : l < 32) :
    (lanesOf fun l => p.any fun q => q.1 == l).getLsbD l = true ↔ ∃ q ∈ p, q.1 = l := by
  rw [lanesOf_getLsbD, decide_eq_true hl, Bool.true_and, List.any_eq_true]
  simp only [beq_iff_eq]

theorem voteVal_mask {l : Nat} (hl : l < 32) : (voteVal .mask p).getLsbD l = true ↔ ∃ q ∈ p, q.1 = l ∧ q.2 ≠ 0 := by
  refine (lanesOf_any (hits p) hl).trans (exists_congr fun q => ?_)
  rw [mem_hits, and_assoc, and_comm (a := q.2 ≠ 0)]

theorem voteVal_pmask {l : Nat} (hl : l < 32) : (voteVal .pmask p).getLsbD l = true ↔ ∃ q ∈ p, q.1 = l := lanesOf_any p hl

/-- Settles O19: SHFL's source lanes and their validity, the tokens of VOTE and BCST, and each count of VOTE. -/
theorem crossLaneCompletes : Obligations.CrossLaneCompletes := by
  unfold Obligations.CrossLaneCompletes
  refine ⟨fun s f x => ⟨fun op h => ⟨shflTok op f x.o, shfl_delivers h, rfl, fun l hl => ?_⟩,
    fun op h => pure_delivers (exec_vote s op f) h, fun h => pure_delivers (exec_bcst s f) h⟩,
    fun p hlen hlane _ => ⟨voteVal_cnt hlen, voteVal_hit, voteVal_full, voteVal_same, voteVal_first hlane,
      fun l => voteVal_mask, fun l => voteVal_pmask⟩⟩
  intro b src
  have hsrc : shflSrc op b l = src := shflSrc_eq op b hl
  rw [← hsrc, shflTok_mask op f x.o hl]
  refine ⟨shflOk_iff op f x.o l, fun hok => Token.lanes_val _ _ hl ?_⟩
  rw [lanesOf_getLsbD, decide_eq_true hl, Bool.true_and, hok]

end Sys2Proof.Machine
end

section
/-! SUPPORT. What is found of a team, a warp, a message or a tile after it was changed. -/
namespace Sys2Proof.Machine

variable {s : State}

/-- A team after a change of it. -/
theorem State.setTeam_found {t : TeamId} {y : Team} (h : s.team? t = some y) (f : Team → Team) (hf : ∀ z, (f z).id = z.id) :
    (s.setTeam t f).team? t = some (f y) := by
  rw [s.setTeam_team? t t f hf, h, Option.map_some, if_pos (beq_self_eq_true t)]

/-- A warp after a change of it. -/
theorem State.setWarp_found {w : WarpId} {y : Warp} (h : s.warp? w = some y) (f : Warp → Warp) (hf : ∀ z, (f z).id = z.id) :
    (s.setWarp w f).warp? w = some (f y) := by
  rw [s.setWarp_warp? w w f hf, h, Option.map_some, if_pos (beq_self_eq_true w)]

/-- A message after a change of it. -/
theorem State.setMsg_found {id : Nat} {m : Msg} (h : s.msg? id = some m) (f : Msg → Msg) (hf : ∀ z, (f z).id = z.id) :
    (s.setMsg id f).msg? id = some (f m) := by
  rw [s.setMsg_msg? id id f hf, h, Option.map_some, if_pos (beq_self_eq_true id)]

/-- A tile after a change of it that keeps its name. -/
theorem Team.setTile_tile? {t : Team} {tid : Nat} {x : Tile} (h : t.tile? tid = some x) (f : Tile → Tile) (hf : ∀ z, (f z).tid = z.tid) :
    (t.setTile tid f).tile? tid = some (f x) := by
  have hfind := find?_map_key Tile.tid tid tid f hf t.tiles
  rw [Team.tile?] at h
  rw [Team.tile?, Team.setTile, hfind, h, Option.map_some, if_pos (beq_self_eq_true tid)]

end Sys2Proof.Machine
end

section
/-! SUPPORT. REGREL, REGCLM and REGQRY (R174 to R180). -/
namespace Sys2Proof.Machine

variable {s : State} {x : Issue}

/-! ### Claims (R175) -/

/-- Claims that are met take nothing from the credit, and those behind them are served as if they stood alone. -/
theorem serveClaims_met {ms : List Claim} (h : ∀ c ∈ ms, c.met = true) (cr : Nat) (cs : List Claim) :
    serveClaims cr (ms ++ cs) = ((serveClaims cr cs).1, ms ++ (serveClaims cr cs).2) := by
  induction ms with
  | nil => rfl
  | cons c ms ih =>
    have hms := ih fun d hd => h d (List.mem_cons_of_mem _ hd)
    simp only [List.cons_append, serveClaims, h c List.mem_cons_self, if_true, hms]

/-- A claim joins the team's queue, and the claims are served (R175). -/
def Team.join (t : Team) (c : Claim) : Team := Team.serve { t with claims := t.claims ++ [c] }

/-- Rows come to the team's credit, and the claims are served (R175, R178). -/
def Team.repay (t : Team) (n : Nat) : Team := Team.serve { t with credit := t.credit + n }

/-- A claim that the credit covers, none before it waiting, is met as it joins. -/
theorem Team.join_covered {t : Team} {c : Claim} (h : ∀ d ∈ t.claims, d.met = true) (hc : c.met = false) (hs : c.size ≤ t.credit) :
    t.join c = { t with credit := t.credit - c.size, claims := t.claims ++ [{ c with met := true }] } := by
  simp only [Team.join, Team.serve, serveClaims_met h, serveClaims, hc, hs, Bool.false_eq_true, if_false, if_true]

/-- Rows that come to a team without claims stay in its credit. -/
theorem Team.repay_credit {t : Team} (h : t.claims = []) (n : Nat) : (t.repay n).credit = t.credit + n := by
  simp only [Team.repay, Team.serve, h, serveClaims]

/-- A claim that is met delivers its size, and leaves what its commit adds to the limit (R179). -/
theorem State.claimMet_eq (s : State) (x : Issue) (ts : List Tgt) (size : Nat) :
    s.claimMet x ts size = s.setRun x.w fun r =>
      ({ r.finish x.k with effs := r.effs ++ [(x.k, Eff.claimed size)] } : Run).putAll ts
        (Token.uniform false true ((BitVec.ofNat 32 size).setWidth 64)) :=
  s.setRun_setRun x.w _ _

/-- The claim of a REGCLM that issues (R175). -/
def Issue.claim (x : Issue) : Claim :=
  { warp := x.w.warp, idx := x.k, size := min (x.o.left.val32 0).toNat (256 - x.warp.limit), met := false }

/-- REGCLM whose claim the credit covers, no other claim waiting and none of its own there, is met as it issues (R175, R179). -/
theorem regclm_covered {pr : Pr} {a b : Tgt} {t : Team} (h : Fires s (.regclm pr a b) x) (hu : uniOk (.regclm pr a b) x.o = true)
    (ht : s.team? x.w.team = some t) (hmet : ∀ d ∈ t.claims, d.met = true) (hmine : ∀ d ∈ t.claims, d.warp ≠ x.w.warp ∨ d.idx ≠ x.k)
    (hpos : 0 < x.claim.size) (hcr : x.claim.size ≤ t.credit) :
    exec (.regclm pr a b) s = .next ((s.setTeam x.w.team fun t => t.join x.claim).claimMet x [a, b] x.claim.size) := by
  have hnone : t.claims.find? (fun d => d.warp == x.w.warp && d.idx == x.k) = none :=
    List.find?_eq_none.mpr fun d hd => by simpa only [Bool.and_eq_true, beq_iff_eq, not_and_or] using hmine d hd
  have hjoined := State.setTeam_found ht (fun t => t.join x.claim) fun _ => rfl
  rw [Team.join_covered hmet rfl hcr] at hjoined
  rw [exec_regclm, execRegclm, firing_eq h]
  unfold Team.join Issue.claim at *
  simp only [hu, ht, hjoined, beq_eq_false_iff_ne.mpr hpos.ne', hnone, Bool.not_true, Bool.false_eq_true, if_false, Option.bind_some,
    List.find?_append, List.find?_singleton, beq_self_eq_true, Bool.and_self, Option.none_or, if_true]

/-! ### A release at its commit (R178) -/

/-- What REGREL moves of a warp's limit at its commit, one row kept (R178). -/
def Warp.given (y : Warp) (n : Nat) : Nat := min n (y.limit - 1)

/-- The warp whose REGREL commits: its registers unbound and its limit lower by what it gives (R178). -/
def Warp.released (y : Warp) (first n : Nat) : Warp :=
  { y with limit := y.limit - y.given n, v := y.v.filter fun r => !(first ≤ r.num && r.num < first + n) }

/-- REGREL's commit: the registers unbound, the limit lowered, and the rows moved to the credit (R175, R178). -/
theorem State.commitEff_regrel {x y : Warp} (hy : s.warp? x.id = some y) (va : W64) (k first n : Nat) :
    s.commitEff x va k (.regrel first n) =
      ((s.unbind x.id first n).setWarp x.id fun z => { z with limit := z.limit - y.given n }).setTeam x.id.team fun t =>
        t.repay (y.given n) := by
  simp only [State.commitEff, hy, Option.map_some, Option.getD_some, Warp.given, Team.repay]

/-- A warp after registers of it are unbound. -/
theorem State.unbind_found {w : WarpId} {y : Warp} (h : s.warp? w = some y) (first n : Nat) :
    (s.unbind w first n).warp? w = some { y with v := y.v.filter fun r => !(first ≤ r.num && r.num < first + n) } :=
  State.setWarp_found (s := { s with errs := _ }) h _ fun _ => rfl

/-- The warp after it. -/
theorem State.commitEff_regrel_warp? {x y : Warp} (hy : s.warp? x.id = some y) (va : W64) (k first n : Nat) :
    (s.commitEff x va k (.regrel first n)).warp? x.id = some (y.released first n) := by
  rw [State.commitEff_regrel hy]
  exact State.setWarp_found (State.unbind_found hy first n) _ fun _ => rfl

/-- The warp's team after it. -/
theorem State.commitEff_regrel_team? {x y : Warp} {t : Team} (hy : s.warp? x.id = some y) (ht : s.team? x.id.team = some t) (va : W64)
    (k first n : Nat) : (s.commitEff x va k (.regrel first n)).team? x.id.team = some (t.repay (y.given n)) := by
  rw [State.commitEff_regrel hy]
  exact State.setTeam_found ht _ fun _ => rfl

/-- Settles O30: REGREL by the effect it leaves and that effect's commit, REGCLM by its claim, REGQRY by what it reads. -/
theorem registerPoolCompletes : Obligations.RegisterPoolCompletes := by
  unfold Obligations.RegisterPoolCompletes
  refine ⟨fun s x pr => ⟨fun first n h hu => leaves_of (exec_regrel s pr first n) h (if_pos hu), fun a b t h hu ht hc => ?_,
    fun q a b h => ?_⟩, fun s x y va k first n hy => ⟨fun z hz => ?_, fun tm tm' htm hno htm' => ?_, ?_⟩⟩
  · intro size claim hpos hcr
    have hmet : ∀ c ∈ t.claims, c.met = true := fun c hcl => (hc c hcl).1
    refine ⟨?_, Team.join_covered hmet rfl hcr⟩
    rw [regclm_covered h hu ht hmet (fun c hcl => (hc c hcl).2) hpos hcr, State.claimMet_eq]
    rfl
  · rw [Delivers, exec_regqry, execRegqry, firing_eq h]
    cases q <;> rfl
  · rw [State.commitEff_regrel_warp? hy] at hz
    cases hz
    exact ⟨rfl, rfl⟩
  · rw [State.commitEff_regrel_team? hy htm] at htm'
    cases htm'
    exact Team.repay_credit hno _
  · rw [State.commitEff_regrel hy]
    rfl

end Sys2Proof.Machine
end

section
/-! SUPPORT. The tile instructions (R185 to R188), how a tile's state changes (R182, R184, R186), and when a reference is granted
(R183, R206). -/
namespace Sys2Proof.Machine

variable {s : State} {x : Issue}

/-! ### Tile instructions -/

/-- A tile the warp may name is not among those it may not (R319). -/
theorem State.unnamed?_of_named {tid : Nat} (h : Named s x tid) : s.unnamed? x [tid] = none := by
  simp [State.unnamed?, h.mayName]

/-- Settles O32: the warp may name the tile, so TARM on an empty or ready one and TCLR leave their effects, and TSTAT delivers its word. -/
theorem tileInstructionsComplete : Obligations.TileInstructionsComplete := by
  unfold Obligations.TileInstructionsComplete
  refine fun s x pr tid => ⟨fun count h hu hn hst => ?_, fun h hu hn => ?_, fun a b t h hu ht htile => ?_⟩
  · have hok : (s.tileSt x.w.team tid.toNat == .empty || s.tileSt x.w.team tid.toNat == .ready) = true := by simpa using hst
    refine leaves_of (exec_tarm s pr tid count) h ?_
    simp only [hu, State.unnamed?_of_named hn, hok, Bool.not_true, Bool.false_eq_true, if_false, if_true]
  · refine leaves_of (exec_tclr s pr tid) h ?_
    simp only [hu, State.unnamed?_of_named hn, Bool.not_true, Bool.false_eq_true, if_false]
  · rw [Delivers, exec_tstat, execTstat, firing_eq h]
    simp only [hu, ht, htile, Bool.not_true, Bool.false_eq_true, if_false, Bool.true_or, if_true]
    rfl

/-! ### A tile's states (R182, R184, R186) -/

/-- An empty or ready tile armed with 0 is ready (R186; log 17). -/
theorem Tile.arm_zero {y : Tile} (h : y.st = .empty ∨ y.st = .ready) : y.arm 0 = { y with st := .ready } := by
  obtain h | h := h <;> simp [Tile.arm, h]

/-- Armed with a count, it drains with that count (R186). -/
theorem Tile.arm_pos {y : Tile} {n : Nat} (h : y.st = .empty ∨ y.st = .ready) (hn : 0 < n) :
    y.arm n = { y with st := .draining, cnt := n } := by
  have hne : n ≠ 0 := hn.ne'
  obtain h | h := h <;> simp [Tile.arm, h, hne]

/-- A tile that is not draining counts no consumer (R184). -/
theorem Tile.consume_of_ne {y : Tile} (h : y.st ≠ .draining) (n : Nat) : y.consume n = y := by
  simp [Tile.consume, h]

/-- The last consumer's end empties a draining tile (R184). -/
theorem Tile.consume_last {y : Tile} {n : Nat} (h : y.st = .draining) (hn : y.cnt ≤ n) : y.consume n = { y with st := .empty, cnt := 0 } := by
  simp [Tile.consume, h, hn]

/-- An earlier one's lowers its count (R184). -/
theorem Tile.consume_earlier {y : Tile} {n : Nat} (h : y.st = .draining) (hn : n < y.cnt) : y.consume n = { y with cnt := y.cnt - n } := by
  simp [Tile.consume, h, hn]

/-! ### References (R183, R206) -/

theorem State.mem_tileRefs {r : Ref} {t : TeamId} {tid : Nat} : r ∈ s.tileRefs t tid ↔ r ∈ s.refs ∧ r.obj = .tile t tid := by
  simp [State.tileRefs, State.refsTo]

/-- While another owner refers to a tile, it grants no write reference (R183). -/
theorem State.canWrite_held {o : RefOwner} {t : TeamId} {tid : Nat} {r : Ref} (hr : r ∈ s.tileRefs t tid)
    (ho : s.oneBlock o r.owner = false) (sts : List TileSt) : s.canWrite o t tid sts = false := by
  have hall : ((s.tileRefs t tid).all fun r => s.oneBlock o r.owner) = false := List.all_eq_false.mpr ⟨r, hr, by simp [ho]⟩
  rw [State.canWrite, hall, Bool.and_false]

/-- While a write reference is held, but by a joint MMA of the reader's own gang, a tile grants no read reference (R183, R206). -/
theorem State.canRead_held {o : RefOwner} {t : TeamId} {tid : Nat} {r : Ref} (hr : r ∈ s.tileRefs t tid) (hw : r.write = true)
    (ho : ∀ id, r.owner = .gang id → s.oneBlock o r.owner = false) : s.canRead o t tid = false := by
  refine Bool.and_eq_false_iff.mpr (.inr (List.all_eq_false.mpr ⟨r, hr, ?_⟩))
  obtain ⟨owner, obj, write, consumer⟩ := r
  obtain rfl : write = true := hw
  cases owner with
  | gang id => simpa using ho id rfl
  | block w => simp
  | msg id => simp

/-- Two owners count as one block where one warp's block is common to both (R206). -/
theorem State.oneBlock_of_common {a b : RefOwner} {w : WarpId} (ha : w ∈ s.blocksOf a) (hb : w ∈ s.blocksOf b) :
    s.oneBlock a b = true := by
  have hany : (s.blocksOf a).any (s.blocksOf b).contains = true := List.any_eq_true.mpr ⟨w, ha, List.contains_iff_mem.mpr hb⟩
  rw [State.oneBlock, hany, Bool.or_true]

/-- A member of a gang that has met is among the blocks of its joint MMA (R206). -/
theorem Mma.mem_blocks {m : Mma} {w : Nat} (hg : m.f.gng = true) (hp : m.phase ≠ 0) (hw : ∃ p ∈ m.members, p.1 = w) :
    { team := m.team, warp := w } ∈ m.blocks := by
  obtain ⟨p, hp', rfl⟩ := hw
  rw [Mma.blocks, if_pos (by simp [hg, hp])]
  exact List.mem_map.mpr ⟨p, hp', rfl⟩

/-- A block counts as itself. -/
theorem State.mem_blocksOf_self (s : State) (w : WarpId) : w ∈ s.blocksOf (.block w) := List.mem_cons_self

/-- A joint MMA counts as each of its members' blocks (R206). -/
theorem State.mem_blocksOf_gang {m : Mma} {w : WarpId} (hm : m ∈ s.mmas) (hw : w ∈ m.blocks) : w ∈ s.blocksOf (.gang m.id) :=
  List.mem_flatMap.mpr ⟨m, List.mem_filter.mpr ⟨hm, beq_self_eq_true _⟩, hw⟩

/-- A member's block counts as the blocks of every gang that has met in it (R206). -/
theorem State.mem_blocksOf_block {m : Mma} {w v : WarpId} (hm : m ∈ s.mmas) (hw : w ∈ m.blocks) (hv : v ∈ m.blocks) :
    v ∈ s.blocksOf (.block w) :=
  List.mem_cons_of_mem _ (List.mem_flatMap.mpr ⟨m, List.mem_filter.mpr ⟨hm, List.contains_iff_mem.mpr hw⟩, hv⟩)

/-- Settles O33: the cases of TARM and of a consumer's end, the references that refuse another, the blocks of a gang by one common to two
owners, and a tile without references. -/
theorem tileStates : Obligations.TileStates := by
  unfold Obligations.TileStates
  refine ⟨fun y n => ⟨fun h => ⟨Tile.arm_zero h, Tile.arm_pos h⟩, fun h => ⟨fun hc => ?_, fun hc => ?_⟩,
      fun h => Tile.consume_of_ne h n⟩,
    fun s o t tid r hr hobj => ⟨fun ho => State.canWrite_held (State.mem_tileRefs.mpr ⟨hr, hobj⟩) ho,
      State.canRead_held (State.mem_tileRefs.mpr ⟨hr, hobj⟩)⟩,
    fun s m w v hm hg hp hw hv => ?_, fun s o t tid hno => ?_⟩
  · rw [Tile.consume_last h hc]
  · rw [Tile.consume_earlier h hc]
    exact ⟨h, rfl⟩
  · have hwm := Mma.mem_blocks hg hp hw
    have hvm := Mma.mem_blocks hg hp hv
    refine ⟨State.oneBlock_of_common (State.mem_blocksOf_block hm hwm hvm) (s.mem_blocksOf_self _),
      State.oneBlock_of_common (s.mem_blocksOf_self _) (State.mem_blocksOf_gang hm hwm), fun m' hm' hg' hp' ht hw' => ?_⟩
    have hwm' := Mma.mem_blocks hg' hp' hw'
    rw [ht] at hwm'
    exact State.oneBlock_of_common (State.mem_blocksOf_gang hm hwm) (State.mem_blocksOf_gang hm' hwm')
  · have hnil : s.tileRefs t tid = [] := List.eq_nil_iff_forall_not_mem.mpr fun r hr =>
      hno r (State.mem_tileRefs.mp hr).1 (State.mem_tileRefs.mp hr).2
    exact ⟨fun sts h => by simp [State.canWrite, hnil, h], fun h => by simpa [State.canRead, hnil] using h⟩

end Sys2Proof.Machine
end

section
/-! SUPPORT. The engines at work on messages (R285, R302 to R306). -/
namespace Sys2Proof.Machine

variable {s u : State} {m a b y : Msg}

/-! ### Steps of a message -/

/-- A step of a message that is not complete and whose unit runs is the step of its kind. -/
theorem State.msgStep_runs (hm : s.msg? m.id = some m) (hp : m.phase < 2) (hr : s.unitRuns (dieOf m.core) m.master = true)
    (f : State → Msg → State) : s.msgStep m.id m.op f = .next (f s m) := by
  simp [State.msgStep, hm, hp, hr]

/-- A message whose addresses all end within 54 bits begins (R259). -/
theorem State.beginning_inRange (ho : m.op ≠ .coll) (h : ∀ r ∈ m.ranges 0, r.2 = 0 ∨ r.1.toNat + r.2 ≤ 2 ^ 54) (k : State → State) :
    s.beginning m k = k s := by
  have hnone : (m.ranges 0).find? (fun r => 0 < r.2 && 2 ^ 54 < r.1.toNat + r.2) = none :=
    List.find?_eq_none.mpr fun r hr => by
      have := h r hr
      simp only [Bool.and_eq_true, decide_eq_true_eq, not_and]
      omega
  have hop : (m.op == .coll) = false := beq_eq_false_iff_ne.mpr ho
  simp only [State.beginning, hop, Bool.false_eq_true, if_false, hnone]

/-- A message all of whose parts have performed ends, where it fills no tile. -/
theorem State.finishParts_plain {id : Nat} {keys : List Nat} (hy : u.msg? id = some y) (hall : ∀ k ∈ keys, y.has k = true)
    (hd : y.destTile = none) (done : Nat) : u.finishParts id keys done = u.endMsg id done 0 := by
  simp only [State.finishParts, hy, List.all_eq_true.mpr hall, hd, Bool.not_true, Bool.false_eq_true, if_false]

/-- Where it fills one, the tile holds its bytes first (R182). -/
theorem State.finishParts_tile {id tid : Nat} {keys : List Nat} (hy : u.msg? id = some y) (hall : ∀ k ∈ keys, y.has k = true)
    (hd : y.destTile = some tid) (done : Nat) : u.finishParts id keys done =
      (u.fillTile y.warp.team tid (y.got.filter fun g => keys.contains g.1)).endMsg id done 0 := by
  simp only [State.finishParts, hy, List.all_eq_true.mpr hall, hd, Bool.not_true, Bool.false_eq_true, if_false]

/-! ### COPY, GATHR, FILLB, SCATR (R302, R304 to R306) -/

section
variable (hm : s.msg? m.id = some m) (hp : m.phase < 2) (hr : s.unitRuns (dieOf m.core) m.master = true)
include hm hp hr

/-- A COPY that has begun performs what parts it can, and ends if it has performed them all. -/
theorem copyMessage_performs (ho : m.op = .copy) (ha : (s.beginMsg m).msg? m.id = some a) (hph : a.phase = 1) :
    exec (.copyMessage m.id) s = .next (((s.beginMsg m).eachPart m.id (fun p => p.1) a.copyParts State.copyPart).finishParts m.id
      (a.copyParts.map fun p => p.1) a.size) := by
  rw [exec_copyMessage, execCopyMessage, ← ho, State.msgStep_runs hm hp hr]
  simp only [ha, hph, bne_self_eq_false, Bool.false_eq_true, if_false]

/-- A GATHR that has begun and read its indices performs what elements it can, and ends if it has performed them all. -/
theorem gathr_performs (ho : m.op = .gathr) (ha : (s.beginMsg m).msg? m.id = some a) (hph : a.phase = 1)
    (hu : (s.beginMsg m).eachPart m.id (fun p => p.2.2) a.indexParts State.arrayPart = u) (hb : u.msg? m.id = some b)
    (hall : ∀ p ∈ b.indexParts, b.has p.2.2 = true) :
    let es := (List.range b.size).zip b.indices
    exec (.gathr m.id) s = .next ((u.eachPart m.id (fun p => p.1 * b.gathWidth) es State.gatherPart).finishParts m.id
      (es.map fun p => p.1 * b.gathWidth) b.size) := by
  rw [exec_gathr, execGathr, ← ho, State.msgStep_runs hm hp hr]
  simp only [ha, hph, hu, hb, List.all_eq_true.mpr hall, bne_self_eq_false, Bool.not_true, Bool.false_eq_true, if_false]

/-- A FILLB that has begun and read its lines writes them to the Overlay, and ends. -/
theorem fillb_performs (ho : m.op = .fillb)
    (hu : (m.phase = 1 ∧ u = s) ∨ (m.phase = 0 ∧ s.fillReady m.core m.id m.lo (m.lo + m.len) = true ∧
      (∀ r ∈ m.ranges 0, r.2 = 0 ∨ r.1.toNat + r.2 ≤ 2 ^ 54) ∧ u = s.setMsg m.id fun z => { z with phase := 1 }))
    (ha : u.msg? m.id = some a) {t : State}
    (ht : u.eachPart m.id (fun p => p.2.2) (arrayParts (a.addr 4) a.len 0) State.arrayPart = t) (hy : t.msg? m.id = some y)
    (hall : ∀ p ∈ arrayParts (a.addr 4) a.len 0, y.has p.2.2 = true) :
    exec (.fillb m.id) s = .next ((y.got.foldl (fun s g => s.fillWrite y.core y.warp.team.launch.ctx (y.lo + g.1) g.2) t).endMsg
      m.id y.len 0) := by
  have hbegun : (if m.phase == 0 && s.fillReady m.core m.id m.lo (m.lo + m.len) then
      s.beginning m fun s => s.setMsg m.id fun y => { y with phase := 1 } else s) = u ∧ a.phase = 1 := by
    obtain ⟨hph, rfl⟩ | ⟨hph, hready, hrange, rfl⟩ := hu
    · rw [hm] at ha
      cases ha
      exact ⟨if_neg (by simp [hph]), hph⟩
    · have hph' : a.phase = 1 := by
        cases (State.setMsg_found hm (fun z => { z with phase := 1 }) fun _ => rfl).symm.trans ha
        rfl
      rw [if_pos (by simp [hph, hready]), State.beginning_inRange (by simp [ho]) hrange]
      exact ⟨rfl, hph'⟩
  obtain ⟨hbegin, hph⟩ := hbegun
  rw [exec_fillb, execFillb, ← ho, State.msgStep_runs hm hp hr]
  simp only [hbegin, ha, hph, ht, hy, List.all_eq_true.mpr hall, bne_self_eq_false, Bool.not_true, Bool.false_eq_true, if_false]

/-- A SCATR that has read its arrays sends out an update for each index. -/
theorem scatr_performs (ho : m.op = .scatr) (hph : m.phase = 0) (hrange : ∀ r ∈ m.ranges 0, r.2 = 0 ∨ r.1.toNat + r.2 ≤ 2 ^ 54)
    {t : State} (ht : s.eachPart m.id (fun p => p.2.2) (m.indexParts ++ m.operandParts) State.arrayPart = t) (hy : t.msg? m.id = some y)
    (hall : ∀ p ∈ m.indexParts ++ m.operandParts, y.has p.2.2 = true) (hsize : y.size ≠ 0) :
    exec (.scatr m.id) s = .next (({ t with
      nextId := t.nextId + y.size
      toks := t.toks ++ ((List.range y.size).zip y.indices).map fun (p : Nat × W32) =>
        ({ id := t.nextId + p.1, updates := [(m.id, y.addr 4 + BitVec.ofNat 64 (p.2.toNat * y.scatWidth))], pa := none
           aop := scatOp (y.bits 6 2 0), ty := msgTy (y.bits 6 5 3)
           val := y.operand (msgTy (y.bits 6 5 3)) (y.kept operandKey y.operandParts) p.1, ord := y.ordered } : SparseTok) } :
        State).setMsg m.id fun z => { z with phase := 1, got := [] }) := by
  rw [exec_scatr, execScatr, ← ho, State.msgStep_runs hm hp hr]
  simp only [hph, State.beginning_inRange (by simp [ho] : m.op ≠ .coll) hrange, ht, hy, List.all_eq_true.mpr hall,
    beq_eq_false_iff_ne.mpr hsize, bne_self_eq_false, Bool.not_true, Bool.false_eq_true, if_false]

end

/-! ### Shares of a COPYM (R285, R303) -/

/-- A fault of a gang's member leaves the messages that have left. -/
theorem State.faultOne_msgs (s : State) (w : WarpId) (f : Stop) : (s.faultOne w f).msgs = s.msgs := by
  have hrest := congrArg State.msgs (s.discardOne_atRest w)
  exact hrest

/-- So do the faults of the gangs that a warp breaks (R204). -/
theorem State.breakGangs_msgs (s : State) (w : WarpId) : (s.breakGangs w).msgs = s.msgs := by
  refine foldl_keeps (fun t : State => t.msgs = s.msgs) _ (fun t m ht => ?_) _ _ rfl
  refine foldl_keeps (fun u : State => u.msgs = s.msgs) _ (fun u p hu => ?_) _ _ ht
  dsimp only
  split
  · exact hu
  · exact (State.faultOne_msgs ..).trans hu

/-- So does a fault of a warp. -/
theorem State.fault_msgs (s : State) (w : WarpId) (f : Stop) : (s.fault w f).msgs = s.msgs := by
  have hrest := congrArg State.msgs (((s.raise f).breakGangs w).discard_atRest w)
  exact hrest.trans ((s.raise f).breakGangs_msgs w)

/-- So does a fault against a warp, retired or not. -/
theorem State.faultAgainst_msgs (s : State) (w : WarpId) (f : Stop) : (s.faultAgainst w f).msgs = s.msgs := by
  unfold State.faultAgainst
  split
  · split
    · rfl
    · exact s.fault_msgs w f
  · rfl

/-- What a message gives up leaves the messages as they stand. -/
theorem State.releaseMsg_msgs (s : State) (id : Nat) : (s.releaseMsg id).msgs = s.msgs := by
  unfold State.releaseMsg
  split
  · rfl
  · dsimp only
    refine foldl_keeps (fun t : State => t.msgs = s.msgs) _ (fun t h ht => ?_) _ _ ?_
    · split
      · exact ht
      · exact ht
    · split <;> rfl

/-- A message that faults performs no more (R358). -/
theorem State.failMsg_phase {id : Nat} (h : (s.failMsg id).msg? id = some a) : a.phase = 3 := by
  rw [State.failMsg, State.setMsg_msg? _ _ _ _ (by exact fun _ => rfl)] at h
  obtain ⟨m, -, rfl⟩ := Option.map_eq_some_iff.mp h
  rw [if_pos (beq_self_eq_true id)]

/-- A message whose share begins, and which has not faulted by that, is as it was but for its shares. -/
theorem State.beginShare_msg? {h : Share} (hm : s.msg? m.id = some m) (ha : (s.beginShare m h).msg? m.id = some a) (hph : a.phase < 2) :
    ∃ l, a = { m with shares := l } := by
  have hset (n : Nat) : (s.setShare m.id h.team n).msg? m.id = some { m with shares := _ } := State.setMsg_found hm _ fun _ => rfl
  have hsame (hs : s.msg? m.id = some a) : ∃ l, a = { m with shares := l } := by
    cases hm.symm.trans hs
    exact ⟨m.shares, rfl⟩
  have hshare {n : Nat} (hs : (s.setShare m.id h.team n).msg? m.id = some a) : ∃ l, a = { m with shares := l } := by
    cases (hset n).symm.trans hs
    exact ⟨_, rfl⟩
  unfold State.beginShare at ha
  dsimp only at ha
  split at ha
  · exact hsame ha
  split at ha
  · exact hshare ha
  split at ha
  · exact hshare ha
  split at ha
  · unfold State.beginning at ha
    dsimp only at ha
    split at ha
    · have hfailed : (s.failMsg m.id).msg? m.id = some a := by
        rw [State.msg?, ← State.faultAgainst_msgs]
        exact ha
      rw [State.failMsg_phase hfailed] at hph
      omega
    · exact hshare ha
  · exact hsame ha

/-- A share that has waited longer than the limit fails as it would begin, whether its team is resident or not (R303). -/
theorem State.beginShare_stalled {h : Share} (hst : h.st = 0) (hlim : m.stallLimit < s.now - h.since) :
    s.beginShare m h = s.setShare m.id h.team 2 := by
  simp only [State.beginShare, hst, bne_self_eq_false, Bool.false_eq_true, if_false, hlim, if_true, ite_self]

/-- A share that was found of a message is found failed once it has failed. -/
theorem find?_share_failed {hs : List Share} {h : Share} (hh : (hs.find? fun z => z.team == h.team) = some h) (n : Nat) :
    ((hs.map fun z => if z.team == h.team then { z with st := n } else z).find? fun z => z.team == h.team) = some { h with st := n } := by
  rw [find?_map_key Share.team h.team h.team (fun z => { z with st := n }) (fun _ => rfl), hh, Option.map_some,
    if_pos (beq_self_eq_true _)]

/-- A share found of a message that waits is the first that waits of its team. -/
theorem find?_share_waiting {hs : List Share} {h : Share} (hh : (hs.find? fun z => z.team == h.team) = some h) (hst : h.st = 0) :
    (hs.find? fun z => z.team == h.team && z.st == 0) = some h := by
  rw [List.find?_eq_some_iff_append] at hh ⊢
  obtain ⟨-, as, bs, hs, hbefore⟩ := hh
  exact ⟨by simp [hst], as, bs, hs, fun z hz => by simp [show (z.team == h.team) = false by simpa using hbefore z hz]⟩

section
variable (hm : s.msg? m.id = some m) (hp : m.phase < 2) (hr : s.unitRuns (dieOf m.core) m.master = true)
include hm hp hr

/-- A share of a COPYM that has begun runs, and the shares are settled. -/
theorem copym_runs {h g : Share} (ho : m.op = .copym) (hh : (m.shares.find? fun z => z.team == h.team) = some h)
    (ha : (s.beginShare m h).msg? m.id = some a) (hph : a.phase < 2) (hg : (a.shares.find? fun z => z.team == h.team) = some g)
    (hst : g.st = 1) : exec (.copym m.id h.team) s = .next (((s.beginShare m h).runShare a h.team).settleShares m.id) := by
  have hrun : (s.beginShare m h).runShare a h.team = (s.beginShare m h).runShare m h.team := by
    obtain ⟨l, rfl⟩ := State.beginShare_msg? hm ha hph
    rfl
  rw [exec_copym, execCopym, ← ho, State.msgStep_runs hm hp hr, hrun]
  simp only [hh, ha, hph, hg, hst, Option.bind_some, beq_self_eq_true, if_true]

/-- A share that has waited longer than the limit fails in the step of COPYM that comes to it, and the shares are settled. -/
theorem copym_stalled {h : Share} (ho : m.op = .copym) (hh : (m.shares.find? fun z => z.team == h.team) = some h) (hst : h.st = 0)
    (hlim : m.stallLimit < s.now - h.since) :
    exec (.copym m.id h.team) s = .next ((s.setShare m.id h.team 2).settleShares m.id) := by
  have hset : (s.setShare m.id h.team 2).msg? m.id = some { m with shares := _ } := State.setMsg_found hm _ fun _ => rfl
  rw [exec_copym, execCopym, ← ho, State.msgStep_runs hm hp hr]
  simp only [hh, State.beginShare_stalled hst hlim, hset, hp, find?_share_failed hh, Option.bind_some, if_true]
  rfl

/-- So it does in COPYM_SHARE_ABANDON. -/
theorem copymShareAbandon_stalled {h : Share} (ho : m.op = .copym) (hh : (m.shares.find? fun z => z.team == h.team) = some h)
    (hst : h.st = 0) (hlim : m.stallLimit < s.now - h.since) :
    exec (.copymShareAbandon m.id h.team) s = .next ((s.setShare m.id h.team 2).settleShares m.id) := by
  rw [exec_copymShareAbandon, execCopymShareAbandon, ← ho, State.msgStep_runs hm hp hr]
  simp only [find?_share_waiting hh hst, hlim, if_true]

end

/-! ### A tile filled (R182, R302) -/

/-- A team once a tile's state is set. -/
theorem State.tileState_team? {t : TeamId} {y : Team} (h : s.team? t = some y) (tid : Nat) (st : TileSt) :
    (s.tileState t tid st).team? t = some (y.setTile tid fun z => { z with st := st, cnt := 0 }) :=
  State.setTeam_found h _ fun _ => rfl

/-- A tile's state once it is set. -/
theorem State.tileState_tileSt {t : TeamId} {tid : Nat} {x : Tile} (h : (s.team? t).bind (·.tile? tid) = some x) (st : TileSt) :
    (s.tileState t tid st).tileSt t tid = st := by
  obtain ⟨y, hy, hx⟩ := Option.bind_eq_some_iff.mp h
  have hset : (y.setTile tid fun z => { z with st := st, cnt := 0 }).tile? tid = some { x with st := st, cnt := 0 } :=
    Team.setTile_tile? hx _ fun _ => rfl
  rw [State.tileSt, State.tileState_team? hy, Option.bind_some, hset]
  rfl

/-- The tiles of a team after a write to its scratchpad are those before it. -/
theorem State.spadWrite_tile? (s : State) (t : TeamId) (tid off : Nat) (bs : List W8) :
    ((s.spadWrite t off bs).team? t).bind (·.tile? tid) = (s.team? t).bind (·.tile? tid) := by
  rw [State.spadWrite_team?]
  cases s.team? t with
  | none => rfl
  | some y => rw [Option.map_some, if_pos (beq_self_eq_true t)]; rfl

/-- A tile that a message or a copy has filled is ready. -/
theorem State.fillTile_ready {t : TeamId} {tid : Nat} {x : Tile} (h : (s.team? t).bind (·.tile? tid) = some x) (got : List (Nat × List W8)) :
    (s.fillTile t tid got).tileSt t tid = .ready := by
  refine State.tileState_tileSt (x := x) ?_ _
  exact foldl_keeps (fun u : State => (u.team? t).bind (·.tile? tid) = some x) _ (fun u g hu => (u.spadWrite_tile? ..).trans hu) got s h

/-- The bytes of one line that fills a tile stand where the tile lies. -/
theorem State.fillTile_spadRead {t : TeamId} {tid : Nat} {x : Tile} (h : (s.team? t).bind (·.tile? tid) = some x) (off : Nat) (bs : List W8)
    (hw : ∀ y, s.team? t = some y → cwf y.spad = true) :
    (s.fillTile t tid [(off, bs)]).spadRead t (x.off + off) bs.length = bs := by
  obtain ⟨y, hy, -⟩ := Option.bind_eq_some_iff.mp h
  have hwritten : (s.spadWrite t (x.off + off) bs).team? t = some { y with spad := wrBytes y.spad (x.off + off) bs } := by
    rw [State.spadWrite_team?, hy, Option.map_some, if_pos (beq_self_eq_true t)]
  have hfill : s.fillTile t tid [(off, bs)] = (s.spadWrite t (x.off + off) bs).tileState t tid .ready := by
    simp only [State.fillTile, h, Option.map_some, Option.getD_some, List.foldl_cons, List.foldl_nil]
  rw [hfill, State.spadRead, State.tileState_team? hwritten]
  exact rdBytes_wrBytes (hw y hy) _ bs

/-- Settles O48: each kind of message by the step of its kind, a tile by the bytes that fill it, a COPYM's share by either step. -/
theorem engineMessagesComplete : Obligations.EngineMessagesComplete := by
  unfold Obligations.EngineMessagesComplete
  refine fun s m hm hp hr => ⟨fun a y ho ha hph => ?_, fun a b y ho ha hph => ?_, fun t tid got x hx => ⟨State.fillTile_ready hx got, ?_⟩,
    fun u a y ho hu ha => fillb_performs hm hp hr ho hu ha rfl, fun y ho hph hrange => scatr_performs hm hp hr ho hph hrange rfl,
    fun a h g ho hh ha hph hg hst => copym_runs hm hp hr ho hh ha hph hg hst,
    fun h ho hh hst hlim => ⟨copym_stalled hm hp hr ho hh hst hlim, copymShareAbandon_stalled hm hp hr ho hh hst hlim⟩⟩
  · intro t hy hall
    have hkeys : ∀ k ∈ a.copyParts.map (fun p => p.1), y.has k = true := List.forall_mem_map.mpr hall
    rw [copyMessage_performs hm hp hr ho ha hph]
    exact ⟨fun hd => congrArg _ (State.finishParts_plain hy hkeys hd _), fun tid hd => congrArg _ (State.finishParts_tile hy hkeys hd _)⟩
  · intro t hb hall es u hy hparts
    have hkeys : ∀ k ∈ es.map (fun p => p.1 * b.gathWidth), y.has k = true := List.forall_mem_map.mpr hparts
    rw [gathr_performs hm hp hr ho ha hph rfl hb hall]
    exact ⟨fun hd => congrArg _ (State.finishParts_plain hy hkeys hd _), fun tid hd => congrArg _ (State.finishParts_tile hy hkeys hd _)⟩
  · rintro off bs rfl
    exact State.fillTile_spadRead hx off bs

end Sys2Proof.Machine
end

section
/-! SUPPORT. Replies: the completion record, the end of a message's references, and WAITR's match (R183, R184, R301, R309). -/
namespace Sys2Proof.Machine

variable {s : State} {m : Msg} {x : Issue}

/-! ### The end of a message's references (R183, R184) -/

/-- A consumer's reference that ends with its owner's completion counts at its tile; another counts nowhere (R184). -/
def State.consumeRef (s : State) (r : Ref) : State :=
  match r.obj with
  | .tile t tid => if r.consumer then s.setTeam t fun x => x.setTile tid fun y => y.consume 1 else s
  | .region .. => s

/-- An owner's references that end with its completion are gone, and count one by one (R183, R184). -/
theorem State.dropRefs_committed (s : State) (o : RefOwner) : s.dropRefs o true =
    (s.refs.filter fun r => r.owner == o).foldl State.consumeRef { s with refs := s.refs.filter fun r => r.owner != o } := rfl

/-- Counting a consumer leaves the references and the messages. -/
theorem State.consumeRef_frame (s : State) (r : Ref) : (s.consumeRef r).refs = s.refs ∧ (s.consumeRef r).msgs = s.msgs := by
  unfold State.consumeRef
  split
  · split <;> exact ⟨rfl, rfl⟩
  · exact ⟨rfl, rfl⟩

/-- No reference of an owner is left once it has completed, and the messages stand as they were. -/
theorem State.dropRefs_committed_frame (s : State) (o : RefOwner) :
    (s.dropRefs o true).refs = (s.refs.filter fun r => r.owner != o) ∧ (s.dropRefs o true).msgs = s.msgs := by
  rw [State.dropRefs_committed]
  refine foldl_keeps (fun u : State => u.refs = (s.refs.filter fun r => r.owner != o) ∧ u.msgs = s.msgs) _ (fun u r hu => ?_) _ _ ⟨rfl, rfl⟩
  obtain ⟨hrefs, hmsgs⟩ := u.consumeRef_frame r
  exact ⟨hrefs.trans hu.1, hmsgs.trans hu.2⟩

/-- What a message gives up beyond its references leaves every reference of another. -/
theorem State.releaseMsg_refs (s : State) (id : Nat) :
    (s.releaseMsg id).refs = s.refs ∨ (s.releaseMsg id).refs = s.refs.filter fun r => r.owner != .msg id := by
  unfold State.releaseMsg
  split
  · exact .inl rfl
  · dsimp only
    refine .inr (foldl_keeps (fun t : State => t.refs = s.refs.filter fun r => r.owner != .msg id) _ (fun t h ht => ?_) _ _ ?_)
    · split
      · exact ht
      · exact ht
    · split <;> rfl

/-- A message that has performed and has no shares left gives up no tile. -/
theorem State.releaseMsg_teams (hm : s.msg? m.id = some m) (hp : m.phase = 2) (hs : m.shares = []) :
    (s.releaseMsg m.id).teams = s.teams := by
  simp only [State.releaseMsg, hm, hp, hs, List.foldl_nil]
  rfl

/-- The references and the teams of a message that is complete are those that its release leaves. -/
theorem State.replied_frame (s : State) (m : Msg) :
    (s.replied m).refs = ((s.dropRefs (.msg m.id) true).releaseMsg m.id).refs ∧
      (s.replied m).teams = ((s.dropRefs (.msg m.id) true).releaseMsg m.id).teams := by
  unfold State.replied State.dropMsg
  generalize (s.dropRefs (.msg m.id) true).releaseMsg m.id = t
  exact ⟨rfl, rfl⟩

/-- A message that is complete holds no reference (R183). -/
theorem State.replied_refs (s : State) (m : Msg) : ∀ r ∈ (s.replied m).refs, r.owner ≠ .msg m.id := by
  intro r hr
  rw [(s.replied_frame m).1] at hr
  have hdropped : r ∈ (s.dropRefs (.msg m.id) true).refs := by
    obtain h | h := (s.dropRefs (.msg m.id) true).releaseMsg_refs m.id
    · exact h ▸ hr
    · exact List.mem_of_mem_filter (h ▸ hr)
  rw [(s.dropRefs_committed_frame _).1] at hdropped
  simpa using (List.mem_filter.mp hdropped).2

/-- The teams once a message that has performed, without shares, is complete: those that its consumers' ends leave. -/
theorem State.replied_teams (hm : s.msg? m.id = some m) (hp : m.phase = 2) (hs : m.shares = []) :
    (s.replied m).teams = (s.dropRefs (.msg m.id) true).teams := by
  have hstill : (s.dropRefs (.msg m.id) true).msg? m.id = some m := by
    rw [State.msg?, (s.dropRefs_committed_frame _).2]
    exact hm
  rw [(s.replied_frame m).2, State.releaseMsg_teams hstill hp hs]

/-- A message that read a draining tile, and has performed, counts there as it completes (R184). -/
theorem State.replied_consumes {t : TeamId} {tid : Nat} {z : Tile} (hm : s.msg? m.id = some m) (hp : m.phase = 2) (hs : m.shares = [])
    (hrefs : (s.refs.filter fun r => r.owner == .msg m.id) = [{ owner := .msg m.id, obj := .tile t tid, write := false, consumer := true }])
    (hz : (s.team? t).bind (·.tile? tid) = some z) : ((s.replied m).team? t).bind (·.tile? tid) = some (z.consume 1) := by
  obtain ⟨y, hy, hyz⟩ := Option.bind_eq_some_iff.mp hz
  have hteam : (s.replied m).team? t = some (y.setTile tid fun y => y.consume 1) := by
    rw [State.team?, State.replied_teams hm hp hs, State.dropRefs_committed, hrefs]
    exact State.setTeam_found (s := { s with refs := _ }) hy _ fun _ => rfl
  rw [hteam, Option.bind_some]
  refine Team.setTile_tile? hyz _ fun u => ?_
  unfold Tile.consume
  split
  · rfl
  · split <;> rfl

/-! ### The completion record (R301) -/

/-- The record's words, W0 before W1. -/
theorem Msg.record_words (m : Msg) : m.record.take 8 = leBytes 8 (m.tag.toNat * 2 ^ 32 + m.status * 256 + 1) ∧
    m.record.drop 8 = leBytes 8 m.done :=
  ⟨List.take_left' (leBytes_length ..), List.drop_left' (leBytes_length ..)⟩

/-- A message that has performed has no share to settle. -/
theorem State.settleShares_performed (hm : s.msg? m.id = some m) (hp : m.phase = 2) : s.settleShares m.id = s := by
  simp [State.settleShares, hm, hp]

section
variable (hm : s.msg? m.id = some m) (hp : m.phase = 2) (hr : s.unitRuns (dieOf m.core) m.master = true)
include hm hp hr

/-- A record in memory: W1 before W0, at the page that the reply location's line translates to. -/
theorem messageComplete_memory {t : State} {pa : Nat} {nc : Bool} (hs : m.inSpad = false)
    (hline : s.lineAt m.warp.team.launch.ctx 2 1 (.msg m.id) m.reply m.core m.warp.warp = (t, .page pa nc)) :
    exec (.messageComplete m.id) s = .next (((t.homeStore (t.partNo (dieOf m.core)) (pa + 8) (leBytes 8 m.done)).homeStore
      (t.partNo (dieOf m.core)) pa (leBytes 8 (m.tag.toNat * 2 ^ 32 + m.status * 256 + 1))).replied m) := by
  obtain ⟨hw0, hw1⟩ := m.record_words
  rw [exec_messageComplete, execMessageComplete]
  simp only [State.settleShares_performed hm hp, hm, hp, hr, hs, hline, hw0, hw1, bne_self_eq_false, Bool.not_true, Bool.or_self,
    Bool.false_eq_true, if_false]

/-- A record in the team's scratchpad: W1 before W0. -/
theorem messageComplete_spad (hs : m.inSpad = true) : exec (.messageComplete m.id) s = .next
    (((s.spadWrite m.warp.team (m.reply.toNat + 8) (leBytes 8 m.done)).spadWrite m.warp.team m.reply.toNat
      (leBytes 8 (m.tag.toNat * 2 ^ 32 + m.status * 256 + 1))).replied m) := by
  obtain ⟨hw0, hw1⟩ := m.record_words
  rw [exec_messageComplete, execMessageComplete]
  simp only [State.settleShares_performed hm hp, hm, hp, hr, hs, hw0, hw1, bne_self_eq_false, Bool.not_true, Bool.or_self,
    Bool.false_eq_true, if_false, if_true]

end

/-! ### WAITR's match (R309) -/

/-- The value of a record that is done and has the tag, STATUS · 256 + 1, which is not 0 (R301). -/
theorem replyValue_done {w : W64} {tag : W32} (hd : w.getLsbD 0 = true) (ht : w.extractLsb' 32 32 = tag) :
    replyValue w tag = (w.extractLsb' 8 8).setWidth 32 * 256 + 1 ∧ replyValue w tag ≠ 0 := by
  have hv : replyValue w tag = (w.extractLsb' 8 8).setWidth 32 * 256 + 1 := if_pos (by simp [hd, ht])
  refine ⟨hv, fun h => ?_⟩
  have hz : (w.extractLsb' 8 8).setWidth 32 * 256 + 1 = (0 : W32) := hv.symm.trans h
  generalize w.extractLsb' 8 8 = status at hz
  bv_omega

/-- A waiting WAITR reads the record in the scratchpad at once, where the device has no soft error. -/
theorem State.readReply_waiting (he : s.errs = []) (hst : (x.run.node x.k).st = .waiting .reply) (i : Instr) (k : State → W64 → State) :
    s.readReply x i true k = k s (BitVec.ofNat 64 (leNat (s.spadRead x.w.team (laneBase true x.o 0).toNat 8))) := by
  simp only [State.readReply, hst, State.correct_of_errs he, State.badOf_of_errs he, beq_self_eq_true, if_true]

/-- REPLY_MATCH of a WAITR that waits on a running core is that WAITR issuing again. -/
theorem replyMatch_waiting {pr : Pr} {sp : Bool} {a b : Tgt} (hf : Fires { s with cur := some (x.w, x.k) } (.waitr pr sp a b) x)
    (hst : (x.run.node x.k).st = .waiting .reply) (hi : x.run.instr x.k = some (.waitr pr sp a b))
    (hc : s.coreRuns x.warp.core = true) :
    exec (.replyMatch x.w x.k) s = execWaitr pr sp a b { s with cur := some (x.w, x.k) } := by
  obtain ⟨-, hw, hrun, -⟩ := hf
  have hwarp : s.warp? x.w = some x.warp := hw
  have hcore : s.coreOf x.w = x.warp.core := by
    rw [State.coreOf, show s.warps.find? (fun y => y.id == x.w) = some x.warp from hwarp]
    rfl
  rw [exec_replyMatch, execReplyMatch]
  simp only [hwarp, hrun, hst, hi, hcore, hc, Option.bind_some, beq_self_eq_true, if_true]

/-- Settles O49: a message holds its references until its record is written, which MESSAGE_COMPLETE does in memory or the scratchpad; the
WAITR that REPLY_MATCH issues again finds its record done. -/
theorem repliesComplete : Obligations.RepliesComplete := by
  unfold Obligations.RepliesComplete
  refine fun s => ⟨fun m done status => ⟨rfl, s.replied_refs m, fun t tid z hm hp hs hrefs hz => State.replied_consumes hm hp hs hrefs hz⟩,
    fun m t pa nc hm hp hr hs hline => messageComplete_memory hm hp hr hs hline,
    fun m hm hp hr hs => messageComplete_spad hm hp hr hs, fun x pr a b => ?_⟩
  intro i u w0 hf hst hi hc hu he hd ht
  obtain ⟨hv, hne⟩ := replyValue_done hd ht
  rw [replyMatch_waiting hf hst hi hc, execWaitr, firing_eq hf, State.readReply_waiting (s := u) he hst]
  change Host.Outcome.next (if !uniOk i x.o then _ else if replyValue w0 (x.o.right.val32 0) == 0 then _ else
    u.result x [a, b] (Token.uni32 (replyValue w0 (x.o.right.val32 0))) 0) = _
  rw [hu, beq_eq_false_iff_ne.mpr hne, hv]
  rfl

end Sys2Proof.Machine
end

section
/-! SUPPORT. The matrix instructions whose operands fit and whose tiles grant their references (R207 to R214). -/
namespace Sys2Proof.Machine

variable {s t u : State} {x : Issue}

/-- MMA with dense weights and no gang, its operands fitting in tiles that its warp may name, joins its operation (R207 to R209). -/
theorem mma_joins {f : MmaF} {aw bw : List W64} {tm : Team} (h : Fires s (.mma f) x) (hu : uniOk (.mma f) x.o = true)
    (hg : f.gng = false) (hst : (x.run.node x.k).st = .idle) (hacc : s.accBad x f.tid.toNat f.spl = none)
    (ha : LegendReads s x f.tda.toNat t aw) (hb : LegendReads t x f.tdb.toNat u bw) (hdense : (parseEntry bw).spn = 0)
    (hup : u.fw.bringUp = false) (ht : u.team? x.w.team = some tm)
    (hfit : tm.mmaBad x.run f (x.o.left.val32 0).toNat (x.o.right.val32 0).toNat (mmaOrigin f x.o) (parseEntry aw) (parseEntry bw)
      (parseEntry []) = none)
    (hnamed : u.unnamed? x (tm.mmaSources x.run (parseEntry aw) (parseEntry bw) (parseEntry []) (mmaOrigin f x.o)
      (x.o.left.val32 0).toNat (x.o.right.val32 0).toNat) = none) :
    exec (.mma f) s = .next (u.mmaIssue x f (x.o.left.val32 0).toNat (x.o.right.val32 0).toNat aw bw []) := by
  rw [exec_mma, execMma, firing_eq h]
  simp [hu, hg, hst, hacc, State.readLegend_reads ha, State.readLegend_reads hb, hdense, hup, ht, hfit, hnamed]

/-- AZERO whose tiles grant write references, the rest of its block finished, takes them and leaves its zeroing (R210, logs 20, 95). -/
theorem azero_takes {pr : Pr} {spl : Bool} {tid : BitVec 6} (h : Fires s (.azero pr spl tid) x) (hu : uniOk (.azero pr spl tid) x.o = true)
    (hacc : s.accBad x tid.toNat spl = none) (hrest : x.run.restDone = true)
    (hgrant : ∀ k ∈ unitTiles tid.toNat spl, s.canWrite (.block x.w) x.w.team k [.empty, .ready] = true)
    (hdrain : s.drainDue x.w (unitTiles tid.toNat spl) = false) :
    exec (.azero pr spl tid) s = .next
      (((unitTiles tid.toNat spl).foldl (fun s k => s.takeRef (.block x.w) x.w.team k true) s).leave x (.azero tid.toNat spl)) := by
  have hall := List.all_eq_true.mpr hgrant
  rw [exec_azero, execAzero, firing_eq h]
  simp only [hu, hacc, hrest, hdrain, hall, Bool.not_true, Bool.not_false, Bool.and_self, Bool.false_eq_true, if_false, if_true]

/-- ADRN to memory, its rows fitting and its tiles granting read references, drains the rows (R211 to R213). -/
theorem adrn_drains {f : DrainF} {ew : List W64} {tm : Team} (h : Fires s (.adrn f) x) (hu : uniOk (.adrn f) x.o = true)
    (hacc : s.accBad x f.tid.toNat (f.mode != .raw) = none) (he : LegendReads s x f.tdo.toNat t ew) (ht : t.team? x.w.team = some tm)
    (hmem : (parseEntry ew).space ≠ 1)
    (hrows : rowsOk (parseEntry ew) (f.mode == .img) false (x.o.left.val32 0).toNat (x.o.right.val32 0).toNat
      (x.o.third.val32 0).toNat = true)
    (hup : t.fw.bringUp = false)
    (hgrant : ∀ k ∈ unitTiles f.tid.toNat (f.mode != .raw), t.canRead (.block x.w) x.w.team k = true) :
    exec (.adrn f) s = .next
      (((unitTiles f.tid.toNat (f.mode != .raw)).foldl (fun s k => s.takeRef (.block x.w) x.w.team k false) t).drainIssue x f tm
        (parseEntry ew) (x.o.left.val32 0).toNat (x.o.right.val32 0).toNat (x.o.third.val32 0).toNat) := by
  have hall := List.all_eq_true.mpr hgrant
  rw [exec_adrn, execAdrn, firing_eq h]
  simp [hu, hacc, State.readLegend_reads he, ht, hmem, hrows, hup, hall, spadElemBad, State.unnamed?]

/-- ALOAD from memory, its rows fitting and its tiles granting write references, reads the rows and leaves them (R214). -/
theorem aload_reads {pr : Pr} {img : Bool} {tid tds : BitVec 6} {ew : List W64} {tm : Team} (h : Fires s (.aload pr img tid tds) x)
    (hu : uniOk (.aload pr img tid tds) x.o = true) (hacc : s.accBad x tid.toNat img = none)
    (he : LegendReads s x tds.toNat t ew) (ht : t.team? x.w.team = some tm) (hmem : (parseEntry ew).space ≠ 1)
    (hrows : rowsOk (parseEntry ew) img true (x.o.left.val32 0).toNat (x.o.right.val32 0).toNat (x.o.third.val32 0).toNat = true)
    (hgrant : ∀ k ∈ unitTiles tid.toNat img, t.canWrite (.block x.w) x.w.team k [.empty, .ready] = true) :
    let e := parseEntry ew
    let row := (x.o.right.val32 0).toNat
    let rows := (x.o.third.val32 0).toNat
    exec (.aload pr img tid tds) s = .next
      (((unitTiles tid.toNat img).foldl (fun s k => s.takeRef (.block x.w) x.w.team k true) t).loadRows x e
        ((List.range rows).flatMap fun i => (rowElems e img).map fun o => (e.at' img (row + i) o.1, o.2))
        fun s bs => s.leave x (.aload tid.toNat (x.o.left.val32 0).toNat img (loadedRows img rows bs))) := by
  have hall := List.all_eq_true.mpr hgrant
  dsimp only
  rw [exec_aload, execAload, firing_eq h]
  simp [hu, hacc, State.readLegend_reads he, ht, hmem, hrows, hall, State.unnamed?]

/-- Settles O36: each operation passes its checks and takes its references; the tiles of AZERO are those of its unit. -/
theorem matrixOperationsComplete : Obligations.MatrixOperationsComplete := by
  unfold Obligations.MatrixOperationsComplete
  refine ⟨fun s x => ⟨fun f t u aw bw tm h hu hg hst hacc ha hb hdense hup ht hfit hnamed =>
      mma_joins h hu hg hst hacc ha hb hdense hup ht hfit hnamed,
    fun pr spl tid h hu hacc hrest hgrant hdrain => azero_takes h hu hacc hrest hgrant hdrain⟩,
    fun s x t ew tm ht hmem => ⟨fun f h hu hacc he hrows hup hgrant => adrn_drains h hu hacc he ht hmem hrows hup hgrant,
      fun pr img tid tds h hu hacc he hrows hgrant => aload_reads h hu hacc he ht hmem hrows hgrant⟩⟩

end Sys2Proof.Machine
end

section
/-! SUPPORT. The group sum of the matrix array and its rounding (R200), and the sums and counts of a split element (R201). -/
namespace Sys2Proof

/-! ### One term (R200) -/

/-- The place of a term's leading bit. -/
def Fp.log : Fp → Int
  | .fin _ m e => Nat.log2 m + e
  | _ => 0

/-- A term cut toward zero at 2^lo, in units of 2^lo. -/
def Fp.high (lo : Int) : Fp → Int
  | .fin n m e => (if n then -1 else 1) * ((if lo ≤ e then m * 2 ^ (e - lo).toNat else m / 2 ^ (lo - e).toNat : Nat) : Int)
  | _ => 0

/-- A term loses something where it is cut at 2^lo. -/
def Fp.cut (lo : Int) : Fp → Bool
  | .fin _ m e => decide (e < lo) && m % 2 ^ (lo - e).toNat != 0
  | _ => false

/-- The sign of what a term loses, 0 of nothing. -/
def Fp.cutSign (lo : Int) (t : Fp) : Int := if t.cut lo then (if t.isNeg then -1 else 1) else 0

/-- A positive product, which counts in c+ (R201). -/
def Fp.up (t : Fp) : Bool := t != .nan && !t.isZero && !t.isNeg

/-- A negative product, which counts in c− (R201). -/
def Fp.down (t : Fp) : Bool := t != .nan && !t.isZero && t.isNeg

/-- Only a NaN has the inverse NaN. -/
theorem Fp.neg_eq_nan (t : Fp) : t.neg = .nan ↔ t = .nan := by
  cases t <;> simp [Fp.neg]

end Sys2Proof

namespace Sys2Proof.Machine

variable {c : W32} {ps ts : List Fp}

/-! ### The group sum (R200) -/

/-- The terms of a group: C and the products but the zeros. -/
def groupTerms (c : W32) (ps : List Fp) : List Fp := (Fmt.f32.decode c.toNat :: ps).filter fun t => !t.isZero

/-- A term joins the sum, the signs of what is cut, and whether anything is. -/
def addTerm (lo : Int) (acc : Int × Int × Bool) (t : Fp) : Int × Int × Bool :=
  match t with
  | .fin n m e =>
    (acc.1 + Fp.high lo (.fin n m e), acc.2.1 + Fp.cutSign lo (.fin n m e), acc.2.2 || Fp.cut lo (.fin n m e))
  | _ => acc

/-- The sum of finite terms, cut at 63 bits below the greatest. -/
def finiteSum (ts : List Fp) : W32 × Flags :=
  match ts.map Fp.log with
  | [] => (0, 0)
  | l :: ls =>
    let lo := ls.foldl (fun a b => if a < b then b else a) l - 63
    let r := ts.foldl (addTerm lo) (0, 0, false)
    roundGroup r.1 lo r.2.1 r.2.2

/-- The canonical NaN of FP32 (R131). -/
theorem nan32_eq : nan32 = 0x7FC00000 := rfl

/-- The group sum by R200's cases: a NaN, opposed infinities, an infinity, finite terms. -/
theorem groupSum_eq (c : W32) (ps : List Fp) : groupSum c ps =
    if (groupTerms c ps).contains .nan then (nan32, 0)
    else if (groupTerms c ps).contains (.inf false) && (groupTerms c ps).contains (.inf true) then (nan32, .nv)
    else if (groupTerms c ps).contains (.inf false) then (0x7F800000, 0)
    else if (groupTerms c ps).contains (.inf true) then (0xFF800000, 0)
    else finiteSum (groupTerms c ps) := rfl

theorem groupSum_nan (h : Fp.nan ∈ groupTerms c ps) : groupSum c ps = (0x7FC00000, 0) := by
  simp [groupSum_eq, h, nan32_eq]

theorem groupSum_opposed (hnan : Fp.nan ∉ groupTerms c ps) (hpos : Fp.inf false ∈ groupTerms c ps)
    (hneg : Fp.inf true ∈ groupTerms c ps) : groupSum c ps = (0x7FC00000, .nv) := by
  simp [groupSum_eq, hnan, hpos, hneg, nan32_eq]

theorem groupSum_posInf (hnan : Fp.nan ∉ groupTerms c ps) (hpos : Fp.inf false ∈ groupTerms c ps)
    (hneg : Fp.inf true ∉ groupTerms c ps) : groupSum c ps = (0x7F800000, 0) := by
  simp [groupSum_eq, hnan, hpos, hneg]

theorem groupSum_negInf (hnan : Fp.nan ∉ groupTerms c ps) (hpos : Fp.inf false ∉ groupTerms c ps)
    (hneg : Fp.inf true ∈ groupTerms c ps) : groupSum c ps = (0xFF800000, 0) := by
  simp [groupSum_eq, hnan, hpos, hneg]

/-- Finite terms alone are summed. -/
theorem groupSum_finite (h : AllFin (groupTerms c ps)) : groupSum c ps = finiteSum (groupTerms c ps) := by
  have hnan : Fp.nan ∉ groupTerms c ps := fun hm => by obtain ⟨_, _, _, h⟩ := h _ hm; cases h
  have hinf (n : Bool) : Fp.inf n ∉ groupTerms c ps := fun hm => by obtain ⟨_, _, _, h⟩ := h _ hm; cases h
  simp [groupSum_eq, hnan, hinf]

/-- No term at all sums to +0. -/
theorem groupSum_empty (h : groupTerms c ps = []) : groupSum c ps = (0, 0) := by
  simp [groupSum_eq, h, finiteSum]

/-- The terms' sums, from any start. -/
theorem foldl_addTerm (lo : Int) (h : AllFin ts) (acc : Int × Int × Bool) : ts.foldl (addTerm lo) acc =
    (acc.1 + (ts.map (Fp.high lo)).sum, acc.2.1 + (ts.map (Fp.cutSign lo)).sum, acc.2.2 || ts.any (Fp.cut lo)) := by
  induction ts generalizing acc with
  | nil => simp
  | cons t ts ih =>
    obtain ⟨n, m, e, rfl⟩ := h _ List.mem_cons_self
    rw [List.foldl_cons, ih fun x hx => h x (List.mem_cons_of_mem _ hx)]
    simp only [addTerm, List.map_cons, List.sum_cons, List.any_cons, Int.add_assoc, Bool.or_assoc]

/-- The running maximum of a list is an element that none exceeds. -/
theorem foldl_greater {l top : Int} {ls : List Int} (hmem : top ∈ l :: ls) (hle : ∀ b ∈ l :: ls, b ≤ top) :
    ls.foldl (fun a b => if a < b then b else a) l = top := by
  have hmax : (fun a b : Int => if a < b then b else a) = max := funext₂ fun a b => (max_def_lt a b).symm
  have hsome : (l :: ls).max? = some top := List.max?_eq_some_iff.mpr ⟨hmem, hle⟩
  rw [List.max?_cons', ← hmax] at hsome
  exact Option.some.inj hsome

/-- Finite terms with a greatest: their parts above the cut and the signs of what is cut, summed and rounded once. -/
theorem finiteSum_greatest {top : Int} (h : AllFin ts) (hmem : ∃ t ∈ ts, t.log = top) (hle : ∀ t ∈ ts, t.log ≤ top) :
    finiteSum ts = roundGroup (ts.map (Fp.high (top - 63))).sum (top - 63)
      (ts.map (Fp.cutSign (top - 63))).sum (ts.any (Fp.cut (top - 63))) := by
  have hmem' : top ∈ ts.map Fp.log := List.mem_map.mpr hmem
  have hle' : ∀ b ∈ ts.map Fp.log, b ≤ top := List.forall_mem_map.mpr hle
  unfold finiteSum
  cases hlogs : ts.map Fp.log with
  | nil => simp [hlogs] at hmem'
  | cons l ls =>
    rw [hlogs] at hmem' hle'
    simp only [foldl_greater hmem' hle', foldl_addTerm _ h, Int.zero_add, Bool.false_or]

/-! ### The rounding (R142, R200) -/

/-- How many of the low bits of m · 2^lo FP32 does not keep. -/
def lostBits (m : Nat) (lo : Int) : Int :=
  (if (Nat.log2 m : Int) + lo - 23 < -149 then -149 else (Nat.log2 m : Int) + lo - 23) - lo

/-- m · 2^lo lies midway between two values of FP32, below 2^128. -/
def midway (m : Nat) (lo : Int) : Bool :=
  0 < lostBits m lo && m % 2 ^ (lostBits m lo).toNat == 2 ^ (lostBits m lo - 1).toNat && (Nat.log2 m : Int) + lo < 128

theorem midway_iff (m : Nat) (lo : Int) : midway m lo = true ↔
    0 < lostBits m lo ∧ m % 2 ^ (lostBits m lo).toNat = 2 ^ (lostBits m lo - 1).toNat ∧ (Nat.log2 m : Int) + lo < 128 := by
  simp only [midway, Bool.and_eq_true, decide_eq_true_eq, beq_iff_eq, and_assoc]

/-- The mode in which a group's sum is rounded: at a midpoint the sign of what was cut decides. -/
def tieMode (tie : Bool) (d : Int) : Rm := if tie && 0 < d then .rup else if tie && d < 0 then .rdn else .rne

/-- v · 2^lo rounded to FP32, −0 as +0. -/
def roundedAs (v lo : Int) (rm : Rm) : W32 :=
  let b := (Fmt.f32.round rm false (.rat (v < 0) v.natAbs 1 lo)).1
  if b = 2 ^ 31 then 0 else BitVec.ofNat 32 b

variable {v lo d : Int} {tie cut : Bool}

theorem tieMode_nearest (h : d = 0 ∨ ¬ tie = true) : tieMode tie d = .rne := by
  obtain rfl | h := h
  · simp [tieMode]
  · simp [tieMode, h]

theorem tieMode_up (hd : 0 < d) : tieMode true d = .rup := by
  simp [tieMode, hd]

theorem tieMode_down (hd : d < 0) : tieMode true d = .rdn := by
  simp [tieMode, hd, hd.le]

/-- A sum of zero is +0. -/
theorem roundGroup_zero : (roundGroup 0 lo d cut).1 = 0 := rfl

/-- A sum other than zero is rounded once, in its mode. -/
theorem roundGroup_nonzero (hv : v ≠ 0) : (roundGroup v lo d cut).1 = roundedAs v lo (tieMode (midway v.natAbs lo) d) := by
  have hne : (v == 0) = false := beq_eq_false_iff_ne.mpr hv
  simp only [roundGroup, hne, Bool.false_eq_true, if_false, roundedAs, beq_iff_eq]
  rfl

/-- A flag ORed in once is there. -/
theorem or_flag_again (f g n : Flags) : f ||| n ||| g ||| n = f ||| n ||| g := by
  rw [BitVec.or_assoc, BitVec.or_comm g n, ← BitVec.or_assoc, BitVec.or_assoc f n n, BitVec.or_self]

/-- Something cut makes the result inexact (R142). -/
theorem roundGroup_inexact (v lo d : Int) : (roundGroup v lo d true).2 ||| Flags.nx = (roundGroup v lo d true).2 := by
  unfold roundGroup
  split
  · rfl
  · exact or_flag_again ..

/-! ### A split element (R201) -/

/-- A count rises by the number given, and stays at 65,535. -/
theorem countUp_toNat (c : W32) (n : Nat) : (countUp c n).1.toNat = min 65535 (c.toNat + n) := by
  unfold countUp
  split
  · rw [min_eq_left (by omega)]; rfl
  · rw [min_eq_right (by omega), toNat_ofNat_of_lt (by omega)]

/-- The products that join P: the NaNs and the positive ones. -/
def posTerms (ps : List Fp) : List Fp := (ps.filter fun t => !t.isZero).filter fun t => t == .nan || !t.isNeg

/-- The products that join N, inverted: the NaNs and the negative ones. -/
def negTerms (ps : List Fp) : List Fp := ((ps.filter fun t => !t.isZero).filter fun t => t == .nan || t.isNeg).map Fp.neg

/-- A split group sums the positive and the negative products apart, and counts those that are numbers. -/
theorem splitGroup_fst (x : SplitElem) (ps : List Fp) : (splitGroup x ps).1 =
    { p := (groupSum x.p (posTerms ps)).1, n := (groupSum x.n (negTerms ps)).1
      cp := (countUp x.cp ((posTerms ps).filter (· != .nan)).length).1
      cm := (countUp x.cm ((negTerms ps).filter (· != .nan)).length).1 } := rfl

/-- The numbers among the positive products. -/
theorem posTerms_numbers (ps : List Fp) : (posTerms ps).filter (· != .nan) = ps.filter Fp.up := by
  simp only [posTerms, List.filter_filter]
  refine List.filter_congr fun t _ => ?_
  by_cases h : t = .nan
  · simp [Fp.up, h]
  · simp [Fp.up, bne, beq_eq_false_iff_ne.mpr h, Bool.and_comm]

/-- The numbers among the negative products. -/
theorem negTerms_numbers (ps : List Fp) : (negTerms ps).filter (· != .nan) = (ps.filter Fp.down).map Fp.neg := by
  simp only [negTerms, List.filter_map, List.filter_filter]
  refine congrArg _ (List.filter_congr fun t _ => ?_)
  by_cases h : t = .nan
  · simp [Fp.down, h, Fp.neg]
  · have hneg : t.neg ≠ .nan := fun he => h (t.neg_eq_nan.mp he)
    simp [Fp.down, bne, beq_eq_false_iff_ne.mpr h, beq_eq_false_iff_ne.mpr hneg, Bool.and_comm]

theorem nan_mem_posTerms : Fp.nan ∈ posTerms ps ↔ Fp.nan ∈ ps := by
  simp [posTerms, Fp.isZero]

theorem nan_mem_negTerms : Fp.nan ∈ negTerms ps ↔ Fp.nan ∈ ps := by
  simp [negTerms, Fp.neg_eq_nan, Fp.isZero]

/-- A list without a NaN is the numbers of it. -/
theorem filter_numbers (h : Fp.nan ∉ ts) : ts.filter (· != .nan) = ts :=
  List.filter_eq_self.mpr fun _ ht => bne_iff_ne.mpr fun he => h (he ▸ ht)

theorem posTerms_of_numbers (h : Fp.nan ∉ ps) : posTerms ps = ps.filter Fp.up := by
  rw [← posTerms_numbers, filter_numbers fun hm => h (nan_mem_posTerms.mp hm)]

theorem negTerms_of_numbers (h : Fp.nan ∉ ps) : negTerms ps = (ps.filter Fp.down).map Fp.neg := by
  rw [← negTerms_numbers, filter_numbers fun hm => h (nan_mem_negTerms.mp hm)]

/-- A NaN among a group's products makes its sum the canonical NaN. -/
theorem groupSum_nan_product (c : W32) (h : Fp.nan ∈ ps) : groupSum c ps = (0x7FC00000, 0) :=
  groupSum_nan (List.mem_filter.mpr ⟨List.mem_cons_of_mem _ h, rfl⟩)

end Sys2Proof.Machine
end

section
/-! SUPPORT. The elements that an operation computes (R200, R208, R209), and the steps of the matrix machine (R209, R217). -/
namespace Sys2Proof.Machine

/-! ### One element through its groups (R200) -/

/-- A first group of 32 stands before the groups of the rest. -/
theorem groups_append {as : List Fp} (h : as.length = 32) (as' : List Fp) : groups (as ++ as') = as :: groups as' := by
  have hcount : (as ++ as').length / 32 = as'.length / 32 + 1 := by rw [List.length_append, h]; omega
  have hrest (g : Nat) : ((as ++ as').drop (32 * (g + 1))).take 32 = (as'.drop (32 * g)).take 32 := by
    rw [show 32 * (g + 1) = as.length + 32 * g by omega, List.drop_length_add_append]
  rw [groups, hcount, List.range_succ_eq_map, List.map_cons, List.map_map]
  exact congrArg₂ List.cons (List.take_left' h) (List.map_congr_left fun g _ => hrest g)

/-- What a fold appends, step by step, to the first part of its state. -/
theorem foldl_fst_append {α β γ : Type} {step : List β × γ → α → List β × γ} (f : α → List β)
    (h : ∀ acc a, (step acc a).1 = acc.1 ++ f a) (l : List α) (acc : List β × γ) : (l.foldl step acc).1 = acc.1 ++ l.flatMap f := by
  induction l generalizing acc with
  | nil => simp
  | cons a l ih => rw [List.foldl_cons, ih, h, List.flatMap_cons, List.append_assoc]

/-- The exact products of one group, without their flags (R198). -/
def groupExact (as bs : List Fp) : List Fp := (as.zip bs).map fun p => (fpMulV p.1 p.2).1

theorem groupProducts_fst (as bs : List Fp) : (groupProducts as bs).1 = groupExact as bs := by
  rw [groupProducts, foldl_fst_append (fun p : Fp × Fp => [(fpMulV p.1 p.2).1]) fun _ _ => rfl, List.nil_append, groupExact,
    List.map_eq_flatMap]

/-- An element is the sums of its groups, each the C of the next. -/
theorem plainElem_fst (c : W32) (as bs : List Fp) : (plainElem c as bs).1 =
    ((groups as).zip (groups bs)).foldl (fun c g => (groupSum c (groupExact g.1 g.2)).1) c := by
  rw [plainElem, ← List.foldl_hom Prod.fst]
  intro acc g
  rw [← groupProducts_fst]

theorem plainElem_none (c : W32) : (plainElem c [] []).1 = c := rfl

/-- A first group's sum is the C of the rest. -/
theorem plainElem_group (c : W32) {as bs : List Fp} (as' bs' : List Fp) (ha : as.length = 32) (hb : bs.length = 32) :
    (plainElem c (as ++ as') (bs ++ bs')).1 = (plainElem (groupSum c (groupExact as bs)).1 as' bs').1 := by
  rw [plainElem_fst, groups_append ha, groups_append hb, List.zip_cons_cons, List.foldl_cons, ← plainElem_fst]

/-! ### The rows of an operation (R208, R209) -/

variable {t : Team} {m : Mma} {ovl : Mem}

/-- An element that a plain dense operation computes, from an A row and a column. -/
def Team.denseElem (t : Team) (m : Mma) (ovl : Mem) (i row n : Nat) : SplitElem :=
  let x := t.elem m.f.tid.toNat i n false
  { x with p := (plainElem x.p ((List.range m.ka).map fun c => activation t.spad (parseEntry m.a) row c)
      ((List.range m.ka).map fun k => weight ovl t.spad (parseEntry m.b) (parseEntry m.meta') (m.kb + k) n)).1 }

/-- A plain dense operation computes every column of every row. -/
theorem Team.mmaRun_dense (hdense : (parseEntry m.b).spn = 0) (hspl : m.f.spl = false) : (t.mmaRun m ovl).1 =
    ((List.range m.aRows.length).zip m.aRows).flatMap fun r =>
      (List.range 128).map fun n => (128 * r.1 + n, t.denseElem m ovl r.1 r.2 n) := by
  have hzero : ((parseEntry m.b).spn == 0) = true := beq_iff_eq.mpr hdense
  simp only [Team.mmaRun, hzero, hspl, if_true, Bool.false_eq_true, if_false]
  refine (foldl_fst_append _ (fun acc r => ?_) _ _).trans (List.nil_append _)
  rw [List.foldl_map]
  exact (foldl_fst_append (fun n => [(128 * r.1 + n, t.denseElem m ovl r.1 r.2 n)]) (fun _ _ => rfl) _ acc).trans
    (congrArg _ List.map_eq_flatMap.symm)

/-- Each element of each row is computed. -/
theorem Team.denseElem_mem {i n : Nat} (hdense : (parseEntry m.b).spn = 0) (hspl : m.f.spl = false) (hi : i < m.aRows.length)
    (hn : n < 128) : (128 * i + n, t.denseElem m ovl i (m.aRows.getD i 0) n) ∈ (t.mmaRun m ovl).1 := by
  have hrow : (i, m.aRows.getD i 0) ∈ (List.range m.aRows.length).zip m.aRows :=
    mem_range_zip.mpr (by simp [hi])
  rw [Team.mmaRun_dense hdense hspl]
  exact List.mem_flatMap.mpr ⟨_, hrow, List.mem_map.mpr ⟨n, List.mem_range.mpr hn, rfl⟩⟩

/-! ### The steps of the machine (R209, R217) -/

variable {s : State}

/-- An operation that has no references to wait for takes none. -/
theorem State.mmaRefs_of_phase (h : m.phase ≠ 1) : s.mmaRefs m = s := by
  simp [State.mmaRefs, h]

/-- An operation that holds its references starts on a bucket above zero and takes its cost from it (R217). -/
theorem mmaStart_starts (hm : (s.mmas.find? fun y => y.id == m.id) = some m) (hc : s.coreRuns m.core = true) (hp : m.phase = 2)
    (hl : 0 < (s.core m.core).level) : exec (.mmaStart m.id) s = .next
      ((s.setCore m.core fun c => { c with level := c.level - 4 * m.cost }).setMma m.id fun y => { y with phase := 3 }) := by
  have hrefs : s.mmaRefs m = s := State.mmaRefs_of_phase (by omega)
  rw [exec_mmaStart, execMmaStart]
  simp [hm, hc, hrefs, hp, hl]

/-- A plane of what an operation computed: the words that are not 0. -/
def elemPlane (out : List (Nat × SplitElem)) (g : SplitElem → W32) : Plane := (out.map fun p => (p.1, g p.2)).filter fun p => p.2 != 0

/-- An operation that has computed its rows. -/
def Mma.computed (y : Mma) (out : List (Nat × SplitElem)) (f : Flags) : Mma :=
  { y with phase := 4, outP := elemPlane out (·.p), outN := elemPlane out (·.n), outCp := elemPlane out (·.cp)
           outCm := elemPlane out (·.cm), flags := f }

/-- A device without soft errors has none among what an operation reads. -/
theorem State.mmaErrs_of_errs (h : s.errs = []) (m : Mma) : s.mmaErrs m = [] := by
  simp [State.mmaErrs, h]

/-- A started operation with no error and good masks computes its rows for its members' commit, and their waits are tested (R209). -/
theorem mmaComplete_computes {p : Nat × Nat × Nat × Nat} {ps : List (Nat × Nat × Nat × Nat)}
    (hm : (s.mmas.find? fun y => y.id == m.id && y.phase == 3) = some m) (hc : s.coreRuns m.core = true) (ht : s.team? m.team = some t)
    (hmem : m.members = p :: ps) (he : s.errs = [])
    (hmask : (parseEntry m.b).spn = 0 ∨ maskBad t.spad (parseEntry m.b) (parseEntry m.meta') m.kb m.ka = false) :
    let out := t.mmaRun m (s.core m.core).ovl
    exec (.mmaComplete m.id) s = .next (m.members.foldl (fun s p => s.tested { team := m.team, warp := p.1 })
      ((s.setMma m.id fun y => y.computed out.1 out.2).mmaDone m out.2)) := by
  have hgood : ((parseEntry m.b).spn != 0 && maskBad t.spad (parseEntry m.b) (parseEntry m.meta') m.kb m.ka) = false := by
    obtain h | h := hmask <;> simp [h]
  obtain ⟨w, k⟩ := p
  rw [exec_mmaComplete, execMmaComplete]
  simp only [hm, hc, ht, hmem, State.correct_of_errs he, State.badOf_of_errs he, hgood, Bool.not_true, Bool.false_eq_true, if_false]
  rfl


/-- Settles O44: the two steps of the machine, the elements by their groups, a group by its terms' kinds, the rounding by its mode, and a
split group by the signs of its products. -/
theorem matrixMachineCompletes : Obligations.MatrixMachineCompletes := by
  unfold Obligations.MatrixMachineCompletes
  refine ⟨fun s m => ⟨fun hm hc hp hl => mmaStart_starts hm hc hp hl,
      fun t p ps hm hc ht hmem he hmask => mmaComplete_computes hm hc ht hmem he hmask⟩,
    fun t m ovl i n hdense hspl hi hn => Team.denseElem_mem hdense hspl hi hn,
    fun c as bs as' bs' ha hb _ => ⟨plainElem_none c, plainElem_group c as' bs' ha hb⟩,
    fun c ps => ⟨groupSum_empty, groupSum_nan, groupSum_opposed, groupSum_posInf, groupSum_negInf, ?_⟩,
    fun v lo d cut => ?_, fun x ps => ?_⟩
  · intro top log hlog hfin hmem hle
    have heq : ∀ t ∈ groupTerms c ps, log t = t.log := fun t ht => by
      obtain ⟨n, m, e, rfl⟩ := hfin t ht
      exact hlog n m e
    obtain ⟨t, ht, htop⟩ := hmem
    exact (groupSum_finite hfin).trans
      (finiteSum_greatest hfin ⟨t, ht, heq t ht ▸ htop⟩ fun t ht => heq t ht ▸ hle t ht)
  · intro m k tie out
    have htie : midway m lo = true ↔ tie := midway_iff m lo
    refine ⟨fun hv => ?_, fun hv h => ?_, fun hv ht hd => ?_, fun hv ht hd => ?_, fun hcut => ?_⟩
    · rw [hv, roundGroup_zero]
    · rw [roundGroup_nonzero hv, tieMode_nearest (h.imp_right (mt htie.mp))]
      rfl
    · rw [roundGroup_nonzero hv, htie.mpr ht, tieMode_up hd]
      rfl
    · rw [roundGroup_nonzero hv, htie.mpr ht, tieMode_down hd]
      rfl
    · rw [hcut, roundGroup_inexact]
  · rw [splitGroup_fst, posTerms_numbers, negTerms_numbers, List.length_map]
    refine ⟨countUp_toNat .., countUp_toNat .., fun h => ?_, fun h => ?_⟩
    · rw [posTerms_of_numbers h, negTerms_of_numbers h]
      exact ⟨rfl, rfl⟩
    · rw [groupSum_nan_product _ (nan_mem_posTerms.mpr h), groupSum_nan_product _ (nan_mem_negTerms.mpr h)]
      exact ⟨rfl, rfl⟩

end Sys2Proof.Machine
end

section
/-! SUPPORT. SCAN and WRED (R222 to R225): one step of the tree, the integer combinations, and the tree of an integer sum. -/
namespace Sys2Proof

variable {f : ScanF}

/-! ### One step (R223) -/

/-- What a lane makes of the value some lanes below it and its own: their combination, one side empty passing the other on. -/
def scanJoin (f : ScanF) : Option W64 → Option W64 → Option W64
  | none, v => v
  | u, none => u
  | some u, some v => some (scanComb f u v).1

@[simp] theorem scanJoin_none_left (v : Option W64) : scanJoin f none v = v := rfl

@[simp] theorem scanJoin_none_right (u : Option W64) : scanJoin f u none = u := by cases u <;> rfl

@[simp] theorem scanJoin_some (u v : W64) : scanJoin f (some u) (some v) = some (scanComb f u v).1 := rfl

@[simp] theorem scanStep_length (d : Nat) (y : List (Option W64)) : (scanStep f d y).1.length = y.length := by
  simp [scanStep]

/-- A lane below the distance keeps its value, and another joins it with the one that many lanes below. -/
theorem scanStep_getD (d : Nat) {y : List (Option W64)} {i : Nat} (hi : i < y.length) :
    (scanStep f d y).1.getD i none = if i < d then y.getD i none else scanJoin f (y.getD (i - d) none) (y.getD i none) := by
  have hlen : i < (scanStep f d y).1.length := by rwa [scanStep_length]
  rw [List.getD_eq_getElem _ _ hlen]
  simp only [scanStep, List.map_map, List.getElem_map, List.getElem_range, Function.comp_apply]
  split
  · rfl
  · cases y.getD (i - d) none <;> cases y.getD i none <;> rfl

/-! ### The integer combinations (R222) -/

/-- No integer TY is a float. -/
theorem Ty.isFloat_of_isInt {t : Ty} (h : t.isInt = true) : t.isFloat = false := by
  revert h
  cases t <;> decide

theorem scanComb_add (h : f.ty.isInt = true) (hc : f.cmb = .add) (u v : W64) : scanComb f u v = (ivAdd f.ty f.sat u v, 0) := by
  simp [scanComb, hc, Ty.isFloat_of_isInt h]

theorem scanComb_mul (h : f.ty.isInt = true) (hc : f.cmb = .mul) (u v : W64) : scanComb f u v = (ivMul f.ty f.sat u v, 0) := by
  simp [scanComb, hc, Ty.isFloat_of_isInt h]

theorem scanComb_min (h : f.ty.isInt = true) (hc : f.cmb = .min) (u v : W64) : scanComb f u v = (ivMin f.ty u v, 0) := by
  simp [scanComb, hc, Ty.isFloat_of_isInt h]

theorem scanComb_max (h : f.ty.isInt = true) (hc : f.cmb = .max) (u v : W64) : scanComb f u v = (ivMax f.ty u v, 0) := by
  simp [scanComb, hc, Ty.isFloat_of_isInt h]

/-- An integer combination raises no flag. -/
theorem scanComb_int_flags (h : f.ty.isInt = true) (hc : f.cmb ≠ .lrec) (u v : W64) : (scanComb f u v).2 = 0 := by
  cases hf : f.cmb with
  | add => rw [scanComb_add h hf]
  | mul => rw [scanComb_mul h hf]
  | min => rw [scanComb_min h hf]
  | max => rw [scanComb_max h hf]
  | lrec => exact absurd hf hc

/-! ### The tree of an integer sum -/

/-- A wrapped result is that of every integer equal to the exact one modulo 2^w. -/
theorem FitsTo.of_modEq {t : Ty} {z z' : Int} {v : W64} (h : FitsTo t false z v) (hz : z ≡ z' [ZMOD (2 ^ t.bitsW : Nat)]) :
    FitsTo t false z' v := ⟨h.1, h.2.trans hz⟩

/-- A wrapped result reads as the exact one modulo 2^w. -/
theorem FitsTo.int_modEq {t : Ty} {z : Int} {v : W64} (h : FitsTo t false z v) : t.int v ≡ z [ZMOD (2 ^ t.bitsW : Nat)] := by
  have hv : (v.toNat : Int) ≡ z [ZMOD (2 ^ t.bitsW : Nat)] := by
    have heq : (v.toNat : Int) = z % (2 ^ t.bitsW : Nat) := h.2
    rw [heq]
    exact Int.mod_modEq _ _
  exact (Ty.Fits.int_modEq h.1).trans hv

/-- A value of TY's width is the wrapped result of its own integer. -/
theorem Ty.Fits.fitsTo_int {t : Ty} {v : W64} (h : t.Fits v) : FitsTo t false (t.int v) v := by
  refine ⟨h, ?_⟩
  have hlt : (v.toNat : Int) < (2 ^ t.bitsW : Nat) := by exact_mod_cast h
  exact (Int.emod_eq_of_lt (Int.natCast_nonneg _) hlt).symm.trans h.int_modEq.symm

/-- Two wrapped sums combine to that of both. -/
theorem scanComb_sum (h : f.ty.isInt = true) (hc : f.cmb = .add) (hs : f.sat = false) {a b : Int} {u v : W64}
    (hu : FitsTo f.ty false a u) (hv : FitsTo f.ty false b v) : FitsTo f.ty false (a + b) (scanComb f u v).1 := by
  rw [scanComb_add h hc, ivAdd, hs]
  exact (f.ty.fit_fits false _).of_modEq (hu.int_modEq.add hv.int_modEq)

/-- The sum of the last `d` of the integers up to the one at `i`, of all of them where there are fewer. -/
def windowSum (zs : List Int) (d i : Nat) : Int := (zs.take (i + 1)).sum - (zs.take (i + 1 - d)).sum

/-- A window that reaches the first integer is the sum of all up to `i`. -/
theorem windowSum_all (zs : List Int) {d i : Nat} (h : i < d) : windowSum zs d i = (zs.take (i + 1)).sum := by
  rw [windowSum, Nat.sub_eq_zero_of_le h, List.take_zero, List.sum_nil, Int.sub_zero]

theorem windowSum_one {zs : List Int} {i : Nat} (h : i < zs.length) : windowSum zs 1 i = zs[i] := by
  rw [windowSum, List.sum_take_succ zs i h, Nat.add_sub_cancel]
  omega

/-- Two windows side by side are one of twice the length. -/
theorem windowSum_double (zs : List Int) {d i : Nat} (h : d ≤ i) :
    windowSum zs (2 * d) i = windowSum zs d (i - d) + windowSum zs d i := by
  have hlow : i - d + 1 = i + 1 - d := by omega
  have htwo : i + 1 - d - d = i + 1 - 2 * d := by omega
  rw [windowSum, windowSum, windowSum, hlow, htwo]
  omega

/-- Every lane of the tree holds the wrapped sum of the `d` operands that end at its own. -/
def SumsWindows (f : ScanF) (zs : List Int) (d : Nat) (y : List (Option W64)) : Prop :=
  ∀ i < y.length, ∃ v, y.getD i none = some v ∧ FitsTo f.ty false (windowSum zs d i) v

/-- Before the first step every lane holds its own operand. -/
theorem sumsWindows_start {xs : List W64} (hx : ∀ x ∈ xs, f.ty.Fits x) : SumsWindows f (xs.map f.ty.int) 1 (xs.map some) := by
  intro i hi
  rw [List.length_map] at hi
  have hz : windowSum (xs.map f.ty.int) 1 i = f.ty.int xs[i] := by
    rw [windowSum_one (by rwa [List.length_map]), List.getElem_map]
  refine ⟨xs[i], by simp [hi], ?_⟩
  rw [hz]
  exact (hx _ (List.getElem_mem hi)).fitsTo_int

/-- A step of distance `d` doubles the windows. -/
theorem SumsWindows.step (h : f.ty.isInt = true) (hc : f.cmb = .add) (hs : f.sat = false) {zs : List Int} {d : Nat}
    {y : List (Option W64)} (hy : SumsWindows f zs d y) : SumsWindows f zs (2 * d) (scanStep f d y).1 := by
  intro i hi
  rw [scanStep_length] at hi
  obtain ⟨v, hv, hfit⟩ := hy i hi
  rw [scanStep_getD d hi]
  by_cases hd : i < d
  · rw [if_pos hd, windowSum_all zs (show i < 2 * d by omega)]
    rw [windowSum_all zs hd] at hfit
    exact ⟨v, hv, hfit⟩
  · obtain ⟨u, hu, hlow⟩ := hy (i - d) (by omega)
    rw [if_neg hd, hu, hv, scanJoin_some, windowSum_double zs (Nat.le_of_not_lt hd)]
    exact ⟨_, rfl, scanComb_sum h hc hs hlow hfit⟩

/-- The tree is its five steps. -/
theorem scanTree_steps (f : ScanF) (y : List (Option W64)) :
    (scanTree f y).1 = (scanStep f 16 (scanStep f 8 (scanStep f 4 (scanStep f 2 (scanStep f 1 y).1).1).1).1).1 := rfl

/-- After the five steps the windows have 32 lanes. -/
theorem sumsWindows_scanTree (h : f.ty.isInt = true) (hc : f.cmb = .add) (hs : f.sat = false) {xs : List W64}
    (hx : ∀ x ∈ xs, f.ty.Fits x) : SumsWindows f (xs.map f.ty.int) 32 (scanTree f (xs.map some)).1 := by
  rw [scanTree_steps]
  exact (((((sumsWindows_start hx).step h hc hs).step h hc hs).step h hc hs).step h hc hs).step h hc hs

@[simp] theorem scanTree_length (y : List (Option W64)) : (scanTree f y).1.length = y.length := by simp [scanTree_steps]

/-- An integer sum over all the lanes is the sum of the lanes up to each. -/
theorem scanTree_sum (h : f.ty.isInt = true) (hc : f.cmb = .add) (hs : f.sat = false) {xs : List W64} (hlen : xs.length = 32)
    (hx : ∀ x ∈ xs, f.ty.Fits x) {i : Nat} (hi : i < 32) :
    ∃ v, (scanTree f (xs.map some)).1.getD i none = some v ∧ FitsTo f.ty false (((xs.take (i + 1)).map f.ty.int).sum) v := by
  have hy := sumsWindows_scanTree h hc hs hx i (by rwa [scanTree_length, List.length_map, hlen])
  rwa [windowSum_all _ hi, ← List.map_take] at hy

end Sys2Proof

namespace Sys2Proof.Machine

/-! ### SCAN and WRED (R224) -/

variable {s : State} {x : Issue}

/-- What SCAN and WRED deliver of a result of the tree: its value in canonical form, the identity where no operand has come (R224). -/
def scanValue (f : ScanF) (o : Option W64) : W64 := (o.map fun v => scanCanon f v).getD (scanIdentity f)

@[simp] theorem scanValue_none (f : ScanF) : scanValue f none = scanIdentity f := rfl

/-- Either a value has come, or the identity stands for it. -/
theorem scanValue_cases (f : ScanF) (o : Option W64) : scanValue f o = match o with
    | some v => scanCanon f v
    | none => scanIdentity f := by cases o <;> rfl

/-- The result of the tree that a lane of SCAN delivers: its own, or under EX the one before it (R224). -/
def scanSrc (ex : Bool) (y : List (Option W64)) (l : Nat) : Option W64 :=
  if ex then (if l == 0 then none else y.getD (l - 1) none) else y.getD l none

/-- SCAN delivers to each lane its result of the tree, with the tree's flags (R224, R225). -/
theorem scan_delivers {ex : Bool} {f : ScanF} (h : Fires s (.scan ex f) x) :
    Delivers s (.scan ex f) x [f.t0, f.t1] (Token.lanes f.ty.wide (okLanes (.scan ex f) x.o) fun l =>
      scanValue f (scanSrc ex (scanOf (.scan ex f) f x.o).1 l)) (scanOf (.scan ex f) f x.o).2 := by
  convert pure_delivers (exec_scan s ex f) h using 3 with l
  exact scanValue_cases f _

/-- WRED delivers lane 31's result, made uniform (R224). -/
theorem wred_delivers {f : ScanF} (h : Fires s (.wred f) x) :
    Delivers s (.wred f) x [f.t0, f.t1] (Token.uniform f.ty.wide true (scanValue f ((scanOf (.wred f) f x.o).1.getD 31 none)))
      (scanOf (.wred f) f x.o).2 := by
  convert pure_delivers (exec_wred s f) h using 2
  generalize (scanOf (.wred f) f x.o).1.getD 31 none = o
  exact scanValue_cases f o

/-- Settles O20: the tokens of SCAN and WRED, the five steps, a lane's step by which of its two sides are empty, the integer
combinations, and their sum by windows that double at each step. -/
theorem scansComplete : Obligations.ScansComplete := by
  unfold Obligations.ScansComplete
  refine ⟨fun s f x => ⟨fun h => scan_delivers h, fun h => ?_, fun h => wred_delivers h⟩, scanTree_steps,
    fun f d y => ⟨scanStep_length d y, fun i hi => ?_⟩, fun f u v h => ?_,
    fun f xs h hc hs hlen hx i hi => scanTree_sum h hc hs hlen hx hi⟩
  · convert scan_delivers h using 3 with l
    simp only [scanSrc, if_true, beq_iff_eq, apply_ite (scanValue f), scanValue_none]
    rfl
  · intro r
    have hr : r = _ := scanStep_getD (f := f) d hi
    refine ⟨fun hd => by rw [hr, if_pos hd], fun hd => ?_⟩
    rw [hr, if_neg (Nat.not_lt.mpr hd)]
    exact ⟨fun hu => by rw [hu, scanJoin_none_left], fun hv => by rw [hv, scanJoin_none_right],
      fun u v hu hv => by rw [hu, hv, scanJoin_some]⟩
  · refine ⟨fun hc => ?_, fun hc => ?_, fun hc => ?_, fun hc => ?_, fun hc => scanComb_int_flags h hc u v⟩
    · rw [scanComb_add h hc]
      exact f.ty.fit_fits f.sat _
    · rw [scanComb_mul h hc]
      exact f.ty.fit_fits f.sat _
    · rw [scanComb_min h hc]
      exact (ivMin_value ..).1
    · rw [scanComb_max h hc]
      exact (ivMax_value ..).1

end Sys2Proof.Machine
end

section
/-! SUPPORT. FSEND, FRECV and FPEEK of a team with a neighbour (R226 to R230). -/
namespace Sys2Proof.Machine

variable {s : State} {x : Issue} {pv : Bool} {pr : Pr} {d : TeamId}

/-- A team with a neighbour in the direction does not fault (R226). -/
theorem neighbourOp_some (h : s.neighbour x.w.team pv = some d) (k : State) : s.neighbourOp x pv k = k := by
  simp only [State.neighbourOp, h]

/-- FSEND with a place in its destination's queue leaves its entry for the commit (R228). -/
theorem fsend_leaves {rel : Bool} (h : Fires s (.fsend pv pr rel) x) (hn : s.neighbour x.w.team pv = some d)
    (hok : okLanes (.fsend pv pr rel) x.o ≠ 0) (hp : s.placeFree x.w.team pv = true) :
    Leaves s (.fsend pv pr rel) x (.send pv
      (allLanes.map fun l => if (okLanes (.fsend pv pr rel) x.o).getLsbD l then x.o.left.val32 l else 0)
      (okLanes (.fsend pv pr rel) x.o) rel) := by
  refine leaves_of (exec_fsend s pv pr rel) h ?_
  simp only [neighbourOp_some hn, beq_eq_false_iff_ne.mpr hok, hp, Bool.false_eq_true, if_false, if_true]

/-- The entry of a queue reserved for the FRECV that issues (R229). -/
def State.reserve (s : State) (x : Issue) (pv : Bool) (e : NEntry) : State :=
  s.setCore x.warp.core fun c => c.setQueue pv fun q =>
    q.map fun y => if y.id == e.id then { y with by' := some (x.w, x.k) } else y

/-- FRECV, no earlier one of the team waiting for the queue, reserves the oldest unreserved entry and delivers it (R229). -/
theorem frecv_reserves {acq : Bool} {a b : Tgt} {e : NEntry} (h : Fires s (.frecv pv pr acq a b) x)
    (hn : s.neighbour x.w.team pv = some d) (hok : okLanes (.frecv pv pr acq a b) x.o ≠ 0) (hfirst : s.earlierRecv x pv = false)
    (he : openEntry ((s.core x.warp.core).queue pv) = some e) :
    exec (.frecv pv pr acq a b) s = .next ((s.reserve x pv e).setRun x.w fun r =>
      ({ r.finish x.k with effs := r.effs ++ [(x.k, Eff.recv pv e.id)] } : Run).putAll [a, b]
        (Token.lanes false (okLanes (.frecv pv pr acq a b) x.o &&& e.mask) fun l => (e.words.getD l 0).setWidth 64)) := by
  rw [exec_frecv, execFrecv, firing_eq h]
  simp only [neighbourOp_some hn, beq_eq_false_iff_ne.mpr hok, hfirst, he, Bool.false_eq_true, if_false]
  exact congrArg Host.Outcome.next ((s.reserve x pv e).setRun_setRun x.w _ _)

/-- FPEEK delivers the number of unreserved entries (R230). -/
theorem fpeek_delivers {a b : Tgt} (h : Fires s (.fpeek pv pr a b) x) (hn : s.neighbour x.w.team pv = some d)
    (hu : uniOk (.fpeek pv pr a b) x.o = true) :
    Delivers s (.fpeek pv pr a b) x [a, b] (Token.uniform false true
      ((BitVec.ofNat 32 (((s.core x.warp.core).queue pv).filter fun e => e.by'.isNone).length).setWidth 64)) 0 := by
  rw [Delivers, exec_fpeek, execFpeek, firing_eq h]
  simp only [neighbourOp_some hn, hu, Bool.not_true, Bool.false_eq_true, if_false]
  rfl

/-- Settles O29: each of the three, its team having a neighbour in the direction, passes its tests. -/
theorem neighboursComplete : Obligations.NeighboursComplete := by
  unfold Obligations.NeighboursComplete
  exact fun s x pv pr d hn => ⟨fun rel h hok hp => fsend_leaves h hn hok hp,
    fun acq a b e h hok hfirst he => frecv_reserves h hn hok hfirst he, fun a b h hu => fpeek_delivers h hn hu⟩

end Sys2Proof.Machine
end

section
/-! SUPPORT. The barrier instructions that meet no cause of R239, and the arrivals of a phase (R233 to R237). -/
namespace Sys2Proof.Machine

variable {s : State} {x : Issue} {t : Team}

/-! ### Instructions -/

/-- A barrier instruction whose uniform result is valid and which meets no cause goes on (R234, R239). -/
theorem barrierOp_next {i : Instr} {bar : Nat} {n : Option Nat} (h : Fires s i x) (hu : uniOk i x.o = true)
    (ht : s.team? x.w.team = some t) (hc : t.barCause bar n = none) (k : Issue → Team → State) :
    s.barrierOp i bar n k = .next (k x t) := by
  rw [State.barrierOp, firing_eq h]
  simp only [hu, ht, hc, Bool.not_true, Bool.false_eq_true, if_false]

/-- BARARV with no arrival of its warp pending leaves its arrival for the commit (R235). -/
theorem bararv_leaves {pr : Pr} {b n : BitVec 5} (h : Fires s (.bararv pr b n) x) (hu : uniOk (.bararv pr b n) x.o = true)
    (ht : s.team? x.w.team = some t) (hc : t.barCause b.toNat (some (n.toNat + 1)) = none)
    (hp : t.pendingAt b.toNat x.w.warp = false) : Leaves s (.bararv pr b n) x (.arrive b.toNat (n.toNat + 1)) := by
  rw [Leaves, exec_bararv, execBararv, barrierOp_next h hu ht hc, hp]
  rfl

/-- BARWT with no arrival of its warp pending finishes (R237). -/
theorem barwt_finishes {pr : Pr} {b : BitVec 5} (h : Fires s (.barwt pr b) x) (hu : uniOk (.barwt pr b) x.o = true)
    (ht : s.team? x.w.team = some t) (hc : t.barCause b.toNat none = none) (hp : t.pendingAt b.toNat x.w.warp = false) :
    exec (.barwt pr b) s = .next (s.setRun x.w fun r => r.finish x.k) := by
  rw [exec_barwt, execBarwt, barrierOp_next h hu ht hc, hp]
  rfl

/-- BARSYN begins its wait, and the tests of R176 and R239 follow (R236, log 47). -/
theorem barsyn_waits {pr : Pr} {b n : BitVec 5} (h : Fires s (.barsyn pr b n) x) (hu : uniOk (.barsyn pr b n) x.o = true)
    (ht : s.team? x.w.team = some t) (hc : t.barCause b.toNat (some (n.toNat + 1)) = none) :
    exec (.barsyn pr b n) s = .next (s.waitTested x (.barsyn b.toNat)) := by
  rw [exec_barsyn, execBarsyn, barrierOp_next h hu ht hc]

/-! ### Arrivals (R233) -/

variable {b : Bar} {w n : Nat}

/-- The arrival that reaches the phase count completes the phase. -/
theorem Bar.arrive_last (h : b.arrived + 1 = b.count.getD n) : b.arrive w n = b.complete := by
  simp only [Bar.arrive, Option.getD_some, beq_iff_eq, if_pos h, Bar.complete]

/-- An earlier arrival is counted, and pending. -/
theorem Bar.arrive_earlier (h : b.arrived + 1 ≠ b.count.getD n) : b.arrive w n =
    { b with count := some (b.count.getD n), arrived := b.arrived + 1, pending := b.pending ||| ((1 : Lanes) <<< w) } := by
  simp only [Bar.arrive, Option.getD_some, beq_iff_eq, if_neg h]

/-- A mask with one more lane. -/
theorem getLsbD_or_lane (m : Lanes) (w : Nat) {v : Nat} (hv : v < 32) :
    (m ||| ((1 : Lanes) <<< w)).getLsbD v = (m.getLsbD v || decide (v = w)) := by
  have hone : ((1 : Lanes) <<< w).getLsbD v = (decide (w < 32) && decide (w = v)) := BitVec.getLsbD_twoPow w v
  rw [BitVec.getLsbD_or, hone]
  by_cases h : v = w
  · subst h
    simp [hv]
  · simp [h, Ne.symm h]

/-- Settles O31: the three instructions past the causes of R239, and an arrival by whether it reaches the count. -/
theorem barriersComplete : Obligations.BarriersComplete := by
  unfold Obligations.BarriersComplete
  refine ⟨fun s x pr b n t ht => ⟨fun h hu hc hp => bararv_leaves h hu ht hc hp, fun h hu hc hp => barwt_finishes h hu ht hc hp,
    fun h hu hc => barsyn_waits h hu ht hc⟩, fun b w n _ => ⟨fun h => Bar.arrive_last h, fun h => ?_⟩⟩
  rw [Bar.arrive_earlier h]
  exact ⟨rfl, rfl, rfl, fun v hv => getLsbD_or_lane b.pending w hv⟩

end Sys2Proof.Machine
end

section
/-! SUPPORT. Laws of memory's contents (R246; the canonical form of log 2). -/
namespace Sys2Proof.Machine

/-- Settles O59: the laws of a write at one place, of a run of bytes, and that contents are the values read from them. -/
theorem memoryLaws : Obligations.MemoryLaws := by
  unfold Obligations.MemoryLaws
  exact fun m h => ⟨fun a v => ⟨Mem.wf_cset h a v, cget_cset_same a v h, fun b hb => cget_cset_ne v h hb⟩,
    fun a bs => ⟨Mem.wf_wrBytes h a bs, rdBytes_wrBytes h a bs, fun b hb => cget_wrBytes_other h bs hb⟩,
    fun m' h' he => cget_ext h h' he⟩

end Sys2Proof.Machine
end

section
/-! SUPPORT. What each function of the state leaves of memory: most write none, and each writer keeps the canonical form of log 2. -/
namespace Sys2Proof.Machine

/-- A state taken from a pair has the pair's memory. -/
theorem mem_of_fst {α : Type} {p : State × α} {t : State} {x : α} {m : Mem} (hp : p.1.mem = m) (he : p = (t, x)) : t.mem = m := by
  rw [← hp, he]

theorem wf_of_fst {α : Type} {p : State × α} {t : State} {x : α} (hp : p.1.mem.wf = true) (he : p = (t, x)) : t.mem.wf = true := by
  subst he
  exact hp

/-- Memory is in canonical form after either of two states that have it so. -/
@[simp] theorem ite_mem_wf {c : Prop} [Decidable c] {s t : State} (hs : s.mem.wf = true) (ht : t.mem.wf = true) :
    (if c then s else t).mem.wf = true := by
  split
  · exact hs
  · exact ht

@[simp] theorem ite_fst_mem_wf {α : Type} {c : Prop} [Decidable c] {p q : State × α} (hp : p.1.mem.wf = true) (hq : q.1.mem.wf = true) :
    (if c then p else q).1.mem.wf = true := by
  split
  · exact hp
  · exact hq

/-- A fold of updates that leave memory as it is leaves it so. -/
@[simp] theorem foldl_mem {α : Type} {f : State → α → State} (h : ∀ s a, (f s a).mem = s.mem) (l : List α) (s : State) :
    (l.foldl f s).mem = s.mem :=
  foldl_keeps (fun t : State => t.mem = s.mem) f (fun _ a hb => (h _ a).trans hb) l s rfl

@[simp] theorem foldl_fst_mem {α β : Type} {f : State × β → α → State × β} (h : ∀ p a, (f p a).1.mem = p.1.mem) (l : List α)
    (p : State × β) :
    (l.foldl f p).1.mem = p.1.mem :=
  foldl_keeps (fun q : State × β => q.1.mem = p.1.mem) f (fun _ a hb => (h _ a).trans hb) l p rfl

theorem foldl_mem_wf {α : Type} {f : State → α → State} {s : State} (h : s.mem.wf = true)
    (hf : ∀ t a, t.mem.wf = true → (f t a).mem.wf = true) (l : List α) : (l.foldl f s).mem.wf = true :=
  foldl_keeps (fun t : State => t.mem.wf = true) f (fun t a ht => hf t a ht) l s h

theorem foldl_fst_mem_wf {α β : Type} {f : State × β → α → State × β} {p : State × β} (h : p.1.mem.wf = true)
    (hf : ∀ q a, q.1.mem.wf = true → (f q a).1.mem.wf = true) (l : List α) : (l.foldl f p).1.mem.wf = true :=
  foldl_keeps (fun q : State × β => q.1.mem.wf = true) f (fun q a hq => hf q a hq) l p h

variable {s : State}

/-! ### Errors -/

@[simp] theorem State.bump_mem (s : State) (off bits : Nat) : (s.bump off bits).mem = s.mem := rfl

@[simp] theorem State.correct_mem (s : State) (gs : List Granule) : (s.correct gs).mem = s.mem :=
  State.same_of_bare (s.correct_bare gs) State.mem fun _ => rfl

@[simp] theorem State.findRegion_mem (s : State) (g : Granule) : (s.findRegion g).mem = s.mem := by
  simp [State.findRegion, apply_ite State.mem]

@[simp] theorem State.clearErrs_mem (s : State) (gs : List Granule) : (s.clearErrs gs).mem = s.mem := by
  simp [State.clearErrs, apply_ite State.mem]

@[simp] theorem State.fix_mem (s : State) (p : Place) (pa n : Nat) : (s.fix p pa n).mem = s.mem :=
  State.same_of_bare (s.fix_bare p pa n) State.mem fun _ => rfl

@[simp] theorem State.mark_mem (s : State) (p : Place) (pa code : Nat) : (s.mark p pa code).mem = s.mem := by
  simp [State.mark, apply_ite State.mem]

@[simp] theorem State.markHbm_mem (s : State) (pa : Nat) : (s.markHbm pa).mem = s.mem := by simp [State.markHbm, apply_ite State.mem]

@[simp] theorem State.carry_mem (s : State) (src dst : Place) (ln : Nat) (m : LineMask) : (s.carry src dst ln m).mem = s.mem :=
  State.same_of_bare (s.carry_bare src dst ln m) State.mem fun _ => rfl

/-! ### Cache -/

@[simp] theorem State.dropLags_mem_wf (h : s.mem.wf = true) (pa n : Nat) : (s.dropLags pa n).mem.wf = true := (s.dropLags_step pa n).2 h

@[simp] theorem State.recallL1s_mem (s : State) (die ln : Nat) (drop : Bool) : (s.recallL1s die ln drop).mem = s.mem := by
  unfold State.recallL1s
  split
  · exact foldl_mem (fun t a => by simp) _ _
  · exact foldl_mem (fun t a => by simp) _ _

@[simp] theorem State.push_mem_wf (h : s.mem.wf = true) (die ln : Nat) : (s.push die ln).mem.wf = true := (s.push_step die ln).2 h

@[simp] theorem State.evictLine_mem_wf (h : s.mem.wf = true) (die ln : Nat) : (s.evictLine die ln).mem.wf = true :=
  (s.evictLine_step die ln).2 h

@[simp] theorem State.merEvict_mem_wf (h : s.mem.wf = true) (ln : Nat) : (s.merEvict ln).mem.wf = true := (s.merEvict_step ln).2 h

@[simp] theorem State.homeUse_mem_wf (h : s.mem.wf = true) (part : Option Nat) (ln : Nat) (first : Bool) :
    (s.homeUse part ln first).mem.wf = true :=
  (s.homeUse_step part ln first).2 h

@[simp] theorem State.spareL1_mem (s : State) (core : Nat) (ls : List L1Line) : (s.spareL1 core ls).mem = s.mem := by
  unfold State.spareL1
  split
  · simp
  · rfl

@[simp] theorem State.trimL1_mem (s : State) (core : Nat) : (s.trimL1 core).mem = s.mem := by
  unfold State.trimL1
  exact foldl_mem (fun t a => by simp) _ _

@[simp] theorem State.grant_mem_wf (h : s.mem.wf = true) (die ln : Nat) (w : Want) : (s.grant die ln w).mem.wf = true :=
  (s.grant_step die ln w).2 h

@[simp] theorem State.loadLine_mem_wf (h : s.mem.wf = true) (who : WarpId) (core ln : Nat) (sc : Scope) (hint : BitVec 2) :
    (s.loadLine who core ln sc hint).1.mem.wf = true :=
  (s.loadLine_step who core ln sc hint).2 h

@[simp] theorem State.atHome_mem_wf (h : s.mem.wf = true) (part : Option Nat) (pa n : Nat) : (s.atHome part pa n).mem.wf = true :=
  (s.atHome_step part pa n).2 h

@[simp] theorem State.setHome_mem_wf (h : s.mem.wf = true) (pa : Nat) (bs : List W8) : (s.setHome pa bs).mem.wf = true :=
  (s.setHome_step pa bs).2 h

@[simp] theorem State.coreRead_mem_wf (h : s.mem.wf = true) (who : WarpId) (core : Nat) (nc : Bool) (sc : Scope) (hint : BitVec 2)
    (pa n : Nat) : (s.coreRead who core nc sc hint pa n).1.mem.wf = true :=
  (s.coreRead_step who core nc sc hint pa n).2 h

@[simp] theorem State.coreStore_mem_wf (h : s.mem.wf = true) (who : WarpId) (core : Nat) (nc : Bool) (sc : Scope) (hint : BitVec 2)
    (pa : Nat) (bs : List W8) : (s.coreStore who core nc sc hint pa bs).mem.wf = true :=
  (s.coreStore_step who core nc sc hint pa bs).2 h

@[simp] theorem State.homeStore_mem_wf (h : s.mem.wf = true) (part : Option Nat) (pa : Nat) (bs : List W8) :
    (s.homeStore part pa bs).mem.wf = true :=
  (s.homeStore_step part pa bs).2 h

@[simp] theorem State.sysWrite_mem_wf (h : s.mem.wf = true) (pa : Nat) (bs : List W8) : (s.sysWrite pa bs).mem.wf = true :=
  (s.sysWrite_step pa bs).2 h

@[simp] theorem State.sysFix_mem (s : State) (pa n : Nat) : (s.sysFix pa n).mem = s.mem := by
  unfold State.sysFix
  split
  · rfl
  · refine foldl_mem (fun t a => ?_) _ _
    split <;> simp

@[simp] theorem State.engineRead_mem_wf (h : s.mem.wf = true) (u : Master) (pa k : Nat) : (s.engineRead u pa k).1.mem.wf = true :=
  (State.engineRead_step u k s pa).2 h

@[simp] theorem State.allocRead_mem_wf (h : s.mem.wf = true) (u : Master) (part : Option Nat) (pol : Nat) (nc : Bool) (pa : Nat) :
    (s.allocRead u part pol nc pa).mem.wf = true :=
  (s.allocRead_step u part pol nc pa).2 h

@[simp] theorem State.flushL1_mem_wf (h : s.mem.wf = true) (core : Nat) : (s.flushL1 core).mem.wf = true := (s.flushL1_step core).2 h

@[simp] theorem State.flushL2_mem_wf (h : s.mem.wf = true) (die : Nat) : (s.flushL2 die).mem.wf = true := (s.flushL2_step die).2 h

@[simp] theorem State.pushDies_mem_wf (h : s.mem.wf = true) (ds : List Nat) : (s.pushDies ds).mem.wf = true := by
  unfold State.pushDies
  refine foldl_mem_wf ?_ (fun s a h => ?_) _
  · exact foldl_mem_wf h (fun t a ht => by simp [ht]) _
  · simp [h]

@[simp] theorem State.release_mem_wf (h : s.mem.wf = true) (core : Nat) (sc : Scope) : (s.release core sc).mem.wf = true :=
  (s.release_step core sc).2 h

@[simp] theorem State.homeOwned_mem_wf (h : s.mem.wf = true) : s.homeOwned.mem.wf = true := s.homeOwned_step.2 h

@[simp] theorem State.atomicAt_mem_wf (h : s.mem.wf = true) (core : Nat) (nc : Bool) (sc : Scope) (pa n : Nat)
    (f : List W8 → Option (List W8)) : (s.atomicAt core nc sc pa n f).1.mem.wf = true :=
  (s.atomicAt_step core nc sc pa n f).2 h

/-! ### Translate -/

@[simp] theorem State.walkFix_mem (s : State) (ctx va : Nat) : (s.walkFix ctx va).mem = s.mem := by
  unfold State.walkFix
  split
  · rfl
  · split
    · exact foldl_mem (fun t a => by simp) _ _
    · rfl

@[simp] theorem State.tlbOut_mem (s : State) (es : List TlbEnt) : (s.tlbOut es).mem = s.mem := by simp [State.tlbOut, apply_ite State.mem]

@[simp] theorem State.translate_mem (s : State) (core : Option Nat) (ctx : Nat) (va : W64) : (s.translate core ctx va).1.mem = s.mem := by
  unfold State.translate
  dsimp only
  split
  · rfl
  · split
    · rfl
    · split
      · rfl
      · split
        · cases core <;> simp
        · simp

/-! ### Ops -/

@[simp] theorem State.result_mem (s : State) (x : Issue) (ts : List Tgt) (tok : Token) (fl : Flags) : (s.result x ts tok fl).mem = s.mem :=
  rfl

@[simp] theorem State.finish_mem (s : State) (x : Issue) : (s.finish x).mem = s.mem := rfl

@[simp] theorem State.leave_mem (s : State) (x : Issue) (e : Eff) : (s.leave x e).mem = s.mem := rfl

@[simp] theorem State.wait_mem (s : State) (x : Issue) (w : Wait) : (s.wait x w).mem = s.mem := rfl

@[simp] theorem State.dropRefs_mem (s : State) (o : RefOwner) (committed : Bool) : (s.dropRefs o committed).mem = s.mem := by
  unfold State.dropRefs
  split
  · rfl
  · refine foldl_mem (fun t a => ?_) _ _
    split
    · simp [apply_ite State.mem]
    · rfl

@[simp] theorem State.cancelCopy_mem (s : State) (id : Nat) : (s.cancelCopy id).mem = s.mem := by
  unfold State.cancelCopy
  split
  · rfl
  · simp [apply_ite State.mem]

@[simp] theorem State.discardOne_mem (s : State) (w : WarpId) : (s.discardOne w).mem = s.mem := by
  unfold State.discardOne
  split
  · rfl
  · split
    · exact foldl_mem (fun t a => by simp) _ _
    · exact foldl_mem (fun t a => by simp) _ _

@[simp] theorem State.discard_mem (s : State) (w : WarpId) : (s.discard w).mem = s.mem := by
  unfold State.discard
  refine (foldl_mem (fun t a => ?_) _ _).trans ?_
  · simp
  · exact foldl_mem (fun _ _ => by rfl) _ _

@[simp] theorem State.faultOne_mem (s : State) (w : WarpId) (f : Stop) : (s.faultOne w f).mem = s.mem := by simp [State.faultOne]

@[simp] theorem State.breakGangs_mem (s : State) (w : WarpId) : (s.breakGangs w).mem = s.mem := by
  unfold State.breakGangs
  refine foldl_mem (fun t a => ?_) _ _
  exact foldl_mem (fun t a => by simp [apply_ite State.mem]) _ _

@[simp] theorem State.fault_mem (s : State) (w : WarpId) (f : Stop) : (s.fault w f).mem = s.mem := by simp [State.fault]

@[simp] theorem State.illegal_mem (s : State) (x : Issue) (id : Nat) (legend : Bool) : (s.illegal x id legend).mem = s.mem := by
  simp [State.illegal]

@[simp] theorem State.gangFault_mem (s : State) (x : Issue) : (s.gangFault x).mem = s.mem := by simp [State.gangFault]

@[simp] theorem State.protection_mem (s : State) (x : Issue) (cause : Nat) (lanes : Lanes) (va : W64) :
    (s.protection x cause lanes va).mem = s.mem := by simp [State.protection]

@[simp] theorem State.dataFault_mem (s : State) (w : WarpId) (va : W64) (code at' : Nat) (lanes : Lanes) :
    (s.dataFault w va code at' lanes).mem = s.mem := by simp [State.dataFault]

@[simp] theorem State.tell_mem (s : State) (ctx pa : Nat) : (s.tell ctx pa).mem = s.mem := rfl

@[simp] theorem State.readFor_mem (s : State) (ctx ekind einst pa n : Nat) : (s.readFor ctx ekind einst pa n).mem = s.mem := by
  unfold State.readFor
  split
  · simp [apply_ite State.mem]
  · simp

@[simp] theorem State.readCounts_mem (s : State) (ctx ekind einst : Nat) (r : Ring) : (s.readCounts ctx ekind einst r).mem = s.mem := by
  simp [State.readCounts, apply_ite State.mem]

@[simp] theorem State.ringWrite_mem_wf (h : s.mem.wf = true) (r : Ring) (head size : Nat) (rec : List W8) :
    (s.ringWrite r head size rec).mem.wf = true := by
  unfold State.ringWrite
  split <;> simp [h]

@[simp] theorem State.ringAppend_mem_wf (h : s.mem.wf = true) (ctx : Nat) (r : Ring) (size : Nat) (rec : List W8) :
    (s.ringAppend ctx r size rec).mem.wf = true := by simp [State.ringAppend, h]

@[simp] theorem State.faultRecord_mem_wf (h : s.mem.wf = true) (ctx src acc : Nat) (va : W64) (core warp : Nat) :
    (s.faultRecord ctx src acc va core warp).1.mem.wf = true := by
  unfold State.faultRecord
  split
  · exact h
  · simp [h]

@[simp] theorem State.park_mem_wf (h : s.mem.wf = true) (w : WarpId) (src acc : Nat) (lanes : Lanes) (va : W64) :
    (s.park w src acc lanes va).mem.wf = true := by simp [State.park, h]

/-! ### Access -/

@[simp] theorem State.checkLane_mem (s : State) (core ctx acc width : Nat) (hostOk : Bool) (c : Checked) (la : Nat × W64) :
    (s.checkLane core ctx acc width hostOk c la).1.mem = s.mem := by
  unfold State.checkLane
  split
  · rfl
  · rw [← s.translate_mem (some core) ctx la.2]
    dsimp only
    split
    · rfl
    · rfl
    · rfl
    · simp only [apply_ite Prod.fst, ite_self]

@[simp] theorem State.checkLanes_mem (s : State) (core ctx acc width : Nat) (hostOk : Bool) (ls : List (Nat × W64)) :
    (s.checkLanes core ctx acc width hostOk ls).1.mem = s.mem := by
  refine foldl_fst_mem (fun p la => ?_) ls _
  exact p.1.checkLane_mem core ctx acc width hostOk p.2 la

theorem State.afterCheck_mem_wf (h : s.mem.wf = true) (x : Issue) (uni : Bool) (acc : Nat) (c : Checked) {k : List LaneAcc → State}
    (hk : ∀ as, (k as).mem.wf = true) : (s.afterCheck x uni acc c k).mem.wf = true := by
  unfold State.afterCheck
  split
  · simp [h]
  · simp [h]
  · simp [h]
  · exact hk _

theorem State.access_mem_wf (h : s.mem.wf = true) (x : Issue) (i : Instr) (acc width : Nat) (hostOk : Bool) (ls : List (Nat × W64))
    {k : State → List LaneAcc → State} (hk : ∀ t as, t.mem.wf = true → (k t as).mem.wf = true) :
    (s.access x i acc width hostOk ls k).mem.wf = true := by
  have hc : (s.checkLanes x.warp.core x.w.team.launch.ctx acc width hostOk ls).1.mem.wf = true := by simpa using h
  exact State.afterCheck_mem_wf hc _ _ _ _ fun as => hk _ as hc

theorem State.spadAccess_mem_wf (h : s.mem.wf = true) (x : Issue) (uni write : Bool) (width : Nat) (ls : List (Nat × W64))
    {k : State → State} (hk : ∀ t, t.mem.wf = true → (k t).mem.wf = true) : (s.spadAccess x uni write width ls k).mem.wf = true := by
  unfold State.spadAccess
  split
  · simp [h]
  · dsimp only
    split
    · simp [h]
    · refine ite_mem_wf (hk _ ?_) (by simp [h])
      rwa [foldl_mem fun t tid => t.takeRef_mem ..]

@[simp] theorem State.spadWrite_mem (s : State) (t : TeamId) (off : Nat) (bs : List W8) : (s.spadWrite t off bs).mem = s.mem := by
  unfold State.spadWrite
  simp

/-! ### Atomic -/

@[simp] theorem State.prefetchLine_mem_wf (h : s.mem.wf = true) (who : WarpId) (core : Nat) (lvl : PrefLvl) (sc : Scope) (va : W64) :
    (s.prefetchLine who core lvl sc va).mem.wf = true := by
  have ht := s.translate_mem (some core) who.team.launch.ctx va
  unfold State.prefetchLine
  split <;> rename_i he <;> replace ht := mem_of_fst ht he
  · split
    · rwa [ht]
    · cases lvl <;> simp [ht, h]
  · rwa [ht]

@[simp] theorem State.cacheCtl_mem_wf (h : s.mem.wf = true) (core ctx : Nat) (op : CctlOp) (va : W64) :
    (s.cacheCtl core ctx op va).mem.wf = true := by
  have ht := s.translate_mem (some core) ctx va
  unfold State.cacheCtl
  split <;> rename_i he <;> replace ht := mem_of_fst ht he
  · split
    · rwa [ht]
    · cases op <;> simp [ht, h]
  · rwa [ht]

@[simp] theorem State.atomLane_mem_wf (h : s.mem.wf = true) (who : WarpId) (core reply : Nat) (f : AtomF) (a : LaneAtom) :
    (s.atomLane who core reply f a).1.mem.wf = true := by
  unfold State.atomLane
  simp [apply_ite State.mem, h]

/-! ### Block -/

@[simp] theorem State.fetchWord_mem (s : State) (core ctx : Nat) (va : W64) : (s.fetchWord core ctx va).1.mem = s.mem := by
  have ht := s.translate_mem (some core) ctx va
  unfold State.fetchWord
  split <;> rename_i he <;> replace ht := mem_of_fst ht he
  · exact ht
  · exact ht
  · exact ht
  · split
    · exact ht
    · split
      · exact ht
      · exact (State.sysFix_mem _ _ _).trans ht

@[simp] theorem State.fetchWords_mem (s : State) (core ctx : Nat) (va : W64) (n : Nat) : (s.fetchWords core ctx va n).1.mem = s.mem := by
  induction n generalizing s va with
  | zero => rfl
  | succ n ih =>
    have hw := s.fetchWord_mem core ctx va
    unfold State.fetchWords
    split <;> rename_i he <;> replace hw := mem_of_fst hw he
    · exact hw
    · rename_i t _
      have hr := ih t (va + 8)
      split <;> rename_i he' <;> exact (mem_of_fst hr he').trans hw

/-- A block fetched from memory, through its header. -/
@[simp] theorem State.fetchBlock_mem (s : State) (core ctx : Nat) (va : W64) : (s.fetchBlock core ctx va).1.mem = s.mem := by
  have hw := s.fetchWord_mem core ctx va
  unfold State.fetchBlock
  dsimp only
  split
  · split <;> simp
  · split
    · rfl
    · generalize s.fetchWord core ctx va = p at hw
      obtain ⟨t, _ | w⟩ := p
      · exact hw
      · have hw' : t.mem = s.mem := hw
        dsimp only
        generalize (if ((Hdr.of w).ver == 1 || (Hdr.of w).ver == 8) && (Hdr.of w).countsOk then (Hdr.of w).total else 1) = n
        have hr := (t.fetchWords_mem core ctx (va + 8) (n - 1)).trans hw
        generalize t.fetchWords core ctx (va + 8) (n - 1) = q at hr
        obtain ⟨u, _ | l⟩ := q
        · simpa [apply_ite State.mem, apply_ite Prod.fst, hw'] using fun _ => hr
        · simpa [apply_ite State.mem, apply_ite Prod.fst, hw'] using fun _ => hr

/-! ### Waits -/

@[simp] theorem State.barrierFault_mem (s : State) (t : Team) (live : List Warp) (actor bar cause : Nat) :
    (s.barrierFault t live actor bar cause).mem = s.mem := by
  unfold State.barrierFault
  split <;> simp

@[simp] theorem State.testTeam_mem (s : State) (id : TeamId) (actor : Nat) : (s.testTeam id actor).mem = s.mem := by
  simp only [State.testTeam]
  repeat' split
  all_goals simp

@[simp] theorem State.tested_mem (s : State) (w : WarpId) : (s.tested w).mem = s.mem := by
  unfold State.tested
  split
  · rfl
  · simp [apply_ite State.mem]

/-! ### Barrier -/

@[simp] theorem State.waitTested_mem (s : State) (x : Issue) (w : Wait) : (s.waitTested x w).mem = s.mem := by simp [State.waitTested]

/-! ### Engine -/

theorem State.readReply_mem_wf (h : s.mem.wf = true) (x : Issue) (i : Instr) (spad : Bool) {k : State → W64 → State}
    (hk : ∀ t w, t.mem.wf = true → (k t w).mem.wf = true) : (s.readReply x i spad k).mem.wf = true := by
  have read : ∀ t : State, t.mem.wf = true → ∀ gs w, (match (t.correct gs).badOf gs with
      | .spad _ o :: _ => (t.correct gs).dataFault x.w x.run.va 2 o 0
      | _ => k (t.correct gs) w).mem.wf = true := by
    intro t ht gs w
    split
    · simp [ht]
    · exact hk _ _ (by simpa using ht)
  unfold State.readReply
  dsimp only
  split
  · split
    · exact read s h _ _
    · exact State.spadAccess_mem_wf h _ _ _ _ _ fun t ht => read t ht _ _
  · refine State.access_mem_wf h _ _ _ _ _ _ fun t as ht => ?_
    split
    · rename_i a _
      split <;> rename_i he <;> have hc := wf_of_fst (State.coreRead_mem_wf ht ..) he
      · simp [hc]
      · exact hk _ _ hc
    · exact ht

/-! ### Legend -/

@[simp] theorem State.legendWords_mem (s : State) (core ctx idx : Nat) : (s.legendWords core ctx idx).1.mem = s.mem := by
  unfold State.legendWords
  split
  · rfl
  · simp

@[simp] theorem State.dropRegion_mem (s : State) (g : Granule) : (s.dropRegion g).mem = s.mem := by
  unfold State.dropRegion
  split <;> rfl

theorem State.readLegend_mem_wf (h : s.mem.wf = true) (x : Issue) (idx : Nat) {k : State → List W64 → State}
    (hk : ∀ t ws, t.mem.wf = true → (k t ws).mem.wf = true) : (s.readLegend x idx k).mem.wf = true := by
  unfold State.readLegend
  dsimp only
  split
  · simp [h]
  · split
    · simp [h]
    · exact hk _ _ (by simpa using h)

@[simp] theorem State.commitTdset_mem_wf (h : s.mem.wf = true) (who : WarpId) (core idx : Nat) (mask : Lanes) (new : List W32) :
    (s.commitTdset who core idx mask new).mem.wf = true := by
  unfold State.commitTdset
  split
  · exact h
  · refine foldl_mem_wf ?_ (fun s a h => ?_) _
    · simp [h]
    · split
      · simp [h]
      · exact h

/-! ### Overlay -/

@[simp] theorem State.fillWrite_mem (s : State) (core ctx lo : Nat) (bs : List W8) : (s.fillWrite core ctx lo bs).mem = s.mem := by
  simp [State.fillWrite]

@[simp] theorem State.ovlEnter_mem (s : State) (core ctx : Nat) : (s.ovlEnter core ctx).mem = s.mem := by
  unfold State.ovlEnter
  split
  · simp [apply_ite State.mem]
  · rfl

/-! ### Tiles -/

@[simp] theorem State.clearTile_mem (s : State) (t : TeamId) (tid : Nat) : (s.clearTile t tid).mem = s.mem := rfl

/-! ### Units -/

@[simp] theorem State.faultAgainst_mem (s : State) (w : WarpId) (f : Stop) : (s.faultAgainst w f).mem = s.mem := by
  unfold State.faultAgainst
  split
  · simp [apply_ite State.mem]
  · rfl

@[simp] theorem State.unparkLine_mem (s : State) (of' : LineOf) (va : W64) : (s.unparkLine of' va).mem = s.mem := by
  simp [State.unparkLine, apply_ite State.mem]

@[simp] theorem State.parkLine_mem_wf (h : s.mem.wf = true) (ctx src acc : Nat) (of' : LineOf) (va : W64) (core warp : Nat) :
    (s.parkLine ctx src acc of' va core warp).mem.wf = true := by
  unfold State.parkLine
  split
  · exact h
  · simp [h]

@[simp] theorem State.lineAt_mem_wf (h : s.mem.wf = true) (ctx src acc : Nat) (o : LineOf) (va : W64) (core warp : Nat) :
    (s.lineAt ctx src acc o va core warp).1.mem.wf = true := by
  unfold State.lineAt
  dsimp only
  split
  · exact h
  · have ht := ((s.unparkLine o (va &&& ~~~127)).translate_mem none ctx va).trans (s.unparkLine_mem o _)
    split <;> rename_i he <;> replace ht := mem_of_fst ht he
    · rwa [ht]
    · rwa [ht]
    · exact State.parkLine_mem_wf (by rwa [ht]) ..
    · simp [apply_ite Prod.fst, ht, h]

/-! ### Copies -/

@[simp] theorem State.tileState_mem (s : State) (t : TeamId) (tid : Nat) (st : TileSt) : (s.tileState t tid st).mem = s.mem := rfl

@[simp] theorem State.beginCopy_mem (s : State) (c : Copy) : (s.beginCopy c).mem = s.mem := by simp [State.beginCopy, apply_ite State.mem]

@[simp] theorem State.checkCopy_mem (s : State) (x : Warp) (d : CopyDecl) (src : W32) : (s.checkCopy x d src).1.mem = s.mem := by
  simp only [State.checkCopy]
  repeat' split
  all_goals simp

@[simp] theorem State.putCopy_mem (s : State) (x : Warp) (d : CopyDecl) (src : W32) (lo : Nat) (pend : Option Nat) (run : Nat) :
    (s.putCopy x d src lo pend run).mem = s.mem := by simp [State.putCopy]

@[simp] theorem State.issueCopies_mem (s : State) (x : Warp) (ds : List CopyDecl) (pend : Option Nat) (run : Nat) :
    (s.issueCopies x ds pend run).1.mem = s.mem := by
  refine foldl_fst_mem (fun p d => ?_) ds _
  split
  · rfl
  · have hc := p.1.checkCopy_mem x d (x.k.getD d.src 0)
    dsimp only
    split <;> rename_i he <;> replace hc := mem_of_fst hc he
    · exact (State.putCopy_mem ..).trans hc
    · exact hc

@[simp] theorem State.copyLine_mem_wf (h : s.mem.wf = true) (id : Nat) (p : Nat × Nat) : (s.copyLine id p).mem.wf = true := by
  unfold State.copyLine
  split
  · exact h
  · rename_i c _
    split
    · exact h
    · have hl := State.lineAt_mem_wf h c.warp.team.launch.ctx 3 0 (.copy id) (c.va + BitVec.ofNat 64 p.1) c.core c.warp.warp
      dsimp only
      split <;> rename_i he <;> replace hl := wf_of_fst hl he
      · exact hl
      · simp [hl]
      · simp [hl]
      · split <;> rename_i he' <;> simp [wf_of_fst (State.engineRead_mem_wf hl ..) he']

@[simp] theorem State.endCopy_mem (s : State) (c : Copy) : (s.endCopy c).mem = s.mem := by
  unfold State.endCopy
  simp [apply_ite State.mem]

@[simp] theorem State.runCopy_mem_wf (h : s.mem.wf = true) (c : Copy) : (s.runCopy c).mem.wf = true := by
  have hl : ((lineParts c.va.toNat c.len).foldl (fun s p => s.copyLine c.id p) s).mem.wf = true :=
    foldl_mem_wf h (fun _ p hp => State.copyLine_mem_wf hp c.id p) _
  unfold State.runCopy
  split
  · exact h
  · dsimp only
    split
    · simp [apply_ite State.mem, hl]
    · exact hl

@[simp] theorem State.abandonCopy_mem (s : State) (id : Nat) : (s.abandonCopy id).mem = s.mem := rfl

@[simp] theorem State.reissue_mem (s : State) (x : Warp) (c : Copy) : (s.reissue x c).1.mem = s.mem := by
  have hc := s.checkCopy_mem x { dk := c.ovl, dst := c.dst, src := c.src, len := c.len, pol := c.pol } (x.k.getD c.src 0)
  unfold State.reissue
  dsimp only
  split <;> rename_i he <;> replace hc := mem_of_fst hc he <;> simp [apply_ite State.mem, hc]

/-! ### Neighbour -/

@[simp] theorem State.neighbourOp_mem_wf (h : s.mem.wf = true) (x : Issue) (pv : Bool) {k : State} (hk : k.mem.wf = true) :
    (s.neighbourOp x pv k).mem.wf = true := by
  unfold State.neighbourOp
  split
  · simpa using h
  · exact hk

/-! ### Messages -/

@[simp] theorem State.leaveMessage_mem (s : State) (w : WarpId) (core : Nat) (va : W64) (op : MsgOp) (lp : Bool)
    (packet payload : List W32) :
    (s.leaveMessage w core va op lp packet payload).mem = s.mem := by
  unfold State.leaveMessage
  dsimp only
  repeat' split
  all_goals simp

/-! ### Engines -/

@[simp] theorem State.releaseMsg_mem (s : State) (id : Nat) : (s.releaseMsg id).mem = s.mem := by
  unfold State.releaseMsg
  split
  · rfl
  · split <;> simp [apply_ite State.mem]

@[simp] theorem State.dropMsg_mem (s : State) (id : Nat) : (s.dropMsg id).mem = s.mem := by simp [State.dropMsg]

@[simp] theorem State.failMsg_mem (s : State) (id : Nat) : (s.failMsg id).mem = s.mem := by simp [State.failMsg]

@[simp] theorem State.msgFault_mem (s : State) (m : Msg) (x : LineXl) (va : W64) : (s.msgFault m x va).mem = s.mem := by
  unfold State.msgFault
  split
  · simp
  · simp
  · rfl

@[simp] theorem State.msgPoison_mem (s : State) (m : Msg) (va : W64) (code at' : Nat) : (s.msgPoison m va code at').mem = s.mem := by
  simp [State.msgPoison]

@[simp] theorem State.msgRead_mem_wf (h : s.mem.wf = true) (m : Msg) (va : W64) (n : Nat) : (s.msgRead m va n).1.mem.wf = true := by
  have hl := State.lineAt_mem_wf h m.warp.team.launch.ctx 2 0 (.msg m.id) va m.core m.warp.warp
  unfold State.msgRead
  split <;> rename_i he <;> replace hl := wf_of_fst hl he
  · split <;> rename_i he' <;> simp [wf_of_fst (State.engineRead_mem_wf hl ..) he']
  · simp [hl]

@[simp] theorem State.msgWrite_mem_wf (h : s.mem.wf = true) (m : Msg) (va : W64) (bs : List W8) : (s.msgWrite m va bs).1.mem.wf = true := by
  have hl := State.lineAt_mem_wf h m.warp.team.launch.ctx 2 1 (.msg m.id) va m.core m.warp.warp
  unfold State.msgWrite
  split <;> rename_i he <;> replace hl := wf_of_fst hl he <;> simp [hl]

@[simp] theorem State.msgTileRead_mem (s : State) (m : Msg) (tid off n : Nat) : (s.msgTileRead m tid off n).1.mem = s.mem := by
  unfold State.msgTileRead
  dsimp only
  split <;> simp

@[simp] theorem State.gotPart_mem (s : State) (id off : Nat) (bs : List W8) : (s.gotPart id off bs).mem = s.mem := rfl

theorem State.eachPart_mem_wf {α : Type} (h : s.mem.wf = true) (id : Nat) (key : α → Nat) (ps : List α)
    {f : State → Msg → α → State} (hf : ∀ t m p, t.mem.wf = true → (f t m p).mem.wf = true) :
    (s.eachPart id key ps f).mem.wf = true := by
  refine foldl_mem_wf h (fun t p ht => ?_) ps
  split
  · split
    · exact ht
    · exact hf t _ p ht
  · exact ht

theorem State.beginning_mem_wf (h : s.mem.wf = true) (m : Msg) {k : State → State} (hk : ∀ t, t.mem.wf = true → (k t).mem.wf = true) :
    (s.beginning m k).mem.wf = true := by
  unfold State.beginning
  dsimp only
  split
  · simpa using h
  · exact hk s h

@[simp] theorem State.endMsg_mem (s : State) (id done status : Nat) : (s.endMsg id done status).mem = s.mem := rfl

@[simp] theorem State.beginMsg_mem_wf (h : s.mem.wf = true) (m : Msg) : (s.beginMsg m).mem.wf = true := by
  unfold State.beginMsg
  refine ite_mem_wf h (ite_mem_wf ?_ (State.beginning_mem_wf h m fun t ht => ?_))
  · cases m.srcTile <;> simp [h]
  · cases m.srcTile <;> cases m.destTile <;> simp [apply_ite State.mem, ht]

@[simp] theorem State.fillTile_mem (s : State) (t : TeamId) (tid : Nat) (got : List (Nat × List W8)) :
    (s.fillTile t tid got).mem = s.mem := by
  unfold State.fillTile
  simp

@[simp] theorem State.copyPart_mem_wf (h : s.mem.wf = true) (m : Msg) (p : Nat × Nat) : (s.copyPart m p).mem.wf = true := by
  have got : ∀ r : State × Option (List W8), r.1.mem.wf = true → (match r with
      | (s, none) => s
      | (s, some bs) => match m.destTile with
        | some _ => s.gotPart m.id p.1 bs
        | none =>
          let (s, ok) := s.msgWrite m (m.addr 6 + BitVec.ofNat 64 p.1) bs
          if ok then s.gotPart m.id p.1 [] else s).mem.wf = true := by
    rintro ⟨t, _ | bs⟩ ht
    · exact ht
    · cases m.destTile <;> simp [ht]
  refine got _ ?_
  cases m.srcTile <;> simp [h]

@[simp] theorem State.finishParts_mem (s : State) (id : Nat) (keys : List Nat) (done : Nat) : (s.finishParts id keys done).mem = s.mem := by
  unfold State.finishParts
  split
  · rfl
  · split
    · rfl
    · split <;> simp

@[simp] theorem State.arrayPart_mem_wf (h : s.mem.wf = true) (m : Msg) (p : W64 × Nat × Nat) : (s.arrayPart m p).mem.wf = true := by
  have hr := State.msgRead_mem_wf h m p.1 p.2.1
  unfold State.arrayPart
  split <;> rename_i he <;> replace hr := wf_of_fst hr he <;> simp [hr]

/-- The parts of an array read by one message. -/
@[simp] theorem State.eachPart_arrayPart_mem_wf (h : s.mem.wf = true) (id : Nat) (ps : List (W64 × Nat × Nat)) :
    (s.eachPart id (fun p => p.2.2) ps State.arrayPart).mem.wf = true :=
  State.eachPart_mem_wf h id _ ps fun _ m p ht => State.arrayPart_mem_wf ht m p

@[simp] theorem State.gatherPart_mem_wf (h : s.mem.wf = true) (m : Msg) (p : Nat × W32) : (s.gatherPart m p).mem.wf = true := by
  have hr := State.msgRead_mem_wf h m (m.addr 4 + BitVec.ofNat 64 (p.2.toNat * m.gathWidth)) m.gathWidth
  unfold State.gatherPart
  dsimp only
  split <;> rename_i he <;> replace hr := wf_of_fst hr he
  · exact hr
  · split <;> simp [hr]

@[simp] theorem State.setShare_mem (s : State) (id team st : Nat) : (s.setShare id team st).mem = s.mem := rfl

@[simp] theorem State.beginShare_mem_wf (h : s.mem.wf = true) (m : Msg) (sh : Share) : (s.beginShare m sh).mem.wf = true := by
  have hs : (s.setShare m.id sh.team 2).mem.wf = true := h
  unfold State.beginShare
  exact ite_mem_wf h (ite_mem_wf hs (ite_mem_wf hs (ite_mem_wf (State.beginning_mem_wf h m fun t ht => by simpa using ht) h)))

@[simp] theorem State.runShare_mem_wf (h : s.mem.wf = true) (m : Msg) (team : Nat) : (s.runShare m team).mem.wf = true := by
  have hp := State.eachPart_arrayPart_mem_wf h m.id (arrayParts (m.addr 4) m.size (shareKey team 0))
  unfold State.runShare
  dsimp only
  split
  · exact hp
  · split <;> simp [hp]

@[simp] theorem State.settleShares_mem (s : State) (id : Nat) : (s.settleShares id).mem = s.mem := by
  unfold State.settleShares
  split
  · rfl
  · simp [apply_ite State.mem]

@[simp] theorem State.msgFlags_mem (s : State) (ids : List Nat) (f : Flags) : (s.msgFlags ids f).mem = s.mem := rfl

@[simp] theorem State.enterWindow_mem (s : State) (t : SparseTok) : (s.enterWindow t).mem = s.mem := by
  unfold State.enterWindow
  dsimp only
  split <;> rfl

@[simp] theorem State.arriveTok_mem_wf (h : s.mem.wf = true) (id : Nat) : (s.arriveTok id).mem.wf = true := by
  unfold State.arriveTok
  split
  · exact h
  · rename_i t _
    split
    · exact h
    · rename_i m _
      have hl := State.lineAt_mem_wf h m.warp.team.launch.ctx 2 2 (.token id) t.va m.core m.warp.warp
      split <;> rename_i he <;> replace hl := wf_of_fst hl he <;> split <;> simp [h, hl]

@[simp] theorem State.countUpdates_mem (s : State) (ids : List Nat) : (s.countUpdates ids).mem = s.mem := by
  unfold State.countUpdates
  refine foldl_mem (fun t a => ?_) _ _
  dsimp only
  split
  · simp [apply_ite State.mem]
  · rfl

@[simp] theorem State.applyTok_mem_wf (h : s.mem.wf = true) (id : Nat) : (s.applyTok id).mem.wf = true := by
  unfold State.applyTok
  split
  · exact h
  · rename_i t _
    split
    · exact h
    · rename_i pa _
      dsimp only
      generalize (if t.ty.wide then 8 else 4 : Nat) = n
      have hh := State.dropLags_mem_wf (State.atHome_mem_wf h (s.partNo (s.tokDie t)) pa n) pa n
      generalize (s.atHome (s.partNo (s.tokDie t)) pa n).dropLags pa n = u at hh
      refine ite_mem_wf h ?_
      split
      · refine foldl_mem_wf hh (fun v p hv => ?_) _
        split <;> simp [hv]
      · split <;> simp [hh]

@[simp] theorem State.orFstat_mem (s : State) (w : WarpId) (f : Flags) : (s.orFstat w f).mem = s.mem := rfl

@[simp] theorem State.replied_mem (s : State) (m : Msg) : (s.replied m).mem = s.mem := by simp [State.replied]

/-! ### Collective -/

@[simp] theorem State.dropColl_mem (s : State) (c : Collect) : (s.dropColl c).mem = s.mem := rfl

@[simp] theorem State.joinColl_mem (s : State) (ctx grp k since : Nat) (m : Member) : (s.joinColl ctx grp k since m).mem = s.mem := by
  unfold State.joinColl
  dsimp only
  split
  · simp [apply_ite State.mem]
  · rfl

@[simp] theorem State.reachUnit_mem (s : State) (m : Msg) : (s.reachUnit m).mem = s.mem := by simp [State.reachUnit]

@[simp] theorem State.collSend_mem_wf (h : s.mem.wf = true) (m : Msg) (me : Member) (g : Nat) : (s.collSend m me g).mem.wf = true := by
  have hp := State.eachPart_arrayPart_mem_wf h m.id (arrayParts (m.addr 5) (4 * me.needs g) operandKey)
  unfold State.collSend
  dsimp only
  split
  · exact hp
  · split <;> exact hp

@[simp] theorem State.collReceive_mem_wf (h : s.mem.wf = true) (m : Msg) (c : Collect) (me : Member) :
    (s.collReceive m c me).mem.wf = true := by
  unfold State.collReceive
  generalize collResult c.ranked me = r
  dsimp only
  generalize r.1.flatMap (fun w => leBytes 4 w.toNat) = bs
  have hp := State.eachPart_mem_wf h m.id (fun p => p.2.2) (arrayParts (m.addr 7) bs.length recvKey) (f := fun s m p =>
    if (s.msgWrite m p.1 ((bs.drop (p.2.2 - recvKey)).take p.2.1)).2 then
      (s.msgWrite m p.1 ((bs.drop (p.2.2 - recvKey)).take p.2.1)).1.gotPart m.id p.2.2 ((bs.drop (p.2.2 - recvKey)).take p.2.1)
    else (s.msgWrite m p.1 ((bs.drop (p.2.2 - recvKey)).take p.2.1)).1) fun t m p ht => by simp [ht]
  split
  · exact hp
  · exact ite_mem_wf (by simpa using hp) hp

@[simp] theorem State.runColl_mem_wf (h : s.mem.wf = true) (m : Msg) : (s.runColl m).mem.wf = true := by
  simp only [State.runColl]
  repeat' split
  all_goals simp [h]

theorem State.groupRead_mem_wf (h : s.mem.wf = true) (m : Msg) {k : State → State} (hk : ∀ t, t.mem.wf = true → (k t).mem.wf = true) :
    (s.groupRead m k).mem.wf = true := by
  unfold State.groupRead
  dsimp only
  split
  · simpa using h
  · exact hk _ (by simpa using h)

/-! ### Control -/

/-! ### Pool -/

@[simp] theorem State.fitStack_mem (s : State) (w : WarpId) : (s.fitStack w).mem = s.mem := by
  unfold State.fitStack
  split
  · rfl
  · split
    · rfl
    · exact foldl_mem (fun _ _ => by rfl) _ _

@[simp] theorem State.spill_mem (s : State) (w : WarpId) (n : Nat) : (s.spill w n).mem = s.mem := by
  unfold State.spill
  split
  · rfl
  · simp [apply_ite State.mem]

@[simp] theorem State.makeResident_mem (s : State) (w : WarpId) (n : Nat) : (s.makeResident w n).mem = s.mem := by
  unfold State.makeResident
  split
  · rfl
  · split
    · rfl
    · dsimp only
      split
      · rfl
      · split
        · simp
        · rfl

@[simp] theorem State.writeV_mem (s : State) (w : WarpId) (n : Nat) (m : Lanes) (f : Nat → W32) : (s.writeV w n m f).mem = s.mem := by
  simp [State.writeV, apply_ite State.mem]

@[simp] theorem State.unbind_mem (s : State) (w : WarpId) (first n : Nat) : (s.unbind w first n).mem = s.mem := rfl

@[simp] theorem State.trimRows_mem (s : State) (w : WarpId) (k : Nat) : (s.trimRows w k).mem = s.mem := by
  induction k generalizing s with
  | zero => rfl
  | succ k ih =>
    unfold State.trimRows
    split
    · split
      · split
        · exact (ih _).trans (s.spill_mem _ _)
        · rfl
      · rfl
    · rfl

/-! ### Take -/

@[simp] theorem State.addRecall_mem (s : State) (t : TeamId) (tid core : Nat) (sched : Bool) :
    (s.addRecall t tid core sched).mem = s.mem := by
  unfold State.addRecall
  simp [apply_ite State.mem]

@[simp] theorem State.recallHeld_mem (s : State) (w : WarpId) : (s.recallHeld w).mem = s.mem := by
  unfold State.recallHeld
  split
  · split
    · exact foldl_mem (fun t a => by simp) _ _
    · rfl
  · rfl

@[simp] theorem State.takeHeld_mem (s : State) (k : Take) : (s.takeHeld k).mem = s.mem := by simp [State.takeHeld]

@[simp] theorem State.freeUnit_mem (s : State) (id : TeamId) (u : Taken) (code : Nat) : (s.freeUnit id u code).mem = s.mem := rfl

@[simp] theorem State.serveTakes_mem (s : State) (core code : Nat) : (s.serveTakes core code).mem = s.mem := by
  unfold State.serveTakes
  refine (foldl_mem (fun t a => ?_) _ _).trans ?_
  · split
    · rfl
    · split
      · simp
      · rfl
      · simp
      · rfl
  · exact foldl_mem (fun _ _ => by rfl) _ _

@[simp] theorem State.takeMet_mem (s : State) (x : Issue) (f : TakeF) (r : Nat) : (s.takeMet x f r).mem = s.mem := by
  simp [State.takeMet, apply_ite State.mem]

@[simp] theorem State.commitTake_mem (s : State) (x : Warp) (va : W64) (f : TakeF) (save : Option W64) :
    (s.commitTake x va f save).mem = s.mem := by simp [State.commitTake]

@[simp] theorem State.releaseUnit_mem (s : State) (id : TeamId) (tid warp code : Nat) : (s.releaseUnit id tid warp code).mem = s.mem := by
  unfold State.releaseUnit
  split
  · rfl
  · split
    · rfl
    · simp [apply_ite State.mem]

@[simp] theorem State.undeclared_mem (s : State) (x : Issue) : (s.undeclared x).mem = s.mem := by simp [State.undeclared]

@[simp] theorem State.endRoutine_mem (s : State) (x : Issue) (tid kind : Nat) : (s.endRoutine x tid kind).mem = s.mem := rfl

@[simp] theorem State.noteEnd_mem (s : State) (t : TeamId) (tid code : Nat) : (s.noteEnd t tid code).mem = s.mem := rfl

@[simp] theorem State.commitSurrender_mem (s : State) (w : WarpId) (tid kind : Nat) : (s.commitSurrender w tid kind).mem = s.mem := by
  simp [State.commitSurrender, apply_ite State.mem]

/-! ### Start -/

@[simp] theorem State.readHeader_mem (s : State) (w : WarpId) (e : ReadEnt) : (s.readHeader w e).mem = s.mem := by
  unfold State.readHeader
  split
  · rfl
  · split
    · rfl
    · simp [apply_ite State.mem]

@[simp] theorem State.badCopy_mem (s : State) (w : WarpId) (va : W64) (c : Nat) : (s.badCopy w va c).mem = s.mem := by
  simp [State.badCopy]

@[simp] theorem State.enterBlock_mem (s : State) (x : Warp) (ws : List W64) : (s.enterBlock x ws).mem = s.mem := by
  simp only [State.enterBlock]
  split
  · simp
  · simp
  · simp
  · simp
  · rw [foldl_mem fun t e => t.readHeader_mem ..]
    simp [apply_ite State.mem, apply_ite Prod.fst]

@[simp] theorem State.openBlock_mem_wf (h : s.mem.wf = true) (x : Warp) : (s.openBlock x).mem.wf = true := by
  have hf := s.fetchBlock_mem x.core x.id.team.launch.ctx x.pc
  unfold State.openBlock
  split <;> rename_i he <;> replace hf := mem_of_fst hf he
  · exact State.park_mem_wf (by rwa [hf]) ..
  · simp [hf, h]
  · simp [hf, h]
  · simp [hf, h]
  · rwa [hf]
  · dsimp only
    split <;> simp [hf, h]

@[simp] theorem State.reissueAll_mem (s : State) (x : Warp) (keys wrote : List Nat) : (s.reissueAll x keys wrote).1.mem = s.mem := by
  refine foldl_fst_mem (fun p c => ?_) _ _
  exact p.1.reissue_mem x c

@[simp] theorem State.rejoinCopies_mem (s : State) (x : Warp) (key : Nat) (r : Fetched) : (s.rejoinCopies x key r).1.mem = s.mem := by
  unfold State.rejoinCopies
  split
  · simp [apply_ite State.mem]
  · rfl
  · rfl

@[simp] theorem State.step6Done_mem (s : State) (w : WarpId) (left : Option Step6) (va : W64) (p : State × Option CopyCheck)
    (hp : p.1.mem = s.mem) : (s.step6Done w left va p).mem = s.mem := by
  unfold State.step6Done
  dsimp only
  split <;> simp [hp]

@[simp] theorem State.step6Before_mem (s : State) (w : WarpId) : (s.step6Before w).mem = s.mem := by
  unfold State.step6Before
  split
  · rfl
  · split
    · rfl
    · simp [apply_ite State.mem]

@[simp] theorem State.step6Own_mem_wf (h : s.mem.wf = true) (w : WarpId) : (s.step6Own w).mem.wf = true := by
  unfold State.step6Own
  split
  · exact h
  · rename_i x _
    split
    · exact h
    · split
      · exact h
      · dsimp only
        split
        · simp [h]
        · rename_i j key _
          have hf := s.fetchBlock_mem x.core w.team.launch.ctx j
          split <;> rename_i he <;> replace hf := mem_of_fst hf he
          · exact State.park_mem_wf (by rwa [hf]) ..
          · simp [hf, h]

@[simp] theorem State.step6_mem_wf (h : s.mem.wf = true) (w : WarpId) : (s.step6 w).mem.wf = true := by
  unfold State.step6
  simp [h]

@[simp] theorem State.noteYield_mem (s : State) (w : WarpId) (yields : Bool) : (s.noteYield w yields).mem = s.mem := by
  unfold State.noteYield
  split
  · simp [apply_ite State.mem]
  · rfl

@[simp] theorem State.atBoundary_mem (s : State) (w : WarpId) : (s.atBoundary w).mem = s.mem := by
  unfold State.atBoundary
  split
  · rfl
  · simp [apply_ite State.mem]

/-! ### Matrix -/

@[simp] theorem State.commitAzero_mem (s : State) (id : TeamId) (tid : Nat) (spl : Bool) : (s.commitAzero id tid spl).mem = s.mem := rfl

@[simp] theorem State.commitAload_mem (s : State) (id : TeamId) (tid first : Nat) (img : Bool) (rows : List (List W32)) :
    (s.commitAload id tid first img rows).mem = s.mem := rfl

@[simp] theorem State.commitMma_mem (s : State) (m : Mma) : (s.commitMma m).mem = s.mem := rfl

@[simp] theorem State.mmaRefs_mem (s : State) (m : Mma) : (s.mmaRefs m).mem = s.mem := by
  unfold State.mmaRefs
  split
  · rfl
  · split
    dsimp only
    split
    · refine (foldl_mem (fun t a => ?_) _ _).trans ?_
      · rfl
      · exact foldl_mem (fun _ _ => by rfl) _ _
    · rfl

@[simp] theorem State.faultDiffering_mem (s : State) (w : WarpId) (g : Lanes) : (s.faultDiffering w g).mem = s.mem := by
  unfold State.faultDiffering
  exact foldl_mem (fun t a => by simp) _ _

@[simp] theorem State.latched_mem (s : State) (m : Mma) : (s.latched m).mem = s.mem := by
  unfold State.latched
  split
  · split
    · simp
    · rfl
  · dsimp only
    split
    · rw [State.mmaRefs_mem, foldl_mem fun t p => t.setRun_mem ..]
      rfl
    · rw [foldl_mem fun t p => t.setRun_mem ..]
      rfl

@[simp] theorem State.atLatch_mem (s : State) (x : Issue) (new : Mma) : (s.atLatch x new).mem = s.mem := by
  unfold State.atLatch
  dsimp only
  split
  · simp
  · split
    · simp [apply_ite State.mem]
    · simp

@[simp] theorem State.mmaIssue_mem (s : State) (x : Issue) (f : MmaF) (ra rows : Nat) (aw bw mw : List W64) :
    (s.mmaIssue x f ra rows aw bw mw).mem = s.mem := by simp [State.mmaIssue, apply_ite State.mem]

@[simp] theorem State.illegalCode_mem (s : State) (x : Issue) (c : Nat) : (s.illegalCode x c).mem = s.mem := by simp [State.illegalCode]

@[simp] theorem State.mmaDone_mem (s : State) (m : Mma) (f : Flags) : (s.mmaDone m f).mem = s.mem := by
  unfold State.mmaDone
  exact foldl_mem (fun _ _ => by rfl) _ _

@[simp] theorem State.checkRows_mem (s : State) (x : Issue) (acc : Nat) (els : List (Nat × Nat)) : (s.checkRows x acc els).1.mem = s.mem :=
    by
  refine foldl_fst_mem (fun p e => ?_) els _
  exact p.1.checkLane_mem ..

@[simp] theorem State.drainIssue_mem_wf (h : s.mem.wf = true) (x : Issue) (f : DrainF) (t : Team) (e : LEntry) (tr row rows : Nat) :
    (s.drainIssue x f t e tr row rows).mem.wf = true := by
  unfold State.drainIssue
  dsimp only
  split
  · simp [h]
  · simp [h]
  · split
    · simp [h]
    · exact State.afterCheck_mem_wf (by simpa using h) _ _ _ _ fun as => by simp [h]

theorem State.loadRows_mem_wf (h : s.mem.wf = true) (x : Issue) (e : LEntry) (els : List (Nat × Nat))
    {k : State → List (List W8) → State} (hk : ∀ t bs, t.mem.wf = true → (k t bs).mem.wf = true) :
    (s.loadRows x e els k).mem.wf = true := by
  unfold State.loadRows
  split
  · dsimp only
    split
    · simp [h]
    · exact hk _ _ (by simpa using h)
  · have hc : (s.checkRows x 0 els).1.mem.wf = true := by simpa using h
    generalize s.checkRows x 0 els = p at hc
    obtain ⟨u, c⟩ := p
    refine State.afterCheck_mem_wf hc _ _ _ _ fun as => ?_
    have hr : ((as.zip els).foldl (fun p a => match p.1.coreRead x.w x.warp.core a.1.nc .warp 0 a.1.pa a.2.2 with
        | (s, b, bad) => (s, p.2.1 ++ [b], p.2.2.or (bad.map fun code => (a.1, code))))
        (u, ([] : List (List W8)), (none : Option (LaneAcc × Nat)))).1.mem.wf = true := by
      refine foldl_fst_mem_wf (p := (u, [], none)) hc (fun p a hp => ?_) _
      exact State.coreRead_mem_wf hp ..
    split
    rename_i t bs bad he
    have ht := wf_of_fst hr he
    split
    · simp [ht]
    · exact hk _ _ ht

/-! ### Regs -/

@[simp] theorem State.claimMet_mem (s : State) (x : Issue) (ts : List Tgt) (size : Nat) : (s.claimMet x ts size).mem = s.mem := rfl

/-! ### Commit -/

@[simp] theorem State.findFills_mem (s : State) (ws : List WarpId) : (s.findFills ws).mem = s.mem := by
  unfold State.findFills
  refine foldl_mem (fun t a => ?_) _ _
  split
  · simp [apply_ite State.mem]
  · rfl

@[simp] theorem State.commitMmaId_mem (s : State) (id : Nat) : (s.commitMmaId id).mem = s.mem := by
  unfold State.commitMmaId
  split
  · rfl
  · simp

@[simp] theorem State.commitEff_mem (s : State) (x : Warp) (va : W64) (k : Nat) (e : Eff) : (s.commitEff x va k e).mem = s.mem := by
  cases e <;> simp [State.commitEff]

@[simp] theorem State.commitSlot_mem (s : State) (w : WarpId) (am : Lanes) (sl : WSlot) : (s.commitSlot w am sl).mem = s.mem := by
  unfold State.commitSlot
  split
  · simp [apply_ite State.mem]
  · rfl

@[simp] theorem State.commitRegs_mem (s : State) (x : Warp) (r : Run) (effs : List (Nat × Eff)) : (s.commitRegs x r effs).mem = s.mem := by
  unfold State.commitRegs
  simp

@[simp] theorem State.releaseFor_mem_wf (h : s.mem.wf = true) (core : Nat) (sc : Scope) (o : Ord) :
    (s.releaseFor core sc o).mem.wf = true := by
  unfold State.releaseFor
  split
  · simp [h]
  · exact h

@[simp] theorem State.put_mem_wf (h : s.mem.wf = true) (x : Warp) (sc : Scope) (hint : BitVec 2) (sp : Space) (addr : Nat) (bs : List W8) :
    (s.put x sc hint sp addr bs).mem.wf = true := by
  unfold State.put
  split <;> simp [h]

@[simp] theorem State.commitAtoms_mem_wf (h : s.mem.wf = true) (x : Warp) (r : Run) (f : AtomF) (as : List LaneAtom) :
    (s.commitAtoms x r f as).mem.wf = true := by
  unfold State.commitAtoms
  split
  · exact h
  · refine foldl_fst_mem_wf (p := (s.newId.1, _)) h (fun p a hp => ?_) as
    exact State.atomLane_mem_wf hp ..

@[simp] theorem State.commitStore_mem_wf (h : s.mem.wf = true) (x : Warp) (r : Run) (sl : SlotSt) : (s.commitStore x r sl).mem.wf = true :=
    by
  unfold State.commitStore
  split
  · exact foldl_mem_wf (by simp [h]) (fun t a ht => by simp [ht]) _
  · simp [h]
  · exact h

@[simp] theorem State.commitDrain_mem_wf (h : s.mem.wf = true) (x : Warp) (e : Eff) : (s.commitDrain x e).mem.wf = true := by
  unfold State.commitDrain
  split
  · exact foldl_mem_wf h (fun t a ht => by simp [ht]) _
  · exact h

@[simp] theorem State.commitAfter_mem_wf (h : s.mem.wf = true) (x : Warp) (e : Eff) : (s.commitAfter x e).mem.wf = true := by
  unfold State.commitAfter
  split
  · simp [h]
  · split
    · simp [h]
    · exact h
  · exact foldl_mem_wf h (fun t a ht => by simp [ht]) _
  · simp [h]
  · simp [h]
  · exact h

@[simp] theorem State.commitStores_mem_wf (h : s.mem.wf = true) (x : Warp) (r : Run) (effs : List (Nat × Eff)) :
    (s.commitStores x r effs).mem.wf = true := by
  unfold State.commitStores
  refine foldl_mem_wf ?_ (fun s a h => ?_) _
  · refine foldl_mem_wf ?_ (fun s a h => ?_) _
    · exact foldl_mem_wf h (fun t a ht => by simp [ht]) _
    · simp [h]
  · simp [h]

@[simp] theorem State.commitSend_mem_wf (h : s.mem.wf = true) (x : Warp) (e : Eff) : (s.commitSend x e).mem.wf = true := by
  unfold State.commitSend
  split
  · split
    · exact h
    · split
      · dsimp only
        split <;> simp [h]
      · dsimp only
        split <;> exact h
  · exact h

@[simp] theorem State.commitMessage_mem (s : State) (x : Warp) (va : W64) (e : Eff) : (s.commitMessage x va e).mem = s.mem := by
  unfold State.commitMessage
  split
  · simp
  · rfl

@[simp] theorem State.commitRecv_mem (s : State) (x : Warp) (e : Eff) : (s.commitRecv x e).mem = s.mem := by
  unfold State.commitRecv
  split <;> rfl

@[simp] theorem State.arriveAt_mem (s : State) (w : WarpId) (b n : Nat) : (s.arriveAt w b n).1.mem = s.mem := by
  unfold State.arriveAt
  split
  · rfl
  · dsimp only
    split
    · rfl
    · exact foldl_mem (fun _ _ => by rfl) _ _

@[simp] theorem commitArrive_mem (p : State × List WarpId) (w : WarpId) (e : Eff) : (State.commitArrive p w e).1.mem = p.1.mem := by
  unfold State.commitArrive
  split
  · exact p.1.arriveAt_mem ..
  · rfl

@[simp] theorem State.settle_mem (s : State) (w : WarpId) (keys : List Nat) : (s.settle w keys).mem = s.mem := rfl

@[simp] theorem State.cancelJoins_mem (s : State) (w : WarpId) (keys : List Nat) : (s.cancelJoins w keys).mem = s.mem := by
  unfold State.cancelJoins
  exact foldl_mem (fun t a => by simp) _ _

@[simp] theorem State.passUnits_mem (s : State) (w : WarpId) : (s.passUnits w).mem = s.mem := by
  unfold State.passUnits
  dsimp only
  split
  · rfl
  · refine (foldl_mem (fun t a => ?_) _ _).trans ?_ <;> simp

@[simp] theorem State.retire_mem (s : State) (w : WarpId) : (s.retire w).mem = s.mem := by simp [State.retire]

@[simp] theorem State.clearAgain_mem (s : State) (x : Warp) : (s.clearAgain x).mem = s.mem := rfl

@[simp] theorem State.leaveRoutine_mem (s : State) (w : WarpId) (q : Routine) (wrote : List Nat) :
    (s.leaveRoutine w q wrote).mem = s.mem := by
  simp [State.leaveRoutine, apply_ite State.mem]

@[simp] theorem State.goOn_mem_wf (h : s.mem.wf = true) (w : WarpId) (lv : Leaving) (n : Next) (wrote : List Nat) :
    (s.goOn w lv n wrote).mem.wf = true := by
  unfold State.goOn
  dsimp only
  split
  · simp [h]
  · exact h

@[simp] theorem State.commitLeave_mem_wf (h : s.mem.wf = true) (x : Warp) (r : Run) (lv : Leaving) :
    (s.commitLeave x r lv).mem.wf = true := by
  simp only [State.commitLeave]
  repeat' split
  all_goals simp [h]

@[simp] theorem State.commitOne_mem_wf (h : s.mem.wf = true) (w : WarpId) : (s.commitOne w).1.mem.wf = true := by
  unfold State.commitOne
  split
  · exact h
  · rename_i x _
    split
    · exact h
    · rename_i r _
      have start : ∀ (t : State) (e : List (Nat × Eff)), t.mem.wf = true → ((t.commitRegs x r e).commitStores x r e).mem.wf = true :=
        fun t e ht => by simp [ht]
      dsimp only
      rw [State.testTeam_mem]
      refine State.commitLeave_mem_wf ?_ x r _
      rw [foldl_fst_mem fun p (e : Nat × Eff) => commitArrive_mem p w e.2]
      dsimp only
      rw [foldl_mem fun t (e : Nat × Eff) => t.commitRecv_mem x e.2, foldl_mem fun t (e : Nat × Eff) => t.commitMessage_mem x r.va e.2]
      refine foldl_mem_wf (start _ _ ?_) (fun t e ht => State.commitSend_mem_wf ht x e.2) _
      simpa using h

theorem commitAll_mem_wf (n : Nat) (ws : List WarpId) {s : State} (h : s.mem.wf = true) : (State.commitAll n ws s).mem.wf = true := by
  induction n generalizing ws s with
  | zero => exact h
  | succ n ih =>
    cases ws with
    | nil => exact h
    | cons w ws =>
      refine ite_mem_wf (ih _ ?_) (ih _ h)
      refine foldl_fst_mem_wf (p := (s, [])) h (fun p v hp => ?_) _
      exact State.commitOne_mem_wf hp v

@[simp] theorem countBarsyn_mem (p : State × List WarpId) (w : WarpId) : (State.countBarsyn p w).1.mem = p.1.mem := by
  unfold State.countBarsyn
  split
  · rfl
  · split
    · split
      · rfl
      · simp
    · rfl

@[simp] theorem State.tryCommit_mem_wf (h : s.mem.wf = true) (w : WarpId) : (s.tryCommit w).mem.wf = true := by
  unfold State.tryCommit
  dsimp only
  split
  · simp [h]
  · split
    · simp [h]
    · refine commitAll_mem_wf _ _ ?_
      rw [foldl_fst_mem countBarsyn_mem]
      simp [h]

@[simp] theorem State.commitMet_mem_wf (h : s.mem.wf = true) (ws : List WarpId) : (s.commitMet ws).mem.wf = true := by
  unfold State.commitMet
  exact foldl_mem_wf h (fun t a ht => by simp [ht]) _

@[simp] theorem State.discardRunning_mem (s : State) (w : WarpId) : (s.discardRunning w).mem = s.mem := by
  unfold State.discardRunning
  split
  · simp
  · rfl

@[simp] theorem State.stopWarp_mem (s : State) (w : WarpId) : (s.stopWarp w).mem = s.mem := by simp [State.stopWarp, apply_ite State.mem]

/-! ### Queues -/

@[simp] theorem State.setPkt_mem (s : State) (p : PktId) (f : Pkt → Pkt) : (s.setPkt p f).mem = s.mem := rfl

@[simp] theorem State.leavePkt_mem (s : State) (p : PktId) : (s.leavePkt p).mem = s.mem := rfl

@[simp] theorem State.writeRead_mem_wf (h : s.mem.wf = true) (q : Queue) : (s.writeRead q).mem.wf = true := by
  unfold State.writeRead
  simp [h]

@[simp] theorem State.writeState_mem_wf (h : s.mem.wf = true) (q : Queue) : (s.writeState q).mem.wf = true := by
  unfold State.writeState
  simp [h]

@[simp] theorem State.writeStatus_mem_wf (h : s.mem.wf = true) (q : Queue) : (s.writeStatus q).mem.wf = true := by
  unfold State.writeStatus
  simp [h]

@[simp] theorem State.ownerRecord_mem_wf (h : s.mem.wf = true) (ctx q cause tag pos sseq : Nat) :
    (s.ownerRecord ctx q cause tag pos sseq).mem.wf = true := by
  unfold State.ownerRecord
  split
  · exact h
  · simp [h]

@[simp] theorem State.freeze_mem_wf (h : s.mem.wf = true) (ctx q cause tag pos sseq : Nat) :
    (s.freeze ctx q cause tag pos sseq).mem.wf = true := by
  unfold State.freeze
  dsimp only
  split <;> simp [h]

@[simp] theorem State.freezePkt_mem_wf (h : s.mem.wf = true) (p : PktId) (cause sseq : Nat) : (s.freezePkt p cause sseq).mem.wf = true := by
  unfold State.freezePkt
  split
  · exact h
  · simp [h]

@[simp] theorem State.setTokens_mem (s : State) (ctx n : Nat) (f : W64 → W64) : (s.setTokens ctx n f).mem = s.mem := rfl

@[simp] theorem State.turnPkt_mem (s : State) (p : PktId) (k : Pkt) (ph : PktPh) : (s.turnPkt p k ph).mem = s.mem := by
  simp [State.turnPkt, apply_ite State.mem]

@[simp] theorem State.donePkt_mem (s : State) (p : PktId) : (s.donePkt p).mem = s.mem := rfl

/-! ### Placing -/

@[simp] theorem State.readyCore_mem (s : State) (core ctx : Nat) : (s.readyCore core ctx).mem = s.mem := by simp [State.readyCore]

@[simp] theorem State.putTeam_mem (s : State) (l : Launch) (i core at' : Nat) : (s.putTeam l i core at').mem = s.mem := by
  unfold State.putTeam
  simp

@[simp] theorem State.putSaved_mem (s : State) (l : Launch) (t : SavedTeam) (core at' : Nat) : (s.putSaved l t core at').mem = s.mem := by
  unfold State.putSaved
  simp [apply_ite State.mem]

@[simp] theorem State.placeTeam_mem (s : State) (l : Launch) (i : Nat) (t : Option SavedTeam) (core at' : Nat) :
    (s.placeTeam l i t core at').mem = s.mem := by
  unfold State.placeTeam
  split <;> simp

theorem State.placeTeams_mem {t : State} (l : Launch) (ts : List (Nat × Option SavedTeam × List Nat)) (ht : s.placeTeams l ts = some t) :
    t.mem = s.mem := by
  induction ts generalizing s with
  | nil => exact (Option.some.inj ht) ▸ rfl
  | cons u us ih =>
    unfold State.placeTeams at ht
    split at ht
    · obtain ⟨p, -, hp⟩ := Option.bind_eq_some_iff.mp ht
      exact (ih hp).trans (s.placeTeam_mem ..)
    · obtain ⟨c, -, hc⟩ := List.exists_of_findSome?_eq_some ht
      obtain ⟨a, -, ha⟩ := Option.bind_eq_some_iff.mp hc
      exact (ih ha).trans (s.placeTeam_mem ..)

/-! ### Retire -/

@[simp] theorem State.removeTeam_mem (s : State) (t : TeamId) (code : Nat) : (s.removeTeam t code).mem = s.mem := by
  unfold State.removeTeam
  split
  · rfl
  · simp [apply_ite State.mem]

@[simp] theorem State.flushDies_mem_wf (h : s.mem.wf = true) (ds : List Nat) : (s.flushDies ds).mem.wf = true := (s.flushDies_step ds).2 h

@[simp] theorem State.dropLaunch_mem (s : State) (l : LaunchId) : (s.dropLaunch l).mem = s.mem := rfl

@[simp] theorem State.endKill_mem_wf (h : s.mem.wf = true) (l : Launch) : (s.endKill l).mem.wf = true := by
  unfold State.endKill
  split
  · exact h
  · exact State.freezePkt_mem_wf (by simpa using h) ..

@[simp] theorem State.saveLine_mem_wf (h : s.mem.wf = true) (x : Warp) (va : W64) (rec : List W8) (p : Nat × Nat) :
    (s.saveLine x va rec p).mem.wf = true := by
  have hl := State.lineAt_mem_wf h x.id.team.launch.ctx 2 1 (.save x.id) (va + BitVec.ofNat 64 p.1) x.core x.id.warp
  unfold State.saveLine
  dsimp only
  split
  · exact h
  · split <;> rename_i he <;> replace hl := wf_of_fst hl he <;> simp [hl]

@[simp] theorem State.surrAppend_mem_wf (h : s.mem.wf = true) (ctx die : Nat) (rec : List W8) : (s.surrAppend ctx die rec).mem.wf = true :=
    by
  unfold State.surrAppend
  split <;> simp [h]

@[simp] theorem State.loseUnit_mem (s : State) (w : WarpId) (u : Taken) : (s.loseUnit w u).mem = s.mem := by
  unfold State.loseUnit
  rw [State.noteEnd_mem, State.releaseUnit_mem]
  exact foldl_mem (fun t tid => t.clearTile_mem w.team tid) _ s

@[simp] theorem State.stopRoutine_mem (s : State) (x : Warp) : (s.stopRoutine x).mem = s.mem := by
  unfold State.stopRoutine
  simp [apply_ite State.mem]

/-! ### Saving -/

@[simp] theorem State.stopLaunch_mem (s : State) (l : LaunchId) : (s.stopLaunch l).mem = s.mem := by
  unfold State.stopLaunch
  exact foldl_mem (fun t a => by simp) _ _

@[simp] theorem State.saveFault_mem (s : State) (l : Launch) (g : Granule) : (s.saveFault l g).mem = s.mem := by
  unfold State.saveFault
  split
  · simp
  · rfl

@[simp] theorem State.writeTeams_mem_wf (h : s.mem.wf = true) (l : Launch) (ver at' : Nat) (ts : List SavedTeam) :
    (s.writeTeams l ver at' ts).1.mem.wf = true := by
  induction ts generalizing s at' with
  | nil => exact h
  | cons t ts ih => exact ih (State.sysWrite_mem_wf h _ _) _

@[simp] theorem State.saveLaunch_mem_wf (h : s.mem.wf = true) (x : Launch) (c : Ctx) : (s.saveLaunch x c).mem.wf = true := by
  have hw : ∀ ds a b rec ver ts, (((s.pushDies ds).sysWrite a rec).writeTeams x ver b ts).1.mem.wf = true :=
    fun ds a b rec ver ts => State.writeTeams_mem_wf (State.sysWrite_mem_wf (State.pushDies_mem_wf h ds) a rec) x ver b ts
  unfold State.saveLaunch
  dsimp only
  rw [foldl_mem fun t k => t.serveTakes_mem k 0]
  split
  · change Mem.wf (State.mem (List.foldl _ _ _)) = true
    rw [foldl_mem fun t k => t.setCore_mem ..]
    exact hw ..
  · exact hw ..

/-! ### Packets -/

@[simp] theorem State.preempt_mem (s : State) (l : Launch) : (s.preempt l).mem = s.mem := by
  unfold State.preempt
  simp [apply_ite State.mem]

@[simp] theorem State.holdLaunch_mem (s : State) (p : PktId) : (s.holdLaunch p).mem = s.mem := by
  unfold State.holdLaunch
  split
  · simp [apply_ite State.mem]
  · rfl

@[simp] theorem State.fwFault_mem (s : State) (p : PktId) (cls cause : Nat) (va : W64) (payload : List W64) :
    (s.fwFault p cls cause va payload).mem = s.mem := rfl

theorem State.fwPage_mem_wf (h : s.mem.wf = true) (p : PktId) (acc : Nat) (va : W64) {k : State → Nat → State}
    (hk : ∀ t pa, t.mem.wf = true → (k t pa).mem.wf = true) : (s.fwPage p acc va k).mem.wf = true := by
  have hl := State.lineAt_mem_wf h p.ctx 2 acc (.packet p) va 0 0
  unfold State.fwPage
  split <;> rename_i he <;> replace hl := wf_of_fst hl he
  · exact hk _ _ hl
  · exact hl
  · simp [hl]
  · simp [hl]

theorem State.fwRead_mem_wf (h : s.mem.wf = true) (p : PktId) (va : W64) (pa n : Nat) {k : State → State}
    (hk : ∀ t, t.mem.wf = true → (k t).mem.wf = true) : (s.fwRead p va pa n k).mem.wf = true := by
  unfold State.fwRead
  split
  · simp [h]
  · exact hk _ (by simpa using h)

@[simp] theorem State.pktPart_mem_wf (h : s.mem.wf = true) (p : PktId) (x : Nat × Nat) : (s.pktPart p x).mem.wf = true := by
  unfold State.pktPart
  split
  · exact h
  · split
    · exact h
    · refine State.fwPage_mem_wf h _ _ _ fun t src ht => State.fwPage_mem_wf ht _ _ _ fun u dst hu => ?_
      have hr := State.engineRead_mem_wf hu (.copy 5) src (x.2 / 4)
      split <;> rename_i he <;> replace hr := wf_of_fst hr he <;> simp [hr]

@[simp] theorem State.poll_mem_wf (h : s.mem.wf = true) (p : PktId) (k : Pkt) : (s.poll p k).mem.wf = true := by
  refine State.fwPage_mem_wf (by simpa using h) _ _ _ fun t pa ht => State.fwRead_mem_wf ht _ _ _ _ fun u hu => ?_
  simp [apply_ite State.mem, hu]

@[simp] theorem State.completePkt_mem (s : State) (p : PktId) (k : Pkt) : (s.completePkt p k).mem = s.mem := rfl

@[simp] theorem State.popWhole_mem_wf (h : s.mem.wf = true) (ctx : Nat) (q : Queue) (head : List W64) (nb : Nat) :
    (s.popWhole ctx q head nb).mem.wf = true := by
  unfold State.popWhole
  simp [h]

theorem State.ringRead_mem_wf (h : s.mem.wf = true) (ctx : Nat) (q : Queue) (i n : Nat) {k : State → State}
    (hk : ∀ t, t.mem.wf = true → (k t).mem.wf = true) : (s.ringRead ctx q i n k).mem.wf = true := by
  unfold State.ringRead
  dsimp only
  split
  · simp [h]
  · exact hk _ (by simpa using h)

@[simp] theorem State.takeEvent_mem (s : State) (fw : Nat) : (s.takeEvent fw).mem = s.mem := by
  unfold State.takeEvent
  dsimp only
  split
  · rfl
  · split <;> rfl

/-! ### Sched -/

@[simp] theorem State.ageWarps_mem (s : State) (core : Nat) (cs ps : List Cand) : (s.ageWarps core cs ps).mem = s.mem := rfl

@[simp] theorem State.needFault_mem (s : State) (core ctx : Nat) (va : W64) (at' : Nat) : (s.needFault core ctx va at').mem = s.mem := by
  unfold State.needFault
  split
  · simp
  · rfl

@[simp] theorem State.regionFault_mem (s : State) (g : Granule) : (s.regionFault g).mem = s.mem := by
  unfold State.regionFault
  split
  · simp
  · simp
  · rfl

/-! ### Halt -/

@[simp] theorem State.stopRecord_mem_wf (h : s.mem.wf = true) (f : Stop) (org : Bool) : (s.stopRecord f org).1.mem.wf = true := by
  unfold State.stopRecord
  split
  · exact h
  · simp [h]

@[simp] theorem State.raiseLost_mem (s : State) : s.raiseLost.mem = s.mem := by
  unfold State.raiseLost
  refine foldl_mem (fun t a => ?_) _ _
  exact foldl_mem (fun _ _ => by rfl) _ _

@[simp] theorem State.haltRaise_mem_wf (h : s.mem.wf = true) : s.haltRaise.mem.wf = true := by
  unfold State.haltRaise
  dsimp only
  split
  · simp [h]
  · split <;> simp [h]

@[simp] theorem State.stopCore_mem_wf (h : s.mem.wf = true) (core : Nat) : (s.stopCore core).mem.wf = true := by
  unfold State.stopCore
  split
  · exact foldl_mem_wf h (fun t a ht => by simp [ht]) _
  · exact foldl_mem_wf (by simp [h]) (fun t a ht => by simp [ht]) _

@[simp] theorem State.stoppedRecord_mem_wf (h : s.mem.wf = true) (m : Msg) : (s.stoppedRecord m).mem.wf = true := by
  simp [State.stoppedRecord, h]

@[simp] theorem State.discardCtx_mem (s : State) (ctx : Nat) : (s.discardCtx ctx).mem = s.mem := by
  unfold State.discardCtx
  refine (foldl_mem (fun t a => ?_) _ _).trans ?_
  · simp
  · exact foldl_mem (fun t a => by simp) _ _

@[simp] theorem State.freezeLost_mem_wf (h : s.mem.wf = true) (ctx : Nat) (lost guilty : List PktId) (sseq q : Nat) :
    (s.freezeLost ctx lost guilty sseq q).mem.wf = true := by
  have left : ∀ ps : List PktId, (ps.foldl (fun s p => s.leavePkt p) s).mem.wf = true := fun ps => by
    rwa [foldl_mem fun t p => t.leavePkt_mem p]
  unfold State.freezeLost
  dsimp only
  split
  · exact h
  · exact ite_mem_wf (left _) (State.freeze_mem_wf (left _) ..)

@[simp] theorem State.freezeAll_mem_wf (h : s.mem.wf = true) (ctx : Nat) (lost guilty : List PktId) (sseq : Nat) :
    (s.freezeAll ctx lost guilty sseq).mem.wf = true := by
  unfold State.freezeAll
  exact foldl_mem_wf h (fun t a ht => by simp [ht]) _

@[simp] theorem State.copyError_mem_wf (h : s.mem.wf = true) (p : Place) (pa : Nat) : (s.copyError p pa).mem.wf = true := by
  simp only [State.copyError]
  repeat' split
  all_goals simp [h]

@[simp] theorem State.hardError_mem_wf (h : s.mem.wf = true) (g : Granule) : (s.hardError g).mem.wf = true := by
  unfold State.hardError
  split
  · simp [h]
  · exact h

/-! ### HostPort -/

@[simp] theorem State.freezeHost_mem (s : State) : s.freezeHost.mem = s.mem := rfl

@[simp] theorem State.badRequest_mem (s : State) : s.badRequest.mem = s.mem := rfl

@[simp] theorem State.ringBell_mem (s : State) (ctx q : Nat) (off : W64) : (s.ringBell ctx q off).mem = s.mem := by
  unfold State.ringBell
  split
  · rfl
  · simp [apply_ite State.mem]

@[simp] theorem State.hostAtomic_mem_wf (h : s.mem.wf = true) (op : HostAop) (wide : Bool) (off : Nat) (a b : W64) :
    (s.hostAtomic op wide off a b).mem.wf = true := by
  unfold State.hostAtomic
  generalize (if wide then 8 else 4 : Nat) = n
  have hh := State.dropLags_mem_wf (State.atHome_mem_wf h none off n) off n
  dsimp only
  split <;> simp [hh]

@[simp] theorem State.ringMail_mem (s : State) (v : W64) : (s.ringMail v).mem = s.mem := by simp [State.ringMail, apply_ite State.mem]

@[simp] theorem State.mailWrite_mem (s : State) (off : Nat) (v : W64) : (s.mailWrite off v).mem = s.mem := by
  simp [State.mailWrite, apply_ite State.mem]

@[simp] theorem State.enter_mem_wf (h : s.mem.wf = true) (p : Posted) : (s.enter p).mem.wf = true := by
  unfold State.enter
  split
  · split <;> exact h
  · simp [h]
  · simp [h]
  · simp [h]

@[simp] theorem letIn_mem_wf (n : Nat) {s : State} (h : s.mem.wf = true) : (State.letIn n s).mem.wf = true := by
  induction n generalizing s with
  | zero => exact h
  | succ n ih =>
    unfold State.letIn
    split
    · exact ih (State.enter_mem_wf h _)
    · exact h

@[simp] theorem State.post_mem_wf (h : s.mem.wf = true) (op : HostOp) (ro : Bool) : (s.post op ro).mem.wf = true :=
  letIn_mem_wf _ h

@[simp] theorem State.tlpWrite_mem_wf (h : s.mem.wf = true) (pa : Nat) (bs : List W8) (ep : Bool) : (s.tlpWrite pa bs ep).mem.wf = true :=
    by
  unfold State.tlpWrite
  simp [apply_ite State.mem, h]

@[simp] theorem State.sense_mem (s : State) (off : Nat) : (s.sense off).mem = s.mem := by simp [State.sense, apply_ite State.mem]

/-! ### Commands -/

@[simp] theorem State.denyLine_mem (s : State) (p : PLine) : (s.denyLine p).mem = s.mem := by
  simp only [State.denyLine]
  repeat' split
  all_goals simp

@[simp] theorem State.reopen_mem (s : State) (ctx : Nat) : (s.reopen ctx).mem = s.mem := by
  unfold State.reopen
  exact foldl_mem (fun _ _ => by rfl) _ _

@[simp] theorem State.imageFault_mem (s : State) (a len : Nat) : (s.imageFault a len).mem = s.mem := by
  unfold State.imageFault
  split
  · rfl
  · exact foldl_mem (fun _ _ => by rfl) _ _

/-! ### Memory -/

@[simp] theorem State.loaded_mem (s : State) (x : Issue) (i : Instr) (f : MemF) (spad : Bool) (got : List (Nat × List W8)) :
    (s.loaded x i f spad got).mem = s.mem := rfl

@[simp] theorem State.readLanes_mem_wf (h : s.mem.wf = true) (who : WarpId) (core : Nat) (sc : Scope) (hint : BitVec 2) (width : Nat)
    (as : List LaneAcc) : (s.readLanes who core sc hint width as).1.mem.wf = true := by
  refine foldl_fst_mem_wf h (fun p a hp => ?_) as
  exact State.coreRead_mem_wf hp ..

@[simp] theorem State.memLoad_mem_wf (h : s.mem.wf = true) (x : Issue) (i : Instr) (f : MemF) : (s.memLoad x i f).mem.wf = true := by
  refine State.access_mem_wf h _ _ _ _ _ _ fun t as ht => ?_
  dsimp only
  split <;> simp [ht]

/-! ### Moves -/

@[simp] theorem State.heldReads_mem (s : State) (w : WarpId) (regs : List (Bool × Nat)) : (s.heldReads w regs).mem = s.mem := by
  unfold State.heldReads
  split
  · rfl
  · exact foldl_mem (fun t a => by simp) _ _

/-! ### Resume -/

@[simp] theorem State.resumeFault_mem (s : State) (l : Launch) (pa code : Nat) : (s.resumeFault l pa code).mem = s.mem := rfl

@[simp] theorem State.spendKeys_mem (s : State) : s.spendKeys.mem = s.mem := rfl

end Sys2Proof.Machine
end

section
/-! SUPPORT. Every instruction and every event keeps memory in canonical form (log 2), and so does every step. -/
namespace Sys2Proof.Machine

variable {s : State}

/-- The answer of a meaning: a next state in which memory is in canonical form. -/
def Formed : Host.Outcome State Fault Refusal → Prop
  | .next t => t.mem.wf = true
  | _ => True

theorem formed_next {t : State} (h : t.mem.wf = true) : Formed (.next t) := h

theorem firing_formed (h : s.mem.wf = true) {i : Instr} {f : Issue → State} (hf : ∀ x, (f x).mem.wf = true) :
    Formed (s.firing i f) := by
  unfold State.firing
  split
  · exact hf _
  · exact h

/-- An instruction of values only writes no memory. -/
theorem pure_formed (h : s.mem.wf = true) {i : Instr} {ts : List Tgt} {f : Issue → Token × Flags} : Formed (s.pure i ts f) :=
  firing_formed h fun _ => h

theorem control_formed (h : s.mem.wf = true) {i : Instr} {f : Issue → Nat → Option SuccKind} : Formed (s.control i f) :=
  firing_formed h fun _ => h

theorem barrierOp_formed (h : s.mem.wf = true) {i : Instr} {bar : Nat} {n : Option Nat} {k : Issue → Team → State}
    (hk : ∀ x t, (k x t).mem.wf = true) : Formed (s.barrierOp i bar n k) := by
  refine firing_formed h fun x => ite_mem_wf h ?_
  split
  · exact h
  · split
    · simp [h]
    · exact hk _ _

theorem command_formed (h : s.mem.wf = true) {op : Nat} {f : State → State × Option W8} (hf : (f s).1.mem.wf = true) :
    Formed (s.command op f) := by
  refine ite_mem_wf h (ite_mem_wf h ?_)
  split <;> rename_i he <;> simpa using wf_of_fst hf he

theorem copyStep_formed (h : s.mem.wf = true) {id : Nat} {ovl : Bool} {f : State → Copy → State} (hf : ∀ c, (f s c).mem.wf = true) :
    Formed (s.copyStep id ovl f) := by
  refine formed_next ?_
  split
  · exact hf _
  · exact h

theorem hostStep_formed (h : s.mem.wf = true) {f : State → State} (hf : (f s).mem.wf = true) : Formed (s.hostStep f) := ite_mem_wf h hf

theorem msgStep_formed (h : s.mem.wf = true) {id : Nat} {op : MsgOp} {f : State → Msg → State} (hf : ∀ m, (f s m).mem.wf = true) :
    Formed (s.msgStep id op f) := by
  refine formed_next ?_
  split
  · exact ite_mem_wf (hf _) h
  · exact h

theorem pktStep_formed (h : s.mem.wf = true) {p : PktId} {type : Nat} {again : Bool} {f : State → Pkt → State}
    (hf : ∀ t k, t.mem.wf = true → (f t k).mem.wf = true) : Formed (s.pktStep p type again f) := by
  refine formed_next ?_
  split
  · exact ite_mem_wf h (ite_mem_wf (hf _ _ (by simpa using h)) (ite_mem_wf (hf _ _ h) h))
  · exact h

theorem foldl_takeRef_mem_wf (h : s.mem.wf = true) (o : RefOwner) (t : TeamId) (w : Bool) (ks : List Nat) :
    (ks.foldl (fun s k => s.takeRef o t k w) s).mem.wf = true := by
  rwa [foldl_mem fun u k => u.takeRef_mem ..]

theorem foldl_sysFix_mem_wf (h : s.mem.wf = true) (ps : List (Nat × Nat)) :
    (ps.foldl (fun s p => s.sysFix p.1 p.2) s).mem.wf = true := by
  rwa [foldl_mem fun u p => u.sysFix_mem ..]

theorem execAtom_formed (h : s.mem.wf = true) (f : AtomF) : Formed (execAtom f s) := by
  refine firing_formed h fun x => State.access_mem_wf h _ _ _ _ _ _ fun t as h => ?_
  split
  · dsimp only
    split
    · simp [h]
    · exact h
  · dsimp only
    split
    · simp [h]
    · exact h

theorem execFence_formed (h : s.mem.wf = true) (pr : Pr) (sc : Scope) (ord : Ord) : Formed (execFence pr sc ord s) :=
    firing_formed h fun x => by simp [h]

theorem execFencex_formed (h : s.mem.wf = true) (pr : Pr) (from' to' : BitVec 5) : Formed (execFencex pr from' to' s) :=
    firing_formed h fun x => by simp [h]

theorem execPref_formed (h : s.mem.wf = true) (pr : Pr) (lvl : PrefLvl) (sc : Scope) (imm : BitVec 14) : Formed
    (execPref pr lvl sc imm s) := by
  refine firing_formed h fun x => foldl_mem_wf ?_ (fun s a h => ?_) _
  · exact h
  · simp [h]

theorem execCctl_formed (h : s.mem.wf = true) (pr : Pr) (op : CctlOp) (imm : BitVec 14) : Formed (execCctl pr op imm s) :=
    firing_formed h fun _ => h

theorem execBararv_formed (h : s.mem.wf = true) (pr : Pr) (bar cntm : BitVec 5) : Formed (execBararv pr bar cntm s) :=
    barrierOp_formed h fun x t => by simp [h]

theorem execBarwt_formed (h : s.mem.wf = true) (pr : Pr) (bar : BitVec 5) : Formed (execBarwt pr bar s) :=
    barrierOp_formed h fun x t => by simp [h]

theorem execBarsyn_formed (h : s.mem.wf = true) (pr : Pr) (bar cntm : BitVec 5) : Formed (execBarsyn pr bar cntm s) :=
    barrierOp_formed h fun x t => by simp [h]

theorem execSend_formed (h : s.mem.wf = true) (pr : Pr) (msg : MsgOp) (lp : Bool) : Formed (execSend pr msg lp s) :=
    firing_formed h fun x => by simp [h]

theorem execPollr_formed (h : s.mem.wf = true) (pr : Pr) (spad : Bool) (t0 t1 : Tgt) : Formed (execPollr pr spad t0 t1 s) :=
    firing_formed h fun _ => ite_mem_wf h (State.readReply_mem_wf h _ _ _ fun _ _ h => h)

theorem execWaitr_formed (h : s.mem.wf = true) (pr : Pr) (spad : Bool) (t0 t1 : Tgt) : Formed (execWaitr pr spad t0 t1 s) :=
    firing_formed h fun x => ite_mem_wf h (State.readReply_mem_wf h _ _ _ fun t w h => by simp [h])

theorem execTdset_formed (h : s.mem.wf = true) (pr : Pr) (idx : BitVec 6) : Formed (execTdset pr idx s) := firing_formed h fun _ => h

theorem execTdget_formed (h : s.mem.wf = true) (pr : Pr) (idx : BitVec 6) (t0 t1 : Tgt) : Formed (execTdget pr idx t0 t1 s) :=
    firing_formed h fun _ => State.readLegend_mem_wf h _ _ fun _ _ h => h

theorem formed_execTarm (h : s.mem.wf = true) (pr : Pr) (tid : BitVec 6) (count : BitVec 16) : Formed (execTarm pr tid count s) := by
  refine firing_formed h fun x => ite_mem_wf h ?_
  split <;> simp [h]

theorem execTstat_formed (h : s.mem.wf = true) (pr : Pr) (tid : BitVec 6) (t0 t1 : Tgt) : Formed (execTstat pr tid t0 t1 s) := by
  refine firing_formed h fun x => ite_mem_wf h ?_
  split <;> simp [h]

theorem execTclr_formed (h : s.mem.wf = true) (pr : Pr) (tid : BitVec 6) : Formed (execTclr pr tid s) := by
  refine firing_formed h fun x => ite_mem_wf h ?_
  split
  · simp [h]
  · exact h

theorem execCopyBegin_formed (h : s.mem.wf = true) (id : Nat) : Formed (execCopyBegin id s) := copyStep_formed h fun c => by simp [h]

theorem execCopyComplete_formed (h : s.mem.wf = true) (id : Nat) : Formed (execCopyComplete id s) := copyStep_formed h fun c => by simp [h]

theorem execOverlayFillBegin_formed (h : s.mem.wf = true) (id : Nat) : Formed (execOverlayFillBegin id s) :=
    copyStep_formed h fun c => by simp [h]

theorem execOverlayFillComplete_formed (h : s.mem.wf = true) (id : Nat) : Formed (execOverlayFillComplete id s) :=
    copyStep_formed h fun c => by simp [h]

theorem execFsend_formed (h : s.mem.wf = true) (pv : Bool) (pr : Pr) (rel : Bool) : Formed (execFsend pv pr rel s) :=
    firing_formed h fun x => ite_mem_wf h (by simp [h])

theorem execFrecv_formed (h : s.mem.wf = true) (pv : Bool) (pr : Pr) (acq : Bool) (t0 t1 : Tgt) : Formed (execFrecv pv pr acq t0 t1 s) := by
  refine firing_formed h fun x => ite_mem_wf h (State.neighbourOp_mem_wf h _ _ ?_)
  split <;> exact h

theorem execFpeek_formed (h : s.mem.wf = true) (pv : Bool) (pr : Pr) (t0 t1 : Tgt) : Formed (execFpeek pv pr t0 t1 s) :=
    firing_formed h fun x => by simp [h]

theorem execCopyMessage_formed (h : s.mem.wf = true) (id : Nat) : Formed (execCopyMessage id s) := by
  refine msgStep_formed h fun m => ?_
  have hb := State.beginMsg_mem_wf h m
  dsimp only
  split
  · refine ite_mem_wf hb ?_
    rw [State.finishParts_mem]
    exact State.eachPart_mem_wf hb _ _ _ fun t m p ht => State.copyPart_mem_wf ht m p
  · exact hb

theorem execGathr_formed (h : s.mem.wf = true) (id : Nat) : Formed (execGathr id s) := by
  refine msgStep_formed h fun m => ?_
  have hb := State.beginMsg_mem_wf h m
  dsimp only
  split
  · exact hb
  · rename_i m' _
    have hi := State.eachPart_arrayPart_mem_wf hb id m'.indexParts
    refine ite_mem_wf hb ?_
    split
    · exact hi
    · refine ite_mem_wf hi ?_
      rw [State.finishParts_mem]
      exact State.eachPart_mem_wf hi _ _ _ fun t m p ht => State.gatherPart_mem_wf ht m p

theorem execCopym_formed (h : s.mem.wf = true) (id team : Nat) : Formed (execCopym id team s) := by
  refine msgStep_formed h fun m => ?_
  split
  · dsimp only
    split
    · split <;> simp [h]
    · simp [h]
  · dsimp only
    split <;> simp [h]

theorem execCopymShareAbandon_formed (h : s.mem.wf = true) (id team : Nat) : Formed (execCopymShareAbandon id team s) := by
  refine msgStep_formed h fun m => ?_
  split
  · simp [h]
  · exact h

theorem execFillb_formed (h : s.mem.wf = true) (id : Nat) : Formed (execFillb id s) := by
  refine msgStep_formed h fun m => ?_
  extract_lets u
  have hu : u.mem.wf = true := ite_mem_wf (State.beginning_mem_wf h m fun t ht => ht) h
  split
  · exact hu
  · rename_i m' _
    have ha := State.eachPart_arrayPart_mem_wf hu id (arrayParts (m'.addr 4) m'.len 0)
    refine ite_mem_wf hu ?_
    dsimp only
    split
    · exact ha
    · refine ite_mem_wf ha ?_
      rw [State.endMsg_mem, foldl_mem fun t g => t.fillWrite_mem ..]
      exact ha

theorem execScatr_formed (h : s.mem.wf = true) (id : Nat) : Formed (execScatr id s) := by
  refine msgStep_formed h fun m => ite_mem_wf h (State.beginning_mem_wf h m fun t ht => ?_)
  have ha := State.eachPart_arrayPart_mem_wf ht id (m.indexParts ++ m.operandParts)
  dsimp only
  split
  · exact ha
  · exact ite_mem_wf ha (ite_mem_wf (by simpa using ha) ha)

theorem execSparseTokenArrive_formed (h : s.mem.wf = true) (id pick : Nat) : Formed (execSparseTokenArrive id pick s) := formed_next
    (by simp [h])

theorem execMessageComplete_formed (h : s.mem.wf = true) (id : Nat) : Formed (execMessageComplete id s) := by
  have hs : (s.settleShares id).mem.wf = true := by simpa using h
  refine formed_next ?_
  split
  · exact h
  · refine ite_mem_wf hs (ite_mem_wf (by simpa using hs) ?_)
    split <;> rename_i he <;> simp [wf_of_fst (State.lineAt_mem_wf hs ..) he]

theorem execReplyMatch_formed (h : s.mem.wf = true) (w : WarpId) (idx : Nat) : Formed (execReplyMatch w idx s) := by
  unfold execReplyMatch
  split
  · split
    · exact execWaitr_formed (s := { s with cur := some (w, idx) }) h ..
    · exact h
  · exact h

theorem execColl_formed (h : s.mem.wf = true) (id : Nat) : Formed (execColl id s) := by
  refine msgStep_formed h fun m => ite_mem_wf h (State.groupRead_mem_wf h m fun t ht => ?_)
  extract_lets u
  have hu : u.mem.wf = true := ite_mem_wf (State.beginning_mem_wf ht m fun v hv => by simpa using hv) ht
  split
  · exact ite_mem_wf (State.runColl_mem_wf hu _) hu
  · exact hu

theorem execCollTimeout_formed (h : s.mem.wf = true) (id : Nat) : Formed (execCollTimeout id s) := by
  refine msgStep_formed h fun m => State.groupRead_mem_wf h _ fun t h => ?_
  split
  · simp [h]
  · exact h

theorem execCollectiveMemberJoin_formed (h : s.mem.wf = true) (ctx grp k rank : Nat) (op : W32) (count : Nat) (data : List W32) : Formed
    (execCollectiveMemberJoin ctx grp k rank op count data s) := formed_next (ite_mem_wf h (by simp [h]))

theorem execTtake_formed (h : s.mem.wf = true) (f : TakeF) : Formed (execTtake f s) := by
  refine firing_formed h fun x => ite_mem_wf h ?_
  split
  · split
    · simp [h]
    · exact h
  · split
    · simp [h]
    · dsimp only
      split <;> simp [h]

theorem execTgive_formed (h : s.mem.wf = true) (pr : Pr) (tid : BitVec 6) : Formed (execTgive pr tid s) := by
  refine firing_formed h fun x => ite_mem_wf h ?_
  dsimp only
  split <;> simp [h]

theorem execSdone_formed (h : s.mem.wf = true) (pr : Pr) (sum : Bool) (tid : BitVec 6) : Formed (execSdone pr sum tid s) :=
    firing_formed h fun x => ite_mem_wf h (by simp [h])

theorem execSrefu_formed (h : s.mem.wf = true) (pr : Pr) (tid : BitVec 6) : Formed (execSrefu pr tid s) := by
  refine firing_formed h fun x => ite_mem_wf h ?_
  split <;> simp [h]

theorem execBlockStart_formed (h : s.mem.wf = true) (w : WarpId) : Formed (execBlockStart w s) := by
  refine formed_next ?_
  split
  · refine ite_mem_wf h ?_
    split <;> simp [h]
  · exact h

theorem execPrefetchBlock_formed (h : s.mem.wf = true) (w : WarpId) (va : W64) : Formed (execPrefetchBlock w va s) := by
  refine formed_next ?_
  split
  · split
    · simp [h]
    · exact h
  · exact h

theorem execRowReturn_formed (h : s.mem.wf = true) (w : WarpId) (reg : Nat) : Formed (execRowReturn w reg s) := by
  refine formed_next ?_
  split
  · simp [h]
  · exact h

theorem execMma_formed (h : s.mem.wf = true) (f : MmaF) : Formed (execMma f s) := by
  refine firing_formed h fun x => ite_mem_wf (by simp [h]) (ite_mem_wf h ?_)
  split
  · simp [h]
  · refine ite_mem_wf (by simp [h]) ?_
    refine State.readLegend_mem_wf h _ _ fun t aw ht => State.readLegend_mem_wf ht _ _ fun u bw hu => ?_
    extract_lets b go
    have hgo : ∀ v mw, v.mem.wf = true → (go v mw).mem.wf = true := by
      intro v mw hv
      dsimp only [go]
      split <;> simp [hv]
    exact ite_mem_wf (State.readLegend_mem_wf hu _ _ fun v mw hv => hgo v mw hv) (hgo u [] hu)

theorem execMmaStart_formed (h : s.mem.wf = true) (id : Nat) : Formed (execMmaStart id s) := by
  unfold execMmaStart
  split
  · exact h
  · split
    · exact h
    · dsimp only
      split
      · split
        · refine formed_next ?_
          simp [h]
        · refine formed_next ?_
          simp [h]
      · refine formed_next ?_
        simp [h]

theorem execMmaComplete_formed (h : s.mem.wf = true) (id : Nat) : Formed (execMmaComplete id s) := by
  unfold execMmaComplete
  split
  · exact h
  · split
    · exact h
    · split
      · dsimp only
        split
        · exact foldl_mem_wf (by simp [h]) (fun t a ht => by simp [ht]) _
        · exact foldl_mem_wf (by simp [h]) (fun t a ht => by simp [ht]) _
        · exact foldl_mem_wf (by simp [h]) (fun t a ht => by simp [ht]) _
        · exact foldl_mem_wf (by simp [h]) (fun t a ht => by simp [ht]) _
        · split <;> exact foldl_mem_wf (by simp [h]) (fun t a ht => by simp [ht]) _
      · exact h

theorem execAzero_formed (h : s.mem.wf = true) (pr : Pr) (spl : Bool) (tid : BitVec 6) : Formed (execAzero pr spl tid s) := by
  refine firing_formed h fun x => ite_mem_wf h ?_
  split
  · simp [h]
  · dsimp only
    split
    · exact foldl_mem_wf h (fun _ _ ht => by exact ht) _
    · exact h

theorem execAgset_formed (h : s.mem.wf = true) (pr : Pr) (nb : Bool) (ag : BitVec 2) : Formed (execAgset pr nb ag s) :=
    firing_formed h fun x => by simp [h]

theorem execGang_formed (h : s.mem.wf = true) (pr : Pr) (base : BitVec 5) (mask : BitVec 24) : Formed (execGang pr base mask s) :=
    firing_formed h fun x => by simp [h]

theorem execAdrn_formed (h : s.mem.wf = true) (f : DrainF) : Formed (execAdrn f s) := by
  refine firing_formed h fun x => ite_mem_wf h ?_
  split
  · simp [h]
  · refine State.readLegend_mem_wf h _ _ fun t ew ht => ite_mem_wf (by simp [ht]) ?_
    split
    · exact ht
    · extract_lets els
      split
      · simp [ht]
      · split
        · simp [ht]
        · refine ite_mem_wf (State.drainIssue_mem_wf ?_ ..) ht
          exact foldl_takeRef_mem_wf (foldl_takeRef_mem_wf ht ..) ..

theorem execAload_formed (h : s.mem.wf = true) (pr : Pr) (img : Bool) (tid tds : BitVec 6) : Formed (execAload pr img tid tds s) := by
  refine firing_formed h fun x => ite_mem_wf h ?_
  split
  · simp [h]
  · refine State.readLegend_mem_wf h _ _ fun t ew ht => ite_mem_wf (by simp [ht]) ?_
    split
    · exact ht
    · extract_lets els
      split
      · simp [ht]
      · split
        · simp [ht]
        · refine ite_mem_wf (State.loadRows_mem_wf ?_ _ _ _ fun u bs hu => hu) ht
          exact foldl_takeRef_mem_wf (foldl_takeRef_mem_wf ht ..) ..

theorem execRegrel_formed (h : s.mem.wf = true) (pr : Pr) (first cntm : BitVec 8) : Formed (execRegrel pr first cntm s) :=
    firing_formed h fun x => by simp [h]

theorem execRegclm_formed (h : s.mem.wf = true) (pr : Pr) (t0 t1 : Tgt) : Formed (execRegclm pr t0 t1 s) := by
  refine firing_formed h fun x => ite_mem_wf h ?_
  dsimp only
  split
  · simp [h]
  · refine ite_mem_wf h ?_
    split
    · simp [h]
    · exact h

theorem execRegqry_formed (h : s.mem.wf = true) (pr : Pr) (q : RegQ) (t0 t1 : Tgt) : Formed (execRegqry pr q t0 t1 s) :=
    firing_formed h fun _ => h

theorem execBlockCommit_formed (h : s.mem.wf = true) (w : WarpId) : Formed (execBlockCommit w s) := by
  refine formed_next ?_
  split
  · simp [h]
  · exact h

theorem execStopRequest_formed (h : s.mem.wf = true) (core : Nat) (l : LaunchId) : Formed (execStopRequest core l s) := formed_next
    (by simp [h])

theorem placeTeams_getD_mem_wf (h : s.mem.wf = true) {u : State} (hu : u.mem.wf = true) (l : Launch)
    (ts : List (Nat × Option SavedTeam × List Nat)) : ((s.placeTeams l ts).getD u).mem.wf = true := by
  cases hp : s.placeTeams l ts with
  | none => exact hu
  | some t =>
    rw [Option.getD_some, State.placeTeams_mem l ts hp]
    exact h

theorem execTeamPlace_formed (h : s.mem.wf = true) (id : LaunchId) (core : Nat) : Formed (execTeamPlace id core s) := by
  refine formed_next ?_
  split
  · exact h
  · exact ite_mem_wf (placeTeams_getD_mem_wf h h _ _) h

theorem execTeamRetire_formed (h : s.mem.wf = true) (t : TeamId) : Formed (execTeamRetire t s) := by
  refine formed_next ?_
  split
  · exact h
  · simp [h]

theorem execLaunchComplete_formed (h : s.mem.wf = true) (l : LaunchId) : Formed (execLaunchComplete l s) := by
  refine formed_next ?_
  split
  · exact h
  · split
    · simp [h]
    · refine ite_mem_wf h ?_
      simp [h]

theorem execRecallQueued_formed (h : s.mem.wf = true) (core : Nat) : Formed (execRecallQueued core s) := by
  refine formed_next ?_
  split <;> exact h

theorem execSurrenderRoutineStart_formed (h : s.mem.wf = true) (w : WarpId) : Formed (execSurrenderRoutineStart w s) := by
  refine formed_next ?_
  split
  · exact h
  · dsimp only
    split
    · exact h
    · split <;> exact h

theorem execRoutineForcedEnd_formed (h : s.mem.wf = true) (w : WarpId) : Formed (execRoutineForcedEnd w s) := by
  refine formed_next ?_
  split
  · exact h
  · rename_i x _
    refine ite_mem_wf h ?_
    extract_lets u
    have hu : u.mem.wf = true := by simpa [u] using h
    split
    · extract_lets mine
      split
      · simpa using hu
      · refine ite_mem_wf hu ?_
        extract_lets gs v
        have hv : v.mem.wf = true := by simpa [v] using hu
        split
        · simpa using hv
        · rename_i rec' ps z written _ _
          have hz : z.mem.wf = true := by
            dsimp only [z]
            split
            · exact foldl_mem_wf hv (fun t p ht => State.saveLine_mem_wf ht ..) _
            · exact State.surrAppend_mem_wf hv ..
          exact ite_mem_wf (by simpa using hz) hz
      · exact hu
    · exact hu

theorem execYieldDeadlineExpiry_formed (h : s.mem.wf = true) (l : LaunchId) : Formed (execYieldDeadlineExpiry l s) := by
  refine formed_next ?_
  split
  · simp [h]
  · exact h

theorem execCheckpointSave_formed (h : s.mem.wf = true) (l : LaunchId) : Formed (execCheckpointSave l s) := by
  refine formed_next ?_
  split
  · refine ite_mem_wf h ?_
    dsimp only
    split <;> simp [h]
  · exact h

theorem execLaunchPacket_formed (h : s.mem.wf = true) (p : PktId) : Formed (execLaunchPacket p s) := by
  unfold execLaunchPacket
  split
  · refine formed_next ?_
    simp [h]
  · refine pktStep_formed h fun t k h => ?_
    refine formed_next ?_
    split
    · exact h
    · simp [h]

theorem execCopyPacket_formed (h : s.mem.wf = true) (p : PktId) : Formed (execCopyPacket p s) := by
  refine pktStep_formed h fun t k ht => ite_mem_wf (State.freezePkt_mem_wf ht ..) ?_
  have hf := foldl_mem_wf ht (fun u x hu => State.pktPart_mem_wf hu p x) k.copyParts
  dsimp only
  split
  · exact ite_mem_wf (by simpa using hf) hf
  · exact hf

theorem execWritemem_formed (h : s.mem.wf = true) (p : PktId) : Formed (execWritemem p s) := by
  refine pktStep_formed h fun t k h => ?_
  split
  · simp [h]
  · refine State.fwPage_mem_wf h _ _ _ fun t pa h => ?_
    simp [h]

theorem execWaitmem_formed (h : s.mem.wf = true) (p : PktId) : Formed (execWaitmem p s) := pktStep_formed h fun t k h => by simp [h]

theorem execWaitmemReread_formed (h : s.mem.wf = true) (p : PktId) : Formed (execWaitmemReread p s) := by
  refine formed_next ?_
  split
  · refine ite_mem_wf h ?_
    simp [h]
  · exact h

theorem execTokenPacket_formed (h : s.mem.wf = true) (p : PktId) : Formed (execTokenPacket p s) := pktStep_formed h fun t k h => by simp [h]

theorem execFencePacket_formed (h : s.mem.wf = true) (p : PktId) : Formed (execFencePacket p s) := pktStep_formed h fun _ _ h => h

theorem execPacketComplete_formed (h : s.mem.wf = true) (p : PktId) : Formed (execPacketComplete p s) := by
  refine formed_next ?_
  split
  · simp [h]
  · exact h

theorem execPacketPop_formed (h : s.mem.wf = true) (ctx queue : Nat) : Formed (execPacketPop ctx queue s) := by
  refine formed_next ?_
  split
  · exact h
  · refine ite_mem_wf h (State.ringRead_mem_wf h _ _ _ _ fun t ht => ?_)
    exact ite_mem_wf (State.freeze_mem_wf ht ..) (ite_mem_wf ht (State.ringRead_mem_wf ht _ _ _ _ fun u hu => State.popWhole_mem_wf hu ..))

theorem execIssueClock_formed (h : s.mem.wf = true) (core : Nat) : Formed (execIssueClock core s) := formed_next (by simp [h])

theorem execUrgencyEvaluation_formed (h : s.mem.wf = true) (t : TeamId) : Formed (execUrgencyEvaluation t s) := h

theorem execPowerRateSet_formed (h : s.mem.wf = true) (core quarters depth : Nat) : Formed (execPowerRateSet core quarters depth s) :=
    formed_next (by simp [h])

theorem execPoolScrub_formed (h : s.mem.wf = true) (w : WarpId) (reg : Nat) : Formed (execPoolScrub w reg s) := by
  refine formed_next ?_
  split
  · exact h
  · simp [h]

theorem execCodeRegionReload_formed (h : s.mem.wf = true) (g : Granule) : Formed (execCodeRegionReload g s) := formed_next (by simp [h])

theorem execFlitReplay_formed (h : s.mem.wf = true) (port fails pa : Nat) : Formed (execFlitReplay port fails pa s) := by
  refine formed_next (ite_mem_wf h ?_)
  extract_lets off u
  have hu : u.mem.wf = true := by
    rw [foldl_mem fun t _ => t.bump_mem ..]
    exact h
  exact ite_mem_wf hu (by simpa using hu)

theorem execFrozenMaster_formed (h : s.mem.wf = true) (m : Master) : Formed (execFrozenMaster m s) := by
  refine formed_next (ite_mem_wf h (foldl_mem_wf ?_ (fun t a ht => ?_) _))
  · exact h
  · exact ht

theorem execHaltRaise_formed (h : s.mem.wf = true) : Formed (execHaltRaise s) := formed_next (by simp [h])

theorem execUnitStop_formed (h : s.mem.wf = true) (part : Nat) (m : Master) : Formed (execUnitStop part m s) := by
  refine formed_next ?_
  split
  · exact h
  · refine ite_mem_wf h ?_
    split
    · simp [h]
    · exact h

theorem execHaltFlush_formed (h : s.mem.wf = true) (part : Nat) : Formed (execHaltFlush part s) := by
  refine formed_next ?_
  split
  · exact h
  · refine ite_mem_wf h ?_
    refine foldl_mem_wf (State.flushDies_mem_wf h _) (fun t c ht => ?_) _
    refine State.freezeAll_mem_wf ?_ ..
    rw [State.discardCtx_mem]
    exact foldl_mem_wf ht (fun u m hu => State.stoppedRecord_mem_wf hu m) _

theorem execSoftError_formed (h : s.mem.wf = true) (g : Granule) (double : Bool) : Formed (execSoftError g double s) := formed_next
    (ite_mem_wf h (by simp [h]))

theorem execMemoryTrainingComplete_formed (h : s.mem.wf = true) : Formed (execMemoryTrainingComplete s) := h

theorem execLinkEqualisationComplete_formed (h : s.mem.wf = true) : Formed (execLinkEqualisationComplete s) := h

theorem execNativeCodeCacheEviction_formed (h : s.mem.wf = true) (core ctx : Nat) (va : W64) : Formed
    (execNativeCodeCacheEviction core ctx va s) := h

theorem execDoorbell_formed (h : s.mem.wf = true) (ctx queue : Nat) (off : W64) : Formed (execDoorbell ctx queue off s) :=
    hostStep_formed h (by simp [h])

theorem execHostPostedWrite_formed (h : s.mem.wf = true) (off : Nat) (bytes : List W8) (attr : TlpAttr) : Formed
    (execHostPostedWrite off bytes attr s) := hostStep_formed h (by simp [h])

theorem execRouteAcknowledge_formed (h : s.mem.wf = true) (id die : Nat) : Formed (execRouteAcknowledge id die s) := by
  refine formed_next ?_
  split
  · exact h
  · split
    · refine letIn_mem_wf _ ?_
      exact foldl_mem_wf h (fun t q ht => State.tlpWrite_mem_wf ht ..) _
    · exact h

theorem execHostRead_formed (h : s.mem.wf = true) (off len : Nat) : Formed (execHostRead off len s) := hostStep_formed h (by simp [h])

theorem execHostAtomicop_formed (h : s.mem.wf = true) (op : HostAop) (wide : Bool) (off : Nat) (a b : W64) : Formed
    (execHostAtomicop op wide off a b s) := hostStep_formed h (ite_mem_wf h (by simp [h]))

theorem execFunctionLevelReset_formed (h : s.mem.wf = true) : Formed (execFunctionLevelReset s) := h

theorem execFirmwareEventTake_formed (h : s.mem.wf = true) (fw : Nat) : Formed (execFirmwareEventTake fw s) := formed_next
    (ite_mem_wf h (by simp [h]))

theorem execCounterRead_formed (h : s.mem.wf = true) (off : Nat) : Formed (execCounterRead off s) := by
  refine hostStep_formed h ?_
  split
  · exact h
  · dsimp only
    split <;> simp [h]

theorem execRegisterWrite_formed (h : s.mem.wf = true) (off : Nat) (val : W64) : Formed (execRegisterWrite off val s) := by
  refine hostStep_formed h ?_
  split
  · simp [h]
  · split <;> simp [h]

theorem execCtxset_formed (h : s.mem.wf = true) : Formed (execCtxset s) := by
  refine command_formed h ?_
  dsimp only
  split
  · exact h
  · split
    · simp [h]
    · split
      · simp [h]
      · split
        · simp [h]
        · split <;> simp [h]

theorem execQset_formed (h : s.mem.wf = true) : Formed (execQset s) := by
  refine command_formed h ?_
  split
  split
  · exact h
  · split
    · exact h
    · split
      · exact h
      · simp [h]

theorem execQreset_formed (h : s.mem.wf = true) : Formed (execQreset s) := by
  refine command_formed h ?_
  split
  split
  · split
    · exact h
    · simp [h]
  · exact h

theorem execQresume_formed (h : s.mem.wf = true) : Formed (execQresume s) := by
  refine command_formed h ?_
  split
  · split
    · exact h
    · simp [h]
  · exact h

theorem execTlbinv_formed (h : s.mem.wf = true) : Formed (execTlbinv s) := by
  refine command_formed h ?_
  split
  dsimp only
  split <;> exact h

theorem execFresume_formed (h : s.mem.wf = true) : Formed (execFresume s) := by
  refine command_formed h (foldl_mem_wf ?_ (fun s a h => ?_) _)
  · exact foldl_mem_wf h (fun _ _ ht => by exact ht) _
  · simp [h]

theorem execFdeny_formed (h : s.mem.wf = true) : Formed (execFdeny s) := command_formed h (by simp [h])

theorem execCodeinv_formed (h : s.mem.wf = true) : Formed (execCodeinv s) := by
  refine command_formed h ?_
  split
  split <;> exact h

theorem execHaltrel_formed (h : s.mem.wf = true) : Formed (execHaltrel s) := by
  refine command_formed h ?_
  dsimp only
  split
  · exact h
  · split
    · exact h
    · split
      · exact h
      · simp [h]

theorem execPartset_formed (h : s.mem.wf = true) : Formed (execPartset s) := by
  refine command_formed h ?_
  dsimp only
  split
  · exact h
  · simp [h]

theorem execPartreset_formed (h : s.mem.wf = true) : Formed (execPartreset s) := by
  refine command_formed h ?_
  dsimp only
  split
  · exact h
  · rw [foldl_mem fun t c => t.reopen_mem c]
    change Mem.wf (State.mem (List.foldl _ _ _)) = true
    rw [foldl_mem fun t (y : L1Line) => t.dropL1_mem y.core y.line]
    refine foldl_mem_wf (State.flushDies_mem_wf (foldl_mem_wf h (fun t c ht => State.stopCore_mem_wf ht c) _) _) (fun t c ht => ?_) _
    refine State.freezeAll_mem_wf ?_ ..
    simpa using ht

theorem execActivate_formed (h : s.mem.wf = true) : Formed (execActivate s) := by
  refine command_formed h ?_
  dsimp only
  have hf : (s.sysFix (s.mail 1) (s.mail 2)).mem.wf = true := by simpa using h
  refine ite_fst_mem_wf h (ite_fst_mem_wf h (ite_fst_mem_wf (by simpa using hf) (ite_fst_mem_wf hf (ite_fst_mem_wf hf ?_))))
  have hr : ∀ ws : List (Nat × Nat),
      (ws.foldl (fun t p => t.readFor p.1 5 t.cmdCore p.2 8) (s.sysFix (s.mail 1) (s.mail 2))).mem.wf = true :=
    fun ws => foldl_mem_wf hf (fun t p ht => by simpa using ht) ws
  exact ite_fst_mem_wf (hr _) (ite_fst_mem_wf (hr _) (hr _))

theorem execService_formed (h : s.mem.wf = true) : Formed (execService s) := by
  refine command_formed h ?_
  split
  · exact h
  · split
    · exact h
    · simp [h]

theorem execDeviceReset_formed (h : s.mem.wf = true) : Formed (execDeviceReset s) := h

theorem execNullSlot_formed (h : s.mem.wf = true) (u : Bool) (ss : BitVec 5) : Formed (execNullSlot u ss s) := firing_formed h fun _ => h

theorem execLd_formed (h : s.mem.wf = true) (f : MemF) : Formed (execLd f s) := firing_formed h fun x => by simp [h]

theorem execSt_formed (h : s.mem.wf = true) (f : MemF) : Formed (execSt f s) :=
    firing_formed h fun _ => State.access_mem_wf h _ _ _ _ _ _ fun _ _ h => h

theorem execLds_formed (h : s.mem.wf = true) (f : MemF) : Formed (execLds f s) := by
  refine firing_formed h fun x => State.spadAccess_mem_wf h _ _ _ _ _ fun t h => ?_
  dsimp only
  split <;> simp [h]

theorem execSts_formed (h : s.mem.wf = true) (f : MemF) : Formed (execSts f s) :=
    firing_formed h fun _ => State.spadAccess_mem_wf h _ _ _ _ _ fun _ h => h

theorem execLdk_formed (h : s.mem.wf = true) (f : MemF) : Formed (execLdk f s) := firing_formed h fun x => by simp [h]

theorem execModset_formed (h : s.mem.wf = true) (pr : Pr) (m : BitVec 3) (imm : Option (BitVec 24)) : Formed (execModset pr m imm s) :=
    firing_formed h fun x => by simp [h]

theorem execLineEviction_formed (h : s.mem.wf = true) (die : Nat) (core : Option Nat) (line : Nat) : Formed
    (execLineEviction die core line s) := by
  refine formed_next ?_
  split
  · simp [h]
  · split <;> simp [h]

theorem execPushApply_formed (h : s.mem.wf = true) (die line : Nat) : Formed (execPushApply die line s) := formed_next (by simp [h])

theorem execNeighbourEntryArrive_formed (h : s.mem.wf = true) (id : Nat) : Formed (execNeighbourEntryArrive id s) := by
  refine formed_next ?_
  split
  · exact h
  · refine ite_mem_wf h ?_
    dsimp only
    split <;> exact h

theorem execAtomicReply_formed (h : s.mem.wf = true) (id : Nat) : Formed (execAtomicReply id s) := by
  refine formed_next ?_
  split
  · exact h
  · simp [h]

theorem execLaunchResume_formed (h : s.mem.wf = true) (id : LaunchId) (core : Nat) : Formed (execLaunchResume id core s) := by
  refine formed_next ?_
  split
  · exact h
  · refine ite_mem_wf h ?_
    extract_lets reads r
    have hr : r.mem.wf = true := foldl_sysFix_mem_wf h reads
    split
    · simpa using hr
    · refine ite_mem_wf h (placeTeams_getD_mem_wf ?_ h _ _)
      exact hr

/-- No meaning of an instruction or of an event takes memory out of its canonical form. -/
theorem exec_formed (h : s.mem.wf = true) (i : Instr) : Formed (exec i s) := by
  cases i with
  | br => exact control_formed h
  | brc => exact control_formed h
  | brx => exact control_formed h
  | call => exact control_formed h
  | ret => exact control_formed h
  | exit => exact control_formed h
  | yield => exact control_formed h
  | trap => exact control_formed h
  | bkpt => exact control_formed h
  | null => exact pure_formed h
  | nullSlot => exact execNullSlot_formed h ..
  | mov => exact pure_formed h
  | movi => exact pure_formed h
  | getsr => exact pure_formed h
  | sel => exact pure_formed h
  | add => exact pure_formed h
  | sub => exact pure_formed h
  | mul => exact pure_formed h
  | mulh => exact pure_formed h
  | mad => exact pure_formed h
  | div => exact pure_formed h
  | rem => exact pure_formed h
  | min => exact pure_formed h
  | max => exact pure_formed h
  | abs => exact pure_formed h
  | neg => exact pure_formed h
  | and => exact pure_formed h
  | or => exact pure_formed h
  | xor => exact pure_formed h
  | andn => exact pure_formed h
  | not => exact pure_formed h
  | shl => exact pure_formed h
  | shr => exact pure_formed h
  | sar => exact pure_formed h
  | rol => exact pure_formed h
  | clz => exact pure_formed h
  | popc => exact pure_formed h
  | brev => exact pure_formed h
  | bfx => exact pure_formed h
  | bfi => exact pure_formed h
  | cmp => exact pure_formed h
  | lea => exact pure_formed h
  | pk2 => exact pure_formed h
  | exh => exact pure_formed h
  | hop => exact pure_formed h
  | dp4 => exact pure_formed h
  | ld => exact execLd_formed h ..
  | st => exact execSt_formed h ..
  | lds => exact execLds_formed h ..
  | sts => exact execSts_formed h ..
  | ldk => exact execLdk_formed h ..
  | modset => exact execModset_formed h ..
  | fadd => exact pure_formed h
  | fsub => exact pure_formed h
  | fmul => exact pure_formed h
  | ffma => exact pure_formed h
  | fmin => exact pure_formed h
  | fmax => exact pure_formed h
  | fsgn => exact pure_formed h
  | fcmp => exact pure_formed h
  | frcp => exact pure_formed h
  | frsq => exact pure_formed h
  | ftrn => exact pure_formed h
  | fscl => exact pure_formed h
  | fcls => exact pure_formed h
  | cvt => exact pure_formed h
  | fdiv => exact pure_formed h
  | fop2 => exact pure_formed h
  | qmax => exact pure_formed h
  | qcvt => exact pure_formed h
  | dqcv => exact pure_formed h
  | shfl => exact pure_formed h
  | vote => exact pure_formed h
  | bcst => exact pure_formed h
  | scan => exact pure_formed h
  | wred => exact pure_formed h
  | fsend => exact execFsend_formed h ..
  | frecv => exact execFrecv_formed h ..
  | fpeek => exact execFpeek_formed h ..
  | atom => exact execAtom_formed h ..
  | fence => exact execFence_formed h ..
  | fencex => exact execFencex_formed h ..
  | pref => exact execPref_formed h ..
  | cctl => exact execCctl_formed h ..
  | regrel => exact execRegrel_formed h ..
  | regclm => exact execRegclm_formed h ..
  | regqry => exact execRegqry_formed h ..
  | bararv => exact execBararv_formed h ..
  | barwt => exact execBarwt_formed h ..
  | barsyn => exact execBarsyn_formed h ..
  | ttake => exact execTtake_formed h ..
  | tgive => exact execTgive_formed h ..
  | sdone => exact execSdone_formed h ..
  | srefu => exact execSrefu_formed h ..
  | tarm => exact formed_execTarm h ..
  | tstat => exact execTstat_formed h ..
  | tclr => exact execTclr_formed h ..
  | mma => exact execMma_formed h ..
  | azero => exact execAzero_formed h ..
  | adrn => exact execAdrn_formed h ..
  | aload => exact execAload_formed h ..
  | agset => exact execAgset_formed h ..
  | gang => exact execGang_formed h ..
  | tdset => exact execTdset_formed h ..
  | tdget => exact execTdget_formed h ..
  | send => exact execSend_formed h ..
  | waitr => exact execWaitr_formed h ..
  | pollr => exact execPollr_formed h ..
  | blockStart => exact execBlockStart_formed h ..
  | prefetchBlock => exact execPrefetchBlock_formed h ..
  | blockCommit => exact execBlockCommit_formed h ..
  | rowReturn => exact execRowReturn_formed h ..
  | stopRequest => exact execStopRequest_formed h ..
  | copyBegin => exact execCopyBegin_formed h ..
  | copyComplete => exact execCopyComplete_formed h ..
  | overlayFillBegin => exact execOverlayFillBegin_formed h ..
  | overlayFillComplete => exact execOverlayFillComplete_formed h ..
  | mmaComplete => exact execMmaComplete_formed h ..
  | mmaStart => exact execMmaStart_formed h ..
  | powerRateSet => exact execPowerRateSet_formed h ..
  | neighbourEntryArrive => exact execNeighbourEntryArrive_formed h ..
  | atomicReply => exact execAtomicReply_formed h ..
  | issueClock => exact execIssueClock_formed h ..
  | urgencyEvaluation => exact execUrgencyEvaluation_formed h ..
  | poolScrub => exact execPoolScrub_formed h ..
  | codeRegionReload => exact execCodeRegionReload_formed h ..
  | flitReplay => exact execFlitReplay_formed h ..
  | frozenMaster => exact execFrozenMaster_formed h ..
  | lineEviction => exact execLineEviction_formed h ..
  | pushApply => exact execPushApply_formed h ..
  | sparseTokenArrive => exact execSparseTokenArrive_formed h ..
  | copyMessage => exact execCopyMessage_formed h ..
  | copym => exact execCopym_formed h ..
  | copymShareAbandon => exact execCopymShareAbandon_formed h ..
  | fillb => exact execFillb_formed h ..
  | scatr => exact execScatr_formed h ..
  | gathr => exact execGathr_formed h ..
  | coll => exact execColl_formed h ..
  | collTimeout => exact execCollTimeout_formed h ..
  | messageComplete => exact execMessageComplete_formed h ..
  | replyMatch => exact execReplyMatch_formed h ..
  | teamPlace => exact execTeamPlace_formed h ..
  | teamRetire => exact execTeamRetire_formed h ..
  | launchComplete => exact execLaunchComplete_formed h ..
  | recallQueued => exact execRecallQueued_formed h ..
  | surrenderRoutineStart => exact execSurrenderRoutineStart_formed h ..
  | routineForcedEnd => exact execRoutineForcedEnd_formed h ..
  | launchPacket => exact execLaunchPacket_formed h ..
  | yieldDeadlineExpiry => exact execYieldDeadlineExpiry_formed h ..
  | checkpointSave => exact execCheckpointSave_formed h ..
  | launchResume => exact execLaunchResume_formed h ..
  | copyPacket => exact execCopyPacket_formed h ..
  | writemem => exact execWritemem_formed h ..
  | waitmem => exact execWaitmem_formed h ..
  | waitmemReread => exact execWaitmemReread_formed h ..
  | tokenPacket => exact execTokenPacket_formed h ..
  | fencePacket => exact execFencePacket_formed h ..
  | packetPop => exact execPacketPop_formed h ..
  | packetComplete => exact execPacketComplete_formed h ..
  | firmwareEventTake => exact execFirmwareEventTake_formed h ..
  | doorbell => exact execDoorbell_formed h ..
  | hostPostedWrite => exact execHostPostedWrite_formed h ..
  | routeAcknowledge => exact execRouteAcknowledge_formed h ..
  | hostRead => exact execHostRead_formed h ..
  | hostAtomicop => exact execHostAtomicop_formed h ..
  | functionLevelReset => exact execFunctionLevelReset_formed h
  | counterRead => exact execCounterRead_formed h ..
  | registerWrite => exact execRegisterWrite_formed h ..
  | ctxset => exact execCtxset_formed h
  | qset => exact execQset_formed h
  | qreset => exact execQreset_formed h
  | qresume => exact execQresume_formed h
  | tlbinv => exact execTlbinv_formed h
  | fresume => exact execFresume_formed h
  | fdeny => exact execFdeny_formed h
  | codeinv => exact execCodeinv_formed h
  | haltrel => exact execHaltrel_formed h
  | partset => exact execPartset_formed h
  | partreset => exact execPartreset_formed h
  | activate => exact execActivate_formed h
  | service => exact execService_formed h
  | deviceReset => exact execDeviceReset_formed h
  | haltRaise => exact execHaltRaise_formed h
  | unitStop => exact execUnitStop_formed h ..
  | haltFlush => exact execHaltFlush_formed h ..
  | softError => exact execSoftError_formed h ..
  | memoryTrainingComplete => exact execMemoryTrainingComplete_formed h
  | linkEqualisationComplete => exact execLinkEqualisationComplete_formed h
  | collectiveMemberJoin => exact execCollectiveMemberJoin_formed h ..
  | nativeCodeCacheEviction => exact execNativeCodeCacheEviction_formed h ..

theorem afterIssue_formed (w : WarpId) {o : Host.Outcome State Fault Refusal} (h : Formed o) : Formed (afterIssue w o) := by
  cases o with
  | next t => simpa [afterIssue, Formed] using h
  | fault => trivial
  | refused => trivial

theorem runEvent_formed (h : s.mem.wf = true) (i : Instr) : Formed (runEvent i s) := by
  unfold runEvent
  split
  · exact h
  · exact exec_formed h i

/-- A step runs an instruction or an event from the same memory. -/
theorem step_formed (h : s.mem.wf = true) : Formed (step s) := by
  unfold step
  split
  · split
    · exact afterIssue_formed _ (exec_formed (s := { s with cur := some _, issue := _ }) h _)
    · exact h
  · split
    · exact runEvent_formed (s := { s with agenda := _, cur := none }) h _
    · exact runEvent_formed (s := { s with tick := s.tick + 1, cur := none }) h _

/-- Settles O60: every writer of the model goes through the contents' `write`, which keeps the canonical form. -/
theorem stepsKeepMemoryForm : Obligations.StepsKeepMemoryForm := by
  intro s s' h hs
  have hf : Formed (step s) := step_formed h
  rwa [hs] at hf

end Sys2Proof.Machine
end

section
/-! SUPPORT. The commands on contexts, queues, translations and faults (R372 to R374). -/
namespace Sys2Proof.Machine

variable {s : State} {op : Nat}

/-- The state after a command's meaning and the STATUS it gives, if it gives one yet. -/
def answered : State × Option W8 → State
  | (t, some st) => t.answer st
  | (t, none) => t

@[simp] theorem answered_some (t : State) (st : W8) : answered (t, some st) = t.answer st := rfl

@[simp] theorem answered_none (t : State) : answered (t, none) = t := rfl

/-- A command in progress answers with what its meaning says (R372). -/
theorem command_given (h : CommandGiven s op) (f : State → State × Option W8) : s.command op f = .next (answered (f s)) := by
  obtain ⟨hr, ho, hz, hh⟩ := h
  rw [State.command, if_neg (by rw [hr, ho, hh]; simp), if_neg (by rw [hz]; simp)]
  rfl

theorem ctxBusy_iff (s : State) (ctx : Nat) : s.ctxBusy ctx = true ↔
    ∃ l ∈ s.launches, l.id.ctx = ctx ∧ (s.resident l.id = true ∨ l.phase = .saved ∨ l.saved ≠ []) := by
  simp [State.ctxBusy, or_assoc]

/-- What CTXSET reads of the state besides memory is as it was before the errors it read over were corrected. -/
theorem sysFix_command (s : State) (pa n : Nat) : (s.sysFix pa n).cmdCtx = s.cmdCtx ∧ (s.sysFix pa n).cmdPart = s.cmdPart ∧
    (∀ c, (s.sysFix pa n).ctxBusy c = s.ctxBusy c) ∧ ∀ p, (s.sysFix pa n).partDies p = s.partDies p :=
  have hs := s.sysFix_step pa n
  ⟨hs.same State.cmdCtx fun _ => rfl, hs.same State.cmdPart fun _ => rfl, fun c => hs.same (State.ctxBusy · c) fun _ => rfl,
    fun p => hs.same (State.partDies · p) fun _ => rfl⟩

theorem ctxset_given (h : CommandGiven s 1) (hp : placed (s.mail 1) 128 = true) (hm : s.sysMark (s.mail 1) 128 = none)
    (hb : blockOk (fun i => leNat (((s.sysFix (s.mail 1) 128)).sysRead (s.mail 1 + 8 * i) 8)) = true) :
    let u := s.sysFix (s.mail 1) 128
    let w (i : Nat) : Nat := leNat (u.sysRead (s.mail 1 + 8 * i) 8)
    exec .ctxset s = .next (if s.ctxBusy s.cmdCtx then u.answer 2 else if s.partDies s.cmdPart = [] then u.answer (Config.openStatus 1) else
      ({ u with ctxs := (u.ctxs.filter fun x => x.num != s.cmdCtx) ++ [u.ctxOf s.cmdCtx s.cmdPart w] } : State).answer 0) := by
  intro u w
  obtain ⟨hc, hpt, hbusy, hdies⟩ := sysFix_command s (s.mail 1) 128
  change execCtxset s = _
  rw [execCtxset, command_given h]
  simp only [hp, hm, hc, hpt, hbusy, hdies, hb, List.isEmpty_iff, Bool.not_true, Option.isSome_none, Bool.false_eq_true, if_false]
  by_cases h1 : s.ctxBusy s.cmdCtx = true
  · simp [h1, u]
  · by_cases h2 : s.partDies s.cmdPart = []
    · simp [h1, h2, openSt, u]
    · simp [h1, h2, u, w]

theorem qset_given (h : CommandGiven s 2) {j : Nat} (hb : s.mail 1 % 4096 = 0) (hst : s.mail 3 % 64 = 0) (hj : j < 13)
    (hz : s.mail 2 = 2 ^ (12 + j)) (hp : placed (s.mail 1) (s.mail 2) = true) (hps : placed (s.mail 3) 64 = true)
    (hc : (s.ctx? s.cmdCtx).isSome = true) (hq : s.queue? s.cmdCtx s.cmdQueue = none) :
    let q : Queue := { num := s.cmdQueue, base := s.mail 1, size := s.mail 2, status := s.mail 3, wr := 0, rd := 0, pops := 0
                       frozen := false, tokens := 0, window := [], evals := 0, eval := 0 }
    exec .qset s = .next (((s.setCtx s.cmdCtx fun x => { x with queues := x.queues ++ [q] }).writeStatus q).answer 0) := by
  intro q
  have hany : ((List.range 13).any fun k => s.mail 2 == 2 ^ (12 + k)) = true :=
    List.any_eq_true.mpr ⟨j, by simpa using hj, by simpa using hz⟩
  change execQset s = _
  rw [execQset, command_given h]
  have hn : (s.ctx? s.cmdCtx).isNone = false := by simpa using hc
  simp only [hb, hst, hp, hps, hany, hn, hq, beq_self_eq_true, Bool.and_self, Bool.not_true, Option.isSome_none, Bool.false_eq_true,
    if_false, answered_some, q]

/-- What is found in a list whose every member of that kind was updated, and stays of the kind. -/
theorem find?_map_update {α : Type} {p : α → Bool} {g : α → α} (hg : ∀ y, p y = true → p (g y) = true) (l : List α) :
    (l.map fun y => if p y then g y else y).find? p = (l.find? p).map g := by
  induction l with
  | nil => rfl
  | cons y l ih =>
    cases hy : p y with
    | true => simp [hy, hg y hy]
    | false => simpa [hy] using ih

/-- The new queue of a `setQueue` is found at its number. -/
theorem queue?_setQueue {c n : Nat} {q r : Queue} (hq : s.queue? c n = some q) (hr : r.num = n) :
    (s.setQueue c n fun _ => r).queue? c n = some r := by
  obtain ⟨x, hx, hf⟩ := Option.bind_eq_some_iff.mp hq
  have hctx : (s.setQueue c n fun _ => r).ctx? c = (s.ctx? c).map fun x =>
      { x with queues := x.queues.map fun y => if y.num == n then r else y } := by
    refine find?_map_update (p := fun y : Ctx => y.num == c) (fun y hy => ?_) s.ctxs
    exact hy
  rw [State.queue?, hctx, hx, Option.map_some, Option.bind_some, find?_map_update (fun _ _ => by simpa using hr), hf, Option.map_some]

theorem queue?_num {c n : Nat} {q : Queue} (hq : s.queue? c n = some q) : q.num = n := by
  obtain ⟨x, _, hf⟩ := Option.bind_eq_some_iff.mp hq
  simpa using List.find?_some hf

theorem queue?_writeStatus (s : State) (q : Queue) (c n : Nat) : (s.writeStatus q).queue? c n = s.queue? c n :=
  (s.sysWrite_step _ _).same (State.queue? · c n) fun _ => rfl

theorem queue?_answer (s : State) (st : W8) (c n : Nat) : (s.answer st).queue? c n = s.queue? c n := rfl

theorem qreset_given {q : Queue} (h : CommandGiven s 3) (hq : s.queue? s.cmdCtx s.cmdQueue = some q) (hf : q.frozen = true) :
    ∃ t, exec .qreset s = .next t ∧ t.host.status = 0 ∧ t.host.ring = 0 ∧
      t.queue? s.cmdCtx s.cmdQueue = some { q with wr := 0, rd := 0, pops := 0, frozen := false, tokens := 0, window := [] } := by
  change ∃ t, execQreset s = _ ∧ _
  rw [execQreset, command_given h]
  simp only [hq, hf, Bool.not_true, Bool.false_eq_true, if_false, answered_some]
  refine ⟨_, rfl, rfl, rfl, ?_⟩
  have hn : q.num = s.cmdQueue := queue?_num hq
  rw [queue?_answer, queue?_writeStatus]
  exact queue?_setQueue (s := { s with launches := _, faultQ := _ }) hq hn

theorem qresume_given {q : Queue} (h : CommandGiven s 4) (hq : s.queue? s.cmdCtx s.cmdQueue = some q) (hf : q.frozen = true) :
    exec .qresume s = .next ((((s.setQueue s.cmdCtx s.cmdQueue fun _ => { q with frozen := false }).writeState
      { q with frozen := false }).event (.tokens s.cmdCtx s.cmdQueue)).answer 0) := by
  change execQresume s = _
  rw [execQresume, command_given h]
  simp only [hq, hf, Bool.not_true, Bool.false_eq_true, if_false, answered_some]

/-- The accesses that TLBINV waits for (R373, log 69). -/
def tlbinvHeld (s : State) (named : List TlbEnt) (a : Nat) : Prop :=
  (a / 65536 * 65536 < s.mail 1 + s.mail 2 ∧ s.mail 1 < (a / 65536 + 1) * 65536) ∨ ∃ e ∈ named, e.covers s.cmdCtx a = true

theorem tlbinv_given (h : CommandGiven s 5) :
    let hit (e : TlbEnt) : Bool := e.inRange s.cmdCtx (s.mail 1) (s.mail 2)
    let named := (s.cores.flatMap fun k => k.tlb.filter hit) ++ ((s.tlb2.filter fun p => hit p.2).map fun p => p.2) ++ s.past.filter hit
    ((∀ a ∈ s.heldAt s.cmdCtx, ¬ tlbinvHeld s named a) → exec .tlbinv s = .next (({ s with
        cores := s.cores.map fun k => { k with tlb := k.tlb.filter fun e => !hit e }
        tlb2 := s.tlb2.filter fun p => !hit p.2
        past := s.past.filter fun e => !hit e } : State).answer 0)) ∧
      ((∃ a ∈ s.heldAt s.cmdCtx, tlbinvHeld s named a) → exec .tlbinv s = .next s) := by
  intro hit named
  have hany : ((s.heldAt s.cmdCtx).any fun a =>
      (a / 65536 * 65536 < s.mail 1 + s.mail 2 && s.mail 1 < (a / 65536 + 1) * 65536 : Bool) ||
        named.any fun e => e.covers s.cmdCtx a) = true ↔ ∃ a ∈ s.heldAt s.cmdCtx, tlbinvHeld s named a := by
    simp [tlbinvHeld]
  change (_ → execTlbinv s = _) ∧ (_ → execTlbinv s = _)
  rw [execTlbinv, command_given h]
  constructor
  · intro hno
    have : ¬ _ := mt hany.mp (by simpa using hno)
    exact congrArg _ (by simp only [named, hit] at this; simp only [this, Bool.false_eq_true, if_false, answered_some, hit])
  · intro hsome
    have := hany.mpr hsome
    exact congrArg _ (by simp only [named, hit] at this; simp only [this, if_true, answered_none])

theorem codeinv_given (h : CommandGiven s 8)
    (hu : ∀ l ∈ s.launches, l.id.ctx = s.cmdCtx → s.usesCode l (s.mail 1) (s.mail 2) = false) :
    exec .codeinv s = .next (({ s with cores := s.cores.map fun k => { k with code := k.code.filter fun e =>
        !(e.ctx == s.cmdCtx && e.va.toNat < s.mail 1 + s.mail 2 && s.mail 1 < e.va.toNat + 8 * e.words.length) } } : State).answer 0) := by
  change execCodeinv s = _
  have hno : (s.launches.any fun l => l.id.ctx == s.cmdCtx && s.usesCode l (s.mail 1) (s.mail 2)) = false := by
    simpa using hu
  rw [execCodeinv, command_given h]
  simp only [hno, Bool.false_eq_true, if_false, answered_some]

/-! ### Warps that leave a page fault -/

/-- `t` holds no warp parked and no line kept for a fault that `s` does not hold so. -/
def Eases (s t : State) : Prop :=
  t.faultQ ⊆ s.faultQ ∧ ∀ x ∈ t.warps, ∀ k l a, x.phase = .parked k l a → ∃ y ∈ s.warps, y.id = x.id ∧ y.phase = .parked k l a

theorem Eases.refl (s : State) : Eases s s := ⟨List.Subset.refl _, fun x hx _ _ _ hp => ⟨x, hx, rfl, hp⟩⟩

theorem Eases.trans {s t u : State} (h : Eases s t) (k : Eases t u) : Eases s u := by
  refine ⟨fun _ hp => h.1 (k.1 hp), fun x hx n l a hp => ?_⟩
  obtain ⟨y, hy, hid, hyp⟩ := k.2 x hx n l a hp
  obtain ⟨z, hz, hzid, hzp⟩ := h.2 y hy n l a hyp
  exact ⟨z, hz, hzid.trans hid, hzp⟩

theorem Eases.foldl {α : Type} {f : State → α → State} (h : ∀ s a, Eases s (f s a)) (l : List α) (s : State) : Eases s (l.foldl f s) :=
  foldl_keeps (Eases s) f (fun t a ht => ht.trans (h t a)) l s (.refl s)

/-- What changes neither the warps nor the lines kept for a fault. -/
theorem Eases.of_same {t : State} (hq : t.faultQ = s.faultQ) (hw : t.warps = s.warps) : Eases s t := by
  simpa only [Eases, hq, hw] using Eases.refl s

theorem Eases.of_filter {t : State} {p : PLine → Bool} (hq : t.faultQ = s.faultQ.filter p) (hw : t.warps = s.warps) : Eases s t :=
  ⟨by rw [hq]; exact List.filter_subset_self _, fun x hx _ _ _ hp => ⟨x, hw ▸ hx, rfl, hp⟩⟩

/-- An update of a warp that parks it nowhere. -/
theorem setWarp_eases (s : State) (w : WarpId) {f : Warp → Warp} (hid : ∀ x, (f x).id = x.id)
    (hf : ∀ x k l a, (f x).phase = .parked k l a → x.phase = .parked k l a) : Eases s (s.setWarp w f) := by
  refine ⟨List.Subset.refl _, fun x hx k l a hp => ?_⟩
  obtain ⟨y, hy, rfl⟩ := List.mem_map.mp hx
  split at hp
  · exact ⟨y, hy, by simp [*], hf _ _ _ _ hp⟩
  · exact ⟨y, hy, by simp [*], hp⟩

theorem setTeam_eases (s : State) (t : TeamId) (f : Team → Team) : Eases s (s.setTeam t f) := .of_same rfl rfl

theorem raise_eases (s : State) (f : Stop) : Eases s (s.raise f) := .of_same rfl rfl

theorem dropRefs_eases (s : State) (o : RefOwner) (committed : Bool) : Eases s (s.dropRefs o committed) := by
  have h0 : Eases s { s with refs := s.refs.filter fun r => r.owner != o } := .of_same rfl rfl
  unfold State.dropRefs
  split
  · exact h0
  · refine h0.trans (Eases.foldl (fun t r => ?_) _ _)
    split
    · split
      · exact setTeam_eases ..
      · exact .refl t
    · exact .refl t

theorem cancelCopy_eases (s : State) (id : Nat) : Eases s (s.cancelCopy id) := by
  unfold State.cancelCopy
  split
  · exact .refl s
  · dsimp only
    split <;> exact .of_filter rfl rfl

theorem discardOne_eases (s : State) (w : WarpId) : Eases s (s.discardOne w) := by
  unfold State.discardOne
  split
  · exact .refl s
  · rename_i r _
    extract_lets s1 free core s2 s3 s4 s5 s6 back
    have h3 : Eases s s3 := (dropRefs_eases s ..).trans (.of_same rfl rfl)
    have h4 : Eases s3 s4 := by
      dsimp only [s4]
      split
      · exact setTeam_eases ..
      · exact .refl s3
    have h6 : Eases s s6 := (h3.trans (h4.trans (Eases.foldl cancelCopy_eases _ _))).trans (.of_same rfl rfl)
    refine (h6.trans (t := s6.newOrder.1) (.of_same rfl rfl)).trans (setWarp_eases _ w (fun _ => rfl) fun x k l a hp => ?_)
    simp at hp

theorem faulted_eases (s : State) (w : WarpId) : Eases s (s.setWarp w fun x => { x with phase := .faulted }) :=
  setWarp_eases s w (fun _ => rfl) fun x k l a hp => by simp at hp

theorem faultOne_eases (s : State) (w : WarpId) (f : Stop) : Eases s (s.faultOne w f) :=
  ((discardOne_eases s w).trans (faulted_eases _ w)).trans (raise_eases _ f)

theorem discard_eases (s : State) (w : WarpId) : Eases s (s.discard w) := by
  unfold State.discard
  extract_lets ms ids ws s1
  have h1 : Eases s s1 := (Eases.foldl (fun t id => dropRefs_eases t (.gang id) false) ids s).trans (.of_same rfl rfl)
  exact h1.trans (Eases.foldl (fun t p => discardOne_eases t _) _ _)

theorem breakGangs_eases (s : State) (w : WarpId) : Eases s (s.breakGangs w) := by
  refine Eases.foldl (fun t m => ?_) _ s
  have h1 : Eases t { t with mmas := t.mmas.filter fun x => x.id != m.id } := .of_same rfl rfl
  refine h1.trans (Eases.foldl (fun u p => ?_) _ _)
  dsimp only
  split
  · exact .refl u
  · exact faultOne_eases ..

theorem fault_eases (s : State) (w : WarpId) (f : Stop) : Eases s (s.fault w f) :=
  (((raise_eases s f).trans (breakGangs_eases _ w)).trans (discard_eases _ w)).trans (faulted_eases _ w)

theorem faultAgainst_eases (s : State) (w : WarpId) (f : Stop) : Eases s (s.faultAgainst w f) := by
  unfold State.faultAgainst
  split
  · split
    · exact raise_eases s f
    · exact fault_eases s w f
  · exact raise_eases s f

theorem releaseMsg_eases (s : State) (id : Nat) : Eases s (s.releaseMsg id) := by
  unfold State.releaseMsg
  split
  · exact .refl s
  · rename_i m _
    extract_lets s1 s2 s3 mine gone leave
    have h2 : Eases s1 s2 := by
      dsimp only [s2]
      split
      · exact .of_same rfl rfl
      · exact .refl s1
    have h3 : Eases s2 s3 := Eases.foldl (fun t h => by
      split
      · exact .of_same rfl rfl
      · exact .refl t) _ _
    exact ((dropRefs_eases s _ _).trans (h2.trans h3)).trans (.of_filter rfl rfl)

theorem failMsg_eases (s : State) (id : Nat) : Eases s (s.failMsg id) := (releaseMsg_eases s id).trans (.of_same rfl rfl)

theorem msgFault_eases (s : State) (m : Msg) (x : LineXl) (va : W64) : Eases s (s.msgFault m x va) := by
  unfold State.msgFault
  split
  · exact (failMsg_eases s _).trans (faultAgainst_eases ..)
  · exact (failMsg_eases s _).trans (faultAgainst_eases ..)
  · exact .refl s

/-- A line denied is kept no longer. -/
theorem denyLine_eases (s : State) (p : PLine) :
    Eases { s with faultQ := s.faultQ.filter fun q => !(q.ctx == p.ctx && q.seq == p.seq) } (s.denyLine p) := by
  unfold State.denyLine
  extract_lets t
  split
  · split
    · exact (cancelCopy_eases t _).trans (faultAgainst_eases ..)
    · exact .refl t
  · split
    · exact msgFault_eases ..
    · exact .refl t
  · split
    · exact msgFault_eases ..
    · exact .refl t
  · exact raise_eases ..
  · exact fault_eases ..

theorem denyLine_eases_line (s : State) (p : PLine) : Eases s (s.denyLine p) :=
  Eases.trans (t := { s with faultQ := _ }) (.of_filter rfl rfl) (denyLine_eases s p)

/-- No warp of the id is parked. -/
def NoneParked (s : State) (w : WarpId) : Prop := ∀ x ∈ s.warps, ∀ k l a, x.phase = .parked k l a → x.id ≠ w

theorem NoneParked.eased {t : State} {w : WarpId} (h : NoneParked s w) (he : Eases s t) : NoneParked t w := by
  intro x hx k l a hp
  obtain ⟨y, hy, hid, hyp⟩ := he.2 x hx k l a hp
  exact hid ▸ h y hy k l a hyp

/-- A warp that faulted is parked at nothing. -/
theorem fault_parks_none (s : State) (w : WarpId) (f : Stop) : NoneParked (s.fault w f) w := by
  intro x hx k l a hp hid
  obtain ⟨y, _, rfl⟩ := List.mem_map.mp hx
  by_cases hy : (y.id == w) = true
  · simp [hy] at hp
  · simp only [hy, Bool.false_eq_true, if_false] at hid
    simp [hid] at hy

theorem unpark_eases (s : State) (w : WarpId) : Eases s (s.unpark w) := by
  refine Eases.trans (t := s.newOrder.1) (.of_same rfl rfl) (setWarp_eases _ w (fun x => ?_) fun x k l a hp => ?_)
  · split <;> rfl
  · split at hp
    · simp at hp
    · exact hp

/-- A warp set going again is parked at nothing. -/
theorem unpark_parks_none (s : State) (w : WarpId) : NoneParked (s.unpark w) w := by
  intro x hx k l a hp hid
  obtain ⟨y, _, rfl⟩ := List.mem_map.mp hx
  by_cases hy : (y.id == w) = true
  · simp only [hy, if_true] at hp
    split at hp
    · simp at hp
    · rename_i hno
      exact hno _ _ _ hp
  · simp only [hy, Bool.false_eq_true, if_false] at hid
    simp [hid] at hy

theorem recallHeld_keeps (s : State) (w : WarpId) : (s.recallHeld w).faultQ = s.faultQ ∧ (s.recallHeld w).warps = s.warps := by
  unfold State.recallHeld
  split
  · split
    · refine foldl_keeps (fun t : State => t.faultQ = s.faultQ ∧ t.warps = s.warps) _ (fun t u ht => ?_) _ s ⟨rfl, rfl⟩
      unfold State.addRecall
      split <;> exact ht
    · exact ⟨rfl, rfl⟩
  · exact ⟨rfl, rfl⟩

theorem atBoundary_eases (s : State) (w : WarpId) : Eases s (s.atBoundary w) := by
  unfold State.atBoundary
  split
  · exact .refl s
  · split
    · exact .refl s
    · have hr := recallHeld_keeps (s.setWarp w fun y => { y with phase := .stopped }) w
      refine (setWarp_eases s w (f := fun y => { y with phase := .stopped }) (fun _ => rfl) fun x k l a hp => ?_).trans (.of_same hr.1 hr.2)
      simp at hp

theorem atBoundary_faultQ (s : State) (w : WarpId) : (s.atBoundary w).faultQ = s.faultQ := by
  unfold State.atBoundary
  split
  · rfl
  · split
    · rfl
    · exact (recallHeld_keeps ..).1

/-- What each step of a fold brings about, and easing keeps, holds of all of the list in the end. -/
theorem foldl_each {α : Type} {f : State → α → State} {P : State → α → Prop} (he : ∀ s a, Eases s (f s a))
    (hf : ∀ s a, P (f s a) a) (hk : ∀ s t a, Eases s t → P s a → P t a) (l : List α) (s : State) : ∀ a ∈ l, P (l.foldl f s) a := by
  induction l generalizing s with
  | nil => simp
  | cons b l ih =>
    intro a ha
    obtain rfl | ha := List.mem_cons.mp ha
    · exact hk _ _ _ (Eases.foldl he l _) (hf s a)
    · exact ih _ a ha

/-- No line of the context and number is kept for a fault. -/
def NoneKept (s : State) (p : PLine) : Prop := ∀ q ∈ s.faultQ, ¬ (q.ctx = p.ctx ∧ q.seq = p.seq)

theorem denyLine_noneKept (s : State) (p : PLine) : NoneKept (s.denyLine p) p := by
  intro q hq ⟨hc, hs⟩
  have hno := (List.mem_filter.mp ((denyLine_eases s p).1 hq)).2
  simp [hc, hs] at hno

theorem fresume_given (h : CommandGiven s 6) : ∃ t, exec .fresume s = .next t ∧ t.host.status = 0 ∧ t.host.ring = 0 ∧
    t.faultQ = (s.faultQ.map fun p => if p.ctx = s.cmdCtx ∧ p.seq ≤ s.mail 1 then { p with released := true } else p) ∧
    ∀ x ∈ t.warps, x.id.team.launch.ctx = s.cmdCtx → ∀ k l a, x.phase = .parked k l a → s.mail 1 < k := by
  change ∃ t, execFresume s = _ ∧ _
  rw [execFresume, command_given h]
  dsimp only
  generalize hws : (s.warps.filter _).map (fun x : Warp => x.id) = ws
  generalize hu : ws.foldl (fun s w => s.unpark w) s = u
  have hsu : Eases s u := hu ▸ Eases.foldl unpark_eases ws s
  have huq : u.faultQ = s.faultQ := by
    rw [← hu]
    exact foldl_keeps (fun t : State => t.faultQ = s.faultQ) _ (fun _ _ ht => by exact ht) ws s rfl
  have hnone : ∀ w ∈ ws, NoneParked u w :=
    hu ▸ foldl_each (P := NoneParked) unpark_eases unpark_parks_none (fun _ _ _ he hn => hn.eased he) ws s
  refine ⟨_, rfl, rfl, rfl, ?_, fun x hx hc k l a hp => ?_⟩
  · refine (foldl_keeps (fun t : State => t.faultQ = _) _ (fun t w ht => (atBoundary_faultQ t w).trans ht) ws _ rfl).trans ?_
    simp [huq]
  · obtain ⟨y, hy, hid, hyp⟩ := (Eases.foldl atBoundary_eases ws _).2 x hx k l a hp
    obtain ⟨z, hz, rfl⟩ := List.mem_map.mp hy
    have hzp : z.phase = .parked k l a ∧ z.id = x.id := by
      by_cases hzc : (z.id.team.launch.ctx == s.cmdCtx) = true <;>
        simp only [hzc, if_true, Bool.false_eq_true, if_false] at hyp hid <;> exact ⟨hyp, hid⟩
    obtain ⟨v, hv, hvid, hvp⟩ := hsu.2 z hz k l a hzp.1
    by_contra hk
    refine hnone v.id ?_ z hz k l a hzp.1 hvid.symm
    rw [← hws]
    refine List.mem_map.mpr ⟨v, List.mem_filter.mpr ⟨hv, ?_⟩, rfl⟩
    simp [hvp, hvid, hzp.2, hc]
    omega

theorem fdeny_given (h : CommandGiven s 7) : ∃ t, exec .fdeny s = .next t ∧ t.host.status = 0 ∧ t.host.ring = 0 ∧
    (∀ p ∈ t.faultQ, ¬ (p.ctx = s.cmdCtx ∧ p.seq = s.mail 1 ∧ p.released = false)) ∧
    ∀ x ∈ t.warps, x.id.team.launch.ctx = s.cmdCtx → ∀ l a, x.phase ≠ .parked (s.mail 1) l a := by
  change ∃ t, execFdeny s = _ ∧ _
  rw [execFdeny, command_given h]
  dsimp only
  generalize hws : s.warps.filterMap _ = ws
  generalize hu : ws.foldl _ s = u
  have hsu : Eases s u := hu ▸ Eases.foldl (fun t w => fault_eases t _ _) ws s
  have hnone : ∀ w ∈ ws, NoneParked u w.1 :=
    hu ▸ foldl_each (P := fun (t : State) (w : WarpId × Lanes × W64) => NoneParked t w.1) (fun t w => fault_eases t _ _)
      (fun t w => fault_parks_none t _ _) (fun _ _ _ he hn => hn.eased he) ws s
  refine ⟨_, rfl, rfl, rfl, fun p hp ⟨hc, hn, hr⟩ => ?_, fun x hx hc l a hp => ?_⟩
  · have hpu : p ∈ u.faultQ := (Eases.foldl denyLine_eases_line _ u).1 hp
    refine foldl_each denyLine_eases_line denyLine_noneKept (fun _ _ _ he hk q hq => hk q (he.1 hq)) _ u p ?_ p hp ⟨rfl, rfl⟩
    exact List.mem_filter.mpr ⟨hpu, by simp [hc, hn, hr]⟩
  · obtain ⟨y, hy, hid, hyp⟩ := (Eases.foldl denyLine_eases_line _ u).2 x hx _ l a hp
    obtain ⟨z, hz, hzid, hzp⟩ := hsu.2 y hy _ l a hyp
    refine hnone (z.id, (l, a)) ?_ y hy _ l a hyp hzid.symm
    rw [← hws]
    refine List.mem_filterMap.mpr ⟨z, hz, ?_⟩
    simp [hzp, hzid, hid, hc]

/-- Settles O56: each command by what its meaning answers once it is given. -/
theorem contextCommandsComplete : Obligations.ContextCommandsComplete := by
  intro s
  refine ⟨fun h hp hb hm => ⟨fun hfree hdies => ?_, fun hbusy => ?_⟩, fun j h => qset_given h,
    fun q h => qreset_given h, fun q h => qresume_given h, fun h => tlbinv_given h, fun h => fresume_given h, fun h => fdeny_given h,
    fun h => codeinv_given h⟩
  · have hn : s.ctxBusy s.cmdCtx ≠ true := fun hb' =>
      have ⟨l, hl, hc, hs⟩ := (ctxBusy_iff ..).mp hb'
      hfree l hl hc hs
    rw [ctxset_given h hp hm hb, if_neg hn, if_neg hdies]
  · rw [ctxset_given h hp hm hb, if_pos ((ctxBusy_iff ..).mpr hbusy)]

end Sys2Proof.Machine
end

section
/-! SUPPORT. Collectives, their values, and the tokens of sparse updates (R257, R307). -/
namespace Sys2Proof.Machine

theorem reduceAll_getD (f : AtomF) (ms : List Member) (lo : Nat) {n i : Nat} (hi : i < n) :
    (reduceAll f ms lo n).1.getD i 0 = (reduceElem f (ms.map fun y => y.data.getD (lo + i) 0)).1 := by
  simp [reduceAll, List.getD_eq_getElem?_getD, hi]

theorem collResult_reduce (ms : List Member) (me : Member) (h : collKind me.op = 0) :
    collResult ms me = reduceAll (collAtom me.op) ms 0 me.count := by
  simp [collResult, h]

theorem collResult_scatter (ms : List Member) (me : Member) (h : collKind me.op = 2) :
    collResult ms me = reduceAll (collAtom me.op) ms (me.rank * me.count) me.count := by
  simp [collResult, h]

/-- Every member's words, all of them, rank by rank. -/
theorem collResult_gather (ms : List Member) (me : Member) (h : collKind me.op = 1) (hl : ∀ y ∈ ms, y.data.length = me.count) :
    collResult ms me = (ms.flatMap fun y => y.data, 0) := by
  simp only [collResult, h]
  refine congrArg (·, 0) (List.flatMap_congr fun y hy => ?_)
  refine List.ext_getElem (by simp [hl y hy]) fun i h1 h2 => ?_
  simp [List.getD_eq_getElem?_getD, h2]

theorem collResult_broadcast (ms : List Member) (me : Member) (h : collKind me.op = 3) {r : Member}
    (hr : (ms.find? fun y => y.rank == collRoot me.op) = some r) : collResult ms me = (r.data, 0) := by
  simp [collResult, h, hr]

/-- A reduction combines from the left: one more rank is one more combination. -/
theorem reduceElem_snoc (f : AtomF) (v : W32) (vs : List W32) (w : W32) :
    reduceElem f (v :: vs ++ [w]) =
      (((atomVal f ((reduceElem f (v :: vs)).1.setWidth 64) (w.setWidth 64) 0).1.getD 0).setWidth 32,
        (reduceElem f (v :: vs)).2 ||| (atomVal f ((reduceElem f (v :: vs)).1.setWidth 64) (w.setWidth 64) 0).2) := by
  simp [reduceElem, List.foldl_append]

theorem atomVal_add_wraps {f : AtomF} (ha : f.aop = .add) (ht : f.ty = .i32 ∨ f.ty = .n32) (a b : W32) :
    ((atomVal f (a.setWidth 64) (b.setWidth 64) 0).1.getD 0).setWidth 32 = a + b ∧
    (atomVal f (a.setWidth 64) (b.setWidth 64) 0).2 = 0 := by
  obtain ht | ht := ht
  · simp [atomVal, ha, ht, ivAdd, Ty.fit, Ty.int, Ty.wrap, Ty.wide, BitVec.ofInt_add]
  · simp [atomVal, ha, ht, ivAdd, Ty.fit, Ty.int, Ty.wrap, Ty.wide, BitVec.ofInt_add]

theorem atomVal_max_unsigned {f : AtomF} (ha : f.aop = .max) (ht : f.ty = .n32) (a b : W32) :
    (((atomVal f (a.setWidth 64) (b.setWidth 64) 0).1.getD 0).setWidth 32).toNat = max a.toNat b.toNat := by
  have hv : atomVal f (a.setWidth 64) (b.setWidth 64) 0 = (some (if a.toNat ≤ b.toNat then b.setWidth 64 else a.setWidth 64), 0) := by
    simp [atomVal, ha, ht, ivMax, Ty.int]
  rw [hv]
  split
  · rename_i h
    simp [h]
  · rename_i h
    simp [Nat.le_of_not_le h]

variable {s : State}

/-- A message's unit performs it where it is there to be performed. -/
theorem msgStep_at {m : Msg} {op : MsgOp} {f : State → Msg → State} (hm : s.msg? m.id = some m) (ho : m.op = op) (hp : m.phase < 2)
    (hr : s.unitRuns (dieOf m.core) m.master = true) : s.msgStep m.id op f = .next (f s m) := by
  simp [State.msgStep, hm, ho, hp, hr]

theorem groupRead_poison {m : Msg} {k : State → State} {code : Nat}
    (h : s.sysMark (s.groupAt m.warp.team.launch.ctx (m.bits 4 7 0)) 16 = some code) :
    s.groupRead m k = s.msgPoison m 0 code (s.groupAt m.warp.team.launch.ctx (m.bits 4 7 0)) := by
  simp [State.groupRead, h]

theorem groupRead_clean {m : Msg} {k : State → State}
    (h : s.sysMark (s.groupAt m.warp.team.launch.ctx (m.bits 4 7 0)) 16 = none) :
    s.groupRead m k = k (s.sysFix (s.groupAt m.warp.team.launch.ctx (m.bits 4 7 0)) 16) := by
  simp [State.groupRead, h]

theorem sysFix_msg? (s : State) (pa n id : Nat) : (s.sysFix pa n).msg? id = s.msg? id :=
  (s.sysFix_step pa n).same (State.msg? · id) fun _ => rfl

/-- A COLL that has reached the unit, its group's entry read without poison. -/
theorem coll_reached {m : Msg} (hm : s.msg? m.id = some m) (ho : m.op = .coll) (hr : s.unitRuns (dieOf m.core) m.master = true)
    (hb : s.fw.bringUp = false) (hp : m.phase = 1) (hk : s.sysMark (s.groupAt m.warp.team.launch.ctx (m.bits 4 7 0)) 16 = none) :
    exec (.coll m.id) s = .next ((s.sysFix (s.groupAt m.warp.team.launch.ctx (m.bits 4 7 0)) 16).runColl m) := by
  change execColl m.id s = _
  rw [execColl, msgStep_at hm ho (by omega) hr, hb, groupRead_clean hk]
  simp [hp, sysFix_msg?, hm]

theorem runColl_late {m : Msg} {c : Collect} (hc : s.collOf m.id = some c) (hm : ∃ y ∈ c.members, y.msg = some m.id) (hl : c.late = true) :
    s.runColl m = (s.dropColl c).endMsg m.id 0 4 := by
  obtain ⟨me, hme⟩ := Option.isSome_iff_exists.mp (List.find?_isSome (p := fun y : Member => y.msg == some m.id) |>.mpr (by simpa using hm))
  simp [State.runColl, hc, hme, hl]

section
variable {m : Msg} {c : Collect} {me : Member}

theorem runColl_differing (hc : s.collOf m.id = some c) (hme : (c.members.find? fun y => y.msg == some m.id) = some me)
    (hl : c.late = false) (hg : (s.group c.ctx c.grp).1 ≤ c.members.length)
    (hd : ∃ y ∈ c.members, collShape y.op ≠ collShape me.op ∨ y.count ≠ me.count) :
    s.runColl m = (s.dropColl c).endMsg m.id 0 3 := by
  have hany : (c.members.any fun y => collShape y.op != collShape me.op || y.count != me.count) = true := by simpa using hd
  simp [State.runColl, hc, hme, hl, Nat.not_lt.mpr hg, hany]

theorem runColl_agreeing (hm : s.msg? m.id = some m) (hc : s.collOf m.id = some c)
    (hme : (c.members.find? fun y => y.msg == some m.id) = some me)
    (hl : c.late = false) (hg : (s.group c.ctx c.grp).1 ≤ c.members.length)
    (hd : ∀ y ∈ c.members, collShape y.op = collShape me.op ∧ y.count = me.count)
    (hn : me.needs (s.group c.ctx c.grp).1 ≤ me.data.length) : s.runColl m = s.collReceive m c me := by
  have hany : (c.members.any fun y => collShape y.op != collShape me.op || y.count != me.count) = false := by simpa using hd
  simp [State.runColl, hc, hme, hl, Nat.not_lt.mpr hg, hany, Nat.not_lt.mpr hn, hm]

end

theorem joinColl_late {c : Collect} {y : Member}
    (hc : (s.colls.find? fun d => d.ctx == c.ctx && d.grp == c.grp && d.k == c.k) = some c) (hy : ∀ z ∈ c.members, z.rank ≠ y.rank)
    (ht : 2 ^ 30 < s.now - c.since) : ∃ d ∈ (s.joinColl c.ctx c.grp c.k s.now y).colls, y ∈ d.members ∧ d.late = true := by
  have hany : (c.members.any fun z => z.rank == y.rank) = false := by simpa using hy
  have hlate : 2 ^ 30 < s.now - min c.since s.now := by omega
  rw [State.joinColl]
  dsimp only
  rw [hc]
  simp only [hany, Bool.false_eq_true, if_false]
  refine ⟨_, List.mem_map.mpr ⟨c, List.mem_of_find?_eq_some hc, rfl⟩, ?_⟩
  simpa using .inr hlate

theorem collTimeout_missing {m : Msg} {c : Collect} (hm : s.msg? m.id = some m) (ho : m.op = .coll) (hp : m.phase < 2)
    (hr : s.unitRuns (dieOf m.core) m.master = true)
    (hk : s.sysMark (s.groupAt m.warp.team.launch.ctx (m.bits 4 7 0)) 16 = none) :
    let u := s.sysFix (s.groupAt m.warp.team.launch.ctx (m.bits 4 7 0)) 16
    u.collOf m.id = some c → c.members.length < (u.group c.ctx c.grp).1 → 2 ^ 30 < u.now - c.since →
    exec (.collTimeout m.id) s = .next ((u.dropColl c).endMsg m.id 0 4) := by
  intro u hc hg ht
  change execCollTimeout m.id s = _
  rw [execCollTimeout, msgStep_at hm ho hp hr, groupRead_clean hk]
  simp only [u] at hc hg ht
  simp only [hc, decide_eq_true hg, decide_eq_true ht, Bool.and_self, if_true, u]

theorem collectiveMemberJoin_joins {ctx grp k rank count : Nat} {op : W32} {data : List W32} (hc : (s.ctx? ctx).isSome = true)
    (hk : s.sysMark (s.groupAt ctx grp) 16 = none) (hr : s.unitRunsFor ctx .coll = true) :
    let v := s.sysFix (s.groupAt ctx grp) 16
    v.fw.bringUp = false → rank < (v.group ctx grp).1 → rank ≠ (v.group ctx grp).2.1 →
    exec (.collectiveMemberJoin ctx grp k rank op count data) s =
      .next (v.joinColl ctx grp k v.now { rank := rank, op := op, count := count, data := data, msg := none }) := by
  intro v hb hg hn
  have hv : s.readFor ctx 4 0 (s.groupAt ctx grp) 16 = v := by simp [State.readFor, hk, v]
  have hcv : (v.ctx? ctx).isNone = false := by
    rw [(s.sysFix_step _ _).same (State.ctx? · ctx) fun _ => rfl]
    simpa using hc
  refine congrArg Host.Outcome.next ?_
  simp only [hr, hc, hv, if_true, Bool.not_true, Bool.false_eq_true, if_false, hcv, hb]
  simp [Nat.not_le.mpr hg, hn]

/-- What the token does that reached its slice (R257). -/
theorem arriveTok_reaches {u : State} {id pa : Nat} {nc : Bool} {t : SparseTok} {m : Msg}
    (ht : (s.toks.find? fun y => y.id == id && y.pa.isNone) = some t) (hm : (t.msgs.head?).bind s.msg? = some m)
    (hl : s.lineAt m.warp.team.launch.ctx 2 2 (.token id) t.va m.core m.warp.warp = (u, .page pa nc))
    (hr : s.unitRuns (dieOf m.core) (.sparse (sliceOf pa)) = true) (hw : (s.window (sliceOf pa)).length < 64) :
    s.arriveTok id = u.enterWindow { t with pa := some pa } := by
  simp [State.arriveTok, ht, hm, hl, hr, hw]

/-! ### No poison from none -/

theorem State.correct_clean (h : s.poison = []) (gs : List Granule) : (s.correct gs).poison = [] := by
  unfold State.correct
  split
  · exact h
  · refine foldl_keeps (fun t : State => t.poison = []) _ (fun t g ht => ?_) gs s h
    split <;> exact ht

theorem State.fix_clean (h : s.poison = []) (p : Place) (pa n : Nat) : (s.fix p pa n).poison = [] := by
  unfold State.fix
  split
  · exact h
  · exact State.correct_clean h _

theorem State.replaced_clean (h : s.poison = []) (p : Place) (pa n : Nat) : (s.replaced p pa n).poison = [] := by
  unfold State.replaced
  split
  · exact h
  · simp [h]

theorem State.carry_clean (h : s.poison = []) (src dst : Place) (ln : Nat) (m : LineMask) : (s.carry src dst ln m).poison = [] := by
  unfold State.carry
  split
  · exact h
  · simp [h]

theorem State.unsee_clean (h : s.poison = []) (die ln : Nat) : (s.unsee die ln).poison = [] := by
  unfold State.unsee
  split <;> exact h

theorem State.seeAt_clean (h : s.poison = []) (die owner ln : Nat) : (s.seeAt die owner ln).poison = [] := by
  unfold State.seeAt
  split <;> exact h

theorem State.dropL1_clean (h : s.poison = []) (core ln : Nat) : (s.dropL1 core ln).poison = [] := State.replaced_clean h _ _ _

theorem State.dropL2_clean (h : s.poison = []) (die ln : Nat) : (s.dropL2 die ln).poison = [] :=
  State.unsee_clean (State.replaced_clean h _ _ _) _ _

theorem State.sendHome_clean (h : s.poison = []) (x : L2Line) (m : LineMask) : (s.sendHome x m).poison = [] :=
  State.unsee_clean (State.carry_clean (s := (s.fix _ _ _).homeWrite _ _ _) (State.fix_clean h _ _ _) _ _ _ _) _ _

theorem State.writeBackL1_clean (h : s.poison = []) (core ln : Nat) : (s.writeBackL1 core ln).poison = [] := by
  unfold State.writeBackL1
  split
  · exact h
  · split
    · exact h
    · exact State.carry_clean (State.fix_clean h _ _ _) _ _ _ _

theorem State.recallL1s_clean (h : s.poison = []) (die ln : Nat) (drop : Bool) : (s.recallL1s die ln drop).poison = [] := by
  refine foldl_keeps (fun t : State => t.poison = []) _ (fun t c ht => ?_) _ s h
  have hw := State.writeBackL1_clean ht c ln
  dsimp only
  split
  · exact State.dropL1_clean hw _ _
  · exact hw

theorem State.mergeMarks_clean (h : s.poison = []) (die ln : Nat) : (s.mergeMarks die ln).poison = [] := by
  unfold State.mergeMarks
  split
  · exact h
  · rename_i x _
    split
    · exact h
    · have hp : (s.putL2 { x with marked := 0 }).poison = [] := h
      dsimp only
      split
      · split
        · exact hp
        · have hr := State.recallL1s_clean hp
          split
          · exact State.seeAt_clean (State.carry_clean (State.fix_clean (hr ..) _ _ _) _ _ _ _) _ _ _
          · exact hr ..
      · exact State.sendHome_clean hp _ _

theorem State.loseLine_clean (h : s.poison = []) (die ln : Nat) : (s.loseLine die ln).poison = [] := by
  have hr := State.recallL1s_clean h die ln true
  unfold State.loseLine
  dsimp only
  split
  · exact hr
  · split
    · exact State.dropL2_clean (State.sendHome_clean hr _ _) _ _
    · exact State.dropL2_clean (State.mergeMarks_clean hr _ _) _ _

theorem State.recallAll_clean (h : s.poison = []) (ln : Nat) : (s.recallAll ln).poison = [] := by
  have hf := foldl_keeps (fun t : State => t.poison = []) (fun t d => t.loseLine d ln) (fun t d ht => State.loseLine_clean ht d ln)
    ((s.holders ln).filter fun d => some d != s.owner? ln) s h
  unfold State.recallAll
  dsimp only
  split
  · exact State.loseLine_clean hf _ _
  · exact hf

theorem State.merEvict_clean (h : s.poison = []) (ln : Nat) : (s.merEvict ln).poison = [] := by
  have hr := State.recallAll_clean h ln
  unfold State.merEvict
  dsimp only
  split
  · exact hr
  · refine State.replaced_clean (?_ : State.poison _ = []) _ _ _
    split
    · refine State.carry_clean (State.fix_clean ?_ _ _ _) _ _ _ _
      exact hr
    · exact hr

theorem State.addMer_clean (h : s.poison = []) (part : Option Nat) (ln way : Nat) (first : Bool) :
    (s.addMer part ln way first).poison = [] := by
  unfold State.addMer
  refine State.carry_clean ?_ _ _ _ _
  exact State.replaced_clean (State.fix_clean h _ _ _) _ _ _

theorem State.homeUse_clean (h : s.poison = []) (part : Option Nat) (ln : Nat) (first : Bool) : (s.homeUse part ln first).poison = [] := by
  unfold State.homeUse
  split
  · exact h
  · dsimp only
    split
    · exact State.addMer_clean h _ _ _ _
    · split
      · exact State.addMer_clean (State.merEvict_clean (s := { s with fresh := s.fresh + 1 }) h _) _ _ _ _
      · exact h

/-- Bringing a line home poisons nothing. -/
theorem State.atHome_clean (h : s.poison = []) (part : Option Nat) (pa n : Nat) : (s.atHome part pa n).poison = [] := by
  unfold State.atHome
  split
  · refine foldl_keeps (fun t : State => t.poison = []) _ (fun t ln ht => ?_) _ s h
    exact State.fix_clean (State.recallAll_clean (State.homeUse_clean ht _ _ _) _) _ _ _
  · exact h

theorem State.dropLags_clean (h : s.poison = []) (pa n : Nat) : (s.dropLags pa n).poison = [] := by
  obtain ⟨g, hg⟩ := s.dropLags_eq pa n
  rw [hg]
  exact h

theorem sysMark_clean (h : s.poison = []) (pa n : Nat) : s.sysMark pa n = none := by
  simp [State.sysMark, h]

/-- The unit applies a token that it may take where the line's home holds no poison (R257). -/
theorem applyTok_applies {t : SparseTok} {pick pa : Nat} {v : W64} {f : Flags} (ht : (s.toks.find? fun y => y.id == pick) = some t)
    (hpa : t.pa = some pa) (ho : t.ord = false) (hr : s.unitRuns (s.tokDie t) (.sparse (sliceOf pa)) = true) (hp : s.poison = []) :
    let n := if t.ty.wide then 8 else 4
    let u := (s.atHome (s.partNo (s.tokDie t)) pa n).dropLags pa n
    atomVal t.fields (BitVec.ofNat 64 (leNat (rdBytes u.mem pa n))) t.val 0 = (some v, f) →
    let w := u.setHome pa (leBytes n v.toNat)
    s.applyTok pick = (({ w with toks := w.toks.filter fun y => y.id != pick } : State).msgFlags t.msgs f).countUpdates t.msgs := by
  intro n u hv w
  have hu : u.sysMark pa n = none := sysMark_clean (State.dropLags_clean (State.atHome_clean hp _ _ _) _ _) _ _
  rw [State.applyTok, ht]
  dsimp only
  rw [hpa]
  dsimp only
  rw [if_neg (by simp [ho, hr])]
  change (match u.sysMark pa n with
    | some code => _
    | none => _) = _
  rw [hu]
  dsimp only
  rw [hv]

/-- Settles O50: COLL by the state of its collective, its value by kind, and a token by whether it arrives or is applied. -/
theorem collectivesAndSparseComplete : Obligations.CollectivesAndSparseComplete := by
  refine ⟨fun s m c me hm ho hp hr => ?_, fun ms me => ⟨fun i hi => ⟨fun hk => ?_, fun hk => ?_⟩, fun v vs w => ?_,
    collResult_gather ms me, fun hk r => collResult_broadcast ms me hk⟩, fun s id pick t m => ⟨fun u pa nc ht hm hl hr hw => ?_,
    fun pa v f hno ht hpa ho hr hp hv => ?_⟩⟩
  · refine ⟨fun k hb hk => ?_, fun hb => ?_, fun hb h1 hk hc hl hme hg => ⟨fun hd hn => ?_, fun y hy hd => ?_⟩,
      fun hb h1 hk hc hl hme => ?_, fun y => joinColl_late, fun hk => collTimeout_missing hm ho hp hr hk,
      fun ctx grp k rank op count data hc hk hb hg hn hr => collectiveMemberJoin_joins hc hk hr hb hg hn⟩
    · change execColl m.id s = _
      rw [execColl, msgStep_at hm ho hp hr, hb, groupRead_poison hk]
      rfl
    · change execColl m.id s = _
      rw [execColl, msgStep_at hm ho hp hr, hb]
      rfl
    · rw [coll_reached hm ho hr hb h1 hk, runColl_agreeing (by rwa [sysFix_msg?]) hc hme hl hg hd hn]
    · rw [coll_reached hm ho hr hb h1 hk, runColl_differing hc hme hl hg ⟨y, hy, hd⟩]
    · rw [coll_reached hm ho hr hb h1 hk, runColl_late hc hme hl]
  · rw [collResult_reduce ms me hk, reduceAll_getD _ _ _ hi, Nat.zero_add]
  · rw [collResult_scatter ms me hk, reduceAll_getD _ _ _ hi]
  · exact ⟨rfl, reduceElem_snoc _ v vs w, fun ha ht => atomVal_add_wraps ha ht _ w, fun ha ht => atomVal_max_unsigned ha ht _ w⟩
  · exact congrArg (fun a : State => Host.Outcome.next (a.applyTok pick)) (arriveTok_reaches ht hm hl hr hw)
  · have hs : s.arriveTok id = s := by simp [State.arriveTok, hno]
    refine ⟨(State.setHome_eq _ pa _).1, congrArg Host.Outcome.next ?_⟩
    rw [hs]
    exact applyTok_applies ht hpa ho hr hp hv

end Sys2Proof.Machine
end

section
/-! SUPPORT. The value an atomic writes, by its operation and type (R288). -/
namespace Sys2Proof

variable {f : AtomF}

/-! ### Each operation's value -/

theorem atomVal_exch (ha : f.aop = .exch) (old b c : W64) : atomVal f old b c = (some b, 0) := by simp only [atomVal, ha]

theorem atomVal_cas (ha : f.aop = .cas) (old b c : W64) :
    atomVal f old b c = (if f.ty.cut old = f.ty.cut b then some c else none, 0) := by
  simp only [atomVal, ha, beq_iff_eq]

/-- No integer TY is f32. -/
theorem Ty.isInt_ne_f32 {t : Ty} (h : t.isInt = true) : (t == .f32) = false := by
  refine beq_eq_false_iff_ne.mpr fun he => ?_
  subst he
  exact absurd h Bool.false_ne_true

section
variable (hi : f.ty.isInt = true)
include hi

theorem atomVal_int_add (ha : f.aop = .add) (old b c : W64) : atomVal f old b c = (some (ivAdd f.ty false old b), 0) := by
  simp only [atomVal, ha, Ty.isInt_ne_f32 hi, Bool.false_eq_true, if_false]

theorem atomVal_int_min (ha : f.aop = .min) (old b c : W64) : atomVal f old b c = (some (ivMin f.ty old b), 0) := by
  simp only [atomVal, ha, Ty.isInt_ne_f32 hi, Bool.false_eq_true, if_false]

theorem atomVal_int_max (ha : f.aop = .max) (old b c : W64) : atomVal f old b c = (some (ivMax f.ty old b), 0) := by
  simp only [atomVal, ha, Ty.isInt_ne_f32 hi, Bool.false_eq_true, if_false]

end

/-! ### f32: the operand's low word -/

/-- The word of an f32 operand: its low 32 bits. -/
def f32Word (b : W64) : W64 := (b.setWidth 32).setWidth 64

theorem f32Word_toNat (b : W64) : (f32Word b).toNat = b.toNat % 2 ^ 32 := by
  have hlt : b.toNat % 2 ^ 32 < 2 ^ 64 := by omega
  rw [f32Word, BitVec.toNat_setWidth, BitVec.toNat_setWidth, Nat.mod_eq_of_lt hlt]

/-- The word's bits are those that an f32 operation reads of the operand. -/
theorem setWidth_toNat_f32Word (b : W64) : (b.setWidth 32).toNat = (f32Word b).toNat := by
  rw [f32Word_toNat, BitVec.toNat_setWidth]

/-- `.cas` on f32 compares an old word with the operand's low word. -/
theorem f32_cut_eq_iff {old : W64} (hold : old.toNat < 2 ^ 32) (b : W64) :
    Ty.f32.cut old = Ty.f32.cut b ↔ old.toNat = b.toNat % 2 ^ 32 := by
  change f32Word old = f32Word b ↔ _
  rw [← BitVec.toNat_inj, f32Word_toNat, f32Word_toNat, Nat.mod_eq_of_lt hold]

/-- FMIN or FMAX of two f32 words, with FUNC 0000 (R154). -/
def minMaxWord (max : Bool) (u v : W64) : W64 := BitVec.ofNat 64 (minMaxBits .f32 max false u.toNat v.toNat)

/-- A NaN gives way to the other word, two give the canonical NaN. -/
theorem minMaxWord_nan (max : Bool) (u v : W64) :
    (Fmt.f32.decode u.toNat = .nan → Fmt.f32.decode v.toNat = .nan → (minMaxWord max u v).toNat = 0x7FC00000) ∧
    (Fmt.f32.decode u.toNat = .nan → Fmt.f32.decode v.toNat ≠ .nan → minMaxWord max u v = v) ∧
    (Fmt.f32.decode u.toNat ≠ .nan → Fmt.f32.decode v.toNat = .nan → minMaxWord max u v = u) := by
  obtain ⟨hboth, hleft, hright⟩ := minMaxBits_nan .f32 max false u.toNat v.toNat
  refine ⟨fun hu hv => ?_, fun hu hv => ?_, fun hu hv => ?_⟩
  · rw [minMaxWord, hboth hu hv]
    rfl
  · rw [minMaxWord, hleft hu hv, if_neg Bool.false_ne_true, BitVec.ofNat_toNat, BitVec.setWidth_eq]
  · rw [minMaxWord, hright hu hv, if_neg Bool.false_ne_true, BitVec.ofNat_toNat, BitVec.setWidth_eq]

/-- Of two numbers the second word is chosen where it is strictly beyond the first, −0 below +0. -/
theorem minMaxWord_numbers (max : Bool) {u v : W64} (hu : Fmt.f32.decode u.toNat ≠ .nan) (hv : Fmt.f32.decode v.toNat ≠ .nan) :
    minMaxWord max u v = if (if max then fpBelow (Fmt.f32.decode u.toNat) (Fmt.f32.decode v.toNat)
      else fpBelow (Fmt.f32.decode v.toNat) (Fmt.f32.decode u.toNat)) then v else u := by
  have hword (p : Bool) : BitVec.ofNat 64 (if p then v.toNat else u.toNat) = if p then v else u := by
    rw [apply_ite (BitVec.ofNat 64), BitVec.ofNat_toNat, BitVec.ofNat_toNat, BitVec.setWidth_eq, BitVec.setWidth_eq]
  rw [minMaxWord, minMaxBits_numbers max false hu hv]
  cases max <;> exact hword _

/-! ### f32: each operation's value -/

section
variable (ht : f.ty = .f32)
include ht

/-- `.add` on f32 is FADD's sum, rounded once to nearest even. -/
theorem atomVal_f32_add (ha : f.aop = .add) (old b c : W64) : atomVal f old b c =
    let r := fpAdd .rne (Fmt.f32.decode old.toNat) (Fmt.f32.decode (f32Word b).toNat)
    (some (BitVec.ofNat 64 (Fmt.f32.round .rne false r.1).1), r.2 ||| (Fmt.f32.round .rne false r.1).2) := by
  simp only [atomVal, ha, ht, beq_self_eq_true, if_true, setWidth_toNat_f32Word]
  rfl

/-- `.min` on f32 is FMIN with FUNC 0000, without a flag. -/
theorem atomVal_f32_min (ha : f.aop = .min) (old b c : W64) : atomVal f old b c = (some (minMaxWord false old (f32Word b)), 0) := by
  simp only [atomVal, ha, ht, beq_self_eq_true, if_true, setWidth_toNat_f32Word]
  rfl

/-- `.max` on f32 is FMAX with FUNC 0000, without a flag. -/
theorem atomVal_f32_max (ha : f.aop = .max) (old b c : W64) : atomVal f old b c = (some (minMaxWord true old (f32Word b)), 0) := by
  simp only [atomVal, ha, ht, beq_self_eq_true, if_true, setWidth_toNat_f32Word]
  rfl

end

/-- Settles O27: on f32 the sum and the choice of FADD, FMIN and FMAX, on an integer type those of ADD, MIN and MAX, and the rest by the
operation's own equation. -/
theorem atomicValues : Obligations.AtomicValues := by
  unfold Obligations.AtomicValues
  refine ⟨fun f old b c ht hold => ?_, fun f old b c hi => ?_⟩
  · intro x y r b32
    have hy : y = Fmt.f32.decode (f32Word b).toNat := congrArg Fmt.f32.decode (f32Word_toNat b).symm
    refine ⟨fun ha => ?_, fun ha => ?_, fun ha => atomVal_exch ha old b c, fun ha => ?_⟩
    · simp only [r, hy]
      exact atomVal_f32_add ht ha old b c
    · rw [hy]
      rcases ha with ha | ha
      · obtain ⟨hboth, hleft, hright⟩ := minMaxWord_nan false old (f32Word b)
        exact ⟨_, atomVal_f32_min ht ha old b c, hboth, hleft, hright, fun hx hy =>
          ⟨fun _ => minMaxWord_numbers false hx hy, fun hmax => absurd (ha.symm.trans hmax) (by decide)⟩⟩
      · obtain ⟨hboth, hleft, hright⟩ := minMaxWord_nan true old (f32Word b)
        exact ⟨_, atomVal_f32_max ht ha old b c, hboth, hleft, hright, fun hx hy =>
          ⟨fun hmin => absurd (ha.symm.trans hmin) (by decide), fun _ => minMaxWord_numbers true hx hy⟩⟩
    · rw [atomVal_cas ha, ht]
      simp only [f32_cut_eq_iff hold]
  · exact ⟨fun ha => ⟨_, atomVal_int_add hi ha old b c, f.ty.fit_fits false _⟩,
      fun ha => ⟨_, atomVal_int_min hi ha old b c, (ivMin_value f.ty old b).1⟩,
      fun ha => ⟨_, atomVal_int_max hi ha old b c, (ivMax_value f.ty old b).1⟩,
      fun ha => by simp only [atomVal, ha], fun ha => by simp only [atomVal, ha], fun ha => by simp only [atomVal, ha],
      fun ha => atomVal_exch ha old b c, fun ha he => by rw [atomVal_cas ha, if_pos he], fun ha hn => by rw [atomVal_cas ha, if_neg hn]⟩

end Sys2Proof
end

section
/-! SUPPORT. SEND with a place for its message, and the read of a reply record in memory (R297, R309). -/
namespace Sys2Proof.Machine

variable {s t u : State} {x : Issue} {bs : List W8} {acc : LaneAcc}

/-- SEND valid on lane 0, with a place free, leaves its packet and payload for the commit (R297). -/
theorem send_leaves {pr : Pr} {msg : MsgOp} {lp : Bool} (hf : Fires s (.send pr msg lp) x)
    (hok : laneOk (.send pr msg lp) x.o 0 = true) (hplace : s.msgPlace x.warp.core = true) :
    let ok (t : Token) (l : Nat) : Bool := x.o.am.getLsbD l && t.ok x.o.am l && predLane (.send pr msg lp) x.o l
    Leaves s (.send pr msg lp) x (.message msg lp
      ((List.range (msg.words lp)).map fun l => if ok x.o.left l then x.o.left.val32 l else 0)
      (if lp then (allLanes.filter (ok x.o.right)).map x.o.right.val32 else [])) :=
  leaves_of (exec_send s pr msg lp) hf (by simp only [hok, hplace, Bool.not_true, Bool.false_eq_true, if_false])

/-- The value of a record word, its condition as R309 puts it. -/
theorem replyValue_eq (w : W64) (tag : W32) :
    replyValue w tag = if w.getLsbD 0 ∧ w.extractLsb' 32 32 = tag then (w.extractLsb' 8 8).setWidth 32 * 256 + 1 else 0 := by
  simp only [replyValue, Bool.and_eq_true, beq_iff_eq]

section
variable (hc : Clean s x 0 8 false [(0, x.o.left.full 0)] t [acc])
  (hread : t.coreRead x.w x.warp.core acc.nc .device 0 acc.pa 8 = (u, bs, none))
include hc hread

/-- The read of a record whose location passes its checks and holds no poison goes on with the word read. -/
theorem State.readReply_clean (i : Instr) (k : State → W64 → State) :
    s.readReply x i false k = k u (BitVec.ofNat 64 (leNat bs)) := by
  have haccess := State.access_clean hc i
  simp only [State.readReply, laneBase, Bool.false_eq_true, if_false, haccess, hread]

/-- POLLR delivers the value of the word it reads (R309). -/
theorem pollr_delivers {pr : Pr} {a b : Tgt} (hf : Fires s (.pollr pr false a b) x) (hu : uniOk (.pollr pr false a b) x.o = true) :
    exec (.pollr pr false a b) s =
      .next (u.result x [a, b] (Token.uni32 (replyValue (BitVec.ofNat 64 (leNat bs)) (x.o.right.val32 0))) 0) := by
  rw [exec_pollr, execPollr, firing_eq hf]
  simp only [hu, Bool.not_true, Bool.false_eq_true, if_false, State.readReply_clean hc hread]

/-- WAITR delivers the value of a record that matches (R309). -/
theorem waitr_delivers {pr : Pr} {a b : Tgt} (hf : Fires s (.waitr pr false a b) x) (hu : uniOk (.waitr pr false a b) x.o = true)
    (hv : replyValue (BitVec.ofNat 64 (leNat bs)) (x.o.right.val32 0) ≠ 0) :
    exec (.waitr pr false a b) s =
      .next (u.result x [a, b] (Token.uni32 (replyValue (BitVec.ofNat 64 (leNat bs)) (x.o.right.val32 0))) 0) := by
  rw [exec_waitr, execWaitr, firing_eq hf]
  simp only [hu, Bool.not_true, Bool.false_eq_true, if_false, State.readReply_clean hc hread, beq_eq_false_iff_ne.mpr hv]

end

/-- Settles O37: SEND leaves its message; POLLR and a WAITR that matches deliver the value of the word that the one read finds. -/
theorem messagesComplete : Obligations.MessagesComplete := by
  unfold Obligations.MessagesComplete
  refine fun s x pr => ⟨fun msg lp hf hok hplace => send_leaves hf hok hplace, fun a b t u acc bs hc hread => ?_⟩
  intro w0 v
  have hval : replyValue w0 (x.o.right.val32 0) = v := replyValue_eq ..
  rw [← hval]
  exact ⟨fun hf hu => pollr_delivers hc hread hf hu, fun hf hu hv => waitr_delivers hc hread hf hu hv⟩

end Sys2Proof.Machine
end

section
/-! SUPPORT. TTAKE that is met, TGIVE, SDONE and SREFU by a warp that holds the unit they name (R318 to R330). -/
namespace Sys2Proof.Machine

variable {s : State} {x : Issue} {pr : Pr} {tid : BitVec 6} {t : Team} {u : Taken}

/-- A take that is met delivers how and leaves its effect, or faults for its save address (R322). -/
theorem ttake_met {f : TakeF} {k : Take} {r : Nat} (hf : Fires s (.ttake f) x) (hu : uniOk (.ttake f) x.o = true)
    (hk : s.take? x = some k) (hr : k.res = some r) : exec (.ttake f) s = .next (s.takeMet x f r) := by
  rw [exec_ttake, execTtake, firing_eq hf]
  simp only [hu, Bool.not_true, Bool.false_eq_true, if_false, hk, hr]

/-- The save address of a take met is not a multiple of 64 (R322). -/
theorem State.takeMet_misaligned {f : TakeF} (r : Nat) (hsv : f.sv = true) (ha : (x.o.left.full 0).toNat % 64 ≠ 0) :
    s.takeMet x f r = s.protection x 5 0 (x.o.left.full 0) := by
  rw [State.takeMet, if_pos (by simp [hsv, ha])]

/-- A take met whose save address, if any, is a multiple of 64: its token and its effect (R322). -/
theorem State.takeMet_aligned {f : TakeF} (r : Nat) (ha : f.sv = true → (x.o.left.full 0).toNat % 64 = 0) :
    s.takeMet x f r = s.setRun x.w fun q =>
      ({ q.finish x.k with effs := q.effs ++ [(x.k, Eff.ttake f (if f.sv then some (x.o.left.full 0) else none))] } : Run).putAll
        [f.t0, f.t1] (Token.uni32 (BitVec.ofNat 32 r)) := by
  have h : (f.sv && (x.o.left.full 0).toNat % 64 != 0) = false := by
    cases hsv : f.sv <;> simp [ha, hsv]
  rw [State.takeMet, h]
  exact State.setRun_setRun ..

section Unit
variable (ht : s.team? x.w.team = some t) (hu : (t.taken.find? fun u => u.tid == tid.toNat) = some u)
include ht hu

/-- The holder's TGIVE leaves its release for the commit (R323). -/
theorem tgive_leaves (hf : Fires s (.tgive pr tid) x) (hok : uniOk (.tgive pr tid) x.o = true) (hh : u.heldBy x.w.warp = true)
    (hd : x.declares u = true) : Leaves s (.tgive pr tid) x (.tgive tid.toNat) :=
  leaves_of (exec_tgive s pr tid) hf (by
    simp only [hok, ht, hu, hh, hd, Option.bind_some, Bool.not_true, Bool.false_eq_true, if_false])

/-- A unit that the block declares as a whole is not undeclared (R327). -/
theorem State.undeclared?_of_declares (hd : x.declares u = true) : s.undeclared? x tid.toNat = false := by
  simp [State.undeclared?, ht, hu, hd]

/-- The routine of a unit that its warp still holds may end (R327, R329). -/
theorem State.mayEnd_of_held {q : Routine} (hq : x.warp.routine = some q) (htid : q.tid = tid.toNat) (hh : u.heldBy x.w.warp = true) :
    s.mayEnd x tid.toNat = true := by
  simp [State.mayEnd, Issue.inRoutine, hq, htid, State.holds, ht, hu, hh]

/-- The refusals that SREFU counts are the unit's (R330). -/
theorem State.refusals_of_unit :
    (((s.team? x.w.team).bind fun t => t.taken.find? fun u => u.tid == tid.toNat).map (·.refusals)).getD 0 = u.refusals := by
  simp [ht, hu]

end Unit

/-- A routine's end leaves the surrender, and gives each active lane the interrupted block (R328). -/
theorem State.endRoutine_eq (s : State) (x : Issue) (tid kind : Nat) : s.endRoutine x tid kind = s.setRun x.w fun r =>
    { r.finish x.k with
      effs := r.effs ++ [(x.k, Eff.surrender tid kind)]
      succs := r.succs ++ (allLanes.filter fun l => r.am.getLsbD l).map fun l => { idx := x.k, lane := l, kind := .routineEnd } } :=
  State.setRun_setRun ..

section Ends
variable (hm : s.mayEnd x tid.toNat = true) (hn : s.undeclared? x tid.toNat = false)
include hm hn

/-- SDONE of a routine that may end (R327 to R329). -/
theorem sdone_ends {sum : Bool} (hf : Fires s (.sdone pr sum tid) x) (hok : uniOk (.sdone pr sum tid) x.o = true) :
    exec (.sdone pr sum tid) s = .next (s.endRoutine x tid.toNat (if sum then 1 else 0)) := by
  rw [exec_sdone, execSdone, firing_eq hf]
  simp only [hok, hm, hn, Bool.not_true, Bool.false_eq_true, if_false]

/-- SREFU within the context's limit of refusals (R329, R330). -/
theorem srefu_ends (ht : s.team? x.w.team = some t) (hu : (t.taken.find? fun u => u.tid == tid.toNat) = some u)
    (hf : Fires s (.srefu pr tid) x) (hok : uniOk (.srefu pr tid) x.o = true)
    (hlim : u.refusals < s.refusalLimit x.w.team.launch.ctx) : exec (.srefu pr tid) s = .next (s.endRoutine x tid.toNat 2) := by
  rw [exec_srefu, execSrefu, firing_eq hf]
  have hle : ¬ s.refusalLimit x.w.team.launch.ctx ≤ u.refusals := by omega
  simp only [hok, hm, hn, State.refusals_of_unit ht hu, hle, Bool.not_true, Bool.false_eq_true, if_false]

end Ends

/-- Settles O34: a take met by its one effect and token; TGIVE by the holder's release; SDONE and SREFU by the end of the routine of a unit
that its warp holds and its block declares. -/
theorem takesComplete : Obligations.TakesComplete := by
  unfold Obligations.TakesComplete
  refine fun s x pr tid => ⟨fun f k r hf hok hk hr => ⟨fun hsv ha => ?_, fun ha => ?_⟩,
    fun t u hf hok ht hu hh hd => tgive_leaves ht hu hf hok hh hd, fun q t' u' hq htid ht hu hh hd => ?_⟩
  · rw [ttake_met hf hok hk hr, State.takeMet_misaligned r hsv ha]
  · rw [ttake_met hf hok hk hr, State.takeMet_aligned r ha]
    rfl
  · have hm := State.mayEnd_of_held ht hu hq htid hh
    have hn := State.undeclared?_of_declares ht hu hd
    intro ends
    exact ⟨fun hf hok => (sdone_ends hm hn hf hok).trans (congrArg _ (State.endRoutine_eq ..)),
      fun hf hok => (sdone_ends hm hn hf hok).trans (congrArg _ (State.endRoutine_eq ..)),
      fun t u hf hok ht hu hlim => (srefu_ends hm hn ht hu hf hok hlim).trans (congrArg _ (State.endRoutine_eq ..))⟩

end Sys2Proof.Machine
end

section
/-! SUPPORT. The host's accesses: posted ones with none before them, reads, counters, routes and poison (R360, R365 to R372). -/
namespace Sys2Proof.Machine

variable {s : State}

/-! ### Posted accesses -/

/-- The access that a post makes of an operation. -/
def State.arriving (s : State) (op : HostOp) (ro : Bool) : Posted := { id := s.nextId, op := op, ro := ro, entered := false, routes := [] }

/-- The state in which a posted access is the only one left. -/
def State.withPosted (s : State) (y : Posted) : State := { s with host := { s.host with posted := [y] } }

/-- The only posted access is looked at first, and none is earlier. -/
theorem letIn_one {y : Posted} (hp : s.host.posted = [y]) (he : y.entered = false) :
    s.letIn 1 = if s.mayEnter [] y then s.enter y else s := by
  rw [State.letIn, hp]
  simp only [List.find?_cons, List.find?_nil, List.takeWhile_cons, bne_self_eq_false, Bool.false_eq_true, if_false, he, Bool.not_false,
    Bool.true_and]
  cases s.mayEnter [] y <;> rfl

/-- The state once an identity is taken. -/
def State.idTaken (s : State) : State := { s with nextId := s.nextId + 1 }

/-- An access posted with none before it is let in at once, where it may be (R369, R370). -/
theorem State.post_alone (hp : s.host.posted = []) {op : HostOp} {ro : Bool}
    (hm : (s.idTaken.withPosted (s.arriving op ro)).mayEnter [] (s.arriving op ro) = true) :
    s.post op ro = (s.idTaken.withPosted (s.arriving op ro)).enter (s.arriving op ro) := by
  have hpost : s.post op ro = (s.idTaken.withPosted (s.arriving op ro)).letIn 1 := by
    simp only [State.post, State.newId, hp, List.nil_append, List.length_cons, List.length_nil]
    rfl
  rw [hpost, letIn_one rfl rfl, if_pos hm]

/-- With the only posted access gone, none is left. -/
theorem State.withPosted_drop (hp : s.host.posted = []) (y : Posted) :
    ({ s.withPosted y with host := { (s.withPosted y).host with posted := (s.withPosted y).host.posted.filter fun q => q.id != y.id } } : State) =
      s := by
  obtain ⟨⟩ := s
  simp only [State.withPosted, List.filter_cons, bne_self_eq_false, Bool.false_eq_true, if_false, List.filter_nil] at hp ⊢
  rw [← hp]

section Alone
variable (hp : s.host.posted = []) {y : Posted}
include hp

theorem enter_bell_alone {c q : Nat} {off : W64} (ho : y.op = .bell c q off) : (s.withPosted y).enter y = s.ringBell c q off := by
  simp only [State.enter, ho, State.withPosted_drop hp]

theorem enter_mail_alone {off : Nat} {v : W64} (ho : y.op = .mail off v) : (s.withPosted y).enter y = s.mailWrite off v := by
  simp only [State.enter, ho, State.withPosted_drop hp]

theorem enter_atomic_alone {op : HostAop} {wide : Bool} {off : Nat} {a b : W64} (ho : y.op = .atomic op wide off a b) :
    (s.withPosted y).enter y = s.hostAtomic op wide off a b := by
  simp only [State.enter, ho, State.withPosted_drop hp]

end Alone

/-- A write let in begins its routes (R369). -/
theorem enter_write_alone {y : Posted} {off : Nat} {bytes : List W8} {ep : Bool} (ho : y.op = .write off bytes ep) (hb : bytes ≠ []) :
    (s.withPosted y).enter y = s.withPosted { y with entered := true, routes := routesOf off bytes.length } := by
  have hne : bytes.isEmpty = false := by simpa using hb
  simp only [State.enter, ho, hne, Bool.false_eq_true, if_false]
  simp [State.withPosted, ho]

/-- A doorbell that is well placed moves its queue's write offset (R370, R371). -/
theorem State.ringBell_moves {ctx n : Nat} {off : W64} {q : Queue} (hq : s.queue? ctx n = some q) (h8 : off.toNat % 8 = 0)
    (hrd : off.toNat % q.size ≠ q.rd ∨ q.wr = q.rd) :
    s.ringBell ctx n off = (s.setQueue ctx n fun y => { y with wr := off.toNat % q.size }).event (.doorbell ctx n) := by
  have hgood : (off.toNat % 8 != 0 || (off.toNat % q.size == q.rd && q.wr != q.rd)) = false := by
    simpa [h8, Decidable.imp_iff_not_or] using hrd
  simp only [State.ringBell, hq, hgood, Bool.false_eq_true, if_false]

/-- A step of the host's function while it is not frozen (R365). -/
theorem State.hostStep_running (h : s.host.frozen = false) (f : State → State) : s.hostStep f = .next (f s) := by
  simp [State.hostStep, h]

/-- One while it is frozen is dropped (R365). -/
theorem State.hostStep_frozen (h : s.host.frozen = true) (f : State → State) : s.hostStep f = .next s := by
  simp [State.hostStep, h]

section Running
variable (hf : s.host.frozen = false)
include hf

section Posts
variable (hp : s.host.posted = [])
include hp

/-- A doorbell with room for its event moves its queue's write offset (R370). -/
theorem doorbell_moves {ctx n : Nat} {off : W64} {q : Queue} (hc : ctx < 64) (hn : n < 256) (hroom : s.eventRoom = true)
    (hq : s.queue? ctx n = some q) (h8 : off.toNat % 8 = 0) (hrd : off.toNat % q.size ≠ q.rd ∨ q.wr = q.rd) :
    exec (.doorbell ctx n off) s = .next ((s.idTaken.setQueue ctx n fun y =>
      { y with wr := off.toNat % q.size }).event (.doorbell ctx n)) := by
  rw [exec_doorbell, execDoorbell, State.hostStep_running hf]
  simp only [hc, hn, decide_true, Bool.and_self, if_true]
  rw [State.post_alone hp (by exact hroom), enter_bell_alone (by exact hp) rfl, State.ringBell_moves (by exact hq) h8 hrd]

/-- A posted write of at most 512 bytes begins its routes (R367, R369). -/
theorem hostPostedWrite_begins {off : Nat} {bytes : List W8} {attr : TlpAttr} (hoff : off + bytes.length ≤ 2 ^ 39)
    (hlen : bytes.length ≤ 512) (hb : bytes ≠ []) :
    exec (.hostPostedWrite off bytes attr) s = .next (s.idTaken.withPosted
      { s.arriving (.write off bytes attr.ep) attr.ro with entered := true, routes := routesOf off bytes.length }) := by
  rw [exec_hostPostedWrite, execHostPostedWrite, State.hostStep_running hf, if_pos (by simp only [Bool.and_eq_true, decide_eq_true_eq]; exact ⟨hoff, hlen⟩),
    State.post_alone hp rfl, enter_write_alone rfl hb]

/-- A read completes with the bytes of memory, corrected (R362, R369). -/
theorem hostRead_completes {off len : Nat} (hoff : off + len ≤ 2 ^ 39) :
    exec (.hostRead off len) s = .next ((s.sysFix off len).completion (.data (s.sysRead off len) (s.poisoned off len))) := by
  have hin : ¬ bar2 < off + len := by simp only [bar2]; omega
  rw [exec_hostRead, execHostRead, State.hostStep_running hf]
  simp only [hin, hp, if_false, List.isEmpty_nil, Bool.not_true, Bool.false_eq_true]

/-- An aligned AtomicOp acts at its line's home (R369). -/
theorem hostAtomicop_acts {op : HostAop} {wide : Bool} {off : Nat} {a b : W64} (hoff : off + (if wide then 8 else 4) ≤ 2 ^ 39)
    (hal : off % (if wide then 8 else 4) = 0) :
    exec (.hostAtomicop op wide off a b) s = .next (s.idTaken.hostAtomic op wide off a b) := by
  have hin : ¬ bar2 < off + (if wide then 8 else 4) := by simp only [bar2]; omega
  rw [exec_hostAtomicop, execHostAtomicop, State.hostStep_running hf]
  simp only [hin, hal, if_false, bne_self_eq_false, Bool.false_eq_true]
  rw [State.post_alone hp rfl, enter_atomic_alone (by exact hp) rfl]

/-- A word of the mailbox is written (R372). -/
theorem registerWrite_mail {i : Nat} {val : W64} (hi : i < 4) : exec (.registerWrite (0x1000 + 8 * i) val) s =
    .next (s.idTaken.mailWrite (0x1000 + 8 * i) val) := by
  have hreg : (decide (0x1000 ≤ 0x1000 + 8 * i) && decide (0x1000 + 8 * i ≤ 0x1028) && (0x1000 + 8 * i) % 8 == 0) = true := by
    simp only [Bool.and_eq_true, decide_eq_true_eq, beq_iff_eq]
    omega
  have hring : (0x1000 + 8 * i != 0x1020) = true := by
    simp only [bne_iff_ne]
    omega
  rw [exec_registerWrite, execRegisterWrite, State.hostStep_running hf, if_pos hreg,
    State.post_alone hp (by simp [State.mayEnter, State.arriving, hring]), enter_mail_alone (by exact hp) rfl]

/-- The mailbox is rung while its event has room (R372). -/
theorem registerWrite_ring (hroom : s.eventRoom = true) :
    exec (.registerWrite 0x1020 1) s = .next (s.idTaken.mailWrite 0x1020 1) := by
  rw [exec_registerWrite, execRegisterWrite, State.hostStep_running hf, if_pos (by decide),
    State.post_alone hp (by exact hroom), enter_mail_alone (by exact hp) rfl]

end Posts

/-- An AtomicOp beyond BAR 2 freezes the function (R365, R369). -/
theorem hostAtomicop_beyond {op : HostAop} {wide : Bool} {off : Nat} {a b : W64} (hoff : 2 ^ 39 < off + (if wide then 8 else 4)) :
    exec (.hostAtomicop op wide off a b) s = .next s.badRequest := by
  rw [exec_hostAtomicop, execHostAtomicop, State.hostStep_running hf]
  exact congrArg _ (if_pos hoff)

/-- A counter is read and cleared (R366, R368). -/
theorem counterRead_clears {off n : Nat} (hn : counterBytes off = some n) : exec (.counterRead off) s =
    .next (({ s with regs := { s.regs with counters := s.regs.counters.filter fun p => p.1 != off } } : State).completion
      (.data (leBytes n (((s.regs.counters.find? fun p => p.1 == off).map (·.2)).getD 0)) false)) := by
  rw [exec_counterRead, execCounterRead, State.hostStep_running hf]
  simp only [hn]

end Running

/-- The word of the mailbox that a register's offset names. -/
theorem State.mailWrite_word {i : Nat} (hi : i < 4) (v : W64) :
    s.mailWrite (0x1000 + 8 * i) v = { s with host := { s.host with mail := s.host.mail.set i v } } := by
  have hi' : (0x1000 + 8 * i - 0x1000) / 8 = i := by omega
  rw [State.mailWrite, if_pos (by omega), hi']

/-- A ring of an idle mailbox takes its words as the command (R372). -/
theorem State.mailWrite_ring (h : s.host.ring = 0) :
    s.mailWrite 0x1020 1 = ({ s with host := { s.host with ring := 1, cmd := s.host.mail } } : State).event .command := by
  rw [State.mailWrite, if_neg (by decide), if_pos (by decide), State.ringMail, if_pos (by simp [h])]

/-! ### Routes and poison -/

/-- Bytes of a TLP written leave what is no part of the memory system. -/
theorem State.tlpWrite_step (s : State) (pa : Nat) (bs : List W8) (ep : Bool) : CacheStep s (s.tlpWrite pa bs ep) := by
  unfold State.tlpWrite
  dsimp only
  split
  · exact (s.sysWrite_step pa bs).trans (CacheStep.foldl (fun s j => s.mark_step _ _ _) _ _)
  · exact s.sysWrite_step pa bs

/-- The last acknowledgement of the only posted write: its lines are written, and none is left (R369). -/
theorem routeAcknowledge_last {id die off : Nat} {bytes : List W8} {ep ro : Bool}
    (h : s.host.posted = [{ id := id, op := .write off bytes ep, ro := ro, entered := true, routes := [die] }]) :
    let t := ((lineParts off bytes.length).filter fun q => routeOf (off + q.1) == die).foldl
      (fun s q => s.tlpWrite (off + q.1) ((bytes.drop q.1).take q.2) ep) s
    exec (.routeAcknowledge id die) s = .next { t with host := { t.host with posted := [] } } := by
  intro t
  have hstep : CacheStep s t := CacheStep.foldl (fun s (q : Nat × Nat) => s.tlpWrite_step (off + q.1) ((bytes.drop q.1).take q.2) ep) _ s
  have ht : t.host.posted = s.host.posted := congrArg (·.posted) (hstep.same State.host fun _ => rfl)
  have hfind : (s.host.posted.find? fun p => p.id == id && p.entered && p.routes.contains die) =
      some { id := id, op := .write off bytes ep, ro := ro, entered := true, routes := [die] } := by
    simp [h]
  rw [exec_routeAcknowledge, execRouteAcknowledge, hfind]
  have hleft : (t.host.posted.map fun q : Posted => if q.id == id then { q with routes := q.routes.filter (· != die) } else q).filter
      (fun q => !(q.entered && q.routes.isEmpty)) = [] := by
    simp [ht, h]
  change Host.Outcome.next (State.letIn _ { t with host := { t.host with posted := _ } }) = _
  rw [hleft]
  rfl

/-- A granule marked bears a mark. -/
theorem State.mark_marks (s : State) (p : Place) (pa code : Nat) : ∃ k ∈ (s.mark p pa code).poison, k.gran = pa / 16 := by
  unfold State.mark
  split
  · rename_i h
    obtain ⟨k, hk, hp⟩ := List.any_eq_true.mp h
    exact ⟨k, hk, (by simpa using hp : k.place = p ∧ k.gran = pa / 16).2⟩
  · exact ⟨_, List.mem_cons_self, rfl⟩

/-- Marking a granule keeps every mark. -/
theorem State.mark_keeps {p : Place} {pa code : Nat} {k : Mark} (h : k ∈ s.poison) : k ∈ (s.mark p pa code).poison := by
  unfold State.mark
  split
  · exact h
  · exact List.mem_cons_of_mem _ h

/-- Granules marked one after another all bear marks. -/
theorem marks_all (p : State → Place) (at' : Nat → Nat) (js : List Nat) (s : State) {j : Nat} (hj : j ∈ js) :
    ∃ k ∈ (js.foldl (fun s j => s.mark (p s) (at' j) 9) s).poison, k.gran = at' j / 16 := by
  have hkeep : ∀ (js : List Nat) (s : State) (k : Mark), k ∈ s.poison → k ∈ (js.foldl (fun s j => s.mark (p s) (at' j) 9) s).poison :=
    fun js s k hk => foldl_keeps (fun t : State => k ∈ t.poison) _ (fun _ _ h => State.mark_keeps h) js s hk
  induction js generalizing s with
  | nil => cases hj
  | cons i js ih =>
    rcases List.mem_cons.mp hj with rfl | hj
    · obtain ⟨k, hk, hg⟩ := s.mark_marks (p s) (at' j) 9
      exact ⟨k, hkeep js _ k hk, hg⟩
    · exact ih _ hj

/-- Each byte of a poisoned TLP lies in a granule that bears a mark (R360). -/
theorem State.tlpWrite_poisons (s : State) {pa a : Nat} {bs : List W8} (hlo : pa ≤ a) (hhi : a < pa + bs.length) :
    ∃ k ∈ (s.tlpWrite pa bs true).poison, k.gran = a / 16 := by
  have hj : a / 16 - pa / 16 ∈ List.range ((pa % 16 + bs.length + 15) / 16) := by
    rw [List.mem_range]
    omega
  obtain ⟨k, hk, hg⟩ := marks_all (fun s => s.homeAt (pa / 128)) (fun j => pa / 16 * 16 + 16 * j) _ (s.sysWrite pa bs) hj
  exact ⟨k, hk, by omega⟩

/-! ### The mark a read meets, and the host's function -/

/-- The state with another record of the host's function. -/
def State.setHost (s : State) (h : HostPort) : State := { s with host := h }

theorem State.correct_setHost (s : State) (h : HostPort) (gs : List Granule) : (s.setHost h).correct gs = (s.correct gs).setHost h := by
  unfold State.correct
  change (if s.errs.isEmpty then _ else _) = _
  split
  · rfl
  · refine List.foldl_hom (fun t : State => t.setHost h) fun t g => ?_
    change (if t.errs.contains (g, false) then _ else _) = _
    split <;> rfl

theorem State.fix_setHost (s : State) (h : HostPort) (p : Place) (pa n : Nat) : (s.setHost h).fix p pa n = (s.fix p pa n).setHost h := by
  unfold State.fix
  change (if s.errs.isEmpty then _ else _) = _
  split
  · rfl
  · exact s.correct_setHost h _

theorem State.carry_setHost (s : State) (h : HostPort) (src dst : Place) (ln : Nat) (m : LineMask) :
    (s.setHost h).carry src dst ln m = (s.carry src dst ln m).setHost h := by
  unfold State.carry
  change (if s.poison.isEmpty && s.errs.isEmpty then _ else _) = _
  split <;> rfl

theorem State.writeBackL1_setHost (s : State) (h : HostPort) (core ln : Nat) :
    (s.setHost h).writeBackL1 core ln = (s.writeBackL1 core ln).setHost h := by
  have hl : (s.setHost h).l1? core ln = s.l1? core ln := rfl
  unfold State.writeBackL1
  rw [hl]
  cases s.l1? core ln with
  | none => rfl
  | some x =>
    dsimp only
    split
    · rfl
    · rw [State.fix_setHost, State.carry_setHost]
      rfl

theorem State.recallL1s_setHost (s : State) (h : HostPort) (die ln : Nat) :
    (s.setHost h).recallL1s die ln false = (s.recallL1s die ln false).setHost h :=
  List.foldl_hom (fun t : State => t.setHost h) fun t c => t.writeBackL1_setHost h c ln

/-- What the host's function holds is no part of the mark that a read meets. -/
theorem State.sysMark_setHost (s : State) (h : HostPort) (pa n : Nat) : (s.setHost h).sysMark pa n = s.sysMark pa n := by
  unfold State.sysMark
  change (if s.poison.isEmpty then none else _) = _
  congr 2
  funext ln
  change (let t := match s.owner? ln with | some o => (s.setHost h).recallL1s o ln false | none => s.setHost h
    ((t.marksAt (t.bestAt ln) pa n).head?).map (·.code)) = _
  cases s.owner? ln with
  | none => rfl
  | some o =>
    simp only [State.recallL1s_setHost]
    rfl

/-! ### AtomicOps (R369) -/

theorem State.completion_poisoned (s : State) (c : Completion) (pa n : Nat) : (s.completion c).poisoned pa n = s.poisoned pa n :=
  congrArg Option.isSome (s.sysMark_setHost _ pa n)

/-- What an AtomicOp of the host writes, if it writes (R369; which operand of CAS compares: log 71). -/
def hostWrites (op : HostAop) (n old : Nat) (a b : W64) : Option Nat :=
  match op with
  | .fetchAdd => some (old + a.toNat % 2 ^ (8 * n))
  | .swap => some (a.toNat % 2 ^ (8 * n))
  | .cas => if old == a.toNat % 2 ^ (8 * n) then some (b.toNat % 2 ^ (8 * n)) else none

/-- A number of `n` bytes written at a home, if one is. -/
def State.setHome? (s : State) (pa n : Nat) (v : Option Nat) : State :=
  match v with
  | some v => s.setHome pa (leBytes n v)
  | none => s

theorem State.setHome?_mem (s : State) (pa n : Nat) (v : Option Nat) :
    (s.setHome? pa n v).mem = (v.map fun v => wrBytes s.mem pa (leBytes n v)).getD s.mem := by
  cases v with
  | none => rfl
  | some v => exact (s.setHome_eq pa (leBytes n v)).1

/-- An AtomicOp at its line's home: it reads the old bytes, writes what it writes, and completes with the old bytes (R369). -/
theorem State.hostAtomic_eq (s : State) (op : HostAop) (wide : Bool) (off : Nat) (a b : W64) :
    let n := if wide then 8 else 4
    let u := (s.atHome none off n).dropLags off n
    let old := leNat (rdBytes u.mem off n)
    let t := u.setHome? off n (hostWrites op n old a b)
    s.hostAtomic op wide off a b = t.completion (.data (leBytes n old) (t.poisoned off n)) := by
  intro n u old t
  cases op <;> rfl

/-- Settles O55: one access at a time, with no posted one left; what a frozen function drops; a route's lines and their poison; and what an
AtomicOp writes and completes with. -/
theorem hostAccessesComplete : Obligations.HostAccessesComplete := by
  unfold Obligations.HostAccessesComplete
  refine ⟨fun s hf => ?_, fun s => ?_, fun s wide off a b => ?_⟩
  · intro v
    refine ⟨fun ctx n off q hc hn hp hroom hq h8 hrd => doorbell_moves hf hp hc hn hroom hq h8 hrd,
      fun off bytes attr hoff hlen hb hp => hostPostedWrite_begins hf hp hoff hlen hb,
      fun off len hoff hp => hostRead_completes hf hp hoff,
      fun op wide off a b hoff hal hp => hostAtomicop_acts hf hp hoff hal,
      fun op wide off a b hoff => hostAtomicop_beyond hf hoff,
      fun off n hn => counterRead_clears hf hn, fun i val hi hp => ?_, fun hring hp hroom => ?_⟩
    · rw [registerWrite_mail hf hp hi, State.mailWrite_word hi]
      rfl
    · rw [registerWrite_ring hf hp hroom, State.mailWrite_ring (by exact hring)]
      rfl
  · refine ⟨rfl, fun id die off bytes ep ro h => routeAcknowledge_last h,
      fun pa bs => ⟨rfl, fun a hlo hhi => s.tlpWrite_poisons hlo hhi⟩, fun hz ctx n off len val bytes attr op wide a b => ?_⟩
    have hdrop := State.hostStep_frozen hz
    exact ⟨(exec_doorbell ..).trans (hdrop _), (exec_hostPostedWrite ..).trans (hdrop _), (exec_hostRead ..).trans (hdrop _),
      (exec_hostAtomicop ..).trans (hdrop _), (exec_counterRead ..).trans (hdrop _), (exec_registerWrite ..).trans (hdrop _)⟩
  · intro n u old wrote
    have hmem (op : HostAop) : (s.hostAtomic op wide off a b).mem =
        ((hostWrites op n old a b).map fun v => wrBytes u.mem off (leBytes n v)).getD u.mem := by
      rw [State.hostAtomic_eq]
      exact u.setHome?_mem off n _
    refine ⟨hmem .fetchAdd, hmem .swap, fun heq => ?_, fun hne => ?_, fun op => ?_⟩
    · refine (hmem .cas).trans ?_
      rw [hostWrites, if_pos (beq_iff_eq.mpr heq)]
      rfl
    · rw [hmem .cas, hostWrites, if_neg (by simpa using hne)]
      rfl
    · rw [State.hostAtomic_eq, State.completion_poisoned]
      exact List.getLast?_concat

end Sys2Proof.Machine
end

section
/-! SUPPORT. A packet popped from its ring (R337, R339, R371), and the event that a firmware core takes (R341). -/
namespace Sys2Proof.Machine

variable {s : State} {ctx n : Nat} {q : Queue}

/-! ### Words of a ring -/

/-- The state once the words of a ring from word `i` on have been read, corrected (R360). -/
def State.ringFixed (s : State) (q : Queue) (i n : Nat) : State := (List.range n).foldl (fun s j => s.sysFix (q.wordAt (i + j)) 8) s

/-- The first word of a ring that bears a mark. -/
def State.ringMark (s : State) (q : Queue) (i n : Nat) : Option (Nat × Nat) :=
  (List.range n).findSome? fun j => (s.sysMark (q.wordAt (i + j)) 8).map fun k => (q.wordAt (i + j), k)

/-- Words of a ring are read: corrected, and then a fault for poison, or what is done with them. -/
theorem State.ringRead_eq (s : State) (ctx : Nat) (q : Queue) (i n : Nat) (k : State → State) : s.ringRead ctx q i n k =
    ((s.ringFixed q i n).ringMark q i n).elim (k (s.ringFixed q i n)) fun m =>
      (s.ringFixed q i n).fwFault { ctx := ctx, queue := q.num, pos := q.pops } 0x0B 0 0 [BitVec.ofNat 64 m.2, BitVec.ofNat 64 m.1] := by
  unfold State.ringRead
  simp only [List.foldl_map, List.findSome?_map, Function.comp_def]
  change (match (s.ringFixed q i n).ringMark q i n with | some (a, code) => _ | none => k (s.ringFixed q i n)) = _
  cases (s.ringFixed q i n).ringMark q i n <;> rfl

theorem State.ringRead_poison {i : Nat} {k : State → State} {a code : Nat} (h : (s.ringFixed q i n).ringMark q i n = some (a, code)) :
    s.ringRead ctx q i n k = (s.ringFixed q i n).fwFault { ctx := ctx, queue := q.num, pos := q.pops } 0x0B 0 0
      [BitVec.ofNat 64 code, BitVec.ofNat 64 a] := by
  rw [State.ringRead_eq, h, Option.elim_some]

theorem State.ringRead_clean {i : Nat} {k : State → State} (h : ∀ j, j < n → (s.ringFixed q i n).sysMark (q.wordAt (i + j)) 8 = none) :
    s.ringRead ctx q i n k = k (s.ringFixed q i n) := by
  have hm : (s.ringFixed q i n).ringMark q i n = none :=
    List.findSome?_eq_none_iff.mpr fun j hj => by rw [h j (List.mem_range.mp hj), Option.map_none]
  rw [State.ringRead_eq, hm, Option.elim_none]

/-! ### A packet popped -/

/-- A queue with a header between its offsets, in a context without a fault, has a next packet to look at (R339, R371). -/
theorem State.hasNext_of (hfy : s.faulty ctx = false) (hz : q.frozen = false) (hw : q.window.length < 32)
    (hn : ∀ k ∈ q.window, k.type ≠ 6) (ha : 32 ≤ q.avail) : s.hasNext ctx q = true := by
  simpa [State.hasNext, hfy, hz, hw, ha] using hn

section Pop
variable (hq : s.queue? ctx n = some q) (hnext : s.hasNext ctx q = true) (hh : s.handles ctx n = true)
include hq hnext hh

/-- A queue that has a next packet, and whose event a core handles, has its header read. -/
theorem packetPop_reads : exec (.packetPop ctx n) s = .next (s.ringRead ctx q 0 4 fun s =>
    let head := s.ringWords q 0 4
    if !headerOk head then s.freeze ctx n 4 ((head.headD 0).toNat % 2 ^ 32) q.pops 0
    else if q.avail < 32 + 8 * headNb head then s
    else s.ringRead ctx q 4 (headNb head) fun s => s.popWhole ctx q head (headNb head)) := by
  rw [exec_packetPop, execPacketPop, hq]
  simp only [hnext, hh, Bool.not_true, Bool.or_self, Bool.false_eq_true, if_false]

/-- Poison in the header is a fault of its context (R362; before the header's own checks: log 99). -/
theorem packetPop_poison {a code : Nat} (hm : (s.ringFixed q 0 4).ringMark q 0 4 = some (a, code)) : exec (.packetPop ctx n) s =
    .next ((s.ringFixed q 0 4).fwFault { ctx := ctx, queue := q.num, pos := q.pops } 0x0B 0 0 [BitVec.ofNat 64 code, BitVec.ofNat 64 a]) := by
  rw [packetPop_reads hq hnext hh, State.ringRead_poison hm]

variable (hclean : ∀ j, j < 4 → (s.ringFixed q 0 4).sysMark (q.wordAt (0 + j)) 8 = none)
include hclean

/-- A malformed header is not popped, and freezes the queue (R337, R371). -/
theorem packetPop_malformed (hbad : headerOk ((s.ringFixed q 0 4).ringWords q 0 4) = false) : exec (.packetPop ctx n) s =
    .next ((s.ringFixed q 0 4).freeze ctx n 4 ((((s.ringFixed q 0 4).ringWords q 0 4).headD 0).toNat % 2 ^ 32) q.pops 0) := by
  rw [packetPop_reads hq hnext hh, State.ringRead_clean hclean]
  simp only [hbad, Bool.not_false, if_true]

/-- A whole packet is popped (R371). -/
theorem packetPop_pops {head : List W64} (hhead : (s.ringFixed q 0 4).ringWords q 0 4 = head) (hok : headerOk head = true)
    (ha : 32 + 8 * headNb head ≤ q.avail)
    (hbody : ∀ j, j < headNb head → ((s.ringFixed q 0 4).ringFixed q 4 (headNb head)).sysMark (q.wordAt (4 + j)) 8 = none) :
    exec (.packetPop ctx n) s =
      .next (((s.ringFixed q 0 4).ringFixed q 4 (headNb head)).popWhole ctx q head (headNb head)) := by
  have hle : ¬ q.avail < 32 + 8 * headNb head := by omega
  rw [packetPop_reads hq hnext hh, State.ringRead_clean hclean]
  simp only [hhead, hok, hle, Bool.not_true, Bool.false_eq_true, if_false]
  rw [State.ringRead_clean hbody]

end Pop

/-! ### Events -/

/-- The queue of an event is one that an event held by another core belongs to, so that it waits (R341). -/
def State.evtLocked (s : State) (fw : Nat) (y : Evt) : Prop :=
  ∃ x, some x ∈ s.fw.held.set fw none ∧ (s.evtQueue y).isSome = true ∧ s.evtQueue x = s.evtQueue y

/-- An event's queue is none of those that the other cores hold. -/
def State.evtFree (s : State) (fw : Nat) (e : Evt) : Bool :=
  ((s.evtQueue e).map fun q => !((s.fw.held.set fw none).filterMap fun e => e.bind s.evtQueue).contains q).getD true

theorem State.evtFree_iff (s : State) (fw : Nat) (e : Evt) : s.evtFree fw e = true ↔ ¬ s.evtLocked fw e := by
  unfold State.evtFree State.evtLocked
  cases h : s.evtQueue e with
  | none => simp
  | some q =>
    simp only [Option.map_some, Option.getD_some, Bool.not_eq_true', Option.isSome_some, true_and]
    rw [← Bool.not_eq_true, not_iff_not, List.contains_iff_mem, List.mem_filterMap]
    constructor
    · rintro ⟨y, hy, hb⟩
      obtain ⟨x, rfl, hx⟩ := Option.bind_eq_some_iff.mp hb
      exact ⟨x, hy, hx⟩
    · rintro ⟨x, hx, hxq⟩
      exact ⟨some x, hx, hxq⟩

/-- The firmware once a core has taken event `e` from between `before` and `after`: those held back enter as room comes (R341). -/
def State.taken (s : State) (fw : Nat) (e : Evt) (before after : List Evt) : State :=
  { s with fw := { s.fw with
      held := (s.fw.held.set fw none).set fw (some e), events := before ++ after ++ s.fw.back.take (4096 - (before ++ after).length)
      back := s.fw.back.drop (4096 - (before ++ after).length) } }

/-- An event of a queue is counted there, and its window is evaluated anew (R341, R342). -/
def State.evaluated (s : State) (e : Evt) : State :=
  match s.evtQueue e with
  | some q => ({ s with order := s.order + 1 } : State).setQueue q.1 q.2 fun y => { y with evals := y.evals + 1, eval := s.order }
  | none => s

/-- The first event whose queue no other core holds is taken from between those before it and those after. -/
theorem State.takeEvent_found {fw : Nat} {e : Evt} (h : s.fw.events.find? (s.evtFree fw) = some e) :
    let before := s.fw.events.takeWhile fun y => !s.evtFree fw y
    s.takeEvent fw = (s.taken fw e before (s.fw.events.drop (before.length + 1))).evaluated e := by
  intro before
  unfold State.takeEvent
  change (match s.fw.events.find? (s.evtFree fw) with | none => _ | some e => _) = _
  rw [h]
  rfl

section Take
variable {fw : Nat} {e : Evt} {before after : List Evt} (hev : s.fw.events = before ++ e :: after)
  (hbefore : ∀ y ∈ before, s.evtLocked fw y) (he : ¬ s.evtLocked fw e)
include hev hbefore he

/-- The oldest event whose queue no other core holds is taken, and the rest keep their order (R341). -/
theorem State.takeEvent_eq : s.takeEvent fw = (s.taken fw e before after).evaluated e := by
  have hfe : s.evtFree fw e = true := (s.evtFree_iff fw e).mpr he
  have hfb : ∀ y ∈ before, ¬ s.evtFree fw y = true := fun y hy hf => (s.evtFree_iff fw y).mp hf (hbefore y hy)
  have hfind : s.fw.events.find? (s.evtFree fw) = some e :=
    List.find?_eq_some_iff_append.mpr ⟨hfe, before, after, hev, fun y hy => by simpa using hfb y hy⟩
  have hwhile : (s.fw.events.takeWhile fun y => !s.evtFree fw y) = before := by
    rw [hev, List.takeWhile_append_of_pos (fun y hy => by simpa using hfb y hy), List.takeWhile_cons, hfe]
    simp
  have hdrop : s.fw.events.drop (before.length + 1) = after := by
    rw [hev, List.drop_append]
    simp
  have htake := State.takeEvent_found hfind
  dsimp only at htake
  rw [hwhile, hdrop] at htake
  exact htake

end Take

theorem State.evaluated_host (s : State) (e : Evt) : (s.evaluated e).host = s.host := by
  unfold State.evaluated
  split <;> rfl

theorem State.evaluated_fw (s : State) (e : Evt) : (s.evaluated e).fw = s.fw := by
  unfold State.evaluated
  split <;> rfl

/-- A command that names a queue has an assigned OP (R372). -/
theorem State.badCommand_names (h : (s.cmdNames).isSome = true) : s.badCommand = false := by
  unfold State.cmdNames at h
  dsimp only at h
  split at h
  · rename_i hop
    simp only [Bool.and_eq_true, decide_eq_true_eq] at hop
    simp only [State.badCommand, Sys2Proof.slice_toNat, Bool.and_eq_false_iff, Bool.or_eq_false_iff, beq_eq_false_iff_ne,
      decide_eq_false_iff_not]
    right
    constructor <;> omega
  · cases h

section Event
variable {fw : Nat}

/-- A core whose event has something left to do keeps it (R341, log 68). -/
theorem firmwareEventTake_keeps {e : Evt} (hh : s.fw.held.getD fw none = some e) (hu : s.unfinished e = true) :
    exec (.firmwareEventTake fw) s = .next s := by
  rw [exec_firmwareEventTake, execFirmwareEventTake, hh]
  simp only [Option.map_some, Option.getD_some, hu, Bool.or_true, if_true]

variable (hfw : fw < 12) (hidle : ∀ y, s.fw.held.getD fw none = some y → s.unfinished y = false) {t : State} (ht : s.takeEvent fw = t)
include hfw hidle ht

/-- A core that has finished its event takes the next; a command without an assigned OP is answered, and what waited for room is let in
(R341, R372). -/
theorem firmwareEventTake_takes : exec (.firmwareEventTake fw) s =
    let u := if t.fw.held.getD fw none == some .command && t.badCommand then t.answer 1 else t
    .next (u.letIn u.host.posted.length) := by
  have hdone : ((s.fw.held.getD fw none).map s.unfinished).getD false = false := by
    cases h : s.fw.held.getD fw none with
    | none => rfl
    | some y => exact hidle y h
  have hlt : ¬ 12 ≤ fw := by omega
  rw [exec_firmwareEventTake, execFirmwareEventTake, hdone]
  simp only [hlt, decide_false, Bool.or_self, Bool.false_eq_true, if_false, ht]

/-- The event taken is no malformed command. -/
theorem firmwareEventTake_good (hgood : (t.fw.held.getD fw none == some .command && t.badCommand) = false) :
    exec (.firmwareEventTake fw) s = .next (t.letIn t.host.posted.length) := by
  rw [firmwareEventTake_takes hfw hidle ht]
  simp only [hgood, Bool.false_eq_true, if_false]

/-- A command without an assigned OP is answered with 1, and the mailbox is idle (R372). -/
theorem firmwareEventTake_malformed (hc : t.fw.held.getD fw none = some .command) (hb : t.badCommand = true) (hp : t.host.posted = []) :
    exec (.firmwareEventTake fw) s = .next (t.answer 1) := by
  have hp' : (t.answer 1).host.posted = [] := hp
  rw [firmwareEventTake_takes hfw hidle ht]
  simp only [hc, hb, beq_self_eq_true, Bool.and_self, if_true, hp', List.length_nil]
  rfl

end Event

/-- A doorbell that waits for room, alone, is let in when there is some (R341, R370). -/
theorem letIn_bell {y : Posted} {c : Nat} {off : W64} (hp : s.host.posted = [y]) (he : y.entered = false) (ho : y.op = .bell c n off) :
    s.letIn 1 = if s.eventRoom then ({ s with host := { s.host with posted := [] } } : State).ringBell c n off else s := by
  have hmay : s.mayEnter [] y = s.eventRoom := by simp [State.mayEnter, ho]
  have henter : s.enter y = ({ s with host := { s.host with posted := [] } } : State).ringBell c n off := by
    simp [State.enter, ho, hp]
  rw [letIn_one hp he, hmay, henter]

/-- A queue whose window holds a packet to complete has something left to do, whether the event queue has room or not (log 68). -/
theorem State.unfinished_of_done (hq : s.queue? ctx n = some q) (h : ∃ k ∈ q.window, k.ph = .done) :
    s.unfinished (.doorbell ctx n) = true := by
  have hdone : (q.window.any fun k => k.ph == .done) = true := by simpa using h
  have hwork : s.queueWork ctx n = true := by
    simp only [State.queueWork, hq, hdone, Bool.true_or]
  change (s.readsLeft (.doorbell ctx n) || s.queueWork ctx n) = true
  rw [hwork, Bool.or_true]

/-- QSET, QRESET and QRESUME belong to the queue they name (R341, R372). -/
theorem State.evtQueue_command {op : Nat} (h2 : 2 ≤ op) (h4 : op ≤ 4) (hop : (s.host.cmd.headD 0).toNat / 2 ^ 56 = op) :
    s.evtQueue .command = some ((s.host.cmd.headD 0).toNat / 2 ^ 50 % 64, (s.host.cmd.headD 0).toNat / 2 ^ 40 % 256) := by
  change s.cmdNames = _
  rw [State.cmdNames, hop]
  exact if_pos (by simp [h2, h4])

/-- Settles O54: the header and the body are read in turn; the event taken is the first whose queue is not locked. -/
theorem packetsArePoppedAndEventsTaken : Obligations.PacketsArePoppedAndEventsTaken := by
  unfold Obligations.PacketsArePoppedAndEventsTaken
  refine ⟨?_, ?_, fun s y c n off hp he ho => ?_, fun s ctx n => ⟨rfl, fun q hq h => State.unfinished_of_done hq h, ?_⟩,
    fun s fw y _ hh hu => firmwareEventTake_keeps hh hu⟩
  · intro s ctx n q hq hfy hh hnum hz hw hn avail u head nb v ha
    subst hnum
    have hnext : s.hasNext ctx q = true := State.hasNext_of hfy hz hw hn ha
    have hu : s.ringFixed q 0 4 = u := by simp only [State.ringFixed, Nat.zero_add, u]
    refine ⟨fun a code hm => ?_, fun hclean => ?_⟩
    · have hmark : (s.ringFixed q 0 4).ringMark q 0 4 = some (a, code) := by
        simpa only [hu, State.ringMark, Nat.zero_add] using hm
      rw [packetPop_poison hq hnext hh hmark, hu]
    · have hclean' : ∀ j, j < 4 → (s.ringFixed q 0 4).sysMark (q.wordAt (0 + j)) 8 = none := by
        simpa only [hu, Nat.zero_add] using hclean
      refine ⟨fun hok hlen hbody => ?_, fun hbad => ?_⟩
      · intro k new
        have hpop := packetPop_pops hq hnext hh hclean' (head := head) (by rw [hu]) hok hlen (by rw [hu]; exact hbody)
        rw [hu] at hpop
        exact hpop
      · have hfreeze := packetPop_malformed hq hnext hh hclean' (by rw [hu]; exact hbad)
        rw [hu] at hfreeze
        exact hfreeze
  · intro s fw e before after hfw hev hidle locked hbefore he t
    have htaken : s.taken fw e before after = t := by simp only [State.taken, List.set_set, t]
    have htake : s.takeEvent fw = t.evaluated e := htaken ▸ State.takeEvent_eq hev hbefore he
    have hhost : (t.evaluated e).host = s.host := State.evaluated_host t e
    have hheld : (t.evaluated e).fw.held.getD fw none = (s.fw.held.set fw (some e)).getD fw none := by rw [State.evaluated_fw]
    have hbad : (t.evaluated e).badCommand = s.badCommand := by rw [State.badCommand, hhost]; rfl
    have hgood : e ≠ .command ∨ s.badCommand = false →
        exec (.firmwareEventTake fw) s = .next ((t.evaluated e).letIn s.host.posted.length) := by
      intro hcmd
      have hno : ((t.evaluated e).fw.held.getD fw none == some .command && (t.evaluated e).badCommand) = false := by
        rw [hheld, hbad, List.getD_eq_getElem?_getD, List.getElem?_set_self']
        cases s.fw.held[fw]? with
        | none => rfl
        | some _ => simpa [imp_iff_not_or] using hcmd
      rw [firmwareEventTake_good hfw hidle htake hno, hhost]
    refine ⟨fun c n hq => ?_, fun hq hcmd => ?_, fun hc hb hlen hp => ?_⟩
    · have hcmd : e ≠ .command ∨ s.badCommand = false := by
        rw [← imp_iff_not_or]
        rintro rfl
        exact State.badCommand_names (Option.isSome_of_mem hq)
      have heval : t.evaluated e = ({ t with order := t.order + 1 } : State).setQueue c n fun q =>
          { q with evals := q.evals + 1, eval := t.order } := by
        have htq : t.evtQueue e = some (c, n) := hq
        simp only [State.evaluated, htq]
      rw [hgood hcmd, heval]
    · have heval : t.evaluated e = t := by
        have htq : t.evtQueue e = none := hq
        simp only [State.evaluated, htq]
      rw [hgood hcmd, heval]
    · have hcore : (t.evaluated e).fw.held.getD fw none = some .command := by
        rw [hheld, hc, List.getD_eq_getElem?_getD, List.getElem?_set_self (by omega)]
        rfl
      exact ⟨_, firmwareEventTake_malformed hfw hidle htake hcore (hbad.trans hb) (by rw [hhost]; exact hp), rfl, rfl⟩
  · have hin := letIn_bell hp he ho
    exact ⟨fun hr => by rw [hin, if_pos hr], fun hr => by rw [hin, hr]; rfl⟩
  · rintro op h2 h4 hop rfl rfl
    exact State.evtQueue_command h2 h4 hop

end Sys2Proof.Machine
end

section
/-! SUPPORT. The discard of a context's work and the takes that wait on its cores: a state in which it faults a warp of another context. -/
namespace Sys2Proof.Machine

/-! The state is that of no run that begins at reset, as `retiringState` is: a take waits there whose warp holds the unit already.
`Obligations.HaltsComplete` quantifies over every state, so its clause on the warps that a discard leaves must hold of this one too. -/

/-- A team of context 1 on core 0, with no tile. -/
def teamOfContext1 : Team :=
  { id := { launch := { ctx := 1, num := 0 }, team := 0 }, core := 0, spadAt := 0, spad := [], tiles := [], taken := [], acc := [], counts := []
    bars := [], ag := [], credit := 0, claims := [], placedAt := 0, ran := 0, gone := [], owed := [] }

/-- That team beside the one of `retiringState`, which is of context 0. -/
def sharedCoreState : State := { retiringState with teams := retiringState.teams ++ [teamOfContext1] }

/-- With the team of context 1 gone the takes of its core are served, and the one that waits there faults its warp, of context 0. -/
theorem discardCtx_faults_other :
    ((sharedCoreState.discardCtx 1).warp? (warpAtBoundary 0).id).map (·.phase) = some .faulted := by
  decide +kernel

/-- No warp has faulted before. -/
theorem sharedCoreState_unfaulted : ∀ x ∈ sharedCoreState.warps, x.phase ≠ .faulted := by
  decide +kernel

/-- Refutes O58, in its clause on a context's discard: a warp that is left need not be one of before. In `sharedCoreState` the discard of
context 1 serves the takes of a core that it shares with context 0, and the warp of the one that waits there faults. -/
theorem not_haltsComplete : ¬ Obligations.HaltsComplete := by
  unfold Obligations.HaltsComplete
  intro h
  obtain ⟨_, _, _, _, _, hdiscard, _⟩ := h.1 sharedCoreState
  obtain ⟨hwarps, _, _⟩ := hdiscard 1
  obtain ⟨y, hy, hphase⟩ := Option.map_eq_some_iff.mp discardCtx_faults_other
  obtain ⟨hbefore, _⟩ := hwarps y (List.mem_of_find?_eq_some hy)
  exact sharedCoreState_unfaulted y hbefore hphase

end Sys2Proof.Machine
end

section
/-! SUPPORT. A command packet's step when its turn has come (R337 to R341, R391), its queue's tokens, and pre-emption (R346 to R348). -/
namespace Sys2Proof.Machine

variable {s t : State} {p : PktId} {q : Queue} {k : Pkt}

/-! ### A packet's turn -/

/-- A packet that is ready with CLR has its WAIT tokens cleared as its turn comes (R337, R338). -/
theorem State.turnPkt_clears {ph : PktPh} (hph : k.ph = .waiting) (hc : k.clr = true) (hw : k.wait ≠ 0) : s.turnPkt p k ph =
    (s.setPkt p fun y => { y with ph := ph }).setTokens p.ctx p.queue fun t => t &&& ~~~k.wait := by
  have hcond : (k.ph == .waiting && k.clr && k.wait != 0) = true := by simpa [hph, hc] using hw
  simp only [State.turnPkt, hcond, if_true]

/-- One that became ready before has had them cleared then (R377). -/
theorem State.turnPkt_ready {ph : PktPh} (hph : k.ph = .ready) : s.turnPkt p k ph = s.setPkt p fun y => { y with ph := ph } := by
  simp [State.turnPkt, hph]

/-- A LAUNCH that became ready while the dispatcher is held has no turn until it is let go (R377). -/
theorem Queue.due_held (q : Queue) (hph : k.ph = .ready) : q.due true k = false := by
  simp [Queue.due, Queue.ready, hph]

/-- What a launch takes of its packet is not the packet's phase. -/
theorem launchOf_ph (p : PktId) (num era : Nat) (k : Pkt) (ph : PktPh) : launchOf p num era { k with ph := ph } = launchOf p num era k := rfl

/-- An address of 54 bits that is a multiple of 16 (log 83). -/
theorem copyAddr_of {a : W64} (h : a.toNat < 2 ^ 54) (h16 : a.toNat % 16 = 0) : copyAddr a = true := by
  rw [copyAddr, decide_eq_true h, h16]
  rfl

section Step
variable (hq : s.queue? p.ctx p.queue = some q) (hk : s.pkt? p = some k) (hf : s.faulty p.ctx = false)
  (hh : s.handles p.ctx p.queue = true)
include hq hk hf hh

/-- A LAUNCH whose turn comes while the dispatcher is held becomes ready (R377). -/
theorem launchPacket_held (ht : k.type = 1) (hd : s.dispatchHeld = true) (hturn : q.turn true k = true) :
    exec (.launchPacket p) s = .next (s.turnPkt p k .ready) := by
  have hcond : (k.type == 1 && !s.faulty p.ctx && q.turn true k && s.handles p.ctx p.queue) = true := by simp [ht, hf, hturn, hh]
  rw [exec_launchPacket, execLaunchPacket, if_pos hd]
  simp only [State.holdLaunch, hq, hk, hcond, if_true]

variable (hturn : q.turn s.dispatchHeld k = true)
include hturn

/-- A packet whose turn has come starts, and acts (R339, R341). -/
theorem State.pktStep_starts {type : Nat} (ht : k.type = type) (again : Bool) (f : State → Pkt → State) :
    s.pktStep p type again f = .next (f (s.turnPkt p k .started) { k with ph := .started }) := by
  have hgo : (k.type != type || s.faulty p.ctx) = false := by simp [ht, hf]
  simp only [State.pktStep, hq, hk, hgo, hturn, hh, Bool.and_self, if_true, Bool.false_eq_true, if_false]

/-- A LAUNCH with a descriptor that firmware refuses freezes its queue (R18). -/
theorem launchPacket_refused (ht : k.type = 1) (hd : s.dispatchHeld = false) {c : Ctx} (hc : (s.turnPkt p k .started).ctx? p.ctx = some c)
    (hok : (s.turnPkt p k .started).descOk (launchOf p c.launches c.era k) = false) :
    exec (.launchPacket p) s = .next ((s.turnPkt p k .started).freezePkt p 3 0) := by
  rw [exec_launchPacket, execLaunchPacket, if_neg (by simp [hd]), State.pktStep_starts hq hk hf hh hturn ht]
  simp only [hc, launchOf_ph, hok, Bool.not_false, if_true]

/-- A LAUNCH that is accepted is numbered, and pre-empts the launches it may (R346). -/
theorem launchPacket_launches (ht : k.type = 1) (hd : s.dispatchHeld = false) {c : Ctx} (hc : (s.turnPkt p k .started).ctx? p.ctx = some c)
    (hok : (s.turnPkt p k .started).descOk (launchOf p c.launches c.era k) = true) :
    let l := launchOf p c.launches c.era k
    let vs := if k.npr then [] else (s.turnPkt p k .started).victims l
    let v := vs.foldl (fun s y => s.preempt y) (s.turnPkt p k .started)
    exec (.launchPacket p) s = .next ((({ v with
      launches := v.launches ++ [{ l with waits := vs.map fun (y : Launch) => y.id }] } : State).setCtx p.ctx fun c =>
        { c with launches := c.launches + 1 }).event (.packet p)) := by
  intro l vs v
  rw [exec_launchPacket, execLaunchPacket, if_neg (by simp [hd]), State.pktStep_starts hq hk hf hh hturn ht]
  simp only [hc, launchOf_ph, hok, Bool.not_true, Bool.false_eq_true, if_false]
  rfl

/-- A COPY packet all of whose pieces have been performed is done (R337; its addresses' 54 bits: log 83). -/
theorem copyPacket_done (ht : k.type = 2) (ha : copyAddr (k.word 0) = true) (hb : copyAddr (k.word 1) = true)
    (hn : (k.word 2).toNat % 16 = 0) (hlo : 16 ≤ (k.word 2).toNat) (hhi : (k.word 2).toNat ≤ 2 ^ 30) {y : Pkt}
    (hy : (k.copyParts.foldl (fun s x => s.pktPart p x) (s.turnPkt p k .started)).pkt? p = some y)
    (hall : ∀ x ∈ k.copyParts, x.1 ∈ y.got) : exec (.copyPacket p) s =
      .next ((k.copyParts.foldl (fun s x => s.pktPart p x) (s.turnPkt p k .started)).donePkt p) := by
  have hgood : (!(copyAddr (k.word 0) && copyAddr (k.word 1) && (k.word 2).toNat % 16 == 0 && 16 ≤ (k.word 2).toNat &&
      (k.word 2).toNat ≤ 2 ^ 30)) = false := by
    simp only [ha, hb, hn, hlo, hhi, decide_true, beq_self_eq_true, Bool.and_self, Bool.not_true]
  have hgot : (k.copyParts.all fun x => y.got.contains x.1) = true := by simpa using hall
  rw [exec_copyPacket, execCopyPacket, State.pktStep_starts hq hk hf hh hturn ht]
  change Host.Outcome.next (if !(copyAddr (k.word 0) && copyAddr (k.word 1) && (k.word 2).toNat % 16 == 0 && 16 ≤ (k.word 2).toNat &&
    (k.word 2).toNat ≤ 2 ^ 30) then _ else match (k.copyParts.foldl (fun s x => s.pktPart p x) (s.turnPkt p k .started)).pkt? p with
      | some y => if k.copyParts.all fun x => y.got.contains x.1 then _ else _
      | none => _) = _
  rw [hgood, hy]
  simp only [hgot, Bool.false_eq_true, if_false, if_true]
  rfl

/-- A malformed WRITEMEM freezes its queue (R337). -/
theorem writemem_malformed (ht : k.type = 3) (hbad : (k.word 0).toNat % 4 ≠ 0 ∨ 2 ^ 32 ≤ (k.word 1).toNat) :
    exec (.writemem p) s = .next ((s.turnPkt p k .started).freezePkt p 4 0) := by
  rw [exec_writemem, execWritemem, State.pktStep_starts hq hk hf hh hturn ht]
  refine congrArg _ (if_pos ?_)
  simpa [Decidable.imp_iff_not_or, Pkt.word] using hbad

/-- A WRITEMEM stores its word at its page (R337). -/
theorem writemem_stores (ht : k.type = 3) (h4 : (k.word 0).toNat % 4 = 0) (h32 : (k.word 1).toNat < 2 ^ 32) {pa : Nat} {nc : Bool}
    (hline : (s.turnPkt p k .started).lineAt p.ctx 2 1 (.packet p) (k.word 0) 0 0 = (t, .page pa nc)) :
    exec (.writemem p) s = .next ((t.sysWrite pa (leBytes 4 (k.word 1).toNat)).donePkt p) := by
  rw [exec_writemem, execWritemem, State.pktStep_starts hq hk hf hh hturn ht]
  have hpage : ∀ f : State → Nat → State, (s.turnPkt p k .started).fwPage p 1 (k.word 0) f = f t pa := fun f => by
    rw [State.fwPage, hline]
  refine congrArg _ ((if_neg ?_).trans (hpage _))
  change ¬ (!((k.word 0).toNat % 4 == 0 && decide ((k.word 1).toNat < 2 ^ 32))) = true
  simp only [h4, h32, beq_self_eq_true, decide_true, Bool.and_self, Bool.not_true, Bool.false_eq_true, not_false_eq_true]

/-- A WAITMEM starts with a read (R340). -/
theorem waitmem_polls (ht : k.type = 4) (h4 : (k.word 0).toNat % 4 = 0) (h34 : (k.word 1).toNat < 2 ^ 34) :
    exec (.waitmem p) s = .next ((s.turnPkt p k .started).poll p { k with ph := .started }) := by
  rw [exec_waitmem, execWaitmem, State.pktStep_starts hq hk hf hh hturn ht]
  refine congrArg _ (if_neg ?_)
  change ¬ (!((k.word 0).toNat % 4 == 0 && decide ((k.word 1).toNat < 2 ^ 34))) = true
  simp only [h4, h34, beq_self_eq_true, decide_true, Bool.and_self, Bool.not_true, Bool.false_eq_true, not_false_eq_true]

end Step

/-- A read of a WAITMEM's word that finds its condition met completes the packet (R337, R340). -/
theorem State.poll_met {pa : Nat} {nc : Bool}
    (hline : (s.setPkt p fun y => { y with got := [((s.queue? p.ctx p.queue).map (·.evals)).getD 0] }).lineAt p.ctx 2 0 (.packet p) (k.word 0)
      0 0 = (t, .page pa nc)) (hm : t.sysMark pa 4 = none)
    (hc : waitCond ((k.word 1).toNat / 2 ^ 32) (leNat ((t.sysFix pa 4).sysRead pa 4)) ((k.word 1).toNat % 2 ^ 32) = true) :
    s.poll p k = (t.sysFix pa 4).donePkt p := by
  simp only [State.poll, State.fwPage, hline, State.fwRead, hm, hc, if_true]

/-- A WAITMEM that has started reads again at its event, or at a change of its queue's tokens (R340). -/
theorem waitmemReread_polls (hk : s.pkt? p = some k) (hf : s.faulty p.ctx = false) (ht : k.type = 4) (hph : k.ph = .started)
    (hr : s.rereads p = true) : exec (.waitmemReread p) s = .next (s.poll p k) := by
  rw [exec_waitmemReread, execWaitmemReread, hk]
  simp [hf, ht, hph, hr]

/-- A packet that is done sets its SET tokens and leaves its window (R338). -/
theorem packetComplete_completes (hk : s.pkt? p = some k) (hph : k.ph = .done) (hh : s.handles p.ctx p.queue = true) :
    exec (.packetComplete p) s = .next (s.completePkt p k) := by
  rw [exec_packetComplete, execPacketComplete, hk]
  simp [hph, hh]

/-! ### Tokens -/

/-- A queue after a change of it that keeps its number. -/
theorem State.setQueue_found {c n : Nat} (hq : s.queue? c n = some q) (f : Queue → Queue) (hf : ∀ y, (f y).num = y.num) :
    (s.setQueue c n f).queue? c n = some (f q) := by
  obtain ⟨x, hx, hfind⟩ := Option.bind_eq_some_iff.mp hq
  have hctx := s.setCtx_ctx? c c (fun x => { x with queues := x.queues.map fun y => if y.num == n then f y else y }) fun _ => rfl
  rw [hx, Option.map_some, if_pos (beq_self_eq_true c)] at hctx
  rw [State.queue?, State.setQueue, hctx, Option.bind_some, find?_map_key Queue.num n n f hf, hfind, Option.map_some,
    if_pos (beq_self_eq_true n)]

/-- A queue after a change of its tokens. -/
theorem State.setTokens_queue? {c n : Nat} (hq : s.queue? c n = some q) (f : W64 → W64) :
    (s.setTokens c n f).queue? c n = some (q.withTokens (f q.tokens) s.order) :=
  State.setQueue_found (s := { s with order := s.order + 1 }) hq (fun q => q.withTokens (f q.tokens) s.order) fun _ => rfl

/-- An event entered is in the queue, or held back (R341). -/
theorem Fw.mem_enter (f : Fw) (e : Evt) : e ∈ (f.enter e).events ∨ e ∈ (f.enter e).back := by
  unfold Fw.enter
  split
  · exact .inl (by simp)
  · exact .inr (by simp)

/-- Other tokens leave the packets of a window in their places. -/
theorem Queue.withTokens_pos (q : Queue) (tokens : W64) (at' : Nat) :
    (q.withTokens tokens at').window.map (·.pos) = q.window.map (·.pos) := by
  simp only [Queue.withTokens, List.map_map]
  refine List.map_congr_left fun k _ => ?_
  simp only [Function.comp_apply]
  split <;> rfl

/-- A packet that waits after its queue's tokens have changed: it is ready from then on if they complete its WAIT tokens, and else as it was
(R338, R339). -/
theorem Queue.withTokens_since {tokens : W64} {at' : Nat} (hk : k ∈ (q.withTokens tokens at').window) (hph : k.ph = .waiting)
    (hmet : k.wait &&& ~~~tokens = 0) :
    (k.wait &&& ~~~q.tokens ≠ 0 → k.since = at') ∧ (k.wait &&& ~~~q.tokens = 0 → k ∈ q.window) := by
  obtain ⟨y, hy, rfl⟩ : ∃ y ∈ q.window, (if y.ph == .waiting && y.met tokens && !y.met q.tokens then
    { y with since := at', eval := at' } else y) = k := List.mem_map.mp hk
  by_cases hnew : (y.ph == .waiting && y.met tokens && !y.met q.tokens) = true
  · rw [if_pos hnew] at hph hmet ⊢
    obtain ⟨-, -, hold⟩ : y.ph = .waiting ∧ y.wait &&& ~~~tokens = 0 ∧ ¬ y.wait &&& ~~~q.tokens = 0 := by
      simpa [Pkt.met, and_assoc] using hnew
    exact ⟨fun _ => rfl, fun h => absurd h hold⟩
  · rw [if_neg hnew] at hph hmet ⊢
    refine ⟨fun hold => absurd ?_ hnew, fun _ => hy⟩
    simpa [Pkt.met, hph, hmet] using hold

/-! ### Pre-emption -/

/-- The launches that a newcomer pre-empts (R346). -/
theorem State.mem_victims {n l : Launch} : l ∈ s.victims n ↔ l ∈ s.launches ∧ s.partOf l.id.ctx = s.partOf n.id.ctx ∧
    s.resident l.id = true ∧ l.prio < n.prio ∧ (l.phase = .running ∨ (l.phase = .draining ∧ s.drained l = false)) := by
  simp [State.victims, State.samePart, and_assoc]

/-- A context's own drain threshold and yield deadline stand where it gives them (R373). -/
theorem State.drainAt_of {n : Nat} {c : Ctx} (hc : s.ctx? n = some c) (h : c.dthr ≠ 2 ^ 64 - 1) : s.drainAt n = c.dthr := by
  simp only [State.drainAt, hc, Option.map_some, Option.getD_some, beq_eq_false_iff_ne.mpr h, Bool.false_eq_true, if_false]

theorem State.yieldIn_of {n : Nat} {c : Ctx} (hc : s.ctx? n = some c) (h : c.ydl ≠ 2 ^ 64 - 1) : s.yieldIn n = c.ydl := by
  simp only [State.yieldIn, hc, Option.map_some, Option.getD_some, beq_eq_false_iff_ne.mpr h, Bool.false_eq_true, if_false]

/-- A launch asked to leave, stopping or dying, or drained with teams on cores, has not been pre-empted yet (R346). -/
theorem State.preempted_false {v : Launch} (hv : s.launch? v.id = some v) (hph : v.phase = .stopping ∨ v.phase = .killing ∨
    (∃ d, v.phase = .yielding d) ∨ (v.phase = .draining ∧ s.resident v.id = true)) : s.preempted v.id = false := by
  rcases hph with h | h | ⟨d, h⟩ | ⟨h, hr⟩ <;> simp [State.preempted, hv, h]
  exact hr

/-- A launch whose pre-emptions have not finished is not served (R346). -/
theorem State.served_waits {n v : Launch} (hv : v.id ∈ n.waits) (hp : s.preempted v.id = false) : s.served n = false := by
  have hall : n.waits.all s.preempted = false := List.all_eq_false.mpr ⟨v.id, hv, by simp [hp]⟩
  simp [State.served, State.mayPlace, hall]

/-- Settles O53: each kind of packet by its step, with its turn come; tokens by the new queue; pre-emption by its four outcomes. -/
theorem packetsComplete : Obligations.PacketsComplete := by
  unfold Obligations.PacketsComplete
  refine ⟨fun s p q k hq hk hf => ?_, fun s c n f q hq => ?_, fun s n l => State.mem_victims, fun s l c hc hdthr hydl => ?_,
    fun s n v core hn hv hlv hph => execTeamPlace_unserved hn core (State.served_waits hv (State.preempted_false hlv hph))⟩
  · intro k' u
    refine ⟨fun hph hc hw => State.turnPkt_clears hph hc hw, fun hph => ⟨State.turnPkt_ready hph, q.due_held hph⟩,
      fun ht hd hturn hh => launchPacket_held hq hk hf hh ht hd hturn, fun hturn hh => ?_, fun t pa nc ht hph hr hline hm => ?_,
      fun hph hh => packetComplete_completes hk hph hh⟩
    · refine ⟨fun c ht hd hc => ⟨fun hok => launchPacket_refused hq hk hf hh hturn ht hd hc hok,
          fun hok => launchPacket_launches hq hk hf hh hturn ht hd hc hok⟩,
        fun ht ha hb ha16 hb16 hn hlo hhi y hy hall => copyPacket_done hq hk hf hh hturn ht (copyAddr_of ha ha16)
          (copyAddr_of hb hb16) hn hlo hhi hy hall,
        fun ht hbad => writemem_malformed hq hk hf hh hturn ht hbad,
        fun t pa nc ht h4 h32 hline => writemem_stores hq hk hf hh hturn ht h4 h32 hline,
        fun t pa nc ht h4 h34 hline hm hc => ?_, fun ht => ?_, fun ht => ?_⟩
      · rw [waitmem_polls hq hk hf hh hturn ht h4 h34]
        exact congrArg _ (State.poll_met (k := k') hline hm hc)
      · rw [exec_tokenPacket, execTokenPacket, State.pktStep_starts hq hk hf hh hturn ht]
        rfl
      · rw [exec_fencePacket, execFencePacket, State.pktStep_starts hq hk hf hh hturn ht]
    · intro v hc
      rw [waitmemReread_polls hk hf ht hph hr]
      exact congrArg _ (State.poll_met (by simpa only [hq, Option.map_some, Option.getD_some] using hline) hm hc)
  · exact ⟨_, State.setTokens_queue? hq f, rfl, q.withTokens_pos _ _, Fw.mem_enter _ _,
      fun k hk hph hmet => Queue.withTokens_since hk hph hmet⟩
  · have hdrain := State.drainAt_of hc hdthr
    have hyield := State.yieldIn_of hc hydl
    intro left to'
    have hleft : s.remaining l = left := rfl
    refine ⟨fun hlt => ?_, fun hle hckp => ?_, fun hle hckp hy => ?_, fun hle hckp hy => ?_⟩
    · rw [State.preempt, hleft, hdrain, if_pos hlt]
    · rw [State.preempt, hleft, hdrain, if_neg (by omega), hckp]
      rfl
    · rw [State.preempt, hleft, hdrain, if_neg (by omega), hckp, hyield, if_pos rfl, if_neg (by simpa using by omega)]
    · rw [State.preempt, hleft, hdrain, if_neg (by omega), hckp, hyield, hy, if_pos rfl]
      rfl

end Sys2Proof.Machine
end

section
/-! SUPPORT. The start of a surrender routine: a state of two warps of one id, whose live lanes differ. -/
namespace Sys2Proof.Machine

/-! The state is that of no run that begins at reset, as `twinState` is. `Obligations.SurrendersAndCheckpointsComplete` quantifies over every
state, so its clause on the start of a routine must hold of this one too. -/

/-- A warp at its boundary some of whose lanes have exited. -/
def exitedWarp (exited : Lanes) : Warp := { warpAtBoundary 0 with exited := exited }

/-- Scratchpad tile 1 as a negotiated unit that warp 0 holds. -/
def negotiatedUnit : Taken := { unitOfWarp0 1 with cls := .neg }

/-- The team that has taken it. -/
def negotiatingTeam : Team := { teamOfContext1 with id := retiringTeam, taken := [negotiatedUnit] }

/-- The recall of that unit, in its core's queue. -/
def recallOfUnit : Recall := { team := retiringTeam, tid := 1, core := 0, sched := true, queued := true, again := false }

/-- Two warps of one id at their boundary, the second with no live lane, and the recall of the unit that they hold. -/
def recalledTwins : State :=
  { State.reset with warps := [exitedWarp 0, exitedWarp (BitVec.allOnes 32)], teams := [negotiatingTeam], recalls := [recallOfUnit] }

/-- The routine starts in each of the two with its own live lanes. -/
theorem routineStart_masks : ∃ t, exec (.surrenderRoutineStart (exitedWarp 0).id) recalledTwins = .next t ∧
    t.warps.map (·.am) = [BitVec.allOnes 32, 0] :=
  ⟨_, rfl, by decide +kernel⟩

/-- Refutes O52, in its clause on the start of a routine: the lanes that start are the live ones of the warp that runs it, which where two
warps have one id need not be those of the warp that is found by it. -/
theorem not_surrendersAndCheckpointsComplete : ¬ Obligations.SurrendersAndCheckpointsComplete := by
  unfold Obligations.SurrendersAndCheckpointsComplete
  rintro ⟨hstate, _⟩
  obtain ⟨_, hstart, _⟩ := hstate recalledTwins
  obtain ⟨t, ht, hmasks⟩ := routineStart_masks
  have hgot := hstart (exitedWarp 0) recallOfUnit negotiatingTeam negotiatedUnit (by decide +kernel) rfl (.inl rfl) rfl (by decide +kernel)
    (by decide +kernel) (by decide +kernel) (by decide +kernel) (by decide +kernel)
  rw [ht] at hgot
  obtain rfl := Host.Outcome.next.inj hgot
  revert hmasks
  decide +kernel

end Sys2Proof.Machine
end

section
/-! SUPPORT. A token put at its target (R43). -/
namespace Sys2Proof.Machine

/-- A node with a token put in one of its slots. -/
def Node.setTok (n : Node) (sl : Slot) (tok : Token) : Node :=
  match sl with
  | .left => { n with left := some tok }
  | .right => { n with right := some tok }
  | .third => { n with third := some tok }

theorem Node.tok_setTok_same (n : Node) (sl : Slot) (tok : Token) : (n.setTok sl tok).tok sl = some tok := by cases sl <;> rfl

theorem Node.tok_setTok_other (n : Node) {sl sl' : Slot} (tok : Token) (h : sl' ≠ sl) : (n.setTok sl tok).tok sl' = n.tok sl' := by
  cases sl <;> cases sl' <;> simp [Node.setTok, Node.tok] at h ⊢

theorem Run.put_to (r : Run) (sl : Slot) (i : BitVec 6) (tok : Token) :
    r.put (.to sl i) tok = r.setNode i.toNat fun n => n.setTok sl tok := by cases sl <;> rfl

theorem Run.node_setNode_same {r : Run} {k : Nat} (f : Node → Node) (h : k < r.nodes.length) : (r.setNode k f).node k = f (r.node k) := by
  simp [Run.setNode, Run.node, List.getD_eq_getElem?_getD, h]

theorem Run.node_setNode_other (r : Run) {k k' : Nat} (f : Node → Node) (h : k' ≠ k) : (r.setNode k f).node k' = r.node k' := by
  simp [Run.setNode, Run.node, List.getD_eq_getElem?_getD, List.getElem?_modify_ne f _ (Ne.symm h)]

/-- Settles O7: a slot by the change of its node alone, a write slot by the change of its place in the list. -/
theorem tokensGoToTheirTargets : Obligations.TokensGoToTheirTargets := by
  unfold Obligations.TokensGoToTheirTargets
  refine fun r tok => ⟨rfl, fun sl i hi => ?_, fun n hn => ⟨?_, fun k hk => ?_, rfl⟩⟩
  · rw [Run.put_to]
    refine ⟨?_, fun sl' hne => ?_, fun k hk => r.node_setNode_other _ hk, rfl⟩
    · rw [Run.node_setNode_same _ hi, Node.tok_setTok_same]
    · rw [Run.node_setNode_same _ hi, Node.tok_setTok_other _ _ hne]
  · simp [Run.put, hn]
  · simp [Run.put, List.getElem?_modify_ne _ _ (Ne.symm hk)]

end Sys2Proof.Machine
end

section
/-! SUPPORT. A body word's fields read back from its encoding (R47 to R54), format by format. -/
namespace Sys2Proof

/-! ### Fields side by side. The widths stand under `no_index`, since a layout's total is a numeral and not a sum. -/

@[simp] theorem extract_append_high {n m s k : Nat} (a : BitVec n) (b : BitVec m) (h : m ≤ s) :
    BitVec.extractLsb' (n := no_index (n + m)) s k (HAppend.hAppend (γ := no_index (BitVec (n + m))) a b) = a.extractLsb' (s - m) k :=
  slice_high a b s k h

@[simp] theorem extract_append_low {n m s k : Nat} (a : BitVec n) (b : BitVec m) (h : s + k ≤ m) :
    BitVec.extractLsb' (n := no_index (n + m)) s k (HAppend.hAppend (γ := no_index (BitVec (n + m))) a b) = b.extractLsb' s k :=
  slice_low a b s k h

@[simp] theorem getElem_append_high {n m i : Nat} (a : BitVec n) (b : BitVec m) (hi : i < n + m) (h : m ≤ i) :
    GetElem.getElem (coll := no_index (BitVec (n + m))) (HAppend.hAppend (γ := no_index (BitVec (n + m))) a b) i hi = a[i - m] := by
  rw [BitVec.getElem_append, dif_neg (by omega)]

@[simp] theorem getElem_append_low {n m i : Nat} (a : BitVec n) (b : BitVec m) (hi : i < n + m) (h : i < m) :
    GetElem.getElem (coll := no_index (BitVec (n + m))) (HAppend.hAppend (γ := no_index (BitVec (n + m))) a b) i hi = b[i] := by
  rw [BitVec.getElem_append, dif_pos h]

/-- A word is its two halves. -/
theorem extract_halves {n m : Nat} (x : BitVec (n + m)) : x.extractLsb' m n ++ x.extractLsb' 0 m = x := by
  apply BitVec.eq_of_toNat_eq
  rw [append_toNat, slice_toNat, slice_toNat]
  have hx := x.isLt
  rw [Nat.pow_add] at hx
  rw [Nat.mod_eq_of_lt (Nat.div_lt_of_lt_mul (by rwa [Nat.mul_comm])), Nat.pow_zero, Nat.div_one, Nat.mul_comm]
  exact Nat.div_add_mod ..

@[simp] theorem Pr.bits_always : Pr.always.bits = 0#2 := rfl
@[simp] theorem bit_getElem (b : Bool) : (bit b)[0] = b := by cases b <;> rfl
@[simp] theorem bit_beq_literal (b : Bool) : (bit b == 1#1) = b := bit_eq_one b
@[simp] theorem Tgt.ofByte_of_byte (t : Tgt) : Tgt.ofByte t.byte = t := t.ofByte_byte.1
@[simp] theorem Raw.ck_true (i : Instr) : Raw.ck true i = .ok i := rfl
@[simp] theorem Raw.code_some {α : Type} (a : α) (f : α → Except FmtCause Instr) : Raw.code (some a) f = f a := rfl

/-! ### The formats that several instructions share -/

theorem IntF.int_raw (f : IntF) (op : BitVec 8) (fn : BitVec 6) (i : IntF → Instr) : (f.raw op fn).int true i = .ok (i f) := by
  obtain ⟨ty, pr, u, imm, sat, t0, t1⟩ := f
  cases imm <;> simp [Raw.int, IntF.raw, Raw.rmBits, Raw.immOk, Raw.im, Raw.intF, Raw.imm, Raw.sat, Raw.isU, immLow]

@[simp] theorem FloatF.immOk_raw (f : FloatF) (op : BitVec 8) (fn : BitVec 6) : (f.raw op fn).immOk = true := by
  obtain ⟨sub, ty, pr, u, imm, sat, rm, t0, t1⟩ := f
  cases imm <;> simp [FloatF.raw, Raw.immOk, Raw.im, immLow]

theorem FloatF.floatF_raw (f : FloatF) (op : BitVec 8) (fn : BitVec 6) :
    (f.raw op fn).floatF = { f with sub := Sub.ofBits (fn.extractLsb' 4 2) } := by
  obtain ⟨sub, ty, pr, u, imm, sat, rm, t0, t1⟩ := f
  cases imm <;> simp [FloatF.raw, Raw.rmBits, Raw.im, Raw.floatF, Raw.imm, Raw.sat, Raw.isU, immLow]

theorem FloatF.flt_raw (f : FloatF) (op : BitVec 8) (func : BitVec 4) (i : FloatF → Instr) :
    (f.raw op (f.fn func)).flt true i = .ok (i f) := by
  simp [Raw.flt, FloatF.floatF_raw, FloatF.fn]

theorem QuantF.quant_raw (f : QuantF) (op : BitVec 8) (i : QuantF → Instr) : (f.raw op).quant i = .ok (i f) := by
  obtain ⟨ue, tgt, ty, pr, u, sat, rm, t0, t1⟩ := f
  simp [Raw.quant, QuantF.raw, Raw.fn3, Raw.hi2, Raw.rmBits, Raw.im, Raw.sat, Raw.isU]

theorem ScanF.scan_raw (f : ScanF) (op : BitVec 8) (ex : Bool) (i : ScanF → Instr) : (f.raw op ex).scan i = .ok (i f) := by
  obtain ⟨cmb, ty, pr, sat, rm, t0, t1⟩ := f
  simp [Raw.scan, ScanF.raw, Raw.fn3, Raw.hi2, Raw.rmBits, Raw.im, Raw.sat]

theorem MemF.mem_raw (f : MemF) (op : BitVec 8) (u : BitVec 1) (i : MemF → Instr) : (f.raw op u).mem u i = .ok (i f) := by
  obtain ⟨ty, pr, am, width, sx, hint, sc, ord, ss, imm, t0, t1⟩ := f
  simp [Raw.mem, MemF.raw, Raw.sc, Raw.ord, Raw.ss, Raw.imm14, Raw.am, Raw.rmBits]

@[simp] theorem IntF.raw_op (f : IntF) (op : BitVec 8) (fn : BitVec 6) : (f.raw op fn).op = op := rfl
@[simp] theorem IntF.raw_fn (f : IntF) (op : BitVec 8) (fn : BitVec 6) : (f.raw op fn).fn = fn := rfl
@[simp] theorem IntF.raw_pr (f : IntF) (op : BitVec 8) (fn : BitVec 6) : (f.raw op fn).pr = f.pr.bits := rfl
@[simp] theorem FloatF.raw_op (f : FloatF) (op : BitVec 8) (fn : BitVec 6) : (f.raw op fn).op = op := rfl
@[simp] theorem FloatF.raw_fn (f : FloatF) (op : BitVec 8) (fn : BitVec 6) : (f.raw op fn).fn = fn := rfl
@[simp] theorem ScanF.raw_op (f : ScanF) (op : BitVec 8) (ex : Bool) : (f.raw op ex).op = op := rfl
@[simp] theorem ScanF.raw_fn (f : ScanF) (op : BitVec 8) (ex : Bool) : (f.raw op ex).fn = (0 : BitVec 2) ++ bit ex ++ f.cmb.bits := rfl

@[simp] theorem FloatF.extract_fn (f : FloatF) (func : BitVec 4) {s k : Nat} (h : s + k ≤ 4) :
    (f.fn func).extractLsb' s k = func.extractLsb' s k := slice_low _ _ _ _ h

@[simp] theorem FloatF.getElem_fn (f : FloatF) (func : BitVec 4) : (f.fn func)[3] = func[3] := by simp [FloatF.fn]

end Sys2Proof
end

section
/-! SUPPORT. Each instruction's fields read back from its encoding: by the lemma of its format, or by its own encoding table. -/
namespace Sys2Proof

/-! The proofs of this section run one after another: each unfolds the same large functions, and all at once they ask for more threads than
the check's memory holds. -/
set_option Elab.async false

/-- The fields of an instruction's encoding name it. -/
def Instr.ReadsBack (i : Instr) : Prop := (encodeRaw i).fields = .ok i

/-! ### Control (R52) -/

theorem readsBack_control :
    (∀ (pr : Pr) (off : BitVec 24), (Instr.br pr off).ReadsBack) ∧ (∀ (pr : Pr), (Instr.brx pr).ReadsBack) ∧
    (∀ (pr : Pr), (Instr.ret pr).ReadsBack) ∧ (∀ (pr : Pr), (Instr.exit pr).ReadsBack) ∧
    (∀ (pr : Pr) (off : BitVec 24), (Instr.yield pr off).ReadsBack) ∧ (∀ (pr : Pr) (code : BitVec 16), (Instr.trap pr code).ReadsBack) ∧
    (∀ (pr : Pr) (code : BitVec 16), (Instr.bkpt pr code).ReadsBack) := by
  simp [Instr.ReadsBack, encodeRaw, Raw.fields, ctlRaw, Raw.ctl, Raw.off16]

theorem readsBack_twoOffsets :
    (∀ (pr : Pr) (off : BitVec 24) (z : BitVec 16), (Instr.brc pr off z).ReadsBack) ∧
    (∀ (pr : Pr) (off : BitVec 24) (z : BitVec 16), (Instr.call pr off z).ReadsBack) := by
  have hz (z : BitVec 16) := extract_halves (n := 8) (m := 8) z
  simp [Instr.ReadsBack, encodeRaw, Raw.fields, ctlRaw, Raw.ctl, Raw.off16, hz]

/-! ### Plain values and the integer group (R49, R51) -/

theorem readsBack_plain :
    (∀ (u : Bool) (a b : Tgt), (Instr.null u a b).ReadsBack) ∧ (∀ (u : Bool) (ss : BitVec 5), (Instr.nullSlot u ss).ReadsBack) ∧
    (∀ (ty : Ty) (pr : Pr) (u : Bool) (id : BitVec 8) (a b : Tgt), (Instr.getsr ty pr u id a b).ReadsBack) := by
  simp [Instr.ReadsBack, encodeRaw, Raw.fields, -Bool.forall_bool, mkRaw, Raw.isU, Raw.onlySs, Raw.ss]

theorem readsBack_mov (f : MovF) : (Instr.mov f).ReadsBack := by
  obtain ⟨ty, pr, u, a, b, _ | ⟨c, d⟩⟩ := f <;> simp [Instr.ReadsBack, encodeRaw, Raw.fields, mkRaw, Raw.isU]

theorem readsBack_movi (ty : Ty) (pr : Pr) (u : Bool) (a : Tgt) (imm : BitVec 32) : (Instr.movi ty pr u a imm).ReadsBack := by
  have himm := extract_halves (n := 8) (m := 24) imm
  simp [Instr.ReadsBack, encodeRaw, Raw.fields, Raw.imm32, Raw.isU, himm]

theorem readsBack_integer :
    (∀ (c : Cond) (f : IntF), (Instr.cmp c f).ReadsBack) ∧ (∀ (s : BitVec 3) (f : IntF), (Instr.lea s f).ReadsBack) ∧
    (∀ (s : Bool) (op : HopOp) (f : IntF), (Instr.hop s op f).ReadsBack) ∧ (∀ (l r : Bool) (f : IntF), (Instr.dp4 l r f).ReadsBack) ∧
    (∀ (op : ShflOp) (f : IntF), (Instr.shfl op f).ReadsBack) ∧ (∀ (op : VoteOp) (f : IntF), (Instr.vote op f).ReadsBack) := by
  simp [Instr.ReadsBack, encodeRaw, Raw.fields, -Bool.forall_bool, Raw.fn3, Raw.hi3, Raw.hi2, Raw.func, IntF.int_raw]

theorem readsBack_exh (half : Bool) (f : IntF) : (Instr.exh half f).ReadsBack := by
  cases half <;> simp [Instr.ReadsBack, encodeRaw, Raw.fields, IntF.int_raw, bit]

theorem readsBack_bcst (f : IntF) (h : f.pr = .always) : (Instr.bcst f).ReadsBack := by
  simp [Instr.ReadsBack, encodeRaw, Raw.fields, IntF.int_raw, h]

/-! ### The float group and the scans (R149 to R162, R221) -/

theorem readsBack_float :
    (∀ (f : FloatF), (Instr.fadd f).ReadsBack) ∧ (∀ (f : FloatF), (Instr.fsub f).ReadsBack) ∧ (∀ (f : FloatF), (Instr.fmul f).ReadsBack) ∧
    (∀ (f : FloatF), (Instr.frcp f).ReadsBack) ∧ (∀ (f : FloatF), (Instr.frsq f).ReadsBack) ∧ (∀ (f : FloatF), (Instr.fscl f).ReadsBack) ∧
    (∀ (f : FloatF), (Instr.fdiv f).ReadsBack) := by
  simp [Instr.ReadsBack, encodeRaw, Raw.fields, Raw.func, FloatF.flt_raw]

theorem readsBack_floatFunctions :
    (∀ (op : FmaOp) (f : FloatF), (Instr.ffma op f).ReadsBack) ∧ (∀ (op : SgnOp) (f : FloatF), (Instr.fsgn op f).ReadsBack) ∧
    (∀ (c : FCond) (f : FloatF), (Instr.fcmp c f).ReadsBack) ∧ (∀ (fn : Trn) (f : FloatF), (Instr.ftrn fn f).ReadsBack) ∧
    (∀ (bf : Bool) (op : Fop2Op) (f : FloatF), (Instr.fop2 bf op f).ReadsBack) := by
  simp [Instr.ReadsBack, encodeRaw, Raw.fields, -Bool.forall_bool, Raw.func, Raw.fn3, FloatF.flt_raw]

theorem readsBack_floatMinMax :
    (∀ (nan : Bool) (f : FloatF), (Instr.fmin nan f).ReadsBack) ∧ (∀ (nan : Bool) (f : FloatF), (Instr.fmax nan f).ReadsBack) := by
  simp [Instr.ReadsBack, encodeRaw, Raw.fields, Bool.forall_bool, Raw.func, FloatF.flt_raw, bit]

theorem readsBack_cvt (src dst : FmtCode) (f : FloatF) (h : f.sub = .asTy) : (Instr.cvt src dst f).ReadsBack := by
  simp [Instr.ReadsBack, encodeRaw, Raw.fields, Raw.fn3, FloatF.floatF_raw, ← h]

theorem readsBack_fcls (src : FmtCode) (pr : Pr) (u : Bool) (mask : Option (BitVec 24)) (a b : Tgt) :
    (Instr.fcls src pr u mask a b).ReadsBack := by
  cases mask <;> simp [Instr.ReadsBack, encodeRaw, Raw.fields, mkRaw, Raw.hi3, Raw.sat, Raw.rmBits, Raw.fn3, Raw.immOk, Raw.im, Raw.imm,
    immLow, Raw.isU]

theorem readsBack_modset (pr : Pr) (m : BitVec 3) (imm : Option (BitVec 24)) : (Instr.modset pr m imm).ReadsBack := by
  cases imm <;> simp [Instr.ReadsBack, encodeRaw, Raw.fields, mkRaw, Raw.fix, Raw.hi3, Raw.sat, Raw.rmBits, Raw.fn3, Raw.immOk, Raw.im,
    Raw.imm, immLow]

theorem readsBack_scans :
    (∀ (ex : Bool) (f : ScanF), (Instr.scan ex f).ReadsBack) ∧ (∀ (f : ScanF), (Instr.wred f).ReadsBack) := by
  simp [Instr.ReadsBack, encodeRaw, Raw.fields, -Bool.forall_bool, ScanF.scan_raw]

/-! ### Neighbours, atomics, fences and caches (R53) -/

theorem readsBack_neighbours :
    (∀ (pv : Bool) (pr : Pr) (rel : Bool), (Instr.fsend pv pr rel).ReadsBack) ∧
    (∀ (pv : Bool) (pr : Pr) (acq : Bool) (a b : Tgt), (Instr.frecv pv pr acq a b).ReadsBack) ∧
    (∀ (pv : Bool) (pr : Pr) (a b : Tgt), (Instr.fpeek pv pr a b).ReadsBack) := by
  simp [Instr.ReadsBack, encodeRaw, Raw.fields, Bool.forall_bool, mkRaw, Raw.fix, bit]

theorem readsBack_atom (f : AtomF) : (Instr.atom f).ReadsBack := by
  obtain ⟨aop, ty, pr, indexed, sc, ord, ss, imm, a, b⟩ := f
  cases indexed <;> simp [Instr.ReadsBack, encodeRaw, Raw.fields, mkRaw, Raw.sc, Raw.ord, Raw.ss, Raw.imm14, Raw.am, Raw.fn3, Raw.rmBits,
    Am.ofBits]

theorem readsBack_fences :
    (∀ (pr : Pr) (sc : Scope) (ord : Ord), (Instr.fence pr sc ord).ReadsBack) ∧
    (∀ (pr : Pr) (x y : BitVec 5), (Instr.fencex pr x y).ReadsBack) ∧
    (∀ (pr : Pr) (lvl : PrefLvl) (sc : Scope) (imm : BitVec 14), (Instr.pref pr lvl sc imm).ReadsBack) ∧
    (∀ (pr : Pr) (op : CctlOp) (imm : BitVec 14), (Instr.cctl pr op imm).ReadsBack) := by
  simp [Instr.ReadsBack, encodeRaw, Raw.fields, mkRaw, Raw.fix, Raw.sc, Raw.ord, Raw.imm14]

/-! ### The register pool, barriers, tiles and the matrix machine (R54) -/

theorem readsBack_poolAndBarriers :
    (∀ (pr : Pr) (first cntm : BitVec 8), (Instr.regrel pr first cntm).ReadsBack) ∧
    (∀ (pr : Pr) (a b : Tgt), (Instr.regclm pr a b).ReadsBack) ∧ (∀ (pr : Pr) (q : RegQ) (a b : Tgt), (Instr.regqry pr q a b).ReadsBack) ∧
    (∀ (pr : Pr) (bar cntm : BitVec 5), (Instr.bararv pr bar cntm).ReadsBack) ∧
    (∀ (pr : Pr) (bar : BitVec 5), (Instr.barwt pr bar).ReadsBack) ∧
    (∀ (pr : Pr) (bar cntm : BitVec 5), (Instr.barsyn pr bar cntm).ReadsBack) := by
  simp [Instr.ReadsBack, encodeRaw, Raw.fields, mkRaw, Raw.fix]

theorem readsBack_tiles :
    (∀ (f : TakeF), (Instr.ttake f).ReadsBack) ∧ (∀ (pr : Pr) (tid : BitVec 6), (Instr.tgive pr tid).ReadsBack) ∧
    (∀ (pr : Pr) (tid : BitVec 6), (Instr.srefu pr tid).ReadsBack) ∧ (∀ (pr : Pr) (tid : BitVec 6), (Instr.tclr pr tid).ReadsBack) ∧
    (∀ (pr : Pr) (tid : BitVec 6) (count : BitVec 16), (Instr.tarm pr tid count).ReadsBack) ∧
    (∀ (pr : Pr) (tid : BitVec 6) (a b : Tgt), (Instr.tstat pr tid a b).ReadsBack) ∧
    (∀ (pr : Pr) (idx : BitVec 6), (Instr.tdset pr idx).ReadsBack) ∧
    (∀ (pr : Pr) (idx : BitVec 6) (a b : Tgt), (Instr.tdget pr idx a b).ReadsBack) := by
  simp [Instr.ReadsBack, encodeRaw, Raw.fields, mkRaw, Raw.fix, Raw.tid, Raw.td1, Raw.hi2, Raw.low18z]

theorem readsBack_sdone (pr : Pr) (sum : Bool) (tid : BitVec 6) : (Instr.sdone pr sum tid).ReadsBack := by
  cases sum <;> simp [Instr.ReadsBack, encodeRaw, Raw.fields, mkRaw, Raw.fix, Raw.tid, Raw.low18z, bit]

theorem readsBack_mma (f : MmaF) (h : f.pr = .always ∨ f.gng = false ∨ f.ks = true) : (Instr.mma f).ReadsBack := by
  have hks : (f.pr.bits == 0#2 || !f.gng || f.ks) = true := by rcases h with h | h | h <;> simp [h]
  simp [Instr.ReadsBack, encodeRaw, Raw.fields, mkRaw, Raw.fix, Raw.tid, Raw.td1, hks]

theorem readsBack_matrix :
    (∀ (pr : Pr) (spl : Bool) (tid : BitVec 6), (Instr.azero pr spl tid).ReadsBack) ∧ (∀ (f : DrainF), (Instr.adrn f).ReadsBack) ∧
    (∀ (pr : Pr) (base : BitVec 5) (mask : BitVec 24), (Instr.gang pr base mask).ReadsBack) := by
  simp [Instr.ReadsBack, encodeRaw, Raw.fields, -Bool.forall_bool, mkRaw, Raw.fix, Raw.tid, Raw.td1, Raw.fn3, Raw.hi3, Raw.low18z]

theorem readsBack_images :
    (∀ (pr : Pr) (img : Bool) (tid tds : BitVec 6), (Instr.aload pr img tid tds).ReadsBack) ∧
    (∀ (pr : Pr) (nb : Bool) (ag : BitVec 2), (Instr.agset pr nb ag).ReadsBack) := by
  simp [Instr.ReadsBack, encodeRaw, Raw.fields, Bool.forall_bool, mkRaw, Raw.fix, Raw.tid, Raw.td1, bit]

/-! ### Messages (R299) -/

/-- LENW holds the words of a message less one (R299). -/
theorem MsgOp.words_place (m : MsgOp) (lp : Bool) : (m.words lp - 1) % 16 + 1 = m.words lp := by cases m <;> cases lp <;> rfl

theorem readsBack_send (pr : Pr) (msg : MsgOp) (lp : Bool) : (Instr.send pr msg lp).ReadsBack := by
  simp [Instr.ReadsBack, encodeRaw, Raw.fields, mkRaw, Raw.fix, MsgOp.words_place]

theorem readsBack_waits :
    (∀ (pr : Pr) (spad : Bool) (a b : Tgt), (Instr.waitr pr spad a b).ReadsBack) ∧
    (∀ (pr : Pr) (spad : Bool) (a b : Tgt), (Instr.pollr pr spad a b).ReadsBack) := by
  simp [Instr.ReadsBack, encodeRaw, Raw.fields, Bool.forall_bool, mkRaw, Raw.fix]

/-- The fields of a well-formed instruction's encoding name it. -/
theorem Instr.readsBack {i : Instr} (h : i.wellFormed = true) : i.ReadsBack := by
  simp only [Instr.wellFormed, Bool.and_eq_true] at h
  obtain ⟨⟨⟨hbody, hacc⟩, -⟩, -⟩ := h
  cases i
  case sel | add | sub | mul | mulh | mad | div | rem | min | max | abs | neg | and | or | xor | andn | not | shl | shr | sar | rol | clz |
    popc | brev | bfx | bfi | pk2 => exact IntF.int_raw _ _ _ _
  case ld | st | lds | sts | ldk => exact MemF.mem_raw _ _ _ _
  case qmax | qcvt | dqcv => exact QuantF.quant_raw _ _ _
  case cvt src dst f =>
    simp only [Instr.accept, Bool.and_eq_true, beq_iff_eq] at hacc
    obtain ⟨⟨⟨⟨⟨hsub, -⟩, -⟩, -⟩, -⟩, -⟩ := hacc
    exact readsBack_cvt src dst f hsub
  case bcst f =>
    simp only [Instr.accept, Bool.and_eq_true, beq_iff_eq] at hacc
    exact readsBack_bcst f hacc.2
  case mma f =>
    obtain ⟨-, hks⟩ : _ ∧ (!(f.pr != .always && f.gng && !f.ks)) = true := by simpa only [Instr.accept, Bool.and_eq_true] using hacc
    exact readsBack_mma f (by revert hks; cases f.gng <;> cases f.ks <;> simp)
  case br | brx | ret | exit | yield | trap | bkpt => simp only [readsBack_control]
  case brc | call => simp only [readsBack_twoOffsets]
  case null | nullSlot | getsr => simp only [readsBack_plain]
  case mov => apply readsBack_mov
  case movi => apply readsBack_movi
  case cmp | lea | hop | dp4 | shfl | vote => simp only [readsBack_integer]
  case exh => apply readsBack_exh
  case fadd | fsub | fmul | frcp | frsq | fscl | fdiv => simp only [readsBack_float]
  case ffma | fsgn | fcmp | ftrn | fop2 => simp only [readsBack_floatFunctions]
  case fmin | fmax => simp only [readsBack_floatMinMax]
  case fcls => apply readsBack_fcls
  case modset => apply readsBack_modset
  case scan | wred => simp only [readsBack_scans]
  case fsend | frecv | fpeek => simp only [readsBack_neighbours]
  case atom => apply readsBack_atom
  case fence | fencex | pref | cctl => simp only [readsBack_fences]
  case regrel | regclm | regqry | bararv | barwt | barsyn => simp only [readsBack_poolAndBarriers]
  case ttake | tgive | srefu | tclr | tarm | tstat | tdset | tdget => simp only [readsBack_tiles]
  case sdone => apply readsBack_sdone
  case azero | adrn | gang => simp only [readsBack_matrix]
  case aload | agset => simp only [readsBack_images]
  case send => apply readsBack_send
  case waitr | pollr => simp only [readsBack_waits]
  all_goals exact nomatch hbody

end Sys2Proof
end

section
/-! SUPPORT. The target bytes of an encoding are those R43 and R45 accept, and decoding gives the instruction back. -/
namespace Sys2Proof

theorem Tgt.byteOk (t : Tgt) : tgtByteOk t.byte = true := t.ofByte_byte.2.1

/-- The bytes of targets in order are in order. -/
theorem bytes_inOrder_of (l : List Tgt) (h : tgtsInOrder l = true) : inOrder (l.map Tgt.byte) = true := by
  induction l with
  | nil => rfl
  | cons a l ih =>
    cases l with
    | nil => rfl
    | cons b l =>
      simp only [tgtsInOrder, Bool.and_eq_true] at h
      obtain ⟨hab, hl⟩ := h
      have hpair := bytes_inOrder (a := a) (b := b) (by simpa [tgtsInOrder] using hab)
      simp only [Bool.and_eq_true, inOrder, Bool.and_true] at hpair
      simp only [List.map_cons, inOrder, Bool.and_eq_true]
      exact ⟨hpair.2, ih hl⟩

/-- MOV's two or four target bytes (R97). -/
theorem targetsOk_mov (f : MovF) (h : tgtsInOrder (Instr.mov f).targets = true) : (encodeRaw (.mov f)).targetsOk (.mov f) = true := by
  have hord := bytes_inOrder_of _ h
  obtain ⟨ty, pr, u, a, b, _ | ⟨c, d⟩⟩ := f <;>
    simpa [Raw.targetsOk, Raw.isC, Raw.isI, encodeRaw, mkRaw, Tgt.byteOk, Instr.targets] using hord

/-- An atomic's targets are write slots (R71), and so are their bytes. -/
theorem Tgt.byte_not_slot {t : Tgt} (h : (match t with | .to .. => false | _ => true) = true) :
  (t.byte == 0xFF || (0xC0 ≤ t.byte.toNat && t.byte.toNat < 0xD0)) = true := by
  match t with
  | .none => rfl
  | .wr n => revert n; decide

theorem targetsOk_atom (f : AtomF) (h : (Instr.atom f).tgtOk = true) : (encodeRaw (.atom f)).targetsOk (.atom f) = true := by
  simp only [Instr.tgtOk, Bool.and_eq_true, List.all_cons, List.all_nil, Bool.and_true] at h
  obtain ⟨hord, ha, hb⟩ := h
  show ([f.t0.byte, f.t1.byte].all (fun b => b == 0xFF || (0xC0 ≤ b.toNat && b.toNat < 0xD0)) && inOrder [f.t0.byte, f.t1.byte]) = true
  simp only [List.all_cons, List.all_nil, Tgt.byte_not_slot ha, Tgt.byte_not_slot hb, Bool.and_true, Bool.true_and]
  exact bytes_inOrder_of _ hord

/-- A store has targets in the modes that deliver an address, and else none (R117). -/
theorem targetsOk_st (f : MemF) (h : (Instr.st f).tgtOk = true) : (encodeRaw (.st f)).targetsOk (.st f) = true := by
  simp only [Instr.tgtOk, Bool.and_eq_true] at h
  obtain ⟨hord, hnone⟩ := h
  show (if (Instr.st f).targets.isEmpty then f.t0.byte == 0xFF && f.t1.byte == 0xFF
    else [f.t0.byte, f.t1.byte].all tgtByteOk && inOrder [f.t0.byte, f.t1.byte]) = true
  split
  case isTrue hempty =>
    simp only [hempty, Bool.not_true, Bool.false_or, Bool.and_eq_true, beq_iff_eq] at hnone
    rw [hnone.1, hnone.2]
    rfl
  case isFalse hsome =>
    have htwo : (Instr.st f).targets = [f.t0, f.t1] := by
      simp only [Instr.targets] at hsome ⊢
      split <;> simp_all
    exact bytes_inOrder (htwo ▸ hord)

/-- The target bytes of a well-formed instruction's encoding are accepted. -/
theorem targetsOk_encodeRaw (i : Instr) (h : i.wellFormed = true) : (encodeRaw i).targetsOk i = true := by
  simp only [Instr.wellFormed, Bool.and_eq_true] at h
  obtain ⟨⟨⟨hbody, -⟩, -⟩, htgt⟩ := h
  have hord : tgtsInOrder i.targets = true := by
    simp only [Instr.tgtOk, Bool.and_eq_true] at htgt
    exact htgt.1
  cases i
  case br | brc | brx | call | ret | exit | yield | trap | bkpt => rfl
  case movi => exact Tgt.byteOk _
  case mov f => exact targetsOk_mov f hord
  case atom f => exact targetsOk_atom f htgt
  case st f | sts f => exact targetsOk_st f htgt
  case nullSlot | modset | fsend | fence | fencex | pref | cctl | regrel | bararv | barwt | barsyn | tgive | sdone | srefu | tarm | tclr |
    mma | azero | aload | agset | gang | tdset | send => rfl
  case null | getsr | sel | add | sub | mul | mulh | mad | div | rem | min | max | abs | neg | and | or | xor | andn | not | shl | shr | sar |
    rol | clz | popc | brev | bfx | bfi | pk2 | cmp | lea | exh | hop | dp4 | shfl | vote | bcst | ld | lds | ldk | fadd | fsub | fmul |
    ffma | fmin | fmax | fsgn | fcmp | frcp | frsq | ftrn | fscl | fcls | cvt | fdiv | fop2 | qmax | qcvt | dqcv | scan | wred | frecv |
    fpeek | regclm | regqry | ttake | tstat | adrn | tdget | waitr | pollr =>
    exact bytes_inOrder hord
  all_goals exact nomatch hbody

/-- The predicate field of an encoding is the instruction's own. -/
theorem encodeRaw_pr (i : Instr) : (encodeRaw i).pr = i.pr.bits := by
  cases i
  case mov f => obtain ⟨_, _, _, _, _, _ | ⟨_, _⟩⟩ := f <;> rfl
  all_goals rfl

/-- Settles O3: the word's fields are those laid out, they name the instruction, and its targets' bytes are in order. -/
theorem decodesWhatItEncodes : Obligations.DecodesWhatItEncodes := by
  unfold Obligations.DecodesWhatItEncodes
  intro i h
  rw [decode, encode, Raw.ofWord_toWord]
  exact decodeRaw_of h (Instr.readsBack h) (by rw [encodeRaw_pr]; exact i.pr.bits_ne) (targetsOk_encodeRaw i h)

end Sys2Proof
end

section
/-! SUPPORT. What the fields of a word name: a body word, its targets from the target bytes; so what decodes is well formed. -/
namespace Sys2Proof

/-! The proofs of this section run one after another: each unfolds the same large functions, and all at once they ask for more threads than
the check's memory holds. -/
set_option Elab.async false


/-- Every instruction that a decoding answers has the property. -/
def Yields (P : Instr → Prop) (e : Except FmtCause Instr) : Prop := ∀ i, e = .ok i → P i

section
variable {P : Instr → Prop}

@[simp] theorem yields_error (c : FmtCause) : Yields P (.error c) := by simp [Yields]

@[simp] theorem yields_ck (c : Bool) (i : Instr) : Yields P (Raw.ck c i) ↔ (c = true → P i) := by
  cases c <;> simp [Yields, Raw.ck]

@[simp] theorem yields_code {α : Type} (o : Option α) (f : α → Except FmtCause Instr) :
    Yields P (Raw.code o f) ↔ ∀ a, o = some a → Yields P (f a) := by
  cases o <;> simp [Yields, Raw.code]

@[simp] theorem yields_ite (c : Prop) [Decidable c] (e e' : Except FmtCause Instr) :
    Yields P (if c then e else e') ↔ (c → Yields P e) ∧ (¬ c → Yields P e') := by
  by_cases h : c <;> simp [h]
end

/-- Where a word's fields put the targets of the instruction they name: the two target bytes, MOV's two more. -/
def Instr.TargetsFrom (r : Raw) : Instr → Prop
  | .mov f => f.t0 = Tgt.ofByte r.t0 ∧ f.t1 = Tgt.ofByte r.t1 ∧
    ∀ p ∈ f.more, p = (Tgt.ofByte (r.low.extractLsb' 16 8), Tgt.ofByte (r.low.extractLsb' 8 8))
  | .st f | .sts f => f.t0 = Tgt.ofByte r.t0 ∧ f.t1 = Tgt.ofByte r.t1
  | .atom f => f.t0 = Tgt.ofByte r.t0 ∧ f.t1 = Tgt.ofByte r.t1
  | i => i.targets.length ≤ 1 ∨ i.targets = [Tgt.ofByte r.t0, Tgt.ofByte r.t1]

/-- What the fields' instruction is before it is judged: a body word, with its targets from the target bytes, or with none to put in order
where the format has no such bytes. -/
def Raw.Names (r : Raw) (i : Instr) : Prop :=
  i.isBody = true ∧ i.TargetsFrom r ∧ (r.isC = true ∨ r.isI = true → i.tgtOk = true)

/-- The instruction that a word's fields name, opcode by opcode. -/
theorem Raw.fields_names (r : Raw) : Yields r.Names r.fields := by
  unfold Raw.fields
  split <;> rename_i hop <;>
    simp [Raw.ctl, Raw.int, Raw.flt, Raw.quant, Raw.scan, Raw.mem, Raw.fix, Raw.Names, Instr.isBody, Instr.ctorIdx, Raw.isC, Raw.isI, hop,
      Instr.TargetsFrom, Instr.targets, Raw.intF, Raw.floatF, Instr.tgtOk, tgtsInOrder]

/-- Among the bytes R43 accepts only 0xFF names no target. -/
theorem Tgt.ofByte_none {b : BitVec 8} (h : tgtByteOk b = true) : (Tgt.ofByte b == .none) = (b == 0xFF) := by
  revert b; decide
/-- The targets that bytes in order name are in order. -/
theorem ofBytes_inOrder (l : List (BitVec 8)) (hb : l.all tgtByteOk = true) (h : inOrder l = true) : tgtsInOrder (l.map Tgt.ofByte) = true := by
  induction l with
  | nil => rfl
  | cons a l ih =>
    cases l with
    | nil => rfl
    | cons b l =>
      simp only [List.all_cons, Bool.and_eq_true] at hb
      obtain ⟨ha, hb, hl⟩ := hb
      simp only [inOrder, Bool.and_eq_true] at h
      obtain ⟨hab, ho⟩ := h
      simp only [List.map_cons, tgtsInOrder, Bool.and_eq_true]
      refine ⟨?_, ih (by simp [hb, hl]) ho⟩
      simpa only [bne, Tgt.ofByte_none ha, Tgt.ofByte_none hb] using hab

theorem tgtsInOrder_of_short {l : List Tgt} (h : l.length ≤ 1) : tgtsInOrder l = true := by
  match l with
  | [] => rfl
  | [_] => rfl

theorem Tgt.byteOk_of_atom {b : BitVec 8} (h : (b == 0xFF || (0xC0 ≤ b.toNat && b.toNat < 0xD0)) = true) : tgtByteOk b = true := by
  revert b; decide

theorem Tgt.ofByte_of_atom {b : BitVec 8} (h : (b == 0xFF || (0xC0 ≤ b.toNat && b.toNat < 0xD0)) = true) :
    Tgt.ofByte b = .none ∨ Tgt.ofByte b = .wr (b.extractLsb' 0 4) := by
  revert b; decide

theorem pair_inOrder {r : Raw} {i : Instr} (hfrom : i.targets.length ≤ 1 ∨ i.targets = [Tgt.ofByte r.t0, Tgt.ofByte r.t1])
    (ht : (if i.targets.isEmpty then r.t0 == 0xFF && r.t1 == 0xFF else [r.t0, r.t1].all tgtByteOk && inOrder [r.t0, r.t1]) = true) :
    (tgtsInOrder i.targets && true) = true := by
  rw [Bool.and_true]
  rcases hfrom with hshort | hpair
  · exact tgtsInOrder_of_short hshort
  · simp only [hpair, List.isEmpty_cons, Bool.false_eq_true, if_false, Bool.and_eq_true] at ht
    exact hpair ▸ ofBytes_inOrder [r.t0, r.t1] ht.1 ht.2

theorem mov_tgtOk {r : Raw} {f : MovF} (hfrom : (Instr.mov f).TargetsFrom r)
    (ht : (let l := if f.more.isSome then [r.t0, r.t1, r.low.extractLsb' 16 8, r.low.extractLsb' 8 8] else [r.t0, r.t1]
      l.all tgtByteOk && inOrder l) = true) : (Instr.mov f).tgtOk = true := by
  obtain ⟨ty, pr, u, a, b, more⟩ := f
  obtain ⟨rfl, rfl, hmore⟩ := hfrom
  rw [Bool.and_eq_true] at ht
  have hord := ofBytes_inOrder _ ht.1 ht.2
  cases more with
  | none => exact (Bool.and_true _).trans hord
  | some p =>
    obtain rfl := hmore p rfl
    exact (Bool.and_true _).trans hord

theorem atom_tgtOk {r : Raw} {f : AtomF} (hfrom : (Instr.atom f).TargetsFrom r)
    (ht : ([r.t0, r.t1].all (fun b => b == 0xFF || (0xC0 ≤ b.toNat && b.toNat < 0xD0)) && inOrder [r.t0, r.t1]) = true) :
    (Instr.atom f).tgtOk = true := by
  obtain ⟨h0, h1⟩ := hfrom
  simp only [Bool.and_eq_true, List.all_cons, List.all_nil, and_true] at ht
  obtain ⟨⟨hb0, hb1⟩, hord⟩ := ht
  have hord := ofBytes_inOrder [r.t0, r.t1] (by simp [Tgt.byteOk_of_atom hb0, Tgt.byteOk_of_atom hb1]) hord
  rw [Instr.tgtOk, Bool.and_eq_true, Instr.targets, h0, h1]
  refine ⟨hord, ?_⟩
  rcases Tgt.ofByte_of_atom hb0 with h0 | h0 <;> rcases Tgt.ofByte_of_atom hb1 with h1 | h1 <;> rw [h0, h1] <;> rfl

/-- A store's targets: those of its bytes where its mode delivers an address, and else its two bytes are 0xFF. -/
theorem st_tgtOk {r : Raw} {f : MemF} (hfrom : f.t0 = Tgt.ofByte r.t0 ∧ f.t1 = Tgt.ofByte r.t1)
    (ht : (if (Instr.st f).targets.isEmpty then r.t0 == 0xFF && r.t1 == 0xFF
      else [r.t0, r.t1].all tgtByteOk && inOrder [r.t0, r.t1]) = true) : (Instr.st f).tgtOk = true := by
  obtain ⟨h0, h1⟩ := hfrom
  rw [Instr.tgtOk, Bool.and_eq_true]
  by_cases hmode : (f.am == .postInc || f.am == .modulo) = true
  · have htwo : (Instr.st f).targets = [Tgt.ofByte r.t0, Tgt.ofByte r.t1] := by rw [← h0, ← h1]; exact if_pos hmode
    exact ⟨(Bool.and_true _).symm.trans (pair_inOrder (.inr htwo) ht), by rw [htwo]; rfl⟩
  · have hnone : (Instr.st f).targets = [] := if_neg hmode
    simp only [hnone, List.isEmpty_nil, if_true, Bool.and_eq_true, beq_iff_eq] at ht
    rw [hnone, h0, h1, ht.1, ht.2]
    exact ⟨rfl, rfl⟩

/-- Target bytes that are accepted name targets that are (R45). -/
theorem Raw.Names.tgtOk {r : Raw} {i : Instr} (h : r.Names i) (ht : r.targetsOk i = true) : i.tgtOk = true := by
  obtain ⟨-, hfrom, hfmt⟩ := h
  by_cases hC : r.isC = true
  · exact hfmt (.inl hC)
  by_cases hI : r.isI = true
  · exact hfmt (.inr hI)
  unfold Raw.targetsOk at ht
  rw [if_neg hC, if_neg hI] at ht
  clear hfmt
  cases i
  case mov f => exact mov_tgtOk hfrom ht
  case atom f => exact atom_tgtOk hfrom ht
  case st f | sts f => exact st_tgtOk hfrom ht
  all_goals exact pair_inOrder hfrom ht

theorem decodeRaw_wellFormed {r : Raw} {i : Instr} (h : decodeRaw r = .ok i) : i.wellFormed = true := by
  unfold decodeRaw at h
  split at h
  case h_1 => exact nomatch h
  case h_2 j hj =>
    have hnames := r.fields_names j hj
    split at h
    next => exact nomatch h
    split at h
    next => exact nomatch h
    split at h
    next => exact nomatch h
    next hacc hpred htgt =>
      obtain rfl := Except.ok.inj h
      simp only [Bool.or_eq_true, Bool.not_eq_true', not_or, Bool.not_eq_false] at hacc hpred htgt
      simp only [Instr.wellFormed, hnames.1, hacc, hpred.2, hnames.tgtOk htgt, Bool.and_true]

/-- A word whose opcode is assigned to no instruction has no fields (R56, cause 0x09). -/
theorem fields_unassigned {r : Raw} (h : r.op.toNat ∈
      [0x00, 0x0F, 0x2F, 0x43, 0x49, 0x4A, 0x4B, 0x4F, 0x5B, 0x5C, 0x5D, 0x5E, 0x5F, 0x66, 0x67, 0x6F, 0x78, 0x79, 0x7A, 0x7B,
        0x7C, 0x7D, 0x7E, 0x7F] ∨ 0x83 ≤ r.op.toNat) : r.fields = .error .opcode := by
  unfold Raw.fields
  split
  case h_108 => rfl
  all_goals
    rename_i hop
    exact absurd h (by rw [hop]; decide)

/-- Settles O2: what decodes passed the checks of its fields, its predicate and its target bytes; an unassigned opcode is no branch of the
fields. -/
theorem decodesOnlyWellFormed : Obligations.DecodesOnlyWellFormed := by
  unfold Obligations.DecodesOnlyWellFormed
  refine ⟨fun w i h => decodeRaw_wellFormed h, fun w h => ?_⟩
  rw [decode, decodeRaw, fields_unassigned (r := Raw.ofWord w) h]

end Sys2Proof
end

section
/-! SUPPORT. Header copies and Overlay fills: their beginning, their last line, and a refused reissue. -/
namespace Sys2Proof.Machine
variable {s t : State} {c : Copy}

/-- A reissue whose check answers a fault cancels the copy all the same (R84). -/
theorem State.reissue_refused {x : Warp} {r : CopyCheck}
    (h : s.checkCopy x { dk := c.ovl, dst := c.dst, src := c.src, len := c.len, pol := c.pol } (x.k.getD c.src 0) = (t, r))
    (hok : ∀ lo, r ≠ .ok lo) (hrel : ∀ g, r ≠ .reloading g) : s.reissue x c = (t.abandonCopy c.id, some r) := by
  simp only [State.reissue, h]

theorem State.copyStep_found {id : Nat} {ovl : Bool} (f : State → Copy → State)
    (h : (s.copies.find? fun y => y.id == id && y.ovl == ovl) = some c) : s.copyStep id ovl f = .next (f s c) := by
  simp only [State.copyStep, h]

theorem State.tileRefs_eq_nil {v : TeamId} {tid : Nat} : s.tileRefs v tid = [] ↔ ∀ r ∈ s.refs, r.obj ≠ .tile v tid := by
  simp [List.eq_nil_iff_forall_not_mem, State.mem_tileRefs]

/-- What a tile that a copy may begin into is (R183, R184). -/
theorem State.tileFree_iff {v : TeamId} {tid order : Nat} : s.tileFree v tid order = true ↔
    (s.tileSt v tid = .empty ∧ ∀ r ∈ s.refs, r.obj ≠ .tile v tid) ∧ (s.tileWaiters v tid).all (fun o => order ≤ o) = true := by
  simp [State.tileFree, State.tileRefs_eq_nil]

theorem State.beginCopy_tile (hw : c.phase = .waiting) (hrun : s.unitRuns (dieOf c.core) c.unit = true) (ho : c.ovl = false)
    (hf : s.tileFree c.warp.team c.dst c.id = true) :
    s.beginCopy c = (s.setCopy c.id fun y => { y with phase := .writing }).tileState c.warp.team c.dst .filling := by
  simp [State.beginCopy, hw, hrun, ho, hf]

theorem State.beginCopy_overlay (hw : c.phase = .waiting) (hrun : s.unitRuns (dieOf c.core) c.unit = true) (ho : c.ovl = true)
    (hf : s.fillReady c.core c.id c.lo (c.lo + c.len) = true) :
    s.beginCopy c = s.setCopy c.id fun y => { y with phase := .writing } := by
  simp [State.beginCopy, hw, hrun, ho, hf]

/-- A copy ends with its last line where nothing holds its tile (R84, R183). -/
theorem State.runCopy_whole {y : Copy} (hw : c.phase = .writing) (hrun : s.unitRuns (dieOf c.core) c.unit = true)
    (hrefs : c.ovl = true ∨ s.tileRefs c.warp.team c.dst = [])
    (ht : (lineParts c.va.toNat c.len).foldl (fun s p => s.copyLine c.id p) s = t)
    (hy : (t.copies.find? fun y => y.id == c.id) = some y) (hwhole : y.whole = true) : s.runCopy c = t.endCopy y := by
  have hfree : (!c.ovl && !(s.tileRefs c.warp.team c.dst).isEmpty) = false := by rcases hrefs with h | h <;> simp [h]
  simp [State.runCopy, hw, hrun, hfree, ht, hy, hwhole]

/-- The tile of a copy that ends is ready (R182). -/
theorem State.endCopy_ready {tm : Team} {z : Tile} (ho : c.ovl = false) (ht : s.team? c.warp.team = some tm) (hz : tm.tile? c.dst = some z) :
    (s.endCopy c).tileSt c.warp.team c.dst = .ready := by
  have htile : (s.team? c.warp.team).bind (·.tile? c.dst) = some z := by rw [ht]; exact hz
  rw [State.endCopy, ho, if_neg Bool.false_ne_true]
  exact State.fillTile_ready (s := s.setCopy c.id fun y => { y with phase := .done }) htile c.got

/-- Settles O43: a refused reissue by its check; a copy and a fill begin where nothing holds their place, and end with their last line. -/
theorem copiesComplete : Obligations.CopiesComplete := by
  unfold Obligations.CopiesComplete
  refine ⟨fun s t x c r h hok hrel => ⟨_, State.reissue_refused h hok hrel, rfl, rfl⟩, fun s c hc hrun => ⟨?_, ?_, ?_, ?_⟩⟩
  · intro hw ho hf
    rw [ho] at hc
    rw [exec_copyBegin, execCopyBegin, State.copyStep_found _ hc, State.beginCopy_tile hw hrun ho hf]
    exact ⟨rfl, (State.tileFree_iff.1 hf).1⟩
  · intro hw ho hf
    rw [ho] at hc
    rw [exec_overlayFillBegin, execOverlayFillBegin, State.copyStep_found _ hc, State.beginCopy_overlay hw hrun ho hf]
  · intro hw ho hrefs y hy hwhole
    rw [ho] at hc
    rw [exec_copyComplete, execCopyComplete, State.copyStep_found _ hc,
      State.runCopy_whole hw hrun (.inr (State.tileRefs_eq_nil.2 hrefs)) rfl hy hwhole]
    exact ⟨rfl, fun tm z hovl htm hz => State.endCopy_ready hovl htm hz⟩
  · intro hw ho y hy hwhole
    rw [ho] at hc
    rw [exec_overlayFillComplete, execOverlayFillComplete, State.copyStep_found _ hc, State.runCopy_whole hw hrun (.inl ho) rfl hy hwhole]

end Sys2Proof.Machine
end

section
/-! SUPPORT. The faults of a memory, neighbour or tile instruction at issue (R124, R226, R263, R319, R327). -/
namespace Sys2Proof.Machine

/-! ### The checks of one lane (R263) -/

section Lane
variable {s t : State} {core ctx acc width : Nat} {hostOk : Bool} {c : Checked} {l : Nat} {va : W64}

theorem checkLane_misaligned (h : va.toNat % width ≠ 0) :
    s.checkLane core ctx acc width hostOk c (l, va) = (s, { c with bad := c.bad.or (some (5, l, va)) }) := by
  simp [State.checkLane, h]

theorem checkLane_bad {k : Nat} (h : va.toNat % width = 0) (ht : s.translate (some core) ctx va = (t, .bad k)) :
    s.checkLane core ctx acc width hostOk c (l, va) = (t, { c with bad := c.bad.or (some (k, l, va)) }) := by
  simp [State.checkLane, h, ht]

theorem checkLane_poisoned {pa code : Nat} (h : va.toNat % width = 0) (ht : s.translate (some core) ctx va = (t, .poisoned pa code)) :
    s.checkLane core ctx acc width hostOk c (l, va) = (t, { c with walk := c.walk.or (some (va, pa, code)) }) := by
  simp [State.checkLane, h, ht]

theorem checkLane_absent (h : va.toNat % width = 0) (ht : s.translate (some core) ctx va = (t, .absent)) :
    s.checkLane core ctx acc width hostOk c (l, va) = (t, { c with absent := c.absent.or (some (l, va)) }) := by
  simp [State.checkLane, h, ht]

/-- An aligned lane whose page is found: a write to a page with W = 0, an atomic on a window it is not carried to, or the access. -/
theorem checkLane_page {pa : Nat} {w ex nc : Bool} (h : va.toNat % width = 0)
    (ht : s.translate (some core) ctx va = (t, .page pa w ex nc)) :
    s.checkLane core ctx acc width hostOk c (l, va) = (t,
      if acc ≠ 0 ∧ w = false then { c with bad := c.bad.or (some (3, l, va)) }
      else if acc = 2 ∧ (isHost pa || isPeer pa) = true ∧ hostOk = false then { c with bad := c.bad.or (some (7, l, va)) }
      else { c with accs := c.accs ++ [{ lane := l, va := va, pa := pa, nc := nc }] }) := by
  simp only [State.checkLane, h, ht, bne_self_eq_false, Bool.false_eq_true, if_false, Bool.and_eq_true, bne_iff_ne, beq_iff_eq,
    Bool.not_eq_true', and_assoc, apply_ite (Prod.mk t)]

/-- A lane found to fault stays the one that gives the record its cause (R124). -/
theorem checkLane_keeps_bad {b : Nat × Nat × W64} (hb : c.bad = some b) :
    (s.checkLane core ctx acc width hostOk c (l, va)).2.bad = some b := by
  by_cases h : va.toNat % width = 0
  · obtain ⟨t, r, ht⟩ : ∃ t r, s.translate (some core) ctx va = (t, r) := ⟨_, _, rfl⟩
    cases r with
    | bad k => simp [checkLane_bad h ht, hb]
    | poisoned pa code => simp [checkLane_poisoned h ht, hb]
    | absent => simp [checkLane_absent h ht, hb]
    | page pa w ex nc =>
      rw [checkLane_page h ht]
      dsimp only
      split_ifs <;> simp [hb]
  · simp [checkLane_misaligned h, hb]

end Lane

/-! ### An instruction's lanes (R124) -/

section Access
variable {s t : State} {x : Issue} {c : Checked} {i : Instr} {acc width : Nat} {hostOk : Bool} {ls : List (Nat × W64)}
variable (hc : s.checkLanes x.warp.core x.w.team.launch.ctx acc width hostOk ls = (t, c)) (k : State → List LaneAcc → State)
include hc

theorem State.access_bad {cause l : Nat} {va : W64} (hb : c.bad = some (cause, l, va)) :
    s.access x i acc width hostOk ls k = t.protection x cause (if i.uniform then 0 else (1 : Lanes) <<< l) va := by
  simp only [State.access, hc, State.afterCheck, hb]

theorem State.access_absent {l : Nat} {va : W64} (hb : c.bad = none) (hw : c.walk = none) (ha : c.absent = some (l, va)) :
    s.access x i acc width hostOk ls k = t.park x.w 1 acc (if i.uniform then 0 else (1 : Lanes) <<< l) va := by
  simp only [State.access, hc, State.afterCheck, hb, hw, ha]

end Access

/-- The fault of an instruction whose meaning is one access: of its lane, or for the page that its lane does not find. -/
theorem access_faults {s t : State} {x : Issue} {c : Checked} {i : Instr} {acc width : Nat} {hostOk : Bool} {ls : Issue → List (Nat × W64)}
    {k : Issue → State → List LaneAcc → State} (hf : Fires s i x)
    (he : exec i s = s.firing i fun x => s.access x i acc width hostOk (ls x) (k x))
    (hc : s.checkLanes x.warp.core x.w.team.launch.ctx acc width hostOk (ls x) = (t, c)) :
    (∀ cause l va, c.bad = some (cause, l, va) →
      exec i s = .next (t.protection x cause (if i.uniform then 0 else (1 : Lanes) <<< l) va)) ∧
    (∀ l va, c.bad = none → c.walk = none → c.absent = some (l, va) →
      exec i s = .next (t.park x.w 1 acc (if i.uniform then 0 else (1 : Lanes) <<< l) va)) := by
  rw [he, firing_eq hf]
  exact ⟨fun cause l va hb => by rw [State.access_bad hc _ hb], fun l va hb hw ha => by rw [State.access_absent hc _ hb hw ha]⟩

/-! ### The scratchpad (R122) -/

section Scratchpad
variable {size width l : Nat} {va : W64} {ls : List (Nat × W64)}

theorem spadBad_misaligned (h : va.toNat % width ≠ 0) : spadBad size width ((l, va) :: ls) = some (5, l, va) := by
  simp [spadBad, h]

theorem spadBad_beyond (h : va.toNat % width = 0) (hb : size < va.toNat + width) :
    spadBad size width ((l, va) :: ls) = some (6, l, va) := by
  simp [spadBad, h, hb]

theorem spadBad_within (h : va.toNat % width = 0) (hb : va.toNat + width ≤ size) :
    spadBad size width ((l, va) :: ls) = spadBad size width ls := by
  simp [spadBad, h, Nat.not_lt.mpr hb]

theorem State.spadAccess_bad {s : State} {x : Issue} {cause : Nat} (uni write : Bool) (k : State → State)
    (h : spadBad ((s.launchOf x.w).spad * 1024) width ls = some (cause, l, va)) :
    s.spadAccess x uni write width ls k = s.protection x cause (if uni then 0 else (1 : Lanes) <<< l) va := by
  simp only [State.spadAccess, h]

end Scratchpad

/-! ### Neighbours (R226) -/

section Neighbour
variable {s : State} {x : Issue} {pv : Bool} {pr : Pr} (hn : s.neighbour x.w.team pv = none)
include hn

theorem neighbourOp_none (k : State) : s.neighbourOp x pv k = s.protection x 9 0 0 := by
  simp only [State.neighbourOp, hn]

theorem fsend_alone {rel : Bool} (h : Fires s (.fsend pv pr rel) x) (hok : okLanes (.fsend pv pr rel) x.o ≠ 0) :
    exec (.fsend pv pr rel) s = .next (s.protection x 9 0 0) := by
  rw [exec_fsend, execFsend, firing_eq h]
  simp only [neighbourOp_none hn, beq_eq_false_iff_ne.mpr hok, Bool.false_eq_true, if_false]

theorem frecv_alone {acq : Bool} {a b : Tgt} (h : Fires s (.frecv pv pr acq a b) x) (hok : okLanes (.frecv pv pr acq a b) x.o ≠ 0) :
    exec (.frecv pv pr acq a b) s = .next (s.protection x 9 0 0) := by
  rw [exec_frecv, execFrecv, firing_eq h]
  simp only [neighbourOp_none hn, beq_eq_false_iff_ne.mpr hok, Bool.false_eq_true, if_false]

theorem fpeek_alone {a b : Tgt} (h : Fires s (.fpeek pv pr a b) x) (hu : uniOk (.fpeek pv pr a b) x.o = true) :
    exec (.fpeek pv pr a b) s = .next (s.protection x 9 0 0) := by
  rw [exec_fpeek, execFpeek, firing_eq h]
  simp only [neighbourOp_none hn, hu, Bool.not_true, Bool.false_eq_true, if_false]

end Neighbour

/-! ### Tiles and units (R181, R319, R323, R327) -/

section Unit
variable {s : State} {x : Issue} {pr : Pr} {tid : BitVec 6} {t : Team} {u : Taken} (ht : s.team? x.w.team = some t)
include ht

theorem State.holds_none {k : Nat} (hu : (t.taken.find? fun u => u.tid == k) = none) : s.holds x.w k = false := by
  simp [State.holds, ht, hu]

theorem State.holds_some {k : Nat} (hu : (t.taken.find? fun u => u.tid == k) = some u) : s.holds x.w k = u.heldBy x.w.warp := by
  simp [State.holds, ht, hu]

theorem State.undeclared?_eq {k : Nat} (hu : (t.taken.find? fun u => u.tid == k) = some u) : s.undeclared? x k = !x.declares u := by
  simp [State.undeclared?, ht, hu]

/-- TGIVE by its unit: held by no other warp, and declared (R39, R323). -/
theorem tgive_faults (h : Fires s (.tgive pr tid) x) (hok : uniOk (.tgive pr tid) x.o = true) :
    let found := t.taken.find? fun u => u.tid == tid.toNat
    (found = none → exec (.tgive pr tid) s = .next (s.illegal x tid.toNat false)) ∧
    (found = some u → u.heldBy x.w.warp = false → exec (.tgive pr tid) s = .next (s.illegal x tid.toNat false)) ∧
    (found = some u → u.heldBy x.w.warp = true → x.declares u = false → exec (.tgive pr tid) s = .next (s.undeclared x)) := by
  rw [exec_tgive, execTgive, firing_eq h]
  simp only [hok, ht, Option.bind_some, Bool.not_true, Bool.false_eq_true, if_false]
  exact ⟨fun hu => by rw [hu], fun hu hh => by simp only [hu, hh, Bool.not_false, if_true],
    fun hu hh hd => by simp only [hu, hh, hd, Bool.not_true, Bool.false_eq_true, Bool.not_false, if_false, if_true]⟩

/-- An ending instruction that a test of its routine and its unit comes before: outside its routine, with its unit another's or none, or
not declared (R327, logs 85 and 108). -/
theorem ending_faults {i : Instr} {f : Issue → State} (h : Fires s i x) (hok : uniOk i x.o = true)
    (he : exec i s = s.firing i fun x => if !uniOk i x.o then s.finish x
      else if !s.mayEnd x tid.toNat then s.illegal x tid.toNat false
      else if s.undeclared? x tid.toNat then s.undeclared x else f x) :
    let found := t.taken.find? fun u => u.tid == tid.toNat
    (x.inRoutine tid.toNat = false → exec i s = .next (s.illegal x tid.toNat false)) ∧
    (found = none → exec i s = .next (s.illegal x tid.toNat false)) ∧
    (found = some u → u.heldBy x.w.warp = false → exec i s = .next (s.illegal x tid.toNat false)) ∧
    (x.inRoutine tid.toNat = true → found = some u → u.heldBy x.w.warp = true → x.declares u = false →
      exec i s = .next (s.undeclared x)) := by
  have hillegal (hm : s.mayEnd x tid.toNat = false) : exec i s = .next (s.illegal x tid.toNat false) := by
    rw [he, firing_eq h]
    simp only [hok, hm, Bool.not_true, Bool.false_eq_true, Bool.not_false, if_false, if_true]
  refine ⟨fun hr => hillegal ?_, fun hu => hillegal ?_, fun hu hh => hillegal ?_, fun hr hu hh hd => ?_⟩
  · rw [State.mayEnd, hr, Bool.false_and]
  · rw [State.mayEnd, State.holds_none ht hu, Bool.and_false]
  · rw [State.mayEnd, State.holds_some ht hu, hh, Bool.and_false]
  · have hm : s.mayEnd x tid.toNat = true := by rw [State.mayEnd, hr, State.holds_some ht hu, hh, Bool.and_true]
    rw [he, firing_eq h]
    simp only [hok, hm, State.undeclared?_eq ht hu, hd, Bool.not_true, Bool.false_eq_true, Bool.not_false, if_false, if_true]

end Unit

/-- The payload of an illegal tile use is the tile's id. -/
theorem State.illegal_tile (s : State) (x : Issue) (tid : BitVec 6) :
    s.illegal x tid.toNat false = s.fault x.w (s.stopOf x.w 0x05 0 0 x.run.va [tid.setWidth 64]) := by
  rw [State.illegal, if_neg Bool.false_ne_true, Nat.add_zero, BitVec.ofNat_toNat]

/-- TCLR of a tile that its warp may not name (R181). -/
theorem tclr_unnamed {s : State} {x : Issue} {pr : Pr} {tid : BitVec 6} (h : Fires s (.tclr pr tid) x)
    (hok : uniOk (.tclr pr tid) x.o = true) (hn : ¬ Named s x tid.toNat) :
    exec (.tclr pr tid) s = .next (s.illegal x tid.toNat false) := by
  have hname : ((s.team? x.w.team).map fun t => t.mayName x.w.warp tid.toNat).getD false = false := by
    cases ht : s.team? x.w.team with
    | none => rfl
    | some t => exact Bool.eq_false_iff.mpr fun hm => hn ⟨t, ht, hm⟩
  rw [exec_tclr, execTclr, firing_eq h]
  simp [hok, State.unnamed?, hname]

/-- Settles O23: a lane by what its translation finds, an access by the lanes' check, the scratchpad by its offsets; a team by its neighbour, a
unit by its holder and its declaration. -/
theorem faultsAtIssue : Obligations.FaultsAtIssue := by
  unfold Obligations.FaultsAtIssue
  refine ⟨fun s x t c => ⟨fun f hf hc => ?_, fun f hf hc => ?_, fun f hf hc => ?_, fun f hf hc => ?_⟩, ?_, ?_, ?_, ?_, ?_, ?_⟩
  · exact access_faults hf rfl hc
  · exact access_faults hf rfl hc
  · exact access_faults hf rfl hc
  · exact access_faults (ls := fun x => (okList (.atom f) x.o).map fun l =>
      (l, laneAddr false (if f.indexed then .indexed else .base) f.imm f.bytes x.o l)) hf rfl hc
  · intro s core ctx acc width hostOk ls l va
    simp only [State.checkLanes, List.foldl_append, List.foldl_cons, List.foldl_nil]
  · intro s t core ctx acc width hostOk c l va
    refine ⟨fun b hb => checkLane_keeps_bad hb, fun hb h => by simp [checkLane_misaligned h, hb], fun hb h => ⟨fun k ht => ?_, fun ht => ?_,
      fun pa w ex nc ht => ⟨fun hacc hw => ?_, fun hacc hw hwin hhost => ?_, fun hok => ?_⟩⟩⟩
    · simp [checkLane_bad h ht, hb]
    · simp [checkLane_absent h ht, hb]
    · simp [checkLane_page h ht, hacc, hw, hb]
    · subst hacc hw hhost
      rw [checkLane_page h ht, if_neg (by simp), if_pos ⟨rfl, hwin, rfl⟩, hb]
      rfl
    · have h3 : ¬ (acc ≠ 0 ∧ w = false) := by rintro ⟨hacc, rfl⟩; simp [hacc] at hok
      have h7 : ¬ (acc = 2 ∧ (isHost pa || isPeer pa) = true ∧ hostOk = false) := by rintro ⟨rfl, hwin, rfl⟩; simp [hwin] at hok
      rw [checkLane_page h ht, if_neg h3, if_neg h7]
      exact ⟨hb, rfl⟩
  · intro s f x k l va
    refine ⟨fun hf hb => ?_, fun hf hb => ?_⟩
    · rw [exec_lds, execLds, firing_eq hf]
      exact congrArg _ (State.spadAccess_bad false false _ hb)
    · rw [exec_sts, execSts, firing_eq hf]
      exact congrArg _ (State.spadAccess_bad false true _ hb)
  · exact fun size width l va ls => ⟨spadBad_misaligned, spadBad_beyond, spadBad_within⟩
  · exact fun s x pv pr hn => ⟨fun rel => fsend_alone hn, fun acq a b => frecv_alone hn, fun a b => fpeek_alone hn⟩
  · intro s x pr tid t u ht
    dsimp only
    rw [← State.illegal_tile s x tid]
    exact ⟨fun hf hok => tgive_faults ht hf hok, fun sum hf hok => ending_faults ht hf hok rfl, fun hf hok => ending_faults ht hf hok rfl,
      fun hf hok hn => tclr_unnamed hf hok hn⟩

end Sys2Proof.Machine
end
